-- ==== Sys2Proof/Word.lean ====
section
/-! DEFINITION. The words of the machine and their plainest arithmetic. -/

namespace Sys2Proof

/-- An instruction word (spec/02 R21). -/
abbrev Word := BitVec 32

/-- A scalar register's contents (spec/02 R18). -/
abbrev DWord := BitVec 64

/-- A handle register's contents (spec/02 R18). -/
abbrev HWord := BitVec 256

/-- A byte of memory. -/
abbrev Byte := BitVec 8

end Sys2Proof
end

