-- ==== Sys2Proof/Config.lean ====
section
/-! DEFINITION. What an implementation fixes, and the free values of the spec: constants with no
body, so that nothing can be proved of their values (log 6). -/

namespace Sys2Proof.Config

/-- A free number for each moment (the counter `State.freeCtr`): a choice the spec leaves open,
such as the token table entry that is taken (R135). -/
opaque freeNat : Nat → Nat

/-- A transcendental function of R205 on the bits of an f64 or f32 value, inside the bounds the
spec gives; `fn` is 8 to 12 as in R231 and `wide` tells f64. -/
opaque transcendental : (fn : Nat) → (wide : Bool) → Nat → Nat

/-- The order in which a reduction is combined (R257): for a match (launch, group and its number),
an element and a step, which values come next. -/
opaque combineOrder : (launch group matchNo elem step : Nat) → Nat

/-- The match identifier that frames of a collective carry (R360), for a PASID, a group and a
match's number. -/
opaque matchId : (pasid group matchNo : Nat) → BitVec 64

/-- The payload that carries a member's elements, and what it was issued with, to another module (R360):
the spec gives its place and length, not its layout. -/
opaque collPayload : (member : Nat) → (terms elems : List Nat) → List Byte

/-- What a member of another module was issued with, once the payloads that have come for a match say it
(R253). -/
opaque remoteTerms : (member : Nat) → (payloads : List (List Byte)) → Option (List Nat)

/-- The MAC address that a port's own is made from, by the device identity (R359). -/
opaque portMac : (devid : List Byte) → (port : Nat) → BitVec 48

/-- The elements of a member of another module in the payloads that have come for a match, once
all of them have. -/
opaque remotePart : (member : Nat) → (payloads : List (List Byte)) → Option (List Nat)

/-- The payload of an ABORT frame for a culprit rank, and the culprit of one (R259, R360). -/
opaque abortPayload : (culprit : Nat) → List Byte
/-- The culprit that the payload of an ABORT frame names. -/
opaque abortCulprit : List Byte → Nat

/-- A fresh latchkey nonce (R365, R376), for each moment. -/
opaque nonce : Nat → List Byte

/-- What the firmware answers a mailbox command 0x0040 or above with (R365): result and
response, for each moment. -/
opaque firmware : Nat → (code : Nat) → List Byte → Nat × List Byte

/-- The voltage of an island before the firmware sets it, in mV (R383). -/
opaque islandVolt : (island : Nat) → Nat

/-- Bytes of the storage classes 4 to 10 of the scrub (R375), whose sizes the spec does not give. -/
opaque classBytes : (class_ : Nat) → Nat

/-- The order in which a specialiser walks its pending points (R323), for each operation and choice. -/
opaque specOrder : (id k : Nat) → Nat

end Sys2Proof.Config
end

