-- ==== Sys2Proof/Syntax.lean ====
section
/-! DEFINITION. The syntax of the Caerny's steps: every row of the opcode table, the register
names and operand forms (spec/02 R25 to R40), and the parameters of the events. -/

namespace Sys2Proof

/-- A scalar register field, s0 to s31 (R18). -/
abbrev SReg := BitVec 5

/-- A handle register field, h0 to h15 (R18). -/
abbrev HReg := BitVec 4

/-- Operand b of form R: a register, or a literal of one or two words (R27). -/
inductive Operand where
  /-- K = 0: the register s[b]. -/
  | reg (r : SReg)
  /-- K = 1, b = 0: the next word, sign-extended. -/
  | lit32 (v : BitVec 32)
  /-- K = 1, b = 1: the next two words, low word first. -/
  | lit64 (v : BitVec 64)
  deriving DecidableEq, Repr

/-- The scalar registers an operand names. -/
def Operand.sregs : Operand → List SReg
  | .reg r => [r]
  | .lit32 _ => []
  | .lit64 _ => []

/-- An operand with its register sent through `f`. -/
def Operand.map (f : SReg → SReg) : Operand → Operand
  | .reg r => .reg (f r)
  | .lit32 v => .lit32 v
  | .lit64 v => .lit64 v

/-- The order fields of form E (R28, R29). `slot` is `none` when SETS = 0. -/
structure EOrd where
  wait : BitVec 8
  sT : SReg
  trapf : Bool
  rel : Bool
  det : Bool
  pri : BitVec 2
  slot : Option (BitVec 3)
  deriving DecidableEq, Repr

/-- The order fields with the token register sent through `f`. -/
def EOrd.map (f : SReg → SReg) (o : EOrd) : EOrd := { o with sT := f o.sT }

/-- The order fields of a vector instruction: sT names s0 and DET is 0 (R30). -/
structure VOrd where
  wait : BitVec 8
  trapf : Bool
  rel : Bool
  pri : BitVec 2
  slot : Option (BitVec 3)
  deriving DecidableEq, Repr

/-- A change of the policy core to a queue (R278, R280), named by PASID, QNUM and GEN. -/
inductive QueueChange where
  | create (pasid qnum gen ring size statusq : Nat)
  | park (pasid qnum gen : Nat)
  | reinstate (pasid qnum gen : Nat)
  | destroy (pasid qnum gen : Nat)
  deriving DecidableEq, Repr

/-- Where an abort of a collective comes from (R259): the module's list of aborts, or an ABORT frame. -/
inductive AbortSrc where
  | here (n : Nat)
  | frame (bytes : List Byte)
  deriving DecidableEq, Repr

/-- An engine (R137): a core's matrix unit, the engines of a cluster (die × 8 + cluster), the
specialiser of a die, the eddy bin applier of a base die. -/
inductive EngineId where
  | matrix (core : Nat)
  | copy (cl : Nat)
  | eddy (stack : Nat)
  | quant (cl : Nat)
  | weir (cl : Nat)
  | coll (cl : Nat)
  | spec (die : Nat)
  deriving DecidableEq, Repr

/-- How a mailbox command comes (R365): through BAR0, with LEN of the request in MBXDATA, or over
MCTP with its bytes. -/
inductive MbxReq where
  | bar0 (len : Nat)
  | mctp (bytes : List Byte)
  deriving DecidableEq, Repr

/-- What the firmware does on a command of its own, as far as the machine can tell (R359, R362): it
sets a far window, takes one away, sets a cross-module group, or assigns the module number. -/
inductive FwAction where
  | none
  | farWindow (pasid win rmod rpasid base : Nat)
  | farClear (pasid win : Nat)
  | group (launch gnum : Nat) (remote : List (Nat × Nat × Nat))
  | modnum (n : Nat)
  deriving DecidableEq, Repr

/-- Where an uncorrectable error is detected (R380): a 64-byte unit of HBM by its number; an on-chip
memory byte by its home; a queue or table of a core; a cached translation of a core, cluster or die; a
register of a context; a matrix unit; the staging buffer of a copy operation; a die's dispatcher; the
policy core's memory. For an on-chip memory, `launch` meets the error and `core` is the core by which it
does. -/
inductive ErrUnit where
  | hbm (unit : Nat)
  | sram (home launch core : Nat)
  | table (core : Nat)
  | coreTlb (core n : Nat)
  | clusterTlb (cl n : Nat)
  | dieTlb (die n : Nat)
  | walker (die n : Nat)
  | register (core ctx : Nat)
  | matrix (core : Nat)
  | staging (op : Nat)
  | dispatcher (die : Nat)
  | policy
  deriving DecidableEq, Repr

/-- The steps of the part: one constructor for each row of the opcode table, in its order.
The first group are instruction words (encoded by `encode`), the second group events. -/
inductive Instr where
  /-- ADD (R160). -/
  | add (w : Bool) (d : SReg) (a : SReg) (b : Operand)
  /-- SUB (R160). -/
  | sub (w : Bool) (d : SReg) (a : SReg) (b : Operand)
  /-- AND (R160). -/
  | and (d : SReg) (a : SReg) (b : Operand)
  /-- OR (R160). -/
  | or (d : SReg) (a : SReg) (b : Operand)
  /-- XOR (R160). -/
  | xor (d : SReg) (a : SReg) (b : Operand)
  /-- ANDN (R160). -/
  | andn (d : SReg) (a : SReg) (b : Operand)
  /-- SLL (R160). -/
  | sll (w : Bool) (d : SReg) (a : SReg) (b : Operand)
  /-- SRL (R160). -/
  | srl (w : Bool) (d : SReg) (a : SReg) (b : Operand)
  /-- SRA (R160). -/
  | sra (w : Bool) (d : SReg) (a : SReg) (b : Operand)
  /-- ROL (R160). -/
  | rol (w : Bool) (d : SReg) (a : SReg) (b : Operand)
  /-- SLT (R160). -/
  | slt (d : SReg) (a : SReg) (b : Operand)
  /-- SLTU (R160). -/
  | sltu (d : SReg) (a : SReg) (b : Operand)
  /-- MIN (R160). -/
  | min (d : SReg) (a : SReg) (b : Operand)
  /-- MAX (R160). -/
  | max (d : SReg) (a : SReg) (b : Operand)
  /-- MINU (R160). -/
  | minu (d : SReg) (a : SReg) (b : Operand)
  /-- MAXU (R160). -/
  | maxu (d : SReg) (a : SReg) (b : Operand)
  /-- MUL (R160). -/
  | mul (w : Bool) (d : SReg) (a : SReg) (b : Operand)
  /-- MULH (R160). -/
  | mulh (d : SReg) (a : SReg) (b : Operand)
  /-- MULHU (R160). -/
  | mulhu (d : SReg) (a : SReg) (b : Operand)
  /-- DIV (R162). -/
  | div (w : Bool) (d : SReg) (a : SReg) (b : Operand)
  /-- DIVU (R162). -/
  | divu (w : Bool) (d : SReg) (a : SReg) (b : Operand)
  /-- REM (R162). -/
  | rem (w : Bool) (d : SReg) (a : SReg) (b : Operand)
  /-- REMU (R162). -/
  | remu (w : Bool) (d : SReg) (a : SReg) (b : Operand)
  /-- SHADD (R160). -/
  | shadd (k : BitVec 2) (d : SReg) (a : SReg) (b : Operand)
  /-- SEL (R160). -/
  | sel (d : SReg) (a : SReg) (b : Operand)
  /-- CLZ (R163). -/
  | clz (w : Bool) (d : SReg) (a : SReg)
  /-- CTZ (R163). -/
  | ctz (w : Bool) (d : SReg) (a : SReg)
  /-- POPC (R163). -/
  | popc (w : Bool) (d : SReg) (a : SReg)
  /-- BREV (R163). -/
  | brev (w : Bool) (d : SReg) (a : SReg)
  /-- BSWAP (R163). -/
  | bswap (w : Bool) (d : SReg) (a : SReg)
  /-- SEXT (R163). -/
  | sext (d : SReg) (a : SReg) (b : Operand)
  /-- ZEXT (R163). -/
  | zext (d : SReg) (a : SReg) (b : Operand)
  /-- EXT (R163). -/
  | ext (d : SReg) (a : SReg) (b : Operand)
  /-- INS (R163). -/
  | ins (d : SReg) (a : SReg) (b : Operand)
  /-- ADDI (R164). -/
  | addi (d : SReg) (a : SReg) (imm : BitVec 15)
  /-- ANDI (R164). -/
  | andi (d : SReg) (a : SReg) (imm : BitVec 15)
  /-- ORI (R164). -/
  | ori (d : SReg) (a : SReg) (imm : BitVec 15)
  /-- XORI (R164). -/
  | xori (d : SReg) (a : SReg) (imm : BitVec 15)
  /-- SLTI (R164). -/
  | slti (d : SReg) (a : SReg) (imm : BitVec 15)
  /-- SLTIU (R164). -/
  | sltiu (d : SReg) (a : SReg) (imm : BitVec 15)
  /-- SLLI (R165). -/
  | slli (d : SReg) (a : SReg) (n : BitVec 6)
  /-- SRLI (R165). -/
  | srli (d : SReg) (a : SReg) (n : BitVec 6)
  /-- SRAI (R165). -/
  | srai (d : SReg) (a : SReg) (n : BitVec 6)
  /-- ROLI (R165). -/
  | roli (d : SReg) (a : SReg) (n : BitVec 6)
  /-- FADD (R168). -/
  | fadd (r : BitVec 2) (f : Bool) (d : SReg) (a : SReg) (b : Operand)
  /-- FSUB (R168). -/
  | fsub (r : BitVec 2) (f : Bool) (d : SReg) (a : SReg) (b : Operand)
  /-- FMUL (R168). -/
  | fmul (r : BitVec 2) (f : Bool) (d : SReg) (a : SReg) (b : Operand)
  /-- FDIV (R168). -/
  | fdiv (r : BitVec 2) (f : Bool) (d : SReg) (a : SReg) (b : Operand)
  /-- FSQRT (R168). -/
  | fsqrt (r : BitVec 2) (f : Bool) (d : SReg) (a : SReg)
  /-- FMIN (R169). -/
  | fmin (f : Bool) (d : SReg) (a : SReg) (b : Operand)
  /-- FMAX (R169). -/
  | fmax (f : Bool) (d : SReg) (a : SReg) (b : Operand)
  /-- FMA (R168). -/
  | fma (r : BitVec 2) (f : Bool) (d : SReg) (a : SReg) (b : Operand)
  /-- FNMA (R168). -/
  | fnma (r : BitVec 2) (f : Bool) (d : SReg) (a : SReg) (b : Operand)
  /-- FEQ (R169). -/
  | feq (f : Bool) (d : SReg) (a : SReg) (b : Operand)
  /-- FLT (R169). -/
  | flt (f : Bool) (d : SReg) (a : SReg) (b : Operand)
  /-- FLE (R169). -/
  | fle (f : Bool) (d : SReg) (a : SReg) (b : Operand)
  /-- FCLASS (R168). -/
  | fclass (f : Bool) (d : SReg) (a : SReg)
  /-- FCVT (R170). -/
  | fcvt (r : BitVec 2) (k : BitVec 5) (d : SReg) (a : SReg)
  /-- FSGN_J (R168). -/
  | fsgnJ (f : Bool) (d : SReg) (a : SReg) (b : Operand)
  /-- FSGN_JN (R168). -/
  | fsgnJn (f : Bool) (d : SReg) (a : SReg) (b : Operand)
  /-- FSGN_JX (R168). -/
  | fsgnJx (f : Bool) (d : SReg) (a : SReg) (b : Operand)
  /-- LD (R172). -/
  | ld (o : Bool) (z : BitVec 3) (h : BitVec 2) (b : SReg) (a : SReg) (t : SReg)
  /-- LD_FE (R108). -/
  | ldFe (o : Bool) (z : BitVec 3) (h : BitVec 2) (b : SReg) (a : SReg) (t : SReg)
  /-- LD_FEC (R108). -/
  | ldFec (o : Bool) (z : BitVec 3) (h : BitVec 2) (b : SReg) (a : SReg) (t : SReg)
  /-- ST (R172). -/
  | st (o : Bool) (z : BitVec 2) (h : BitVec 2) (b : SReg) (a : SReg) (t : SReg)
  /-- ST_FES (R107). -/
  | stFes (o : Bool) (z : BitVec 2) (h : BitVec 2) (b : SReg) (a : SReg) (t : SReg)
  /-- ST_FEE (R108). -/
  | stFee (o : Bool) (z : BitVec 2) (h : BitVec 2) (b : SReg) (a : SReg) (t : SReg)
  /-- LDI (R173). -/
  | ldi (off : BitVec 10) (z : BitVec 3) (o : Bool) (a : SReg) (t : SReg)
  /-- STI (R173). -/
  | sti (off : BitVec 10) (z : BitVec 2) (o : Bool) (a : SReg) (t : SReg)
  /-- PREF (R177). -/
  | pref (off : BitVec 10) (a : SReg)
  /-- AMOADD (R178). -/
  | amoAdd (scope : BitVec 3) (o : BitVec 2) (w : Bool) (b : SReg) (a : SReg) (d : SReg)
  /-- AMOAND (R178). -/
  | amoAnd (scope : BitVec 3) (o : BitVec 2) (w : Bool) (b : SReg) (a : SReg) (d : SReg)
  /-- AMOOR (R178). -/
  | amoOr (scope : BitVec 3) (o : BitVec 2) (w : Bool) (b : SReg) (a : SReg) (d : SReg)
  /-- AMOXOR (R178). -/
  | amoXor (scope : BitVec 3) (o : BitVec 2) (w : Bool) (b : SReg) (a : SReg) (d : SReg)
  /-- AMOMIN (R178). -/
  | amoMin (scope : BitVec 3) (o : BitVec 2) (w : Bool) (b : SReg) (a : SReg) (d : SReg)
  /-- AMOMAX (R178). -/
  | amoMax (scope : BitVec 3) (o : BitVec 2) (w : Bool) (b : SReg) (a : SReg) (d : SReg)
  /-- AMOMINU (R178). -/
  | amoMinu (scope : BitVec 3) (o : BitVec 2) (w : Bool) (b : SReg) (a : SReg) (d : SReg)
  /-- AMOMAXU (R178). -/
  | amoMaxu (scope : BitVec 3) (o : BitVec 2) (w : Bool) (b : SReg) (a : SReg) (d : SReg)
  /-- AMOSWAP (R178). -/
  | amoSwap (scope : BitVec 3) (o : BitVec 2) (w : Bool) (b : SReg) (a : SReg) (d : SReg)
  /-- CAS (R178). -/
  | cas (scope : BitVec 3) (o : BitVec 2) (w : Bool) (b : SReg) (a : SReg) (d : SReg)
  /-- FENCE (R268). -/
  | fence (scope : BitVec 3)
  /-- BEQ (R181). -/
  | beq (off : BitVec 11) (b : SReg) (a : SReg)
  /-- BNE (R181). -/
  | bne (off : BitVec 11) (b : SReg) (a : SReg)
  /-- BLT (R181). -/
  | blt (off : BitVec 11) (b : SReg) (a : SReg)
  /-- BGE (R181). -/
  | bge (off : BitVec 11) (b : SReg) (a : SReg)
  /-- BLTU (R181). -/
  | bltu (off : BitVec 11) (b : SReg) (a : SReg)
  /-- BGEU (R181). -/
  | bgeu (off : BitVec 11) (b : SReg) (a : SReg)
  /-- JAL (R182). -/
  | jal (off : BitVec 20) (d : SReg)
  /-- JALR (R182). -/
  | jalr (imm : BitVec 15) (a : SReg) (d : SReg)
  /-- LOOP (R183). -/
  | loop (imm : BitVec 15) (a : SReg)
  /-- REP (R185). -/
  | rep (ss : BitVec 4) (hs : BitVec 4) (c : SReg) (n : BitVec 5)
  /-- CALLH (R329). -/
  | callh (a : SReg) (d : SReg)
  /-- RETH (R330). -/
  | reth (a : SReg)
  /-- CSRR (R187). -/
  | csrr (c : BitVec 12) (d : SReg)
  /-- CSRW (R187). -/
  | csrw (c : BitVec 12) (a : SReg) (d : SReg)
  /-- CSRS (R187). -/
  | csrs (c : BitVec 12) (a : SReg) (d : SReg)
  /-- CSRC (R187). -/
  | csrc (c : BitVec 12) (a : SReg) (d : SReg)
  /-- TRAP (R189). -/
  | trap (imm : BitVec 15)
  /-- ERET (R337). -/
  | eret
  /-- BRK (R189). -/
  | brk (imm : BitVec 15)
  /-- HLD (R93). -/
  | hld (imm : BitVec 8) (s : SReg) (hd : HReg)
  /-- HST (R93). -/
  | hst (imm : BitVec 8) (s : SReg) (ha : HReg)
  /-- HGET (R93). -/
  | hget (w : BitVec 2) (s : SReg) (ha : HReg)
  /-- HSET (R93). -/
  | hset (w : BitVec 2) (s : SReg) (ha : HReg) (hd : HReg)
  /-- HMOV (R93). -/
  | hmov (ha : HReg) (hd : HReg)
  /-- HADV (R94). -/
  | hadv (w : BitVec 2) (s : SReg) (ha : HReg) (hd : HReg)
  /-- HCHK (R88). -/
  | hchk (u : Bool) (s : SReg) (ha : HReg)
  /-- START (R293). -/
  | start (d : SReg) (a : SReg) (b : SReg)
  /-- HEXIT (R294). -/
  | hexit (a : SReg)
  /-- HJOIN (R295). -/
  | hjoin (d : SReg) (a : SReg) (b : SReg)
  /-- HSTAT (R295). -/
  | hstat (d : SReg) (a : SReg)
  /-- BARA (R296). -/
  | bara (g : BitVec 2) (b : SReg)
  /-- BARW (R296). -/
  | barw (d : SReg) (g : BitVec 2)
  /-- BAR (R297). -/
  | bar (d : SReg) (g : BitVec 2) (b : SReg)
  /-- EXCH (R300). -/
  | exch (d : SReg)
  /-- STEP (R300). -/
  | step (d : SReg)
  /-- MSEND (R302). -/
  | msend (a : SReg) (b : SReg)
  /-- MRECV (R302). -/
  | mrecv (d : SReg) (a : SReg)
  /-- MESSAGE_ARRIVAL (R342). -/
  | messageArrival (core : Nat) (id : Nat)
  /-- MSEND_RETRY (R302). -/
  | msendRetry (core : Nat) (id : Nat)
  /-- ENQ (R304). -/
  | enq (d : SReg) (a : SReg) (b : SReg)
  /-- RDONE (R305). -/
  | rdone (d : SReg)
  /-- GRAB (R310). -/
  | grab (d : SReg) (a : SReg)
  /-- PREEMPT (R346). -/
  | preempt (d : SReg) (a : SReg) (live : BitVec 48)
  /-- SLEEPTO (R306). -/
  | sleepto (a : SReg)
  /-- WAITT (R150). -/
  | waitt (d : SReg) (a : SReg)
  /-- TSTAT (R151). -/
  | tstat (d : SReg) (a : SReg)
  /-- CANCEL (R152). -/
  | cancel (d : SReg) (a : SReg)
  /-- DETACH (R153). -/
  | detach (d : SReg) (a : SReg) (b : SReg)
  /-- ADOPT (R154). -/
  | adopt (d : SReg) (a : SReg)
  /-- TPRI (R155). -/
  | tpri (d : SReg) (a : SReg) (b : SReg)
  /-- TFREC (R156). -/
  | tfrec (d : SReg) (a : SReg) (b : SReg)
  /-- WAITS (R157). -/
  | waits (d : SReg) (a : SReg)
  /-- RGINIT (R126). -/
  | rginit (d : SReg) (h : HReg)
  /-- RGWAIT (R127). -/
  | rgwait (d : SReg) (a : SReg)
  /-- RGREL (R127). -/
  | rgrel (a : SReg)
  /-- RGSTAT (R128). -/
  | rgstat (d : SReg) (a : SReg)
  /-- RESERVE_SLOT (R121). -/
  | reserveSlot (id : Nat)
  /-- FILL_SLOT (R121). -/
  | fillSlot (id : Nat)
  /-- CLAIM_HEAD (R121). -/
  | claimHead (id : Nat)
  /-- HACQ (R332). -/
  | hacq (d : SReg) (a : SReg)
  /-- HREL (R332). -/
  | hrel (d : SReg) (a : SReg)
  /-- HINFO (R332). -/
  | hinfo (d : SReg) (a : SReg)
  /-- QSUB (R309). -/
  | qsub (d : SReg) (a : SReg) (b : SReg)
  /-- QSTAT (R309). -/
  | qstat (d : SReg) (a : SReg)
  /-- BIND (R95). -/
  | bind (d : SReg) (a : SReg) (h : HReg)
  /-- UNBIND (R97). -/
  | unbind (d : SReg) (a : SReg)
  /-- COPY (R115). -/
  | copy (o : EOrd) (hC : HReg) (hA : HReg) (sX : SReg) (sY : SReg) (sZ : SReg)
  /-- COPYM (R116). -/
  | copym (o : EOrd) (hC : HReg) (hA : HReg) (sX : SReg)
  /-- PACK (R118). -/
  | pack (o : EOrd) (hC : HReg) (hA : HReg) (sX : SReg)
  /-- UNPACK (R118). -/
  | unpack (o : EOrd) (hC : HReg) (hA : HReg) (sX : SReg)
  /-- SCADD (R100). -/
  | scadd (o : EOrd) (hA : HReg) (hB : HReg) (sX : SReg)
  /-- BFLUSH (R101). -/
  | bflush (o : EOrd) (sX : SReg)
  /-- MMA (R218). -/
  | mma (ovw : Bool) (o : EOrd) (hC : HReg) (hA : HReg) (hB : HReg)
  /-- MMAG (R221). -/
  | mmag (ovw : Bool) (o : EOrd) (hC : HReg) (hA : HReg) (hB : HReg) (sX : SReg) (sY : SReg) (sZ : SReg)
  /-- VADD (R233). -/
  | vadd (r : BitVec 2) (o : VOrd) (hC : HReg) (hA : HReg) (hB : HReg)
  /-- VSUB (R233). -/
  | vsub (r : BitVec 2) (o : VOrd) (hC : HReg) (hA : HReg) (hB : HReg)
  /-- VMUL (R233). -/
  | vmul (r : BitVec 2) (o : VOrd) (hC : HReg) (hA : HReg) (hB : HReg)
  /-- VFMA (R233). -/
  | vfma (r : BitVec 2) (o : VOrd) (hC : HReg) (hA : HReg) (hB : HReg)
  /-- VMAX (R233). -/
  | vmax (r : BitVec 2) (o : VOrd) (hC : HReg) (hA : HReg) (hB : HReg)
  /-- VMIN (R233). -/
  | vmin (r : BitVec 2) (o : VOrd) (hC : HReg) (hA : HReg) (hB : HReg)
  /-- VABS (R233). -/
  | vabs (r : BitVec 2) (o : VOrd) (hC : HReg) (hA : HReg)
  /-- VNEG (R233). -/
  | vneg (r : BitVec 2) (o : VOrd) (hC : HReg) (hA : HReg)
  /-- VEXP (R205). -/
  | vexp (r : BitVec 2) (o : VOrd) (hC : HReg) (hA : HReg)
  /-- VLOG (R205). -/
  | vlog (r : BitVec 2) (o : VOrd) (hC : HReg) (hA : HReg)
  /-- VRCP (R205). -/
  | vrcp (r : BitVec 2) (o : VOrd) (hC : HReg) (hA : HReg)
  /-- VRSQ (R205). -/
  | vrsq (r : BitVec 2) (o : VOrd) (hC : HReg) (hA : HReg)
  /-- VTANH (R205). -/
  | vtanh (r : BitVec 2) (o : VOrd) (hC : HReg) (hA : HReg)
  /-- VCMP (R234). -/
  | vcmp (r : BitVec 2) (o : VOrd) (hC : HReg) (hA : HReg) (hB : HReg) (sX : SReg)
  /-- VSEL (R234). -/
  | vsel (r : BitVec 2) (o : VOrd) (hC : HReg) (hA : HReg) (hB : HReg)
  /-- VCVT (R234). -/
  | vcvt (r : BitVec 2) (o : VOrd) (hC : HReg) (hA : HReg)
  /-- VSCL (R234). -/
  | vscl (r : BitVec 2) (o : VOrd) (hC : HReg) (hA : HReg) (sX : SReg)
  /-- VREDS (R235). -/
  | vreds (r : BitVec 2) (o : VOrd) (hC : HReg) (hA : HReg)
  /-- VREDM (R235). -/
  | vredm (r : BitVec 2) (o : VOrd) (hC : HReg) (hA : HReg)
  /-- VSCAN (R235). -/
  | vscan (r : BitVec 2) (o : VOrd) (hC : HReg) (hA : HReg)
  /-- STRIP_DISPATCH (R227). -/
  | stripDispatch (cl : Nat)
  /-- QNT_Q4UNI (R239). -/
  | qntQ4uni (o : EOrd) (hC : HReg) (hA : HReg)
  /-- QNT_Q4E2M1 (R239). -/
  | qntQ4e2m1 (o : EOrd) (hC : HReg) (hA : HReg)
  /-- QNT_Q4POW (R239). -/
  | qntQ4pow (o : EOrd) (hC : HReg) (hA : HReg)
  /-- QNT_Q4HYB (R239). -/
  | qntQ4hyb (o : EOrd) (hC : HReg) (hA : HReg)
  /-- QNT_Q4AUTO (R199). -/
  | qntQ4auto (o : EOrd) (hC : HReg) (hA : HReg)
  /-- DQNT (R240). -/
  | dqnt (o : EOrd) (hC : HReg) (hA : HReg)
  /-- QCHK (R241). -/
  | qchk (o : EOrd) (hA : HReg)
  /-- WINIT (R246). -/
  | winit (o : EOrd) (hC : HReg) (sX : SReg)
  /-- WPROBE (R247). -/
  | wprobe (o : EOrd) (hC : HReg) (hA : HReg) (hB : HReg)
  /-- WCOMMIT (R249). -/
  | wcommit (o : EOrd) (hC : HReg) (hA : HReg) (sX : SReg) (sY : SReg) (sZ : SReg)
  /-- WPICK (R248). -/
  | wpick (o : EOrd) (hA : HReg) (sY : SReg) (sZ : SReg)
  /-- WRD (R250). -/
  | wrd (o : EOrd) (hC : HReg) (hA : HReg) (hB : HReg)
  /-- ALLRED (R256). -/
  | allred (red : BitVec 3) (o : EOrd) (hC : HReg) (hA : HReg) (sX : SReg) (sZ : SReg)
  /-- REDSCAT (R256). -/
  | redscat (red : BitVec 3) (o : EOrd) (hC : HReg) (hA : HReg) (sX : SReg) (sZ : SReg)
  /-- ALLGATH (R256). -/
  | allgath (o : EOrd) (hC : HReg) (hA : HReg) (sX : SReg) (sZ : SReg)
  /-- BCAST (R256). -/
  | bcast (o : EOrd) (hC : HReg) (hA : HReg) (sX : SReg) (sY : SReg) (sZ : SReg)
  /-- ALLTOALL (R256). -/
  | alltoall (o : EOrd) (hC : HReg) (hA : HReg) (sX : SReg) (sZ : SReg)
  /-- COLLECTIVE_TIMEOUT (R259). -/
  | collectiveTimeout (id : Nat)
  /-- ABORT (R259). -/
  | abort (src : AbortSrc)
  /-- SPEC (R320). -/
  | spec (o : EOrd) (sX : SReg) (sY : SReg) (sZ : SReg)
  /-- ENGINE_START (R138). -/
  | engineStart (e : EngineId)
  /-- ENGINE_STEP (R269). -/
  | engineStep (id : Nat) (k : Nat)
  /-- OPERATION_COMPLETION (R134). -/
  | operationCompletion (id : Nat)
  /-- DRAIN (R262). -/
  | drain (core : Nat) (ctx : Nat)
  /-- PERFORM (R262). -/
  | perform (src : Nat) (dst : Nat)
  /-- REFRESH (R262). -/
  | refresh (die : Nat) (g : Nat)
  /-- PAGE_WALK (R64). -/
  | pageWalk (core : Nat) (pasid : Nat) (va : Nat)
  /-- KICK (R281). -/
  | kick (v : DWord)
  /-- KICKSTAT_READ (R356). -/
  | kickstatRead
  /-- LOOKUP_ANSWER (R279). -/
  | lookupAnswer (id : Nat)
  /-- QCB_CHANGE (R280). -/
  | qcbChange (c : QueueChange)
  /-- NOP (R282). -/
  | nop
  /-- LAUNCH (R287). -/
  | launch
  /-- GANG_RELEASE (R287). -/
  | gangRelease (id : Nat)
  /-- CONTROL_CONTEXT_START (R382). -/
  | controlContextStart (core : Nat)
  /-- LAUNCH_COMPLETE (R288). -/
  | launchComplete (id : Nat)
  /-- RECORDS (R307). -/
  | records
  /-- EXPAND_RECORD (R308). -/
  | expandRecord (id : Nat)
  /-- RECORDS_COMPLETE (R308). -/
  | recordsComplete (id : Nat)
  /-- FENCE_PACKET (R282). -/
  | fencePacket
  /-- SIGNAL (R283). -/
  | signal
  /-- SERVICE_DRAIN (R276). -/
  | serviceDrain
  /-- SERVICE_DRAIN_COMPLETE (R276). -/
  | serviceDrainComplete
  /-- INVALIDATE_PAGE (R67). -/
  | invalidatePage (v : Word)
  /-- INVALIDATE_PASID (R67). -/
  | invalidatePasid (v : Word)
  /-- INVALIDATE_ALL (R67). -/
  | invalidateAll (v : Word)
  /-- INVALIDATION_COMPLETE (R68). -/
  | invalidationComplete
  /-- REGISTER_WRITE (R356). -/
  | registerWrite (off : Nat) (n : Nat) (v : DWord)
  /-- BAR2_READ (R70). -/
  | bar2Read (x : Nat) (n : Nat) (tag : Option Nat)
  /-- BAR2_WRITE (R70). -/
  | bar2Write (x : Nat) (bs : List Byte) (tag : Option Nat)
  /-- PCIE_COMPLETION (R69). -/
  | pcieCompletion (id : Nat) (r : Option (List Byte))
  /-- COMPLETION_TIMEOUT (R69). -/
  | completionTimeout (id : Nat)
  /-- ATTEST (R372). -/
  | attest (r : MbxReq)
  /-- CHALLENGE (R365). -/
  | challenge (r : MbxReq)
  /-- LATCHKEY (R376). -/
  | latchkey (r : MbxReq)
  /-- LEASE_START (R370). -/
  | leaseStart (r : MbxReq)
  /-- STAGE (R369). -/
  | stage (r : MbxReq)
  /-- HANDOVER (R371). -/
  | handover (r : MbxReq)
  /-- RECORD (R375). -/
  | record (r : MbxReq)
  /-- RECLAIM (R374). -/
  | reclaim (r : MbxReq)
  /-- RECLAIM_REGISTER_WRITE (R373). -/
  | reclaimRegisterWrite (v : DWord)
  /-- MBX_UNKNOWN (R365). -/
  | mbxUnknown (code : Nat) (r : MbxReq)
  /-- FIRMWARE_COMMAND (R365). -/
  | firmwareCommand (code : Nat) (r : MbxReq) (act : FwAction)
  /-- YIELD (R371). -/
  | yield
  /-- HANDOVER_TIMEOUT (R371). -/
  | handoverTimeout
  /-- DBG_STOP (R377). -/
  | dbgStop (core : Nat)
  /-- DBG_GO (R377). -/
  | dbgGo (core : Nat)
  /-- FUNCTION_LEVEL_RESET (R357). -/
  | functionLevelReset
  /-- POWER_ON (R368). -/
  | powerOn
  /-- TIMESET (R352). -/
  | timeset (v : DWord)
  /-- TIME_TRIM (R366). -/
  | timeTrim (ppm : Int)
  /-- POOL_OWNER_SET (R413). -/
  | poolOwnerSet (die : Nat) (pasid : Option Nat)
  /-- PREEMPT_REQUEST (R343). -/
  | preemptRequest (cl : Nat) (lid : Nat) (claim : Nat) (prio : Nat) (base : Nat) (stride : Nat)
  /-- POINT_TAKEN (R346). -/
  | pointTaken (cl : Nat)
  /-- POINT_DECLINED (R344). -/
  | pointDeclined (cl : Nat)
  /-- RESTORE_REQUEST (R350). -/
  | restoreRequest (cl : Nat) (lid : Nat)
  /-- JOB_FATAL_DISCARD (R341). -/
  | jobFatalDiscard (id : Nat)
  /-- LEADER_FAILOVER (R311). -/
  | leaderFailover (id : Nat)
  /-- DATA (R361). -/
  | data (bs : List Byte)
  /-- ACK (R361). -/
  | ack (bs : List Byte)
  /-- NAK (R361). -/
  | nak (bs : List Byte)
  /-- PROBE (R360). -/
  | probe (bs : List Byte)
  /-- REPLAY_TIMEOUT (R361). -/
  | replayTimeout (peer : Nat) (cls : Nat)
  /-- FE_TIMEOUT (R109). -/
  | feTimeout (core : Nat) (ctx : Nat)
  /-- UNCORRECTABLE_ERROR (R380). -/
  | uncorrectableError (u : ErrUnit)
  /-- FLIT_REPLAY (R380). -/
  | flitReplay (link : Nat)
  /-- LINK_FENCE (R380). -/
  | linkFence (link : Nat) (used : List Nat)
  /-- POWER_CAP (R383). -/
  | powerCap (island : Nat) (rate : Nat)
  /-- THERMAL_THROTTLE (R383). -/
  | thermalThrottle (island : Nat)
  /-- THERMAL_SHUTDOWN (R383). -/
  | thermalShutdown
  /-- BADPKT (R282). -/
  | badpkt
  /-- SLEEPTO_WAKE (R306). -/
  | sleeptoWake (core : Nat) (ctx : Nat)
  /-- RELEASE_TIME_REACHED (R305). -/
  | releaseTimeReached (core : Nat)
  /-- SAVE_COMPLETE (R351). -/
  | saveComplete (cl : Nat)
  /-- RECLAIM_COMPLETE (R374). -/
  | reclaimComplete
  /-- MBX_COMMAND_COMPLETE (R365). -/
  | mbxCommandComplete
  /-- POWER_LOSS (R367). -/
  | powerLoss
  /-- CORRECTED_ERROR (R380). -/
  | correctedError (u : ErrUnit)
  /-- PTP_EVENT_FRAME (R366). -/
  | ptpEventFrame (port : Nat) (sent : Bool)
  deriving DecidableEq, Repr

/-- The rows of the table that are events, not instruction words: they have no encoding. -/
def Instr.isEvent : Instr → Bool
  | .add _ _ _ _ => false
  | .sub _ _ _ _ => false
  | .and _ _ _ => false
  | .or _ _ _ => false
  | .xor _ _ _ => false
  | .andn _ _ _ => false
  | .sll _ _ _ _ => false
  | .srl _ _ _ _ => false
  | .sra _ _ _ _ => false
  | .rol _ _ _ _ => false
  | .slt _ _ _ => false
  | .sltu _ _ _ => false
  | .min _ _ _ => false
  | .max _ _ _ => false
  | .minu _ _ _ => false
  | .maxu _ _ _ => false
  | .mul _ _ _ _ => false
  | .mulh _ _ _ => false
  | .mulhu _ _ _ => false
  | .div _ _ _ _ => false
  | .divu _ _ _ _ => false
  | .rem _ _ _ _ => false
  | .remu _ _ _ _ => false
  | .shadd _ _ _ _ => false
  | .sel _ _ _ => false
  | .clz _ _ _ => false
  | .ctz _ _ _ => false
  | .popc _ _ _ => false
  | .brev _ _ _ => false
  | .bswap _ _ _ => false
  | .sext _ _ _ => false
  | .zext _ _ _ => false
  | .ext _ _ _ => false
  | .ins _ _ _ => false
  | .addi _ _ _ => false
  | .andi _ _ _ => false
  | .ori _ _ _ => false
  | .xori _ _ _ => false
  | .slti _ _ _ => false
  | .sltiu _ _ _ => false
  | .slli _ _ _ => false
  | .srli _ _ _ => false
  | .srai _ _ _ => false
  | .roli _ _ _ => false
  | .fadd _ _ _ _ _ => false
  | .fsub _ _ _ _ _ => false
  | .fmul _ _ _ _ _ => false
  | .fdiv _ _ _ _ _ => false
  | .fsqrt _ _ _ _ => false
  | .fmin _ _ _ _ => false
  | .fmax _ _ _ _ => false
  | .fma _ _ _ _ _ => false
  | .fnma _ _ _ _ _ => false
  | .feq _ _ _ _ => false
  | .flt _ _ _ _ => false
  | .fle _ _ _ _ => false
  | .fclass _ _ _ => false
  | .fcvt _ _ _ _ => false
  | .fsgnJ _ _ _ _ => false
  | .fsgnJn _ _ _ _ => false
  | .fsgnJx _ _ _ _ => false
  | .ld _ _ _ _ _ _ => false
  | .ldFe _ _ _ _ _ _ => false
  | .ldFec _ _ _ _ _ _ => false
  | .st _ _ _ _ _ _ => false
  | .stFes _ _ _ _ _ _ => false
  | .stFee _ _ _ _ _ _ => false
  | .ldi _ _ _ _ _ => false
  | .sti _ _ _ _ _ => false
  | .pref _ _ => false
  | .amoAdd _ _ _ _ _ _ => false
  | .amoAnd _ _ _ _ _ _ => false
  | .amoOr _ _ _ _ _ _ => false
  | .amoXor _ _ _ _ _ _ => false
  | .amoMin _ _ _ _ _ _ => false
  | .amoMax _ _ _ _ _ _ => false
  | .amoMinu _ _ _ _ _ _ => false
  | .amoMaxu _ _ _ _ _ _ => false
  | .amoSwap _ _ _ _ _ _ => false
  | .cas _ _ _ _ _ _ => false
  | .fence _ => false
  | .beq _ _ _ => false
  | .bne _ _ _ => false
  | .blt _ _ _ => false
  | .bge _ _ _ => false
  | .bltu _ _ _ => false
  | .bgeu _ _ _ => false
  | .jal _ _ => false
  | .jalr _ _ _ => false
  | .loop _ _ => false
  | .rep _ _ _ _ => false
  | .callh _ _ => false
  | .reth _ => false
  | .csrr _ _ => false
  | .csrw _ _ _ => false
  | .csrs _ _ _ => false
  | .csrc _ _ _ => false
  | .trap _ => false
  | .eret => false
  | .brk _ => false
  | .hld _ _ _ => false
  | .hst _ _ _ => false
  | .hget _ _ _ => false
  | .hset _ _ _ _ => false
  | .hmov _ _ => false
  | .hadv _ _ _ _ => false
  | .hchk _ _ _ => false
  | .start _ _ _ => false
  | .hexit _ => false
  | .hjoin _ _ _ => false
  | .hstat _ _ => false
  | .bara _ _ => false
  | .barw _ _ => false
  | .bar _ _ _ => false
  | .exch _ => false
  | .step _ => false
  | .msend _ _ => false
  | .mrecv _ _ => false
  | .messageArrival _ _ => true
  | .msendRetry _ _ => true
  | .enq _ _ _ => false
  | .rdone _ => false
  | .grab _ _ => false
  | .preempt _ _ _ => false
  | .sleepto _ => false
  | .waitt _ _ => false
  | .tstat _ _ => false
  | .cancel _ _ => false
  | .detach _ _ _ => false
  | .adopt _ _ => false
  | .tpri _ _ _ => false
  | .tfrec _ _ _ => false
  | .waits _ _ => false
  | .rginit _ _ => false
  | .rgwait _ _ => false
  | .rgrel _ => false
  | .rgstat _ _ => false
  | .reserveSlot _ => true
  | .fillSlot _ => true
  | .claimHead _ => true
  | .hacq _ _ => false
  | .hrel _ _ => false
  | .hinfo _ _ => false
  | .qsub _ _ _ => false
  | .qstat _ _ => false
  | .bind _ _ _ => false
  | .unbind _ _ => false
  | .copy _ _ _ _ _ _ => false
  | .copym _ _ _ _ => false
  | .pack _ _ _ _ => false
  | .unpack _ _ _ _ => false
  | .scadd _ _ _ _ => false
  | .bflush _ _ => false
  | .mma _ _ _ _ _ => false
  | .mmag _ _ _ _ _ _ _ _ => false
  | .vadd _ _ _ _ _ => false
  | .vsub _ _ _ _ _ => false
  | .vmul _ _ _ _ _ => false
  | .vfma _ _ _ _ _ => false
  | .vmax _ _ _ _ _ => false
  | .vmin _ _ _ _ _ => false
  | .vabs _ _ _ _ => false
  | .vneg _ _ _ _ => false
  | .vexp _ _ _ _ => false
  | .vlog _ _ _ _ => false
  | .vrcp _ _ _ _ => false
  | .vrsq _ _ _ _ => false
  | .vtanh _ _ _ _ => false
  | .vcmp _ _ _ _ _ _ => false
  | .vsel _ _ _ _ _ => false
  | .vcvt _ _ _ _ => false
  | .vscl _ _ _ _ _ => false
  | .vreds _ _ _ _ => false
  | .vredm _ _ _ _ => false
  | .vscan _ _ _ _ => false
  | .stripDispatch _ => true
  | .qntQ4uni _ _ _ => false
  | .qntQ4e2m1 _ _ _ => false
  | .qntQ4pow _ _ _ => false
  | .qntQ4hyb _ _ _ => false
  | .qntQ4auto _ _ _ => false
  | .dqnt _ _ _ => false
  | .qchk _ _ => false
  | .winit _ _ _ => false
  | .wprobe _ _ _ _ => false
  | .wcommit _ _ _ _ _ _ => false
  | .wpick _ _ _ _ => false
  | .wrd _ _ _ _ => false
  | .allred _ _ _ _ _ _ => false
  | .redscat _ _ _ _ _ _ => false
  | .allgath _ _ _ _ _ => false
  | .bcast _ _ _ _ _ _ => false
  | .alltoall _ _ _ _ _ => false
  | .collectiveTimeout _ => true
  | .abort _ => true
  | .spec _ _ _ _ => false
  | .engineStart _ => true
  | .engineStep _ _ => true
  | .operationCompletion _ => true
  | .drain _ _ => true
  | .perform _ _ => true
  | .refresh _ _ => true
  | .pageWalk _ _ _ => true
  | .kick _ => true
  | .kickstatRead => true
  | .lookupAnswer _ => true
  | .qcbChange _ => true
  | .nop => true
  | .launch => true
  | .gangRelease _ => true
  | .controlContextStart _ => true
  | .launchComplete _ => true
  | .records => true
  | .expandRecord _ => true
  | .recordsComplete _ => true
  | .fencePacket => true
  | .signal => true
  | .serviceDrain => true
  | .serviceDrainComplete => true
  | .invalidatePage _ => true
  | .invalidatePasid _ => true
  | .invalidateAll _ => true
  | .invalidationComplete => true
  | .registerWrite _ _ _ => true
  | .bar2Read _ _ _ => true
  | .bar2Write _ _ _ => true
  | .pcieCompletion _ _ => true
  | .completionTimeout _ => true
  | .attest _ => true
  | .challenge _ => true
  | .latchkey _ => true
  | .leaseStart _ => true
  | .stage _ => true
  | .handover _ => true
  | .record _ => true
  | .reclaim _ => true
  | .reclaimRegisterWrite _ => true
  | .mbxUnknown _ _ => true
  | .firmwareCommand _ _ _ => true
  | .yield => true
  | .handoverTimeout => true
  | .dbgStop _ => true
  | .dbgGo _ => true
  | .functionLevelReset => true
  | .powerOn => true
  | .timeset _ => true
  | .timeTrim _ => true
  | .poolOwnerSet _ _ => true
  | .preemptRequest _ _ _ _ _ _ => true
  | .pointTaken _ => true
  | .pointDeclined _ => true
  | .restoreRequest _ _ => true
  | .jobFatalDiscard _ => true
  | .leaderFailover _ => true
  | .data _ => true
  | .ack _ => true
  | .nak _ => true
  | .probe _ => true
  | .replayTimeout _ _ => true
  | .feTimeout _ _ => true
  | .uncorrectableError _ => true
  | .flitReplay _ => true
  | .linkFence _ _ => true
  | .powerCap _ _ => true
  | .thermalThrottle _ => true
  | .thermalShutdown => true
  | .badpkt => true
  | .sleeptoWake _ _ => true
  | .releaseTimeReached _ => true
  | .saveComplete _ => true
  | .reclaimComplete => true
  | .mbxCommandComplete => true
  | .powerLoss => true
  | .correctedError _ => true
  | .ptpEventFrame _ _ => true

/-- The scalar registers an instruction names, in the order of the fields in R20
(DEDUCED: the order in which they are checked, log 8). -/
def Instr.sregs : Instr → List SReg
  | .add _ d a b => [d, a] ++ b.sregs
  | .sub _ d a b => [d, a] ++ b.sregs
  | .and d a b => [d, a] ++ b.sregs
  | .or d a b => [d, a] ++ b.sregs
  | .xor d a b => [d, a] ++ b.sregs
  | .andn d a b => [d, a] ++ b.sregs
  | .sll _ d a b => [d, a] ++ b.sregs
  | .srl _ d a b => [d, a] ++ b.sregs
  | .sra _ d a b => [d, a] ++ b.sregs
  | .rol _ d a b => [d, a] ++ b.sregs
  | .slt d a b => [d, a] ++ b.sregs
  | .sltu d a b => [d, a] ++ b.sregs
  | .min d a b => [d, a] ++ b.sregs
  | .max d a b => [d, a] ++ b.sregs
  | .minu d a b => [d, a] ++ b.sregs
  | .maxu d a b => [d, a] ++ b.sregs
  | .mul _ d a b => [d, a] ++ b.sregs
  | .mulh d a b => [d, a] ++ b.sregs
  | .mulhu d a b => [d, a] ++ b.sregs
  | .div _ d a b => [d, a] ++ b.sregs
  | .divu _ d a b => [d, a] ++ b.sregs
  | .rem _ d a b => [d, a] ++ b.sregs
  | .remu _ d a b => [d, a] ++ b.sregs
  | .shadd _ d a b => [d, a] ++ b.sregs
  | .sel d a b => [d, a] ++ b.sregs
  | .clz _ d a => [d, a]
  | .ctz _ d a => [d, a]
  | .popc _ d a => [d, a]
  | .brev _ d a => [d, a]
  | .bswap _ d a => [d, a]
  | .sext d a b => [d, a] ++ b.sregs
  | .zext d a b => [d, a] ++ b.sregs
  | .ext d a b => [d, a] ++ b.sregs
  | .ins d a b => [d, a] ++ b.sregs
  | .addi d a _ => [d, a]
  | .andi d a _ => [d, a]
  | .ori d a _ => [d, a]
  | .xori d a _ => [d, a]
  | .slti d a _ => [d, a]
  | .sltiu d a _ => [d, a]
  | .slli d a _ => [d, a]
  | .srli d a _ => [d, a]
  | .srai d a _ => [d, a]
  | .roli d a _ => [d, a]
  | .fadd _ _ d a b => [d, a] ++ b.sregs
  | .fsub _ _ d a b => [d, a] ++ b.sregs
  | .fmul _ _ d a b => [d, a] ++ b.sregs
  | .fdiv _ _ d a b => [d, a] ++ b.sregs
  | .fsqrt _ _ d a => [d, a]
  | .fmin _ d a b => [d, a] ++ b.sregs
  | .fmax _ d a b => [d, a] ++ b.sregs
  | .fma _ _ d a b => [d, a] ++ b.sregs
  | .fnma _ _ d a b => [d, a] ++ b.sregs
  | .feq _ d a b => [d, a] ++ b.sregs
  | .flt _ d a b => [d, a] ++ b.sregs
  | .fle _ d a b => [d, a] ++ b.sregs
  | .fclass _ d a => [d, a]
  | .fcvt _ _ d a => [d, a]
  | .fsgnJ _ d a b => [d, a] ++ b.sregs
  | .fsgnJn _ d a b => [d, a] ++ b.sregs
  | .fsgnJx _ d a b => [d, a] ++ b.sregs
  | .ld _ _ _ b a t => [a, b, t]
  | .ldFe _ _ _ b a t => [a, b, t]
  | .ldFec _ _ _ b a t => [a, b, t]
  | .st _ _ _ b a t => [a, b, t]
  | .stFes _ _ _ b a t => [a, b, t]
  | .stFee _ _ _ b a t => [a, b, t]
  | .ldi _ _ _ a t => [a, t]
  | .sti _ _ _ a t => [a, t]
  | .pref _ a => [a]
  | .amoAdd _ _ _ b a d => [d, a, b]
  | .amoAnd _ _ _ b a d => [d, a, b]
  | .amoOr _ _ _ b a d => [d, a, b]
  | .amoXor _ _ _ b a d => [d, a, b]
  | .amoMin _ _ _ b a d => [d, a, b]
  | .amoMax _ _ _ b a d => [d, a, b]
  | .amoMinu _ _ _ b a d => [d, a, b]
  | .amoMaxu _ _ _ b a d => [d, a, b]
  | .amoSwap _ _ _ b a d => [d, a, b]
  | .cas _ _ _ b a d => [d, a, b]
  | .fence _ => []
  | .beq _ b a => [a, b]
  | .bne _ b a => [a, b]
  | .blt _ b a => [a, b]
  | .bge _ b a => [a, b]
  | .bltu _ b a => [a, b]
  | .bgeu _ b a => [a, b]
  | .jal _ d => [d]
  | .jalr _ a d => [d, a]
  | .loop _ a => [a]
  | .rep _ _ c _ => [c]
  | .callh a d => [d, a]
  | .reth a => [a]
  | .csrr _ d => [d]
  | .csrw _ a d => [d, a]
  | .csrs _ a d => [d, a]
  | .csrc _ a d => [d, a]
  | .trap _ => []
  | .eret => []
  | .brk _ => []
  | .hld _ s _ => [s]
  | .hst _ s _ => [s]
  | .hget _ s _ => [s]
  | .hset _ s _ _ => [s]
  | .hmov _ _ => []
  | .hadv _ s _ _ => [s]
  | .hchk _ s _ => [s]
  | .start d a b => [d, a, b]
  | .hexit a => [a]
  | .hjoin d a b => [d, a, b]
  | .hstat d a => [d, a]
  | .bara _ b => [b]
  | .barw d _ => [d]
  | .bar d _ b => [d, b]
  | .exch d => [d]
  | .step d => [d]
  | .msend a b => [a, b]
  | .mrecv d a => [d, a]
  | .messageArrival _ _ => []
  | .msendRetry _ _ => []
  | .enq d a b => [d, a, b]
  | .rdone d => [d]
  | .grab d a => [d, a]
  | .preempt d a _ => [d, a]
  | .sleepto a => [a]
  | .waitt d a => [d, a]
  | .tstat d a => [d, a]
  | .cancel d a => [d, a]
  | .detach d a b => [d, a, b]
  | .adopt d a => [d, a]
  | .tpri d a b => [d, a, b]
  | .tfrec d a b => [d, a, b]
  | .waits d a => [d, a]
  | .rginit d _ => [d]
  | .rgwait d a => [d, a]
  | .rgrel a => [a]
  | .rgstat d a => [d, a]
  | .reserveSlot _ => []
  | .fillSlot _ => []
  | .claimHead _ => []
  | .hacq d a => [d, a]
  | .hrel d a => [d, a]
  | .hinfo d a => [d, a]
  | .qsub d a b => [d, a, b]
  | .qstat d a => [d, a]
  | .bind d a _ => [d, a]
  | .unbind d a => [d, a]
  | .copy o _ _ sX sY sZ => [o.sT, sX, sY, sZ]
  | .copym o _ _ sX => [o.sT, sX]
  | .pack o _ _ sX => [o.sT, sX]
  | .unpack o _ _ sX => [o.sT, sX]
  | .scadd o _ _ sX => [o.sT, sX]
  | .bflush o sX => [o.sT, sX]
  | .mma _ o _ _ _ => [o.sT]
  | .mmag _ o _ _ _ sX sY sZ => [o.sT, sX, sY, sZ]
  | .vadd _ _ _ _ _ => []
  | .vsub _ _ _ _ _ => []
  | .vmul _ _ _ _ _ => []
  | .vfma _ _ _ _ _ => []
  | .vmax _ _ _ _ _ => []
  | .vmin _ _ _ _ _ => []
  | .vabs _ _ _ _ => []
  | .vneg _ _ _ _ => []
  | .vexp _ _ _ _ => []
  | .vlog _ _ _ _ => []
  | .vrcp _ _ _ _ => []
  | .vrsq _ _ _ _ => []
  | .vtanh _ _ _ _ => []
  | .vcmp _ _ _ _ _ sX => [sX]
  | .vsel _ _ _ _ _ => []
  | .vcvt _ _ _ _ => []
  | .vscl _ _ _ _ sX => [sX]
  | .vreds _ _ _ _ => []
  | .vredm _ _ _ _ => []
  | .vscan _ _ _ _ => []
  | .stripDispatch _ => []
  | .qntQ4uni o _ _ => [o.sT]
  | .qntQ4e2m1 o _ _ => [o.sT]
  | .qntQ4pow o _ _ => [o.sT]
  | .qntQ4hyb o _ _ => [o.sT]
  | .qntQ4auto o _ _ => [o.sT]
  | .dqnt o _ _ => [o.sT]
  | .qchk o _ => [o.sT]
  | .winit o _ sX => [o.sT, sX]
  | .wprobe o _ _ _ => [o.sT]
  | .wcommit o _ _ sX sY sZ => [o.sT, sX, sY, sZ]
  | .wpick o _ sY sZ => [o.sT, sY, sZ]
  | .wrd o _ _ _ => [o.sT]
  | .allred _ o _ _ sX sZ => [o.sT, sX, sZ]
  | .redscat _ o _ _ sX sZ => [o.sT, sX, sZ]
  | .allgath o _ _ sX sZ => [o.sT, sX, sZ]
  | .bcast o _ _ sX sY sZ => [o.sT, sX, sY, sZ]
  | .alltoall o _ _ sX sZ => [o.sT, sX, sZ]
  | .collectiveTimeout _ => []
  | .abort _ => []
  | .spec o sX sY sZ => [o.sT, sX, sY, sZ]
  | .engineStart _ => []
  | .engineStep _ _ => []
  | .operationCompletion _ => []
  | .drain _ _ => []
  | .perform _ _ => []
  | .refresh _ _ => []
  | .pageWalk _ _ _ => []
  | .kick _ => []
  | .kickstatRead => []
  | .lookupAnswer _ => []
  | .qcbChange _ => []
  | .nop => []
  | .launch => []
  | .gangRelease _ => []
  | .controlContextStart _ => []
  | .launchComplete _ => []
  | .records => []
  | .expandRecord _ => []
  | .recordsComplete _ => []
  | .fencePacket => []
  | .signal => []
  | .serviceDrain => []
  | .serviceDrainComplete => []
  | .invalidatePage _ => []
  | .invalidatePasid _ => []
  | .invalidateAll _ => []
  | .invalidationComplete => []
  | .registerWrite _ _ _ => []
  | .bar2Read _ _ _ => []
  | .bar2Write _ _ _ => []
  | .pcieCompletion _ _ => []
  | .completionTimeout _ => []
  | .attest _ => []
  | .challenge _ => []
  | .latchkey _ => []
  | .leaseStart _ => []
  | .stage _ => []
  | .handover _ => []
  | .record _ => []
  | .reclaim _ => []
  | .reclaimRegisterWrite _ => []
  | .mbxUnknown _ _ => []
  | .firmwareCommand _ _ _ => []
  | .yield => []
  | .handoverTimeout => []
  | .dbgStop _ => []
  | .dbgGo _ => []
  | .functionLevelReset => []
  | .powerOn => []
  | .timeset _ => []
  | .timeTrim _ => []
  | .poolOwnerSet _ _ => []
  | .preemptRequest _ _ _ _ _ _ => []
  | .pointTaken _ => []
  | .pointDeclined _ => []
  | .restoreRequest _ _ => []
  | .jobFatalDiscard _ => []
  | .leaderFailover _ => []
  | .data _ => []
  | .ack _ => []
  | .nak _ => []
  | .probe _ => []
  | .replayTimeout _ _ => []
  | .feTimeout _ _ => []
  | .uncorrectableError _ => []
  | .flitReplay _ => []
  | .linkFence _ _ => []
  | .powerCap _ _ => []
  | .thermalThrottle _ => []
  | .thermalShutdown => []
  | .badpkt => []
  | .sleeptoWake _ _ => []
  | .releaseTimeReached _ => []
  | .saveComplete _ => []
  | .reclaimComplete => []
  | .mbxCommandComplete => []
  | .powerLoss => []
  | .correctedError _ => []
  | .ptpEventFrame _ _ => []

/-- The instruction with every scalar register field sent through `fs` and every handle
register field through `gh` (the rotation of REP, R185). -/
def Instr.mapRegs (fs : SReg → SReg) (gh : HReg → HReg) : Instr → Instr
  | .add w d a b => .add w (fs d) (fs a) (b.map fs)
  | .sub w d a b => .sub w (fs d) (fs a) (b.map fs)
  | .and d a b => .and (fs d) (fs a) (b.map fs)
  | .or d a b => .or (fs d) (fs a) (b.map fs)
  | .xor d a b => .xor (fs d) (fs a) (b.map fs)
  | .andn d a b => .andn (fs d) (fs a) (b.map fs)
  | .sll w d a b => .sll w (fs d) (fs a) (b.map fs)
  | .srl w d a b => .srl w (fs d) (fs a) (b.map fs)
  | .sra w d a b => .sra w (fs d) (fs a) (b.map fs)
  | .rol w d a b => .rol w (fs d) (fs a) (b.map fs)
  | .slt d a b => .slt (fs d) (fs a) (b.map fs)
  | .sltu d a b => .sltu (fs d) (fs a) (b.map fs)
  | .min d a b => .min (fs d) (fs a) (b.map fs)
  | .max d a b => .max (fs d) (fs a) (b.map fs)
  | .minu d a b => .minu (fs d) (fs a) (b.map fs)
  | .maxu d a b => .maxu (fs d) (fs a) (b.map fs)
  | .mul w d a b => .mul w (fs d) (fs a) (b.map fs)
  | .mulh d a b => .mulh (fs d) (fs a) (b.map fs)
  | .mulhu d a b => .mulhu (fs d) (fs a) (b.map fs)
  | .div w d a b => .div w (fs d) (fs a) (b.map fs)
  | .divu w d a b => .divu w (fs d) (fs a) (b.map fs)
  | .rem w d a b => .rem w (fs d) (fs a) (b.map fs)
  | .remu w d a b => .remu w (fs d) (fs a) (b.map fs)
  | .shadd k d a b => .shadd k (fs d) (fs a) (b.map fs)
  | .sel d a b => .sel (fs d) (fs a) (b.map fs)
  | .clz w d a => .clz w (fs d) (fs a)
  | .ctz w d a => .ctz w (fs d) (fs a)
  | .popc w d a => .popc w (fs d) (fs a)
  | .brev w d a => .brev w (fs d) (fs a)
  | .bswap w d a => .bswap w (fs d) (fs a)
  | .sext d a b => .sext (fs d) (fs a) (b.map fs)
  | .zext d a b => .zext (fs d) (fs a) (b.map fs)
  | .ext d a b => .ext (fs d) (fs a) (b.map fs)
  | .ins d a b => .ins (fs d) (fs a) (b.map fs)
  | .addi d a imm => .addi (fs d) (fs a) imm
  | .andi d a imm => .andi (fs d) (fs a) imm
  | .ori d a imm => .ori (fs d) (fs a) imm
  | .xori d a imm => .xori (fs d) (fs a) imm
  | .slti d a imm => .slti (fs d) (fs a) imm
  | .sltiu d a imm => .sltiu (fs d) (fs a) imm
  | .slli d a n => .slli (fs d) (fs a) n
  | .srli d a n => .srli (fs d) (fs a) n
  | .srai d a n => .srai (fs d) (fs a) n
  | .roli d a n => .roli (fs d) (fs a) n
  | .fadd r f d a b => .fadd r f (fs d) (fs a) (b.map fs)
  | .fsub r f d a b => .fsub r f (fs d) (fs a) (b.map fs)
  | .fmul r f d a b => .fmul r f (fs d) (fs a) (b.map fs)
  | .fdiv r f d a b => .fdiv r f (fs d) (fs a) (b.map fs)
  | .fsqrt r f d a => .fsqrt r f (fs d) (fs a)
  | .fmin f d a b => .fmin f (fs d) (fs a) (b.map fs)
  | .fmax f d a b => .fmax f (fs d) (fs a) (b.map fs)
  | .fma r f d a b => .fma r f (fs d) (fs a) (b.map fs)
  | .fnma r f d a b => .fnma r f (fs d) (fs a) (b.map fs)
  | .feq f d a b => .feq f (fs d) (fs a) (b.map fs)
  | .flt f d a b => .flt f (fs d) (fs a) (b.map fs)
  | .fle f d a b => .fle f (fs d) (fs a) (b.map fs)
  | .fclass f d a => .fclass f (fs d) (fs a)
  | .fcvt r k d a => .fcvt r k (fs d) (fs a)
  | .fsgnJ f d a b => .fsgnJ f (fs d) (fs a) (b.map fs)
  | .fsgnJn f d a b => .fsgnJn f (fs d) (fs a) (b.map fs)
  | .fsgnJx f d a b => .fsgnJx f (fs d) (fs a) (b.map fs)
  | .ld o z h b a t => .ld o z h (fs b) (fs a) (fs t)
  | .ldFe o z h b a t => .ldFe o z h (fs b) (fs a) (fs t)
  | .ldFec o z h b a t => .ldFec o z h (fs b) (fs a) (fs t)
  | .st o z h b a t => .st o z h (fs b) (fs a) (fs t)
  | .stFes o z h b a t => .stFes o z h (fs b) (fs a) (fs t)
  | .stFee o z h b a t => .stFee o z h (fs b) (fs a) (fs t)
  | .ldi off z o a t => .ldi off z o (fs a) (fs t)
  | .sti off z o a t => .sti off z o (fs a) (fs t)
  | .pref off a => .pref off (fs a)
  | .amoAdd scope o w b a d => .amoAdd scope o w (fs b) (fs a) (fs d)
  | .amoAnd scope o w b a d => .amoAnd scope o w (fs b) (fs a) (fs d)
  | .amoOr scope o w b a d => .amoOr scope o w (fs b) (fs a) (fs d)
  | .amoXor scope o w b a d => .amoXor scope o w (fs b) (fs a) (fs d)
  | .amoMin scope o w b a d => .amoMin scope o w (fs b) (fs a) (fs d)
  | .amoMax scope o w b a d => .amoMax scope o w (fs b) (fs a) (fs d)
  | .amoMinu scope o w b a d => .amoMinu scope o w (fs b) (fs a) (fs d)
  | .amoMaxu scope o w b a d => .amoMaxu scope o w (fs b) (fs a) (fs d)
  | .amoSwap scope o w b a d => .amoSwap scope o w (fs b) (fs a) (fs d)
  | .cas scope o w b a d => .cas scope o w (fs b) (fs a) (fs d)
  | .fence scope => .fence scope
  | .beq off b a => .beq off (fs b) (fs a)
  | .bne off b a => .bne off (fs b) (fs a)
  | .blt off b a => .blt off (fs b) (fs a)
  | .bge off b a => .bge off (fs b) (fs a)
  | .bltu off b a => .bltu off (fs b) (fs a)
  | .bgeu off b a => .bgeu off (fs b) (fs a)
  | .jal off d => .jal off (fs d)
  | .jalr imm a d => .jalr imm (fs a) (fs d)
  | .loop imm a => .loop imm (fs a)
  | .rep ss hs c n => .rep ss hs (fs c) n
  | .callh a d => .callh (fs a) (fs d)
  | .reth a => .reth (fs a)
  | .csrr c d => .csrr c (fs d)
  | .csrw c a d => .csrw c (fs a) (fs d)
  | .csrs c a d => .csrs c (fs a) (fs d)
  | .csrc c a d => .csrc c (fs a) (fs d)
  | .trap imm => .trap imm
  | .eret => .eret
  | .brk imm => .brk imm
  | .hld imm s hd => .hld imm (fs s) (gh hd)
  | .hst imm s ha => .hst imm (fs s) (gh ha)
  | .hget w s ha => .hget w (fs s) (gh ha)
  | .hset w s ha hd => .hset w (fs s) (gh ha) (gh hd)
  | .hmov ha hd => .hmov (gh ha) (gh hd)
  | .hadv w s ha hd => .hadv w (fs s) (gh ha) (gh hd)
  | .hchk u s ha => .hchk u (fs s) (gh ha)
  | .start d a b => .start (fs d) (fs a) (fs b)
  | .hexit a => .hexit (fs a)
  | .hjoin d a b => .hjoin (fs d) (fs a) (fs b)
  | .hstat d a => .hstat (fs d) (fs a)
  | .bara g b => .bara g (fs b)
  | .barw d g => .barw (fs d) g
  | .bar d g b => .bar (fs d) g (fs b)
  | .exch d => .exch (fs d)
  | .step d => .step (fs d)
  | .msend a b => .msend (fs a) (fs b)
  | .mrecv d a => .mrecv (fs d) (fs a)
  | .messageArrival core id => .messageArrival core id
  | .msendRetry core id => .msendRetry core id
  | .enq d a b => .enq (fs d) (fs a) (fs b)
  | .rdone d => .rdone (fs d)
  | .grab d a => .grab (fs d) (fs a)
  | .preempt d a live => .preempt (fs d) (fs a) live
  | .sleepto a => .sleepto (fs a)
  | .waitt d a => .waitt (fs d) (fs a)
  | .tstat d a => .tstat (fs d) (fs a)
  | .cancel d a => .cancel (fs d) (fs a)
  | .detach d a b => .detach (fs d) (fs a) (fs b)
  | .adopt d a => .adopt (fs d) (fs a)
  | .tpri d a b => .tpri (fs d) (fs a) (fs b)
  | .tfrec d a b => .tfrec (fs d) (fs a) (fs b)
  | .waits d a => .waits (fs d) (fs a)
  | .rginit d h => .rginit (fs d) (gh h)
  | .rgwait d a => .rgwait (fs d) (fs a)
  | .rgrel a => .rgrel (fs a)
  | .rgstat d a => .rgstat (fs d) (fs a)
  | .reserveSlot id => .reserveSlot id
  | .fillSlot id => .fillSlot id
  | .claimHead id => .claimHead id
  | .hacq d a => .hacq (fs d) (fs a)
  | .hrel d a => .hrel (fs d) (fs a)
  | .hinfo d a => .hinfo (fs d) (fs a)
  | .qsub d a b => .qsub (fs d) (fs a) (fs b)
  | .qstat d a => .qstat (fs d) (fs a)
  | .bind d a h => .bind (fs d) (fs a) (gh h)
  | .unbind d a => .unbind (fs d) (fs a)
  | .copy o hC hA sX sY sZ => .copy (o.map fs) (gh hC) (gh hA) (fs sX) (fs sY) (fs sZ)
  | .copym o hC hA sX => .copym (o.map fs) (gh hC) (gh hA) (fs sX)
  | .pack o hC hA sX => .pack (o.map fs) (gh hC) (gh hA) (fs sX)
  | .unpack o hC hA sX => .unpack (o.map fs) (gh hC) (gh hA) (fs sX)
  | .scadd o hA hB sX => .scadd (o.map fs) (gh hA) (gh hB) (fs sX)
  | .bflush o sX => .bflush (o.map fs) (fs sX)
  | .mma ovw o hC hA hB => .mma ovw (o.map fs) (gh hC) (gh hA) (gh hB)
  | .mmag ovw o hC hA hB sX sY sZ => .mmag ovw (o.map fs) (gh hC) (gh hA) (gh hB) (fs sX) (fs sY) (fs sZ)
  | .vadd r o hC hA hB => .vadd r o (gh hC) (gh hA) (gh hB)
  | .vsub r o hC hA hB => .vsub r o (gh hC) (gh hA) (gh hB)
  | .vmul r o hC hA hB => .vmul r o (gh hC) (gh hA) (gh hB)
  | .vfma r o hC hA hB => .vfma r o (gh hC) (gh hA) (gh hB)
  | .vmax r o hC hA hB => .vmax r o (gh hC) (gh hA) (gh hB)
  | .vmin r o hC hA hB => .vmin r o (gh hC) (gh hA) (gh hB)
  | .vabs r o hC hA => .vabs r o (gh hC) (gh hA)
  | .vneg r o hC hA => .vneg r o (gh hC) (gh hA)
  | .vexp r o hC hA => .vexp r o (gh hC) (gh hA)
  | .vlog r o hC hA => .vlog r o (gh hC) (gh hA)
  | .vrcp r o hC hA => .vrcp r o (gh hC) (gh hA)
  | .vrsq r o hC hA => .vrsq r o (gh hC) (gh hA)
  | .vtanh r o hC hA => .vtanh r o (gh hC) (gh hA)
  | .vcmp r o hC hA hB sX => .vcmp r o (gh hC) (gh hA) (gh hB) (fs sX)
  | .vsel r o hC hA hB => .vsel r o (gh hC) (gh hA) (gh hB)
  | .vcvt r o hC hA => .vcvt r o (gh hC) (gh hA)
  | .vscl r o hC hA sX => .vscl r o (gh hC) (gh hA) (fs sX)
  | .vreds r o hC hA => .vreds r o (gh hC) (gh hA)
  | .vredm r o hC hA => .vredm r o (gh hC) (gh hA)
  | .vscan r o hC hA => .vscan r o (gh hC) (gh hA)
  | .stripDispatch cl => .stripDispatch cl
  | .qntQ4uni o hC hA => .qntQ4uni (o.map fs) (gh hC) (gh hA)
  | .qntQ4e2m1 o hC hA => .qntQ4e2m1 (o.map fs) (gh hC) (gh hA)
  | .qntQ4pow o hC hA => .qntQ4pow (o.map fs) (gh hC) (gh hA)
  | .qntQ4hyb o hC hA => .qntQ4hyb (o.map fs) (gh hC) (gh hA)
  | .qntQ4auto o hC hA => .qntQ4auto (o.map fs) (gh hC) (gh hA)
  | .dqnt o hC hA => .dqnt (o.map fs) (gh hC) (gh hA)
  | .qchk o hA => .qchk (o.map fs) (gh hA)
  | .winit o hC sX => .winit (o.map fs) (gh hC) (fs sX)
  | .wprobe o hC hA hB => .wprobe (o.map fs) (gh hC) (gh hA) (gh hB)
  | .wcommit o hC hA sX sY sZ => .wcommit (o.map fs) (gh hC) (gh hA) (fs sX) (fs sY) (fs sZ)
  | .wpick o hA sY sZ => .wpick (o.map fs) (gh hA) (fs sY) (fs sZ)
  | .wrd o hC hA hB => .wrd (o.map fs) (gh hC) (gh hA) (gh hB)
  | .allred red o hC hA sX sZ => .allred red (o.map fs) (gh hC) (gh hA) (fs sX) (fs sZ)
  | .redscat red o hC hA sX sZ => .redscat red (o.map fs) (gh hC) (gh hA) (fs sX) (fs sZ)
  | .allgath o hC hA sX sZ => .allgath (o.map fs) (gh hC) (gh hA) (fs sX) (fs sZ)
  | .bcast o hC hA sX sY sZ => .bcast (o.map fs) (gh hC) (gh hA) (fs sX) (fs sY) (fs sZ)
  | .alltoall o hC hA sX sZ => .alltoall (o.map fs) (gh hC) (gh hA) (fs sX) (fs sZ)
  | .collectiveTimeout id => .collectiveTimeout id
  | .abort src => .abort src
  | .spec o sX sY sZ => .spec (o.map fs) (fs sX) (fs sY) (fs sZ)
  | .engineStart e => .engineStart e
  | .engineStep id k => .engineStep id k
  | .operationCompletion id => .operationCompletion id
  | .drain core ctx => .drain core ctx
  | .perform src dst => .perform src dst
  | .refresh die g => .refresh die g
  | .pageWalk core pasid va => .pageWalk core pasid va
  | .kick v => .kick v
  | .kickstatRead => .kickstatRead
  | .lookupAnswer id => .lookupAnswer id
  | .qcbChange c => .qcbChange c
  | .nop => .nop
  | .launch => .launch
  | .gangRelease id => .gangRelease id
  | .controlContextStart core => .controlContextStart core
  | .launchComplete id => .launchComplete id
  | .records => .records
  | .expandRecord id => .expandRecord id
  | .recordsComplete id => .recordsComplete id
  | .fencePacket => .fencePacket
  | .signal => .signal
  | .serviceDrain => .serviceDrain
  | .serviceDrainComplete => .serviceDrainComplete
  | .invalidatePage v => .invalidatePage v
  | .invalidatePasid v => .invalidatePasid v
  | .invalidateAll v => .invalidateAll v
  | .invalidationComplete => .invalidationComplete
  | .registerWrite off n v => .registerWrite off n v
  | .bar2Read x n tag => .bar2Read x n tag
  | .bar2Write x bs tag => .bar2Write x bs tag
  | .pcieCompletion id r => .pcieCompletion id r
  | .completionTimeout id => .completionTimeout id
  | .attest r => .attest r
  | .challenge r => .challenge r
  | .latchkey r => .latchkey r
  | .leaseStart r => .leaseStart r
  | .stage r => .stage r
  | .handover r => .handover r
  | .record r => .record r
  | .reclaim r => .reclaim r
  | .reclaimRegisterWrite v => .reclaimRegisterWrite v
  | .mbxUnknown code r => .mbxUnknown code r
  | .firmwareCommand code r act => .firmwareCommand code r act
  | .yield => .yield
  | .handoverTimeout => .handoverTimeout
  | .dbgStop core => .dbgStop core
  | .dbgGo core => .dbgGo core
  | .functionLevelReset => .functionLevelReset
  | .powerOn => .powerOn
  | .timeset v => .timeset v
  | .timeTrim ppm => .timeTrim ppm
  | .poolOwnerSet die pasid => .poolOwnerSet die pasid
  | .preemptRequest cl lid claim prio base stride => .preemptRequest cl lid claim prio base stride
  | .pointTaken cl => .pointTaken cl
  | .pointDeclined cl => .pointDeclined cl
  | .restoreRequest cl lid => .restoreRequest cl lid
  | .jobFatalDiscard id => .jobFatalDiscard id
  | .leaderFailover id => .leaderFailover id
  | .data bs => .data bs
  | .ack bs => .ack bs
  | .nak bs => .nak bs
  | .probe bs => .probe bs
  | .replayTimeout peer cls => .replayTimeout peer cls
  | .feTimeout core ctx => .feTimeout core ctx
  | .uncorrectableError u => .uncorrectableError u
  | .flitReplay link => .flitReplay link
  | .linkFence link used => .linkFence link used
  | .powerCap island rate => .powerCap island rate
  | .thermalThrottle island => .thermalThrottle island
  | .thermalShutdown => .thermalShutdown
  | .badpkt => .badpkt
  | .sleeptoWake core ctx => .sleeptoWake core ctx
  | .releaseTimeReached core => .releaseTimeReached core
  | .saveComplete cl => .saveComplete cl
  | .reclaimComplete => .reclaimComplete
  | .mbxCommandComplete => .mbxCommandComplete
  | .powerLoss => .powerLoss
  | .correctedError u => .correctedError u
  | .ptpEventFrame port sent => .ptpEventFrame port sent

/-- The instructions that raise the illegal-instruction trap in a REP block (R186). -/
def Instr.noRep : Instr → Bool
  | .add _ _ _ _ => false
  | .sub _ _ _ _ => false
  | .and _ _ _ => false
  | .or _ _ _ => false
  | .xor _ _ _ => false
  | .andn _ _ _ => false
  | .sll _ _ _ _ => false
  | .srl _ _ _ _ => false
  | .sra _ _ _ _ => false
  | .rol _ _ _ _ => false
  | .slt _ _ _ => false
  | .sltu _ _ _ => false
  | .min _ _ _ => false
  | .max _ _ _ => false
  | .minu _ _ _ => false
  | .maxu _ _ _ => false
  | .mul _ _ _ _ => false
  | .mulh _ _ _ => false
  | .mulhu _ _ _ => false
  | .div _ _ _ _ => false
  | .divu _ _ _ _ => false
  | .rem _ _ _ _ => false
  | .remu _ _ _ _ => false
  | .shadd _ _ _ _ => false
  | .sel _ _ _ => false
  | .clz _ _ _ => false
  | .ctz _ _ _ => false
  | .popc _ _ _ => false
  | .brev _ _ _ => false
  | .bswap _ _ _ => false
  | .sext _ _ _ => false
  | .zext _ _ _ => false
  | .ext _ _ _ => false
  | .ins _ _ _ => false
  | .addi _ _ _ => false
  | .andi _ _ _ => false
  | .ori _ _ _ => false
  | .xori _ _ _ => false
  | .slti _ _ _ => false
  | .sltiu _ _ _ => false
  | .slli _ _ _ => false
  | .srli _ _ _ => false
  | .srai _ _ _ => false
  | .roli _ _ _ => false
  | .fadd _ _ _ _ _ => false
  | .fsub _ _ _ _ _ => false
  | .fmul _ _ _ _ _ => false
  | .fdiv _ _ _ _ _ => false
  | .fsqrt _ _ _ _ => false
  | .fmin _ _ _ _ => false
  | .fmax _ _ _ _ => false
  | .fma _ _ _ _ _ => false
  | .fnma _ _ _ _ _ => false
  | .feq _ _ _ _ => false
  | .flt _ _ _ _ => false
  | .fle _ _ _ _ => false
  | .fclass _ _ _ => false
  | .fcvt _ _ _ _ => false
  | .fsgnJ _ _ _ _ => false
  | .fsgnJn _ _ _ _ => false
  | .fsgnJx _ _ _ _ => false
  | .ld _ _ _ _ _ _ => false
  | .ldFe _ _ _ _ _ _ => false
  | .ldFec _ _ _ _ _ _ => false
  | .st _ _ _ _ _ _ => false
  | .stFes _ _ _ _ _ _ => false
  | .stFee _ _ _ _ _ _ => false
  | .ldi _ _ _ _ _ => false
  | .sti _ _ _ _ _ => false
  | .pref _ _ => false
  | .amoAdd _ _ _ _ _ _ => false
  | .amoAnd _ _ _ _ _ _ => false
  | .amoOr _ _ _ _ _ _ => false
  | .amoXor _ _ _ _ _ _ => false
  | .amoMin _ _ _ _ _ _ => false
  | .amoMax _ _ _ _ _ _ => false
  | .amoMinu _ _ _ _ _ _ => false
  | .amoMaxu _ _ _ _ _ _ => false
  | .amoSwap _ _ _ _ _ _ => false
  | .cas _ _ _ _ _ _ => false
  | .fence _ => false
  | .beq _ _ _ => true
  | .bne _ _ _ => true
  | .blt _ _ _ => true
  | .bge _ _ _ => true
  | .bltu _ _ _ => true
  | .bgeu _ _ _ => true
  | .jal _ _ => true
  | .jalr _ _ _ => true
  | .loop _ _ => true
  | .rep _ _ _ _ => true
  | .callh _ _ => true
  | .reth _ => true
  | .csrr _ _ => false
  | .csrw _ _ _ => false
  | .csrs _ _ _ => false
  | .csrc _ _ _ => false
  | .trap _ => true
  | .eret => true
  | .brk _ => true
  | .hld _ _ _ => false
  | .hst _ _ _ => false
  | .hget _ _ _ => false
  | .hset _ _ _ _ => false
  | .hmov _ _ => false
  | .hadv _ _ _ _ => false
  | .hchk _ _ _ => false
  | .start _ _ _ => true
  | .hexit _ => true
  | .hjoin _ _ _ => true
  | .hstat _ _ => true
  | .bara _ _ => true
  | .barw _ _ => true
  | .bar _ _ _ => true
  | .exch _ => true
  | .step _ => true
  | .msend _ _ => true
  | .mrecv _ _ => true
  | .messageArrival _ _ => false
  | .msendRetry _ _ => false
  | .enq _ _ _ => true
  | .rdone _ => true
  | .grab _ _ => true
  | .preempt _ _ _ => true
  | .sleepto _ => true
  | .waitt _ _ => false
  | .tstat _ _ => false
  | .cancel _ _ => false
  | .detach _ _ _ => false
  | .adopt _ _ => false
  | .tpri _ _ _ => false
  | .tfrec _ _ _ => false
  | .waits _ _ => false
  | .rginit _ _ => false
  | .rgwait _ _ => false
  | .rgrel _ => false
  | .rgstat _ _ => false
  | .reserveSlot _ => false
  | .fillSlot _ => false
  | .claimHead _ => false
  | .hacq _ _ => false
  | .hrel _ _ => false
  | .hinfo _ _ => false
  | .qsub _ _ _ => false
  | .qstat _ _ => false
  | .bind _ _ _ => false
  | .unbind _ _ => false
  | .copy _ _ _ _ _ _ => false
  | .copym _ _ _ _ => false
  | .pack _ _ _ _ => false
  | .unpack _ _ _ _ => false
  | .scadd _ _ _ _ => false
  | .bflush _ _ => false
  | .mma _ _ _ _ _ => false
  | .mmag _ _ _ _ _ _ _ _ => false
  | .vadd _ _ _ _ _ => false
  | .vsub _ _ _ _ _ => false
  | .vmul _ _ _ _ _ => false
  | .vfma _ _ _ _ _ => false
  | .vmax _ _ _ _ _ => false
  | .vmin _ _ _ _ _ => false
  | .vabs _ _ _ _ => false
  | .vneg _ _ _ _ => false
  | .vexp _ _ _ _ => false
  | .vlog _ _ _ _ => false
  | .vrcp _ _ _ _ => false
  | .vrsq _ _ _ _ => false
  | .vtanh _ _ _ _ => false
  | .vcmp _ _ _ _ _ _ => false
  | .vsel _ _ _ _ _ => false
  | .vcvt _ _ _ _ => false
  | .vscl _ _ _ _ _ => false
  | .vreds _ _ _ _ => false
  | .vredm _ _ _ _ => false
  | .vscan _ _ _ _ => false
  | .stripDispatch _ => false
  | .qntQ4uni _ _ _ => false
  | .qntQ4e2m1 _ _ _ => false
  | .qntQ4pow _ _ _ => false
  | .qntQ4hyb _ _ _ => false
  | .qntQ4auto _ _ _ => false
  | .dqnt _ _ _ => false
  | .qchk _ _ => false
  | .winit _ _ _ => false
  | .wprobe _ _ _ _ => false
  | .wcommit _ _ _ _ _ _ => false
  | .wpick _ _ _ _ => false
  | .wrd _ _ _ _ => false
  | .allred _ _ _ _ _ _ => false
  | .redscat _ _ _ _ _ _ => false
  | .allgath _ _ _ _ _ => false
  | .bcast _ _ _ _ _ _ => false
  | .alltoall _ _ _ _ _ => false
  | .collectiveTimeout _ => false
  | .abort _ => false
  | .spec _ _ _ _ => false
  | .engineStart _ => false
  | .engineStep _ _ => false
  | .operationCompletion _ => false
  | .drain _ _ => false
  | .perform _ _ => false
  | .refresh _ _ => false
  | .pageWalk _ _ _ => false
  | .kick _ => false
  | .kickstatRead => false
  | .lookupAnswer _ => false
  | .qcbChange _ => false
  | .nop => false
  | .launch => false
  | .gangRelease _ => false
  | .controlContextStart _ => false
  | .launchComplete _ => false
  | .records => false
  | .expandRecord _ => false
  | .recordsComplete _ => false
  | .fencePacket => false
  | .signal => false
  | .serviceDrain => false
  | .serviceDrainComplete => false
  | .invalidatePage _ => false
  | .invalidatePasid _ => false
  | .invalidateAll _ => false
  | .invalidationComplete => false
  | .registerWrite _ _ _ => false
  | .bar2Read _ _ _ => false
  | .bar2Write _ _ _ => false
  | .pcieCompletion _ _ => false
  | .completionTimeout _ => false
  | .attest _ => false
  | .challenge _ => false
  | .latchkey _ => false
  | .leaseStart _ => false
  | .stage _ => false
  | .handover _ => false
  | .record _ => false
  | .reclaim _ => false
  | .reclaimRegisterWrite _ => false
  | .mbxUnknown _ _ => false
  | .firmwareCommand _ _ _ => false
  | .yield => false
  | .handoverTimeout => false
  | .dbgStop _ => false
  | .dbgGo _ => false
  | .functionLevelReset => false
  | .powerOn => false
  | .timeset _ => false
  | .timeTrim _ => false
  | .poolOwnerSet _ _ => false
  | .preemptRequest _ _ _ _ _ _ => false
  | .pointTaken _ => false
  | .pointDeclined _ => false
  | .restoreRequest _ _ => false
  | .jobFatalDiscard _ => false
  | .leaderFailover _ => false
  | .data _ => false
  | .ack _ => false
  | .nak _ => false
  | .probe _ => false
  | .replayTimeout _ _ => false
  | .feTimeout _ _ => false
  | .uncorrectableError _ => false
  | .flitReplay _ => false
  | .linkFence _ _ => false
  | .powerCap _ _ => false
  | .thermalThrottle _ => false
  | .thermalShutdown => false
  | .badpkt => false
  | .sleeptoWake _ _ => false
  | .releaseTimeReached _ => false
  | .saveComplete _ => false
  | .reclaimComplete => false
  | .mbxCommandComplete => false
  | .powerLoss => false
  | .correctedError _ => false
  | .ptpEventFrame _ _ => false

end Sys2Proof
end

