-- ==== Sys2Proof/Machine/State.lean ====
section
/-! DEFINITION. The state of the module, as plain data: everything the spec gives the Caerny,
and the state right after reset. The list in INVENTORY.md (`## State`) names the rule of each
field. Keys: a core by its global index (die × 64 + cluster × 8 + core, R9), a context by
core × 16 + CTXNUM, a cluster by die × 8 + cluster, a die by its number; as the place of a home a
compute die n is n, the base die of HBM5 stack s is 64 + s, and I/O die d is 96 + d. -/

namespace Sys2Proof.Machine
open Sys2Proof

/-- A table by number, ascending keys, absent entries at a default (log 1). -/
abbrev Tbl (α : Type) := List (Nat × α)

/-! ## Contexts -/

/-- What a context is (R287, R292, R336). An exited context is `absent`. -/
inductive CtxMode where
  | absent | ready | running | frozen
  deriving DecidableEq, Repr

/-- One level of the hardware loop (R183). -/
structure LoopLevel where
  start : DWord
  stop : DWord
  remaining : DWord
  deriving DecidableEq, Repr

/-- A REP in progress: the repetition buffer and the place in it (R185, R230). -/
structure RepState where
  block : DWord
  words : List (List Word)
  idx : Nat
  iter : Nat
  count : Nat
  hs : Nat
  ss : Nat
  deriving DecidableEq, Repr

/-- The window whose PASID check is made again at the target (R55). -/
inductive Chk where
  | coreAlias (core : Nat)
  | spmAlias (cluster : Nat)
  | pool (die : Nat)
  deriving DecidableEq, Repr

/-- An entry of a cluster's ring table (R119, R123). `damaged` lists slot numbers counted
from the start of the ring's life. -/
structure Ring where
  owner : Nat
  base : DWord
  slots : Nat
  slotsz : Nat
  ridx : Nat
  nfil : Nat
  nclm : Nat
  nrsv : Nat
  damaged : List Nat
  filled : List Nat
  deriving DecidableEq, Repr

/-- An entry of a store buffer (R261). `full` marks a .fes store, `rel` a release; `num` orders it
against the operations of its context (R270); `ring` is the entry an RGINIT stores to its ring
table (R126, R266), with no bytes. -/
structure BufEntry where
  num : Nat
  home : Nat
  bytes : List Byte
  full : Bool
  rel : Bool
  chk : Option Chk
  ring : Option (Nat × Ring)
  deriving DecidableEq, Repr

/-- A member of the snapshot of a WAITS (R157): its slot, its token and TRAPF, and its final
state once it has one. `tok` is `none` for a vector instruction. -/
structure SnapMem where
  id : Nat
  slot : Nat
  tok : Option DWord
  trapf : Bool
  st : Option (BitVec 3)
  deriving DecidableEq, Repr

/-- What a waiting instruction waits for, with what it has found out so far. -/
inductive WaitFor where
  /-- A full-empty wait (R108): the home address, arrived in the order of `WaitRec.arrival`. -/
  | granule (home : Nat)
  /-- WAITT (R150): the operation that its token named. -/
  | token (id : Nat)
  /-- WAITS (R157): the snapshot, lowest slot first, then issue order. -/
  | slots (snap : List SnapMem)
  /-- BARA at the limit of 16 arrivals (R296). -/
  | arrival
  /-- A barrier wait (R296) on a group: the arrival is made. -/
  | barrier (g : Nat)
  /-- EXCH or STEP before its barrier (R300). -/
  | helpers
  /-- RGWAIT (R127). -/
  | ring (n : Nat)
  /-- MRECV (R302). -/
  | mailbox
  /-- MSEND in the retry buffer: entry number, and the answer once there is one. -/
  | msend (id : Nat) (answer : Option Bool)
  /-- HJOIN in mode 0, in arrival order (R295). -/
  | join (helper : Nat)
  /-- HEXIT of the control context (R294). -/
  | exit
  /-- RDONE in the dispatcher (R305). -/
  | dispatch
  /-- SLEEPTO (R306). -/
  | time
  /-- QSUB or QSTAT whose lookup waits for the policy core (R279); the answer once given. -/
  | lookup (id : Nat) (answer : Option DWord)
  /-- PREEMPT at a point (R346): the result once there is one. -/
  | point (result : Option (BitVec 2))
  /-- A read of a host or peer page (R69): the last request's number, the bytes that have come,
  and whether a request is outstanding. -/
  | pcie (id : Nat) (got : List Byte) (asked : Bool)
  /-- HLD between its four loads (R93, R263): the bytes loaded so far. -/
  | words (got : List Byte)
  /-- AMO or CAS whose home lies on another die, in Q(D→E) (R266): the old value once the access
  has performed, or none where the window check at the home failed (R55). -/
  | atomic (answer : Option (Option Nat))
  deriving DecidableEq, Repr

/-- A waiting instruction. `since` and `limit` are cycles (R109); `arrival` orders waits. -/
structure WaitRec where
  what : WaitFor
  since : Nat
  limit : Nat
  arrival : Nat
  instr : Instr
  deriving DecidableEq, Repr

/-- The routine dispatcher of a control context (R305, R348). `tile` names the expansion a tile
belongs to (R308). -/
structure Disp where
  ret : DWord
  dreg : SReg
  count : Nat
  running : Bool
  late : Bool
  loops : Nat
  places : Nat
  dl : BitVec 48
  hdr : DWord
  tile : Option Nat
  deriving DecidableEq, Repr

/-- A context (R18 to R20, R44, R183 to R185, R261, R292, R328, R334). `trapping` is a trap that waits for
its handler's first word: the instruction's length, the cause and XVAL (R340). -/
structure Ctx where
  mode : CtxMode
  regs : Vector DWord 32
  hregs : Vector HWord 16
  pc : DWord
  acc : Nat
  xstatus : DWord
  xcause : DWord
  xval : DWord
  xpc : DWord
  xvec : DWord
  xscratch : DWord
  qctl : DWord
  specctl : DWord
  drainmax : DWord
  fewait : DWord
  retrymax : DWord
  fpflags : DWord
  loops : List LoopLevel
  rep : Option RepState
  savedLoops : List LoopLevel
  savedRep : Option RepState
  hstack : List DWord
  sbuf : List BufEntry
  fetchOld : List Host.Cell
  disp : Option Disp
  wait : Option WaitRec
  trapping : Option (Nat × Nat × DWord)
  frec : List Byte
  deriving DecidableEq, Repr

/-- A context that no launch or START has set up yet: registers as R19, CSRs at their reset
values (R197, R319, R344, R109, R302, R171); pc and count are the model's choice (log 2). -/
def Ctx.fresh : Ctx where
  mode := .absent
  regs := Vector.replicate 32 0#64
  hregs := Vector.replicate 16 0#256
  pc := 0#64
  acc := 32
  xstatus := 0#64
  xcause := 0#64
  xval := 0#64
  xpc := 0#64
  xvec := 0#64
  xscratch := 0#64
  qctl := 2#64
  specctl := 0x0000400000100000#64
  drainmax := 0x64#64
  fewait := 0x00100000#64
  retrymax := 0x40#64
  fpflags := 0#64
  loops := []
  rep := none
  savedLoops := []
  savedRep := none
  hstack := []
  sbuf := []
  fetchOld := []
  disp := none
  wait := none
  trapping := none
  frec := []

/-- A context that has exited, or whose launch is gone: registers, handles and CSRs stand as they were,
since only the next creation sets them (R19, R294, R288; log 2); it is in nothing and waits for nothing. -/
def Ctx.exited (c : Ctx) : Ctx :=
  { c with
    mode := .absent, loops := [], rep := none, savedLoops := [], savedRep := none, hstack := [], sbuf := []
    fetchOld := [], disp := none, wait := none, trapping := none, frec := [] }

/-! ## Cores, clusters and dies -/

/-- A translation cached by a TLB (R64): the leaf of the page of 2^`size` bytes at `va`. -/
structure TlbEnt where
  pasid : Nat
  va : Nat
  size : Nat
  leaf : DWord
  deriving DecidableEq, Repr

/-- A pointer cached by a walker (R64): the table of level `level` for the addresses with
prefix `va`. -/
structure PtrEnt where
  pasid : Nat
  level : Nat
  va : Nat
  table : Nat
  deriving DecidableEq, Repr

/-- A walk in flight (R64): the 512 KiB region, and the core and the level of TLBs that asked for it (0 a
core's, 1 its cluster's, 2 its die's); `want` when an access waits for it, and not only a PREF; `stale` once
an invalidation matched it (R68). -/
structure WalkEnt where
  pasid : Nat
  va : Nat
  core : Nat
  lv : Nat
  want : Bool
  stale : Bool
  deriving DecidableEq, Repr

/-- A message in a mailbox (R302). -/
structure Msg where
  bytes : List Byte
  sender : Nat
  deriving DecidableEq, Repr

/-- An entry of a retry buffer (R302): `due` is the cycle of the next sending, `none` while the
message is on its way. -/
structure Retry where
  id : Nat
  ctx : Nat
  dst : Nat
  rank : Nat
  sender : Nat
  bytes : List Byte
  tries : Nat
  backoff : Nat
  due : Option Nat
  deriving DecidableEq, Repr

/-- An entry of a routine queue (R304): `acc` and `entry` come from its header; `dlWord` is what
s2 gets; `tile` is the expansion of a RECORDS tile (R308). -/
structure Rtn where
  hdr : DWord
  arg : DWord
  dl : BitVec 48
  dlWord : DWord
  relWord : DWord
  rank : Nat
  acc : Nat
  entry : Nat
  tile : Option Nat
  deriving DecidableEq, Repr

/-- A core (R9, R44, R129, R225, R292, R302, R304). -/
structure Core where
  launch : Option Nat
  rank : Nat
  nranks : Nat
  pasid : Nat
  grpslot : Vector DWord 4
  stepcnt : BitVec 32
  ph : BitVec 2
  vshare : DWord
  rcbase : DWord
  rcsize : DWord
  evq : DWord
  dbgctl : DWord
  trcctl : DWord
  trcbase : DWord
  trchead : DWord
  lastPasid : Option Nat
  joins : Tbl (BitVec 32)
  joinAcc : Tbl Nat
  helpers : Tbl Nat
  ctlExited : Bool
  gens : Tbl Nat
  collCount : Tbl Nat
  grabSeq : Nat
  rq : List Rtn
  mbox : List Msg
  retry : List Retry
  utlb : List TlbEnt
  mxRr : Tbl Nat
  mxOn : Bool
  stage : Option Nat
  repHolder : Option Nat
  deriving DecidableEq, Repr

/-- A core that belongs to no launch. -/
def Core.fresh : Core where
  launch := none
  rank := 0
  nranks := 0
  pasid := 0
  grpslot := Vector.replicate 4 0#64
  stepcnt := 0#32
  ph := 0#2
  vshare := 1#64
  rcbase := 0#64
  rcsize := 0#64
  evq := 0#64
  dbgctl := 0#64
  trcctl := 0#64
  trcbase := 0#64
  trchead := 0#64
  lastPasid := none
  joins := []
  joinAcc := []
  helpers := []
  ctlExited := false
  gens := []
  collCount := []
  grabSeq := 0
  rq := []
  mbox := []
  retry := []
  utlb := []
  mxRr := []
  mxOn := false
  stage := none
  repHolder := none

/-- A pre-emption request (R343). -/
structure PreReq where
  launch : Nat
  claim : Nat
  prio : Nat
  savebase : Nat
  stride : Nat
  deriving DecidableEq, Repr

/-- Where a piece of a save area comes from (R347): bytes as they were when the save began, `n` bytes at a
home, or bytes [off, off + n) of the full-empty bits of `cnt` granules from a home on. -/
inductive SaveSrc where
  | bytes (bs : List Byte)
  | home (h n : Nat)
  | full (h cnt off n : Nat)
  deriving DecidableEq, Repr

/-- A piece of a save area, inside one granule, that the save engine has still to write (R262, R347); `unit`
marks one of a whole 64-byte unit (R75). -/
structure SavePiece where
  addr : Nat
  src : SaveSrc
  unit : Bool
  deriving DecidableEq, Repr

/-- A save in progress (R347, R351), with the pieces that it has still to write. -/
structure SaveSt where
  req : PreReq
  late : Option PreReq
  pieces : List SavePiece
  deriving DecidableEq, Repr

/-- A launch whose share of a cluster is switched out (R343, R350); until it returns, its cores belong
to the claimant, by the key of its queue (R286, R343). -/
structure Suspended where
  launch : Nat
  claim : Nat
  savebase : Nat
  stride : Nat
  cores : List (Nat × Core)
  ctxs : List (Nat × Ctx)
  rings : List (Nat × Ring)
  deriving DecidableEq, Repr

/-- A cluster (R64, R96, R119, R138, R224, R227, R343). -/
structure Cluster where
  rings : Tbl Ring
  lastPasid : Option Nat
  tlb : List TlbEnt
  rrCopy : Tbl Nat
  rrColl : Tbl Nat
  rrWeir : Tbl Nat
  rrQnt : Tbl Nat
  cvuPtr : Nat
  cvuDef : Tbl Nat
  preq : Option PreReq
  gather : Option Nat
  saving : Option SaveSt
  suspended : List Suspended
  deriving DecidableEq, Repr

/-- A cluster nothing has held. -/
def Cluster.fresh : Cluster where
  rings := []
  lastPasid := none
  tlb := []
  rrCopy := []
  rrColl := []
  rrWeir := []
  rrQnt := []
  cvuPtr := 0
  cvuDef := []
  preq := none
  gather := none
  saving := none
  suspended := []

/-- Who makes a read in several steps: a scalar access or a fetch of a context, an operation's engine,
the Headgate for a packet or for an expansion, the post of a record, or the save engine for a cluster (R69,
R96, R144, R308, R345), or another module by way of a far window (R71). -/
inductive IoOwner where
  | ctx (k : Nat)
  | fetch (k : Nat)
  | op (id : Nat)
  | gate
  | expand (id : Nat)
  | post (id : Nat)
  | save (cl : Nat)
  | far (id : Nat)
  deriving DecidableEq, Repr

/-- A read of a window's line in progress (R96): the offset and the length, and what has been read at the
homes of the index entries and base elements so far, each once. -/
structure LineRead where
  owner : IoOwner
  off : Nat
  len : Nat
  got : List (Nat × List Byte)
  deriving DecidableEq, Repr

/-- A sluice window that is bound (R95), with the reads that it has accepted. -/
structure Window where
  pasid : Nat
  launch : Nat
  index : HWord
  base : HWord
  core : Nat
  oob : Bool
  lines : List LineRead
  deriving DecidableEq, Repr

/-- A compute die (R64, R95, R138, R311, R413). `walked` holds the walks that have ended and cached nothing,
because they failed (R65) or an invalidation matched them (R68), each until an access that waits for it
takes its result. -/
structure Die where
  windows : Tbl Window
  poolOwner : Option Nat
  poolLast : Option Nat
  tlb : List TlbEnt
  ptrs : List PtrEnt
  walks : List WalkEnt
  walkq : List WalkEnt
  walked : List WalkEnt
  specRr : Tbl Nat
  healthy : Bool
  deriving DecidableEq, Repr

/-- A die nothing has used. -/
def Die.fresh : Die where
  windows := []
  poolOwner := none
  poolLast := none
  tlb := []
  ptrs := []
  walks := []
  walkq := []
  walked := []
  specRr := []
  healthy := true

/-! ## Child operations -/

/-- The states of R132. -/
inductive OpState where
  | queued | running | done | faulted | cancelled
  deriving DecidableEq, Repr

/-- The code of R132. -/
def OpState.code : OpState → Nat
  | .queued => 0
  | .running => 1
  | .done => 2
  | .faulted => 3
  | .cancelled => 4

/-- Final states (R132). -/
def OpState.final : OpState → Bool
  | .queued => false
  | .running => false
  | .done => true
  | .faulted => true
  | .cancelled => true

/-- The standing of R142: attached to a context (by its key); without an owner, its record to be
posted to an adopter's core; or final with its record to be posted to its owner's core (R136). -/
inductive Standing where
  | attached (ctx : Nat)
  | adopter (core : Nat)
  | posting (core : Nat)
  deriving DecidableEq, Repr

/-- How an operation is to end, decided and not yet posted (R133). -/
structure Final where
  st : OpState
  cause : Nat
  addr : Nat
  member : Nat
  progress : Nat
  deriving DecidableEq, Repr

/-- A write an engine has still to perform (R269): `va` is its address, `fill` sets the full-empty bits
(R107), `unit` marks a piece of a full 64-byte write (R75), `cnt` is what it adds to PROGRESS. -/
structure EngWrite where
  va : Nat
  home : Nat
  bytes : List Byte
  fill : List Nat
  chk : Option Chk
  unit : Bool
  cnt : Nat
  deriving DecidableEq, Repr

/-- A child operation, a vector instruction (`vec`) or a member part of an MMAG (`parent`). -/
structure Op where
  id : Nat
  core : Nat
  ctx : Nat
  idx : Nat
  gen : Nat
  vec : Bool
  instr : Instr
  launch : Nat
  pasid : Nat
  st : OpState
  standing : Standing
  pri : Nat
  trapf : Bool
  rel : Bool
  det : Bool
  orphan : Bool
  restored : Bool
  depfail : Bool
  noTok : Bool
  slot : Option Nat
  inSlot : Bool
  snap : List Nat
  waits : List Nat
  hA : HWord
  hB : HWord
  hC : HWord
  xv : DWord
  yv : DWord
  zv : DWord
  csr : DWord
  rcb : DWord
  rcs : DWord
  group : Nat
  members : List Nat
  phase2 : Bool
  cancel : Bool
  cancelAt : Nat
  pend : List EngWrite
  got : Tbl (List (Nat × List Byte))
  prog : Nat
  pos : List Nat
  scr : List Nat
  res : List (List Nat)
  slotA : Option Nat
  slotB : Option Nat
  slotC : Option Nat
  place : Bool
  startNo : Nat
  placeNo : Nat
  base : Option Nat
  want : Option (Nat × Nat)
  seq : Nat
  parent : Option Nat
  mrank : Nat
  matchNo : Nat
  since : Nat
  fin : Option Final
  cause : Nat
  addr : Nat
  member : Nat
  time : DWord
  deriving DecidableEq, Repr

/-! ## Launches, barriers, dispatch -/

/-- An arrival at a barrier (R296, R298): barrier number, rank, core, status, arrival time. -/
structure Arrival where
  k : Nat
  rank : Nat
  core : Nat
  status : BitVec 16
  time : DWord
  deriving DecidableEq, Repr

/-- A group of a launch and its Confluence counts (R289, R296). `results` keeps, for a completed
barrier, its number, the rank and the status. -/
structure Group where
  gnum : Nat
  xmod : Bool
  adopter : Nat
  members : List Nat
  arrived : Tbl Nat
  waited : Tbl Nat
  completed : Nat
  arrivals : List Arrival
  results : List (Nat × Nat × BitVec 16)
  deriving DecidableEq, Repr

/-- A range counter (R310). -/
structure RangeCtr where
  next : Nat
  stop : Nat
  minchunk : Nat
  part : Nat
  deriving DecidableEq, Repr

/-- The fields of a kernel or routine header (R46). -/
structure Header where
  regs : Nat
  mode : Nat
  early : Nat
  kind : Nat
  entry : Nat
  code : Nat
  bind : Nat
  tcm : Nat
  spm : Nat
  gtab : Nat
  gcount : Nat
  deriving DecidableEq, Repr

/-- Why a launch is job-fatal (R341): the cause, the core and the frozen record. -/
structure Fatal where
  cause : Nat
  core : Nat
  frec : List Byte
  deriving DecidableEq, Repr

/-- A launch (R285 to R288). `released` is the cycle of gang release. -/
structure Launch where
  id : Nat
  key : Nat
  ringIdx : Nat
  pasid : Nat
  row0 : Nat
  col0 : Nat
  rows : Nat
  cols : Nat
  arg : DWord
  caddr : DWord
  cval : DWord
  imb : DWord
  imblog : Nat
  hdrVa : DWord
  hdr : Header
  image : Nat
  groups : List Group
  ranges : List RangeCtr
  leader : Nat
  candidate : Option Nat
  released : Option Nat
  fatal : Option Fatal
  deriving DecidableEq, Repr

/-- A packet that has started and is not complete (R282). -/
structure Pkt where
  id : Nat
  key : Nat
  ringIdx : Nat
  kind : Nat
  ref : Nat
  deriving DecidableEq, Repr

/-- What is held by the Headgate (R279, R281). -/
inductive HeldKind where
  | qsub | kick | qstat
  deriving DecidableEq, Repr

/-- A held submission or lookup (R279, R281). `src` is the context that waits for its status;
`blocked` marks a kick that does, and `asked` one whose lookup waits for the policy core. -/
structure Held where
  id : Nat
  kind : HeldKind
  key : Nat
  tail : Nat
  packet : List Byte
  src : Option Nat
  blocked : Bool
  asked : Bool
  launch : Nat
  rank : Nat
  deriving DecidableEq, Repr

/-- An expansion of a RECORDS packet (R308). `cur` holds the count and the routine header's address of the
record at hand, once they are read (R409); `wrote` holds once the counts of the completion record are
written, and DONE is not. -/
structure Expand where
  id : Nat
  pkt : Nat
  key : Nat
  ringIdx : Nat
  launch : Nat
  members : List Nat
  nrec : Nat
  recs : DWord
  dl : BitVec 48
  caddr : DWord
  rank : Nat
  record : Nat
  cur : Option (Nat × Nat)
  tile : Nat
  count : Nat
  total : Nat
  skipped : Nat
  refused : Nat
  open_ : Nat
  finished : Bool
  wrote : Bool
  deriving DecidableEq, Repr

/-- What QSUB put into a ring: the issuer's launch and rank, kept for a RECORDS packet (R307). -/
structure FromQsub where
  key : Nat
  ringIdx : Nat
  launch : Nat
  rank : Nat
  deriving DecidableEq, Repr

/-- A QCB of the policy core's overflow list (R279). -/
structure Overflow where
  key : Nat
  ring : DWord
  size : Nat
  head : Nat
  tail : Nat
  state : Nat
  statusq : DWord
  deriving DecidableEq, Repr

/-! ## Ordering machine, host, transport -/

/-- An atomic access in an outbound queue: an AMO or CAS with the context that waits for the old value,
the values of its b and d registers (R178, R266) and, of a CAS, whether it is a release if it stores
(R180), or an eddy bin's addition to an element of a FMT, for a launch's core (R75, R102, R271). -/
inductive AmoReq where
  | scalar (ctx : Nat) (instr : Instr) (y cmp : DWord) (rel : Bool)
  | eddy (launch core fmt v : Nat)
  deriving DecidableEq, Repr

/-- An entry of an outbound queue Q(src→dst) (R261): a write, or with `amo` an atomic access. `fe`
marks a .fes store, which is not pending in a view (R272); `op` names the operation that wrote it,
the address it wrote, its PROGRESS before the write and what the write adds to that (R73, R74). A `joined` entry is a further piece of
the granule that the entry before it writes, and performs with it (R218, R274). -/
structure QEntry where
  src : Nat
  dst : Nat
  home : Nat
  bytes : List Byte
  fill : List Nat
  chk : Option Chk
  pasid : Nat
  unit : Bool
  fe : Bool
  op : Option (Nat × Nat × Nat × Nat)
  amo : Option AmoReq
  joined : Bool
  deriving DecidableEq, Repr

/-- The header of a bin set as an applier reads it at the start of a command (R98, R99). -/
structure EddyHdr where
  target : Nat
  count : Nat
  fmt : Nat
  binbase : Nat
  cap : Nat
  deriving DecidableEq, Repr

/-- An early apply at an applier (R100, R102): the descriptor's home and address, whose append made it, the
bin, the next entry, its order, and the header, once it has read it at its start (R99); what keeps it from
going on, as a cause and an address; whether its entries are done, and the accesses made since (R262). -/
structure EarlyApply where
  id : Nat
  home : Nat
  va : Nat
  pasid : Nat
  core : Nat
  launch : Nat
  bin : Nat
  k : Nat
  stamp : Nat
  hdr : Option EddyHdr
  stuck : Option (Nat × Nat)
  ending : Bool
  got : List (Nat × List Byte)
  deriving DecidableEq, Repr

/-- A granule of V_D that holds an older copy than its home (R261). -/
structure OldView where
  die : Nat
  granule : Nat
  bytes : List Byte
  deriving DecidableEq, Repr

/-- A non-posted request outstanding on the PCI Express port (R69), with the launch's PASID and
whether it goes in a TLP prefix. -/
structure PcieRead where
  id : Nat
  owner : IoOwner
  addr : Nat
  size : Nat
  va : DWord
  pasid : Nat
  tagged : Bool
  deriving DecidableEq, Repr

/-- A posted request issued on the link (R69, R277), with the value of its PASID prefix if it has
one. -/
structure PcieWrite where
  addr : Nat
  bytes : List Byte
  prefix_ : Option Nat
  deriving DecidableEq, Repr

/-- What came of a request to a host or peer page for a fetch, an engine, the Headgate or a post:
its bytes, or none where it failed (R69). -/
structure IoGot where
  owner : IoOwner
  addr : Nat
  bytes : Option (List Byte)
  deriving DecidableEq, Repr

/-- A read through a far window, on its way to the remote module (R55, R71, R110). -/
structure FarRead where
  id : Nat
  op : Nat
  addr : Nat
  rmod : Nat
  rpasid : Nat
  raddr : Nat
  len : Nat
  deriving DecidableEq, Repr

/-- What this module answers to a read of another module: the bytes, or none where it faults (R71). -/
structure FarOut where
  rmod : Nat
  bytes : Option (List Byte)
  deriving DecidableEq, Repr

/-- A read of another module through a far window of its own, which this module has not answered yet
(R71). -/
structure FarIn where
  id : Nat
  rmod : Nat
  pasid : Nat
  va : Nat
  len : Nat
  deriving DecidableEq, Repr

/-- The answer to an incoming read (R70, R355). -/
inductive HostResp where
  | data (bytes : List Byte)
  | unsupported
  | abort
  deriving DecidableEq, Repr

/-- A piece of a host request, inside an aligned 8 bytes, that a service core has accepted and not
yet performed (R274, R275): a write of `bytes`, or for the read `read` its `part`-th piece of `len`
bytes; `va` is the address that the request reached. -/
structure SvcReq where
  svc : Nat
  home : Nat
  bytes : List Byte
  read : Option Nat
  part : Nat
  len : Nat
  va : Nat
  pasid : Nat
  chk : Option Chk
  deriving DecidableEq, Repr

/-- A read of BAR2 in progress (R70, R275): the pieces asked for, those that have come, and the address
of one that met a fault. -/
structure BarRead where
  id : Nat
  parts : Nat
  got : Tbl (List Byte)
  bad : Option Nat
  deriving DecidableEq, Repr

/-- A record on its way to an event or status queue, which waits for a host or peer page, for a walk, or for
an earlier record of its queue (R64, R69, R144): what it is posted with, and the launch of the core whose
queue it is. -/
structure Post where
  id : Nat
  launch : Option Nat
  core : Nat
  pasid : Nat
  die : Nat
  lv : Option Nat
  base : Nat
  bytes : List Byte
  deriving DecidableEq, Repr

/-- A trace record of a core that waits for a walk, or for an earlier one (R64, R379). -/
structure TraceRec where
  core : Nat
  launch : Option Nat
  pasid : Nat
  bytes : List Byte
  deriving DecidableEq, Repr

/-- A kick accepted and not yet served (R281). -/
structure KickReq where
  tail : Nat
  key : Nat
  deriving DecidableEq, Repr

/-- An invalidation in progress (R68): its kind, address and PASID. -/
structure Inval where
  kind : Nat
  va : Nat
  pasid : Nat
  deriving DecidableEq, Repr

/-- A DATA frame in flight: not yet acknowledged (R361), with its operation, the local address of the first
byte that it carries of it, and how many those are. -/
structure Frame where
  seq : Nat
  pasid : Nat
  addr : Nat
  payload : List Byte
  op : Nat
  va : Nat
  count : Nat
  deriving DecidableEq, Repr

/-- A transport channel, its sending and receiving ends (R361). -/
structure Channel where
  peer : Nat
  cls : Nat
  nextSeq : Nat
  unacked : List Frame
  expect : Nat
  resends : Nat
  since : Nat
  failed : Bool
  deriving DecidableEq, Repr

/-- A frame put on an Ethernet port: the port, the module it is for, its Ethernet II header (R359) and its
bytes after that (R360). -/
structure EthOut where
  port : Nat
  dstmod : Nat
  head : List Byte
  bytes : List Byte
  deriving DecidableEq, Repr

/-- A far window of a PASID (R362). -/
structure FarWin where
  pasid : Nat
  win : Nat
  rmod : Nat
  rpasid : Nat
  base : Nat
  deriving DecidableEq, Repr

/-- A cross-module group (R362): the remote members by module. -/
structure XGroup where
  launch : Nat
  gnum : Nat
  remote : List (Nat × Nat × Nat)
  deriving DecidableEq, Repr

/-- Data of a remote member of a collective, delivered by the transport (R253, R363). -/
structure CollData where
  pasid : Nat
  match_ : Nat
  rmod : Nat
  payload : List Byte
  deriving DecidableEq, Repr

/-- An abort of a collective, or a disagreement of its members (R253, R259): the match, the culprit
rank, the cause, and whether other modules have been told. `frame` is the PASID and match identifier of
one that another module has sent, which names no group of this one. -/
structure CollAbort where
  launch : Nat
  group : Nat
  matchNo : Nat
  culprit : Nat
  cause : Nat
  sent : Bool
  frame : Option (Nat × Nat)
  deriving DecidableEq, Repr

/-- What a member of a match was issued with, kept for the agreement check (R253). -/
structure CollTerm where
  launch : Nat
  group : Nat
  matchNo : Nat
  name : Nat
  terms : List Nat
  deriving DecidableEq, Repr

/-! ## Firmware and trust -/

/-- The life-cycle states (R367). -/
inductive LifeCycle where
  | test | production | retired
  deriving DecidableEq, Repr

/-- The fused key store (R367). Public keys are points of 96 bytes, x then y; the device identity private
key is a number of 48 bytes; an operator key that has not been written is empty. -/
structure Fuses where
  life : LifeCycle
  devid : List Byte
  devKey : List Byte
  vendorKey : List Byte
  operatorKey : List Byte
  minVendor : Nat
  minOperator : Nat
  c48 : Bool
  deriving DecidableEq, Repr

/-- The lease store (R367, R370). -/
structure Lease where
  id : List Byte
  owner : List Byte
  minver : Nat
  deriving DecidableEq, Repr

/-- The hand-over states (R371). -/
inductive HandState where
  | none | staged | quiescing | switching
  deriving DecidableEq, Repr

/-- Who holds the policy core (R368, R371, R372). -/
inductive Holder where
  | utonauz | firmware
  deriving DecidableEq, Repr

/-- A mailbox command in progress and its response, not yet posted (R365). -/
structure MbxCmd where
  code : Nat
  result : Nat
  response : List Byte
  deriving DecidableEq, Repr

/-- A mailbox command that has come over MCTP and waits for the mailbox (R365). -/
structure MctpReq where
  code : Nat
  bytes : List Byte
  act : FwAction
  deriving DecidableEq, Repr

/-- A save or restore request's final status for the policy core (R343). -/
structure PreStatus where
  launch : Nat
  cluster : Nat
  code : Nat
  deriving DecidableEq, Repr

/-- What the policy core is told, or reports to the host. -/
inductive Report where
  | frozen (core ctx : Nat) (rec : List Byte)
  | discard (key ringIdx cause core : Nat) (rec : List Byte)
  | fault (key ringIdx addr : Nat)
  | imbalance (addr : Nat)
  | ringRead (key ringIdx addr : Nat)
  | dropped (key ringIdx : Nat)
  | event (core : Nat)
  | unusable (handle base : DWord)
  | preempt (s : PreStatus)
  | channel (peer cls : Nat)
  | uncorrectable (kind unit : Nat)
  | barFault (addr : Nat)
  | poisoned (pasid va : Nat)
  deriving DecidableEq, Repr

/-! ## The parties' moves -/

/-- An access of the debug port to the policy core (R376): whether it runs, a register, the pc, and bytes of
its memory. -/
inductive PolicyDebug where
  | halt
  | go
  | readReg (r : Nat)
  | writeReg (r : Nat) (v : Word)
  | readPc
  | writePc (v : Word)
  | readMem (a n : Nat)
  | writeMem (a : Nat) (bs : List Byte)
  deriving DecidableEq, Repr

/-- What ERRINJ injects an error into (R376): a SECDED word, or a flit's CRC on a link. -/
inductive ErrPlace where
  | word (u : ErrUnit)
  | flit (link : Nat)
  deriving DecidableEq, Repr

/-- What a party does, or the outside does to the module, that is no row of the opcode table. -/
inductive Act where
  /-- A service core performs the oldest piece that it has accepted (R275). -/
  | service (svc : Nat)
  /-- A read of BAR2 whose pieces have all come is answered (R70). -/
  | barAnswer (id : Nat)
  /-- The host reads `n` bytes of BAR0 (R355, R356). -/
  | bar0Read (off n : Nat)
  /-- An AtomicOp request to BAR2 (R354). -/
  | atomicOp
  /-- The host switches the PASID capability (R69). -/
  | pasidCap (on : Bool)
  /-- The record that waits longest for its queue goes on (R144). -/
  | post
  /-- The trace record of a core that waits longest goes on (R379). -/
  | trace (core : Nat)
  /-- The save engine writes its next piece for a cluster (R347). -/
  | save (cl : Nat)
  /-- An eddy bin's early apply goes on (R100). -/
  | apply (id : Nat)
  /-- The answer to a read through a far window comes (R71). -/
  | farAnswer (id : Nat) (bytes : Option (List Byte))
  /-- Another module reads through a far window of its own (R71). -/
  | farServe (rmod pasid va len : Nat)
  /-- A read of another module that waits goes on (R71). -/
  | farGo (id : Nat)
  /-- A port goes bad or comes back (R361). -/
  | port (n : Nat) (bad : Bool)
  /-- The firmware raises one of its own vectors (R357). -/
  | vector (v : Nat)
  /-- The firmware sets the frequency, in MHz, and the voltage, in mV, of an island (R383). -/
  | island (n mhz mv : Nat)
  /-- The firmware writes the MAC address of a module into its table (R359). -/
  | mac (modnum : Nat) (addr : List Byte)
  /-- The policy core executes an instruction of its firmware (R364). -/
  | policy
  /-- The operator's public key is written at commissioning (R367). -/
  | operatorKey (key : List Byte)
  /-- The module is retired (R367). -/
  | retire
  /-- The debug port of the policy core (R376). -/
  | policyDebug (d : PolicyDebug)
  /-- An error of one bit or of two is injected (R376). -/
  | inject (p : ErrPlace) (double : Bool)
  /-- The key store is read (R376). -/
  | fuseView
  /-- The PCI Express link meets an error that its replay does not correct (R380). -/
  | pcieError
  /-- A storage unit of a class goes bad: it will fail the checks of a scrub (R375). -/
  | badUnit (cls unit : Nat)
  deriving DecidableEq, Repr

/-- Who moves next (R262; log 1): a context issues, an event of the table happens, another party acts,
or time passes. -/
inductive Mover where
  | issue (core ctx : Nat)
  | event (e : Instr)
  | act (a : Act)
  | tick (cycles ns : Nat)
  deriving DecidableEq, Repr

/-- A move; `keep` lists the dies whose views keep the old copies of what it performs (R262). -/
structure Move where
  who : Mover
  keep : List Nat
  deriving DecidableEq, Repr

/-! ## The module -/

/-- The state of the module. -/
structure State where
  mem : List Host.Cell
  full : List Nat
  poison : List (Nat × Nat)
  ctxs : Tbl Ctx
  cores : Tbl Core
  clusters : Tbl Cluster
  dies : Tbl Die
  eddyRr : Tbl (Tbl Nat)
  outq : List QEntry
  views : List OldView
  ops : List Op
  applies : List EarlyApply
  launches : List Launch
  packets : List Pkt
  held : List Held
  hgNext : Nat
  hgStopped : List Nat
  fromQsub : List FromQsub
  overflow : List Overflow
  liveGen : List (Nat × Nat × Nat)
  expands : List Expand
  kickSeq : BitVec 32
  kickStatus : BitVec 8
  kicks : List KickReq
  svcBusy : Bool
  svcDone : BitVec 32
  svcGo : Nat
  svcq : List SvcReq
  barReads : List BarRead
  posts : List Post
  traces : List TraceRec
  qtbase : DWord
  pdirbase : DWord
  pdircount : DWord
  setUp : List Nat
  invaddr : DWord
  invcmd : BitVec 32
  inval : Option Inval
  aptBase : Vector DWord 32
  aptCtl : Vector (BitVec 32) 32
  mbxBusy : Bool
  mbxSeq : BitVec 32
  mbxRlen : BitVec 16
  mbxResult : BitVec 8
  mbxData : List Byte
  mbxCmd : Option MbxCmd
  mbxMctp : Bool
  mctp : List MctpReq
  mctpOut : List MbxCmd
  reclaimState : BitVec 3
  reclaimSeq : BitVec 32
  reclaimMbx : Bool
  reclaimStart : DWord
  record : List Byte
  msix : List Nat
  msixTab : Tbl DWord
  msixPend : List Nat
  aer : BitVec 32
  pcieReads : List PcieRead
  ioGot : List IoGot
  pasidCap : Bool
  pcieOut : List PcieWrite
  bar2Out : List HostResp
  time : DWord
  timeFrac : Nat
  cycle : Nat
  trim : Int
  fuses : Fuses
  lease : Option Lease
  bootImage : List Byte
  stagedOwner : Option (List Byte)
  staged : Option (List Byte)
  hand : HandState
  handSince : DWord
  holder : Holder
  current : Option (List Byte)
  policyTcm : List Host.Cell
  policyRegs : Vector (BitVec 32) 32
  policyPc : BitVec 32
  policyHalted : Bool
  dbgOut : List (List Byte)
  nonce : Option (List Byte)
  features : BitVec 32
  power : Bool
  released : Bool
  recovery : Bool
  stopped : Bool
  channels : List Channel
  farWin : List FarWin
  farReads : List FarRead
  farIn : List FarIn
  farOut : List FarOut
  xgroups : List XGroup
  collData : List CollData
  aborts : List CollAbort
  collTerms : List CollTerm
  modnum : BitVec 13
  macs : Tbl (List Byte)
  ethOut : List EthOut
  badPorts : List Nat
  islands : Tbl (Nat × Nat)
  fenced : List Nat
  badUnits : List (Nat × Nat)
  corrected : Nat
  replays : Nat
  ptp : List (Nat × Bool × DWord)
  reports : List Report
  cur : Nat
  agenda : List Move
  keep : List Nat
  rdKey : Nat
  rdAt : Nat
  freeCtr : Nat
  nextId : Nat
  stamp : Nat
  deriving DecidableEq, Repr

/-- Why the machine stops with a fault. -/
inductive Fault where
  /-- Raised by the events: the move names a unit that no module has (a core, cluster, die,
  stack, port or island number out of range). Safe: the hardware has no such party. -/
  | noSuchUnit
  deriving DecidableEq, Repr

/-- Why an instruction has no meaning. -/
inductive Refusal where
  /-- Raised by the dispatch for a row of the table that has no meaning yet. Safe. -/
  | notModelled (mnemonic : String)
  deriving DecidableEq, Repr

/-- The module right after reset (R19, R366, R368, R373, R383, R415 and the field maps): powered,
held by Utonauz, the dies in reset, memory scrubbed to zero, no launch. The fuses, the life cycle
and the model's own fields are the model's choice (log 1, 4, 5, 6). -/
def State.reset : State where
  mem := []
  full := []
  poison := []
  ctxs := []
  cores := []
  clusters := []
  dies := []
  eddyRr := []
  outq := []
  views := []
  ops := []
  applies := []
  launches := []
  packets := []
  held := []
  hgNext := 0
  hgStopped := []
  fromQsub := []
  overflow := []
  liveGen := []
  expands := []
  kickSeq := 0#32
  kickStatus := 0#8
  kicks := []
  svcBusy := false
  svcDone := 0#32
  svcGo := 0
  svcq := []
  barReads := []
  posts := []
  traces := []
  qtbase := 0#64
  pdirbase := 0#64
  pdircount := 0#64
  setUp := []
  invaddr := 0#64
  invcmd := 0#32
  inval := none
  aptBase := Vector.replicate 32 0#64
  aptCtl := Vector.replicate 32 0#32
  mbxBusy := false
  mbxSeq := 0#32
  mbxRlen := 0#16
  mbxResult := 0#8
  mbxData := []
  mbxCmd := none
  mbxMctp := false
  mctp := []
  mctpOut := []
  reclaimState := 0#3
  reclaimSeq := 0#32
  reclaimMbx := false
  reclaimStart := 0#64
  record := []
  msix := []
  msixTab := []
  msixPend := []
  aer := 0#32
  pcieReads := []
  ioGot := []
  pasidCap := false
  pcieOut := []
  bar2Out := []
  time := 0#64
  timeFrac := 0
  cycle := 0
  trim := 0
  fuses := { life := .production, devid := [], devKey := [], vendorKey := [], operatorKey := [],
             minVendor := 0, minOperator := 0, c48 := false }
  lease := none
  bootImage := []
  stagedOwner := none
  staged := none
  hand := .none
  handSince := 0#64
  holder := .utonauz
  current := none
  policyTcm := []
  policyRegs := Vector.replicate 32 0#32
  policyPc := 0#32
  policyHalted := false
  dbgOut := []
  nonce := none
  features := 0#32
  power := true
  released := false
  recovery := false
  stopped := false
  channels := []
  farWin := []
  farReads := []
  farIn := []
  farOut := []
  xgroups := []
  collData := []
  aborts := []
  collTerms := []
  modnum := 0#13
  macs := []
  ethOut := []
  badPorts := []
  islands := []
  fenced := []
  badUnits := []
  corrected := 0
  replays := 0
  ptp := []
  reports := []
  cur := 0
  agenda := []
  keep := []
  rdKey := 0
  rdAt := 0
  freeCtr := 0
  nextId := 1
  stamp := 0

end Sys2Proof.Machine
end

