-- ==== Sys2Proof/Machine/Table.lean ====
section
/-! DEFINITION. Tables by number and the byte list that holds memory: sorted lists with one
canonical form each. -/

namespace Sys2Proof.Machine
open Sys2Proof

/-- The entry of key `k`, if it is listed. -/
def tfind {α : Type} (k : Nat) : Tbl α → Option α
  | [] => none
  | (j, v) :: r => if j = k then some v else if k < j then none else tfind k r

/-- The entry of key `k`, or the default. -/
def tget {α : Type} (t : Tbl α) (k : Nat) (d : α) : α := (tfind k t).getD d

/-- Sets the entry of key `k`. -/
def tset {α : Type} (k : Nat) (v : α) : Tbl α → Tbl α
  | [] => [(k, v)]
  | (j, w) :: r =>
    if j = k then (k, v) :: r else if k < j then (k, v) :: (j, w) :: r else (j, w) :: tset k v r

/-- Removes the entry of key `k`. -/
def terase {α : Type} (k : Nat) : Tbl α → Tbl α
  | [] => []
  | (j, w) :: r => if j = k then r else if k < j then (j, w) :: r else (j, w) :: terase k r

/-- Membership in an ascending list of numbers. -/
def smem (k : Nat) : List Nat → Bool
  | [] => false
  | j :: r => if j = k then true else if k < j then false else smem k r

/-- Adds a number to an ascending list. -/
def sins (k : Nat) : List Nat → List Nat
  | [] => [k]
  | j :: r => if j = k then j :: r else if k < j then k :: j :: r else j :: sins k r

/-- Removes a number from an ascending list. -/
def sdel (k : Nat) : List Nat → List Nat
  | [] => []
  | j :: r => if j = k then r else if k < j then j :: r else j :: sdel k r

/-- What a byte that no entry lists reads as: the power-on scrub leaves zero (R368, R375). -/
def memDefault : Byte := 0#8

/-- The byte at a home address. -/
def memGet (a : Nat) : List Host.Cell → Byte
  | [] => memDefault
  | (k, v) :: r => if k = a then v else if a < k then memDefault else memGet a r

/-- Removes the listing of an address. -/
def memClear (a : Nat) : List Host.Cell → List Host.Cell
  | [] => []
  | (k, v) :: r => if k = a then r else if a < k then (k, v) :: r else (k, v) :: memClear a r

/-- Lists a byte at an address. -/
def memPut (a : Nat) (b : Byte) : List Host.Cell → List Host.Cell
  | [] => [(a, b)]
  | (k, v) :: r =>
    if k = a then (a, b) :: r else if a < k then (a, b) :: (k, v) :: r else (k, v) :: memPut a b r

/-- Writes a byte at a home address, keeping the canonical form. -/
def memSet (a : Nat) (b : Byte) (m : List Host.Cell) : List Host.Cell :=
  if b = memDefault then memClear a m else memPut a b m

/-- Writes bytes from an address on. -/
def memWrite (a : Nat) : List Byte → List Host.Cell → List Host.Cell
  | [], m => m
  | b :: bs, m => memWrite (a + 1) bs (memSet a b m)

/-- Reads `n` bytes from an address on. -/
def memRead (a : Nat) : Nat → List Host.Cell → List Byte
  | 0, _ => []
  | n + 1, m => memGet a m :: memRead (a + 1) n m

/-- Zeroes every listed byte of [a, a + n) (scrubs, R106, R375, R413). -/
def memZero (a n : Nat) : List Host.Cell → List Host.Cell
  | [] => []
  | (k, v) :: r => if a ≤ k ∧ k < a + n then memZero a n r else (k, v) :: memZero a n r

/-- Every address of a list is at least `lo`, ascending strictly, and no byte is the default. -/
def memSorted (lo : Nat) : List Host.Cell → Bool
  | [] => true
  | (k, v) :: r => decide (lo ≤ k) && decide (v ≠ memDefault) && memSorted (k + 1) r

/-- The canonical form of memory. -/
def memWf (m : List Host.Cell) : Bool := memSorted 0 m

/-- A little-endian number from bytes (R3). -/
def leNat : List Byte → Nat
  | [] => 0
  | b :: r => b.toNat + 256 * leNat r

/-- The `n` bytes of a number, lowest first (R3). -/
def leBytes (n w : Nat) : List Byte := bytesOf n w
where
  bytesOf : Nat → Nat → List Byte
    | 0, _ => []
    | k + 1, w => BitVec.ofNat 8 w :: bytesOf k (w / 256)

/-- A 64-bit value from a number. -/
def dw (n : Nat) : DWord := BitVec.ofNat 64 n

/-- Bits [hi : lo] of a number. -/
def nbits (w lo n : Nat) : Nat := w / 2 ^ lo % 2 ^ n

/-- One bit of a number. -/
def nbit (w i : Nat) : Bool := w / 2 ^ i % 2 == 1

/-- A truth value as a number. -/
def b2n (b : Bool) : Nat := if b then 1 else 0

/-- The first element of a list that meets a test, and the others in order. -/
def takeFirst {α : Type} (p : α → Bool) : List α → Option (α × List α)
  | [] => none
  | x :: r =>
    if p x then some (x, r) else
    match takeFirst p r with
    | none => none
    | some (y, r') => some (y, x :: r')

/-- Updates the first element that meets a test. -/
def updFirst {α : Type} (p : α → Bool) (f : α → α) : List α → List α
  | [] => []
  | x :: r => if p x then f x :: r else x :: updFirst p f r

/-- Folds a state through the numbers 0 to n − 1. -/
def foldN {α : Type} (f : Nat → α → α) : Nat → α → α
  | 0, x => x
  | n + 1, x => f n (foldN f n x)

end Sys2Proof.Machine
end

