-- ==== Sys2Proof/Machine/Flags.lean ====
section
/-! DEFINITION. The floating-point flags (spec/07 R171): a number whose bits are NV, DZ, OF, UF
and NX as FPFLAGS has them. -/

namespace Sys2Proof.Machine
open Sys2Proof

/-- Flags raised by an operation, as the bits of FPFLAGS (R171). -/
abbrev FpFlags := Nat

/-- NV: invalid operation. -/
def flNV : FpFlags := 16
/-- DZ: division of a finite nonzero value by zero. -/
def flDZ : FpFlags := 8
/-- OF: the rounded result exceeded the largest finite value. -/
def flOF : FpFlags := 4
/-- UF: the result was tiny and inexact. -/
def flUF : FpFlags := 2
/-- NX: the result was inexact. -/
def flNX : FpFlags := 1

/-- The flags of a rounding (R171): NX with every OF, UF when tiny and inexact. -/
def roundFlags (inexact overflow tiny : Bool) : FpFlags :=
  if overflow then flOF + flNX
  else if inexact then (if tiny then flUF + flNX else flNX)
  else 0

/-- FPFLAGS after an instruction that raises `f` (R171). -/
def orFlags (old : DWord) (f : FpFlags) : DWord := old ||| dw f

end Sys2Proof.Machine
end

