-- ==== Sys2Proof/Machine/Numbers.lean ====
section
/-! DEFINITION. Number formats and exact arithmetic with one rounding (spec/08 R191 to R207,
spec/07 R166 to R171). A finite value is an exact dyadic number. -/

namespace Sys2Proof.Machine
open Sys2Proof

/-- A floating format (R191): exponent and mantissa bits; `sat` for the two 8-bit formats, whose
conversions saturate (R193); `e4m3` for the format with no infinity. -/
structure Fmt where
  eb : Nat
  mb : Nat
  sat : Bool
  e4m3 : Bool
  deriving DecidableEq, Repr

/-- f64 (R191). -/
def f64 : Fmt := { eb := 11, mb := 52, sat := false, e4m3 := false }
/-- f32 (R191). -/
def f32 : Fmt := { eb := 8, mb := 23, sat := false, e4m3 := false }
/-- bf16 (R191). -/
def bf16 : Fmt := { eb := 8, mb := 7, sat := false, e4m3 := false }
/-- f16 (R191). -/
def f16 : Fmt := { eb := 5, mb := 10, sat := false, e4m3 := false }
/-- e4m3 (R191). -/
def e4m3 : Fmt := { eb := 4, mb := 3, sat := true, e4m3 := true }
/-- e5m2 (R191). -/
def e5m2 : Fmt := { eb := 5, mb := 2, sat := true, e4m3 := false }

/-- The exponent bias. -/
def Fmt.bias (f : Fmt) : Nat := 2 ^ (f.eb - 1) - 1
/-- The sign bit's weight. -/
def Fmt.signW (f : Fmt) : Nat := 2 ^ (f.eb + f.mb)
/-- The bits of +∞ (IEEE formats). -/
def Fmt.infBits (f : Fmt) : Nat := (2 ^ f.eb - 1) * 2 ^ f.mb
/-- The canonical NaN (R166, R192). -/
def Fmt.nanBits (f : Fmt) : Nat := if f.e4m3 then 0x7F else f.infBits + 2 ^ (f.mb - 1)
/-- The bits of the largest finite value. -/
def Fmt.maxBits (f : Fmt) : Nat := if f.e4m3 then 0x7E else f.infBits - 1
/-- Bytes of an element. -/
def Fmt.bytes (f : Fmt) : Nat := (1 + f.eb + f.mb) / 8

/-- A number: a NaN (signalling or quiet), an infinity, or (−1)^neg × m × 2^e. -/
inductive Num where
  | nan (snan : Bool)
  | inf (neg : Bool)
  | fin (neg : Bool) (m : Nat) (e : Int)
  deriving DecidableEq, Repr

/-- The value of a format's bits (R191). -/
def Fmt.num (f : Fmt) (w : Nat) : Num :=
  let neg := w / f.signW % 2 == 1
  let ex := w / 2 ^ f.mb % 2 ^ f.eb
  let ma := w % 2 ^ f.mb
  if ex = 2 ^ f.eb - 1 ∧ (f.e4m3 = false ∨ ma = 2 ^ f.mb - 1) then
    if ma = 0 then .inf neg
    else .nan (!f.e4m3 && decide (ma < 2 ^ (f.mb - 1)))
  else if ex = 0 then .fin neg ma (1 - (f.bias : Int) - f.mb)
  else .fin neg (ma + 2 ^ f.mb) ((ex : Int) - f.bias - f.mb)

/-- Rounding modes (R37): 0 RNE, 1 RTZ, 2 RDN, 3 RUP. -/
abbrev RMode := Nat

/-- Whether a magnitude is rounded up: last bit odd, remainder against half (R168). -/
def roundsUp (mode : RMode) (neg odd : Bool) (rem half : Nat) : Bool :=
  match mode with
  | 0 => decide (half < rem) || (rem == half && rem != 0 && odd)
  | 1 => false
  | 2 => neg && rem != 0
  | _ => !neg && rem != 0

/-- m × 2^e brought to a multiple of 2^q: the quotient and whether it was inexact. -/
def roundAt (mode : RMode) (neg : Bool) (m : Nat) (e q : Int) : Nat × Bool :=
  if q ≤ e then (m * 2 ^ (e - q).toNat, false)
  else
    let d := (q - e).toNat
    let sig := m / 2 ^ d
    let rem := m % 2 ^ d
    (if roundsUp mode neg (sig % 2 == 1) rem (2 ^ (d - 1)) then sig + 1 else sig, rem != 0)

/-- The bits of an overflowed result (R171, R193). -/
def Fmt.overflow (f : Fmt) (mode : RMode) (neg : Bool) : Nat :=
  let inf := if f.sat then f.maxBits else f.infBits
  (if neg then f.signW else 0) +
    match mode with
    | 0 => inf
    | 1 => f.maxBits
    | 2 => if neg then inf else f.maxBits
    | _ => if neg then f.maxBits else inf

/-- (−1)^neg × m × 2^e rounded once into a format, and the flags (R168, R171, R193). With
`sticky`, the value is strictly between m and m + 1 units of 2^e. -/
def Fmt.round (f : Fmt) (mode : RMode) (neg : Bool) (m : Nat) (e : Int) (sticky : Bool) :
    Nat × FpFlags :=
  let s := if neg then f.signW else 0
  let (m, e) := if sticky then (m * 4 + 1, e - 2) else (m, e)
  if m = 0 then (s, 0)
  else
    let top : Int := e + m.log2
    let emin : Int := 1 - (f.bias : Int)
    let q0 : Int := top - f.mb
    let q : Int := max q0 (emin - f.mb)
    let (sig, ix) := roundAt mode neg m e q
    let (sig0, _) := roundAt mode neg m e q0
    let tiny := decide ((q0 + sig0.log2 : Int) < emin)
    let (sig, q) := if sig = 2 ^ (f.mb + 1) then (2 ^ f.mb, q + 1) else (sig, q)
    let bits :=
      if sig < 2 ^ f.mb then sig
      else (q + f.mb + f.bias : Int).toNat * 2 ^ f.mb + (sig - 2 ^ f.mb)
    if f.maxBits < bits then (f.overflow mode neg, roundFlags ix true tiny)
    else (s + bits, roundFlags ix false tiny)

/-- A number put into a format (R193). -/
def Fmt.put (f : Fmt) (mode : RMode) (x : Num) : Nat × FpFlags :=
  match x with
  | .nan sn => (f.nanBits, if sn then flNV else 0)
  | .inf neg => ((if neg then f.signW else 0) + (if f.e4m3 then f.maxBits else f.infBits), 0)
  | .fin neg m e => f.round mode neg m e false

/-- A signed integer as a number. -/
def intNum (i : Int) : Num := .fin (decide (i < 0)) i.natAbs 0

/-- The signed magnitude of a finite number in units of 2^e0, e0 at most its exponent. -/
def scaled (neg : Bool) (m : Nat) (e e0 : Int) : Int :=
  let v : Int := (m * 2 ^ (e - e0).toNat : Nat)
  if neg then -v else v

/-- The exact sum of two numbers, for a rounding mode (the sign of an exact zero, IEEE 754). -/
def Num.add (mode : RMode) (x y : Num) : Num × FpFlags :=
  match x, y with
  | .nan a, .nan b => (.nan false, if a || b then flNV else 0)
  | .nan a, _ => (.nan false, if a then flNV else 0)
  | _, .nan b => (.nan false, if b then flNV else 0)
  | .inf a, .inf b => if a = b then (.inf a, 0) else (.nan false, flNV)
  | .inf a, .fin _ _ _ => (.inf a, 0)
  | .fin _ _ _, .inf b => (.inf b, 0)
  | .fin na ma ea, .fin nb mb eb =>
    if ma = 0 ∧ mb = 0 then
      (.fin (if na = nb then na else mode == 2) 0 0, 0)
    else
      let e0 := min ea eb
      let v := scaled na ma ea e0 + scaled nb mb eb e0
      if v = 0 then (.fin (mode == 2) 0 0, 0) else (.fin (decide (v < 0)) v.natAbs e0, 0)

/-- The negative of a number. -/
def Num.neg : Num → Num
  | .nan s => .nan s
  | .inf n => .inf (!n)
  | .fin n m e => .fin (!n) m e

/-- The exact product of two numbers. -/
def Num.mul (x y : Num) : Num × FpFlags :=
  match x, y with
  | .nan a, .nan b => (.nan false, if a || b then flNV else 0)
  | .nan a, _ => (.nan false, if a then flNV else 0)
  | _, .nan b => (.nan false, if b then flNV else 0)
  | .inf a, .inf b => (.inf (a != b), 0)
  | .inf a, .fin b m _ => if m = 0 then (.nan false, flNV) else (.inf (a != b), 0)
  | .fin a m _, .inf b => if m = 0 then (.nan false, flNV) else (.inf (a != b), 0)
  | .fin a ma ea, .fin b mb eb => (.fin (a != b) (ma * mb) (ea + eb), 0)

/-- Whether a number is a signalling NaN. -/
def Num.isSnan : Num → Bool
  | .nan s => s
  | .inf _ => false
  | .fin _ _ _ => false

/-- Whether a number is a NaN. -/
def Num.isNan : Num → Bool
  | .nan _ => true
  | .inf _ => false
  | .fin _ _ _ => false

/-- Whether a number is a zero. -/
def Num.isZero : Num → Bool
  | .nan _ => false
  | .inf _ => false
  | .fin _ m _ => m == 0

/-- The sign of a number. -/
def Num.sign : Num → Bool
  | .nan _ => false
  | .inf n => n
  | .fin n _ _ => n

/-- x < y for numbers that are no NaN. -/
def Num.lt (x y : Num) : Bool :=
  match x, y with
  | .inf a, .inf b => a && !b
  | .inf a, .fin _ _ _ => a
  | .fin _ _ _, .inf b => !b
  | .fin na ma ea, .fin nb mb eb =>
    let e0 := min ea eb
    decide (scaled na ma ea e0 < scaled nb mb eb e0)
  | .nan _, .nan _ => false
  | .nan _, .inf _ => false
  | .nan _, .fin _ _ _ => false
  | .inf _, .nan _ => false
  | .fin _ _ _, .nan _ => false

/-- x = y for numbers that are no NaN; the zeros are equal. -/
def Num.eq (x y : Num) : Bool := !x.isNan && !y.isNan && !x.lt y && !y.lt x

/-- The magnitude of a number. -/
def Num.abs : Num → Num
  | .nan s => .nan s
  | .inf _ => .inf false
  | .fin _ m e => .fin false m e

/-! ## Operations of the scalar unit (R168 to R170), on bits -/

/-- x + y. -/
def Fmt.add (f : Fmt) (mode : RMode) (x y : Nat) : Nat × FpFlags :=
  let (v, g) := Num.add mode (f.num x) (f.num y)
  let (r, h) := f.put mode v
  (r, g ||| h)

/-- x − y. -/
def Fmt.sub (f : Fmt) (mode : RMode) (x y : Nat) : Nat × FpFlags :=
  let (v, g) := Num.add mode (f.num x) (f.num y).neg
  let (r, h) := f.put mode v
  (r, g ||| h)

/-- x × y. -/
def Fmt.mul (f : Fmt) (mode : RMode) (x y : Nat) : Nat × FpFlags :=
  let (v, g) := Num.mul (f.num x) (f.num y)
  let (r, h) := f.put mode v
  (r, g ||| h)

/-- x × y + z, rounded once; ∞ × 0 raises NV even when z is a quiet NaN (R168). `neg` gives
−(x × y) + z. -/
def Fmt.fma (f : Fmt) (mode : RMode) (neg : Bool) (x y z : Nat) : Nat × FpFlags :=
  let (p, g) := Num.mul (f.num x) (f.num y)
  let (v, g2) := Num.add mode (if neg then p.neg else p) (f.num z)
  let (r, h) := f.put mode v
  (r, g ||| g2 ||| h)

/-- x / y. -/
def Fmt.div (f : Fmt) (mode : RMode) (x y : Nat) : Nat × FpFlags :=
  match f.num x, f.num y with
  | .nan a, .nan b => (f.nanBits, if a || b then flNV else 0)
  | .nan a, .inf _ => (f.nanBits, if a then flNV else 0)
  | .nan a, .fin _ _ _ => (f.nanBits, if a then flNV else 0)
  | .inf _, .nan b => (f.nanBits, if b then flNV else 0)
  | .fin _ _ _, .nan b => (f.nanBits, if b then flNV else 0)
  | .inf _, .inf _ => (f.nanBits, flNV)
  | .inf a, .fin b _ _ => f.put mode (.inf (a != b))
  | .fin a _ _, .inf b => f.put mode (.fin (a != b) 0 0)
  | .fin a ma ea, .fin b mb eb =>
    if mb = 0 then
      if ma = 0 then (f.nanBits, flNV)
      else ((if a != b then f.signW else 0) + f.infBits, flDZ)
    else if ma = 0 then f.put mode (.fin (a != b) 0 0)
    else
      let n := ma * 2 ^ 120
      f.round mode (a != b) (n / mb) (ea - eb - 120) (n % mb != 0)

/-- The integer square root, bit by bit from bit k − 1. -/
def isqrt (n : Nat) : Nat → Nat → Nat
  | 0, acc => acc
  | k + 1, acc =>
    let t := acc + 2 ^ k
    isqrt n k (if t * t ≤ n then t else acc)

/-- The square root (R168). -/
def Fmt.sqrt (f : Fmt) (mode : RMode) (x : Nat) : Nat × FpFlags :=
  match f.num x with
  | .nan a => (f.nanBits, if a then flNV else 0)
  | .inf neg => if neg then (f.nanBits, flNV) else f.put mode (.inf false)
  | .fin neg m e =>
    if m = 0 then f.put mode (.fin neg 0 0)
    else if neg then (f.nanBits, flNV)
    else
      let sh : Nat := if e % 2 = 0 then 120 else 121
      let n := m * 2 ^ sh
      let r := isqrt n 96 0
      f.round mode false r ((e - sh) / 2) (r * r != n)

/-- FMIN and FMAX (R169): −0 below +0; one NaN gives the other operand. The result is bits. -/
def Fmt.minmax (f : Fmt) (isMax : Bool) (x y : Nat) : Nat × FpFlags :=
  let a := f.num x
  let b := f.num y
  let fl := if a.isSnan || b.isSnan then flNV else 0
  let r :=
    if a.isNan && b.isNan then f.nanBits
    else if a.isNan then y
    else if b.isNan then x
    else
      let lt := a.lt b || (a.isZero && b.isZero && a.sign && !b.sign)
      if lt = isMax then y else x
  (r, fl)

/-- FEQ: NV only for a signalling NaN (R169). -/
def Fmt.feq (f : Fmt) (x y : Nat) : Bool × FpFlags :=
  let a := f.num x
  let b := f.num y
  (a.eq b, if a.isSnan || b.isSnan then flNV else 0)

/-- FLT: NV for any NaN (R169). -/
def Fmt.flt (f : Fmt) (x y : Nat) : Bool × FpFlags :=
  let a := f.num x
  let b := f.num y
  (a.lt b, if a.isNan || b.isNan then flNV else 0)

/-- FLE: NV for any NaN (R169). -/
def Fmt.fle (f : Fmt) (x y : Nat) : Bool × FpFlags :=
  let a := f.num x
  let b := f.num y
  (a.lt b || a.eq b, if a.isNan || b.isNan then flNV else 0)

/-- FCLASS (R168): the number of the bit that is set. -/
def Fmt.fclass (f : Fmt) (x : Nat) : Nat :=
  match f.num x with
  | .nan s => if s then 8 else 9
  | .inf neg => if neg then 0 else 7
  | .fin neg m _ =>
    if m = 0 then (if neg then 3 else 4)
    else if m < 2 ^ f.mb then (if neg then 2 else 5)
    else if neg then 1 else 6

/-- A number rounded to an integer by a mode: the integer and whether it was inexact. -/
def Num.toInt (mode : RMode) (neg : Bool) (m : Nat) (e : Int) : Int × Bool :=
  let (n, ix) := roundAt mode neg m e 0
  (if neg then -(n : Int) else n, ix)

/-- A conversion to an integer in [lo, hi] (R170, R194): saturation with NV, NX when inexact. -/
def Num.conv (mode : RMode) (lo hi : Int) (x : Num) : Int × FpFlags :=
  match x with
  | .nan _ => (hi, flNV)
  | .inf neg => (if neg then lo else hi, flNV)
  | .fin neg m e =>
    let (i, ix) := Num.toInt mode neg m e
    if hi < i then (hi, flNV) else if i < lo then (lo, flNV) else (i, if ix then flNX else 0)

/-! ## Element formats of views (R78, R191, R194, R195) -/

/-- The floating format of an FMT code 0 to 5 (R191). -/
def fmtOf : Nat → Option Fmt
  | 0 => some f64
  | 1 => some f32
  | 2 => some bf16
  | 3 => some f16
  | 4 => some e4m3
  | 5 => some e5m2
  | _ => none

/-- A two's-complement value of `n` bits as an integer. -/
def toSigned (n w : Nat) : Int := if w / 2 ^ (n - 1) % 2 = 1 then ((w % 2 ^ n : Nat) : Int) - ((2 ^ n : Nat) : Int) else ((w % 2 ^ n : Nat) : Int)

/-- An integer as `n` bits. -/
def ofSigned (n : Nat) (i : Int) : Nat := (i % (2 ^ n : Nat)).toNat

/-- The value of an element's bits by FMT code 0 to 6 and 8 (R191, R194). -/
def elemNum (fmt w : Nat) : Num :=
  match fmtOf fmt with
  | some f => f.num w
  | none => if fmt = 6 then intNum (toSigned 8 w) else intNum (toSigned 32 w)

/-- A number put into an element of FMT code 0 to 6 and 8 (R193, R194), RNE where no mode. -/
def elemPut (fmt : Nat) (mode : RMode) (x : Num) : Nat :=
  match fmtOf fmt with
  | some f => (f.put mode x).1
  | none =>
    if fmt = 6 then ofSigned 8 (Num.conv mode (-128) 127 x).1
    else ofSigned 32 (Num.conv mode (-2147483648) 2147483647 x).1

/-- The magnitude of a code in the tables of R196, doubled (E2M1 has halves). -/
def codeMag2 (ty k : Nat) : Nat :=
  match ty with
  | 1 => [0, 1, 2, 3, 4, 6, 8, 12].getD k 0
  | 2 => [0, 2, 4, 8, 16, 32, 64, 128].getD k 0
  | _ => [0, 2, 4, 6, 8, 12, 16, 24].getD k 0

/-- The value of a code times the scale 2^(E − 32) (R195, R196). -/
def codeNum (ty code ex : Nat) : Num :=
  if ty = 0 then
    let v := toSigned 4 code
    .fin (decide (v < 0)) v.natAbs ((ex : Int) - 32)
  else .fin (decide (8 ≤ code)) (codeMag2 ty (code % 8)) ((ex : Int) - 33)

/-- maxmag(T), doubled, and floor(log2 maxmag(T)) (R196, R198). -/
def maxMag2 : Nat → Nat × Nat
  | 0 => (14, 2)
  | 1 => (12, 2)
  | 2 => (128, 6)
  | _ => (24, 3)

/-- |a| < |b|, |a| = |b| for finite magnitudes m × 2^e. -/
def magCmp (m1 : Nat) (e1 : Int) (m2 : Nat) (e2 : Int) : Ordering :=
  let e0 := min e1 e2
  compare (m1 * 2 ^ (e1 - e0).toNat) (m2 * 2 ^ (e2 - e0).toNat)

/-- The magnitude codes a type emits (R198): 0 to 7. -/
def candidates : List Nat := [0, 1, 2, 3, 4, 5, 6, 7]

/-- The magnitude of candidate k of a type, doubled. -/
def candMag2 (ty k : Nat) : Nat := if ty = 0 then 2 * k else codeMag2 ty k

/-- nearest(T, v) for the magnitude m × 2^e, by comparing with the midpoints between
neighbouring candidates; at a midpoint the code whose bit 0 is 0 wins (R198). -/
def nearestMag (ty : Nat) (m : Nat) (e : Int) : Nat :=
  (List.range 7).foldl (fun acc k =>
    match magCmp m e (candMag2 ty k + candMag2 ty (k + 1)) (-2) with
    | .lt => acc
    | .gt => k + 1
    | .eq => if (k + 1) % 2 = 0 then k + 1 else acc) 0

/-- The code of a signed candidate; zero is always 0000, and UNI is two's complement (R196). -/
def signedCode (ty : Nat) (neg : Bool) (k : Nat) : Nat :=
  if k = 0 then 0 else if !neg then k else if ty = 0 then 16 - k else 8 + k

/-- floor(log2) of a nonzero magnitude. -/
def floorLog2 (m : Nat) (e : Int) : Int := e + m.log2

/-- The larger magnitude of the numbers that are no NaN, as R198's amax: none for +∞. -/
def amaxOf (xs : List Num) : Option (Nat × Int) :=
  xs.foldl (fun acc x =>
    match acc, x with
    | none, _ => none
    | some _, .inf _ => none
    | some a, .nan _ => some a
    | some (m, e), .fin _ m' e' => if magCmp m e m' e' = .lt then some (m', e') else some (m, e))
    (some (0, 0))

/-- Whether |x / 2^(E − 32)| is above maxmag(T). -/
def overMag (ty : Nat) (ex : Int) (x : Num) : Bool :=
  match x with
  | .nan _ => false
  | .inf _ => true
  | .fin _ m e => magCmp m (e - (ex - 32)) (maxMag2 ty).1 (-1) == .gt

/-- The code of one element at scale exponent E (R198), the saturated one included. -/
def codeOf (ty : Nat) (ex : Int) (x : Num) : Nat :=
  match x with
  | .nan _ => 0
  | .inf neg => signedCode ty neg 7
  | .fin neg m e =>
    if overMag ty ex x then signedCode ty neg 7
    else signedCode ty neg (nearestMag ty m (e - (ex - 32)))

/-- Raises of E while some element is over, at most `left` (R198): the exponent and the raises. -/
def raiseE (ty : Nat) (xs : List Num) : Nat → Int → Nat → Int × Nat
  | 0, ex, n => (ex, n)
  | k + 1, ex, n =>
    if xs.any (overMag ty ex) && decide (ex < 63) then raiseE ty xs k (ex + 1) (n + 1) else (ex, n)

/-- A block encoded by R198 with type `ty` and `retry` raises allowed: codes, scale byte,
saturations, raises. -/
def encodeBlock (ty retry : Nat) (xs : List Num) : List Nat × Nat × Nat × Nat :=
  let nans := (xs.filter Num.isNan).length
  match amaxOf xs with
  | some (0, _) => (xs.map (fun _ => 0), 0, nans, 0)
  | am =>
    let e0 : Int := match am with
      | none => 63
      | some (m, e) => min (max (floorLog2 m e - (maxMag2 ty).2 + 32) 0) 63
    let (ex, raises) := raiseE ty xs retry e0 0
    (xs.map (codeOf ty ex), ty * 64 + ex.toNat, nans + (xs.filter (overMag ty ex)).length, raises)

/-- err(T) of R199, in f32, summed in index order with each step rounded. -/
def blockErr (xs : List Num) (codes : List Nat) (scale : Nat) : Nat :=
  (xs.zip codes).foldl (fun acc p =>
    if p.1.isNan then acc else
    let d := (Num.add 0 p.1 (codeNum (scale / 64) p.2 (scale % 64)).neg).1
    let r := (f32.put 0 d.abs).1
    (f32.add 0 acc r).1) 0

/-- AUTO (R199): the type of least error, the lowest among equals. -/
def encodeAuto (retry : Nat) (xs : List Num) : List Nat × Nat × Nat × Nat :=
  let enc := (List.range 4).map (fun t => encodeBlock t retry xs)
  let errs := enc.map (fun b => blockErr xs b.1 b.2.1)
  let best := (List.range 4).foldl (fun b t =>
    if (f32.num (errs.getD t 0)).lt (f32.num (errs.getD b 0)) then t else b) 0
  enc.getD best ([], 0, 0, 0)

/-- The 17 bytes of a block (R195). -/
def blockBytes (codes : List Nat) (scale : Nat) : List Byte :=
  (List.range 16).map (fun i => BitVec.ofNat 8 (codes.getD (2 * i) 0 + 16 * codes.getD (2 * i + 1) 0))
    ++ [BitVec.ofNat 8 scale]

/-- Element k of a 17-byte block (R195). -/
def blockElem (bs : List Byte) (k : Nat) : Num :=
  let b := (bs.getD (k / 2) 0#8).toNat
  let sc := (bs.getD 16 0#8).toNat
  codeNum (sc / 64) (if k % 2 = 0 then b % 16 else b / 16) (sc % 64)

/-- One bit step of CRC-32C (R201). -/
def crcBit (c : BitVec 32) : BitVec 32 :=
  if c.getLsbD 0 then (c >>> 1) ^^^ 0x82F63B78#32 else c >>> 1

/-- CRC-32C of bytes from a running value (R201). -/
def crcStep (c : BitVec 32) (b : Byte) : BitVec 32 :=
  let c := c ^^^ b.zeroExtend 32
  crcBit (crcBit (crcBit (crcBit (crcBit (crcBit (crcBit (crcBit c)))))))

/-- CRC-32C (R201). -/
def crc32c (bs : List Byte) : BitVec 32 := (bs.foldl crcStep 0xFFFFFFFF#32) ^^^ 0xFFFFFFFF#32

/-! ## Sums of the matrix unit (R202, R203) -/

/-- trunc(v / q) for q = 2^qe, with the sign. -/
def truncAt (x : Num) (qe : Int) : Int :=
  match x with
  | .nan _ => 0
  | .inf _ => 0
  | .fin neg m e =>
    let n := (roundAt 1 neg m e qe).1
    if neg then -(n : Int) else n

/-- One group of the sum of R202: the accumulator (f32 bits) and up to eight exact products. -/
def sumGroup (acc : Nat) (ps : List Num) : Nat :=
  let terms := f32.num acc :: ps
  let posInf := terms.any (fun x => x == .inf false)
  let negInf := terms.any (fun x => x == .inf true)
  if terms.any Num.isNan || (posInf && negInf) then f32.nanBits
  else if posInf then f32.infBits
  else if negInf then f32.signW + f32.infBits
  else
    let logs := terms.filterMap (fun x => match x with
      | .fin _ m e => if m = 0 then none else some (floorLog2 m e)
      | _ => none)
    match logs with
    | [] => 0
    | l :: r =>
      let qe := r.foldl max l - 47
      let s := terms.foldl (fun a x => a + truncAt x qe) 0
      if s = 0 then 0 else (f32.round 0 (decide (s < 0)) s.natAbs qe false).1

/-- The sum of R202 over all groups of eight, in order. -/
def sumGroups : Nat → Nat → List Num → Nat
  | 0, acc, _ => acc
  | n + 1, acc, ps =>
    match ps with
    | [] => acc
    | _ => sumGroups n (sumGroup acc (ps.take 8)) (ps.drop 8)

/-- The f64 sum of R203: one fused multiply-add per step, in increasing k. -/
def sumF64 (acc : Nat) (ps : List (Nat × Nat)) : Nat :=
  ps.foldl (fun a p => (f64.fma 0 false p.1 p.2 a).1) acc

/-! ## Vector arithmetic (R204 to R206) -/

/-- The larger or smaller by R204, on the bits of one format. -/
def Fmt.vmax (f : Fmt) (isMax : Bool) (x y : Nat) : Nat :=
  let r := (f.minmax isMax x y).1
  if (f.num r).isNan then f.nanBits else r

/-- One round of the pairing tree of R206. -/
def pairLevel (op : Nat → Nat → Nat) : List Nat → List Nat
  | x :: y :: r => op x y :: pairLevel op r
  | [x] => [x]
  | [] => []

/-- The tree of R206 over one strip. -/
def pairTree (op : Nat → Nat → Nat) : Nat → List Nat → Option Nat
  | 0, l => l.head?
  | _ + 1, [] => none
  | _ + 1, [x] => some x
  | n + 1, l => pairTree op n (pairLevel op l)

/-- A reduction strip by strip (R206). -/
def reduceRow (op : Nat → Nat → Nat) : Nat → List Nat → Option Nat → Option Nat
  | 0, _, acc => acc
  | n + 1, l, acc =>
    match l with
    | [] => acc
    | _ =>
      let p := pairTree op 7 (l.take 64)
      let acc := match acc, p with
        | none, p => p
        | some a, none => some a
        | some a, some b => some (op a b)
      reduceRow op n (l.drop 64) acc

/-- A scan: element i is the op of elements 0 to i in index order (R206). -/
def scanRow (op : Nat → Nat → Nat) : Option Nat → List Nat → List Nat
  | _, [] => []
  | none, x :: r => x :: scanRow op (some x) r
  | some a, x :: r => op a x :: scanRow op (some (op a x)) r

end Sys2Proof.Machine
end

