-- ==== Sys2Proof/WellFormed.lean ====
section
/-! DEFINITION. Which instructions are well formed: the code values and CSR numbers that
spec/02 calls illegal are refused here; the other rules of R30 to R40 hold by the types. -/

namespace Sys2Proof

/-- A scope code of R31: 0 to 5. -/
def scopeOk (scope : BitVec 3) : Bool := decide (scope.toNat ≤ 5)

/-- The CSR numbers of R44 that may be written. -/
def csrWritable (c : BitVec 12) : Bool :=
  let n := c.toNat
  decide (n ≤ 0x005) || (decide (0x200 ≤ n) && decide (n ≤ 0x208)) || n == 0x303 ||
    (decide (0x400 ≤ n) && decide (n ≤ 0x402))

/-- The CSR numbers of R44 that may only be read. -/
def csrReadOnly (c : BitVec 12) : Bool :=
  let n := c.toNat
  n == 0x006 || (decide (0x100 ≤ n) && decide (n ≤ 0x102)) ||
    (decide (0x104 ≤ n) && decide (n ≤ 0x108)) || (decide (0x300 ≤ n) && decide (n ≤ 0x302)) ||
    n == 0x403

/-- The CSR numbers listed in R44. -/
def csrListed (c : BitVec 12) : Bool := csrWritable c || csrReadOnly c

/-- The field values that make a word an instruction (R30 to R40, R45): every form of
`Instr` meets the rest of those rules by its type. -/
def Instr.wf : Instr → Bool
  | .add _ _ _ _ => true
  | .sub _ _ _ _ => true
  | .and _ _ _ => true
  | .or _ _ _ => true
  | .xor _ _ _ => true
  | .andn _ _ _ => true
  | .sll _ _ _ _ => true
  | .srl _ _ _ _ => true
  | .sra _ _ _ _ => true
  | .rol _ _ _ _ => true
  | .slt _ _ _ => true
  | .sltu _ _ _ => true
  | .min _ _ _ => true
  | .max _ _ _ => true
  | .minu _ _ _ => true
  | .maxu _ _ _ => true
  | .mul _ _ _ _ => true
  | .mulh _ _ _ => true
  | .mulhu _ _ _ => true
  | .div _ _ _ _ => true
  | .divu _ _ _ _ => true
  | .rem _ _ _ _ => true
  | .remu _ _ _ _ => true
  | .shadd _ _ _ _ => true
  | .sel _ _ _ => true
  | .clz _ _ _ => true
  | .ctz _ _ _ => true
  | .popc _ _ _ => true
  | .brev _ _ _ => true
  | .bswap _ _ _ => true
  | .sext _ _ _ => true
  | .zext _ _ _ => true
  | .ext _ _ _ => true
  | .ins _ _ _ => true
  | .addi _ _ _ => true
  | .andi _ _ _ => true
  | .ori _ _ _ => true
  | .xori _ _ _ => true
  | .slti _ _ _ => true
  | .sltiu _ _ _ => true
  | .slli _ _ _ => true
  | .srli _ _ _ => true
  | .srai _ _ _ => true
  | .roli _ _ _ => true
  | .fadd _ _ _ _ _ => true
  | .fsub _ _ _ _ _ => true
  | .fmul _ _ _ _ _ => true
  | .fdiv _ _ _ _ _ => true
  | .fsqrt _ _ _ _ => true
  | .fmin _ _ _ _ => true
  | .fmax _ _ _ _ => true
  | .fma _ _ _ _ _ => true
  | .fnma _ _ _ _ _ => true
  | .feq _ _ _ _ => true
  | .flt _ _ _ _ => true
  | .fle _ _ _ _ => true
  | .fclass _ _ _ => true
  | .fcvt _ k _ _ => decide (k.toNat ≤ 17)
  | .fsgnJ _ _ _ _ => true
  | .fsgnJn _ _ _ _ => true
  | .fsgnJx _ _ _ _ => true
  | .ld _ z _ _ _ _ => z != 7#3
  | .ldFe _ z _ _ _ _ => z != 7#3
  | .ldFec _ z _ _ _ _ => z != 7#3
  | .st _ _ _ _ _ _ => true
  | .stFes _ _ _ _ _ _ => true
  | .stFee _ _ _ _ _ _ => true
  | .ldi _ z _ _ _ => z != 7#3
  | .sti _ _ _ _ _ => true
  | .pref _ _ => true
  | .amoAdd scope _ _ _ _ _ => scopeOk scope
  | .amoAnd scope _ _ _ _ _ => scopeOk scope
  | .amoOr scope _ _ _ _ _ => scopeOk scope
  | .amoXor scope _ _ _ _ _ => scopeOk scope
  | .amoMin scope _ _ _ _ _ => scopeOk scope
  | .amoMax scope _ _ _ _ _ => scopeOk scope
  | .amoMinu scope _ _ _ _ _ => scopeOk scope
  | .amoMaxu scope _ _ _ _ _ => scopeOk scope
  | .amoSwap scope _ _ _ _ _ => scopeOk scope
  | .cas scope _ _ _ _ _ => scopeOk scope
  | .fence scope => scopeOk scope
  | .beq _ _ _ => true
  | .bne _ _ _ => true
  | .blt _ _ _ => true
  | .bge _ _ _ => true
  | .bltu _ _ _ => true
  | .bgeu _ _ _ => true
  | .jal _ _ => true
  | .jalr _ _ _ => true
  | .loop imm _ => decide (1 ≤ imm.toNat) && decide (imm.toNat ≤ 16383)
  | .rep _ _ _ n => decide (1 ≤ n.toNat) && decide (n.toNat ≤ 16)
  | .callh _ _ => true
  | .reth _ => true
  | .csrr c _ => csrListed c
  | .csrw c _ _ => csrWritable c
  | .csrs c _ _ => csrWritable c
  | .csrc c _ _ => csrWritable c
  | .trap _ => true
  | .eret => true
  | .brk _ => true
  | .hld _ _ _ => true
  | .hst _ _ _ => true
  | .hget _ _ _ => true
  | .hset _ _ _ _ => true
  | .hmov _ _ => true
  | .hadv w _ _ _ => w != 3#2
  | .hchk _ _ _ => true
  | .start _ _ _ => true
  | .hexit _ => true
  | .hjoin _ _ _ => true
  | .hstat _ _ => true
  | .bara _ _ => true
  | .barw _ _ => true
  | .bar _ _ _ => true
  | .exch _ => true
  | .step _ => true
  | .msend _ _ => true
  | .mrecv _ _ => true
  | .messageArrival _ _ => true
  | .msendRetry _ _ => true
  | .enq _ _ _ => true
  | .rdone _ => true
  | .grab _ _ => true
  | .preempt _ _ _ => true
  | .sleepto _ => true
  | .waitt _ _ => true
  | .tstat _ _ => true
  | .cancel _ _ => true
  | .detach _ _ _ => true
  | .adopt _ _ => true
  | .tpri _ _ _ => true
  | .tfrec _ _ _ => true
  | .waits _ _ => true
  | .rginit _ _ => true
  | .rgwait _ _ => true
  | .rgrel _ => true
  | .rgstat _ _ => true
  | .reserveSlot _ => true
  | .fillSlot _ => true
  | .claimHead _ => true
  | .hacq _ _ => true
  | .hrel _ _ => true
  | .hinfo _ _ => true
  | .qsub _ _ _ => true
  | .qstat _ _ => true
  | .bind _ _ h => h.extractLsb' 0 1 == 0#1
  | .unbind _ _ => true
  | .copy _ _ _ _ _ _ => true
  | .copym _ _ _ _ => true
  | .pack _ _ _ _ => true
  | .unpack _ _ _ _ => true
  | .scadd _ _ _ _ => true
  | .bflush _ _ => true
  | .mma _ _ _ _ _ => true
  | .mmag _ _ _ _ _ _ _ _ => true
  | .vadd _ _ _ _ _ => true
  | .vsub _ _ _ _ _ => true
  | .vmul _ _ _ _ _ => true
  | .vfma _ _ _ _ _ => true
  | .vmax _ _ _ _ _ => true
  | .vmin _ _ _ _ _ => true
  | .vabs _ _ _ _ => true
  | .vneg _ _ _ _ => true
  | .vexp _ _ _ _ => true
  | .vlog _ _ _ _ => true
  | .vrcp _ _ _ _ => true
  | .vrsq _ _ _ _ => true
  | .vtanh _ _ _ _ => true
  | .vcmp _ _ _ _ _ _ => true
  | .vsel _ _ _ _ _ => true
  | .vcvt _ _ _ _ => true
  | .vscl _ _ _ _ _ => true
  | .vreds _ _ _ _ => true
  | .vredm _ _ _ _ => true
  | .vscan _ _ _ _ => true
  | .stripDispatch _ => true
  | .qntQ4uni _ _ _ => true
  | .qntQ4e2m1 _ _ _ => true
  | .qntQ4pow _ _ _ => true
  | .qntQ4hyb _ _ _ => true
  | .qntQ4auto _ _ _ => true
  | .dqnt _ _ _ => true
  | .qchk _ _ => true
  | .winit _ _ _ => true
  | .wprobe _ _ _ _ => true
  | .wcommit _ _ _ _ _ _ => true
  | .wpick _ _ _ _ => true
  | .wrd _ _ _ _ => true
  | .allred red _ _ _ _ _ => decide (red.toNat ≤ 2)
  | .redscat red _ _ _ _ _ => decide (red.toNat ≤ 2)
  | .allgath _ _ _ _ _ => true
  | .bcast _ _ _ _ _ _ => true
  | .alltoall _ _ _ _ _ => true
  | .collectiveTimeout _ => true
  | .abort _ => true
  | .spec _ _ _ _ => true
  | .engineStart _ => true
  | .engineStep _ _ => true
  | .operationCompletion _ => true
  | .drain _ _ => true
  | .perform _ _ => true
  | .refresh _ _ => true
  | .pageWalk _ _ _ => true
  | .kick _ => true
  | .kickstatRead => true
  | .lookupAnswer _ => true
  | .qcbChange _ => true
  | .nop => true
  | .launch => true
  | .gangRelease _ => true
  | .controlContextStart _ => true
  | .launchComplete _ => true
  | .records => true
  | .expandRecord _ => true
  | .recordsComplete _ => true
  | .fencePacket => true
  | .signal => true
  | .serviceDrain => true
  | .serviceDrainComplete => true
  | .invalidatePage _ => true
  | .invalidatePasid _ => true
  | .invalidateAll _ => true
  | .invalidationComplete => true
  | .registerWrite _ _ _ => true
  | .bar2Read _ _ _ => true
  | .bar2Write _ _ _ => true
  | .pcieCompletion _ _ => true
  | .completionTimeout _ => true
  | .attest _ => true
  | .challenge _ => true
  | .latchkey _ => true
  | .leaseStart _ => true
  | .stage _ => true
  | .handover _ => true
  | .record _ => true
  | .reclaim _ => true
  | .reclaimRegisterWrite _ => true
  | .mbxUnknown _ _ => true
  | .firmwareCommand _ _ _ => true
  | .yield => true
  | .handoverTimeout => true
  | .dbgStop _ => true
  | .dbgGo _ => true
  | .functionLevelReset => true
  | .powerOn => true
  | .timeset _ => true
  | .timeTrim _ => true
  | .poolOwnerSet _ _ => true
  | .preemptRequest _ _ _ _ _ _ => true
  | .pointTaken _ => true
  | .pointDeclined _ => true
  | .restoreRequest _ _ => true
  | .jobFatalDiscard _ => true
  | .leaderFailover _ => true
  | .data _ => true
  | .ack _ => true
  | .nak _ => true
  | .probe _ => true
  | .replayTimeout _ _ => true
  | .feTimeout _ _ => true
  | .uncorrectableError _ => true
  | .flitReplay _ => true
  | .linkFence _ _ => true
  | .powerCap _ _ => true
  | .thermalThrottle _ => true
  | .thermalShutdown => true
  | .badpkt => true
  | .sleeptoWake _ _ => true
  | .releaseTimeReached _ => true
  | .saveComplete _ => true
  | .reclaimComplete => true
  | .mbxCommandComplete => true
  | .powerLoss => true
  | .correctedError _ => true
  | .ptpEventFrame _ _ => true

/-- A well-formed instruction. -/
abbrev WellFormed (i : Instr) : Prop := i.wf = true

end Sys2Proof
end

