-- ==== Sys2Proof/Decode.lean ====
section
/-! DEFINITION. Decoding and encoding of instruction words (spec/02 R21 to R41). -/

namespace Sys2Proof

/-- Bits [lo + n − 1 : lo] of a bit vector. -/
def fld {m : Nat} (w : BitVec m) (lo n : Nat) : BitVec n := w.extractLsb' lo n

/-- One bit of a word. -/
def fW (w : Word) (i : Nat) : Bool := fld w i 1 == 1#1

/-- Field d, also t. -/
def fD (w : Word) : BitVec 5 := fld w 7 5
/-- Field a. -/
def fA (w : Word) : BitVec 5 := fld w 12 5
/-- Field b. -/
def fB (w : Word) : BitVec 5 := fld w 17 5
/-- Field K of form R. -/
def fK (w : Word) : BitVec 1 := fld w 22 1
/-- Field imm15 of form I. -/
def fImm (w : Word) : BitVec 15 := fld w 17 15
/-- Field s of form H. -/
def fS (w : Word) : BitVec 5 := fld w 15 5
/-- Field ha of form H. -/
def fHa (w : Word) : BitVec 4 := fld w 11 4
/-- Field hd of form H. -/
def fHd (w : Word) : BitVec 4 := fld w 7 4

/-- A truth value as one bit. -/
def w1 (b : Bool) : BitVec 1 := BitVec.ofBool b

/-- Form R (R25). -/
def packR (fn : BitVec 9) (k : BitVec 1) (b a d : BitVec 5) (op : BitVec 7) : Word :=
  fn ++ k ++ b ++ a ++ d ++ op
/-- Form I (R25). -/
def packI (imm : BitVec 15) (a d : BitVec 5) (op : BitVec 7) : Word := imm ++ a ++ d ++ op
/-- Form B (R25). -/
def packB (off : BitVec 11) (cond : BitVec 4) (b a : BitVec 5) (op : BitVec 7) : Word :=
  off ++ cond ++ b ++ a ++ op
/-- Form J (R25). -/
def packJ (off : BitVec 20) (d : BitVec 5) (op : BitVec 7) : Word := off ++ d ++ op
/-- Form M (R25). -/
def packM (fe : BitVec 3) (ord : BitVec 2) (sz : BitVec 3) (sh : BitVec 2) (b a t : BitVec 5)
    (op : BitVec 7) : Word := fe ++ ord ++ sz ++ sh ++ b ++ a ++ t ++ op
/-- Form MI (R25). -/
def packMI (off : BitVec 10) (sz : BitVec 3) (ord : BitVec 2) (a t : BitVec 5) (op : BitVec 7) :
    Word := off ++ sz ++ ord ++ a ++ t ++ op
/-- Form C (R25). -/
def packC (fn3 : BitVec 3) (csr : BitVec 12) (a d : BitVec 5) (op : BitVec 7) : Word :=
  fn3 ++ csr ++ a ++ d ++ op
/-- Form H (R25). -/
def packH (imm : BitVec 8) (fn : BitVec 4) (s : BitVec 5) (ha hd : BitVec 4) (op : BitVec 7) :
    Word := imm ++ fn ++ s ++ ha ++ hd ++ op
/-- The layout of AMO and CAS (R38). -/
def packA (scope : BitVec 3) (ord : BitVec 2) (w : BitVec 1) (sel : BitVec 4) (b a d : BitVec 5)
    (op : BitVec 7) : Word := scope ++ ord ++ w ++ sel ++ b ++ a ++ d ++ op
/-- The layout of REP (R39). -/
def packP (z : BitVec 7) (ss hs : BitVec 4) (c n : BitVec 5) (op : BitVec 7) : Word :=
  z ++ ss ++ hs ++ c ++ n ++ op
/-- Word 0 of form E (R28). -/
def packE0 (wait : BitVec 8) (sT : BitVec 5) (hC hB hA : BitVec 4) (op : BitVec 7) : Word :=
  wait ++ sT ++ hC ++ hB ++ hA ++ op
/-- Word 1 of form E (R28); `tail` is TRAPF, REL, DET, PRI, SETS and SLOT. -/
def packE1 (z : BitVec 1) (sZ sY sX : BitVec 5) (fn7 : BitVec 7) (trapf rel det : BitVec 1)
    (pri : BitVec 2) (sets : BitVec 1) (slot : BitVec 3) : Word :=
  z ++ sZ ++ sY ++ sX ++ fn7 ++ trapf ++ rel ++ det ++ pri ++ sets ++ slot

/-- Form R with operand b: a register, or the literal words that follow (R27). -/
def encR (fn : BitVec 9) (b : Operand) (a d : BitVec 5) (op : BitVec 7) : List Word :=
  match b with
  | .reg r => [packR fn 0#1 r a d op]
  | .lit32 v => [packR fn 1#1 0#5 a d op, v]
  | .lit64 v => [packR fn 1#1 1#5 a d op, fld v 0 32, fld v 32 32]

/-- SETS and SLOT of a slot choice (R29). -/
def setsOf (s : Option (BitVec 3)) : BitVec 1 := w1 s.isSome
/-- SLOT, 0 when the operation joins no slot (R29). -/
def slotOf (s : Option (BitVec 3)) : BitVec 3 := s.getD 0#3

/-- Form E of a child operation (R28). -/
def encE (op : BitVec 7) (fn7 : BitVec 7) (hC hB hA : BitVec 4) (sX sY sZ : BitVec 5) (o : EOrd) :
    List Word :=
  [packE0 o.wait o.sT hC hB hA op,
   packE1 0#1 sZ sY sX fn7 (w1 o.trapf) (w1 o.rel) (w1 o.det) o.pri (setsOf o.slot) (slotOf o.slot)]

/-- Form E of a vector instruction: sT = 0 and DET = 0 (R30). -/
def encV (op : BitVec 7) (fn7 : BitVec 7) (hC hB hA : BitVec 4) (sX sY sZ : BitVec 5) (o : VOrd) :
    List Word :=
  [packE0 o.wait 0#5 hC hB hA op,
   packE1 0#1 sZ sY sX fn7 (w1 o.trapf) (w1 o.rel) 0#1 o.pri (setsOf o.slot) (slotOf o.slot)]

/-- An instruction, if a condition on its fields holds. -/
def guardI (c : Bool) (i : Instr) : Option Instr := if c then some i else none

/-- SETS and SLOT read as a slot choice; SETS = 0 with a nonzero SLOT is illegal (R30). -/
def slotRead (w : Word) : Option (Option (BitVec 3)) :=
  if fW w 3 then some (some (fld w 0 3)) else if fld w 0 3 == 0#3 then some none else none

/-- The order fields of form E (R29, R30). -/
def eordOf (w0 w1 : Word) : Option EOrd :=
  match slotRead w1 with
  | none => none
  | some sl => some
      { wait := fld w0 24 8, sT := fld w0 19 5, trapf := fW w1 8, rel := fW w1 7, det := fW w1 6,
        pri := fld w1 4 2, slot := sl }

/-- The order fields of a vector instruction: sT must be 0 and DET 0 (R30). -/
def vordOf (w0 w1 : Word) : Option VOrd :=
  if fld w0 19 5 != 0#5 || fW w1 6 then none else
  match slotRead w1 with
  | none => none
  | some sl => some
      { wait := fld w0 24 8, trapf := fW w1 8, rel := fW w1 7, pri := fld w1 4 2, slot := sl }

/-- Operand b of form R in the OPs that allow a literal (R27). -/
def operandOf (w0 w1 w2 : Word) : Option Operand :=
  if fK w0 == 0#1 then some (.reg (fB w0))
  else if fB w0 == 0#5 then some (.lit32 w1)
  else if fB w0 == 1#5 then some (.lit64 (w2 ++ w1 : BitVec 64))
  else none

/-- OP 0x01 (R36). -/
def decodeInt (w0 : Word) (b : Operand) : Option Instr :=
  let w := fW w0 31
  let k : BitVec 2 := fld w0 28 2
  let d := fD w0
  let a := fA w0
  if fW w0 30 then none else
  match (fld w0 23 5 : BitVec 5) with
  | 0#5 => guardI (k == 0#2) (.add w d a b)
  | 1#5 => guardI (k == 0#2) (.sub w d a b)
  | 2#5 => guardI (!w && k == 0#2) (.and d a b)
  | 3#5 => guardI (!w && k == 0#2) (.or d a b)
  | 4#5 => guardI (!w && k == 0#2) (.xor d a b)
  | 5#5 => guardI (!w && k == 0#2) (.andn d a b)
  | 6#5 => guardI (k == 0#2) (.sll w d a b)
  | 7#5 => guardI (k == 0#2) (.srl w d a b)
  | 8#5 => guardI (k == 0#2) (.sra w d a b)
  | 9#5 => guardI (k == 0#2) (.rol w d a b)
  | 10#5 => guardI (!w && k == 0#2) (.slt d a b)
  | 11#5 => guardI (!w && k == 0#2) (.sltu d a b)
  | 12#5 => guardI (!w && k == 0#2) (.min d a b)
  | 13#5 => guardI (!w && k == 0#2) (.max d a b)
  | 14#5 => guardI (!w && k == 0#2) (.minu d a b)
  | 15#5 => guardI (!w && k == 0#2) (.maxu d a b)
  | 16#5 => guardI (k == 0#2) (.mul w d a b)
  | 17#5 => guardI (!w && k == 0#2) (.mulh d a b)
  | 18#5 => guardI (!w && k == 0#2) (.mulhu d a b)
  | 19#5 => guardI (k == 0#2) (.div w d a b)
  | 20#5 => guardI (k == 0#2) (.divu w d a b)
  | 21#5 => guardI (k == 0#2) (.rem w d a b)
  | 22#5 => guardI (k == 0#2) (.remu w d a b)
  | 23#5 => guardI (!w) (.shadd k d a b)
  | 24#5 => guardI (!w && k == 0#2) (.sel d a b)
  | _ => none

/-- OP 0x02 (R36, R163). -/
def decodeBit (w0 : Word) (b : Operand) : Option Instr :=
  let w := fW w0 31
  let d := fD w0
  let a := fA w0
  if fld w0 27 4 != 0#4 then none else
  match (fld w0 23 4 : BitVec 4) with
  | 0#4 => guardI (fK w0 == 0#1 && fB w0 == 0#5) (.clz w d a)
  | 1#4 => guardI (fK w0 == 0#1 && fB w0 == 0#5) (.ctz w d a)
  | 2#4 => guardI (fK w0 == 0#1 && fB w0 == 0#5) (.popc w d a)
  | 3#4 => guardI (fK w0 == 0#1 && fB w0 == 0#5) (.brev w d a)
  | 4#4 => guardI (fK w0 == 0#1 && fB w0 == 0#5) (.bswap w d a)
  | 5#4 => guardI (!w) (.sext d a b)
  | 6#4 => guardI (!w) (.zext d a b)
  | 7#4 => guardI (!w) (.ext d a b)
  | 8#4 => guardI (!w) (.ins d a b)
  | _ => none

/-- OP 0x0A (R37, R167). -/
def decodeFp (w0 : Word) (b : Operand) : Option Instr :=
  let r : BitVec 2 := fld w0 29 2
  let f := fW w0 28
  let d := fD w0
  let a := fA w0
  if fW w0 31 then none else
  match (fld w0 23 5 : BitVec 5) with
  | 0#5 => guardI (true) (.fadd r f d a b)
  | 1#5 => guardI (true) (.fsub r f d a b)
  | 2#5 => guardI (true) (.fmul r f d a b)
  | 3#5 => guardI (true) (.fdiv r f d a b)
  | 4#5 => guardI (fK w0 == 0#1 && fB w0 == 0#5) (.fsqrt r f d a)
  | 5#5 => guardI (r == 0#2) (.fmin f d a b)
  | 6#5 => guardI (r == 0#2) (.fmax f d a b)
  | 7#5 => guardI (true) (.fma r f d a b)
  | 8#5 => guardI (true) (.fnma r f d a b)
  | 9#5 => guardI (r == 0#2) (.feq f d a b)
  | 10#5 => guardI (r == 0#2) (.flt f d a b)
  | 11#5 => guardI (r == 0#2) (.fle f d a b)
  | 12#5 => guardI (r == 0#2 && fK w0 == 0#1 && fB w0 == 0#5) (.fclass f d a)
  | 13#5 => guardI (fK w0 == 0#1 && !f) (.fcvt r (fB w0) d a)
  | 14#5 => match r with
    | 0#2 => some (.fsgnJ f d a b)
    | 1#2 => some (.fsgnJn f d a b)
    | 2#2 => some (.fsgnJx f d a b)
    | _ => none
  | _ => none

/-- OP 0x09 (R165). -/
def decodeShI (w0 : Word) : Option Instr :=
  if fld w0 23 7 != 0#7 then none else
  match (fld w0 30 2 : BitVec 2) with
  | 0#2 => some (.slli (fD w0) (fA w0) (fld w0 17 6))
  | 1#2 => some (.srli (fD w0) (fA w0) (fld w0 17 6))
  | 2#2 => some (.srai (fD w0) (fA w0) (fld w0 17 6))
  | 3#2 => some (.roli (fD w0) (fA w0) (fld w0 17 6))
  | _ => none

/-- OP 0x10 (R32 to R34, R172). -/
def decodeLd (w0 : Word) : Option Instr :=
  let o := fW w0 27
  let z : BitVec 3 := fld w0 24 3
  let h : BitVec 2 := fld w0 22 2
  if fW w0 28 then none else
    match (fld w0 29 3 : BitVec 3) with
    | 0#3 => some (.ld o z h (fB w0) (fA w0) (fD w0))
    | 1#3 => some (.ldFe o z h (fB w0) (fA w0) (fD w0))
    | 2#3 => some (.ldFec o z h (fB w0) (fA w0) (fD w0))
    | _ => none

/-- OP 0x11 (R32 to R34, R172). -/
def decodeSt (w0 : Word) : Option Instr :=
  let o := fW w0 27
  let z : BitVec 2 := fld w0 24 2
  let h : BitVec 2 := fld w0 22 2
  if fW w0 28 || fW w0 26 then none else
    match (fld w0 29 3 : BitVec 3) with
    | 0#3 => some (.st o z h (fB w0) (fA w0) (fD w0))
    | 3#3 => some (.stFes o z h (fB w0) (fA w0) (fD w0))
    | 4#3 => some (.stFee o z h (fB w0) (fA w0) (fD w0))
    | _ => none

/-- OP 0x14 (R38). -/
def decodeAmo (w0 : Word) : Option Instr :=
  match (fld w0 22 4 : BitVec 4) with
  | 0#4 => some (.amoAdd (fld w0 29 3) (fld w0 27 2) (fW w0 26) (fB w0) (fA w0) (fD w0))
  | 1#4 => some (.amoAnd (fld w0 29 3) (fld w0 27 2) (fW w0 26) (fB w0) (fA w0) (fD w0))
  | 2#4 => some (.amoOr (fld w0 29 3) (fld w0 27 2) (fW w0 26) (fB w0) (fA w0) (fD w0))
  | 3#4 => some (.amoXor (fld w0 29 3) (fld w0 27 2) (fW w0 26) (fB w0) (fA w0) (fD w0))
  | 4#4 => some (.amoMin (fld w0 29 3) (fld w0 27 2) (fW w0 26) (fB w0) (fA w0) (fD w0))
  | 5#4 => some (.amoMax (fld w0 29 3) (fld w0 27 2) (fW w0 26) (fB w0) (fA w0) (fD w0))
  | 6#4 => some (.amoMinu (fld w0 29 3) (fld w0 27 2) (fW w0 26) (fB w0) (fA w0) (fD w0))
  | 7#4 => some (.amoMaxu (fld w0 29 3) (fld w0 27 2) (fW w0 26) (fB w0) (fA w0) (fD w0))
  | 8#4 => some (.amoSwap (fld w0 29 3) (fld w0 27 2) (fW w0 26) (fB w0) (fA w0) (fD w0))
  | _ => none

/-- OP 0x20 (R35, R181). -/
def decodeB (w0 : Word) : Option Instr :=
  match (fld w0 17 4 : BitVec 4) with
  | 0#4 => some (.beq (fld w0 21 11) (fld w0 12 5) (fld w0 7 5))
  | 1#4 => some (.bne (fld w0 21 11) (fld w0 12 5) (fld w0 7 5))
  | 2#4 => some (.blt (fld w0 21 11) (fld w0 12 5) (fld w0 7 5))
  | 3#4 => some (.bge (fld w0 21 11) (fld w0 12 5) (fld w0 7 5))
  | 4#4 => some (.bltu (fld w0 21 11) (fld w0 12 5) (fld w0 7 5))
  | 5#4 => some (.bgeu (fld w0 21 11) (fld w0 12 5) (fld w0 7 5))
  | _ => none

/-- OP 0x28 (R187). -/
def decodeC (w0 : Word) : Option Instr :=
  match (fld w0 29 3 : BitVec 3) with
  | 0#3 => guardI (fA w0 == 0#5) (.csrr (fld w0 17 12) (fD w0))
  | 1#3 => some (.csrw (fld w0 17 12) (fA w0) (fD w0))
  | 2#3 => some (.csrs (fld w0 17 12) (fA w0) (fD w0))
  | 3#3 => some (.csrc (fld w0 17 12) (fA w0) (fD w0))
  | _ => none

/-- OP 0x30 (R93). -/
def decodeH (w0 : Word) : Option Instr :=
  match (fld w0 20 4 : BitVec 4) with
  | 0#4 => guardI (fHa w0 == 0#4) (.hld (fld w0 24 8) (fS w0) (fHd w0))
  | 1#4 => guardI (fHd w0 == 0#4) (.hst (fld w0 24 8) (fS w0) (fHa w0))
  | 2#4 => guardI (fld w0 26 6 == 0#6 && fHd w0 == 0#4) (.hget (fld w0 24 2) (fS w0) (fHa w0))
  | 3#4 => guardI (fld w0 26 6 == 0#6) (.hset (fld w0 24 2) (fS w0) (fHa w0) (fHd w0))
  | 4#4 => guardI (fld w0 24 8 == 0#8 && fS w0 == 0#5) (.hmov (fHa w0) (fHd w0))
  | 5#4 => guardI (fld w0 26 6 == 0#6) (.hadv (fld w0 24 2) (fS w0) (fHa w0) (fHd w0))
  | 6#4 => guardI (fld w0 25 7 == 0#7 && fHd w0 == 0#4) (.hchk (fW w0 24) (fS w0) (fHa w0))
  | _ => none

/-- OP 0x31 (R35). -/
def decodeSys31 (w0 : Word) : Option Instr :=
  match (fld w0 23 9 : BitVec 9) with
  | 0#9 => guardI (fK w0 == 0#1) (.start (fD w0) (fA w0) (fB w0))
  | 1#9 => guardI (fK w0 == 0#1 && fB w0 == 0#5 && fD w0 == 0#5) (.hexit (fA w0))
  | 2#9 => guardI (fK w0 == 0#1) (.hjoin (fD w0) (fA w0) (fB w0))
  | 3#9 => guardI (fK w0 == 0#1 && fB w0 == 0#5) (.hstat (fD w0) (fA w0))
  | _ => none

/-- OP 0x32 (R35). -/
def decodeSys32 (w0 : Word) : Option Instr :=
  match (fld w0 23 9 : BitVec 9) with
  | 0#9 => guardI (fK w0 == 0#1 && fD w0 == 0#5 && fld w0 14 3 == 0#3) (.bara (fld w0 12 2) (fB w0))
  | 1#9 => guardI (fK w0 == 0#1 && fB w0 == 0#5 && fld w0 14 3 == 0#3) (.barw (fD w0) (fld w0 12 2))
  | 2#9 => guardI (fK w0 == 0#1 && fld w0 14 3 == 0#3) (.bar (fD w0) (fld w0 12 2) (fB w0))
  | 3#9 => guardI (fK w0 == 0#1 && fB w0 == 0#5 && fA w0 == 0#5) (.exch (fD w0))
  | 4#9 => guardI (fK w0 == 0#1 && fB w0 == 0#5 && fA w0 == 0#5) (.step (fD w0))
  | 5#9 => guardI (fK w0 == 0#1 && fD w0 == 0#5) (.msend (fA w0) (fB w0))
  | 6#9 => guardI (fK w0 == 0#1 && fB w0 == 0#5) (.mrecv (fD w0) (fA w0))
  | _ => none

/-- OP 0x33 (R35). -/
def decodeSys33 (w0 : Word) (w1 w2 : Word) : Option Instr :=
  match (fld w0 23 9 : BitVec 9) with
  | 0#9 => guardI (fK w0 == 0#1) (.enq (fD w0) (fA w0) (fB w0))
  | 1#9 => guardI (fK w0 == 0#1 && fB w0 == 0#5 && fA w0 == 0#5) (.rdone (fD w0))
  | 2#9 => guardI (fK w0 == 0#1 && fB w0 == 0#5) (.grab (fD w0) (fA w0))
  | 3#9 => guardI (fK w0 == 1#1 && fB w0 == 1#5 && fld w2 16 16 == 0#16) (.preempt (fD w0) (fA w0) (fld w2 0 16 ++ w1))
  | 4#9 => guardI (fK w0 == 0#1 && fB w0 == 0#5 && fD w0 == 0#5) (.sleepto (fA w0))
  | _ => none

/-- OP 0x34 (R35). -/
def decodeSys34 (w0 : Word) : Option Instr :=
  match (fld w0 23 9 : BitVec 9) with
  | 0#9 => guardI (fK w0 == 0#1 && fB w0 == 0#5) (.waitt (fD w0) (fA w0))
  | 1#9 => guardI (fK w0 == 0#1 && fB w0 == 0#5) (.tstat (fD w0) (fA w0))
  | 2#9 => guardI (fK w0 == 0#1 && fB w0 == 0#5) (.cancel (fD w0) (fA w0))
  | 3#9 => guardI (fK w0 == 0#1) (.detach (fD w0) (fA w0) (fB w0))
  | 4#9 => guardI (fK w0 == 0#1 && fB w0 == 0#5) (.adopt (fD w0) (fA w0))
  | 5#9 => guardI (fK w0 == 0#1) (.tpri (fD w0) (fA w0) (fB w0))
  | 6#9 => guardI (fK w0 == 0#1) (.tfrec (fD w0) (fA w0) (fB w0))
  | 7#9 => guardI (fK w0 == 0#1 && fB w0 == 0#5) (.waits (fD w0) (fA w0))
  | _ => none

/-- OP 0x35 (R35). -/
def decodeSys35 (w0 : Word) : Option Instr :=
  match (fld w0 23 9 : BitVec 9) with
  | 0#9 => guardI (fK w0 == 0#1 && fld w0 21 1 == 0#1 && fA w0 == 0#5) (.rginit (fD w0) (fld w0 17 4))
  | 1#9 => guardI (fK w0 == 0#1 && fB w0 == 0#5) (.rgwait (fD w0) (fA w0))
  | 2#9 => guardI (fK w0 == 0#1 && fB w0 == 0#5 && fD w0 == 0#5) (.rgrel (fA w0))
  | 3#9 => guardI (fK w0 == 0#1 && fB w0 == 0#5) (.rgstat (fD w0) (fA w0))
  | _ => none

/-- OP 0x36 (R35). -/
def decodeSys36 (w0 : Word) : Option Instr :=
  match (fld w0 23 9 : BitVec 9) with
  | 0#9 => guardI (fK w0 == 0#1 && fB w0 == 0#5) (.hacq (fD w0) (fA w0))
  | 1#9 => guardI (fK w0 == 0#1 && fB w0 == 0#5) (.hrel (fD w0) (fA w0))
  | 2#9 => guardI (fK w0 == 0#1 && fB w0 == 0#5) (.hinfo (fD w0) (fA w0))
  | _ => none

/-- OP 0x37 (R35). -/
def decodeSys37 (w0 : Word) : Option Instr :=
  match (fld w0 23 9 : BitVec 9) with
  | 0#9 => guardI (fK w0 == 0#1) (.qsub (fD w0) (fA w0) (fB w0))
  | 1#9 => guardI (fK w0 == 0#1 && fB w0 == 0#5) (.qstat (fD w0) (fA w0))
  | _ => none

/-- OP 0x38 (R35). -/
def decodeSys38 (w0 : Word) : Option Instr :=
  match (fld w0 23 9 : BitVec 9) with
  | 0#9 => guardI (fK w0 == 0#1 && fld w0 21 1 == 0#1) (.bind (fD w0) (fA w0) (fld w0 17 4))
  | 1#9 => guardI (fK w0 == 0#1 && fB w0 == 0#5) (.unbind (fD w0) (fA w0))
  | _ => none

/-- OP 0x60 of form E (R40). -/
def decodeEng60 (w0 w1 : Word) (o : EOrd) : Option Instr :=
  let hhA : BitVec 4 := fld w0 7 4
  let hhB : BitVec 4 := fld w0 11 4
  let hhC : BitVec 4 := fld w0 15 4
  let ssX : BitVec 5 := fld w1 16 5
  let ssY : BitVec 5 := fld w1 21 5
  let ssZ : BitVec 5 := fld w1 26 5
  let fn7 : BitVec 7 := fld w1 9 7
  match fn7 with
  | 0#7 => guardI (hhB == 0#4) (.copy o hhC hhA ssX ssY ssZ)
  | 1#7 => guardI (hhB == 0#4 && ssY == 0#5 && ssZ == 0#5) (.copym o hhC hhA ssX)
  | 2#7 => guardI (hhB == 0#4 && ssY == 0#5 && ssZ == 0#5) (.pack o hhC hhA ssX)
  | 3#7 => guardI (hhB == 0#4 && ssY == 0#5 && ssZ == 0#5) (.unpack o hhC hhA ssX)
  | _ => none

/-- OP 0x61 of form E (R40). -/
def decodeEng61 (w0 w1 : Word) (o : EOrd) : Option Instr :=
  let hhA : BitVec 4 := fld w0 7 4
  let hhB : BitVec 4 := fld w0 11 4
  let hhC : BitVec 4 := fld w0 15 4
  let ssX : BitVec 5 := fld w1 16 5
  let ssY : BitVec 5 := fld w1 21 5
  let ssZ : BitVec 5 := fld w1 26 5
  let fn7 : BitVec 7 := fld w1 9 7
  match fn7 with
  | 0#7 => guardI (hhC == 0#4 && ssY == 0#5 && ssZ == 0#5) (.scadd o hhA hhB ssX)
  | _ => none

/-- OP 0x62 of form E (R40). -/
def decodeEng62 (w0 w1 : Word) (o : EOrd) : Option Instr :=
  let hhA : BitVec 4 := fld w0 7 4
  let hhB : BitVec 4 := fld w0 11 4
  let hhC : BitVec 4 := fld w0 15 4
  let ssX : BitVec 5 := fld w1 16 5
  let ssY : BitVec 5 := fld w1 21 5
  let ssZ : BitVec 5 := fld w1 26 5
  let fn7 : BitVec 7 := fld w1 9 7
  match fn7 with
  | 0#7 => guardI (hhA == 0#4 && hhB == 0#4 && hhC == 0#4 && ssY == 0#5 && ssZ == 0#5) (.bflush o ssX)
  | _ => none

/-- OP 0x63 of form E (R40). -/
def decodeEng63 (w0 w1 : Word) (o : EOrd) : Option Instr :=
  let hhA : BitVec 4 := fld w0 7 4
  let hhB : BitVec 4 := fld w0 11 4
  let hhC : BitVec 4 := fld w0 15 4
  let ssX : BitVec 5 := fld w1 16 5
  let ssY : BitVec 5 := fld w1 21 5
  let ssZ : BitVec 5 := fld w1 26 5
  let fn7 : BitVec 7 := fld w1 9 7
  if fld fn7 1 6 != 0#6 then none else guardI (ssX == 0#5 && ssY == 0#5 && ssZ == 0#5) (.mma (fld fn7 0 1 == 1#1) o hhC hhA hhB)

/-- OP 0x64 of form E (R40). -/
def decodeEng64 (w0 w1 : Word) (o : EOrd) : Option Instr :=
  let hhA : BitVec 4 := fld w0 7 4
  let hhB : BitVec 4 := fld w0 11 4
  let hhC : BitVec 4 := fld w0 15 4
  let ssX : BitVec 5 := fld w1 16 5
  let ssY : BitVec 5 := fld w1 21 5
  let ssZ : BitVec 5 := fld w1 26 5
  let fn7 : BitVec 7 := fld w1 9 7
  if fld fn7 1 6 != 0#6 then none else guardI (true) (.mmag (fld fn7 0 1 == 1#1) o hhC hhA hhB ssX ssY ssZ)

/-- OP 0x65 of form E (R40). -/
def decodeEng65 (w0 w1 : Word) (o : VOrd) : Option Instr :=
  let hhA : BitVec 4 := fld w0 7 4
  let hhB : BitVec 4 := fld w0 11 4
  let hhC : BitVec 4 := fld w0 15 4
  let ssX : BitVec 5 := fld w1 16 5
  let ssY : BitVec 5 := fld w1 21 5
  let ssZ : BitVec 5 := fld w1 26 5
  let fn7 : BitVec 7 := fld w1 9 7
  match (fld fn7 0 5 : BitVec 5) with
  | 0#5 => guardI (ssX == 0#5 && ssY == 0#5 && ssZ == 0#5) (.vadd (fld fn7 5 2) o hhC hhA hhB)
  | 1#5 => guardI (ssX == 0#5 && ssY == 0#5 && ssZ == 0#5) (.vsub (fld fn7 5 2) o hhC hhA hhB)
  | 2#5 => guardI (ssX == 0#5 && ssY == 0#5 && ssZ == 0#5) (.vmul (fld fn7 5 2) o hhC hhA hhB)
  | 3#5 => guardI (ssX == 0#5 && ssY == 0#5 && ssZ == 0#5) (.vfma (fld fn7 5 2) o hhC hhA hhB)
  | 4#5 => guardI (ssX == 0#5 && ssY == 0#5 && ssZ == 0#5) (.vmax (fld fn7 5 2) o hhC hhA hhB)
  | 5#5 => guardI (ssX == 0#5 && ssY == 0#5 && ssZ == 0#5) (.vmin (fld fn7 5 2) o hhC hhA hhB)
  | 6#5 => guardI (hhB == 0#4 && ssX == 0#5 && ssY == 0#5 && ssZ == 0#5) (.vabs (fld fn7 5 2) o hhC hhA)
  | 7#5 => guardI (hhB == 0#4 && ssX == 0#5 && ssY == 0#5 && ssZ == 0#5) (.vneg (fld fn7 5 2) o hhC hhA)
  | 8#5 => guardI (hhB == 0#4 && ssX == 0#5 && ssY == 0#5 && ssZ == 0#5) (.vexp (fld fn7 5 2) o hhC hhA)
  | 9#5 => guardI (hhB == 0#4 && ssX == 0#5 && ssY == 0#5 && ssZ == 0#5) (.vlog (fld fn7 5 2) o hhC hhA)
  | 10#5 => guardI (hhB == 0#4 && ssX == 0#5 && ssY == 0#5 && ssZ == 0#5) (.vrcp (fld fn7 5 2) o hhC hhA)
  | 11#5 => guardI (hhB == 0#4 && ssX == 0#5 && ssY == 0#5 && ssZ == 0#5) (.vrsq (fld fn7 5 2) o hhC hhA)
  | 12#5 => guardI (hhB == 0#4 && ssX == 0#5 && ssY == 0#5 && ssZ == 0#5) (.vtanh (fld fn7 5 2) o hhC hhA)
  | 13#5 => guardI (ssY == 0#5 && ssZ == 0#5) (.vcmp (fld fn7 5 2) o hhC hhA hhB ssX)
  | 14#5 => guardI (ssX == 0#5 && ssY == 0#5 && ssZ == 0#5) (.vsel (fld fn7 5 2) o hhC hhA hhB)
  | 15#5 => guardI (hhB == 0#4 && ssX == 0#5 && ssY == 0#5 && ssZ == 0#5) (.vcvt (fld fn7 5 2) o hhC hhA)
  | 16#5 => guardI (hhB == 0#4 && ssY == 0#5 && ssZ == 0#5) (.vscl (fld fn7 5 2) o hhC hhA ssX)
  | 17#5 => guardI (hhB == 0#4 && ssX == 0#5 && ssY == 0#5 && ssZ == 0#5) (.vreds (fld fn7 5 2) o hhC hhA)
  | 18#5 => guardI (hhB == 0#4 && ssX == 0#5 && ssY == 0#5 && ssZ == 0#5) (.vredm (fld fn7 5 2) o hhC hhA)
  | 19#5 => guardI (hhB == 0#4 && ssX == 0#5 && ssY == 0#5 && ssZ == 0#5) (.vscan (fld fn7 5 2) o hhC hhA)
  | _ => none

/-- OP 0x66 of form E (R40). -/
def decodeEng66 (w0 w1 : Word) (o : EOrd) : Option Instr :=
  let hhA : BitVec 4 := fld w0 7 4
  let hhB : BitVec 4 := fld w0 11 4
  let hhC : BitVec 4 := fld w0 15 4
  let ssX : BitVec 5 := fld w1 16 5
  let ssY : BitVec 5 := fld w1 21 5
  let ssZ : BitVec 5 := fld w1 26 5
  let fn7 : BitVec 7 := fld w1 9 7
  match fn7 with
  | 0#7 => guardI (hhB == 0#4 && ssX == 0#5 && ssY == 0#5 && ssZ == 0#5) (.qntQ4uni o hhC hhA)
  | 4#7 => guardI (hhB == 0#4 && ssX == 0#5 && ssY == 0#5 && ssZ == 0#5) (.qntQ4e2m1 o hhC hhA)
  | 8#7 => guardI (hhB == 0#4 && ssX == 0#5 && ssY == 0#5 && ssZ == 0#5) (.qntQ4pow o hhC hhA)
  | 12#7 => guardI (hhB == 0#4 && ssX == 0#5 && ssY == 0#5 && ssZ == 0#5) (.qntQ4hyb o hhC hhA)
  | 16#7 => guardI (hhB == 0#4 && ssX == 0#5 && ssY == 0#5 && ssZ == 0#5) (.qntQ4auto o hhC hhA)
  | 1#7 => guardI (hhB == 0#4 && ssX == 0#5 && ssY == 0#5 && ssZ == 0#5) (.dqnt o hhC hhA)
  | 2#7 => guardI (hhB == 0#4 && hhC == 0#4 && ssX == 0#5 && ssY == 0#5 && ssZ == 0#5) (.qchk o hhA)
  | _ => none

/-- OP 0x67 of form E (R40). -/
def decodeEng67 (w0 w1 : Word) (o : EOrd) : Option Instr :=
  let hhA : BitVec 4 := fld w0 7 4
  let hhB : BitVec 4 := fld w0 11 4
  let hhC : BitVec 4 := fld w0 15 4
  let ssX : BitVec 5 := fld w1 16 5
  let ssY : BitVec 5 := fld w1 21 5
  let ssZ : BitVec 5 := fld w1 26 5
  let fn7 : BitVec 7 := fld w1 9 7
  match fn7 with
  | 0#7 => guardI (hhA == 0#4 && hhB == 0#4 && ssY == 0#5 && ssZ == 0#5) (.winit o hhC ssX)
  | 1#7 => guardI (ssX == 0#5 && ssY == 0#5 && ssZ == 0#5) (.wprobe o hhC hhA hhB)
  | 2#7 => guardI (hhB == 0#4) (.wcommit o hhC hhA ssX ssY ssZ)
  | 3#7 => guardI (hhB == 0#4 && hhC == 0#4 && ssX == 0#5) (.wpick o hhA ssY ssZ)
  | 4#7 => guardI (ssX == 0#5 && ssY == 0#5 && ssZ == 0#5) (.wrd o hhC hhA hhB)
  | _ => none

/-- OP 0x68 of form E (R40). -/
def decodeEng68 (w0 w1 : Word) (o : EOrd) : Option Instr :=
  let hhA : BitVec 4 := fld w0 7 4
  let hhB : BitVec 4 := fld w0 11 4
  let hhC : BitVec 4 := fld w0 15 4
  let ssX : BitVec 5 := fld w1 16 5
  let ssY : BitVec 5 := fld w1 21 5
  let ssZ : BitVec 5 := fld w1 26 5
  let fn7 : BitVec 7 := fld w1 9 7
  if fW w1 15 then none else
  match (fld fn7 0 3 : BitVec 3) with
  | 0#3 => guardI (hhB == 0#4 && ssY == 0#5) (.allred (fld fn7 3 3) o hhC hhA ssX ssZ)
  | 1#3 => guardI (hhB == 0#4 && ssY == 0#5) (.redscat (fld fn7 3 3) o hhC hhA ssX ssZ)
  | 2#3 => if fld fn7 3 3 != 0#3 then none else guardI (hhB == 0#4 && ssY == 0#5) (.allgath o hhC hhA ssX ssZ)
  | 3#3 => if fld fn7 3 3 != 0#3 then none else guardI (hhB == 0#4) (.bcast o hhC hhA ssX ssY ssZ)
  | 4#3 => if fld fn7 3 3 != 0#3 then none else guardI (hhB == 0#4 && ssY == 0#5) (.alltoall o hhC hhA ssX ssZ)
  | _ => none

/-- OP 0x69 of form E (R40). -/
def decodeEng69 (w0 w1 : Word) (o : EOrd) : Option Instr :=
  let hhA : BitVec 4 := fld w0 7 4
  let hhB : BitVec 4 := fld w0 11 4
  let hhC : BitVec 4 := fld w0 15 4
  let ssX : BitVec 5 := fld w1 16 5
  let ssY : BitVec 5 := fld w1 21 5
  let ssZ : BitVec 5 := fld w1 26 5
  let fn7 : BitVec 7 := fld w1 9 7
  match fn7 with
  | 0#7 => guardI (hhA == 0#4 && hhB == 0#4 && hhC == 0#4) (.spec o ssX ssY ssZ)
  | _ => none

/-- Form E (R28, R30), given its OP. -/
def decodeEng (op : BitVec 7) (w0 w1 : Word) : Option Instr :=
  if fW w1 31 then none else
  if op == 101#7 then
    match vordOf w0 w1 with
    | none => none
    | some o => decodeEng65 w0 w1 o
  else
    match eordOf w0 w1 with
    | none => none
    | some o =>
      match op with
      | 96#7 => decodeEng60 w0 w1 o
      | 97#7 => decodeEng61 w0 w1 o
      | 98#7 => decodeEng62 w0 w1 o
      | 99#7 => decodeEng63 w0 w1 o
      | 100#7 => decodeEng64 w0 w1 o
      | 102#7 => decodeEng66 w0 w1 o
      | 103#7 => decodeEng67 w0 w1 o
      | 104#7 => decodeEng68 w0 w1 o
      | 105#7 => decodeEng69 w0 w1 o
      | _ => none

/-- The opcode map (R35, R40): what the words of an instruction are read as, before the
checks of `Instr.wf`. -/
def decodeRaw (w0 w1 w2 : Word) : Option Instr :=
  let op : BitVec 7 := fld w0 0 7
  if fld w0 5 2 == 3#2 then decodeEng op w0 w1 else
  match op with
  | 1#7 => (operandOf w0 w1 w2).bind (decodeInt w0)
  | 2#7 => (operandOf w0 w1 w2).bind (decodeBit w0)
  | 3#7 => guardI (true) (.addi (fD w0) (fA w0) (fImm w0))
  | 4#7 => guardI (true) (.andi (fD w0) (fA w0) (fImm w0))
  | 5#7 => guardI (true) (.ori (fD w0) (fA w0) (fImm w0))
  | 6#7 => guardI (true) (.xori (fD w0) (fA w0) (fImm w0))
  | 7#7 => guardI (true) (.slti (fD w0) (fA w0) (fImm w0))
  | 8#7 => guardI (true) (.sltiu (fD w0) (fA w0) (fImm w0))
  | 9#7 => decodeShI w0
  | 10#7 => (operandOf w0 w1 w2).bind (decodeFp w0)
  | 16#7 => decodeLd w0
  | 17#7 => decodeSt w0
  | 18#7 => if fW w0 18 then none else
      some (.ldi (fld w0 22 10) (fld w0 19 3) (fW w0 17) (fA w0) (fD w0))
  | 19#7 => if fW w0 18 || fW w0 21 then none else
      some (.sti (fld w0 22 10) (fld w0 19 2) (fW w0 17) (fA w0) (fD w0))
  | 20#7 => decodeAmo w0
  | 21#7 => guardI (fld w0 22 4 == 0#4)
      (.cas (fld w0 29 3) (fld w0 27 2) (fW w0 26) (fB w0) (fA w0) (fD w0))
  | 22#7 => guardI (fld w0 17 5 == 12#5 && fD w0 == 0#5) (.pref (fld w0 22 10) (fA w0))
  | 23#7 => guardI (fld w0 20 12 == 0#12 && fA w0 == 0#5 && fD w0 == 0#5) (.fence (fld w0 17 3))
  | 32#7 => decodeB w0
  | 33#7 => some (.jal (fld w0 12 20) (fD w0))
  | 34#7 => guardI (true) (.jalr (fImm w0) (fA w0) (fD w0))
  | 35#7 => guardI (fD w0 == 0#5) (.loop (fImm w0) (fA w0))
  | 36#7 => guardI (fld w0 25 7 == 0#7) (.rep (fld w0 21 4) (fld w0 17 4) (fA w0) (fD w0))
  | 37#7 => guardI (fImm w0 == 0#15) (.callh (fA w0) (fD w0))
  | 38#7 => guardI (fImm w0 == 0#15 && fD w0 == 0#5) (.reth (fA w0))
  | 40#7 => decodeC w0
  | 41#7 => guardI (fA w0 == 0#5 && fD w0 == 0#5) (.trap (fImm w0))
  | 42#7 => guardI (fImm w0 == 0#15 && fA w0 == 0#5 && fD w0 == 0#5) (.eret)
  | 43#7 => guardI (fA w0 == 0#5 && fD w0 == 0#5) (.brk (fImm w0))
  | 48#7 => decodeH w0
  | 49#7 => decodeSys31 w0
  | 50#7 => decodeSys32 w0
  | 51#7 => decodeSys33 w0 w1 w2
  | 52#7 => decodeSys34 w0
  | 53#7 => decodeSys35 w0
  | 54#7 => decodeSys36 w0
  | 55#7 => decodeSys37 w0
  | 56#7 => decodeSys38 w0
  | _ => none

/-- The words of an instruction read as an instruction; `none` where R41 calls them illegal. -/
def decode (w0 w1 w2 : Word) : Option Instr :=
  match decodeRaw w0 w1 w2 with
  | none => none
  | some i => if i.wf then some i else none

/-- How many words an instruction has, from its first word alone (R21, R27). -/
def wordCount (w0 : Word) : Nat :=
  let op : BitVec 7 := fld w0 0 7
  if fld w0 5 2 == 3#2 then 2
  else if op == 1#7 || op == 2#7 || op == 10#7 then
    if fK w0 == 1#1 && fB w0 == 0#5 then 2
    else if fK w0 == 1#1 && fB w0 == 1#5 then 3
    else 1
  else if op == 51#7 && fld w0 23 9 == 3#9 && fK w0 == 1#1 && fB w0 == 1#5 then 3
  else 1

/-- The words of an instruction, from the encoding tables of the spec (R25 to R40);
an event has none. -/
def encode : Instr → List Word
  | .add w d a b => encR (w1 w ++ 0#1 ++ 0#2 ++ 0#5) b a d 1#7
  | .sub w d a b => encR (w1 w ++ 0#1 ++ 0#2 ++ 1#5) b a d 1#7
  | .and d a b => encR (0#1 ++ 0#1 ++ 0#2 ++ 2#5) b a d 1#7
  | .or d a b => encR (0#1 ++ 0#1 ++ 0#2 ++ 3#5) b a d 1#7
  | .xor d a b => encR (0#1 ++ 0#1 ++ 0#2 ++ 4#5) b a d 1#7
  | .andn d a b => encR (0#1 ++ 0#1 ++ 0#2 ++ 5#5) b a d 1#7
  | .sll w d a b => encR (w1 w ++ 0#1 ++ 0#2 ++ 6#5) b a d 1#7
  | .srl w d a b => encR (w1 w ++ 0#1 ++ 0#2 ++ 7#5) b a d 1#7
  | .sra w d a b => encR (w1 w ++ 0#1 ++ 0#2 ++ 8#5) b a d 1#7
  | .rol w d a b => encR (w1 w ++ 0#1 ++ 0#2 ++ 9#5) b a d 1#7
  | .slt d a b => encR (0#1 ++ 0#1 ++ 0#2 ++ 10#5) b a d 1#7
  | .sltu d a b => encR (0#1 ++ 0#1 ++ 0#2 ++ 11#5) b a d 1#7
  | .min d a b => encR (0#1 ++ 0#1 ++ 0#2 ++ 12#5) b a d 1#7
  | .max d a b => encR (0#1 ++ 0#1 ++ 0#2 ++ 13#5) b a d 1#7
  | .minu d a b => encR (0#1 ++ 0#1 ++ 0#2 ++ 14#5) b a d 1#7
  | .maxu d a b => encR (0#1 ++ 0#1 ++ 0#2 ++ 15#5) b a d 1#7
  | .mul w d a b => encR (w1 w ++ 0#1 ++ 0#2 ++ 16#5) b a d 1#7
  | .mulh d a b => encR (0#1 ++ 0#1 ++ 0#2 ++ 17#5) b a d 1#7
  | .mulhu d a b => encR (0#1 ++ 0#1 ++ 0#2 ++ 18#5) b a d 1#7
  | .div w d a b => encR (w1 w ++ 0#1 ++ 0#2 ++ 19#5) b a d 1#7
  | .divu w d a b => encR (w1 w ++ 0#1 ++ 0#2 ++ 20#5) b a d 1#7
  | .rem w d a b => encR (w1 w ++ 0#1 ++ 0#2 ++ 21#5) b a d 1#7
  | .remu w d a b => encR (w1 w ++ 0#1 ++ 0#2 ++ 22#5) b a d 1#7
  | .shadd k d a b => encR (0#1 ++ 0#1 ++ k ++ 23#5) b a d 1#7
  | .sel d a b => encR (0#1 ++ 0#1 ++ 0#2 ++ 24#5) b a d 1#7
  | .clz w d a => [packR (w1 w ++ 0#4 ++ 0#4) 0#1 0#5 a d 2#7]
  | .ctz w d a => [packR (w1 w ++ 0#4 ++ 1#4) 0#1 0#5 a d 2#7]
  | .popc w d a => [packR (w1 w ++ 0#4 ++ 2#4) 0#1 0#5 a d 2#7]
  | .brev w d a => [packR (w1 w ++ 0#4 ++ 3#4) 0#1 0#5 a d 2#7]
  | .bswap w d a => [packR (w1 w ++ 0#4 ++ 4#4) 0#1 0#5 a d 2#7]
  | .sext d a b => encR (0#5 ++ 5#4) b a d 2#7
  | .zext d a b => encR (0#5 ++ 6#4) b a d 2#7
  | .ext d a b => encR (0#5 ++ 7#4) b a d 2#7
  | .ins d a b => encR (0#5 ++ 8#4) b a d 2#7
  | .addi d a imm => [packI imm a d 3#7]
  | .andi d a imm => [packI imm a d 4#7]
  | .ori d a imm => [packI imm a d 5#7]
  | .xori d a imm => [packI imm a d 6#7]
  | .slti d a imm => [packI imm a d 7#7]
  | .sltiu d a imm => [packI imm a d 8#7]
  | .slli d a n => [packI (0#2 ++ 0#7 ++ n) a d 9#7]
  | .srli d a n => [packI (1#2 ++ 0#7 ++ n) a d 9#7]
  | .srai d a n => [packI (2#2 ++ 0#7 ++ n) a d 9#7]
  | .roli d a n => [packI (3#2 ++ 0#7 ++ n) a d 9#7]
  | .fadd r f d a b => encR (0#1 ++ r ++ w1 f ++ 0#5) b a d 10#7
  | .fsub r f d a b => encR (0#1 ++ r ++ w1 f ++ 1#5) b a d 10#7
  | .fmul r f d a b => encR (0#1 ++ r ++ w1 f ++ 2#5) b a d 10#7
  | .fdiv r f d a b => encR (0#1 ++ r ++ w1 f ++ 3#5) b a d 10#7
  | .fsqrt r f d a => [packR (0#1 ++ r ++ w1 f ++ 4#5) 0#1 0#5 a d 10#7]
  | .fmin f d a b => encR (0#1 ++ 0#2 ++ w1 f ++ 5#5) b a d 10#7
  | .fmax f d a b => encR (0#1 ++ 0#2 ++ w1 f ++ 6#5) b a d 10#7
  | .fma r f d a b => encR (0#1 ++ r ++ w1 f ++ 7#5) b a d 10#7
  | .fnma r f d a b => encR (0#1 ++ r ++ w1 f ++ 8#5) b a d 10#7
  | .feq f d a b => encR (0#1 ++ 0#2 ++ w1 f ++ 9#5) b a d 10#7
  | .flt f d a b => encR (0#1 ++ 0#2 ++ w1 f ++ 10#5) b a d 10#7
  | .fle f d a b => encR (0#1 ++ 0#2 ++ w1 f ++ 11#5) b a d 10#7
  | .fclass f d a => [packR (0#1 ++ 0#2 ++ w1 f ++ 12#5) 0#1 0#5 a d 10#7]
  | .fcvt r k d a => [packR (0#1 ++ r ++ 0#1 ++ 13#5) 0#1 k a d 10#7]
  | .fsgnJ f d a b => encR (0#1 ++ 0#2 ++ w1 f ++ 14#5) b a d 10#7
  | .fsgnJn f d a b => encR (0#1 ++ 1#2 ++ w1 f ++ 14#5) b a d 10#7
  | .fsgnJx f d a b => encR (0#1 ++ 2#2 ++ w1 f ++ 14#5) b a d 10#7
  | .ld o z h b a t => [packM 0#3 (0#1 ++ w1 o) z h b a t 16#7]
  | .ldFe o z h b a t => [packM 1#3 (0#1 ++ w1 o) z h b a t 16#7]
  | .ldFec o z h b a t => [packM 2#3 (0#1 ++ w1 o) z h b a t 16#7]
  | .st o z h b a t => [packM 0#3 (0#1 ++ w1 o) (0#1 ++ z) h b a t 17#7]
  | .stFes o z h b a t => [packM 3#3 (0#1 ++ w1 o) (0#1 ++ z) h b a t 17#7]
  | .stFee o z h b a t => [packM 4#3 (0#1 ++ w1 o) (0#1 ++ z) h b a t 17#7]
  | .ldi off z o a t => [packMI off z (0#1 ++ w1 o) a t 18#7]
  | .sti off z o a t => [packMI off (0#1 ++ z) (0#1 ++ w1 o) a t 19#7]
  | .pref off a => [packMI off 3#3 0#2 a 0#5 22#7]
  | .amoAdd scope o w b a d => [packA scope o (w1 w) 0#4 b a d 20#7]
  | .amoAnd scope o w b a d => [packA scope o (w1 w) 1#4 b a d 20#7]
  | .amoOr scope o w b a d => [packA scope o (w1 w) 2#4 b a d 20#7]
  | .amoXor scope o w b a d => [packA scope o (w1 w) 3#4 b a d 20#7]
  | .amoMin scope o w b a d => [packA scope o (w1 w) 4#4 b a d 20#7]
  | .amoMax scope o w b a d => [packA scope o (w1 w) 5#4 b a d 20#7]
  | .amoMinu scope o w b a d => [packA scope o (w1 w) 6#4 b a d 20#7]
  | .amoMaxu scope o w b a d => [packA scope o (w1 w) 7#4 b a d 20#7]
  | .amoSwap scope o w b a d => [packA scope o (w1 w) 8#4 b a d 20#7]
  | .cas scope o w b a d => [packA scope o (w1 w) 0#4 b a d 21#7]
  | .fence scope => [packI (0#12 ++ scope) 0#5 0#5 23#7]
  | .beq off b a => [packB off 0#4 b a 32#7]
  | .bne off b a => [packB off 1#4 b a 32#7]
  | .blt off b a => [packB off 2#4 b a 32#7]
  | .bge off b a => [packB off 3#4 b a 32#7]
  | .bltu off b a => [packB off 4#4 b a 32#7]
  | .bgeu off b a => [packB off 5#4 b a 32#7]
  | .jal off d => [packJ off d 33#7]
  | .jalr imm a d => [packI imm a d 34#7]
  | .loop imm a => [packI imm a 0#5 35#7]
  | .rep ss hs c n => [packP 0#7 ss hs c n 36#7]
  | .callh a d => [packI 0#15 a d 37#7]
  | .reth a => [packI 0#15 a 0#5 38#7]
  | .csrr c d => [packC 0#3 c 0#5 d 40#7]
  | .csrw c a d => [packC 1#3 c a d 40#7]
  | .csrs c a d => [packC 2#3 c a d 40#7]
  | .csrc c a d => [packC 3#3 c a d 40#7]
  | .trap imm => [packI imm 0#5 0#5 41#7]
  | .eret => [packI 0#15 0#5 0#5 42#7]
  | .brk imm => [packI imm 0#5 0#5 43#7]
  | .hld imm s hd => [packH imm 0#4 s 0#4 hd 48#7]
  | .hst imm s ha => [packH imm 1#4 s ha 0#4 48#7]
  | .hget w s ha => [packH (0#6 ++ w) 2#4 s ha 0#4 48#7]
  | .hset w s ha hd => [packH (0#6 ++ w) 3#4 s ha hd 48#7]
  | .hmov ha hd => [packH 0#8 4#4 0#5 ha hd 48#7]
  | .hadv w s ha hd => [packH (0#6 ++ w) 5#4 s ha hd 48#7]
  | .hchk u s ha => [packH (0#7 ++ w1 u) 6#4 s ha 0#4 48#7]
  | .start d a b => [packR 0#9 0#1 b a d 49#7]
  | .hexit a => [packR 1#9 0#1 0#5 a 0#5 49#7]
  | .hjoin d a b => [packR 2#9 0#1 b a d 49#7]
  | .hstat d a => [packR 3#9 0#1 0#5 a d 49#7]
  | .bara g b => [packR 0#9 0#1 b (0#3 ++ g) 0#5 50#7]
  | .barw d g => [packR 1#9 0#1 0#5 (0#3 ++ g) d 50#7]
  | .bar d g b => [packR 2#9 0#1 b (0#3 ++ g) d 50#7]
  | .exch d => [packR 3#9 0#1 0#5 0#5 d 50#7]
  | .step d => [packR 4#9 0#1 0#5 0#5 d 50#7]
  | .msend a b => [packR 5#9 0#1 b a 0#5 50#7]
  | .mrecv d a => [packR 6#9 0#1 0#5 a d 50#7]
  | .messageArrival _ _ => []
  | .msendRetry _ _ => []
  | .enq d a b => [packR 0#9 0#1 b a d 51#7]
  | .rdone d => [packR 1#9 0#1 0#5 0#5 d 51#7]
  | .grab d a => [packR 2#9 0#1 0#5 a d 51#7]
  | .preempt d a live => [packR 3#9 1#1 1#5 a d 51#7, fld live 0 32, 0#16 ++ fld live 32 16]
  | .sleepto a => [packR 4#9 0#1 0#5 a 0#5 51#7]
  | .waitt d a => [packR 0#9 0#1 0#5 a d 52#7]
  | .tstat d a => [packR 1#9 0#1 0#5 a d 52#7]
  | .cancel d a => [packR 2#9 0#1 0#5 a d 52#7]
  | .detach d a b => [packR 3#9 0#1 b a d 52#7]
  | .adopt d a => [packR 4#9 0#1 0#5 a d 52#7]
  | .tpri d a b => [packR 5#9 0#1 b a d 52#7]
  | .tfrec d a b => [packR 6#9 0#1 b a d 52#7]
  | .waits d a => [packR 7#9 0#1 0#5 a d 52#7]
  | .rginit d h => [packR 0#9 0#1 (0#1 ++ h) 0#5 d 53#7]
  | .rgwait d a => [packR 1#9 0#1 0#5 a d 53#7]
  | .rgrel a => [packR 2#9 0#1 0#5 a 0#5 53#7]
  | .rgstat d a => [packR 3#9 0#1 0#5 a d 53#7]
  | .reserveSlot _ => []
  | .fillSlot _ => []
  | .claimHead _ => []
  | .hacq d a => [packR 0#9 0#1 0#5 a d 54#7]
  | .hrel d a => [packR 1#9 0#1 0#5 a d 54#7]
  | .hinfo d a => [packR 2#9 0#1 0#5 a d 54#7]
  | .qsub d a b => [packR 0#9 0#1 b a d 55#7]
  | .qstat d a => [packR 1#9 0#1 0#5 a d 55#7]
  | .bind d a h => [packR 0#9 0#1 (0#1 ++ h) a d 56#7]
  | .unbind d a => [packR 1#9 0#1 0#5 a d 56#7]
  | .copy o hC hA sX sY sZ => encE 96#7 0#7 hC 0#4 hA sX sY sZ o
  | .copym o hC hA sX => encE 96#7 1#7 hC 0#4 hA sX 0#5 0#5 o
  | .pack o hC hA sX => encE 96#7 2#7 hC 0#4 hA sX 0#5 0#5 o
  | .unpack o hC hA sX => encE 96#7 3#7 hC 0#4 hA sX 0#5 0#5 o
  | .scadd o hA hB sX => encE 97#7 0#7 0#4 hB hA sX 0#5 0#5 o
  | .bflush o sX => encE 98#7 0#7 0#4 0#4 0#4 sX 0#5 0#5 o
  | .mma ovw o hC hA hB => encE 99#7 (0#6 ++ w1 ovw) hC hB hA 0#5 0#5 0#5 o
  | .mmag ovw o hC hA hB sX sY sZ => encE 100#7 (0#6 ++ w1 ovw) hC hB hA sX sY sZ o
  | .vadd r o hC hA hB => encV 101#7 (r ++ 0#5) hC hB hA 0#5 0#5 0#5 o
  | .vsub r o hC hA hB => encV 101#7 (r ++ 1#5) hC hB hA 0#5 0#5 0#5 o
  | .vmul r o hC hA hB => encV 101#7 (r ++ 2#5) hC hB hA 0#5 0#5 0#5 o
  | .vfma r o hC hA hB => encV 101#7 (r ++ 3#5) hC hB hA 0#5 0#5 0#5 o
  | .vmax r o hC hA hB => encV 101#7 (r ++ 4#5) hC hB hA 0#5 0#5 0#5 o
  | .vmin r o hC hA hB => encV 101#7 (r ++ 5#5) hC hB hA 0#5 0#5 0#5 o
  | .vabs r o hC hA => encV 101#7 (r ++ 6#5) hC 0#4 hA 0#5 0#5 0#5 o
  | .vneg r o hC hA => encV 101#7 (r ++ 7#5) hC 0#4 hA 0#5 0#5 0#5 o
  | .vexp r o hC hA => encV 101#7 (r ++ 8#5) hC 0#4 hA 0#5 0#5 0#5 o
  | .vlog r o hC hA => encV 101#7 (r ++ 9#5) hC 0#4 hA 0#5 0#5 0#5 o
  | .vrcp r o hC hA => encV 101#7 (r ++ 10#5) hC 0#4 hA 0#5 0#5 0#5 o
  | .vrsq r o hC hA => encV 101#7 (r ++ 11#5) hC 0#4 hA 0#5 0#5 0#5 o
  | .vtanh r o hC hA => encV 101#7 (r ++ 12#5) hC 0#4 hA 0#5 0#5 0#5 o
  | .vcmp r o hC hA hB sX => encV 101#7 (r ++ 13#5) hC hB hA sX 0#5 0#5 o
  | .vsel r o hC hA hB => encV 101#7 (r ++ 14#5) hC hB hA 0#5 0#5 0#5 o
  | .vcvt r o hC hA => encV 101#7 (r ++ 15#5) hC 0#4 hA 0#5 0#5 0#5 o
  | .vscl r o hC hA sX => encV 101#7 (r ++ 16#5) hC 0#4 hA sX 0#5 0#5 o
  | .vreds r o hC hA => encV 101#7 (r ++ 17#5) hC 0#4 hA 0#5 0#5 0#5 o
  | .vredm r o hC hA => encV 101#7 (r ++ 18#5) hC 0#4 hA 0#5 0#5 0#5 o
  | .vscan r o hC hA => encV 101#7 (r ++ 19#5) hC 0#4 hA 0#5 0#5 0#5 o
  | .stripDispatch _ => []
  | .qntQ4uni o hC hA => encE 102#7 0#7 hC 0#4 hA 0#5 0#5 0#5 o
  | .qntQ4e2m1 o hC hA => encE 102#7 4#7 hC 0#4 hA 0#5 0#5 0#5 o
  | .qntQ4pow o hC hA => encE 102#7 8#7 hC 0#4 hA 0#5 0#5 0#5 o
  | .qntQ4hyb o hC hA => encE 102#7 12#7 hC 0#4 hA 0#5 0#5 0#5 o
  | .qntQ4auto o hC hA => encE 102#7 16#7 hC 0#4 hA 0#5 0#5 0#5 o
  | .dqnt o hC hA => encE 102#7 1#7 hC 0#4 hA 0#5 0#5 0#5 o
  | .qchk o hA => encE 102#7 2#7 0#4 0#4 hA 0#5 0#5 0#5 o
  | .winit o hC sX => encE 103#7 0#7 hC 0#4 0#4 sX 0#5 0#5 o
  | .wprobe o hC hA hB => encE 103#7 1#7 hC hB hA 0#5 0#5 0#5 o
  | .wcommit o hC hA sX sY sZ => encE 103#7 2#7 hC 0#4 hA sX sY sZ o
  | .wpick o hA sY sZ => encE 103#7 3#7 0#4 0#4 hA 0#5 sY sZ o
  | .wrd o hC hA hB => encE 103#7 4#7 hC hB hA 0#5 0#5 0#5 o
  | .allred red o hC hA sX sZ => encE 104#7 (0#1 ++ red ++ 0#3) hC 0#4 hA sX 0#5 sZ o
  | .redscat red o hC hA sX sZ => encE 104#7 (0#1 ++ red ++ 1#3) hC 0#4 hA sX 0#5 sZ o
  | .allgath o hC hA sX sZ => encE 104#7 2#7 hC 0#4 hA sX 0#5 sZ o
  | .bcast o hC hA sX sY sZ => encE 104#7 3#7 hC 0#4 hA sX sY sZ o
  | .alltoall o hC hA sX sZ => encE 104#7 4#7 hC 0#4 hA sX 0#5 sZ o
  | .collectiveTimeout _ => []
  | .abort _ => []
  | .spec o sX sY sZ => encE 105#7 0#7 0#4 0#4 0#4 sX sY sZ o
  | .engineStart _ => []
  | .engineStep _ _ => []
  | .operationCompletion _ => []
  | .drain _ _ => []
  | .perform _ _ => []
  | .refresh _ _ => []
  | .pageWalk _ _ _ => []
  | .kick _ => []
  | .kickstatRead => []
  | .lookupAnswer _ => []
  | .qcbChange _ => []
  | .nop => []
  | .launch => []
  | .gangRelease _ => []
  | .controlContextStart _ => []
  | .launchComplete _ => []
  | .records => []
  | .expandRecord _ => []
  | .recordsComplete _ => []
  | .fencePacket => []
  | .signal => []
  | .serviceDrain => []
  | .serviceDrainComplete => []
  | .invalidatePage _ => []
  | .invalidatePasid _ => []
  | .invalidateAll _ => []
  | .invalidationComplete => []
  | .registerWrite _ _ _ => []
  | .bar2Read _ _ _ => []
  | .bar2Write _ _ _ => []
  | .pcieCompletion _ _ => []
  | .completionTimeout _ => []
  | .attest _ => []
  | .challenge _ => []
  | .latchkey _ => []
  | .leaseStart _ => []
  | .stage _ => []
  | .handover _ => []
  | .record _ => []
  | .reclaim _ => []
  | .reclaimRegisterWrite _ => []
  | .mbxUnknown _ _ => []
  | .firmwareCommand _ _ _ => []
  | .yield => []
  | .handoverTimeout => []
  | .dbgStop _ => []
  | .dbgGo _ => []
  | .functionLevelReset => []
  | .powerOn => []
  | .timeset _ => []
  | .timeTrim _ => []
  | .poolOwnerSet _ _ => []
  | .preemptRequest _ _ _ _ _ _ => []
  | .pointTaken _ => []
  | .pointDeclined _ => []
  | .restoreRequest _ _ => []
  | .jobFatalDiscard _ => []
  | .leaderFailover _ => []
  | .data _ => []
  | .ack _ => []
  | .nak _ => []
  | .probe _ => []
  | .replayTimeout _ _ => []
  | .feTimeout _ _ => []
  | .uncorrectableError _ => []
  | .flitReplay _ => []
  | .linkFence _ _ => []
  | .powerCap _ _ => []
  | .thermalThrottle _ => []
  | .thermalShutdown => []
  | .badpkt => []
  | .sleeptoWake _ _ => []
  | .releaseTimeReached _ => []
  | .saveComplete _ => []
  | .reclaimComplete => []
  | .mbxCommandComplete => []
  | .powerLoss => []
  | .correctedError _ => []
  | .ptpEventFrame _ _ => []

/-- The length of an instruction in words (R21, R27). -/
def Instr.len (i : Instr) : Nat := (encode i).length

/-- A word of four bytes, the first lowest (R21). -/
def wordOf (b0 b1 b2 b3 : BitVec 8) : Word := b3 ++ b2 ++ b1 ++ b0

/-- The next four bytes of a list, and the rest. -/
def takeWord : List (BitVec 8) → Option (Word × List (BitVec 8))
  | b0 :: b1 :: b2 :: b3 :: rest => some (wordOf b0 b1 b2 b3, rest)
  | _ => none

/-- Decoding of any list of bytes: the instruction at its head and the bytes after it, or
`none` where there are too few bytes or R41 calls the words illegal. -/
def decodeBytes (bs : List (BitVec 8)) : Option (Instr × List (BitVec 8)) :=
  match takeWord bs with
  | none => none
  | some (w0, r0) =>
    match wordCount w0 with
    | 1 => (decode w0 0#32 0#32).map (fun i => (i, r0))
    | 2 =>
      match takeWord r0 with
      | none => none
      | some (w1, r1) => (decode w0 w1 0#32).map (fun i => (i, r1))
    | _ =>
      match takeWord r0 with
      | none => none
      | some (w1, r1) =>
        match takeWord r1 with
        | none => none
        | some (w2, r2) => (decode w0 w1 w2).map (fun i => (i, r2))

/-- The bytes of a number, the lowest first. -/
def bytesLE : Nat → Nat → List (BitVec 8)
  | 0, _ => []
  | n + 1, w => BitVec.ofNat 8 w :: bytesLE n (w / 256)

/-- The twelve bytes of an instruction whose bits are `w`, with zeros above bit `nbits − 1`. -/
def tableBytes (nbits w : Nat) : List (BitVec 8) := bytesLE 12 (w % 2 ^ nbits)

/-- The instruction the decoder reads from an instruction whose bits are `w`. -/
def decodeTableWord (nbits w : Nat) : Option Instr :=
  (decodeBytes (tableBytes nbits w)).map Prod.fst

/-- The words of an instruction from a list: absent words are zero. -/
def decodeList (ws : List Word) : Option Instr :=
  match ws with
  | [] => none
  | w0 :: r => decode w0 (r.headD 0#32) (r.tail.headD 0#32)

/-- The illegal-instruction trap's XVAL (R41): word 0 in [31:0] and, for form E, word 1 in
[63:32]. -/
def illegalVal (w0 w1 : Word) : BitVec 64 :=
  if fld w0 5 2 == 3#2 then w1 ++ w0 else w0.zeroExtend 64

end Sys2Proof
end

