-- ==== Sys2Proof/Machine/Memory.lean ====
section
/-! DEFINITION. Accessors of the state, homes, and the ordering machine's own actions
(spec/11 R261 to R277, spec/03 R49 to R52, spec/05 R107). -/

namespace Sys2Proof.Machine
open Sys2Proof

/-! ## Accessors -/

/-- The context of key `k` (core × 16 + CTXNUM). -/
def State.ctx (s : State) (k : Nat) : Ctx := tget s.ctxs k Ctx.fresh
/-- Replaces a context. -/
def State.setCtx (s : State) (k : Nat) (c : Ctx) : State := { s with ctxs := tset k c s.ctxs }
/-- Changes a context. -/
def State.modCtx (s : State) (k : Nat) (f : Ctx → Ctx) : State := s.setCtx k (f (s.ctx k))
/-- The context that issues. -/
def State.me (s : State) : Ctx := s.ctx s.cur
/-- Changes the context that issues. -/
def State.modMe (s : State) (f : Ctx → Ctx) : State := s.modCtx s.cur f
/-- The core of a context key. -/
def coreOf (k : Nat) : Nat := k / 16
/-- CTXNUM of a context key. -/
def numOf (k : Nat) : Nat := k % 16
/-- The die of a core (R9). -/
def dieOfCore (c : Nat) : Nat := c / 64
/-- The cluster of a core, as die × 8 + cluster (R9). -/
def clusterOfCore (c : Nat) : Nat := c / 8
/-- A core's state. -/
def State.core (s : State) (c : Nat) : Core := tget s.cores c Core.fresh
/-- Replaces a core. -/
def State.setCore (s : State) (c : Nat) (x : Core) : State := { s with cores := tset c x s.cores }
/-- Changes a core. -/
def State.modCore (s : State) (c : Nat) (f : Core → Core) : State := s.setCore c (f (s.core c))
/-- A cluster's state. -/
def State.cluster (s : State) (c : Nat) : Cluster := tget s.clusters c Cluster.fresh
/-- Changes a cluster. -/
def State.modCluster (s : State) (c : Nat) (f : Cluster → Cluster) : State :=
  { s with clusters := tset c (f (s.cluster c)) s.clusters }
/-- A die's state. -/
def State.die (s : State) (d : Nat) : Die := tget s.dies d Die.fresh
/-- Changes a die. -/
def State.modDie (s : State) (d : Nat) (f : Die → Die) : State :=
  { s with dies := tset d (f (s.die d)) s.dies }
/-- The core that issues. -/
def State.myCore (s : State) : Nat := coreOf s.cur
/-- The state of the core that issues. -/
def State.mine (s : State) : Core := s.core s.myCore
/-- The die of the core that issues. -/
def State.myDie (s : State) : Nat := dieOfCore s.myCore
/-- A fresh number for an operation or request. -/
def State.fresh (s : State) : Nat × State := (s.nextId, { s with nextId := s.nextId + 1 })
/-- A free number (log 6), and the state with the counter advanced. -/
def State.free (s : State) : Nat × State :=
  (Config.freeNat s.freeCtr, { s with freeCtr := s.freeCtr + 1 })
/-- A launch by number. -/
def State.launch? (s : State) (id : Nat) : Option Launch := s.launches.find? (fun l => l.id == id)
/-- Changes a launch. -/
def State.modLaunch (s : State) (id : Nat) (f : Launch → Launch) : State :=
  { s with launches := updFirst (fun l => l.id == id) f s.launches }
/-- The launch of a core. -/
def State.launchOf (s : State) (c : Nat) : Option Launch :=
  match (s.core c).launch with
  | none => none
  | some id => s.launch? id
/-- An operation by number. -/
def State.op? (s : State) (id : Nat) : Option Op := s.ops.find? (fun o => o.id == id)
/-- Changes an operation. -/
def State.modOp (s : State) (id : Nat) (f : Op → Op) : State :=
  { s with ops := updFirst (fun o => o.id == id) f s.ops }
/-- Tells the policy core, or the host through it. -/
def State.report (s : State) (r : Report) : State := { s with reports := s.reports ++ [r] }
/-- The grade's compute dies (R13). -/
def State.ndies (s : State) : Nat := if s.fuses.c48 then 48 else 64
/-- Marks a launch job-fatal (R341); the first reason stands. -/
def State.markFatal (s : State) (id : Nat) (f : Fatal) : State :=
  s.modLaunch id (fun l => if l.fatal.isSome then l else { l with fatal := some f })

/-- Whether a launch is job-fatal: its operations are to be discarded, and none of them starts, becomes
final or is posted any more (R133, R341). -/
def launchDead (s : State) (id : Nat) : Bool := s.launches.any (fun l => l.id == id && l.fatal.isSome)

/-! ## Homes (R49 to R54) -/

/-- Home addresses of TCM start here: the core alias window (R54). -/
def tcmBase : Nat := 0xFFE00000000000
/-- Home addresses of SPM start here: the cluster alias window (R54). -/
def spmBase : Nat := 0xFFD00000000000
/-- Home addresses of the die pools start here (R54). -/
def poolBase : Nat := 0xFFC00000000000
/-- Host memory as homes: region 0x8 (R49). -/
def hostBase : Nat := 0x8000000000000
/-- Peer memory as homes: region 0x9 (R49). -/
def peerBase : Nat := 0x9000000000000
/-- The home of a TCM byte. -/
def tcmHome (core off : Nat) : Nat := tcmBase + core * 2 ^ 20 + off
/-- The home of an SPM byte; `cl` is die × 8 + cluster. -/
def spmHome (cl off : Nat) : Nat := spmBase + cl / 8 * 2 ^ 28 + cl % 8 * 2 ^ 24 + off
/-- The home of a die-pool byte. -/
def poolHome (die off : Nat) : Nat := poolBase + die * 2 ^ 28 + off
/-- The stack of an interleaved physical address (R50). -/
def stackOf (pa : Nat) : Nat := (pa / 2 ^ 11 % 32) ^^^ (pa / 2 ^ 16 % 32)
/-- The interleaved address of offset `o` on stack `st` (R51). -/
def nearToPa (st o : Nat) : Nat :=
  o / 2 ^ 11 % 2 ^ 25 * 2 ^ 16 + (st ^^^ (o / 2 ^ 11 % 32)) % 32 * 2 ^ 11 + o % 2 ^ 11
/-- The near stack of a die (R11, R51). -/
def nearStack (die : Nat) : Nat := die / 8 * 4 + die % 8 / 2
/-- The place of a home: a compute die, 64 + stack, or 96 for the host port (R52, R261). -/
def homeDie (h : Nat) : Nat :=
  if h < 2 ^ 41 then 64 + stackOf h
  else if h < poolBase then 96
  else if h < spmBase then (h - poolBase) / 2 ^ 28
  else if h < tcmBase then (h - spmBase) / 2 ^ 28
  else (h - tcmBase) / 2 ^ 20 / 64
/-- Whether a home is memory of the module (not behind the host port). -/
def isHome (h : Nat) : Bool := decide (h < 2 ^ 41) || decide (poolBase ≤ h)
/-- Whether a home carries full-empty bits: TCM and SPM (R107). -/
def hasFe (h : Nat) : Bool := decide (spmBase ≤ h)
/-- The full-empty bit of the granule of a home (R107). -/
def State.isFull (s : State) (h : Nat) : Bool := smem (h / 16) s.full
/-- Sets or clears a full-empty bit. -/
def State.setFull (s : State) (g : Nat) (b : Bool) : State :=
  { s with full := if b then sins g s.full else sdel g s.full }

/-! ## Window checks at the target (R55) -/

/-- Whether a core runs a context of a PASID at this moment (R55). -/
def coreRuns (s : State) (core pasid : Nat) : Bool :=
  (s.core core).launch.isSome && (s.core core).pasid == pasid &&
    s.ctxs.any (fun p => p.1 / 16 == core && p.2.mode != .absent)
/-- Whether a cluster holds a core with a rank of an unfinished launch of a PASID (R55). -/
def clusterRuns (s : State) (cl pasid : Nat) : Bool :=
  s.cores.any (fun p => p.1 / 8 == cl && p.2.launch.isSome && p.2.pasid == pasid)
/-- The check of R55. -/
def chkOk (s : State) (pasid : Nat) : Option Chk → Bool
  | none => true
  | some (.coreAlias c) => coreRuns s c pasid
  | some (.spmAlias cl) => clusterRuns s cl pasid
  | some (.pool d) => (s.die d).poolOwner == some pasid

/-! ## Performing at a home (R262) -/

/-- The granules a write touches. -/
def granules (h n : Nat) : List Nat :=
  (List.range ((h % 16 + n + 15) / 16)).map (fun i => h / 16 + i)

/-- Lists the old copy of a granule for a die's view, unless one is listed (R262). -/
def keepOld (s : State) (die g : Nat) : State :=
  if s.views.any (fun v => v.die == die && v.granule == g) then s
  else { s with views := s.views ++ [{ die := die, granule := g, bytes := memRead (g * 16) 16 s.mem }] }

/-- The bytes of a listed copy after a write performed at the home. -/
def overlay (gstart : Nat) (h : Nat) (bs : List Byte) : Nat → List Byte → List Byte
  | _, [] => []
  | i, b :: r =>
    let a := gstart + i
    (if h ≤ a then (bs[a - h]?).getD b else b) :: overlay gstart h bs (i + 1) r

/-- The copies listed for the writing die keep the performed value (R262). -/
def updViews (src h : Nat) (bs : List Byte) (vs : List OldView) : List OldView :=
  vs.map (fun v => if v.die == src then { v with bytes := overlay (v.granule * 16) h bs 0 v.bytes } else v)

/-- The 8-byte words of a 64-byte unit that a write of `n` bytes at `h` covers, one bit each. -/
def wordBits (h n : Nat) : Nat :=
  (List.range 8).foldl (fun m i =>
    let w := h / 64 * 64 + 8 * i
    if h ≤ w ∧ w + 8 ≤ h + n then m + 2 ^ i else m) 0

/-- A full 64-byte write clears a poison mark (R75): `unit` marks a piece of one inside one unit, and
the mark counts the words that such pieces have written. -/
def clearPoison (h n : Nat) (unit : Bool) (p : List (Nat × Nat)) : List (Nat × Nat) :=
  if unit then
    (p.map (fun e => if e.1 == h / 64 then (e.1, e.2 ||| wordBits h n) else e)).filter (fun e => e.2 != 255)
  else p

/-- Performs a write at its home (R262): the views that keep old copies (`State.keep`), the
bytes, the full-empty bits and poison marks in one action. A failed window check discards it
(R55); a write to a host or peer page is issued as a posted request (R69, R277). -/
def perform (s : State) (src pasid h : Nat) (bs : List Byte) (fill : List Nat) (chk : Option Chk)
    (unit : Bool) : State :=
  if !chkOk s pasid chk then s
  else if !isHome h then
    { s with pcieOut := s.pcieOut ++
        [{ addr := h, bytes := bs, prefix_ := if s.pasidCap then some pasid else none }] }
  else
    let s := (granules h bs.length).foldl (fun s g =>
      (s.keep.filter (fun d => d != src && d != homeDie h && decide (d < 64))).foldl
        (fun s d => keepOld s d g) s) s
    { s with
      mem := memWrite h bs s.mem
      views := updViews src h bs s.views
      full := fill.foldl (fun f g => sins g f) s.full
      poison := clearPoison h bs.length unit s.poison }

/-- The slot action that an operation which is about to end still waits for: a release_head (R121, R213). -/
def keptWant (w : Option (Nat × Nat)) : Option (Nat × Nat) := w.filter (fun a => decide (4 ≤ a.1))

/-- An operation's end is decided (R133); the first reason stands. -/
def decideEnd (f : Final) (p : Op) : Op :=
  if p.st.final || p.fin.isSome then p else { p with fin := some f, want := keptWant p.want }

/-- A write that an operation has made turns out not to be performed (R55, R71, R361): the operation ends so,
and makes no write that it still pends (R74). An end that was decided before gives way, but for a fault at
no more progress. -/
def overrideEnd (f : Final) (p : Op) : Op :=
  if p.st.final || p.fin.any (fun g => decide (g.st = .faulted) && decide (g.progress ≤ f.progress)) then p
  else { p with fin := some f, want := keptWant p.want, pend := [] }

/-- Whether a queue entry is a write of an operation at more than some progress. -/
def writeAfter (id prog : Nat) (e : QEntry) : Bool := e.op.any (fun x => x.1 == id && decide (prog < x.2.2.1))

/-- What queue entries add to the progress of the operations that wrote them. -/
def queuedCnt (es : List QEntry) : Nat := (es.map (fun e => e.op.elim 0 (fun x => x.2.2.2))).sum

/-- The window check of an operation's write fails at the target (R55, R73): the operation ends
FAULTED with cause 0x41 at the write's address, and its later writes are discarded (R74). None of them
counts in its progress. -/
def failWrite (s : State) (w : Nat × Nat × Nat × Nat) : State :=
  let f : Final := { st := .faulted, cause := 0x41, addr := w.2.1, member := 0xFFFF, progress := w.2.2.1 }
  let lost := w.2.2.2 + queuedCnt (s.outq.filter (writeAfter w.1 w.2.2.1))
  let s := s.modOp w.1 (fun o => overrideEnd f { o with prog := if o.st.final then o.prog else o.prog - lost })
  { s with outq := s.outq.filter (fun e => !writeAfter w.1 w.2.2.1 e) }

/-! ## Atomic accesses (R178, R266) -/

/-- x + y. -/
def opAdd (n : Nat) (x y : BitVec n) : BitVec n := x + y
/-- The signed smaller. -/
def opMin (n : Nat) (x y : BitVec n) : BitVec n := if y.slt x then y else x
/-- The signed larger. -/
def opMax (n : Nat) (x y : BitVec n) : BitVec n := if x.slt y then y else x
/-- The unsigned smaller. -/
def opMinu (n : Nat) (x y : BitVec n) : BitVec n := if y.ult x then y else x
/-- The unsigned larger. -/
def opMaxu (n : Nat) (x y : BitVec n) : BitVec n := if x.ult y then y else x

/-- Whether an atomic access is of 4 bytes (R178). -/
def amoNarrow : Instr → Bool
  | .amoAdd _ _ w _ _ _ => w
  | .amoAnd _ _ w _ _ _ => w
  | .amoOr _ _ w _ _ _ => w
  | .amoXor _ _ w _ _ _ => w
  | .amoMin _ _ w _ _ _ => w
  | .amoMax _ _ w _ _ _ => w
  | .amoMinu _ _ w _ _ _ => w
  | .amoMaxu _ _ w _ _ _ => w
  | .amoSwap _ _ w _ _ _ => w
  | .cas _ _ w _ _ _ => w
  | _ => false

/-- Bytes of an atomic access (R178). -/
def amoBytes (w : Bool) : Nat := if w then 4 else 8

/-- The low bits of a register for an atomic access. -/
def amoLow (w : Bool) (v : DWord) : Nat := if w then v.toNat % 2 ^ 32 else v.toNat

/-- An operation on the old value and a register, in 4 or 8 bytes. -/
def amoApply (w : Bool) (f : (n : Nat) → BitVec n → BitVec n → BitVec n) (old : Nat) (y : DWord) : Option Nat :=
  some (if w then (f 32 (BitVec.ofNat 32 old) (y.setWidth 32)).toNat else (f 64 (BitVec.ofNat 64 old) y).toNat)

/-- What an atomic access stores (R178): f of the old value and s[b]; a CAS stores s[b] when the old
value equals s[d], and otherwise nothing. -/
def amoNew (i : Instr) (y cmp : DWord) (old : Nat) : Option Nat :=
  match i with
  | .amoAdd _ _ w _ _ _ => amoApply w opAdd old y
  | .amoAnd _ _ w _ _ _ => amoApply w (fun _ a b => a &&& b) old y
  | .amoOr _ _ w _ _ _ => amoApply w (fun _ a b => a ||| b) old y
  | .amoXor _ _ w _ _ _ => amoApply w (fun _ a b => a ^^^ b) old y
  | .amoMin _ _ w _ _ _ => amoApply w opMin old y
  | .amoMax _ _ w _ _ _ => amoApply w opMax old y
  | .amoMinu _ _ w _ _ _ => amoApply w opMinu old y
  | .amoMaxu _ _ w _ _ _ => amoApply w opMaxu old y
  | .amoSwap _ _ w _ _ _ => amoApply w (fun _ _ b => b) old y
  | .cas _ _ w _ _ _ => if old = amoLow w cmp then some (amoLow w y) else none
  | _ => none

/-- The indivisible action of an atomic access at its home (R178, R179): the old value, and the state
with what it stores. -/
def amoAct (s : State) (src pasid h : Nat) (chk : Option Chk) (i : Instr) (y cmp : DWord) : Nat × State :=
  let n := amoBytes (amoNarrow i)
  let old := leNat (memRead h n s.mem)
  match amoNew i y cmp old with
  | none => (old, s)
  | some v => (old, perform s src pasid h (leBytes n v) [] chk false)

/-- Whether a read touches a poisoned unit (R75). -/
def poisoned (s : State) (a n : Nat) : Bool :=
  s.poison.any (fun p => decide (a < p.1 * 64 + 64) && decide (p.1 * 64 < a + n))

/-- A launch meets an uncorrectable error (R75, cause 0x48) through a core. -/
def poisonLaunch (s : State) (core : Nat) : State :=
  match (s.core core).launch with
  | none => s
  | some l => s.markFatal l { cause := 0x48, core := core, frec := [] }

/-- The context that waits for an atomic access gets its answer. -/
def amoAnswer (s : State) (k : Nat) (a : Option Nat) : State :=
  s.modCtx k (fun c => { c with wait := c.wait.map (fun w =>
    match w.what with
    | .atomic _ => { w with what := .atomic (some a) }
    | _ => w) })

/-- The new value of a target element of an eddy bin (R102). -/
def eddyAdd (fmt t v : Nat) : Nat :=
  match fmt with
  | 1 => (f32.add 0 t v).1
  | 2 => (bf16.add 0 t v).1
  | _ => (t + v) % 2 ^ 32

/-- Bytes of an element that an eddy bin adds to (R98). -/
def eddySize (fmt : Nat) : Nat := if fmt = 2 then 2 else 4

/-- An atomic access at the head of its queue is performed at its home (R262, R266); one that R55
stops there returns no data. -/
def performAmo (s : State) (e : QEntry) (q : AmoReq) : State :=
  match q with
  | .scalar k i y cmp _ =>
    if !chkOk s e.pasid e.chk then amoAnswer s k none
    else if poisoned s e.home (amoBytes (amoNarrow i)) then poisonLaunch s (k / 16)
    else
      let (old, s) := amoAct s e.src e.pasid e.home e.chk i y cmp
      amoAnswer s k (some old)
  | .eddy launch core fmt v =>
    let z := eddySize fmt
    if poisoned s e.home z then s.markFatal launch { cause := 0x48, core := core, frec := [] }
    else
      perform s e.src e.pasid e.home (leBytes z (eddyAdd fmt (leNat (memRead e.home z s.mem)) v)) [] e.chk false

/-- Performs a queue entry. -/
def performEntry (s : State) (e : QEntry) : State :=
  match e.amo with
  | some q => performAmo s e q
  | none =>
    match e.op with
    | none => perform s e.src e.pasid e.home e.bytes e.fill e.chk e.unit
    | some w =>
      if chkOk s e.pasid e.chk then perform s e.src e.pasid e.home e.bytes e.fill e.chk e.unit
      else failWrite s w

/-- The further pieces of a granule, at the head of the entries that a test picks, are performed; at most
`n` of them. -/
def performJoined (p : QEntry → Bool) : Nat → State → State
  | 0, s => s
  | n + 1, s =>
    match takeFirst p s.outq with
    | none => s
    | some (e, r) => if e.joined then performJoined p n (performEntry { s with outq := r } e) else s

/-- The oldest entry of the outbound queues that a test picks leaves them and is performed, with the pieces
joined to it. -/
def performFirst (p : QEntry → Bool) (s : State) : State :=
  match takeFirst p s.outq with
  | none => s
  | some (e, r) => performJoined p r.length (performEntry { s with outq := r } e)

/-- The entries that a test picks are performed, oldest first, at most `n` of them. -/
def performSome (p : QEntry → Bool) : Nat → State → State
  | 0, s => s
  | n + 1, s => performSome p n (performFirst p s)

/-- Performs every entry of a die's outbound queues, in order (R267). -/
def performAll (s : State) (die : Nat) : State := performSome (fun e => e.src == die) s.outq.length s

/-- Whether an entry is a CAS that is a release and is about to store (R180). -/
def casReleases (s : State) (e : QEntry) : Bool :=
  match e.amo with
  | some (.scalar _ i y cmp true) =>
    chkOk s e.pasid e.chk && !poisoned s e.home (amoBytes (amoNarrow i)) &&
      (amoNew i y cmp (leNat (memRead e.home (amoBytes (amoNarrow i)) s.mem))).isSome
  | _ => false

/-- The head entry of one queue is performed (R262); before a CAS that stores and releases, the older
entries of its die's other queues are (R180, R267). -/
def performHead (s : State) (src dst : Nat) : State :=
  let p (e : QEntry) : Bool := e.src == src && e.dst == dst
  let older := (s.outq.takeWhile (fun e => !p e)).filter (fun e => e.src == src && !e.joined)
  let s := if (s.outq.find? p).any (casReleases s) then performSome (fun e => e.src == src) older.length s
    else s
  performFirst p s

/-- Performs the entries of one queue in order, at most `n` of them. -/
def performHeads (src dst : Nat) : Nat → State → State
  | 0, s => s
  | n + 1, s => performHeads src dst n (performHead s src dst)

/-- Performs every entry of one queue, in order. -/
def performQueue (s : State) (src dst : Nat) : State := performHeads src dst s.outq.length s

/-- An access by a party on die `e.src`: performed at once when its home lies there, otherwise into
Q(src→dst) (R262, R266, R269). -/
def issueEntry (s : State) (e : QEntry) : State :=
  if e.dst = e.src then performEntry s e else { s with outq := s.outq ++ [e] }

/-- A write by a party on die `src` (R262). -/
def issueWrite (s : State) (src pasid h : Nat) (bs : List Byte) (fill : List Nat)
    (chk : Option Chk) (unit : Bool) : State :=
  issueEntry s { src := src, dst := homeDie h, home := h, bytes := bs, fill := fill, chk := chk,
                 pasid := pasid, unit := unit, fe := false, op := none, amo := none, joined := false }

/-- The PASID of a context's launch (R44). -/
def State.pasidOf (s : State) (k : Nat) : Nat := (s.core (coreOf k)).pasid

/-- An entry leaves the store buffer of context `k` (R262, R267); the ring table's home is on the
context's die (R126, R266). -/
def leave (k : Nat) (s : State) (e : BufEntry) : State :=
  let die := dieOfCore (coreOf k)
  match e.ring with
  | some (n, r) => s.modCluster (clusterOfCore (coreOf k)) (fun c => { c with rings := tset n r c.rings })
  | none =>
    let s := if e.rel then performAll s die else s
    issueEntry s { src := die, dst := homeDie e.home, home := e.home, bytes := e.bytes,
                   fill := if e.full then [e.home / 16] else [], chk := e.chk, pasid := s.pasidOf k,
                   unit := false, fe := e.full, op := none, amo := none, joined := false }

/-- The head of a store buffer leaves it (R262). -/
def drainHead (s : State) (k : Nat) : State :=
  match (s.ctx k).sbuf with
  | [] => s
  | e :: r => leave k (s.modCtx k (fun c => { c with sbuf := r })) e

/-- The first `n` entries of a store buffer leave it. -/
def drainN (s : State) (k : Nat) : Nat → State
  | 0 => s
  | n + 1 => drainN (drainHead s k) k n

/-- A store buffer empties. -/
def drainAll (s : State) (k : Nat) : State := drainN s k (s.ctx k).sbuf.length

/-- The effect of a release of context `k` at module scope before its access (R267). -/
def releaseModule (s : State) (k : Nat) : State := performAll (drainAll s k) (dieOfCore (coreOf k))

/-- Every granule of V_die is refreshed (R267). -/
def refreshAll (s : State) (die : Nat) : State :=
  { s with views := s.views.filter (fun v => v.die != die) }

/-- One granule of a view is refreshed (R262). -/
def refreshOne (s : State) (die g : Nat) : State :=
  { s with views := s.views.filter (fun v => !(v.die == die && v.granule == g)) }

/-! ## The host port: MSI-X, AER and service cores (R275, R354, R357) -/

/-- A double word of the MSI-X table: as it was written, or as at reset, where each vector is masked
(PRESUMED from PCI Express, log 35). -/
def msixWord (s : State) (n : Nat) : Nat := (tget s.msixTab n (if n % 2 = 1 then 0x100000000#64 else 0#64)).toNat

/-- The message of a vector goes out: a posted write of the table's data to its address (log 35). -/
def msixSend (s : State) (v : Nat) : State :=
  { s with pcieOut := s.pcieOut ++
      [{ addr := msixWord s (2 * v), bytes := leBytes 4 (msixWord s (2 * v + 1) % 2 ^ 32), prefix_ := none }] }

/-- An MSI-X vector is raised (R357): its message goes out, or it is pending while it is masked. -/
def raise (s : State) (v : Nat) : State :=
  let s := { s with msix := s.msix ++ [v] }
  if nbit (msixWord s (2 * v + 1)) 32 then { s with msixPend := sins v s.msixPend } else msixSend s v

/-- An error is logged for Advanced Error Reporting (R354): 14 completion timeout, 15 Completer Abort, 20
Unsupported Request (PRESUMED from PCI Express, log 35). -/
def aerLog (s : State) (bit : Nat) : State := { s with aer := s.aer ||| BitVec.ofNat 32 (2 ^ bit) }

/-- A request at BAR2 meets a translation or permission fault at an address: the policy core gets a fault
event (R70, R357). -/
def barFault (s : State) (a : Nat) : State := raise (s.report (.barFault a)) 1

/-- A piece of a host read gets its bytes, or none at an address that meets a fault. -/
def barPiece (s : State) (id part : Nat) (bs : Except Nat (List Byte)) : State :=
  { s with barReads := updFirst (fun b => b.id == id) (fun b =>
      match bs with
      | .ok l => { b with got := tset part l b.got }
      | .error a => { b with got := tset part [] b.got, bad := some (b.bad.getD a) }) s.barReads }

/-- A service core performs a piece of a request at its home (R275). A window's check is made here
(R55); a write that fails it is discarded, as a fault (R70). A poisoned unit gives no data, and the policy
core is told (R75). -/
def svcPerform (s : State) (r : SvcReq) : State :=
  match r.read with
  | none =>
    if !chkOk s r.pasid r.chk then barFault s r.va
    else perform s (96 + r.svc) r.pasid r.home r.bytes [] r.chk (r.part == 1)
  | some id =>
    if !chkOk s r.pasid r.chk then barPiece s id r.part (.error r.va)
    else if poisoned s r.home r.len then
      barPiece (s.report (.uncorrectable 0 (r.home / 64))) id r.part (.error r.va)
    else barPiece s id r.part (.ok (memRead r.home r.len s.mem))

/-- The oldest piece that a service core has accepted is performed (R275). -/
def svcFirst (p : SvcReq → Bool) (s : State) : State :=
  match takeFirst p s.svcq with
  | none => s
  | some (r, rest) => svcPerform { s with svcq := rest } r

/-- The oldest pieces that a test picks are performed in order, at most `n` of them. -/
def svcSome (p : SvcReq → Bool) : Nat → State → State
  | 0, s => s
  | n + 1, s => svcSome p n (svcFirst p s)

/-- Every accepted host write is performed at its home: a service drain (R275). -/
def svcDrain (s : State) : State := svcSome (fun _ => true) s.svcq.length s

/-- The effect of an acquire by a party on `die`, by scope code (R267). -/
def acquire (s : State) (die : Nat) (scope : Nat) : State :=
  if scope < 4 then s
  else if scope = 4 then refreshAll s die
  else refreshAll (svcDrain s) die

/-! ## Reading (R263) -/

/-- The byte of the youngest write of a die's queues that is pending in its view at a home: a .fes
store is not (R262, R272). -/
def pendByte (s : State) (die a : Nat) : Option Byte :=
  match s.outq.reverse.find? (fun e => e.src == die && !e.fe && decide (e.home ≤ a) &&
      decide (a < e.home + e.bytes.length)) with
  | some e => e.bytes[a - e.home]?
  | none => none

/-- The byte at a home as a party on `die` reads it: pending bytes of the die's queues, a listed
older copy, or the home (R263). -/
def viewByte (s : State) (die a : Nat) : Byte :=
  if homeDie a = die then memGet a s.mem
  else
    match pendByte s die a with
    | some b => b
    | none =>
      match s.views.find? (fun v => v.die == die && v.granule == a / 16) with
      | some v => (v.bytes[a % 16]?).getD 0#8
      | none => memGet a s.mem

/-- `n` bytes as a party on `die` reads them. -/
def viewRead (s : State) (die a : Nat) : Nat → List Byte
  | 0 => []
  | n + 1 => viewByte s die a :: viewRead s die (a + 1) n

/-- Whether [a, a + n) and [b, b + m) overlap. -/
def overlaps (a n b m : Nat) : Bool := decide (a < b + m) && decide (b < a + n)

/-- How many buffer entries, up to the youngest that a test picks, must leave. -/
def leaveUpTo (p : BufEntry → Bool) : List BufEntry → Nat
  | [] => 0
  | e :: r =>
    let n := leaveUpTo p r
    if n != 0 then n + 1 else if p e then 1 else 0

/-- How many buffer entries must leave before a load of [a, a + n) may perform: up to the
youngest that overlaps it without covering it (R263). -/
def mustLeave (a n : Nat) (es : List BufEntry) : Nat :=
  leaveUpTo (fun e => overlaps a n e.home e.bytes.length &&
    !(decide (e.home ≤ a) && decide (a + n ≤ e.home + e.bytes.length))) es

/-- The stores to a ring table entry leave the buffer of a context before it reads the entry (R263,
R266). -/
def settleRing (s : State) (k n : Nat) : State :=
  drainN s k (leaveUpTo (fun e => e.ring.any (fun x => x.1 == n)) (s.ctx k).sbuf)

/-- The bytes a load of context `k` takes from its own buffer, if one covers them (R263). -/
def forward (a n : Nat) (es : List BufEntry) : Option (List Byte) :=
  match es.reverse.find? (fun e => overlaps a n e.home e.bytes.length) with
  | none => none
  | some e =>
    if e.home ≤ a ∧ a + n ≤ e.home + e.bytes.length then some ((e.bytes.drop (a - e.home)).take n)
    else none

/-- A load of context `k` from a home of the module (R263). -/
def loadHome (s : State) (k a n : Nat) : List Byte × State :=
  let s := drainN s k (mustLeave a n (s.ctx k).sbuf)
  match forward a n (s.ctx k).sbuf with
  | some bs => (bs, s)
  | none => (viewRead s (dieOfCore (coreOf k)) a n, s)

/-- The byte that a fetch on `die` finds at a home: the pending bytes of the die's queues, or the home
(R176). -/
def codeByte (s : State) (die a : Nat) : Byte :=
  if homeDie a = die then memGet a s.mem else (pendByte s die a).getD (memGet a s.mem)

/-- Keeps, for the context's own later fetch, the bytes a store is about to change (R176). -/
def keepFetch (s : State) (die a : Nat) : Nat → List Host.Cell → List Host.Cell
  | 0, f => f
  | n + 1, f =>
    keepFetch s die (a + 1) n (if f.any (fun c => c.1 == a) then f else memPut a (codeByte s die a) f)

/-- The context's own later fetch keeps the bytes of a home as they are (R176). -/
def fetchKeep (s : State) (k h n : Nat) : State :=
  if isHome h then s.modCtx k (fun c => { c with fetchOld := keepFetch s (dieOfCore (coreOf k)) h n c.fetchOld })
  else s

/-- A store of context `k` enters its store buffer; a full buffer lets its head leave first
(R262). The entry takes the next number. -/
def enterBuf (s : State) (k : Nat) (e : BufEntry) : State :=
  let s := if 16 ≤ (s.ctx k).sbuf.length then drainHead s k else s
  let n := s.nextId
  let s := fetchKeep s k e.home e.bytes.length
  ({ s with nextId := n + 1 } : State).modCtx k (fun c => { c with sbuf := c.sbuf ++ [{ e with num := n }] })

/-- The byte a context's fetch sees (R176). -/
def fetchByte (s : State) (k a : Nat) : Byte :=
  match (s.ctx k).fetchOld.find? (fun c => c.1 == a) with
  | some c => c.2
  | none => codeByte s (dieOfCore (coreOf k)) a

end Sys2Proof.Machine
end

