-- ==== Sys2Proof/Machine/Xlate.lean ====
section
/-! DEFINITION. Address translation, windows and the checks of an address (spec/03 R53 to R73). -/

namespace Sys2Proof.Machine
open Sys2Proof

/-- Why an address cannot be used (R73): page not present, any other failure, or a page table or code
word in a poisoned unit (R75); or why it cannot be used yet: a walk is on its way (R64), or a sluice line
(R96). -/
inductive XErr where
  | notPresent
  | access
  | poison
  | later
  deriving DecidableEq, Repr

/-- The trap cause of a scalar access or fetch (R73); 0x48 stands for the uncorrectable error, which
is job-fatal and no trap (R75), and 0 for the wait, which is none either. -/
def XErr.trapCause : XErr → Nat
  | .notPresent => 0x05
  | .access => 0x04
  | .poison => 0x48
  | .later => 0

/-- The cause of a child operation's fault (R73, R75); 0 is the wait. -/
def XErr.opCause : XErr → Nat
  | .notPresent => 0x40
  | .access => 0x41
  | .poison => 0x48
  | .later => 0

/-- What an access does (R63). -/
inductive Access where
  | load | store | amo | fetch | spec
  deriving DecidableEq, Repr

/-- Where an address leads. -/
inductive Place where
  /-- A byte with a home in the module, and the check made again at the target (R55). -/
  | home (h : Nat) (chk : Option Chk)
  /-- A sluice window of a die and the offset in it (R54). -/
  | sluice (die w off : Nat)
  /-- A far window and the offset in it (R54). -/
  | far (w off : Nat)
  /-- A host or peer page (R49, R69), with the page's PEER attribute. -/
  | pcie (h : Nat) (peer : Bool)
  deriving DecidableEq, Repr

/-- Which TLBs an access goes through (R64): a core's, a cluster's, or a die's; the Headgate and
the service cores walk the tables afresh (log 13). -/
inductive TlbLevel where
  | core (c : Nat)
  | cluster (cl : Nat)
  | die (d : Nat)
  | io
  deriving DecidableEq, Repr

/-! ## Page tables (R59 to R62) -/

/-- Whether a page table entry with V = 1 at a level is well formed (R62). Region 0x0 has PA[47:41]
zero (R49). -/
def pteOk (s : State) (level : Nat) (e : Nat) : Bool :=
  let leaf := nbit e 1
  let pa := nbits e 12 40 * 4096
  let region := pa / 2 ^ 48
  let size := if level = 2 then 31 else if level = 3 then 25 else 19
  nbits e 58 6 == 0 && nbits e 8 4 == 0 &&
  (if leaf then
    level != 1 && pa % 2 ^ size == 0 && !(nbit e 3 && !nbit e 2) && !(nbit e 5 && nbit e 6) &&
    !(nbit e 5 && pa / 2 ^ 36 != 0) && !(!nbit e 5 && nbits e 52 6 != 0) &&
    (!nbit e 5 || decide (nbits e 52 6 < s.ndies)) &&
    (nbit e 5 || pa / 2 ^ 41 == 0 || region == 8 || region == 9)
   else level != 4 && nbits e 2 10 == 0 && nbits e 52 12 == 0 && pa / 2 ^ 41 == 0)

/-- The index of a level's table (R60). -/
def ptIndex (level va : Nat) : Nat :=
  match level with
  | 1 => nbits va 43 13
  | 2 => nbits va 31 12
  | 3 => nbits va 25 6
  | _ => nbits va 19 6

/-- The page size of a leaf at a level, as a power of two (R60). -/
def leafSize (level : Nat) : Nat := if level = 2 then 31 else if level = 3 then 25 else 19

/-- Reads 8 bytes at a physical address of region 0x0, at the home (R66). -/
def read8 (s : State) (pa : Nat) : Nat := leNat (memRead pa 8 s.mem)

/-- The part of an address that selects a table of a level. -/
def ptPrefix (level va : Nat) : Nat :=
  match level with
  | 2 => va / 2 ^ 43
  | 3 => va / 2 ^ 31
  | _ => va / 2 ^ 25

/-- The walk from a level's table down, at most `fuel` levels: a leaf with its size and the
pointers read (R60, R62, R66). -/
def walkFrom (s : State) (pasid va : Nat) : Nat → (level table : Nat) → List PtrEnt →
    Except XErr (Nat × Nat) × List PtrEnt
  | 0, _, _, ps => (.error .access, ps)
  | fuel + 1, level, table, ps =>
    let a := table + 8 * ptIndex level va
    let e := read8 s a
    if poisoned s a 8 then (.error .poison, ps)
    else if !nbit e 0 then (.error .notPresent, ps)
    else if !pteOk s level e then (.error .access, ps)
    else if nbit e 1 then (.ok (e, leafSize level), ps)
    else
      let t := nbits e 12 40 * 4096
      walkFrom s pasid va fuel (level + 1) t
        (ps ++ [{ pasid := pasid, level := level + 1, va := ptPrefix (level + 1) va, table := t }])

/-- The level-1 table of a PASID from the directory (R59). -/
def dirRoot (s : State) (pasid : Nat) : Except XErr Nat :=
  if s.pdircount.toNat ≤ pasid then .error .access
  else
    let a := s.pdirbase.toNat + 16 * pasid
    let lo := read8 s a
    let hi := read8 s (a + 8)
    if poisoned s a 16 then .error .poison
    else if !nbit lo 0 then .error .access
    else if hi != 0 || nbits lo 52 12 != 0 || nbits lo 1 11 != 0 then .error .access
    else if nbits lo 41 11 != 0 then .error .access
    else .ok (nbits lo 12 40 * 4096)

/-- A pointer the walker holds for a level (R64). -/
def ptrFind (d : Die) (pasid va level : Nat) : Option Nat :=
  (d.ptrs.find? (fun p => p.pasid == pasid && p.level == level && p.va == ptPrefix level va)).map
    PtrEnt.table

/-- A whole walk, from the deepest pointer the walker's cache holds (R60, R64). -/
def walk (s : State) (die pasid va : Nat) : Except XErr (Nat × Nat) × List PtrEnt :=
  let d := s.die die
  match ptrFind d pasid va 4 with
  | some t => walkFrom s pasid va 1 4 t []
  | none =>
    match ptrFind d pasid va 3 with
    | some t => walkFrom s pasid va 2 3 t []
    | none =>
      match ptrFind d pasid va 2 with
      | some t => walkFrom s pasid va 3 2 t []
      | none =>
        match dirRoot s pasid with
        | .error e => (.error e, [])
        | .ok t => walkFrom s pasid va 4 1 t []

/-! ## Translation caches (R64, R65) -/

/-- A TLB's entry for an address. -/
def tlbFind (l : List TlbEnt) (pasid va : Nat) : Option TlbEnt :=
  l.find? (fun e => e.pasid == pasid && va / 2 ^ e.size == e.va / 2 ^ e.size)

/-- An entry enters a TLB of `cap` entries; the oldest leaves (log 9). -/
def tlbPut (cap : Nat) (e : TlbEnt) (l : List TlbEnt) : List TlbEnt :=
  let l := l ++ [e]
  if cap < l.length then l.drop 1 else l

/-- A cluster's translation, filling its TLB from its die's, or from a walk. A leaf that passes R62 is
cached whatever the access then meets; one whose access R63 or R69 refuses stays cached until it
leaves the TLB or an invalidation drops it (DESIGN CHOICE, log 9). -/
def fillDie (s : State) (die pasid va : Nat) : Except XErr TlbEnt × State :=
  match tlbFind (s.die die).tlb pasid va with
  | some e => (.ok e, s)
  | none =>
    match walk s die pasid va with
    | (.error e, ps) => (.error e, s.modDie die (fun d => { d with ptrs := d.ptrs ++ ps }))
    | (.ok (leaf, size), ps) =>
      let e : TlbEnt := { pasid := pasid, va := va / 2 ^ size * 2 ^ size, size := size, leaf := dw leaf }
      (.ok e, s.modDie die (fun d => { d with ptrs := d.ptrs ++ ps, tlb := tlbPut 8192 e d.tlb }))

/-- As `fillDie`, through a cluster's TLB. -/
def fillCluster (s : State) (cl pasid va : Nat) : Except XErr TlbEnt × State :=
  match tlbFind (s.cluster cl).tlb pasid va with
  | some e => (.ok e, s)
  | none =>
    match fillDie s (cl / 8) pasid va with
    | (.error e, s) => (.error e, s)
    | (.ok e, s) => (.ok e, s.modCluster cl (fun c => { c with tlb := tlbPut 512 e c.tlb }))

/-- As `fillCluster`, through a core's micro-TLB. -/
def fillCore (s : State) (c pasid va : Nat) : Except XErr TlbEnt × State :=
  match tlbFind (s.core c).utlb pasid va with
  | some e => (.ok e, s)
  | none =>
    match fillCluster s (clusterOfCore c) pasid va with
    | (.error e, s) => (.error e, s)
    | (.ok e, s) => (.ok e, s.modCore c (fun x => { x with utlb := tlbPut 16 e x.utlb }))

/-- A walk from the directory that fills no cache. -/
def freshWalk (s : State) (pasid va : Nat) : Except XErr TlbEnt :=
  match dirRoot s pasid with
  | .error e => .error e
  | .ok t =>
    match walkFrom s pasid va 4 1 t [] with
    | (.error e, _) => .error e
    | (.ok (leaf, size), _) =>
      .ok { pasid := pasid, va := va / 2 ^ size * 2 ^ size, size := size, leaf := dw leaf }

/-- The translation of a paged address with the walk it needs (R59 to R65): where a walk has ended, and
for accesses whose moment is one action (log 9). -/
def translateNow (s : State) (lv : TlbLevel) (pasid va : Nat) : Except XErr TlbEnt × State :=
  match lv with
  | .core c => fillCore s c pasid va
  | .cluster cl => fillCluster s cl pasid va
  | .die d => fillDie s d pasid va
  | .io => (freshWalk s pasid va, s)

/-! ## The walker (R64, R68) -/

/-- The core that stands for a level of TLBs, and the level's number in a walk. -/
def TlbLevel.asker : TlbLevel → Nat × Nat
  | .core c => (c, 0)
  | .cluster cl => (cl * 8, 1)
  | .die d => (d * 64, 2)
  | .io => (0, 0)

/-- The TLBs that a walk's result is cached in. -/
def WalkEnt.level (w : WalkEnt) : TlbLevel :=
  match w.lv with
  | 0 => .core w.core
  | 1 => .cluster (clusterOfCore w.core)
  | _ => .die (dieOfCore w.core)

/-- Whether some TLB on the way from a level to its die holds a translation. -/
def tlbHit (s : State) (lv : TlbLevel) (pasid va : Nat) : Bool :=
  let held (l : List TlbEnt) : Bool := (tlbFind l pasid va).isSome
  match lv with
  | .core c => held (s.core c).utlb || held (s.cluster (clusterOfCore c)).tlb || held (s.die (dieOfCore c)).tlb
  | .cluster cl => held (s.cluster cl).tlb || held (s.die (cl / 8)).tlb
  | .die d => held (s.die d).tlb
  | .io => true

/-- Whether a walk is of a PASID and the 512 KiB region of an address (R64). -/
def WalkEnt.covers (w : WalkEnt) (pasid va : Nat) : Bool := w.pasid == pasid && w.va / 2 ^ 19 == va / 2 ^ 19

/-- A miss asks its die's walker for a translation (R64): it merges with a walk in flight or queued for
the same PASID and 512 KiB region, starts while fewer than 128 are in flight, and otherwise queues
in arrival order. -/
def askWalk (s : State) (lv : TlbLevel) (want : Bool) (pasid va : Nat) : State :=
  let join (p : WalkEnt → Bool) (l : List WalkEnt) : List WalkEnt :=
    updFirst p (fun w => { w with want := w.want || want }) l
  let fresh (w : WalkEnt) : Bool := w.covers pasid va && !w.stale
  let e : WalkEnt :=
    { pasid := pasid, va := va, core := lv.asker.1, lv := lv.asker.2, want := want, stale := false }
  s.modDie (dieOfCore lv.asker.1) (fun d =>
    if d.walks.any fresh then { d with walks := join fresh d.walks }
    else if d.walkq.any (fun w => w.covers pasid va) then
      { d with walkq := join (fun w => w.covers pasid va) d.walkq }
    else if d.walks.length < 128 then { d with walks := d.walks ++ [e] }
    else { d with walkq := d.walkq ++ [e] })

/-- A miss at every level (R64): the access waits for a walk. One whose walk has ended without caching
anything gets its result now, uncached where an invalidation matched it (R65, R68). -/
def missed (s : State) (lv : TlbLevel) (pasid va : Nat) : Except XErr TlbEnt × State :=
  let die := dieOfCore lv.asker.1
  match takeFirst (fun w : WalkEnt => w.covers pasid va) (s.die die).walked with
  | none => (.error .later, askWalk s lv true pasid va)
  | some (w, r) =>
    let s := s.modDie die (fun d => { d with walked := r })
    if w.stale then ((translateNow s lv pasid va).1, s) else translateNow s lv pasid va

/-- The translation of a paged address (R59 to R65), `now` in one action or by way of the walker. -/
def translate (now : Bool) (s : State) (lv : TlbLevel) (pasid va : Nat) : Except XErr TlbEnt × State :=
  if now || tlbHit s lv pasid va then translateNow s lv pasid va else missed s lv pasid va

/-- A walk in flight has ended: the first that queues takes its place (R64). -/
def nextWalk (rest : List WalkEnt) (d : Die) : Die :=
  match d.walkq with
  | [] => { d with walks := rest }
  | w :: q => { d with walks := rest ++ [w], walkq := q }

/-- A walk that caches nothing is kept for an access that waits for it. -/
def keepWalk (s : State) (w : WalkEnt) : State :=
  if w.want then
    s.modDie (dieOfCore w.core) (fun d =>
      if d.walked.any (fun x => x.covers w.pasid w.va) then d else { d with walked := d.walked ++ [w] })
  else s

/-- A walk ends: its leaf is cached at every level on the way of the access that asked, unless an
invalidation matched it or it failed (R64, R65, R68). -/
def endWalk (s : State) (w : WalkEnt) : State :=
  if w.stale then keepWalk s w
  else
    match translateNow s w.level w.pasid w.va with
    | (.ok _, s) => s
    | (.error _, s) => keepWalk s w

/-- The permission check of R63. -/
def permOk (a : Access) (leaf : Nat) : Bool :=
  let r := nbit leaf 2
  let w := nbit leaf 3
  let x := nbit leaf 4
  let code := nbit leaf 7
  match a with
  | .load => r
  | .store => w && !code
  | .amo => r && w && !code
  | .fetch => x
  | .spec => w && code

/-- The home a leaf gives an address (R49 to R51, R69). -/
def leafPlace (e : TlbEnt) (va : Nat) : Except XErr Place :=
  let leaf := e.leaf.toNat
  let off := va % 2 ^ e.size
  let pa := nbits leaf 12 40 * 4096 + off
  if nbit leaf 5 then .ok (.home (nearToPa (nearStack (nbits leaf 52 6)) (pa % 2 ^ 36)) none)
  else
    match pa / 2 ^ 48 with
    | 0 => .ok (.home pa none)
    | 8 => .ok (.pcie pa (nbit leaf 6))
    | 9 => if nbit leaf 6 then .ok (.pcie pa true) else .error .access
    | _ => .error .access

/-- The place of a paged address, `now` or by way of the walker; the window area is never translated
(R54). -/
def pagedBy (now : Bool) (s : State) (lv : TlbLevel) (pasid : Nat) (a : Access) (va : Nat) :
    Except XErr Place × State :=
  if va / 2 ^ 56 != 0 || va / 2 ^ 48 == 0xFF then (.error .access, s) else
  match translate now s lv pasid va with
  | (.error e, s) => (.error e, s)
  | (.ok e, s) =>
    if !permOk a e.leaf.toNat then (.error .access, s)
    else (leafPlace e va, s)

/-- The place of a paged address for accesses that need every one of some rights, `now` or by way of the
walker (R63). -/
def pagedFor (now : Bool) (s : State) (lv : TlbLevel) (pasid : Nat) (as : List Access) (va : Nat) :
    Except XErr Place × State :=
  if va / 2 ^ 56 != 0 || va / 2 ^ 48 == 0xFF then (.error .access, s) else
  match translate now s lv pasid va with
  | (.error e, s) => (.error e, s)
  | (.ok e, s) => (if as.all (fun a => permOk a e.leaf.toNat) then leafPlace e va else .error .access, s)

/-- The place of a paged address, by way of the walker (R64). -/
abbrev paged (s : State) (lv : TlbLevel) (pasid : Nat) (a : Access) (va : Nat) : Except XErr Place × State :=
  pagedBy false s lv pasid a va

/-- The place of a paged address in one action (log 9). -/
abbrev pagedNow (s : State) (lv : TlbLevel) (pasid : Nat) (a : Access) (va : Nat) : Except XErr Place × State :=
  pagedBy true s lv pasid a va

/-! ## Windows (R54, R55) -/

/-- Whether an address lies in the window area (R54). -/
def inWindows (va : Nat) : Bool := va / 2 ^ 48 == 0xFF

/-- Whether an address lies in the private TCM window's span (R54). -/
def inTcm (va : Nat) : Bool := va / 2 ^ 32 == 0xFFF000
/-- Whether an address lies in the own SPM window's span (R54). -/
def inSpm (va : Nat) : Bool := va / 2 ^ 32 == 0xFFF100
/-- Whether an address lies in the core alias or cluster alias area (R54). -/
def inAlias (va : Nat) : Bool := va / 2 ^ 40 == 0xFFE0 || va / 2 ^ 40 == 0xFFD0

/-- The window of an address of the window area, as `core` denotes it (R54, R57), for an access
of `n` bytes; `none` is an access fault. Sluice and far windows bound their bytes elsewhere. -/
def window (s : State) (core va n : Nat) : Option Place :=
  let off32 := va % 2 ^ 32
  if inTcm va then
    if off32 + n ≤ 131072 then some (.home (tcmHome core off32) none) else none
  else if inSpm va then
    if off32 + n ≤ 2097152 then some (.home (spmHome (clusterOfCore core) off32) none) else none
  else if va / 2 ^ 32 == 0xFFE000 then
    let c := va / 2 ^ 20 % 4096
    if c < s.ndies * 64 ∧ va % 2 ^ 20 + n ≤ 131072 then
      some (.home (tcmHome c (va % 2 ^ 20)) (some (.coreAlias c)))
    else none
  else if va / 2 ^ 34 == 0x3FF400 then
    let d := va / 2 ^ 28 % 64
    let cl := va / 2 ^ 24 % 16
    if d < s.ndies ∧ cl < 8 ∧ va % 2 ^ 24 + n ≤ 2097152 then
      some (.home (spmHome (d * 8 + cl) (va % 2 ^ 24)) (some (.spmAlias (d * 8 + cl))))
    else none
  else if va / 2 ^ 34 == 0x3FF000 then
    let d := va / 2 ^ 28 % 64
    if d < s.ndies ∧ va % 2 ^ 28 + n ≤ 67108864 then
      some (.home (poolHome d (va % 2 ^ 28)) (some (.pool d)))
    else none
  else if va / 2 ^ 44 == 0xFFB then
    let d := va / 2 ^ 38 % 64
    if d < s.ndies then some (.sluice d (va / 2 ^ 32 % 64) off32) else none
  else if va / 2 ^ 40 == 0xFFA0 then some (.far (va / 2 ^ 32 % 256) off32)
  else none

/-- The place of an address, R72 from the window step on: windows, translation and permission. The
window PASID is checked when the access reaches the window's memory (R55): for a load that is now;
a store or atomic access carries the check to its home. A write to a sluice window and an access
of a core to a far window fault (R55). -/
def locateBy (now : Bool) (s : State) (lv : TlbLevel) (core pasid : Nat) (a : Access) (va n : Nat) :
    Except XErr Place × State :=
  if va / 2 ^ 56 != 0 then (.error .access, s)
  else if inWindows va then
    match window s core va n with
    | none => (.error .access, s)
    | some (.home h chk) => if a != .load || chkOk s pasid chk then (.ok (.home h chk), s) else (.error .access, s)
    | some (.sluice d w off) => if a = .load then (.ok (.sluice d w off), s) else (.error .access, s)
    | some p => (.ok p, s)
  else pagedBy now s lv pasid a va

/-- The place of an address, by way of the walker (R64). -/
abbrev locate (s : State) (lv : TlbLevel) (core pasid : Nat) (a : Access) (va n : Nat) :
    Except XErr Place × State :=
  locateBy false s lv core pasid a va n

/-- The place of an address in one action (log 9). -/
abbrev locateNow (s : State) (lv : TlbLevel) (core pasid : Nat) (a : Access) (va n : Nat) :
    Except XErr Place × State :=
  locateBy true s lv core pasid a va n

/-! ## Scalar accesses (R72, R73) -/

/-- Whether an address falls in the context's own TCM or cluster SPM, which the compute phase
allows (R58). -/
def phaseOk (s : State) (core va : Nat) : Bool := (s.core core).ph != 1#2 || inTcm va || inSpm va

/-- The outcome of the checks of a scalar access: a place, or a trap's cause (R72, R73). -/
def scalarPlace (s : State) (k : Nat) (a : Access) (va : DWord) (n align : Nat) :
    Except Nat Place × State :=
  let core := coreOf k
  let va := va.toNat
  if va / 2 ^ 56 != 0 then (.error 0x04, s)
  else if va % align != 0 then (.error 0x03, s)
  else if !phaseOk s core va then (.error 0x06, s)
  else
    match locate s (.core core) core (s.pasidOf k) a va n with
    | (.error e, s) => (.error e.trapCause, s)
    | (.ok (.far _ _), s) => (.error 0x04, s)
    | (.ok p, s) => (.ok p, s)

/-! ## Fetch (R22, R56) -/

/-- A request of the Headgate, an engine, a fetch or a post for `n` bytes of a host or peer page: what
has come of it, or the state with the request made (R69). -/
def ioPcie (s : State) (owner : IoOwner) (pasid h n va : Nat) : Option (Option (List Byte)) × State :=
  match s.ioGot.find? (fun p => p.owner == owner && p.addr == h) with
  | some p => (some p.bytes, s)
  | none =>
    if s.pcieReads.any (fun r => r.addr == h && r.owner == owner) then (none, s)
    else
      let (id, s) := s.fresh
      (none, { s with pcieReads := s.pcieReads ++ [{ id := id, owner := owner, addr := h, size := n,
                                                       va := dw va, pasid := pasid, tagged := s.pasidCap }] })

/-- The answers kept for an owner are given up. -/
def ioClear (s : State) (owner : IoOwner) : State :=
  { s with ioGot := s.ioGot.filter (fun p => p.owner != owner) }

/-- What a cluster's save or restore has read, of range lists or an image, is given up. -/
def saveClear (s : State) (cl : Nat) : State :=
  let s := ioClear s (.save cl)
  { s with dies := s.dies.map (fun d =>
      (d.1, { d.2 with windows := d.2.windows.map (fun w =>
          (w.1, { w.2 with lines := w.2.lines.filter (fun l => l.owner != .save cl) })) })) }

/-- The place of a fetched word: an X page, or the private TCM window (R56), which a compute phase keeps it to
(R58, R73). An address that is no multiple of 4, which R21 rules out, would be misaligned (log 10). -/
def fetchHome (s : State) (k va : Nat) : Except Nat Place × State :=
  let core := coreOf k
  if va % 4 != 0 then (.error 0x03, s)
  else if va / 2 ^ 56 != 0 then (.error 0x04, s)
  else if !phaseOk s core va then (.error 0x06, s)
  else if inWindows va then
    if inTcm va ∧ va % 2 ^ 32 + 4 ≤ 131072 then (.ok (.home (tcmHome core (va % 2 ^ 32)) none), s)
    else (.error 0x04, s)
  else
    match paged s (.core core) (s.pasidOf k) .fetch va with
    | (.error e, s) => (.error e.trapCause, s)
    | (.ok p, s) => (.ok p, s)

/-- A word at a home as a context's fetch sees it (R176). -/
def fetchAt (s : State) (k h : Nat) : Word :=
  BitVec.ofNat 32 (leNat [fetchByte s k h, fetchByte s k (h + 1), fetchByte s k (h + 2),
    fetchByte s k (h + 3)])

/-- The word at an address, or the fetch trap's cause (R22, R73): 0 while a request to a host or peer
page, or a walk, is outstanding (R56, R64, R69), and 0x48 for a poisoned unit (R75). -/
def fetchWord (s : State) (k va : Nat) : Except Nat Word × State :=
  match fetchHome s k va with
  | (.error c, s) => (.error c, s)
  | (.ok (.home h _), s) => if poisoned s h 4 then (.error 0x48, s) else (.ok (fetchAt s k h), s)
  | (.ok (.pcie h _), s) =>
    match ioPcie s (.fetch k) (s.pasidOf k) h 4 va with
    | (some (some bs), s) => (.ok (BitVec.ofNat 32 (leNat (bs.take 4))), s)
    | (some none, s) => (.error 0x04, s)
    | (none, s) => (.error 0, s)
  | (.ok _, s) => (.error 0x04, s)

/-- `n` more words from an address on: the words, or the cause and the address that faulted. -/
def fetchMore (s : State) (k : Nat) : Nat → Nat → Except (Nat × Nat) (List Word) × State
  | 0, _ => (.ok [], s)
  | n + 1, va =>
    match fetchWord s k (va % 2 ^ 64) with
    | (.error c, s) => (.error (c, va % 2 ^ 64), s)
    | (.ok w, s) =>
      match fetchMore s k n (va + 4) with
      | (.error e, s) => (.error e, s)
      | (.ok ws, s) => (.ok (w :: ws), s)

/-- All words of the instruction at an address (R22): fetched before it is decoded. -/
def fetchInstr (s : State) (k va : Nat) : Except (Nat × Nat) (List Word) × State :=
  match fetchWord s k va with
  | (.error c, s) => (.error (c, va), s)
  | (.ok w, s) =>
    match fetchMore s k (wordCount w - 1) (va + 4) with
    | (.error e, s) => (.error e, s)
    | (.ok ws, s) => (.ok (w :: ws), s)

end Sys2Proof.Machine
end

