-- ==== Sys2Proof/Machine/Handles.lean ====
section
/-! DEFINITION. Tensor handles: fields, the checks of R88, and the addresses of elements
(spec/04 R76 to R89). -/

namespace Sys2Proof.Machine
open Sys2Proof

/-- Bits [lo + n − 1 : lo] of a handle. -/
def hf (h : HWord) (lo n : Nat) : Nat := (h.extractLsb' lo n).toNat

/-! ## Fields (R76, R79) -/

/-- TYPE. -/
def hType (h : HWord) : Nat := hf h 60 4
/-- FMT. -/
def hFmt (h : HWord) : Nat := hf h 56 4
/-- BASE. -/
def hBase (h : HWord) : Nat := hf h 0 56
/-- ROWS. -/
def hRows (h : HWord) : Nat := hf h 64 16
/-- COLS. -/
def hCols (h : HWord) : Nat := hf h 80 16
/-- Elements of a view. -/
def hCount (h : HWord) : Nat := hRows h * hCols h
/-- STRIDE. -/
def hStride (h : HWord) : Nat := hf h 96 24
/-- TRL. -/
def hTrl (h : HWord) : Bool := hf h 120 1 == 1
/-- MASK. -/
def hMask (h : HWord) : Bool := hf h 121 1 == 1
/-- TRN. -/
def hTrn (h : HWord) : Bool := hf h 122 1 == 1
/-- FEW. -/
def hFew (h : HWord) : Bool := hf h 123 1 == 1
/-- ZDT. -/
def hZdt (h : HWord) : Bool := hf h 124 1 == 1
/-- OROW of a DENSE or QTILE handle. -/
def hOrow (h : HWord) : Nat := hf h 128 32
/-- OCOL of a DENSE or QTILE handle. -/
def hOcol (h : HWord) : Nat := hf h 160 32
/-- VROWS of a DENSE or QTILE handle. -/
def hVrows (h : HWord) : Nat := hf h 192 16
/-- VCOLS of a DENSE or QTILE handle. -/
def hVcols (h : HWord) : Nat := hf h 208 16
/-- POS of a CMPSP handle, BPTR of a BLKSP handle, TIEADDR of a WEIR handle. -/
def hAddr2 (h : HWord) : Nat := hf h 128 56
/-- CRD of a CMPSP handle, BCOL of a BLKSP handle. -/
def hAddr3 (h : HWord) : Nat := hf h 192 56
/-- L0 of a CMPSP handle, BSZ of a BLKSP handle. -/
def hL0 (h : HWord) : Nat := hf h 184 4
/-- L1 of a CMPSP handle. -/
def hL1 (h : HWord) : Nat := hf h 188 4
/-- IW of a CMPSP handle. -/
def hIw (h : HWord) : Nat := hf h 248 8
/-- SLOTS of a RING handle. -/
def hSlots (h : HWord) : Nat := hf h 128 16
/-- SLOTSZ of a RING handle. -/
def hSlotsz (h : HWord) : Nat := hf h 144 16
/-- RNUM of a RING handle. -/
def hRnum (h : HWord) : Nat := hf h 160 5
/-- WNUM of a WINDOW handle. -/
def hWnum (h : HWord) : Nat := hf h 128 6
/-- TIE of a WEIR handle. -/
def hTie (h : HWord) : Bool := hf h 184 1 == 1

/-- A word of a handle. -/
def hWord (h : HWord) (w : BitVec 2) : DWord := h.extractLsb' (64 * w.toNat) 64

/-- A handle from its four words, word 0 first. -/
def hMake (w0 w1 w2 w3 : DWord) : HWord := w3 ++ w2 ++ w1 ++ w0

/-- A handle with one word replaced. -/
def hSetWord (h : HWord) (w : BitVec 2) (v : DWord) : HWord :=
  hMake (if w = 0#2 then v else hWord h 0#2) (if w = 1#2 then v else hWord h 1#2)
    (if w = 2#2 then v else hWord h 2#2) (if w = 3#2 then v else hWord h 3#2)

/-- A handle with BASE replaced. -/
def hSetBase (h : HWord) (b : Nat) : HWord :=
  hSetWord h 0#2 ((hWord h 0#2).extractLsb' 56 8 ++ BitVec.ofNat 56 b)

/-- A handle from 32 bytes. -/
def hOfBytes (bs : List Byte) : HWord := BitVec.ofNat 256 (leNat bs)

/-! ## Sizes and windows -/

/-- Bytes of an element by FMT code (R78); 0 for q4 and reserved codes. -/
def esize : Nat → Nat
  | 0 => 8
  | 1 => 4
  | 2 => 2
  | 3 => 2
  | 4 => 1
  | 5 => 1
  | 6 => 1
  | 8 => 4
  | _ => 0

/-- The parts of the address space a handle's address may name (R54). -/
inductive Win where
  | paged | tcm | spm | alias_ | spmAlias | pool | sluice | far | none
  deriving DecidableEq, Repr

/-- The window of an address (R54). -/
def winOf (va : Nat) : Win :=
  if !inWindows va then .paged
  else if inTcm va then .tcm
  else if inSpm va then .spm
  else if va / 2 ^ 32 == 0xFFE000 then .alias_
  else if va / 2 ^ 34 == 0x3FF400 then .spmAlias
  else if va / 2 ^ 34 == 0x3FF000 then .pool
  else if va / 2 ^ 44 == 0xFFB then .sluice
  else if va / 2 ^ 40 == 0xFFA0 then .far
  else .none

/-- The side of a BLKSP block (R84). -/
def blkSide (h : HWord) : Nat := 4 * 2 ^ hL0 h

/-! ## R88 -/

/-- The reserved bits of words 1 to 3 (R76, R79), and word 3 with MASK = 0. -/
def hReservedOk (h : HWord) : Bool :=
  hf h 125 3 == 0 &&
  match hType h with
  | 1 => hf h 224 32 == 0 && (hMask h || hf h 192 64 == 0)
  | 3 => hf h 224 32 == 0 && (hMask h || hf h 192 64 == 0)
  | 2 => hf h 165 27 == 0 && hf h 192 64 == 0
  | 4 => hf h 188 4 == 0 && hf h 248 8 == 0
  | 5 => true
  | 6 => hf h 134 58 == 0 && hf h 192 64 == 0
  | _ => hf h 185 7 == 0 && hf h 192 64 == 0

/-- FMT codes of dense elements (R88). -/
def fmtStd (f : Nat) : Bool := decide (f ≤ 6) || f == 8

/-- FMT allowed by type (R88). -/
def hFmtOk (h : HWord) : Bool :=
  let f := hFmt h
  match hType h with
  | 2 => fmtStd f || f == 9
  | 3 => f == 9
  | 6 => decide (f ≤ 3) || f == 8
  | 7 => f == 1
  | _ => fmtStd f

/-- Flags allowed by type (R88): ZDT, FEW, TRN, MASK, TRL as bits [60:56] of word 1. -/
def hFlagsOk (h : HWord) : Bool :=
  let fl := hf h 120 5
  let allowed := match hType h with
    | 1 => 14
    | 2 => 9
    | 3 => 11
    | 4 => 8
    | 5 => 24
    | _ => 0
  fl &&& allowed == fl

/-- The shape rules (R82 to R87, R88 reason 6). -/
def hShapeOk (h : HWord) : Bool :=
  let t := hType h
  hRows h != 0 && (hCols h != 0 || t == 7) &&
  match t with
  | 1 => decide (hOcol h + (if hTrn h then hRows h else hCols h) ≤ hStride h)
  | 2 =>
    let need := if hFmt h = 9 then hRows h * (hStride h / 32) * 17 else hRows h * hStride h * esize (hFmt h)
    hSlots h != 0 && decide (hCols h ≤ hStride h) &&
      (hFmt h != 9 || (hCols h % 32 == 0 && hStride h % 32 == 0)) && decide (need ≤ hSlotsz h * 64)
  | 3 => hCols h % 32 == 0 && hOcol h % 32 == 0 && hStride h % 32 == 0 &&
      (!hTrl h || (hOrow h == 0 && hOcol h == 0 && hStride h == hCols h))
  | 4 => hStride h == 0 && (decide (3 < hL0 h) || (hRows h % blkSide h == 0 && hCols h % blkSide h == 0))
  | 6 => hBase h / 2 ^ 32 % 64 == hWnum h
  | 7 => hRows h == 1 && hStride h == 0
  | _ => true

/-- Alignment and windows (R88 reason 8). A CMPSP handle whose IW is above 1 is held to entries of 4 bytes here,
before reason 10 refuses it (DESIGN CHOICE, log 43: R88 does not give that entry size). A WEIR's BASE and TIEADDR
that are not 64-byte aligned (R87), and a BASE in the window area but in no span of R54, have reason 8 (DESIGN
CHOICE, log 47: R88 speaks of the entry size and of windows that the type does not allow). -/
def hPlaceOk (h : HWord) : Bool :=
  let b := hBase h
  let w := winOf b
  let e := esize (hFmt h)
  let mem := w != .none && w != .sluice
  match hType h with
  | 1 => b % e == 0 && mem
  | 3 => mem
  | 2 => b % 64 == 0 && (w == .tcm || w == .spm)
  | 4 => b % e == 0 && w == .paged && hAddr2 h % 4 == 0 && winOf (hAddr2 h) == .paged &&
      hAddr3 h % 4 == 0 && winOf (hAddr3 h) == .paged
  | 5 =>
    let n := if hIw h = 0 then 2 else 4
    b % e == 0 && w == .paged && hAddr2 h % n == 0 && winOf (hAddr2 h) == .paged &&
      hAddr3 h % n == 0 && winOf (hAddr3 h) == .paged
  | 6 => b % e == 0 && w == .sluice
  | _ => b % 64 == 0 && w == .spm && hAddr2 h % 64 == 0 && winOf (hAddr2 h) == .spm

/-- The level pair, index width and block size codes (R88 reason 10). -/
def hCodesOk (h : HWord) : Bool :=
  match hType h with
  | 4 => decide (hL0 h ≤ 3)
  | 5 => ((hL0 h == 0 && hL1 h == 1) || (hL0 h == 1 && hL1 h == 2)) && decide (hIw h ≤ 1)
  | _ => true

/-- The reason of R88 for a use (`dest`), with the types an operand position allows: reason 9
comes before reason 10. The only type that the use by itself refuses, for HCHK too, is WINDOW as a destination
(R86; DESIGN CHOICE, log 43: R88 does not list the types of a use). -/
def hReason (h : HWord) (dest : Bool) (types : List Nat) : Nat :=
  let t := hType h
  if 8 ≤ t then 1
  else if t = 0 then 2
  else if !hReservedOk h then 3
  else if !hFmtOk h then 4
  else if !hFlagsOk h then 5
  else if !hShapeOk h then 6
  else if hMask h && (decide (hRows h < hVrows h) || decide (hCols h < hVcols h)) then 7
  else if !hPlaceOk h then 8
  else if (t == 6 && dest) || !types.contains t then 9
  else if !hCodesOk h then 10
  else 0

/-- Every type (HCHK, R93). -/
def allTypes : List Nat := [1, 2, 3, 4, 5, 6, 7]

/-! ## Elements -/

/-- The address of element (i, j) of a DENSE view (R80). -/
def elemAddr (h : HWord) (i j : Nat) : Nat :=
  let (r, c) := if hTrn h then (hOrow h + j, hOcol h + i) else (hOrow h + i, hOcol h + j)
  hBase h + (r * hStride h + c) * esize (hFmt h)

/-- Whether element (i, j) is inside the valid region (R81). -/
def elemValid (h : HWord) (i j : Nat) : Bool :=
  !hMask h || (decide (i < hVrows h) && decide (j < hVcols h))

/-- Bytes of a row of blocks (R82). -/
def blkRow (h : HWord) : Nat := hStride h / 32 * 17

/-- The address of the block that holds column j of row i of a QTILE view (R82). -/
def blkAddr (h : HWord) (i j : Nat) : Nat :=
  hBase h + (hOrow h + i) * blkRow h + (hOcol h + j) / 32 * 17

/-- The address of a tile's trailer (R82). -/
def trailerAddr (h : HWord) : Nat := hBase h + (hOrow h + hRows h) * blkRow h

/-- A view from the lowest to past the highest byte, trailers and sparse index arrays aside; a
RING extent is its whole ring (R114, R215). -/
def hExtent (h : HWord) : Nat × Nat :=
  let b := hBase h
  let e := esize (hFmt h)
  match hType h with
  | 1 => (elemAddr h 0 0, elemAddr h (hRows h - 1) (hCols h - 1) + e)
  | 2 => (b, b + hSlots h * hSlotsz h * 64)
  | 3 => (blkAddr h 0 0, hBase h + (hOrow h + hRows h - 1) * blkRow h + (hOcol h + hCols h) / 32 * 17)
  | 6 => (b, b + ((hRows h - 1) * hStride h + hCols h) * e)
  | 7 => (b, b + 4 * (if hCols h = 0 then 65536 else hCols h))
  | _ => (b, b + hRows h * hCols h * e)

/-- The elements of a WEIR (R87). -/
def weirSize (h : HWord) : Nat := if hCols h = 0 then 65536 else hCols h

/-- The XVAL of a shape mismatch (R114): the source's rows and columns above the destination's. -/
def shapeVal (src dst : HWord) : DWord :=
  dw (((hRows src * 65536 + hCols src) * 2 ^ 32) + (hRows dst * 65536 + hCols dst))

/-! ## Sluice windows (R96) -/

/-- Changes a window of a die. -/
def modWindow (s : State) (die w : Nat) (f : Window → Window) : State :=
  s.modDie die (fun d => { d with windows := d.windows.map (fun x => if x.1 = w then (x.1, f x.2) else x) })

/-- Whether a read in progress is the one of an owner at an offset. -/
def LineRead.isOf (owner : IoOwner) (off n : Nat) (l : LineRead) : Bool :=
  l.owner == owner && l.off == off && l.len == n

/-- One load of a line's service at a home (R96): its bytes where the line has them, or, made now, kept for
the line, whose read goes on in its next step (R262). A poisoned unit gives no data (R75). -/
def lineLoad (s : State) (die w : Nat) (owner : IoOwner) (off n : Nat) (got : List (Nat × List Byte)) (h len : Nat) :
    Except XErr (List Byte) × State :=
  match got.find? (fun p => p.1 == h && p.2.length == len) with
  | some p => (.ok p.2, s)
  | none =>
    if poisoned s h len then (.error .poison, s)
    else
      (.error .later, modWindow s die w (fun x =>
        { x with lines := x.lines.map (fun l =>
            if l.isOf owner off n then { l with got := l.got ++ [(h, memRead h len s.mem)] } else l) }))

/-- Element `j` of a window (R96): zero, with OOB set, where its index is out of range. An index vector or
base tensor in a host or peer page is an access fault (DESIGN CHOICE, log 43: R96 reads at homes and gives no
effect for such a page). -/
def lineElem (s : State) (lv : TlbLevel) (owner : IoOwner) (pasid die w : Nat) (win : Window) (off n : Nat)
    (got : List (Nat × List Byte)) (j : Nat) : Except XErr (List Byte) × State :=
  let e := esize (hFmt win.base)
  match paged s lv pasid .load (elemAddr win.index (j / hCols win.index) (j % hCols win.index)) with
  | (.error x, s) => (.error x, s)
  | (.ok (.home ih _), s) =>
    match lineLoad s die w owner off n got ih 4 with
    | (.error x, s) => (.error x, s)
    | (.ok ib, s) =>
      let x := toSigned 32 (leNat ib)
      let m := hRows win.base * hCols win.base
      if x < 0 ∨ (m : Int) ≤ x then
        (.ok (List.replicate e 0#8), modWindow s die w (fun x => { x with oob := true }))
      else
        let k := x.toNat
        match paged s lv pasid .load (elemAddr win.base (k / hCols win.base) (k % hCols win.base)) with
        | (.error x, s) => (.error x, s)
        | (.ok (.home bh _), s) => lineLoad s die w owner off n got bh e
        | (.ok _, s) => (.error .access, s)
  | (.ok _, s) => (.error .access, s)

/-- `k` elements of a window from number `j` on, in order. -/
def lineElems (lv : TlbLevel) (owner : IoOwner) (pasid die w : Nat) (win : Window) (off n : Nat)
    (got : List (Nat × List Byte)) : Nat → (j : Nat) → State → Except XErr (List Byte) × State
  | 0, _, s => (.ok [], s)
  | k + 1, j, s =>
    match lineElem s lv owner pasid die w win off n got j with
    | (.error x, s) => (.error x, s)
    | (.ok b, s) =>
      match lineElems lv owner pasid die w win off n got k (j + 1) s with
      | (.error x, s) => (.error x, s)
      | (.ok r, s) => (.ok (b ++ r), s)

/-- A read of a sluice window (R95, R96): bound to the PASID and inside its valid bytes when it is accepted,
and then served by one load a step, each index entry and each distinct base address once. The answer is
`later` until all have been made. -/
def sluiceRead (s : State) (lv : TlbLevel) (owner : IoOwner) (pasid die w off n : Nat) :
    Except XErr (List Byte) × State :=
  match tfind w (s.die die).windows with
  | none => (.error .access, s)
  | some win =>
    let e := esize (hFmt win.base)
    let mine := win.lines.find? (LineRead.isOf owner off n)
    if mine.isNone && (win.pasid != pasid || decide (hRows win.index * hCols win.index * e < off + n)) then
      (.error .access, s)
    else
      let s := if mine.isSome then s else
        modWindow s die w (fun x => { x with lines := x.lines ++ [{ owner := owner, off := off, len := n, got := [] }] })
      let close (s : State) : State :=
        modWindow s die w (fun x => { x with lines := x.lines.filter (fun l => !l.isOf owner off n) })
      match lineElems lv owner pasid die w win off n (mine.elim [] LineRead.got)
          ((off + n + e - 1) / e - off / e) (off / e) s with
      | (.error .later, s) => (.error .later, s)
      | (.error x, s) => (.error x, close s)
      | (.ok bs, s) => (.ok ((bs.drop (off % e)).take n), close s)

end Sys2Proof.Machine
end

