-- ==== Sys2Proof/Machine/Ops.lean ====
section
/-! DEFINITION. The named operations every meaning is written over: registers, retiring,
taking an exception and freezing (spec/14 R334 to R340), waiting, and scalar accesses
(spec/03 R72, R73, spec/07 R172 to R176, spec/11 R263). -/

namespace Sys2Proof.Machine
open Sys2Proof

/-- The outcome of a step. -/
abbrev Out := Host.Outcome State Fault Refusal

/-! ## Registers (R18) -/

/-- s[r] of a context; s0 reads as zero (R18). -/
def Ctx.reg (c : Ctx) (r : SReg) : DWord := if r = 0#5 then 0#64 else c.regs[r.toNat]'r.isLt
/-- A context with s[r] written; a write to s0 is discarded (R18). -/
def Ctx.setReg (c : Ctx) (r : SReg) (v : DWord) : Ctx :=
  if r = 0#5 then c else { c with regs := c.regs.set r.toNat v r.isLt }
/-- h[r] of a context. -/
def Ctx.hreg (c : Ctx) (r : HReg) : HWord := c.hregs[r.toNat]'r.isLt
/-- A context with h[r] written. -/
def Ctx.setHreg (c : Ctx) (r : HReg) (v : HWord) : Ctx :=
  { c with hregs := c.hregs.set r.toNat v r.isLt }
/-- s[r] of the context that issues. -/
def State.reg (s : State) (r : SReg) : DWord := s.me.reg r
/-- Writes s[r] of the context that issues. -/
def State.setReg (s : State) (r : SReg) (v : DWord) : State := s.modMe (fun c => c.setReg r v)
/-- h[r] of the context that issues. -/
def State.hreg (s : State) (r : HReg) : HWord := s.me.hreg r
/-- Writes h[r] of the context that issues. -/
def State.setHreg (s : State) (r : HReg) (v : HWord) : State := s.modMe (fun c => c.setHreg r v)

/-! ## Lengths and words -/

/-- The instruction's words as they stand in memory: in a REP, the buffer's (R230). -/
def curWords (c : Ctx) (i : Instr) : List Word :=
  match c.rep with
  | some r => r.words.getD r.idx (encode i)
  | none => encode i

/-- XVAL of the illegal-instruction trap (R41). -/
def wordsVal (ws : List Word) : DWord := illegalVal (ws.headD 0#32) (ws.tail.headD 0#32)

/-! ## Trace (R378, R379) -/

/-- A trace record is written at its core's next place, 32 bytes by plain stores; one that meets a fault or a
full buffer is counted in DROPPED, and a page table in a poisoned unit makes its launch job-fatal (R75): whether
that is over, or else the place waits for a walk (R64). -/
def putTrace (s : State) (r : TraceRec) : Bool × State :=
  let c := s.core r.core
  let count := c.trchead.toNat % 2 ^ 32
  let cap := 128 * 2 ^ (c.trcbase.toNat % 16)
  let drop (s : State) : State := s.modCore r.core (fun c =>
    let d := c.trchead.toNat / 2 ^ 32
    { c with trchead := dw (min (d + 1) (2 ^ 32 - 1) * 2 ^ 32 + count) })
  let va := c.trcbase.toNat / 4096 % 2 ^ 44 * 4096 + 32 * (count % cap)
  if (!nbit c.trcctl.toNat 1 && decide (cap ≤ count)) || inWindows va then (true, drop s)
  else
    let put (s : State) (h : Nat) : State :=
      let s := issueWrite s (dieOfCore r.core) r.pasid h (r.bytes.take 16) [] none false
      issueWrite s (dieOfCore r.core) r.pasid (h + 16) (r.bytes.drop 16) [] none false
    let up (s : State) : State := s.modCore r.core (fun c =>
      { c with trchead := dw (c.trchead.toNat / 2 ^ 32 * 2 ^ 32 + (count + 1) % 2 ^ 32) })
    match paged s (.core r.core) r.pasid .store va with
    | (.ok (.home h _), s) => (true, up (put s h))
    | (.ok (.pcie h _), s) => (true, up (put s h))
    | (.error .later, s) => (false, s)
    | (.error .poison, s) =>
      (true, drop (r.launch.elim s (fun l => s.markFatal l { cause := 0x48, core := r.core, frec := [] })))
    | (_, s) => (true, drop s)

/-- A trace record of a core, if its kind is enabled: it is written, or waits for a walk behind the earlier
ones of its core (R64, R378, R379). -/
def trace (s : State) (core kind num : Nat) (a b : DWord) : State :=
  let c := s.core core
  let ctl := c.trcctl.toNat
  if !nbit ctl 0 || !nbit ctl (8 + kind) then s
  else
    let r : TraceRec :=
      { core := core, launch := c.launch, pasid := c.pasid
        bytes := leBytes 1 kind ++ leBytes 1 num ++ leBytes 2 core ++ leBytes 4 c.stepcnt.toNat
          ++ leBytes 8 s.time.toNat ++ leBytes 8 a.toNat ++ leBytes 8 b.toNat }
    match if s.traces.any (fun x => x.core == core) then (false, s) else putTrace s r with
    | (true, s) => s
    | (false, s) => { s with traces := s.traces ++ [r] }

/-- The trace record of a core that waits longest is written, once its walk has ended. -/
def serveTrace (core : Nat) (s : State) : State :=
  match takeFirst (fun r : TraceRec => r.core == core) s.traces with
  | none => s
  | some (r, rest) =>
    match putTrace s r with
    | (true, s) => { s with traces := rest }
    | (false, s) => s

/-! ## Taking an exception (R334 to R336, R340) -/

/-- IT of XSTATUS (R334). -/
def Ctx.it (c : Ctx) : Bool := c.xstatus.getLsbD 0
/-- SAV of XSTATUS (R334). -/
def Ctx.sav (c : Ctx) : Bool := c.xstatus.getLsbD 1

/-- XSTATUS with ILEN, SAV and IT (R334); the reserved bits read zero. -/
def xstatusOf (len : Nat) (sav it : Bool) : DWord := dw (len % 4 * 2 ^ 14 + b2n sav * 2 + b2n it)

/-- The 56-byte frozen record (R340). -/
def frozenRec (core num c1 c2 : Nat) (xval xpc xvec fval time fpc : DWord) : List Byte :=
  leBytes 2 core ++ leBytes 1 num ++ [0#8] ++ leBytes 2 c1 ++ leBytes 2 c2 ++ leBytes 8 xval.toNat
    ++ leBytes 8 xpc.toNat ++ leBytes 8 xvec.toNat ++ leBytes 8 fval.toNat ++ leBytes 8 time.toNat
    ++ leBytes 8 fpc.toNat

/-- The repetition buffer of a core is given up by its holder (R230). -/
def releaseRep (s : State) (k : Nat) : State :=
  s.modCore (coreOf k) (fun c => if c.repHolder = some k then { c with repHolder := none } else c)

/-- A context freezes (R336, R340): it issues nothing more, its launch becomes job-fatal, and
the policy core is told. -/
def freeze (s : State) (k c1 c2 : Nat) (xval xpc fval fpc : DWord) : State :=
  let c := s.ctx k
  let rec_ := frozenRec (coreOf k) (numOf k) c1 c2 xval xpc c.xvec fval s.time fpc
  let s := s.setCtx k { c with mode := .frozen, frec := rec_, wait := none, trapping := none }
  let s := s.report (.frozen (coreOf k) (numOf k) rec_)
  match (s.core (coreOf k)).launch with
  | none => s
  | some l => s.markFatal l { cause := c1, core := coreOf k, frec := rec_ }

/-- Context `k` traps on the instruction at its pc, of `len` words (R335), or freezes (R336). A trap whose
handler's first word is still on its way, from a host or peer page or by a walk, is not taken yet: its CSRs
keep their values, and the context tries again (R340). -/
def takeTrap (s : State) (k len cause : Nat) (val : DWord) : State :=
  let c := s.ctx k
  if c.it then freeze s k (c.xcause.toNat % 65536) cause c.xval c.xpc val c.pc
  else if c.xvec = 0#64 ∨ c.xvec.toNat % 4 ≠ 0 then freeze s k cause 0 val c.pc 0#64 0#64
  else
    match fetchInstr s k c.xvec.toNat with
    | (.error (fc, fa), s) =>
      if fc = 0 then s.modCtx k (fun c => { c with trapping := some (len, cause, val), wait := none })
      else if fc = 0x48 then poisonLaunch s (coreOf k)
      else freeze (ioClear s (.fetch k)) k cause fc val c.pc (dw fa) c.xvec
    | (.ok _, s) => enterTrap (ioClear s (.fetch k)) k len cause val
where
  /-- The trap's entry (R335). -/
  enterTrap (s : State) (k len cause : Nat) (val : DWord) : State :=
      let c := s.ctx k
      let s := s.setCtx k
        { c with
          xcause := dw (cause % 256)
          xval := val
          xpc := c.pc
          xstatus := xstatusOf len (!c.loops.isEmpty || c.rep.isSome) true
          savedLoops := c.loops
          savedRep := c.rep
          loops := []
          rep := none
          wait := none
          trapping := none
          pc := c.xvec }
      trace (releaseRep s k) (coreOf k) 2 (numOf k) (dw (cause % 256)) c.pc

/-- The instruction that issues traps (R335). -/
def trap (i : Instr) (cause : Nat) (val : DWord) (s : State) : Out :=
  .next (takeTrap s s.cur i.len cause val)

/-- The launch of the context that issues meets an uncorrectable error (R75). -/
def poisonStop (s : State) : State := poisonLaunch s s.myCore

/-- An address of the instruction that issues cannot be used: the trap of its cause, the uncorrectable
error (R75), or, with 0, the wait for a walk (R64), a sluice line (R96), or a fetch from a host or peer page
(R69). -/
def fail (i : Instr) (cause : Nat) (val : DWord) (s : State) : Out :=
  if cause = 0 then .next s
  else if cause = 0x48 then .next (poisonStop s)
  else trap i cause val s

/-- The illegal-instruction trap on the instruction that issues (R41). -/
def illegal (i : Instr) (s : State) : Out := trap i 0x01 (wordsVal (curWords s.me i)) s

/-! ## Retiring (R183, R184, R185) -/

/-- Whether an address lies in a loop body. -/
def LoopLevel.has (l : LoopLevel) (a : DWord) : Bool :=
  decide (l.start.toNat ≤ a.toNat) && decide (a.toNat < l.stop.toNat)

/-- The loop-back test (R183) and the overrun rule of R184, for an instruction at `pc` whose
next sequential address is `n`: the levels left and where the pc goes. -/
def loopBack (pc : DWord) : List LoopLevel → DWord → List LoopLevel × DWord
  | [], n => ([], n)
  | l :: r, n =>
    if n = l.stop then
      if l.remaining = 1#64 then loopBack pc r n
      else ({ l with remaining := l.remaining - 1#64 } :: r, l.start)
    else if l.has pc && decide (l.stop.toNat < n.toNat) then loopBack pc r n
    else (l :: r, n)

/-- The levels that a taken transfer without a link leaves (R184). -/
def leaveLoops (pc target : DWord) : List LoopLevel → List LoopLevel
  | [] => []
  | l :: r => if l.has pc && !l.has target then leaveLoops pc target r else l :: r

/-- The next sequential address. -/
def Ctx.seq (c : Ctx) (len : Nat) : DWord := c.pc + dw (4 * len)

/-- A context retires an instruction of `len` words without a taken transfer: the loop-back test,
or the next instruction of the repetition buffer (R183, R185). A REP and its block end as one instruction at
the REP's address, for the overrun rule too (R184; DEDUCED, log 29). -/
def retireCtx (c : Ctx) (len : Nat) : Ctx :=
  let n := c.seq len
  match c.rep with
  | none =>
    let (ls, p) := loopBack c.pc c.loops n
    { c with loops := ls, pc := p, wait := none }
  | some r =>
    if r.idx + 1 < r.words.length then
      { c with pc := n, rep := some { r with idx := r.idx + 1 }, wait := none }
    else if r.iter + 1 < r.count then
      { c with pc := r.block, rep := some { r with idx := 0, iter := r.iter + 1 }, wait := none }
    else
      let (ls, p) := loopBack (r.block - 4#64) c.loops n
      { c with loops := ls, pc := p, rep := none, wait := none }

/-- The instruction that issues retires (R183, R185). -/
def retire (i : Instr) (s : State) : State :=
  let s' := s.modMe (fun c => retireCtx c i.len)
  if s.me.rep.isSome && s'.me.rep.isNone then releaseRep s' s.cur else s'

/-- The instruction that issues writes s[d] and retires. -/
def done (i : Instr) (d : SReg) (v : DWord) (s : State) : Out := .next (retire i (s.setReg d v))

/-- A taken transfer to `target` (R181 to R184); with a link every loop level stays. -/
def jumpTo (linked : Bool) (target : DWord) (s : State) : State :=
  s.modMe (fun c =>
    { c with
      pc := target
      loops := if linked then c.loops else leaveLoops c.pc target c.loops
      wait := none })

/-! ## The checks every instruction makes first (R42, R20, R186) -/

/-- The first scalar register of an instruction at or above the accessible count (R20). -/
def badReg (acc : Nat) (i : Instr) : Option SReg := i.sregs.find? (fun r => decide (acc ≤ r.toNat))

/-- The order of R42 up to the privilege check: illegal in a REP block, illegal register. -/
def run (i : Instr) (s : State) (body : State → Out) : Out :=
  if i.noRep && s.me.rep.isSome then illegal i s
  else
    match badReg s.me.acc i with
    | some r => trap i 0x02 (r.zeroExtend 64) s
    | none => body s

/-! ## Waiting -/

/-- The instruction that issues waits; the bound is `limit` cycles, 0 for none (R109). -/
def waitFor (i : Instr) (w : WaitFor) (limit : Nat) (s : State) : State :=
  { s.modMe (fun c => { c with wait := some { what := w, since := s.cycle, limit := limit,
                                                arrival := s.stamp, instr := i } }) with
    stamp := s.stamp + 1 }

/-- FEWAIT.LIMIT of the context that issues (R109). -/
def feLimit (s : State) : Nat := s.me.fewait.toNat % 2 ^ 32

/-- Whether the instruction that issues has waited longer than its limit (R109). -/
def waitOver (s : State) : Bool := s.me.wait.any (fun w => w.limit != 0 && decide (w.since + w.limit < s.cycle))

/-- Replaces what the instruction that issues has found out while it waits. -/
def setWhat (w : WaitFor) (s : State) : State :=
  s.modMe (fun c => { c with wait := c.wait.map (fun r => { r with what := w }) })

/-- The wait of the instruction that issues ends. -/
def clearWait (s : State) : State := s.modMe (fun c => { c with wait := none })

/-! ## Scalar accesses -/

/-- A non-posted request to a host or peer page (R69): the older stores of the context leave,
the die's queue to the host port performs, the request is issued, and the context waits. -/
def pcieRequest (i : Instr) (h n : Nat) (va : DWord) (got : List Byte) (s : State) : State :=
  let s := performQueue (drainAll s s.cur) s.myDie 96
  let (id, s) := s.fresh
  let s := { s with pcieReads := s.pcieReads ++ [{ id := id, owner := .ctx s.cur, addr := h, size := n,
                                                     va := va, pasid := s.mine.pasid, tagged := s.pasidCap }] }
  waitFor i (.pcie id got true) 0 s

/-- What an instruction that reads a host or peer page has: the bytes that have come, or `none`
while a request is outstanding. -/
def pcieGot (s : State) : Option (List Byte) :=
  match s.me.wait with
  | some { what := .pcie _ got asked, .. } => if asked then none else some got
  | _ => some []

/-- The bytes that a load of several pieces has so far (R93), or that an instruction keeps while it waits for
something else (`keepWords`). -/
def wordsGot (s : State) : List Byte :=
  match s.me.wait with
  | some { what := .words got, .. } => got
  | _ => []

/-- The next piece of a load of `n` bytes has come: the continuation gets all the bytes, or the context
goes on with the following piece in a later step (R263, R274). -/
def nextPiece (i : Instr) (n : Nat) (bs : List Byte) (s : State) (k : List Byte → State → Out) : Out :=
  if n ≤ bs.length then k bs (clearWait s)
  else if s.me.wait.isSome then .next (setWhat (.words bs) s)
  else .next (waitFor i (.words bs) 0 s)

/-- A load of `n` bytes at `va` by the context that issues, as accesses of `piece` bytes in order
(R72, R73, R93, R263), one a step: the continuation gets the bytes, at once where the instruction already has
them all. -/
def load (i : Instr) (va : DWord) (n piece align : Nat) (s : State) (k : List Byte → State → Out) : Out :=
  if 0 < n ∧ n ≤ (wordsGot s).length then k (wordsGot s) (clearWait s) else
  match scalarPlace s s.cur .load va n align with
  | (.error c, s) => fail i c va s
  | (.ok (.home h _), s) =>
    let got := wordsGot s
    if poisoned s (h + got.length) piece then .next (poisonStop s)
    else
      let (bs, s) := loadHome s s.cur (h + got.length) piece
      nextPiece i n (got ++ bs) s k
  | (.ok (.sluice d w off), s) =>
    let got := wordsGot s
    match sluiceRead s (.core s.myCore) (.ctx s.cur) s.mine.pasid d w (off + got.length) piece with
    | (.error x, s) => fail i x.trapCause va s
    | (.ok bs, s) => nextPiece i n (got ++ bs) s k
  | (.ok (.far _ _), s) => trap i 0x04 va s
  | (.ok (.pcie h _), s) =>
    match pcieGot s with
    | none => .next s
    | some got =>
      if n ≤ got.length then k got (clearWait s)
      else .next (pcieRequest i (h + got.length) piece (va + dw got.length) got s)

/-- Stores of `n`-byte pieces at `va` by the context that issues: all its checks (R72, R73), then
the pieces enter the store buffer in order (R262). -/
def store (i : Instr) (va : DWord) (bs : List Byte) (n align : Nat) (full rel : Bool) (s : State)
    (k : State → Out) : Out :=
  match scalarPlace s s.cur .store va bs.length align with
  | (.error c, s) => fail i c va s
  | (.ok (.home h chk), s) => k (pieces s h chk bs.length)
  | (.ok (.pcie h _), s) => k (pieces s h none bs.length)
  | (.ok (.sluice _ _ _), s) => trap i 0x04 va s
  | (.ok (.far _ _), s) => trap i 0x04 va s
where
  /-- The pieces of the bytes that are left, by a bound on their number. -/
  pieces (s : State) (h : Nat) (chk : Option Chk) (len : Nat) : State :=
    (List.range (len / n)).foldl (fun s j =>
      enterBuf s s.cur { num := 0, home := h + j * n, bytes := (bs.drop (j * n)).take n, full := full,
                         rel := rel, chk := chk, ring := none }) s

/-- The instruction that issues waits with the bytes that its load has given, so that it does not load them
again. -/
def keepWords (i : Instr) (bs : List Byte) (s : State) : Out := .next (waitFor i (.words bs) 0 s)

/-- The result of a load of `size` bytes, by sz (R32). -/
def loadExt (z : BitVec 3) (bs : List Byte) : DWord :=
  let v := leNat bs
  match z with
  | 0#3 => (BitVec.ofNat 8 v).signExtend 64
  | 1#3 => (BitVec.ofNat 16 v).signExtend 64
  | 2#3 => (BitVec.ofNat 32 v).signExtend 64
  | _ => dw v

/-- Bytes of an access size (R32). -/
def szBytes (z : BitVec 3) : Nat := 2 ^ (z.toNat % 4)

/-- An acquire at module scope by the context that issues, after its access (R267). -/
def acquireMe (s : State) : State := refreshAll s s.myDie

/-- The release half before an access of the context that issues, at module scope (R267). -/
def releaseMe (s : State) : State := releaseModule s s.cur

/-! ## Group slots and launches -/

/-- The group in slot `n` of a core, if V = 1 (R290). -/
def slotGroup (c : Core) (n : Nat) : Option Nat :=
  let w := (c.grpslot.toList.getD n 0#64).toNat
  if nbit w 8 then some (w % 256) else none

/-- A group of a launch. -/
def Launch.group? (l : Launch) (g : Nat) : Option Group := l.groups.find? (fun x => x.gnum == g)

/-- Changes a group of a launch. -/
def State.modGroup (s : State) (lid g : Nat) (f : Group → Group) : State :=
  s.modLaunch lid (fun l => { l with groups := updFirst (fun x => x.gnum == g) f l.groups })

/-- The core that holds a rank of a launch (R286). -/
def rankCore (l : Launch) (r : Nat) : Nat :=
  let row := l.row0 + r / l.cols
  let col := l.col0 + r % l.cols
  (row / 8 * 8 + col / 8) * 64 + row % 8 * 8 + col % 8

/-- The BSP mode of the launch of the core that issues (R46, R300). -/
def launchMode (s : State) : Nat :=
  match s.launchOf s.myCore with
  | none => 0
  | some l => l.hdr.mode

end Sys2Proof.Machine
end

