-- ==== Sys2Proof/Machine/Operands.lean ====
section
/-! DEFINITION. The operand forms (spec/02 R27, R32, spec/07 R158, R172, R173, R181): operand b,
immediates, and the addresses of the memory and branch forms. -/

namespace Sys2Proof.Machine
open Sys2Proof

/-- Operand b (R27): the register, or the literal, a 32-bit one sign-extended. -/
def State.opB (s : State) (b : Operand) : DWord :=
  match b with
  | .reg r => s.reg r
  | .lit32 v => v.signExtend 64
  | .lit64 v => v

/-- sext(imm15) (R164). -/
def simm (imm : BitVec 15) : DWord := imm.signExtend 64

/-- The address of form M (R172): s[a] + (s[b] << sh), modulo 2^64. -/
def State.addrM (s : State) (a b : SReg) (h : BitVec 2) : DWord := s.reg a + s.reg b <<< h.toNat

/-- The address of form MI (R173): s[a] + sext(off10) × size. -/
def State.addrMI (s : State) (a : SReg) (off : BitVec 10) (size : Nat) : DWord :=
  s.reg a + off.signExtend 64 * dw size

/-- pc + sext(off) × 4 (R181, R182). -/
def State.pcPlus {n : Nat} (s : State) (off : BitVec n) : DWord := s.me.pc + off.signExtend 64 * 4#64

/-- An operation in 64 bits, or with W on bits [31:0] with bit 31 of the result sign-extended
(R160, R161). -/
def wide2 (w : Bool) (f : (n : Nat) → BitVec n → BitVec n → BitVec n) (x y : DWord) : DWord :=
  if w then (f 32 (x.setWidth 32) (y.setWidth 32)).signExtend 64 else f 64 x y

/-- As `wide2`, of one operand. -/
def wide1 (w : Bool) (f : (n : Nat) → BitVec n → BitVec n) (x : DWord) : DWord :=
  if w then (f 32 (x.setWidth 32)).signExtend 64 else f 64 x

end Sys2Proof.Machine
end

