-- ==== Sys2Proof/Machine/Integer.lean ====
section
/-! DEFINITION. Integer and immediate instructions (spec/07 R158 to R165). -/

namespace Sys2Proof.Machine
open Sys2Proof

/-! ## The operations, in n bits (R160) -/

/-- x − y. -/
def opSub (n : Nat) (x y : BitVec n) : BitVec n := x - y
/-- x shifted left by y modulo the width. -/
def opSll (n : Nat) (x y : BitVec n) : BitVec n := x <<< (y.toNat % n)
/-- x shifted right logically. -/
def opSrl (n : Nat) (x y : BitVec n) : BitVec n := x >>> (y.toNat % n)
/-- x shifted right arithmetically. -/
def opSra (n : Nat) (x y : BitVec n) : BitVec n := x.sshiftRight (y.toNat % n)
/-- x rotated left. -/
def opRol (n : Nat) (x y : BitVec n) : BitVec n := x.rotateLeft (y.toNat % n)
/-- The low n bits of x × y. -/
def opMul (n : Nat) (x y : BitVec n) : BitVec n := x * y
/-- The signed quotient, rounded toward zero; the most negative value by −1 gives itself (R162). -/
def opDiv (n : Nat) (x y : BitVec n) : BitVec n := x.sdiv y
/-- The unsigned quotient. -/
def opDivu (n : Nat) (x y : BitVec n) : BitVec n := x.udiv y
/-- The signed remainder, with the sign of x (R160, R162). -/
def opRem (n : Nat) (x y : BitVec n) : BitVec n := x.srem y
/-- The unsigned remainder. -/
def opRemu (n : Nat) (x y : BitVec n) : BitVec n := x.umod y
/-- Bits [127:64] of the signed product. -/
def mulHigh (x y : DWord) : DWord := BitVec.ofInt 64 (x.toInt * y.toInt / 2 ^ 64)
/-- Bits [127:64] of the unsigned product. -/
def mulHighU (x y : DWord) : DWord := BitVec.ofNat 64 (x.toNat * y.toNat / 2 ^ 64)
/-- 1 or 0. -/
def flag (b : Bool) : DWord := if b then 1#64 else 0#64

/-! ## Shared shapes -/

/-- An instruction of form R that writes s[d] from s[a] and operand b. -/
def intOp (i : Instr) (d a : SReg) (b : Operand) (f : DWord → DWord → DWord) (s : State) : Out :=
  run i s (fun s => done i d (f (s.reg a) (s.opB b)) s)

/-- A division (R162): a zero divisor, in the operation's width, traps with XVAL = s[a]. -/
def divOp (i : Instr) (w : Bool) (d a : SReg) (b : Operand)
    (f : (n : Nat) → BitVec n → BitVec n → BitVec n) (s : State) : Out :=
  run i s (fun s =>
    let y := s.opB b
    if (if w then y.setWidth 32 = 0#32 else y = 0#64) then trap i 0x07 (s.reg a) s
    else done i d (wide2 w f (s.reg a) y) s)

/-- An instruction of form I that writes s[d] from s[a] and an immediate. -/
def immOp (i : Instr) (d a : SReg) (y : DWord) (f : DWord → DWord → DWord) (s : State) : Out :=
  run i s (fun s => done i d (f (s.reg a) y) s)

/-! ## Meanings -/

/-- ADD (R160, R161). -/
def execAdd (w : Bool) (d a : SReg) (b : Operand) (s : State) : Out :=
  intOp (.add w d a b) d a b (wide2 w opAdd) s

/-- SUB (R160, R161). -/
def execSub (w : Bool) (d a : SReg) (b : Operand) (s : State) : Out :=
  intOp (.sub w d a b) d a b (wide2 w opSub) s

/-- AND (R160). -/
def execAnd (d a : SReg) (b : Operand) (s : State) : Out :=
  intOp (.and d a b) d a b (fun x y => x &&& y) s

/-- OR (R160). -/
def execOr (d a : SReg) (b : Operand) (s : State) : Out :=
  intOp (.or d a b) d a b (fun x y => x ||| y) s

/-- XOR (R160). -/
def execXor (d a : SReg) (b : Operand) (s : State) : Out :=
  intOp (.xor d a b) d a b (fun x y => x ^^^ y) s

/-- ANDN (R160). -/
def execAndn (d a : SReg) (b : Operand) (s : State) : Out :=
  intOp (.andn d a b) d a b (fun x y => x &&& ~~~y) s

/-- SLL (R160, R161). -/
def execSll (w : Bool) (d a : SReg) (b : Operand) (s : State) : Out :=
  intOp (.sll w d a b) d a b (wide2 w opSll) s

/-- SRL (R160, R161). -/
def execSrl (w : Bool) (d a : SReg) (b : Operand) (s : State) : Out :=
  intOp (.srl w d a b) d a b (wide2 w opSrl) s

/-- SRA (R160, R161). -/
def execSra (w : Bool) (d a : SReg) (b : Operand) (s : State) : Out :=
  intOp (.sra w d a b) d a b (wide2 w opSra) s

/-- ROL (R160, R161). -/
def execRol (w : Bool) (d a : SReg) (b : Operand) (s : State) : Out :=
  intOp (.rol w d a b) d a b (wide2 w opRol) s

/-- SLT (R160). -/
def execSlt (d a : SReg) (b : Operand) (s : State) : Out :=
  intOp (.slt d a b) d a b (fun x y => flag (x.slt y)) s

/-- SLTU (R160). -/
def execSltu (d a : SReg) (b : Operand) (s : State) : Out :=
  intOp (.sltu d a b) d a b (fun x y => flag (x.ult y)) s

/-- MIN (R160). -/
def execMin (d a : SReg) (b : Operand) (s : State) : Out :=
  intOp (.min d a b) d a b (opMin 64) s

/-- MAX (R160). -/
def execMax (d a : SReg) (b : Operand) (s : State) : Out :=
  intOp (.max d a b) d a b (opMax 64) s

/-- MINU (R160). -/
def execMinu (d a : SReg) (b : Operand) (s : State) : Out :=
  intOp (.minu d a b) d a b (opMinu 64) s

/-- MAXU (R160). -/
def execMaxu (d a : SReg) (b : Operand) (s : State) : Out :=
  intOp (.maxu d a b) d a b (opMaxu 64) s

/-- MUL (R160, R161). -/
def execMul (w : Bool) (d a : SReg) (b : Operand) (s : State) : Out :=
  intOp (.mul w d a b) d a b (wide2 w opMul) s

/-- MULH (R160). -/
def execMulh (d a : SReg) (b : Operand) (s : State) : Out :=
  intOp (.mulh d a b) d a b mulHigh s

/-- MULHU (R160). -/
def execMulhu (d a : SReg) (b : Operand) (s : State) : Out :=
  intOp (.mulhu d a b) d a b mulHighU s

/-- DIV (R160 to R162). -/
def execDiv (w : Bool) (d a : SReg) (b : Operand) (s : State) : Out :=
  divOp (.div w d a b) w d a b opDiv s

/-- DIVU (R160 to R162). -/
def execDivu (w : Bool) (d a : SReg) (b : Operand) (s : State) : Out :=
  divOp (.divu w d a b) w d a b opDivu s

/-- REM (R160 to R162). -/
def execRem (w : Bool) (d a : SReg) (b : Operand) (s : State) : Out :=
  divOp (.rem w d a b) w d a b opRem s

/-- REMU (R160 to R162). -/
def execRemu (w : Bool) (d a : SReg) (b : Operand) (s : State) : Out :=
  divOp (.remu w d a b) w d a b opRemu s

/-- SHADD: (x << (k + 1)) + y (R160). -/
def execShadd (k : BitVec 2) (d a : SReg) (b : Operand) (s : State) : Out :=
  intOp (.shadd k d a b) d a b (fun x y => x <<< (k.toNat + 1) + y) s

/-- SEL: x if s[d] ≠ 0, else y (R160). -/
def execSel (d a : SReg) (b : Operand) (s : State) : Out :=
  run (.sel d a b) s (fun s =>
    done (.sel d a b) d (if s.reg d = 0#64 then s.opB b else s.reg a) s)

/-- ADDI (R164). -/
def execAddi (d a : SReg) (imm : BitVec 15) (s : State) : Out :=
  immOp (.addi d a imm) d a (simm imm) (fun x y => x + y) s

/-- ANDI (R164). -/
def execAndi (d a : SReg) (imm : BitVec 15) (s : State) : Out :=
  immOp (.andi d a imm) d a (simm imm) (fun x y => x &&& y) s

/-- ORI (R164). -/
def execOri (d a : SReg) (imm : BitVec 15) (s : State) : Out :=
  immOp (.ori d a imm) d a (simm imm) (fun x y => x ||| y) s

/-- XORI (R164). -/
def execXori (d a : SReg) (imm : BitVec 15) (s : State) : Out :=
  immOp (.xori d a imm) d a (simm imm) (fun x y => x ^^^ y) s

/-- SLTI (R164). -/
def execSlti (d a : SReg) (imm : BitVec 15) (s : State) : Out :=
  immOp (.slti d a imm) d a (simm imm) (fun x y => flag (x.slt y)) s

/-- SLTIU (R164). -/
def execSltiu (d a : SReg) (imm : BitVec 15) (s : State) : Out :=
  immOp (.sltiu d a imm) d a (simm imm) (fun x y => flag (x.ult y)) s

/-- SLLI (R165). -/
def execSlli (d a : SReg) (n : BitVec 6) (s : State) : Out :=
  immOp (.slli d a n) d a (n.setWidth 64) (opSll 64) s

/-- SRLI (R165). -/
def execSrli (d a : SReg) (n : BitVec 6) (s : State) : Out :=
  immOp (.srli d a n) d a (n.setWidth 64) (opSrl 64) s

/-- SRAI (R165). -/
def execSrai (d a : SReg) (n : BitVec 6) (s : State) : Out :=
  immOp (.srai d a n) d a (n.setWidth 64) (opSra 64) s

/-- ROLI (R165). -/
def execRoli (d a : SReg) (n : BitVec 6) (s : State) : Out :=
  immOp (.roli d a n) d a (n.setWidth 64) (opRol 64) s

end Sys2Proof.Machine
end

