-- ==== Sys2Proof/Machine/LoadStore.lean ====
section
/-! DEFINITION. Scalar loads and stores, plain and full-empty, and PREF (spec/07 R172 to R177,
spec/05 R107 to R109). -/

namespace Sys2Proof.Machine
open Sys2Proof

/-- A load that writes s[t] (R172 to R175); an acquire after it with ord = 01 (R266). -/
def loadReg (i : Instr) (o : Bool) (z : BitVec 3) (t : SReg) (va : DWord) (s : State) : Out :=
  load i va (szBytes z) (szBytes z) (szBytes z) s (fun bs s =>
    done i t (loadExt z bs) (if o then acquireMe s else s))

/-- The low bytes of s[t] that a store writes (R172). -/
def storeBytes (z : BitVec 2) (v : DWord) : List Byte := leBytes (2 ^ z.toNat) v.toNat

/-- A store of s[t] (R172 to R175). -/
def storeReg (i : Instr) (o full : Bool) (z : BitVec 2) (t : SReg) (va : DWord) (s : State) : Out :=
  store i va (storeBytes z (s.reg t)) (2 ^ z.toNat) (2 ^ z.toNat) full o s (fun s => .next (retire i s))

/-- LD (R172). -/
def execLd (o : Bool) (z : BitVec 3) (h : BitVec 2) (b a t : SReg) (s : State) : Out :=
  run (.ld o z h b a t) s (fun s => loadReg (.ld o z h b a t) o z t (s.addrM a b h) s)

/-- ST (R172). -/
def execSt (o : Bool) (z : BitVec 2) (h : BitVec 2) (b a t : SReg) (s : State) : Out :=
  run (.st o z h b a t) s (fun s => storeReg (.st o z h b a t) o false z t (s.addrM a b h) s)

/-- LDI (R173). -/
def execLdi (off : BitVec 10) (z : BitVec 3) (o : Bool) (a t : SReg) (s : State) : Out :=
  run (.ldi off z o a t) s (fun s =>
    loadReg (.ldi off z o a t) o z t (s.addrMI a off (szBytes z)) s)

/-- STI (R173). -/
def execSti (off : BitVec 10) (z : BitVec 2) (o : Bool) (a t : SReg) (s : State) : Out :=
  run (.sti off z o a t) s (fun s =>
    storeReg (.sti off z o a t) o false z t (s.addrMI a off (2 ^ z.toNat)) s)

/-! ## Full-empty accesses (R107, R108, R272) -/

/-- Whether an address lies in a window whose granules carry full-empty bits (R108). -/
def feWindow (va : Nat) : Bool :=
  inTcm va || inSpm va || va / 2 ^ 32 == 0xFFE000 || va / 2 ^ 34 == 0x3FF400

/-- The home of a qualified access, after the checks of R72 and R108: the bytes of an aligned
access lie in one granule. -/
def fePlace (s : State) (k : Nat) (a : Access) (va : DWord) (n : Nat) :
    Except Nat (Nat × Option Chk) × State :=
  let v := va.toNat
  if v / 2 ^ 56 == 0 && v % n == 0 && phaseOk s (coreOf k) v && !feWindow v then (.error 0x04, s)
  else
    match scalarPlace s k a va n n with
    | (.error c, s) => (.error c, s)
    | (.ok (.home h chk), s) => (.ok (h, chk), s)
    | (.ok _, s) => (.error 0x04, s)

/-- Whether a waiting instruction waits for an empty granule (.fee) and not for a full one. -/
def waitsEmpty : Instr → Bool
  | .stFee _ _ _ _ _ _ => true
  | _ => false

/-- Whether another context's access of the same kind arrived earlier at a granule (R108). -/
def feBehind (s : State) (g : Nat) (empty : Bool) : Bool :=
  let mine := match s.me.wait with
    | some w => w.arrival
    | none => s.stamp
  s.ctxs.any (fun p => p.1 != s.cur &&
    match p.2.wait with
    | some { what := .granule h, arrival := a, instr := j, .. } =>
      h / 16 == g && waitsEmpty j == empty && decide (a < mine)
    | _ => false)

/-- A qualified access that waits: the store buffer drains and the older stores for the home's
die perform (R108, R272); once the bit is right and no earlier access waits, `k` acts at the
home, otherwise the context waits. A wait that has lasted more than its limit traps (R109). -/
def feAccess (i : Instr) (a : Access) (va : DWord) (n : Nat) (empty rel : Bool) (s : State)
    (k : Nat → Option Chk → State → Out) : Out :=
  match fePlace s s.cur a va n with
  | (.error c, s) => fail i c va s
  | (.ok (h, chk), s) =>
    let s := if rel then releaseMe s else performQueue (drainAll s s.cur) s.myDie (homeDie h)
    if waitOver s then trap i 0x08 va s
    else if !chkOk s s.mine.pasid chk then trap i 0x04 va s
    else if s.isFull h != empty && !feBehind s (h / 16) empty then k h chk s
    else if s.me.wait.isSome then .next s
    else .next (waitFor i (.granule h) (feLimit s) s)

/-- A load .fe or .fec at the home (R107). -/
def feLoad (i : Instr) (o clear : Bool) (z : BitVec 3) (t : SReg) (va : DWord) (s : State) : Out :=
  feAccess i .load va (szBytes z) false false s (fun h _ s =>
    if poisoned s h (szBytes z) then .next (poisonStop s)
    else
      let v := loadExt z (memRead h (szBytes z) s.mem)
      let s := if clear then s.setFull (h / 16) false else s
      done i t v (if o then acquireMe s else s))

/-- LD_FE (R107). -/
def execLdFe (o : Bool) (z : BitVec 3) (h : BitVec 2) (b a t : SReg) (s : State) : Out :=
  run (.ldFe o z h b a t) s (fun s => feLoad (.ldFe o z h b a t) o false z t (s.addrM a b h) s)

/-- LD_FEC (R107). -/
def execLdFec (o : Bool) (z : BitVec 3) (h : BitVec 2) (b a t : SReg) (s : State) : Out :=
  run (.ldFec o z h b a t) s (fun s => feLoad (.ldFec o z h b a t) o true z t (s.addrM a b h) s)

/-- ST_FES: a store that sets the bit when it is performed (R107, R108). -/
def execStFes (o : Bool) (z : BitVec 2) (h : BitVec 2) (b a t : SReg) (s : State) : Out :=
  run (.stFes o z h b a t) s (fun s =>
    match fePlace s s.cur .store (s.addrM a b h) (2 ^ z.toNat) with
    | (.error c, s) => fail (.stFes o z h b a t) c (s.addrM a b h) s
    | (.ok (hm, chk), s) =>
      .next (retire (.stFes o z h b a t) (enterBuf s s.cur
        { num := 0, home := hm, bytes := storeBytes z (s.reg t), full := true, rel := o, chk := chk, ring := none })))

/-- A write of the context's own instruction performed at its home in the step: later fetch of
the context keeps the old bytes until a FENCE (R176). -/
def performMine (s : State) (h : Nat) (bs : List Byte) (fill : List Nat) (chk : Option Chk) : State :=
  let s := fetchKeep s s.cur h bs.length
  perform s s.myDie (s.pasidOf s.cur) h bs fill chk false

/-- ST_FEE: waits for 0, then performs and sets the bit (R107). -/
def execStFee (o : Bool) (z : BitVec 2) (h : BitVec 2) (b a t : SReg) (s : State) : Out :=
  run (.stFee o z h b a t) s (fun s =>
    feAccess (.stFee o z h b a t) .store (s.addrM a b h) (2 ^ z.toNat) true o s (fun hm chk s =>
      .next (retire (.stFee o z h b a t)
        (performMine s hm (storeBytes z (s.reg t)) [hm / 16] chk))))

/-! ## PREF (R177) -/

/-- Whether an address may be prefetched: paged, inside the phase rule, and with a translation
that is not cached yet. -/
def prefWants (s : State) (core va pasid : Nat) : Bool :=
  va / 2 ^ 56 == 0 && !inWindows va && phaseOk s core va &&
    (tlbFind (s.die (dieOfCore core)).tlb pasid va).isNone

/-- PREF: asks for a translation; no effect that programs can see, and no trap (R177). The walk
is one of the die's walks (R64). -/
def execPref (off : BitVec 10) (a : SReg) (s : State) : Out :=
  run (.pref off a) s (fun s =>
    let va := (s.addrMI a off 8).toNat
    let core := s.myCore
    let pasid := s.mine.pasid
    .next (retire (.pref off a) (if prefWants s core va pasid then askWalk s (.core core) false pasid va else s)))

end Sys2Proof.Machine
end

