-- ==== Sys2Proof/Machine/Atomic.lean ====
section
/-! DEFINITION. Atomic operations and FENCE (spec/07 R178 to R180, spec/11 R266 to R268). -/

namespace Sys2Proof.Machine
open Sys2Proof

/-- Whether ord asks for an acquire (R38). -/
def ordAcq (o : BitVec 2) : Bool := o.getLsbD 0
/-- Whether ord asks for a release (R38). -/
def ordRel (o : BitVec 2) : Bool := o.getLsbD 1

/-- sext(old, 8n) (R178). -/
def amoOld (w : Bool) (old : Nat) : DWord :=
  if w then (BitVec.ofNat 32 old).signExtend 64 else dw old

/-- The old value that an atomic access has got, once it has performed at its home on another die. -/
def amoGot (s : State) : Option (Option Nat) :=
  match s.me.wait with
  | some { what := .atomic a, .. } => a
  | _ => none

/-- Whether the atomic access of the context stands in an outbound queue. -/
def amoWaits (s : State) : Bool :=
  match s.me.wait with
  | some { what := .atomic _, .. } => true
  | _ => false

/-- An atomic access is over: the acquire after it, s[d] := sext(old, 8n) (R178, R267). -/
def amoEnd (i : Instr) (scope : BitVec 3) (o : BitVec 2) (w : Bool) (d : SReg) (old : Nat) (s : State) : Out :=
  done i d (amoOld w old) (if ordAcq o then acquire s s.myDie scope.toNat else s)

/-- Whether an atomic access with the value `old` at its home stores (R180). -/
def amoStores (i : Instr) (y cmp : DWord) (old : Nat) : Bool := (amoNew i y cmp old).isSome

/-- An atomic access reaches its home (R266): on the context's own die it acts at once; another die's
home it reaches through Q(D→E), behind the older entries, and the context waits for the old value; a CAS
with `rel` releases there, if it stores (R180).
A later fetch of the context keeps the bytes as they were (R176). -/
def amoSend (i : Instr) (scope : BitVec 3) (o : BitVec 2) (w : Bool) (d : SReg) (h : Nat)
    (chk : Option Chk) (y cmp : DWord) (rel : Bool) (s : State) : Out :=
  if homeDie h = s.myDie then
    let (old, s) := amoAct (fetchKeep s s.cur h (amoBytes w)) s.myDie s.mine.pasid h chk i y cmp
    amoEnd i scope o w d old s
  else
    .next (waitFor i (.atomic none) 0 (issueEntry (fetchKeep s s.cur h (amoBytes w))
      { src := s.myDie, dst := homeDie h, home := h, bytes := [], fill := [], chk := chk,
        pasid := s.mine.pasid, unit := false, fe := false, op := none, amo := some (.scalar s.cur i y cmp rel), joined := false }))

/-- Whether an instruction is a CAS. -/
def isCas : Instr → Bool
  | .cas _ _ _ _ _ _ => true
  | _ => false

/-- An atomic access (R178 to R180, R266): the checks for a read and a write, the buffer drained, the
release before it, and the access at its home. A CAS releases only if it stores (R180): on its own die's
home that is known before it acts, and on another's where it performs. -/
def rmw (i : Instr) (scope : BitVec 3) (o : BitVec 2) (w : Bool) (b a d : SReg) (s : State) : Out :=
  let va := s.reg a
  match amoGot s with
  | some (some old) => amoEnd i scope o w d old (clearWait s)
  | some none => trap i 0x04 va s
  | none =>
    if amoWaits s then .next s
    else
      let n := amoBytes w
      let y := s.reg b
      let cmp := s.reg d
      match scalarPlace s s.cur .amo va n n with
      | (.error c, s) => fail i c va s
      | (.ok (.home h chk), s) =>
        let s := drainAll s s.cur
        let near := homeDie h == s.myDie
        if near && !chkOk s s.mine.pasid chk then trap i 0x04 va s
        else if near && poisoned s h n then .next (poisonStop s)
        else
          let rel := ordRel o && decide (4 ≤ scope.toNat)
          let stores := if near then amoStores i y cmp (leNat (memRead h n s.mem)) else !isCas i
          let s := if rel && stores then releaseMe s else s
          amoSend i scope o w d h chk y cmp (rel && isCas i) s
      | (.ok _, s) => trap i 0x04 va s

/-- An AMO or CAS (R178). -/
def amoOp (i : Instr) (scope : BitVec 3) (o : BitVec 2) (w : Bool) (b a d : SReg) (s : State) : Out :=
  run i s (rmw i scope o w b a d)

/-- AMOADD (R178). -/
def execAmoAdd (scope : BitVec 3) (o : BitVec 2) (w : Bool) (b a d : SReg) (s : State) : Out :=
  amoOp (.amoAdd scope o w b a d) scope o w b a d s
/-- AMOAND (R178). -/
def execAmoAnd (scope : BitVec 3) (o : BitVec 2) (w : Bool) (b a d : SReg) (s : State) : Out :=
  amoOp (.amoAnd scope o w b a d) scope o w b a d s
/-- AMOOR (R178). -/
def execAmoOr (scope : BitVec 3) (o : BitVec 2) (w : Bool) (b a d : SReg) (s : State) : Out :=
  amoOp (.amoOr scope o w b a d) scope o w b a d s
/-- AMOXOR (R178). -/
def execAmoXor (scope : BitVec 3) (o : BitVec 2) (w : Bool) (b a d : SReg) (s : State) : Out :=
  amoOp (.amoXor scope o w b a d) scope o w b a d s
/-- AMOMIN (R178). -/
def execAmoMin (scope : BitVec 3) (o : BitVec 2) (w : Bool) (b a d : SReg) (s : State) : Out :=
  amoOp (.amoMin scope o w b a d) scope o w b a d s
/-- AMOMAX (R178). -/
def execAmoMax (scope : BitVec 3) (o : BitVec 2) (w : Bool) (b a d : SReg) (s : State) : Out :=
  amoOp (.amoMax scope o w b a d) scope o w b a d s
/-- AMOMINU (R178). -/
def execAmoMinu (scope : BitVec 3) (o : BitVec 2) (w : Bool) (b a d : SReg) (s : State) : Out :=
  amoOp (.amoMinu scope o w b a d) scope o w b a d s
/-- AMOMAXU (R178). -/
def execAmoMaxu (scope : BitVec 3) (o : BitVec 2) (w : Bool) (b a d : SReg) (s : State) : Out :=
  amoOp (.amoMaxu scope o w b a d) scope o w b a d s
/-- AMOSWAP (R178). -/
def execAmoSwap (scope : BitVec 3) (o : BitVec 2) (w : Bool) (b a d : SReg) (s : State) : Out :=
  amoOp (.amoSwap scope o w b a d) scope o w b a d s

/-- CAS (R178, R180): stores s[b] when the old value equals s[d]. -/
def execCas (scope : BitVec 3) (o : BitVec 2) (w : Bool) (b a d : SReg) (s : State) : Out :=
  amoOp (.cas scope o w b a d) scope o w b a d s

/-- The effect of a FENCE (R268, R176). -/
def fenceEffect (scope : Nat) (s : State) : State :=
  let s := drainAll s s.cur
  let s := if 4 ≤ scope then performAll s s.myDie else s
  let s := acquire s s.myDie scope
  s.modMe (fun c => { c with fetchOld := [] })

/-- FENCE (R268). -/
def execFence (scope : BitVec 3) (s : State) : Out :=
  run (.fence scope) s (fun s => .next (retire (.fence scope) (fenceEffect scope.toNat s)))

end Sys2Proof.Machine
end

