-- ==== Sys2Proof/Machine/Confluence.lean ====
section
/-! DEFINITION. The Confluence: arrivals, completed barriers and imbalance records (spec/12 R296 to
R298). -/

namespace Sys2Proof.Machine
open Sys2Proof

/-! ## The Confluence (R296, R298) -/

/-- Whether every member has made its arrival number C (R296). -/
def Group.ready (g : Group) : Bool :=
  g.members.all (fun r => decide (g.completed < tget g.arrived r 0))

/-- The status a barrier keeps: the nonzero one of its lowest-ranked member (R296). -/
def lowestStatus (as : List Arrival) : Nat × BitVec 16 :=
  (as.filter (fun a => a.status != 0#16)).foldl
    (fun b a => if b.2 = 0#16 ∨ a.rank < b.1 then (a.rank, a.status) else b) (0, 0#16)

/-- The 32 bytes of an imbalance record (R298). -/
def imbalanceRec (as : List Arrival) (k : Nat) : List Byte :=
  let ts := as.map (fun a => a.time.toNat)
  let early := ts.foldl min (ts.headD 0)
  let late := ts.foldl max 0
  let last := (as.filter (fun a => a.time.toNat == late)).foldl (fun m a => min m a.core) 65535
  leBytes 8 early ++ leBytes 8 late ++ leBytes 8 (ts.foldl (· + ·) 0) ++ leBytes 2 last ++ leBytes 2 0
    ++ leBytes 4 k

/-- The imbalance record of a completed barrier on group 255, written by the Confluence root as a
plain store in the launch's PASID (R298), in a host or peer page too (R69). The root is no core, so
a private window names no memory of its own: an access fault (DEDUCED, log 43). -/
def imbalance (s : State) (l : Launch) (as : List Arrival) (k : Nat) : State :=
  if l.imb = 0#64 then s
  else
    let va := l.imb.toNat + 32 * (k % 2 ^ l.imblog)
    if inTcm va || inSpm va then s.report (.imbalance va)
    else
      match locateNow s .io 0 l.pasid .store va 32 with
      | (.ok (.home h chk), s) =>
        if chkOk s l.pasid chk then perform s 96 l.pasid h (imbalanceRec as k) [] chk false
        else s.report (.imbalance va)
      | (.ok (.pcie h _), s) => perform s 96 l.pasid h (imbalanceRec as k) [] none false
      | (_, s) => s.report (.imbalance va)

/-- The next barrier of a group completes (R296). -/
def completeBarrier (s : State) (lid gn : Nat) : State :=
  match s.launch? lid with
  | none => s
  | some l =>
    match l.group? gn with
    | none => s
    | some g =>
      if !g.ready then s
      else
        let k := g.completed
        let as := g.arrivals.filter (fun a => a.k == k)
        let (r, st) := lowestStatus as
        let low := g.members.foldl (fun m x => min m (tget g.waited x 0)) k
        let s := if gn = 255 then imbalance s l as k else s
        s.modGroup lid gn (fun g =>
          { g with
            completed := k + 1
            arrivals := g.arrivals.filter (fun a => a.k != k)
            results := (g.results.filter (fun x => decide (low ≤ x.1))) ++ [(k, r, st)] })

/-- An arrival of a member at its group's barrier (R296). -/
def arriveAt (s : State) (lid gn rank core : Nat) (status : BitVec 16) : State :=
  let s := s.modGroup lid gn (fun g =>
    let k := tget g.arrived rank 0
    { g with
      arrived := tset rank (k + 1) g.arrived
      arrivals := g.arrivals ++ [{ k := k, rank := rank, core := core, status := status, time := s.time }] })
  completeBarrier s lid gn

/-- Arrivals of a member that no completed barrier has taken (A − C, R296). -/
def Group.ahead (g : Group) (rank : Nat) : Nat := tget g.arrived rank 0 - g.completed

/-- The result of a barrier wait (R297). -/
def barResult (g : Group) (k : Nat) : DWord :=
  match g.results.find? (fun x => x.1 == k) with
  | some (_, r, st) => dw (k % 65536 * 2 ^ 32 + r * 65536 + st.toNat)
  | none => dw (k % 65536 * 2 ^ 32)

end Sys2Proof.Machine
end

