-- ==== Sys2Proof/Machine/Queues.lean ====
section
/-! DEFINITION. Queue control blocks and the posting of records to event and status queues
(spec/12 R278, R279, R284, spec/06 R144). -/

namespace Sys2Proof.Machine
open Sys2Proof

/-! ## Queue control blocks (R278, R279) -/

/-- The fields of a QCB (R278). -/
structure Qcb where
  ring : Nat
  size : Nat
  head : Nat
  tail : Nat
  state : Nat
  statusq : Nat
  deriving DecidableEq, Repr

/-- The 48-bit key of a queue (R279). -/
def qkey (pasid qnum gen : Nat) : Nat := pasid % 2 ^ 20 + qnum % 4096 * 2 ^ 20 + gen % 65536 * 2 ^ 32

/-- The PASID of a key. -/
def keyPasid (key : Nat) : Nat := key % 2 ^ 20
/-- QNUM of a key. -/
def keyQnum (key : Nat) : Nat := key / 2 ^ 20 % 4096
/-- GEN of a key. -/
def keyGen (key : Nat) : Nat := key / 2 ^ 32 % 65536

/-- The address of a bucket (R278). -/
def bucketAddr (s : State) (b : Nat) : Nat := s.qtbase.toNat + 64 * (b % 4096)

/-- The home bucket of a key (R279). -/
def homeBucket (key : Nat) : Nat := (crc32c (leBytes 6 key)).toNat % 4096

/-- A number of `n` bytes at a home. -/
def readLe (s : State) (a n : Nat) : Nat := leNat (memRead a n s.mem)

/-- The probes of R279, `left` of them from bucket `b` on: the bucket that hits. A poisoned bucket gives no
data (R75), and the search passes on (DEDUCED, log 46). -/
def probe (s : State) (key : Nat) : Nat → Nat → Option Nat
  | 0, _ => none
  | left + 1, b =>
    let k := readLe s (bucketAddr s b) 8
    if poisoned s (bucketAddr s b) 64 then probe s key left (b + 1)
    else if k = 0 then none
    else if nbit k 63 && k % 2 ^ 48 == key then some (b % 4096)
    else probe s key left (b + 1)

/-- The bucket of a queue (R279). -/
def qbucket (s : State) (key : Nat) : Option Nat := probe s key 8 (homeBucket key)

/-- A poisoned bucket among the eight that a key may lie in. -/
def badBucket (s : State) (key : Nat) : Option Nat :=
  ((List.range 8).map (fun i => homeBucket key + i)).find? (fun b => poisoned s (bucketAddr s b) 64)

/-- A lookup's reads of the queue table: the policy core is told of one that gave no data (R75). -/
def tellLookup (s : State) (key : Nat) : State :=
  match badBucket s key with
  | none => s
  | some b => s.report (.uncorrectable 0 (bucketAddr s b / 64))

/-- The QCB in a bucket. -/
def bucketQcb (s : State) (b : Nat) : Qcb :=
  let a := bucketAddr s b
  { ring := readLe s (a + 8) 8, size := readLe s (a + 16) 4, head := readLe s (a + 20) 2,
    tail := readLe s (a + 22) 2, state := readLe s (a + 24) 1, statusq := readLe s (a + 32) 8 }

/-- The policy core's overflow QCB of a key (R279). -/
def overflow? (s : State) (key : Nat) : Option Overflow := s.overflow.find? (fun o => o.key == key)

/-- The QCB of an overflow entry. -/
def Overflow.qcb (o : Overflow) : Qcb :=
  { ring := o.ring.toNat, size := o.size, head := o.head, tail := o.tail, state := o.state,
    statusq := o.statusq.toNat }

/-- The QCB of a key, wherever it is kept. -/
def qcb? (s : State) (key : Nat) : Option Qcb :=
  match qbucket s key with
  | some b => some (bucketQcb s b)
  | none => (overflow? s key).map Overflow.qcb

/-- The Headgate or the policy core writes bytes at a home of HBM: performed at the home
(R271, R278). A whole QCB clears its unit's poison mark (R75). -/
def putBytes (s : State) (a : Nat) (bs : List Byte) : State := perform s 96 0 a bs [] none (bs.length == 64)

/-- Sets HEAD of a queue (R278). -/
def qsetHead (s : State) (key v : Nat) : State :=
  match qbucket s key with
  | some b => putBytes s (bucketAddr s b + 20) (leBytes 2 v)
  | none => { s with overflow := updFirst (fun o => o.key == key) (fun o => { o with head := v % 65536 }) s.overflow }

/-- Sets TAIL of a queue (R278). -/
def qsetTail (s : State) (key v : Nat) : State :=
  match qbucket s key with
  | some b => putBytes s (bucketAddr s b + 22) (leBytes 2 v)
  | none => { s with overflow := updFirst (fun o => o.key == key) (fun o => { o with tail := v % 65536 }) s.overflow }

/-- Sets STATE of a queue, by the policy core (R278). -/
def qsetState (s : State) (key v : Nat) : State :=
  match qbucket s key with
  | some b => putBytes s (bucketAddr s b + 24) (leBytes 1 v)
  | none => { s with overflow := updFirst (fun o => o.key == key) (fun o => { o with state := v }) s.overflow }

/-! ## Posting (R144) -/

/-- Why a queue's address cannot be used: its access faults, or a walk for it is on its way (R64). -/
inductive QueueErr where
  | fault
  | later
  deriving DecidableEq, Repr

/-- A poster's access to an address meets a poisoned unit, its own or a page table's (R75): the launch whose
core's queue it is, is job-fatal; of a status queue the policy core is told. -/
def postPoison (s : State) (launch : Option Nat) (core pasid va : Nat) : State :=
  match launch with
  | some l => s.markFatal l { cause := 0x48, core := core, frec := [] }
  | none => s.report (.poisoned pasid va)

/-- An address of a queue, checked for a read and a write of the poster: its place, and whether it is a
host or peer page. A queue lies in paged memory or in the private TCM window (R144). -/
def queueHome (s : State) (lv : TlbLevel) (launch : Option Nat) (core pasid va n : Nat) :
    Except QueueErr (Nat × Bool) × State :=
  let (p, s) : Except XErr Place × State :=
    if inWindows va then
      if inTcm va then locate s lv core pasid .load va n else (.error .access, s)
    else pagedFor false s lv pasid [.load, .store] va
  match p with
  | .ok (.home h _) => if poisoned s h n then (.error .fault, postPoison s launch core pasid va) else (.ok (h, false), s)
  | .ok (.pcie h _) => (.ok (h, true), s)
  | .error .later => (.error .later, s)
  | .error .poison => (.error .fault, postPoison s launch core pasid va)
  | _ => (.error .fault, s)

/-- A record is written to a queue whose header reads `hdr`, TAIL last and as a store-release, or is
counted in DROPPED (R144): whether that was done, or else the record is discarded and the policy core
is to be told; none while the record's place waits for a walk. -/
def putRecord (s : State) (lv : TlbLevel) (launch : Option Nat) (core pasid die base h : Nat)
    (hdr rec_ : List Byte) : Option Bool × State :=
  let head := leNat (hdr.take 4)
  let tail := leNat ((hdr.drop 4).take 4)
  let cap := leNat ((hdr.drop 8).take 4)
  let dropped := leNat (hdr.drop 12)
  if cap = 0 ∨ 65536 < cap ∨ 2 ^ cap.log2 ≠ cap then (some false, s)
  else if (tail + 2 ^ 32 - head) % 2 ^ 32 < cap then
    match queueHome s lv launch core pasid (base + 64 + 32 * (tail % cap)) 32 with
    | (.error .later, s) => (none, s)
    | (.error .fault, s) => (some false, s)
    | (.ok (r, _), s) =>
      let s := issueWrite s die pasid r (rec_.take 16) [] none false
      let s := issueWrite s die pasid (r + 16) (rec_.drop 16) [] none false
      let s := performAll s die
      (some true, issueWrite s die pasid (h + 4) (leBytes 4 (tail + 1)) [] none false)
  else
    (some true, issueWrite s die pasid (h + 12) (leBytes 4 (min (dropped + 1) (2 ^ 32 - 1))) [] none false)

/-- The TLBs that a post which waits goes through. -/
def Post.level (p : Post) : TlbLevel :=
  match p.lv with
  | some c => .core c
  | none => .io

/-- The post of a record, as one that waits. -/
def postOf (id : Nat) (lv : TlbLevel) (launch : Option Nat) (core pasid die base : Nat) (rec_ : List Byte) : Post :=
  { id := id, launch := launch, core := core, pasid := pasid, die := die, base := base, bytes := rec_,
    lv := match lv with
      | .core c => some c
      | _ => none }

/-- Whether a post that waits is to a queue; the private TCM window names a queue of each core (R144). -/
def Post.isTo (core pasid base : Nat) (p : Post) : Bool :=
  p.base == base && p.pasid == pasid && (p.core == core || !inTcm base)

/-- One post goes on: none while it waits for a walk, or for the header of a queue in a host or peer page,
which is read over the link first (R64, R69). -/
def tryPost (s : State) (p : Post) : Option Bool × State :=
  match queueHome s p.level p.launch p.core p.pasid p.base 64 with
  | (.error .later, s) => (none, s)
  | (.error .fault, s) => (some false, s)
  | (.ok (h, false), s) => putRecord s p.level p.launch p.core p.pasid p.die p.base h (viewRead s p.die h 16) p.bytes
  | (.ok (h, true), s) =>
    match ioPcie (performQueue s p.die 96) (.post p.id) p.pasid h 16 p.base with
    | (none, s) => (none, s)
    | (some none, s) => (some false, s)
    | (some (some hdr), s) => putRecord s p.level p.launch p.core p.pasid p.die p.base h hdr p.bytes

/-- A post to a queue (R144): whether it was made, counted as dropped, or waits, behind the earlier ones to
its queue, or else the record is discarded and the policy core is to be told. -/
def postQueue (s : State) (lv : TlbLevel) (launch : Option Nat) (core pasid die base : Nat) (rec_ : List Byte) :
    Bool × State :=
  if base = 0 then (false, s)
  else
    let wait (s : State) : Bool × State :=
      let (id, s) := s.fresh
      (true, { s with posts := s.posts ++ [postOf id lv launch core pasid die base rec_] })
    if s.posts.any (Post.isTo core pasid base) then wait s
    else
      match queueHome s lv launch core pasid base 64 with
      | (.error .later, s) => wait s
      | (.error .fault, s) => (false, s)
      | (.ok (_, true), s) => wait s
      | (.ok (h, false), s) =>
        match putRecord s lv launch core pasid die base h (viewRead s die h 16) rec_ with
        | (none, s) => wait s
        | (some r, s) => (r, s)

/-- A post is over; the policy core is told of a record that was discarded (R144). -/
def endPost (s : State) (p : Post) (r : Bool) : State :=
  let s := ioClear { s with posts := s.posts.filter (fun x => x.id != p.id) } (.post p.id)
  if r then s else s.report (.event p.core)

/-- The oldest post that waits goes on (R69, R144). -/
def servePost (s : State) : State :=
  match s.posts with
  | [] => s
  | p :: _ =>
    match tryPost s p with
    | (none, s) => s
    | (some r, s) => endPost s p r

/-! ## Status queues (R284) -/

/-- A status record of 32 bytes (R284). -/
def statusRec (kind core aux : Nat) (a b time : DWord) : List Byte :=
  leBytes 2 kind ++ leBytes 2 core ++ leBytes 4 aux ++ leBytes 8 a.toNat ++ leBytes 8 b.toNat
    ++ leBytes 8 time.toNat

/-- A record is posted to the status queue of a queue, translated in the queue's PASID (R284); one that has
none, at address 0, discards it and the policy core is told (R144). -/
def postStatus (s : State) (key die kind core aux : Nat) (a b : DWord) : State :=
  let s := tellLookup s key
  match qcb? s key with
  | none => s
  | some q =>
    match postQueue s .io none core (keyPasid key) die q.statusq (statusRec kind core aux a b s.time) with
    | (true, s) => s
    | (false, s) => s.report (.event core)

/-! ## Event queues of cores (R144, R346) -/

/-- The core that holds, or held when it was switched out, a core's place in a launch (R350). -/
def coreIn (s : State) (launch core : Nat) : Core × Bool :=
  if (s.core core).launch = some launch then (s.core core, false)
  else
    match (s.cluster (clusterOfCore core)).suspended.find? (fun p => p.launch == launch) with
    | none => (s.core core, false)
    | some p => ((p.cores.find? (fun c => c.1 == core)).elim (s.core core) (fun c => c.2), true)

/-- Changes the place of a launch on a core, in the core or where it is switched out. -/
def modCoreIn (s : State) (launch core : Nat) (f : Core → Core) : State :=
  if (coreIn s launch core).2 then
    s.modCluster (clusterOfCore core) (fun cl =>
      { cl with suspended := updFirst (fun p => p.launch == launch) (fun p =>
          { p with cores := p.cores.map (fun c => if c.1 == core then (c.1, f c.2) else c) }) cl.suspended })
  else s.modCore core f

/-- Whether a launch's share of a core's cluster is being saved: what reaches it then waits as it does at a
switched-out one, and is no part of the save (R346, R347; DEDUCED, log 38). -/
def beingSaved (s : State) (launch core : Nat) : Bool :=
  (s.cluster (clusterOfCore core)).saving.any (fun v => v.req.launch == launch)

/-- A record is posted to a core's event queue; `none` while the queue lies in the TCM of a
switched-out core, where the post waits (R346). -/
def postEvent (s : State) (launch core : Nat) (rec_ : List Byte) : Option State :=
  let (c, out) := coreIn s launch core
  let base := c.evq.toNat
  if (out || beingSaved s launch core) && inTcm base then none
  else
    match postQueue s (.core core) (some launch) core c.pasid (dieOfCore core) base rec_ with
    | (true, s) => some s
    | (false, s) => some (s.report (.event core))

end Sys2Proof.Machine
end

