-- ==== Sys2Proof/Machine/Child.lean ====
section
/-! DEFINITION. Child operations: tokens, acceptance, final states, posting and freeing, exit
(spec/06 R129 to R146). -/

namespace Sys2Proof.Machine
open Sys2Proof

/-! ## Tokens (R130, R131) -/

/-- The token of an operation (R130). -/
def Op.token (o : Op) : DWord := dw (o.core * 2 ^ 20 + o.gen * 256 + o.idx)

/-- The current generation of a token table entry: 1 at launch start (R130). -/
def entryGen (s : State) (core idx : Nat) : Nat := tget (s.core core).gens idx 1

/-- Whether an operation holds a token table entry (not a vector instruction or a member part). -/
def Op.holds (o : Op) : Bool := !o.vec && o.parent.isNone

/-- The operation that holds an entry; one of a switched-out launch holds it still (R147). -/
def entryOp (s : State) (core idx : Nat) : Option Op :=
  s.ops.find? (fun o => o.holds && o.core == core && o.idx == idx)

/-- The operation of a launch that holds an entry at a generation (R130, R131). -/
def entryAt (s : State) (launch : Option Nat) (core idx gen : Nat) : Option Op :=
  s.ops.find? (fun o => o.holds && o.core == core && o.idx == idx && some o.launch == launch && o.gen == gen)

/-- Whether a context of a launch owns an operation (R142): the same-numbered context of another launch
that has the core now does not. -/
def ownedBy (launch : Option Nat) (k : Nat) (o : Op) : Bool :=
  decide (o.standing = .attached k) && some o.launch == launch

/-- Whether the context that issues owns an operation (R142). -/
def mineOp (s : State) (o : Op) : Bool := ownedBy s.mine.launch s.cur o

/-- The core whose contexts an operation belongs to: its owner's, or the one that issued it (R142). -/
def Op.homeCore (o : Op) : Nat :=
  match o.standing with
  | .attached k => coreOf k
  | .adopter _ => o.core
  | .posting _ => o.core

/-- Whether the launch of an operation runs on a core at this moment. -/
def launchOn (s : State) (core : Nat) (o : Op) : Bool := (s.core core).launch == some o.launch

/-- The operation a token names for a launch, or none when the token is stale (R131); an entry
that is free names none (DEDUCED, log 14). A core whose cluster is switched out runs no rank of the launch at
that moment, so its tokens are stale until it is back (DESIGN CHOICE, log 14). -/
def tokenOp (s : State) (launch : Option Nat) (v : DWord) : Option Op :=
  let w := v.toNat
  let core := w / 2 ^ 20
  let gen := nbits w 8 6
  let idx := nbits w 0 6
  if w / 2 ^ 32 != 0 || nbits w 14 6 != 0 || nbits w 6 2 != 0 || gen == 0 then none
  else if (s.core core).launch != launch || launch.isNone || gen != entryGen s core idx then none
  else entryAt s launch core idx gen

/-- The engine class of R137; 7 for what has no token. -/
def opClass : Instr → Nat
  | .mma _ _ _ _ _ => 0
  | .mmag _ _ _ _ _ _ _ _ => 0
  | .copy _ _ _ _ _ _ => 1
  | .copym _ _ _ _ => 1
  | .pack _ _ _ _ => 1
  | .unpack _ _ _ _ => 1
  | .scadd _ _ _ _ => 2
  | .bflush _ _ => 2
  | .qntQ4uni _ _ _ => 3
  | .qntQ4e2m1 _ _ _ => 3
  | .qntQ4pow _ _ _ => 3
  | .qntQ4hyb _ _ _ => 3
  | .qntQ4auto _ _ _ => 3
  | .dqnt _ _ _ => 3
  | .qchk _ _ => 3
  | .winit _ _ _ => 4
  | .wprobe _ _ _ _ => 4
  | .wcommit _ _ _ _ _ _ => 4
  | .wpick _ _ _ _ => 4
  | .wrd _ _ _ _ => 4
  | .allred _ _ _ _ _ _ => 5
  | .redscat _ _ _ _ _ _ => 5
  | .allgath _ _ _ _ _ => 5
  | .bcast _ _ _ _ _ _ => 5
  | .alltoall _ _ _ _ _ => 5
  | .spec _ _ _ _ => 6
  | _ => 7

/-- The fault record (R137); a record of an operation that is not final has CAUSE and TIME 0
(R156). -/
def faultRec (o : Op) : List Byte :=
  let f := o.st.final
  leBytes 4 o.token.toNat ++ leBytes 2 (if f then o.cause else 0) ++ leBytes 1 (opClass o.instr)
    ++ leBytes 1 (b2n o.restored * 128 + b2n o.depfail * 64 + b2n o.trapf * 32 + b2n o.orphan * 16
        + b2n o.det * 8 + o.st.code)
    ++ leBytes 8 (if f then o.addr else 0) ++ leBytes 4 o.prog ++ leBytes 2 o.member ++ leBytes 2 0
    ++ leBytes 8 (if f then o.time.toNat else 0)

/-- The result of a token instruction (R149). -/
def opResult (o : Op) : DWord :=
  let cause := match o.st with
    | .faulted => o.cause
    | .cancelled => o.cause
    | _ => 0
  dw (cause * 65536 + o.st.code)

/-- The die an operation's engine sits on (R269): its core's, or the base die whose applier runs it (R99). -/
def Op.die (o : Op) : Nat := o.base.getD (dieOfCore o.core)

/-! ## Freeing and final states (R133, R134, R136, R140) -/

/-- Removes an operation without a final state (discard, R341). -/
def dropOp (s : State) (id : Nat) : State := { s with ops := s.ops.filter (fun o => o.id != id) }

/-- An entry is freed and its generation advanced (R136, R130). -/
def freeOp (s : State) (o : Op) : State :=
  let s := dropOp s o.id
  if !o.holds then s
  else
    modCoreIn s o.launch o.core (fun c =>
      let g := tget c.gens o.idx 1
      { c with gens := tset o.idx (if g = 63 then 1 else g + 1) c.gens })

/-- Whether an operation has an owner context (R142). -/
def Op.attached (o : Op) : Bool :=
  match o.standing with
  | .attached _ => true
  | .adopter _ => false
  | .posting _ => false

/-- The state code a waiting snapshot keeps of a final operation (R157). -/
def snapState (st : OpState) : BitVec 3 := BitVec.ofNat 3 st.code

/-- Every snapshot of a WAITS learns an operation's final state (R134, R157). -/
def tellSnaps (s : State) (id : Nat) (st : OpState) : State :=
  { s with
    ctxs := s.ctxs.map (fun p =>
      (p.1, match p.2.wait with
        | some w =>
          match w.what with
          | .slots ms =>
            { p.2 with wait := some { w with what := .slots (ms.map (fun m =>
                if m.id == id then { m with st := some (snapState st) } else m)) } }
          | _ => p.2
        | none => p.2)) }

/-- The barrier arrivals that an MMAG delivers to every member when it becomes final (R222). -/
def mmagArrive (s : State) (o : Op) (f : Final) : State :=
  match o.instr, o.parent with
  | .mmag _ _ _ _ _ _ _ _, none =>
    match s.launch? o.launch with
    | none => s
    | some l =>
      o.members.foldl (fun s r =>
        arriveAt s o.launch o.group r (rankCore l r)
          (BitVec.ofNat 16 (if f.st = .done then 0 else f.cause))) s
  | _, _ => s

/-- The abort that a member's failing part of a collective sends (R259): it names the member itself
for a fault or a cancel, the lowest missing rank for a timeout. A match that has been aborted stays so. -/
def collAbort (s : State) (o : Op) (f : Final) : State :=
  if opClass o.instr == 5 && f.st != .done && f.cause != 0x46 && f.cause != 0x44 &&
      !s.aborts.any (fun a => a.frame.isNone && a.launch == o.launch && a.group == o.group && a.matchNo == o.matchNo) then
    { s with aborts := s.aborts ++ [{ launch := o.launch, group := o.group, matchNo := o.matchNo,
                                       culprit := if f.cause = 0x47 then f.member else o.mrank,
                                       cause := 0x46, sent := false, frame := none }] }
  else s

/-- One operation becomes final: record, slots and snapshots, in one action (R134), which is a release
at module scope on its die (R266, R269). A silent operation (sT = s0) is freed when DONE, otherwise
its record is to be posted (R136). One of a live owner that is to be posted so counts as having no owner until
it is (DESIGN CHOICE, log 47: R142 gives standings only to operations that are not final). -/
def makeFinal (s : State) (o : Op) (f : Final) (dep : Bool) : State :=
  let s := performAll s o.die
  let o' : Op :=
    { o with
      st := f.st
      cause := if f.st = .done then 0 else f.cause
      addr := f.addr
      member := f.member
      prog := f.progress
      depfail := dep
      time := s.time
      inSlot := false
      place := false
      want := none
      fin := none
      pend := []
      got := []
      waits := []
      snap := []
      standing := match o.standing with
        | .attached k => if o.noTok && f.st != .done then .posting (coreOf k) else .attached k
        | .adopter c => .adopter c
        | .posting c => .posting c }
  let s := s.modOp o.id (fun _ => o')
  let s := collAbort (mmagArrive (tellSnaps s o.id f.st) o f) o f
  let s := { s with ops := s.ops.map (fun p => { p with waits := p.waits.filter (fun i => i != o.id) }) }
  let s := if o.holds && (s.core o.core).launch == some o.launch then
      trace s o.core 3 (numOf o.ctx) (dw (o.token.toNat + f.st.code * 2 ^ 32)) (dw (if f.st = .done then 0 else f.cause))
    else s
  if !o.holds || (o.noTok && f.st == .done && o'.attached) then freeOp s o' else s

/-- The queued child operations whose snapshot holds an operation that failed (R140). -/
def dependants (s : State) (id : Nat) : List Op :=
  s.ops.filter (fun p => p.st == .queued && !p.vec && p.snap.contains id)

/-- The chain of R140: `fuel` bounds its length. -/
def cascade : Nat → State → List (Op × DWord) → State
  | 0, s, _ => s
  | _ + 1, s, [] => s
  | n + 1, s, (p, tok) :: r =>
    match s.op? p.id with
    | none => cascade n s r
    | some p =>
      if p.st != .queued then cascade n s r
      else
        let s' := makeFinal s p { st := .cancelled, cause := 0x45, addr := tok.toNat, member := 0xFFFF,
                                   progress := 0 } true
        cascade n s' (r ++ (dependants s p.id).map (fun q => (q, p.token)))

/-- An operation becomes final, and those that wait on a failed one are cancelled (R134, R140); none of a
job-fatal launch does (R133). -/
def finalise (s : State) (id : Nat) (f : Final) : State :=
  match s.op? id with
  | none => s
  | some o =>
    if o.st.final || launchDead s o.launch then s
    else
      let deps := dependants s id
      let s := makeFinal s o f false
      if f.st = .done then s
      else cascade (2 * s.ops.length * s.ops.length + 2) s (deps.map (fun q => (q, o.token)))

/-- The core that a final operation's record is to be posted to, if it is (R136, R143). -/
def Op.postTo (o : Op) : Option Nat :=
  if !o.st.final then none
  else match o.standing with
    | .attached _ => none
    | .adopter c => some c
    | .posting c => some c

/-- The record of a final operation is posted and its entry freed (R136, R143, R144); none of a job-fatal
launch is (R341). -/
def postOp (s : State) (id : Nat) : State :=
  match s.op? id with
  | none => s
  | some o =>
    match (if launchDead s o.launch then none else o.postTo) with
    | none => s
    | some c =>
      match postEvent s o.launch c (faultRec o) with
      | none => s
      | some s => freeOp s o

/-! ## Acceptance (R135, R139) -/

/-- The operations of a context of the launch on its core that stand in its slot `i` (R139). -/
def slotMembers (s : State) (k i : Nat) : List Op :=
  s.ops.filter (fun o => o.ctx == k && launchOn s (coreOf k) o && o.inSlot && o.slot == some i && !o.st.final)

/-- The snapshot of a mask, lowest slot first, then issue order. -/
def snapshot (s : State) (k mask : Nat) : List Op :=
  ((List.range 8).filter (fun i => nbit mask i)).flatMap (fun i => slotMembers s k i)

/-- The free entries of a core's token table. -/
def freeEntries (s : State) (core : Nat) : List Nat :=
  (List.range 64).filter (fun i => (entryOp s core i).isNone)

/-- The core of the adopter of a group of a launch (R143, R289). -/
def adopterCore (l : Launch) (g : Nat) : Nat :=
  match l.group? g with
  | some x => rankCore l x.adopter
  | none => rankCore l 0

/-- An operation as acceptance makes it, by the context that issues. -/
def newOp (s : State) (id : Nat) (i : Instr) (vec : Bool) (wait pri : Nat) (trapf rel det : Bool)
    (slot : Option (BitVec 3)) : Op :=
  let snap := (snapshot s s.cur wait).map Op.id
  let c := s.me
  let x := s.mine
  { id := id, core := s.myCore, ctx := s.cur, idx := 0, gen := 0, vec := vec, instr := i,
    launch := x.launch.getD 0, pasid := x.pasid, st := .queued, standing := .attached s.cur,
    pri := pri, trapf := trapf, rel := rel, det := det, orphan := false, restored := false,
    depfail := false, noTok := false, slot := slot.map BitVec.toNat, inSlot := slot.isSome,
    snap := snap, waits := snap, hA := 0#256, hB := 0#256, hC := 0#256, xv := 0#64, yv := 0#64,
    zv := 0#64, csr := c.qctl, rcb := x.rcbase, rcs := x.rcsize, group := 0, members := [],
    phase2 := x.ph == 2#2, cancel := false, cancelAt := 0, pend := [], got := [], prog := 0, pos := [], scr := [], res := [],
    slotA := none, slotB := none, slotC := none, place := false, startNo := 0, placeNo := 0, base := none, want := none, seq := 0, parent := none,
    mrank := 0xFFFF, matchNo := 0, since := 0, fin := none, cause := 0, addr := 0, member := 0xFFFF,
    time := 0#64 }

/-- A child operation is accepted (R135): a token table entry chosen among the free ones
(a free value, log 6), the snapshot, the slot, the token to sT; issue stalls while none is free.
DET = 1 detaches it to the adopter of the group in g0 (R143), which is checked before an entry is
sought. -/
def accept (i : Instr) (o : EOrd) (f : Op → Op) (s : State) : Out :=
  let g0 := slotGroup s.mine 0
  if o.det && g0.isNone then trap i 0x0A 0#64 s
  else
    match freeEntries s s.myCore with
    | [] => .next s
    | e :: es =>
      let (n, s) := s.free
      let (id, s) := s.fresh
      let idx := (e :: es).getD (n % (es.length + 1)) e
      let p := newOp s id i false o.wait.toNat o.pri.toNat o.trapf o.rel o.det o.slot
      let p := { p with idx := idx, gen := entryGen s s.myCore idx, noTok := o.sT == 0#5 }
      let p := match o.det, g0, s.launchOf s.myCore with
        | true, some g, some l => { p with standing := .adopter (adopterCore l g) }
        | _, _, _ => p
      let p := f p
      done i o.sT p.token { s with ops := s.ops ++ [p] }

/-- The stores to the ring table in the store buffer of the context that issues leave it, before an
instruction reads the table (R263, R266). -/
def settleRings (s : State) : State := drainN s s.cur (leaveUpTo (fun e => e.ring.isSome) s.me.sbuf)

/-- Acceptance with the scalar and handle operands taken by `f`, and the checks `chk` of the
entry, which answer a trap's cause and value (R42, R135). -/
def childOp (i : Instr) (o : EOrd) (chk : State → Option (Nat × DWord)) (f : State → Op → Op)
    (s : State) : Out :=
  run i s (fun s =>
    let s := settleRings s
    match chk s with
    | some (c, v) => trap i c v s
    | none => accept i o (f s) s)

/-! ## Exit (R141, R145, R294) -/

/-- An operation when a context of a launch exits: an orphan, if it is not final; otherwise freed or to
be posted (R136, R145). The exited context's slots and snapshots end (R141). -/
def orphanOp (s : State) (launch : Option Nat) (k : Nat) (o : Op) : Op :=
  let o := if o.ctx = k ∧ some o.launch = launch then { o with inSlot := false, snap := [] } else o
  if !ownedBy launch k o || !o.holds then o
  else if o.st.final then { o with standing := .posting (coreOf k) }
  else if numOf k != 0 then { o with orphan := true, standing := .attached (coreOf k * 16) }
  else
    let c := match s.launch? o.launch with
      | some l => adopterCore l 255
      | none => o.core
    { o with orphan := true, det := true, standing := .adopter c }

/-- The effect of a context's exit on its operations (R136, R141, R145). -/
def orphanAll (s : State) (k : Nat) : State :=
  let launch := (s.core (coreOf k)).launch
  let gone := s.ops.filter (fun o => ownedBy launch k o && o.st == .done)
  let s := gone.foldl freeOp s
  { s with ops := s.ops.map (orphanOp s launch k) }

end Sys2Proof.Machine
end

