-- ==== Sys2Proof/Machine/Barrier.lean ====
section
/-! DEFINITION. Barriers, the Confluence and supersteps (spec/12 R296 to R300). -/

namespace Sys2Proof.Machine
open Sys2Proof

/-! ## Arriving and waiting as an instruction does -/

/-- The launch and the group in slot `a` of the core that issues, or the trap of R290 and R296. -/
def slotBarrier (s : State) (slot : Nat) : Except DWord (Nat × Group) :=
  match slotGroup s.mine slot with
  | none => .error (dw slot)
  | some gn =>
    match s.launchOf s.myCore with
    | none => .error (dw slot)
    | some l =>
      match l.group? gn with
      | none => .error (dw slot)
      | some g => if g.xmod then .error (dw gn) else .ok (l.id, g)

/-- Makes the arrival of the core that issues: a release (R266); waits while it would put A − C
above 16 (R296). -/
def barArrive (i : Instr) (lid : Nat) (g : Group) (status : BitVec 16) (s : State) (k : State → Out) :
    Out :=
  if 16 ≤ g.ahead s.mine.rank then
    (if s.me.wait.isSome then .next s else .next (waitFor i .arrival 0 s))
  else k (arriveAt (releaseMe s) lid g.gnum s.mine.rank s.myCore status)

/-- Waits for barrier W of a group (R296): an acquire, then `fin` on the result. The wait reads W
when it is served (DEDUCED, log 17). -/
def barWait (i : Instr) (lid gn : Nat) (s : State) (fin : DWord → State → Out) : Out :=
  match (s.launch? lid).bind (fun l => l.group? gn) with
  | none => .next s
  | some g =>
    let w := tget g.waited s.mine.rank 0
    if w < g.completed then
      fin (barResult g w)
        (acquireMe (s.modGroup lid gn (fun g => { g with waited := tset s.mine.rank (w + 1) g.waited })))
    else
      match s.me.wait with
      | some { what := .barrier _, .. } => .next s
      | _ => .next (waitFor i (.barrier gn) 0 s)

/-- Whether the instruction that issues already waits at its barrier. -/
def atBarrier (s : State) : Bool :=
  match s.me.wait with
  | some { what := .barrier _, .. } => true
  | _ => false

/-- BARA (R297). -/
def execBara (g : BitVec 2) (b : SReg) (s : State) : Out :=
  run (.bara g b) s (fun s =>
    match slotBarrier s g.toNat with
    | .error v => trap (.bara g b) 0x0A v s
    | .ok (lid, x) =>
      barArrive (.bara g b) lid x ((s.reg b).setWidth 16) s (fun s => .next (retire (.bara g b) s)))

/-- A barrier wait ends: the trace record and the result (R379). -/
def barDone (i : Instr) (d : SReg) (gn : Nat) (r : DWord) (s : State) : Out :=
  done i d r (trace s s.myCore 5 (numOf s.cur) (dw gn) r)

/-- BARW (R297). -/
def execBarw (d : SReg) (g : BitVec 2) (s : State) : Out :=
  run (.barw d g) s (fun s =>
    match slotBarrier s g.toNat with
    | .error v => trap (.barw d g) 0x0A v s
    | .ok (lid, x) => barWait (.barw d g) lid x.gnum s (barDone (.barw d g) d x.gnum))

/-- BAR: BARA, then BARW (R297). -/
def execBar (d : SReg) (g : BitVec 2) (b : SReg) (s : State) : Out :=
  run (.bar d g b) s (fun s =>
    let i : Instr := .bar d g b
    match slotBarrier s g.toNat with
    | .error v => trap i 0x0A v s
    | .ok (lid, x) =>
      let wait (s : State) : Out := barWait i lid x.gnum s (barDone i d x.gnum)
      if atBarrier s then wait s else barArrive i lid x ((s.reg b).setWidth 16) s wait)

/-! ## EXCH and STEP (R299, R300) -/

/-- Whether an operation or vector instruction that a context of a core issued in the exchange
phase is still to end before STEP (R300). -/
def exchangeWork (s : State) (core : Nat) : Bool :=
  s.ops.any (fun o => o.core == core && o.phase2 && !o.det && !o.st.final && o.parent.isNone)

/-- Whether an operation of a core is RUNNING (R300). -/
def coreRunning (s : State) (core : Nat) : Bool := s.ops.any (fun o => o.core == core && o.st == .running)

/-- The end of a superstep instruction (R300, R377): a requested debug stop takes effect once the
core's writes are performed and no operation of it is RUNNING; until then the instruction waits. -/
def stepEnd (i : Instr) (d : SReg) (r : DWord) (kind : Nat) (s : State) : Out :=
  let s := trace s s.myCore kind 0 r 0#64
  let s := if s.mine.dbgctl.getLsbD 0 then
      (releaseMe s).modCore s.myCore (fun c => { c with dbgctl := c.dbgctl ||| 2#64 })
    else s
  done i d r s

/-- Whether a debug stop is requested and the core still has work RUNNING. -/
def stopDelayed (s : State) : Bool := s.mine.dbgctl.getLsbD 0 && coreRunning s s.myCore

/-- The barrier of EXCH and STEP on group 255, whichever slot holds it (R291, R300). -/
def stepBarrier (i : Instr) (s : State) (fin : DWord → State → Out) : Out :=
  match s.launchOf s.myCore with
  | none => .next s
  | some l =>
    match l.group? 255 with
    | none => .next s
    | some g =>
      let wait (s : State) : Out := if stopDelayed s then
          (if atBarrier s then .next s else .next (waitFor i (.barrier 255) 0 s))
        else barWait i l.id 255 s fin
      if atBarrier s then wait s else barArrive i l.id g 0#16 s wait

/-- EXCH and STEP wait for the helpers, and are then checked against the phase (R300). -/
def superstep (i : Instr) (need : Nat) (s : State) (k : State → Out) : Out :=
  if numOf s.cur ≠ 0 then trap i 0x11 0#64 s
  else if !s.mine.helpers.isEmpty then
    (if s.me.wait.isSome then .next s else .next (waitFor i .helpers 0 s))
  else if s.mine.ph.toNat ≠ need then trap i 0x06 (s.mine.ph.setWidth 64) s
  else k s

/-- EXCH (R300). -/
def execExch (d : SReg) (s : State) : Out :=
  run (.exch d) s (fun s =>
    let bsp := launchMode s == 1
    superstep (.exch d) (if bsp then 1 else 0) s (fun s =>
      stepBarrier (.exch d) (drainAll s s.cur) (fun r s =>
        let s := if bsp then s.modCore s.myCore (fun c => { c with ph := 2#2 }) else s
        stepEnd (.exch d) d r 1 s)))

/-- STEP counts the superstep (R299, R300). -/
def countStep (s : State) : State := s.modCore s.myCore (fun c => { c with stepcnt := c.stepcnt + 1#32 })

/-- STEP (R300). -/
def execStep (d : SReg) (s : State) : Out :=
  run (.step d) s (fun s =>
    let i : Instr := .step d
    let bsp := launchMode s == 1
    superstep i (if bsp then 2 else 0) s (fun s =>
      if bsp then
        if exchangeWork s s.myCore then
          (if s.me.wait.isSome then .next s else .next (waitFor i .helpers 0 s))
        else
          stepBarrier i s (fun r s =>
            stepEnd i d r 0 ((countStep s).modCore s.myCore (fun c => { c with ph := 1#2 })))
      else if stopDelayed s then
        (if s.me.wait.isSome then .next s else .next (waitFor i .helpers 0 s))
      else stepEnd i d 0#64 0 (countStep s)))

end Sys2Proof.Machine
end

