-- ==== Sys2Proof/Machine/Bits.lean ====
section
/-! DEFINITION. Bit instructions (spec/07 R163). -/

namespace Sys2Proof.Machine
open Sys2Proof

/-- Leading zeros of the low n bits. -/
def leadZeros (x : Nat) : Nat → Nat
  | 0 => 0
  | n + 1 => if nbit x n then 0 else leadZeros x n + 1

/-- Trailing zeros of the low n bits. -/
def trailZeros (x : Nat) : Nat → Nat
  | 0 => 0
  | n + 1 => if x % 2 = 1 then 0 else trailZeros (x / 2) n + 1

/-- One bits among the low n. -/
def popCount (x : Nat) : Nat → Nat
  | 0 => 0
  | n + 1 => x % 2 + popCount (x / 2) n

/-- The low n bits, last bit first. -/
def revBits (x : Nat) : Nat → Nat
  | 0 => 0
  | n + 1 => x % 2 * 2 ^ n + revBits (x / 2) n

/-- The low n bytes, last byte first. -/
def revBytes (x : Nat) : Nat → Nat
  | 0 => 0
  | n + 1 => x % 256 * 256 ^ n + revBytes (x / 256) n

/-- n one bits at the bottom. -/
def lowMask (n : Nat) : DWord := dw (2 ^ n - 1)

/-- sext(x, n) for n from 1 to 63, 0 for 0, x from 64 on (R163). -/
def sextTo (x n : DWord) : DWord :=
  let n := n.toNat
  if 64 ≤ n then x else if n = 0 then 0#64 else (x <<< (64 - n)).sshiftRight (64 - n)

/-- zext(x, n), as `sextTo` (R163). -/
def zextTo (x n : DWord) : DWord := if 64 ≤ n.toNat then x else x &&& lowMask n.toNat

/-- The place p = y[5:0] of EXT and INS (R163). -/
def fieldPos (y : DWord) : Nat := y.toNat % 64
/-- The length l = min(y[14:8], 64) of EXT and INS (R163). -/
def fieldLen (y : DWord) : Nat := min (y.toNat / 256 % 128) 64

/-- EXT's result. -/
def extField (x y : DWord) : DWord := (x >>> fieldPos y) &&& lowMask (fieldLen y)

/-- INS's result: `o` with the field of y replaced by the low bits of x. -/
def insField (o x y : DWord) : DWord :=
  let m := lowMask (fieldLen y) <<< fieldPos y
  (o &&& ~~~m) ||| ((x <<< fieldPos y) &&& m)

/-- A count within 64 bits, or within x[31:0] with W (R163). -/
def countOp (i : Instr) (w : Bool) (d a : SReg) (f : Nat → Nat → Nat) (s : State) : Out :=
  run i s (fun s =>
    let x := (s.reg a).toNat
    done i d (if w then dw (f (x % 2 ^ 32) 32) else dw (f x 64)) s)

/-- CLZ (R163). -/
def execClz (w : Bool) (d a : SReg) (s : State) : Out := countOp (.clz w d a) w d a leadZeros s
/-- CTZ (R163). -/
def execCtz (w : Bool) (d a : SReg) (s : State) : Out := countOp (.ctz w d a) w d a trailZeros s
/-- POPC (R163). -/
def execPopc (w : Bool) (d a : SReg) (s : State) : Out := countOp (.popc w d a) w d a popCount s
/-- BREV (R163). -/
def execBrev (w : Bool) (d a : SReg) (s : State) : Out :=
  run (.brev w d a) s (fun s =>
    done (.brev w d a) d (wide1 w (fun n x => BitVec.ofNat n (revBits x.toNat n)) (s.reg a)) s)
/-- BSWAP (R163). -/
def execBswap (w : Bool) (d a : SReg) (s : State) : Out :=
  run (.bswap w d a) s (fun s =>
    done (.bswap w d a) d (wide1 w (fun n x => BitVec.ofNat n (revBytes x.toNat (n / 8))) (s.reg a)) s)
/-- SEXT (R163). -/
def execSext (d a : SReg) (b : Operand) (s : State) : Out := intOp (.sext d a b) d a b sextTo s
/-- ZEXT (R163). -/
def execZext (d a : SReg) (b : Operand) (s : State) : Out := intOp (.zext d a b) d a b zextTo s
/-- EXT (R163). -/
def execExt (d a : SReg) (b : Operand) (s : State) : Out := intOp (.ext d a b) d a b extField s
/-- INS (R163): s[d] is a source too. -/
def execIns (d a : SReg) (b : Operand) (s : State) : Out :=
  run (.ins d a b) s (fun s => done (.ins d a b) d (insField (s.reg d) (s.reg a) (s.opB b)) s)

end Sys2Proof.Machine
end

