-- ==== Sys2Proof/Machine/CodeHandle.lean ====
section
/-! DEFINITION. The residual pool, code handles, CALLH, RETH, HACQ, HREL and HINFO (spec/13 R312
to R317, R328 to R332). -/

namespace Sys2Proof.Machine
open Sys2Proof

/-! ## The pool and its table (R313, R314) -/

/-- Who acts on a pool: the level it translates through, its core and PASID, and whether its page walks are
over at once, as those of the reclaim are (R374), or go by way of the walker (R64). -/
structure Actor where
  lv : TlbLevel
  core : Nat
  pasid : Nat
  now : Bool
  deriving DecidableEq, Repr

/-- The home of a pool address: pages with V, R, W, X and CODE set, in the module (R313, R63). -/
def poolPlace (s : State) (w : Actor) (va : Nat) : Except XErr Nat × State :=
  if inWindows va then (.error .access, s)
  else
    match pagedFor w.now s w.lv w.pasid [.load, .fetch, .spec] va with
    | (.ok (.home h _), s) => (.ok h, s)
    | (.ok _, s) => (.error .access, s)
    | (.error e, s) => (.error e, s)

/-- The home of `n` pool bytes that are read; a poisoned unit gives none (R75). -/
def poolAt (s : State) (w : Actor) (va n : Nat) : Except XErr Nat × State :=
  match poolPlace s w va with
  | (.ok h, s) => (if poisoned s h n then .error .poison else .ok h, s)
  | (.error e, s) => (.error e, s)

/-- A usable pool (R313). -/
structure Pool where
  base : Nat
  nent : Nat
  ngran : Nat
  hdr : Nat
  deriving DecidableEq, Repr

/-- Offset T of the bitmap (R313). -/
def Pool.bitmap (p : Pool) : Nat := 64 + 32 * p.nent
/-- Offset D of the data area (R313). -/
def Pool.data (p : Pool) : Nat := (p.bitmap + 8 * ((p.ngran + 63) / 64) + 255) / 256 * 256

/-- The pool of base and size registers, if it is usable (R312, R313). -/
def openPool (s : State) (w : Actor) (base pages : Nat) : Except XErr Pool × State :=
  if pages = 0 then (.error .access, s)
  else
    match poolAt s w base 16 with
    | (.error e, s) => (.error e, s)
    | (.ok h, s) =>
      let p : Pool := { base := base, nent := readLe s (h + 4) 4, ngran := readLe s (h + 8) 4, hdr := h }
      if readLe s h 4 = 0x4B575243 ∧ 1 ≤ p.nent ∧ p.nent ≤ 65536 ∧ 1 ≤ p.ngran ∧
          p.data + 256 * p.ngran ≤ 4096 * pages then (.ok p, s)
      else (.error .access, s)

/-- A table entry (R314). -/
structure PEnt where
  gen : Nat
  state : Nat
  kind : Nat
  pins : Nat
  refs : Nat
  length : Nat
  base : Nat
  source : Nat
  deriving DecidableEq, Repr

/-- An entry from its 32 bytes; states 3 to 255 are read as FREE (R314). -/
def PEnt.ofBytes (bs : List Byte) : PEnt :=
  let g (o n : Nat) : Nat := leNat ((bs.drop o).take n)
  { gen := g 0 2, state := if 2 < g 2 1 then 0 else g 2 1, kind := g 3 1, pins := g 4 4,
    refs := g 8 4, length := g 12 4, base := g 16 8, source := g 24 8 }

/-- The 32 bytes of an entry (R314). -/
def PEnt.bytes (e : PEnt) : List Byte :=
  leBytes 2 e.gen ++ leBytes 1 e.state ++ leBytes 1 e.kind ++ leBytes 4 e.pins ++ leBytes 4 e.refs
    ++ leBytes 4 e.length ++ leBytes 8 e.base ++ leBytes 8 e.source

/-- Generation of a code handle (R315). -/
def chGen (v : DWord) : Nat := nbits v.toNat 48 16
/-- Index of a code handle (R315). -/
def chIdx (v : DWord) : Nat := nbits v.toNat 32 16
/-- Whether a handle's own bits are well formed (R315). -/
def chOk (v : DWord) : Bool := v.toNat % 2 ^ 32 == 0 && chGen v != 0
/-- A code handle (R315). -/
def chMake (gen idx : Nat) : DWord := dw (gen * 2 ^ 48 + idx * 2 ^ 32)

/-- The entry of an index and its home, where the pool is usable to the actor (R313). -/
def poolEntry (s : State) (w : Actor) (p : Pool) (idx : Nat) : Except XErr (Nat × PEnt) × State :=
  match poolAt s w (p.base + 64 + 32 * idx) 32 with
  | (.error e, s) => (.error e, s)
  | (.ok h, s) => (.ok (h, PEnt.ofBytes (memRead h 32 s.mem)), s)

/-- A table action: 32 bytes at their home (R316). -/
def putEntry (s : State) (w : Actor) (h : Nat) (e : PEnt) : State :=
  perform s (dieOfCore w.core) w.pasid h e.bytes [] none false

/-- Of the granules [g, g + n), those in the bitmap word of granule `g`: how many, and their bits. -/
def granuleBits (g n : Nat) : Nat × Nat :=
  let k := min n (64 - g % 64)
  (k, (2 ^ k - 1) * 2 ^ (g % 64))

/-- The home of the bitmap word of a granule (R313). -/
def bitmapHome (s : State) (w : Actor) (p : Pool) (g : Nat) : Except XErr Nat × State :=
  poolAt s w (p.base + p.bitmap + g / 64 * 8) 8

/-- Sets or clears bits of a bitmap word, as one action (R316). -/
def setBits (s : State) (w : Actor) (b : Bool) (h m : Nat) : State :=
  let old := readLe s h 8
  perform s (dieOfCore w.core) w.pasid h (leBytes 8 (if b then old ||| m else old - (old &&& m))) [] none false

/-- Raises or lowers USED, at its home (R313). -/
def addUsed (s : State) (w : Actor) (p : Pool) (d : Int) : State :=
  perform s (dieOfCore w.core) w.pasid (p.hdr + 12)
    (leBytes 4 (((readLe s (p.hdr + 12) 4 : Int) + d) % 2 ^ 32).toNat) [] none false

/-- The next generation (R317). -/
def nextGen (g : Nat) : Nat := if g = 65535 then 1 else g + 1

/-! ## Releases (R317) -/

/-- A part of a release: bits of a bitmap word are cleared, USED is lowered, or an entry is put at its
home. -/
inductive PoolWrite where
  | clear (h m : Nat)
  | used (n : Nat)
  | entry (h : Nat) (e : PEnt)
  deriving DecidableEq, Repr

/-- One part of a release is made. -/
def PoolWrite.apply (w : Actor) (p : Pool) (s : State) : PoolWrite → State
  | .clear h m => setBits s w false h m
  | .used n => addUsed s w p (-(n : Int))
  | .entry h e => putEntry s w h e

/-- The bitmap words that hold `n` granules from granule `g` on, to be cleared; `fuel` bounds the words. -/
def clearPlan (w : Actor) (p : Pool) : Nat → State → (n g : Nat) → Except XErr (List PoolWrite) × State
  | 0, s, _, _ => (.ok [], s)
  | fuel + 1, s, n, g =>
    if n = 0 then (.ok [], s)
    else
      match bitmapHome s w p g with
      | (.error e, s) => (.error e, s)
      | (.ok h, s) =>
        let (k, m) := granuleBits g n
        match clearPlan w p fuel s (n - k) (g + k) with
        | (.error e, s) => (.error e, s)
        | (.ok l, s) => (.ok (.clear h m :: l), s)

/-- An entry with no reference and no pin is to be freed (R317): the granules of a RESID entry, USED and, by
`rel`, the reference on its source go with it. -/
def freePlan (rel : State → DWord → Except XErr (List PoolWrite) × State) (s : State) (w : Actor) (p : Pool)
    (h : Nat) (e : PEnt) : Except XErr (List PoolWrite) × State :=
  let free : PoolWrite := .entry h { e with refs := 0, state := 0, gen := nextGen e.gen }
  if e.kind ≠ 1 then (.ok [free], s)
  else
    let n := (4 * e.length + 255) / 256
    match clearPlan w p (n / 64 + 2) s n ((e.base - p.base - p.data) / 256) with
    | (.error e, s) => (.error e, s)
    | (.ok l, s) =>
      match rel s (dw e.source) with
      | (.error e, s) => (.error e, s)
      | (.ok r, s) => (.ok (l ++ .used n :: r ++ [free]), s)

/-- One reference is to be released on the entry a handle names, as HREL does (R317, R332): a malformed or
stale handle, or an entry that is not LIVE, names none, and so does one that is being freed (`busy`). At 0 the
entry is RETIRING, and with no pins freed. `fuel` bounds the chain of sources. -/
def relPlan : Nat → State → Actor → Pool → (busy : List Nat) → DWord → Except XErr (List PoolWrite) × State
  | 0, s, _, _, _, _ => (.ok [], s)
  | fuel + 1, s, w, p, busy, v =>
    if !chOk v || decide (p.nent ≤ chIdx v) || busy.contains (chIdx v) then (.ok [], s)
    else
      match poolEntry s w p (chIdx v) with
      | (.error e, s) => (.error e, s)
      | (.ok (h, e), s) =>
        if e.gen ≠ chGen v ∨ e.state ≠ 1 then (.ok [], s)
        else if 1 < e.refs then (.ok [.entry h { e with refs := e.refs - 1 }], s)
        else if e.pins ≠ 0 then (.ok [.entry h { e with refs := 0, state := 2 }], s)
        else freePlan (fun s x => relPlan fuel s w p (chIdx v :: busy) x) s w p h e

/-- One pin is to be released on an entry (R330, R317). An entry that has none, because the pool was formatted
anew or its base changed meanwhile, stays as it is (DESIGN CHOICE, log 47). -/
def unpinPlan (s : State) (w : Actor) (p : Pool) (idx h : Nat) (e : PEnt) : Except XErr (List PoolWrite) × State :=
  if e.pins = 0 then (.ok [], s)
  else
    let e := { e with pins := e.pins - 1 }
    if e.state = 2 ∧ e.pins = 0 then freePlan (fun s x => relPlan 3 s w p [idx] x) s w p h e
    else (.ok [.entry h e], s)

/-- A release, once every home that it writes is known, is one action (R317); it makes nothing while one of
them cannot be used. -/
def applyPlan (w : Actor) (p : Pool) : Except XErr (List PoolWrite) × State → Option XErr × State
  | (.error e, s) => (some e, s)
  | (.ok l, s) => (none, l.foldl (PoolWrite.apply w p) s)

/-- One reference is released on the entry a handle names (R317): nothing, or why that cannot be. -/
def releaseRef (s : State) (w : Actor) (p : Pool) (v : DWord) : Option XErr × State :=
  applyPlan w p (relPlan 3 s w p [] v)

/-- One pin is released (R330, R317): nothing, or why the pool is unusable to it (R331). -/
def unpinIn (s : State) (w : Actor) (base pages : Nat) (v : DWord) : Option XErr × State :=
  match openPool s w base pages with
  | (.error e, s) => (some e, s)
  | (.ok p, s) =>
    if p.nent ≤ chIdx v then (some .access, s)
    else
      match poolEntry s w p (chIdx v) with
      | (.error e, s) => (some e, s)
      | (.ok (h, e), s) => applyPlan w p (unpinPlan s w p (chIdx v) h e)

/-- The actor of a core. -/
def coreActor (s : State) (core : Nat) : Actor :=
  { lv := .core core, core := core, pasid := (s.core core).pasid, now := false }

/-- A place of a handle stack is unpinned in the pool that a core's registers name: whether that is over, or
waits for a walk (R64). An unusable pool is told to the policy core (R331); one in a poisoned unit makes the
launch job-fatal (R75). -/
def unpinWith (s : State) (w : Actor) (x : Core) (launch : Option Nat) (v : DWord) : Bool × State :=
  match unpinIn s w x.rcbase.toNat (x.rcsize.toNat % 2 ^ 32) v with
  | (none, s) => (true, s)
  | (some .later, s) => (false, s)
  | (some .poison, s) =>
    (true, launch.elim s (fun l => s.markFatal l { cause := 0x48, core := w.core, frec := [] }))
  | (some _, s) => (true, s.report (.unusable v x.rcbase))

/-- A pin on a context's stack is released (R331): whether that is over. -/
def unpin (now : Bool) (s : State) (k : Nat) (v : DWord) : Bool × State :=
  let x := s.core (coreOf k)
  unpinWith s { coreActor s (coreOf k) with now := now } x x.launch v

/-- The top places of a context's handle stack above the lowest `keep` are unpinned, top first, at most `n` of
them (R331): whether all are, or the next waits for a walk. -/
def unpinPlaces (now : Bool) (k keep : Nat) : Nat → State → Bool × State
  | 0, s => (true, s)
  | n + 1, s =>
    match (s.ctx k).hstack with
    | [] => (true, s)
    | v :: r =>
      if r.length < keep then (true, s)
      else
        match unpin now s k v with
        | (false, s) => (false, s)
        | (true, s) => unpinPlaces now k keep n (s.modCtx k (fun c => { c with hstack := r }))

/-- The places of a stack above the lowest `keep` are unpinned (R331): whether all are. -/
def unpinAbove (now : Bool) (s : State) (k keep : Nat) : Bool × State :=
  unpinPlaces now k keep (s.ctx k).hstack.length s

/-- The pool of the core that issues. -/
def myPool (s : State) : Except XErr Pool × State :=
  openPool s (coreActor s s.myCore) s.mine.rcbase.toNat (s.mine.rcsize.toNat % 2 ^ 32)

/-- What becomes of an instruction whose pool cannot be used: it waits for a walk (R64), its launch is
job-fatal (R75), or it does what an unusable pool makes of it (R313). -/
def poolFail (e : XErr) (s : State) (unusable : State → Out) : Out :=
  match e with
  | .later => .next s
  | .poison => .next (poisonStop s)
  | _ => unusable s

/-! ## CALLH and RETH -/

/-- CALLH (R329): an acquire at module scope with the effect of a FENCE on fetch. -/
def execCallh (a d : SReg) (s : State) : Out :=
  run (.callh a d) s (fun s =>
    let i : Instr := .callh a d
    let v := s.reg a
    if !chOk v then trap i 0x0B v s
    else if 8 ≤ s.me.hstack.length then trap i 0x0A 8#64 s
    else
      match myPool s with
      | (.error e, s) => poolFail e s (trap i 0x04 s.mine.rcbase)
      | (.ok p, s) =>
        if p.nent ≤ chIdx v then trap i 0x0B v s
        else
          let w := coreActor s s.myCore
          match poolEntry s w p (chIdx v) with
          | (.error e, s) => poolFail e s (trap i 0x04 s.mine.rcbase)
          | (.ok (h, e), s) =>
            if e.gen ≠ chGen v ∨ e.state ≠ 1 then trap i 0x0B v s
            else
              let s := putEntry s w h { e with pins := e.pins + 1 }
              let s := acquireMe (drainAll s s.cur)
              let s := s.modMe (fun c => { c with hstack := v :: c.hstack, fetchOld := [] })
              .next (jumpTo (d != 0#5) (dw e.base) (s.setReg d (s.me.pc + 4#64))))

/-- RETH (R330, R331). A routine that returns below the depth it was dispatched at has pushed whatever stands
above that later on. -/
def execReth (a : SReg) (s : State) : Out :=
  run (.reth a) s (fun s =>
    let t := s.reg a
    if t.toNat % 4 ≠ 0 then trap (.reth a) 0x03 t s
    else
      match s.me.hstack with
      | [] => trap (.reth a) 0x0A 0#64 s
      | v :: r =>
        match unpin false s s.cur v with
        | (false, s) => .next s
        | (true, s) =>
          .next (jumpTo false t (s.modMe (fun c =>
            { c with hstack := r, disp := c.disp.map (fun p => { p with places := min p.places r.length }) }))))

/-! ## HACQ, HREL, HINFO (R332) -/

/-- Why HACQ, HREL and HINFO find no entry: their pool, or a code that is the result. -/
inductive NoEntry where
  | pool (e : XErr)
  | code (c : DWord)
  deriving DecidableEq, Repr

/-- The entry of s[a] for HACQ, HREL and HINFO. With a pool that is unusable the result is code 3 for a
malformed handle too (DESIGN CHOICE, log 47). -/
def handleEntry (s : State) (v : DWord) : Except NoEntry (Pool × Nat × PEnt) × State :=
  match myPool s with
  | (.error e, s) => (.error (.pool e), s)
  | (.ok p, s) =>
    if !chOk v || decide (p.nent ≤ chIdx v) then (.error (.code 1#64), s)
    else
      match poolEntry s (coreActor s s.myCore) p (chIdx v) with
      | (.error e, s) => (.error (.pool e), s)
      | (.ok (h, e), s) => if e.gen ≠ chGen v then (.error (.code 1#64), s) else (.ok (p, h, e), s)

/-- What HACQ, HREL and HINFO do with no entry. -/
def noEntry (i : Instr) (d : SReg) (s : State) : NoEntry → Out
  | .pool e => poolFail e s (done i d 3#64)
  | .code c => done i d c s

/-- HACQ: a release at module scope (R332). -/
def execHacq (d a : SReg) (s : State) : Out :=
  run (.hacq d a) s (fun s =>
    let i : Instr := .hacq d a
    match handleEntry (releaseMe s) (s.reg a) with
    | (.error e, s) => noEntry i d s e
    | (.ok (_, h, e), s) =>
      if e.state ≠ 1 then done i d 1#64 s
      else if e.refs = 2 ^ 32 - 1 then done i d 2#64 s
      else
        done i d (dw ((e.refs + 1) * 256))
          (putEntry s (coreActor s s.myCore) h { e with refs := e.refs + 1 }))

/-- HREL: a release at module scope (R332, R317). -/
def execHrel (d a : SReg) (s : State) : Out :=
  run (.hrel d a) s (fun s =>
    let i : Instr := .hrel d a
    let v := s.reg a
    match handleEntry (releaseMe s) v with
    | (.error e, s) => noEntry i d s e
    | (.ok (p, _, e), s) =>
      if e.state ≠ 1 then done i d 1#64 s
      else
        match releaseRef s (coreActor s s.myCore) p v with
        | (some e, s) => poolFail e s (done i d 3#64)
        | (none, s) => done i d (dw ((e.refs - 1) * 256)) s)

/-- HINFO (R332). -/
def execHinfo (d a : SReg) (s : State) : Out :=
  run (.hinfo d a) s (fun s =>
    let i : Instr := .hinfo d a
    match handleEntry s (s.reg a) with
    | (.error e, s) => noEntry i d s e
    | (.ok (_, _, e), s) =>
      done i d (dw (e.length * 2 ^ 32 + min e.pins 65535 * 65536 + e.kind % 2 * 1024 + e.state * 256)) s)

end Sys2Proof.Machine
end

