-- ==== Sys2Proof/Machine/Frames.lean ====
section
/-! DEFINITION. Frames and channels of the collective transport, sending end (spec/15 R359 to
R362). -/

namespace Sys2Proof.Machine
open Sys2Proof

/-- The port of a channel: the one its name gives, or the next healthy one (R361). -/
def chanPort (s : State) (peer cls : Nat) : Nat :=
  let p := (peer + 4 * cls) % 16
  (((List.range 16).map (fun i => (p + i) % 16)).find? (fun q => !s.badPorts.contains q)).getD p

/-- The bytes of a frame without its Ethernet header (R360). -/
def frameBytes (kind cls src dst seq ack pasid addr : Nat) (payload : List Byte) : List Byte :=
  let b := leBytes 1 (16 + kind) ++ leBytes 1 cls ++ leBytes 2 0 ++ leBytes 2 src ++ leBytes 2 dst
    ++ leBytes 4 seq ++ leBytes 4 ack ++ leBytes 4 pasid ++ leBytes 2 payload.length ++ leBytes 2 0
    ++ leBytes 8 addr ++ payload
  b ++ leBytes 4 (crc32c b).toNat

/-- A channel by its peer module and class. -/
def channel? (s : State) (peer cls : Nat) : Option Channel :=
  s.channels.find? (fun c => c.peer == peer && c.cls == cls)

/-- A channel that nothing has used. -/
def newChannel (s : State) (peer cls : Nat) : Channel :=
  { peer := peer, cls := cls, nextSeq := 0, unacked := [], expect := 0,
    resends := 0, since := s.cycle, failed := false }

/-- The channel, or one that nothing has used. -/
def theChannel (s : State) (peer cls : Nat) : Channel := (channel? s peer cls).getD (newChannel s peer cls)

/-- Keeps a channel. -/
def putChannel (s : State) (c : Channel) : State :=
  { s with channels := s.channels.filter (fun x => !(x.peer == c.peer && x.cls == c.cls)) ++ [c] }

/-- The locally administered MAC address of a port (R359). -/
def portMac (s : State) (port : Nat) : List Byte :=
  match leBytes 6 (Config.portMac s.fuses.devid port).toNat with
  | b :: r => ((b ||| 2#8) &&& 0xFE#8) :: r
  | [] => []

/-- The Ethernet II header of a frame to a module on a port: EtherType 0x88B5 (R359). A module that the
firmware's table does not name is sent to by broadcast (DESIGN CHOICE, log 37). -/
def etherHead (s : State) (dst port : Nat) : List Byte :=
  tget s.macs dst (List.replicate 6 0xFF#8) ++ portMac s port ++ [0x88#8, 0xB5#8]

/-- A frame goes out on a channel's port, the next healthy one at the time (R361). -/
def emit (s : State) (c : Channel) (kind seq pasid addr : Nat) (payload : List Byte) : State :=
  let p := chanPort s c.peer c.cls
  let e : EthOut := { port := p, dstmod := c.peer, head := etherHead s c.peer p,
                      bytes := frameBytes kind c.cls s.modnum.toNat c.peer seq c.expect pasid addr payload }
  { s with ethOut := s.ethOut ++ [e] }

/-- Whether a channel can take another DATA frame (R361). -/
def canSend (s : State) (peer cls : Nat) : Bool :=
  let c := theChannel s peer cls
  !c.failed && decide (c.unacked.length < 512)

/-- A DATA frame is sent on a channel, which carries `n` bytes of its operation (R361). -/
def sendData (s : State) (peer cls pasid addr : Nat) (payload : List Byte) (op va n : Nat) : State :=
  let c := theChannel s peer cls
  let f : Frame := { seq := c.nextSeq, pasid := pasid, addr := addr, payload := payload, op := op, va := va, count := n }
  let c' := { c with nextSeq := (c.nextSeq + 1) % 2 ^ 32, unacked := c.unacked ++ [f],
                     since := if c.unacked.isEmpty then s.cycle else c.since }
  emit (putChannel s c') c' 0 f.seq pasid addr payload

/-! ## Frames that arrive (R360) -/

/-- A number from bytes [a, a + n) of a frame. -/
def frameNum (bs : List Byte) (a n : Nat) : Nat := leNat ((bs.drop a).take n)

/-- Whether a frame's bytes are whole: the version, the zeroes, the length, the destination, and the
CRC (R360, R361). -/
def frameOk (s : State) (bs : List Byte) (kind : Nat) : Bool :=
  let len := frameNum bs 20 2
  frameNum bs 0 1 == 16 + kind && decide (frameNum bs 1 1 < 2) && frameNum bs 2 2 == 0 &&
    frameNum bs 6 2 == s.modnum.toNat && decide (frameNum bs 4 2 < 8192) && frameNum bs 18 2 / 16 == 0 &&
    frameNum bs 22 2 == 0 && decide (len ≤ 1024) && len % 16 == 0 && bs.length == 36 + len &&
    frameNum bs (32 + len) 4 == (crc32c (bs.take (32 + len))).toNat

/-- A frame's payload. -/
def framePayload (bs : List Byte) : List Byte := (bs.drop 32).take (frameNum bs 20 2)

/-! ## Far windows (R71, R362) -/

/-- Far addresses stand, among homes, from here on. -/
def farBase : Nat := 2 ^ 60
/-- A far address among homes. -/
def farHome (w off : Nat) : Nat := farBase + w * 2 ^ 32 + off
/-- A far window of a PASID. -/
def farWin? (s : State) (pasid w : Nat) : Option FarWin :=
  s.farWin.find? (fun f => f.pasid == pasid && f.win == w)
/-- The local address of a far window byte (R54). -/
def farVa (h : Nat) : Nat := 0xFFA00000000000 + (h - farBase)

/-- Whether a far write of an operation can be sent now. -/
def farReady (s : State) (pasid h : Nat) : Bool :=
  match farWin? s pasid ((h - farBase) / 2 ^ 32) with
  | none => true
  | some f => canSend s f.rmod 0

/-- A read of an operation through a configured far window, `off` bytes in: what has come of it, or the
state with the request made (R55, R71, R110). R360 names no frame for it, so the request and its
answer stand as such (DEDUCED, log 30); on a failed channel there is none (R361). -/
def farAsk (s : State) (op : Nat) (f : FarWin) (off len : Nat) : Option (Option (List Byte)) × State :=
  let h := farHome f.win off
  match s.ioGot.find? (fun p => p.owner == .op op && p.addr == h) with
  | some p => (some p.bytes, s)
  | none =>
    if (theChannel s f.rmod 0).failed then (some none, s)
    else if s.farReads.any (fun r => r.op == op && r.addr == h) then (none, s)
    else
      let (id, s) := s.fresh
      (none, { s with farReads := s.farReads ++ [{ id := id, op := op, addr := h, rmod := f.rmod,
                                                     rpasid := f.rpasid, raddr := f.base + off, len := len }] })

/-- What a far write sends: the bytes of whole granules alone have a LEN that R360 allows, so a write of
part of one is sent as the whole granule, whose other bytes are read through the window first, once every
earlier frame of the channel is acknowledged (DESIGN CHOICE, log 30). -/
def farWhole (s : State) (pasid op h : Nat) (bs : List Byte) : Option (Option (List Byte)) × State :=
  if bs.length % 16 = 0 then (some (some bs), s)
  else
    match farWin? s pasid ((h - farBase) / 2 ^ 32) with
    | none => (some (some bs), s)
    | some f =>
      if !(theChannel s f.rmod 0).unacked.isEmpty then (none, s)
      else
        match farAsk s op f ((h - farBase) % 2 ^ 32 / 16 * 16) 16 with
        | (some (some old), s) =>
          (some (some (old.take (h % 16) ++ bs ++ (old.take 16).drop (h % 16 + bs.length))), s)
        | r => r

/-- A far write of an operation is sent (R362, R363): `n` bytes of its own from `h` on, in the whole granules
`bs`. -/
def farSend (s : State) (pasid h n op : Nat) (bs : List Byte) : State :=
  match farWin? s pasid ((h - farBase) / 2 ^ 32) with
  | none => s
  | some f =>
    let off := (h - farBase) % 2 ^ 32
    sendData s f.rmod 0 f.rpasid (f.base + (if bs.length = n then off else off / 16 * 16)) bs op (farVa h) n

end Sys2Proof.Machine
end

