-- ==== Sys2Proof/Machine/Ring.lean ====
section
/-! DEFINITION. The ring table, the ring instructions and the slot actions of engine steps
(spec/05 R119 to R128). -/

namespace Sys2Proof.Machine
open Sys2Proof

/-! ## Entries (R119, R121, R123) -/

/-- The ring entry of a cluster. -/
def ring? (s : State) (cl n : Nat) : Option Ring := tfind n (s.cluster cl).rings

/-- Changes a ring entry. -/
def modRing (s : State) (cl n : Nat) (f : Ring → Ring) : State :=
  match ring? s cl n with
  | none => s
  | some r => s.modCluster cl (fun c => { c with rings := tset n (f r) c.rings })

/-- NFREE (R119). -/
def Ring.nfree (r : Ring) : Nat := r.slots - r.nclm - r.nfil - r.nrsv
/-- The number, from the start of the ring's life, of the next slot to be reserved. -/
def Ring.nextReserve (r : Ring) : Nat := r.ridx + r.nclm + r.nfil + r.nrsv
/-- The number of the next slot to be filled. -/
def Ring.nextFill (r : Ring) : Nat := r.ridx + r.nclm + r.nfil
/-- The number of the next slot to be claimed. -/
def Ring.nextClaim (r : Ring) : Nat := r.ridx + r.nclm
/-- The first address of a slot (R119). -/
def Ring.addr (r : Ring) (slot : Nat) : Nat := r.base.toNat + slot % r.slots * r.slotsz * 64

/-- reserve_slot (R121). -/
def Ring.reserve (r : Ring) : Ring := { r with nrsv := r.nrsv + 1 }
/-- claim_head (R121). -/
def Ring.claim (r : Ring) : Ring := { r with nfil := r.nfil - 1, nclm := r.nclm + 1 }
/-- release_head (R121): the oldest claimed slot. -/
def Ring.release (r : Ring) : Ring :=
  { r with nclm := r.nclm - 1, ridx := r.ridx + 1, damaged := sdel r.ridx r.damaged }

/-- fill_slot of the next slot, and of the slots after it whose steps have already ended (R121,
R123); at most `fuel` slots. -/
def Ring.fillNext : Nat → Ring → Ring
  | 0, r => r
  | fuel + 1, r =>
    let r := { r with nrsv := r.nrsv - 1, nfil := r.nfil + 1 }
    if smem r.nextFill r.filled then Ring.fillNext fuel { r with filled := sdel r.nextFill r.filled }
    else r

/-- The step that reserved a slot has ended: it fills, in its turn (R121, R123). -/
def Ring.fill (r : Ring) (slot : Nat) (damaged : Bool) : Ring :=
  let r := if damaged then { r with damaged := sins slot r.damaged } else r
  if slot = r.nextFill then Ring.fillNext r.nrsv r else { r with filled := sins slot r.filled }

/-! ## Ring instructions (R125 to R128) -/

/-- The cluster of the core that issues. -/
def State.myCluster (s : State) : Nat := clusterOfCore s.myCore

/-- Whether an operation or RGWAIT waits on a ring: a context that waits in RGWAIT counts as an operation
waiting on the ring (DESIGN CHOICE, R126 names operations only, log 43). -/
def ringWaiters (s : State) (cl n : Nat) : Bool :=
  s.ops.any (fun o => clusterOfCore o.core == cl && o.want.any (fun w => w.2 == n)) ||
  s.ctxs.any (fun p => clusterOfCore (coreOf p.1) == cl &&
    p.2.wait.any (fun w => decide (w.what = .ring n)))

/-- RGINIT (R126): its status at issue, and with READY a plain store to the ring table that enters the
store buffer (R266). -/
def execRginit (d : SReg) (h : HReg) (s : State) : Out :=
  run (.rginit d h) s (fun s =>
    let i : Instr := .rginit d h
    let v := s.hreg h
    let r := hReason v true [2]
    if r ≠ 0 then trap i 0x09 (dw (h.toNat * 256 + r)) s
    else
      let cl := s.myCluster
      let n := hRnum v
      let s := settleRing s s.cur n
      let new : Ring := { owner := s.mine.launch.getD 0, base := dw (hBase v), slots := hSlots v,
                          slotsz := hSlotsz v, ridx := 0, nfil := 0, nclm := 0, nrsv := 0,
                          damaged := [], filled := [] }
      let put (s : State) : State := enterBuf s s.cur
        { num := 0, home := 0, bytes := [], full := false, rel := false, chk := none, ring := some (n, new) }
      match ring? s cl n with
      | none => done i d 0#64 (put s)
      | some x =>
        if some x.owner ≠ s.mine.launch then done i d 2#64 s
        else if x.nfil = 0 ∧ x.nrsv = 0 ∧ x.nclm = 0 ∧ ringWaiters s cl n = false then done i d 0#64 (put s)
        else done i d 1#64 s)

/-- The ring that s[a] names for RGWAIT and RGREL, if this launch owns it (R125, R127). -/
def ownRing (s : State) (n : DWord) : Option Ring :=
  if 31 < n.toNat then none
  else
    match ring? s s.myCluster n.toNat with
    | none => none
    | some r => if some r.owner = s.mine.launch then some r else none

/-- Whether a claim of a ring arrived earlier than `t` (R121). -/
def claimBehind (s : State) (cl n t : Nat) : Bool :=
  s.ops.any (fun o => clusterOfCore o.core == cl && decide (o.seq < t) &&
    (o.want == some (2, n) || o.want == some (3, n))) ||
  s.ctxs.any (fun p => clusterOfCore (coreOf p.1) == cl &&
    p.2.wait.any (fun w => decide (w.what = .ring n) && decide (w.arrival < t)))

/-- The operations that wait for release_head on a ring: of their A slot (4) or their B slot (5). -/
def releasers (s : State) (cl n : Nat) : List Op :=
  s.ops.filter (fun o => clusterOfCore o.core == cl && (o.want == some (4, n) || o.want == some (5, n)))

/-- An operation's release_head has been made: it holds the slot no more. -/
def released (o : Op) : Op :=
  if o.want.any (fun w => w.1 == 5) then { o with want := none, slotB := none }
  else { o with want := none, slotA := none }

/-- After a claim, the release_head that has waited longest is served (R121). -/
def serveRelease (s : State) (cl n : Nat) : State :=
  match (releasers s cl n).foldl (fun (b : Option Op) o =>
      match b with
      | none => some o
      | some x => if o.seq < x.seq then some o else some x) none with
  | none => s
  | some o => (modRing s cl n Ring.release).modOp o.id released

/-- RGWAIT (R121, R127): an acquire. A wait longer than its limit traps and claims nothing (R109). -/
def execRgwait (d a : SReg) (s : State) : Out :=
  run (.rgwait d a) s (fun s =>
    let i : Instr := .rgwait d a
    let n := s.reg a
    let s := settleRing s s.cur n.toNat
    match ownRing s n with
    | none => trap i 0x0F n s
    | some r =>
      let t := match s.me.wait with
        | some w => w.arrival
        | none => s.stamp
      if waitOver s then trap i 0x08 n s
      else if r.nfil = 0 ∨ claimBehind s s.myCluster n.toNat t = true then
        (if s.me.wait.isSome then .next s else .next (waitFor i (.ring n.toNat) (feLimit s) s))
      else
        let k := r.nextClaim
        let v := dw (r.addr k + b2n (smem k r.damaged) * 2 ^ 63)
        done i d v (acquireMe (serveRelease (modRing s s.myCluster n.toNat Ring.claim) s.myCluster n.toNat)))

/-- RGREL (R122, R127): once the store buffer is empty. -/
def execRgrel (a : SReg) (s : State) : Out :=
  run (.rgrel a) s (fun s =>
    let i : Instr := .rgrel a
    let n := s.reg a
    let s := drainAll s s.cur
    match ownRing s n with
    | none => trap i 0x0F n s
    | some r =>
      if r.nclm = 0 then trap i 0x0F n s
      else .next (retire i (modRing s s.myCluster n.toNat Ring.release)))

/-- RGSTAT (R128). -/
def execRgstat (d a : SReg) (s : State) : Out :=
  run (.rgstat d a) s (fun s =>
    let i : Instr := .rgstat d a
    let n := s.reg a
    let s := settleRing s s.cur n.toNat
    if 31 < n.toNat then trap i 0x0F n s
    else
      match ring? s s.myCluster n.toNat with
      | none => done i d 0xFFFFFFFFFFFFFFFF#64 s
      | some r =>
        if some r.owner ≠ s.mine.launch then trap i 0x0F n s
        else
          done i d
            (dw (r.nrsv * 2 ^ 48 + r.nfil * 2 ^ 32 + r.nclm * 65536 + r.ridx % r.slots)) s)

/-! ## The slot actions of engine steps (R121 to R123) -/

/-- R120 for a RING handle of the core that issues. -/
def ringAgrees (s : State) (h : HWord) : Bool :=
  match ring? s s.myCluster (hRnum h) with
  | none => false
  | some r =>
    some r.owner == s.mine.launch && r.base.toNat == hBase h && r.slots == hSlots h &&
      r.slotsz == hSlotsz h

/-- A RING handle seen as the DENSE or QTILE view of a slot (R85). -/
def slotView (h : HWord) (base : Nat) : HWord :=
  let w1 := (hWord h 1#2)
  let ty : Nat := if hFmt h = 9 then 3 else 1
  hMake (dw (ty * 2 ^ 60 + hFmt h * 2 ^ 56 + base)) w1 0#64 0#64

/-- Whether a slot action that arrives now finds its slot at once (R121): a free one, the turn to fill, or
a filled one, with no earlier waiter for it. -/
def slotThere (s : State) (o : Op) (act n : Nat) : Bool :=
  let cl := clusterOfCore o.core
  match ring? s cl n with
  | none => false
  | some r =>
    match act with
    | 0 => r.nfree != 0 && !s.ops.any (fun p => clusterOfCore p.core == cl && p.want == some (0, n))
    | 1 => o.slotC == some r.nextFill
    | _ => r.nfil != 0 && !claimBehind s cl n s.stamp

/-- An operation asks for a slot action on a ring; it gives up its place when it has to wait for it
(R110, R213). -/
def askRing (s : State) (o : Op) (act n : Nat) : State :=
  let there := slotThere s o act n
  { s.modOp o.id (fun o => { o with want := some (act, n), seq := s.stamp, place := o.place && there }) with
    stamp := s.stamp + 1 }

/-- Whether release_head of a ring must wait: it has no claimed slot, so that others may wait too
(R121). -/
def releaseWaits (s : State) (o : Op) (n : Nat) : Bool :=
  (ring? s (clusterOfCore o.core) n).any (fun r => r.nclm == 0)

/-- An operation performs release_head of its A slot (4) or its B slot (5) on ring `n`, or asks for it and
gives up its place (R110, R121). -/
def askRelease (s : State) (o : Op) (act n : Nat) : State :=
  if o.want = some (act, n) then s
  else
    let o' : Op := { o with want := some (act, n), seq := s.stamp }
    if releaseWaits s o n then { s.modOp o.id (fun _ => { o' with place := false }) with stamp := s.stamp + 1 }
    else (modRing s (clusterOfCore o.core) n Ring.release).modOp o.id (fun _ => released o')

/-- An operation that is about to end performs release_head on each ring whose slot it has claimed, A's
first (R213); none once it holds no slot. -/
def endSlots (s : State) (o : Op) : Option State :=
  if o.slotA.isSome then some (askRelease s o 4 (hRnum o.hA))
  else if o.slotB.isSome then some (askRelease s o 5 (hRnum o.hB))
  else none

/-- Whether another operation asked for the same action on the ring earlier (R121). -/
def askedBehind (s : State) (o : Op) : Bool :=
  s.ops.any (fun p => clusterOfCore p.core == clusterOfCore o.core && p.want == o.want &&
    decide (p.seq < o.seq))

/-- RESERVE_SLOT: a producer step gets a free slot (R121). -/
def execReserveSlot (id : Nat) (s : State) : Out :=
  match s.op? id with
  | none => .next s
  | some o =>
    match o.want with
    | some (0, n) =>
      let cl := clusterOfCore o.core
      match ring? s cl n with
      | none => .next s
      | some r =>
        if r.nfree = 0 ∨ askedBehind s o = true then .next s
        else
          .next ((modRing s cl n Ring.reserve).modOp id (fun o =>
            { o with want := none, slotC := some r.nextReserve }))
    | _ => .next s

/-- FILL_SLOT: a producer step publishes its slot, as a release, once every earlier reserved slot
is filled (R121, R122). -/
def execFillSlot (id : Nat) (s : State) : Out :=
  match s.op? id with
  | none => .next s
  | some o =>
    match o.want, o.slotC with
    | some (1, n), some k =>
      let cl := clusterOfCore o.core
      match ring? s cl n with
      | none => .next s
      | some r =>
        if k ≠ r.nextFill then .next s
        else
          let s := performAll s (dieOfCore o.core)
          .next ((modRing s cl n (fun r => r.fill k false)).modOp id (fun o =>
            { o with want := none, slotC := none }))
    | _, _ => .next s

/-- CLAIM_HEAD: a consumer step gets the oldest filled slot, as an acquire (R121, R122); a damaged
one ends it (R123). -/
def execClaimHead (id : Nat) (s : State) : Out :=
  match s.op? id with
  | none => .next s
  | some o =>
    match o.want with
    | some (act, n) =>
      let cl := clusterOfCore o.core
      match ring? s cl n with
      | none => .next s
      | some r =>
        if (act ≠ 2 ∧ act ≠ 3) ∨ r.nfil = 0 ∨ claimBehind s cl n o.seq = true then .next s
        else
          let k := r.nextClaim
          let s := refreshAll (modRing s cl n Ring.claim) (dieOfCore o.core)
          let bad : Option Final :=
            if smem k r.damaged then
              some { st := .faulted, cause := 0x41, addr := r.addr k, member := o.mrank, progress := 0 }
            else none
          let s := s.modOp id (fun o =>
            let o := if act = 2 then { o with slotA := some k } else { o with slotB := some k }
            { o with want := none, fin := bad })
          .next (serveRelease s cl n)
    | none => .next s

/-- A slot that an ended operation has reserved is filled and marked damaged (R123). -/
def ringEnd (s : State) (o : Op) : State :=
  match o.slotC with
  | some k => modRing s (clusterOfCore o.core) (hRnum o.hC) (fun r => r.fill k true)
  | none => s

end Sys2Proof.Machine
end

