-- ==== Sys2Proof/Machine/Engine.lean ====
section
/-! DEFINITION. Engines as parties: the reads, writes and checks of engine operations (spec/11 R269,
R270, spec/03 R58, R73 to R75, spec/05 R107, R111). -/

namespace Sys2Proof.Machine
open Sys2Proof

/-! ## What a unit of an engine's work gives -/

/-- The outcome of one unit of an operation's work. -/
inductive UnitRes where
  /-- Nothing to do yet; the state may hold a request that has been made. -/
  | wait (s : State)
  /-- The unit is done: the operation's new fields, its writes in `pend`. -/
  | go (s : State) (o : Op)
  /-- A fault: cause, address, member, PROGRESS; with cause 0 the unit waits. -/
  | fault (s : State) (cause addr member prog : Nat)
  /-- The last unit is done. -/
  | fin (s : State) (o : Op)
  /-- An uncorrectable error: the launch is job-fatal (R75). -/
  | poison (s : State)

/-- The TLBs of an operation's engine (R64); those the spec does not name go through the
cluster's (log 22). -/
def Op.level (o : Op) : TlbLevel :=
  match opClass o.instr with
  | 0 => .core o.core
  | 6 => .die (dieOfCore o.core)
  | _ => .cluster (clusterOfCore o.core)

/-- The operation waits for other work and holds no place (R110, R252). -/
def yieldPlace (s : State) (o : Op) : UnitRes := .wait (s.modOp o.id (fun p => { p with place := false }))

/-! ## Reading (R263, R270) -/

/-- The youngest buffered byte at a home among entries that are older than an operation (R270). -/
def bufByte (es : List BufEntry) (id a : Nat) : Option Byte :=
  match es.reverse.find? (fun e => decide (e.num < id) && decide (e.home ≤ a) &&
      decide (a < e.home + e.bytes.length)) with
  | some e => e.bytes[a - e.home]?
  | none => none

/-- The byte at a home as an operation reads it: with REL = 0 the free bits `n` choose, granule by
granule, whether it sees its issuer's older buffered stores (R270). -/
def engByte (s : State) (o : Op) (n : Nat) (a : Nat) : Byte :=
  if !o.rel && n.testBit (a / 16) then (bufByte (s.ctx o.ctx).sbuf (o.parent.getD o.id) a).getD (viewByte s o.die a)
  else viewByte s o.die a

/-- What an engine's read gives. -/
inductive EngRes where
  | got (bs : List Byte)
  | err (e : XErr) (va : Nat)
  | later
  | poison
  deriving DecidableEq, Repr

/-- Whether an operation may reach far windows (R55). -/
def mayFar : Instr → Bool
  | .copy _ _ _ _ _ _ => true
  | .copym _ _ _ _ => true
  | _ => false

/-- The older entries of an engine's die for the host port are performed before its next request to a
host or peer page (R277). -/
def engAsk (s : State) (o : Op) (h len va : Nat) : Option (Option (List Byte)) × State :=
  if s.ioGot.any (fun p => p.owner == .op o.id && p.addr == h) ||
      s.pcieReads.any (fun r => r.addr == h && r.owner == .op o.id) then
    ioPcie s (.op o.id) o.pasid h len va
  else ioPcie (performQueue s o.die 96) (.op o.id) o.pasid h len va

/-- A request's answer is taken. -/
def ioTaken (s : State) (id h : Nat) : State :=
  { s with ioGot := s.ioGot.filter (fun p => !(p.owner == .op id && p.addr == h)) }

/-- The bytes at a home as an operation reads them; an applier reads the home itself, its own older writes
there performed first (R271). -/
def engHome (s : State) (o : Op) (n h len : Nat) : EngRes × State :=
  let s := if o.base.isSome then performQueue s o.die (homeDie h) else s
  if poisoned s h len then (.poison, s)
  else if o.base.isSome then (.got (memRead h len s.mem), s)
  else (.got ((List.range len).map (fun i => engByte s o n (h + i))), s)

/-- An access inside one granule, or one line of a sluice window. -/
def engPiece (s : State) (o : Op) (n : Nat) (va len : Nat) : EngRes × State :=
  match locate s o.level o.core o.pasid .load va len with
  | (.error .later, s) => (.later, s)
  | (.error e, s) => (.err e va, s)
  | (.ok (.home h _), s) => engHome s o n h len
  | (.ok (.sluice dd w off), s) =>
    match sluiceRead s o.level (.op o.id) o.pasid dd w off len with
    | (.error .later, s) => (.later, s)
    | (.error e, s) => (.err e va, s)
    | (.ok bs, s) => (.got bs, s)
  | (.ok (.far w off), s) =>
    match farWin? s o.pasid w with
    | none => (.err .access va, s)
    | some f =>
      if !mayFar o.instr || decide (2 ^ 32 < off + len) then (.err .access va, s)
      else
        match farAsk s o.id f off len with
        | (some (some bs), s) => (.got (bs.take len), ioTaken s o.id (farHome w off))
        | (some none, s) => (.err .access va, s)
        | (none, s) => (.later, s)
  | (.ok (.pcie h _), s) =>
    match engAsk s o h len va with
    | (some (some bs), s) => (.got (bs.take len), ioTaken s o.id h)
    | (some none, s) => (.err .access va, s)
    | (none, s) => (.later, s)

/-- The accesses that the unit at hand has made so far, each with its address; `State.rdKey` names the
unit among those an operation has in progress (R262, R269). -/
def gotSoFar (s : State) (o : Op) : List (Nat × List Byte) := tget o.got s.rdKey []

/-- The next access of a unit (R262, R269). One that an earlier step has made gives its bytes again; the
first that none has made is made now, and the unit goes on from there in its next step. -/
def engAccess (s : State) (o : Op) (n : Nat) (va len : Nat) : EngRes × State :=
  let old := gotSoFar s o
  let made : Option (List Byte) := match old[s.rdAt]? with
    | some (a, bs) => if a == va && bs.length == len then some bs else none
    | none => none
  match made with
  | some bs => (.got bs, { s with rdAt := s.rdAt + 1 })
  | none =>
    match engPiece s o n va len with
    | (.got bs, s) =>
      (.later, s.modOp o.id (fun p => { p with got := tset s.rdKey (old.take s.rdAt ++ [(va, bs)]) p.got }))
    | r => r

/-- A read of `len` bytes as pieces inside granules, or inside the 64-byte lines of a sluice window (R96,
log 27); `fuel` bounds the pieces. -/
def engPieces : Nat → State → Op → (n : Nat) → (va len : Nat) → List Byte → EngRes × State
  | 0, s, _, _, _, _, acc => (.got acc, s)
  | fuel + 1, s, o, n, va, len, acc =>
    if len = 0 then (.got acc, s)
    else
      let u := if winOf va = .sluice then 64 else 16
      let k := min (u - va % u) len
      match engAccess s o n va k with
      | (.got bs, s) => engPieces fuel s o n (va + k) (len - k) (acc ++ bs)
      | r => r

/-- A read of `len` bytes at `va` by an operation (R269). -/
def engRead (s : State) (o : Op) (n : Nat) (va len : Nat) : EngRes × State :=
  engPieces (len / 16 + 2) s o n va len []

/-- Several reads in order, each an address and a length; the bytes of each. -/
def engReads : State → Op → (n : Nat) → List (Nat × Nat) → Except EngRes (List (List Byte)) × State
  | s, _, _, [] => (.ok [], s)
  | s, o, n, (va, len) :: r =>
    match engRead s o n va len with
    | (.got bs, s) =>
      match engReads s o n r with
      | (.ok l, s) => (.ok (bs :: l), s)
      | (.error e, s) => (.error e, s)
    | (e, s) => (.error e, s)

/-- The accesses that read elements of `z` bytes in order (no address: no access): neighbours inside one
granule are one access, which is then entirely old or entirely new (R111, R274). -/
def runPieces (z : Nat) : List (Option Nat) → List (Nat × Nat)
  | [] => []
  | none :: r => runPieces z r
  | some a :: r =>
    match runPieces z r with
    | (b, k) :: t => if b = a + z ∧ b % 16 ≠ 0 then (a, z + k) :: t else (a, z) :: (b, k) :: t
    | [] => [(a, z)]

/-- Reads in order up to the first that fails: the bytes of each before it, by address, and the failure. -/
def readPieces : State → Op → (n : Nat) → List (Nat × Nat) → (List (Nat × List Byte) × Option EngRes) × State
  | s, _, _, [] => (([], none), s)
  | s, o, n, (va, len) :: r =>
    match engRead s o n va len with
    | (.got bs, s) =>
      let (x, s) := readPieces s o n r
      (((va, bs) :: x.1, x.2), s)
    | (e, s) => (([], some e), s)

/-- The bytes of an element among the pieces read; one without an address is zero. -/
def pieceElem (z : Nat) (got : List (Nat × List Byte)) : Option Nat → Option (List Byte)
  | none => some (List.replicate z 0#8)
  | some a => got.findSome? (fun p =>
      if p.1 ≤ a ∧ a + z ≤ p.1 + p.2.length then some ((p.2.drop (a - p.1)).take z) else none)

/-- Reads elements of `z` bytes in order (R111): the bytes of those before the first that fails, and the
failure, if one is met. -/
def readElems (s : State) (o : Op) (n z : Nat) (l : List (Option Nat)) :
    (List (List Byte) × Option EngRes) × State :=
  let (x, s) := readPieces s o n (runPieces z l)
  (((l.map (pieceElem z x.1)).takeWhile Option.isSome).filterMap id |> fun got => (got, x.2), s)

/-- What a failed read makes of a unit, at PROGRESS `prog`. -/
def engFail (s : State) (e : EngRes) (member prog : Nat) : UnitRes :=
  match e with
  | .err .poison _ => .poison s
  | .err x va => .fault s x.opCause va member prog
  | .later => .wait s
  | .poison => .poison s
  | .got _ => .wait s

/-! ## Writing (R269, R107) -/

/-- Where a store of `len` bytes by an operation goes: a home, or a far address, and its check at
the target (R55, R63, R71). -/
def engTarget (s : State) (o : Op) (core va len : Nat) : Except XErr (Nat × Option Chk) × State :=
  match locate s o.level core o.pasid .store va len with
  | (.error e, s) => (.error e, s)
  | (.ok (.home h c), s) => (.ok (h, c), s)
  | (.ok (.pcie h _), s) => (.ok (h, none), s)
  | (.ok (.sluice _ _ _), s) => (.error .access, s)
  | (.ok (.far w off), s) =>
    if mayFar o.instr && (farWin? s o.pasid w).isSome && decide (off + len ≤ 2 ^ 32) then
      (.ok (farHome w off, none), s)
    else (.error .access, s)

/-- Writes, and the fault met after them with its address, if one is. -/
abbrev Writes := List EngWrite × Option (XErr × Nat)

/-- The writes of `bs` at `va` as `core` addresses it, one for each granule, each checked for a
store (R63), up to the first that faults; the window PASID is checked at the home (R55). `fill g` tells
whether the write into granule `g` of the addresses sets its full-empty bit; each adds its length to
PROGRESS when `count` holds. The run began at `va0`: a piece of a whole 64-byte unit of it is marked
(R75). -/
def engWrites : Nat → State → Op → (core va0 va : Nat) → List Byte → (fill : Nat → Bool) → (count : Bool) →
    Writes × State
  | 0, s, _, _, _, _, _, _, _ => (([], none), s)
  | fuel + 1, s, o, core, va0, va, bs, fill, count =>
    if bs.isEmpty then (([], none), s)
    else
      let k := min (16 - va % 16) bs.length
      match engTarget s o core va k with
      | (.error e, s) => (([], some (e, va)), s)
      | (.ok (h, c), s) =>
        let w : EngWrite :=
          { va := va, home := h, bytes := bs.take k,
            fill := if fill (va / 16) && hasFe h && isHome h && decide (h < farBase) then [h / 16] else [],
            chk := c, unit := decide (va0 ≤ va / 64 * 64) && decide (va / 64 * 64 + 64 ≤ va + bs.length),
            cnt := if count then k else 0 }
        let (r, s) := engWrites fuel s o core va0 (va + k) (bs.drop k) fill count
        ((w :: r.1, r.2), s)

/-- The writes of bytes at `va`. -/
def engWrite (s : State) (o : Op) (va : Nat) (bs : List Byte) (fill : Nat → Bool) (count : Bool) :
    Writes × State :=
  engWrites (bs.length / 16 + 2) s o o.core va va bs fill count

/-- The progress that writes add. -/
def cntOf (ws : List EngWrite) : Nat := ws.foldl (fun n w => n + w.cnt) 0

/-- One pending write of an operation is performed or enters its queue (R269), or is sent to
another module (R363). It carries the operation, its address, the PROGRESS before it and what it adds, for
the window check at the home (R73, R74); `joined` marks a further piece of the granule before it (R218), and
`far` is what a write to another module sends. -/
def engPerform (s : State) (o : Op) (joined : Bool) (far : List Byte) (w : EngWrite) : State :=
  if farBase ≤ w.home then farSend s o.pasid w.home w.bytes.length o.id far
  else issueEntry s { src := o.die, dst := homeDie w.home, home := w.home, bytes := w.bytes, fill := w.fill,
                      chk := w.chk, pasid := o.pasid, unit := w.unit, fe := false,
                      op := some (o.id, w.va, o.prog, w.cnt), amo := none, joined := joined }

/-- A unit that meets a fault after the writes `ws`: these are still performed, and the operation then
ends with the fault (R74, R111). With cause 0 it waits, and makes its writes once the address is known. -/
def faultAfter (s : State) (o : Op) (ws : List EngWrite) (cause addr member prog : Nat) : UnitRes :=
  if cause = 0 then .wait s else
  .go s { o with pend := ws, fin := some (o.fin.getD { st := .faulted, cause := cause, addr := addr,
                                                        member := member, progress := prog }) }


/-- Every pending write of an operation, in order. -/
def engFlush (s : State) (o : Op) : State := o.pend.foldl (fun s w => engPerform s o false w.bytes w) s

/-! ## Elements -/

/-- Whether an element of a DENSE view is the last one, in the order `key`, of the valid elements
in its 16-byte granule (R107). -/
def lastInGranule (h : HWord) (key : Nat → Nat → Nat) (g k : Nat) : Bool :=
  !(List.range (hRows h)).any (fun i => (List.range (hCols h)).any (fun j =>
    elemValid h i j && elemAddr h i j / 16 == g && decide (k < key i j)))

/-- The row-major order of a view. -/
def rowMajor (h : HWord) (i j : Nat) : Nat := i * hCols h + j

/-! ## Checks at acceptance -/

/-- R88 on a handle register for a use, as a trap's cause and value. -/
def chkH (s : State) (r : HReg) (dest : Bool) (types : List Nat) : Option (Nat × DWord) :=
  let k := hReason (s.hreg r) dest types
  if k = 0 then none else some (0x09, dw (r.toNat * 256 + k))

/-- BADH on a register with a reason. -/
def badH (r : HReg) (reason : Nat) : Option (Nat × DWord) := some (0x09, dw (r.toNat * 256 + reason))

/-- The first check that fails. -/
def firstBad : List (Option (Nat × DWord)) → Option (Nat × DWord)
  | [] => none
  | some x :: _ => some x
  | none :: r => firstBad r

/-- The lowest address of [a, b) outside the context's own TCM and SPM, if there is one. -/
def outsideOwn (a b : Nat) : Option Nat :=
  if b ≤ a then none
  else if (inTcm a && inTcm (b - 1)) || (inSpm a && inSpm (b - 1)) then none
  else if inTcm a ∨ inSpm a then some (a / 2 ^ 32 * 2 ^ 32 + 2 ^ 32)
  else some a

/-- The phase rule for extents (R58, R73): in a compute phase, the trap with the lowest address
outside (DEDUCED, log 23). -/
def phaseChk (s : State) (exts : List (Nat × Nat)) : Option (Nat × DWord) :=
  if s.mine.ph ≠ 1#2 then none
  else
    match exts.filterMap (fun e => outsideOwn e.1 e.2) with
    | [] => none
    | x :: r => some (0x06, dw (r.foldl min x))

/-- An extent moved by a signed number of bytes, in the 64 bits of an address. -/
def moved (d : Int) (e : Nat × Nat) : Nat × Nat :=
  let a := ((e.1 + d) % 2 ^ 64).toNat
  (a, a + (e.2 - e.1))

/-- The extent of the trailer of a q4 view (R82). -/
def trailerExt (h : HWord) : List (Nat × Nat) :=
  if hType h = 3 then [(trailerAddr h, trailerAddr h + 16)] else []

/-- The extents of a view and its trailer in every one of `n` steps of `adv` bytes (R114). -/
def stepExtents (h : HWord) (n : Nat) (adv : Int) : List (Nat × Nat) :=
  (List.range n).flatMap (fun (i : Nat) => (hExtent h :: trailerExt h).map (moved (adv * i)))

end Sys2Proof.Machine
end

