-- ==== Sys2Proof/Machine/Copy.lean ====
section
/-! DEFINITION. The copy engine: COPY, COPYM, PACK, UNPACK (spec/05 R110 to R118, spec/04 R90 to
R92). An operation's `pos` holds the batch step, the place in it and its phase. -/

namespace Sys2Proof.Machine
open Sys2Proof

/-! ## Runs of elements (R111) -/

/-- A sequence of element moves: which destination and source elements its numbers name (no
destination: nothing is done; no source: zero bits), the order of the destination, where else each
byte goes, and whether later steps write a granule. -/
structure ElemJob where
  total : Nat
  dst : Nat → Option (Nat × Nat)
  src : Nat → Option (Nat × Nat)
  key : Nat → Nat → Nat
  dv : HWord
  sv : HWord
  later : Nat → Bool
  cores : List Nat

/-- The numbers from `e` on whose destination bytes follow one another inside one granule. -/
def elemRun (j : ElemJob) (cap : Nat) : Nat → (e va : Nat) → List Nat
  | 0, _, _ => []
  | fuel + 1, e, va =>
    if j.total ≤ e ∨ cap = 0 then []
    else
      match j.dst e with
      | none => []
      | some (a, b) =>
        let z := esize (hFmt j.dv)
        if !elemValid j.dv a b || elemAddr j.dv a b != va then []
        else if (va + z) % 16 = 0 then [e]
        else e :: elemRun j (cap - 1) fuel (e + 1) (va + z)

/-- Bytes written by the unit at hand, by home, which its own later reads see (R111). -/
abbrev Done := List (Nat × Byte)

/-- The home of a byte that an operation stores to, as `core` addresses it. -/
def storeHome (s : State) (o : Op) (va core : Nat) : Option Nat :=
  match (locateNow s o.level core o.pasid .store va 1).1 with
  | .ok (.home h _) => some h
  | .ok (.pcie h _) => some h
  | .ok (.far w off) => some (farHome w off)
  | _ => none

/-- The home of a byte that an operation reads. -/
def loadHomeOf (s : State) (o : Op) (va : Nat) : Option Nat :=
  match (locateNow s o.level o.core o.pasid .load va 1).1 with
  | .ok (.home h _) => some h
  | .ok (.pcie h _) => some h
  | .ok (.far w off) => some (farHome w off)
  | _ => none

/-- Bytes written at `va` to every target, before those written earlier. -/
def wrote (s : State) (o : Op) (cores : List Nat) (va : Nat) (bs : List Byte) (d : Done) : Done :=
  bs.zipIdx.flatMap (fun p => (cores.filterMap (storeHome s o (va + p.2))).map (fun h => (h, p.1))) ++ d

/-- Bytes read at `va` as they are after the unit's own earlier writes (R111). -/
def seen (s : State) (o : Op) (d : Done) (va : Nat) (bs : List Byte) : List Byte :=
  bs.zipIdx.map (fun p =>
    match loadHomeOf s o (va + p.2) with
    | none => p.1
    | some h => ((d.find? (fun q => q.1 == h)).map Prod.snd).getD p.1)

/-- The address of the source element that number `e` names; none where it reads as zero bits. -/
def srcAddr (j : ElemJob) (e : Nat) : Option Nat :=
  match j.src e with
  | some (a, b) => if elemValid j.sv a b then some (elemAddr j.sv a b) else none
  | none => none

/-- The bytes that a run writes at `va`, from what its source elements held: each sees the destination
bytes before it (R111). -/
def runBytes (s : State) (o : Op) (cores : List Nat) : List (Option Nat × List Byte) → (va : Nat) → Done → List Byte
  | [], _, _ => []
  | (a, bs) :: r, va, d =>
    let bs := match a with
      | none => bs
      | some a => seen s o d a bs
    bs ++ runBytes s o cores r (va + bs.length) (wrote s o cores va bs d)

/-- The writes of bytes at `va` to every target in turn; PROGRESS counts with the first, when `count`
holds, and the others always follow it (R111, R152). -/
def multiWrite (o : Op) (va : Nat) (bs : List Byte) (fill : Nat → Bool) (count : Bool) : List Nat → State →
    Writes × State
  | [], s => (([], none), s)
  | c :: r, s =>
    let (w, s) := engWrites (bs.length / 16 + 2) s o c va va bs fill count
    match w.2 with
    | some _ => (w, s)
    | none =>
      let (w', s) := multiWrite o va bs fill false r s
      ((w.1 ++ w'.1, w'.2), s)

/-- How many bytes may be moved at once: up to the next 64-byte boundary of PROGRESS, where a cancel
takes effect (R111, R152). -/
def cancelRoom (o : Op) : Nat := 64 - o.prog % 64

/-- A failed read after writes of the same unit: these are made, and then the failure counts (R74,
R111). -/
def failAfter (s : State) (o : Op) (ws : List EngWrite) (f : EngRes) (prog : Nat) : UnitRes :=
  match f, ws with
  | .err .poison _, _ => .poison s
  | .err x va, _ => faultAfter s o ws x.opCause va 0xFFFF prog
  | f, _ => engFail s f 0xFFFF prog

/-- One unit of element moves from number `e` on, whose destination bytes lie in one granule: the
operation with its writes and the next number, or a fault. -/
def elemUnit (s : State) (o : Op) (n : Nat) (j : ElemJob) (e : Nat) : Except UnitRes (Op × Nat) × State :=
  let z := esize (hFmt j.dv)
  match j.dst e with
  | none => (.ok (o, e + 1), s)
  | some (a, b) =>
    if !elemValid j.dv a b then (.ok ({ o with prog := o.prog + z }, e + 1), s)
    else
      let va := elemAddr j.dv a b
      let es := elemRun j (max 1 (cancelRoom o / z)) 16 e va
      let ((got, bad), s) := readElems s o n z (es.map (srcAddr j))
      if bad = some .later then (.error (.wait s), s)
      else
        let bs := runBytes s o j.cores ((es.map (srcAddr j)).zip got) va []
        let last := e + got.length - 1
        let fill (g : Nat) : Bool :=
          hFew j.dv && !j.later g && lastInGranule j.dv j.key g
            (match j.dst last with
             | some (a, b) => j.key a b
             | none => 0)
        let (w, s) := multiWrite o va bs fill true j.cores s
        match w.2, bad with
        | some (x, fa), _ => (.error (faultAfter s o w.1 x.opCause fa 0xFFFF (o.prog + cntOf w.1)), s)
        | none, some f => (.error (failAfter s o w.1 f (o.prog + cntOf w.1)), s)
        | none, none => (.ok ({ o with pend := w.1 }, e + got.length), s)

/-! ## Blocks (R115, R82, R201) -/

/-- Whether block `b` of row `r` is outside the valid region (R115). -/
def blkMasked (h : HWord) (r b : Nat) : Bool :=
  hMask h && (decide (hVrows h ≤ r) || decide (hVcols h ≤ 32 * b))

/-- Blocks of a row of a q4 view. -/
def rowBlocks (h : HWord) : Nat := hCols h / 32

/-- The CRC state before any byte. -/
def crcInit : Nat := 0xFFFFFFFF

/-- The CRC state after bytes (R201). -/
def crcAdd (c : Nat) (bs : List Byte) : Nat := (bs.foldl crcStep (BitVec.ofNat 32 c)).toNat

/-- Whether a trailer matches the CRC state of its blocks, with its reserved bits zero (R201). -/
def trailerOk (c : Nat) (t : List Byte) : Bool :=
  (BitVec.ofNat 32 c ^^^ 0xFFFFFFFF#32).toNat == leNat ((t.drop 8).take 4) &&
    leNat ((t.drop 7).take 1) / 8 == 0 && leNat ((t.drop 12).take 4) == 0

/-- Whether a block of a q4 view from number `k` on, or the trailer after the last, is written into a
granule (R107): masked blocks are not written. -/
def blocksFrom (h : HWord) (g k : Nat) : Bool :=
  (List.range (hRows h * rowBlocks h)).any (fun m =>
    decide (k ≤ m) && !blkMasked h (m / rowBlocks h) (m % rowBlocks h) &&
      overlaps (g * 16) 16 (blkAddr h (m / rowBlocks h) (32 * (m % rowBlocks h))) 17) ||
  (decide (k ≤ hRows h * rowBlocks h) && overlaps (g * 16) 16 (trailerAddr h) 16)

/-- One unit of a block copy: block `e`, or the trailer after the last (R115). `scr` holds the CRC
state of the source's blocks as they were read. -/
def blockUnit (s : State) (o : Op) (n : Nat) (sv dv : HWord) (cores : List Nat) (later : Nat → Bool)
    (e : Nat) : Except UnitRes (Op × Nat) × State :=
  let nb := rowBlocks dv
  let tot := hRows dv * nb
  let fill (g : Nat) : Bool := hFew dv && !later g && !blocksFrom dv g (e + 1)
  let crc := if e = 0 then crcInit else o.scr.headD crcInit
  let put (s : State) (o : Op) (va : Nat) (bs : List Byte) : Except UnitRes (Op × Nat) × State :=
    let (w, s) := multiWrite o va bs fill true cores s
    match w.2 with
    | some (x, fa) => (.error (faultAfter s o w.1 x.opCause fa 0xFFFF o.prog), s)
    | none => (.ok ({ o with pend := w.1 }, e + 1), s)
  if e < tot then
    let r := e / nb
    let b := e % nb
    let hid := blkMasked sv r b
    let (x, s) : EngRes × State :=
      if (hid || blkMasked dv r b) && !hTrl sv then (.got (List.replicate 17 0#8), s)
      else engRead s o n (blkAddr sv r (32 * b)) 17
    match x with
    | .got bs =>
      let o := { o with scr := [crcAdd crc bs] }
      let bs := if hid then List.replicate 17 0#8 else bs
      if blkMasked dv r b then (.ok ({ o with prog := o.prog + 17 }, e + 1), s)
      else put s o (blkAddr dv r (32 * b)) bs
    | f => (.error (engFail s f 0xFFFF o.prog), s)
  else
    match engRead s o n (trailerAddr sv) 16 with
    | (.got t, s) =>
      if hTrl sv && !trailerOk crc t then (.error (.fault s 0x42 (trailerAddr sv) 0xFFFF o.prog), s)
      else put s o (trailerAddr dv) t
    | (f, s) => (.error (engFail s f 0xFFFF o.prog), s)

/-! ## Sparse tensors (R83, R84, R91, R92, R214) -/

/-- A place in the entries of a sparse tensor: the row (or block row), the next entry and the end
of the row's entries. -/
structure Cursor where
  row : Nat
  n : Nat
  stop : Nat
  deriving DecidableEq, Repr

/-- What comes next in a sparse tensor. -/
inductive SpNext where
  | entry (row col addr : Nat) (c : Cursor)
  | block (row col addr : Nat) (c : Cursor)
  | skip (c : Cursor)
  | past
  | bad (addr n : Nat)
  | err (e : EngRes)

/-- Bytes of a coordinate or position. -/
def spWidth (h : HWord) : Nat := if hType h = 5 ∧ hIw h = 0 then 2 else 4

/-- How an engine reads bytes. -/
abbrev Reader := State → (va len : Nat) → EngRes × State

/-- Positions entries `k` and `k + 1` as a cursor for row `k`, or the fault of R83 and R84, at the address of the
second of them (DESIGN CHOICE, log 47: these rules give no address). Its progress is the entry that would come
next, which the first of them gives, and 0 for the first pair (DESIGN CHOICE, log 43). -/
def spRow (rd : Reader) (s : State) (h : HWord) (row : Nat) : SpNext × State :=
  let w := spWidth h
  let a := hAddr2 h + w * row
  match rd s a w with
  | (.got p, s) =>
    match rd s (a + w) w with
    | (.got q, s) =>
      if leNat q < leNat p then (.bad (a + w) (if row = 0 then 0 else leNat p), s)
      else (.skip { row := row, n := leNat p, stop := leNat q }, s)
    | (e, s) => (.err e, s)
  | (e, s) => (.err e, s)

/-- The next entry of a sparse tensor (R83, R84); with no cursor, its first positions. A bad entry has the address
of the bad coordinate (DESIGN CHOICE, log 47: R83 and R84 give the fault's cause and progress alone). -/
def spNext (rd : Reader) (s : State) (h : HWord) : Option Cursor → SpNext × State
  | none => spRow rd s h 0
  | some c =>
    let w := spWidth h
    let z := esize (hFmt h)
    if hType h = 4 then
      let b := blkSide h
      if c.n < c.stop then
        match rd s (hAddr3 h + 4 * c.n) 4 with
        | (.got x, s) =>
          let col := leNat x
          if hCols h / b ≤ col then (.bad (hAddr3 h + 4 * c.n) c.n, s)
          else (.block (c.row * b) (col * b) (hBase h + c.n * b * b * z) { c with n := c.n + 1 }, s)
        | (e, s) => (.err e, s)
      else if hRows h / b ≤ c.row + 1 then (.past, s)
      else spRow rd s h (c.row + 1)
    else if hL0 h = 0 then
      if c.n < c.stop then
        match rd s (hAddr3 h + w * c.n) w with
        | (.got x, s) =>
          if hCols h ≤ leNat x then (.bad (hAddr3 h + w * c.n) c.n, s)
          else (.entry c.row (leNat x) (hBase h + c.n * z) { c with n := c.n + 1 }, s)
        | (e, s) => (.err e, s)
      else if hRows h ≤ c.row + 1 then (.past, s)
      else spRow rd s h (c.row + 1)
    else if c.n < c.stop then
      let a := hAddr3 h + 2 * w * c.n
      match rd s a w with
      | (.got x, s) =>
        if hRows h ≤ leNat x then (.bad a c.n, s)
        else
          match rd s (a + w) w with
          | (.got y, s) =>
            if hCols h ≤ leNat y then (.bad (a + w) c.n, s)
            else (.entry (leNat x) (leNat y) (hBase h + c.n * z) { c with n := c.n + 1 }, s)
          | (e, s) => (.err e, s)
      | (e, s) => (.err e, s)
    else (.past, s)

/-- A cursor as numbers. -/
def Cursor.nums (c : Cursor) : List Nat := [1, c.row, c.n, c.stop]

/-- The cursor kept in `scr`, none before the first positions are read. -/
def cursorOf (l : List Nat) : Option Cursor :=
  match l with
  | [1, r, n, t] => some { row := r, n := n, stop := t }
  | _ => none

/-- Elements (row, column, bytes offset) of a block, row-major. -/
def blockElems (b z : Nat) : List (Nat × Nat × Nat) :=
  (List.range (b * b)).map (fun k => (k / b, k % b, k * z))

/-- Writes to neighbouring addresses inside one granule made one write (R274). -/
def joinWrites : List (Nat × List Byte) → List (Nat × List Byte)
  | [] => []
  | (a, bs) :: r =>
    match joinWrites r with
    | (b, cs) :: t => if b = a + bs.length ∧ b % 16 ≠ 0 then (a, bs ++ cs) :: t else (a, bs) :: (b, cs) :: t
    | [] => [(a, bs)]

/-- Writes at several addresses in order; the full-empty bit of a granule is set with the last of them
into it where `fill` asks for it (R107). -/
def putAll (o : Op) (fill : Nat → Bool) (count : Bool) : List (Nat × List Byte) → State → Writes × State
  | [], s => (([], none), s)
  | (va, bs) :: r, s =>
    let last (g : Nat) : Bool := fill g && !r.any (fun p => overlaps (g * 16) 16 p.1 p.2.length)
    let (w, s) := engWrite s o va bs last count
    match w.2 with
    | some _ => (w, s)
    | none =>
      let (w', s) := putAll o fill count r s
      ((w.1 ++ w'.1, w'.2), s)

/-- Writes of elements of a view, in order, the masked ones left out (R81). -/
def putElems (o : Op) (dv : HWord) (fill : Nat → Bool) (l : List (Nat × Nat × List Byte)) (s : State) :
    Writes × State :=
  putAll o fill true
    (joinWrites ((l.filter (fun p => elemValid dv p.1 p.2.1)).map (fun p => (elemAddr dv p.1 p.2.1, p.2.2)))) s

/-- What an address holds for an operation now, read by no access; later for what only a request can read,
or a sluice line. -/
def peekRead (o : Op) : Reader := fun s va len =>
  match (locateNow s o.level o.core o.pasid .load va len).1 with
  | .ok (.home h _) => (.got ((List.range len).map (fun i => engByte s o 0 (h + i))), s)
  | .ok _ => (.later, s)
  | .error e => (.err e va, s)

/-- Whether element (i, j) of a view is written into granule `g`. -/
def inGranule (dv : HWord) (g i j : Nat) : Bool := elemValid dv i j && elemAddr dv i j / 16 == g

/-- Whether a sparse tensor can be seen from the cursor on without a request or a sluice line. -/
def spSeen (s : State) (o : Op) (sv : HWord) : Nat → Option Cursor → Bool
  | 0, _ => true
  | fuel + 1, cu =>
    match (spNext (peekRead o) s sv cu).1 with
    | .skip c => spSeen s o sv fuel (some c)
    | .entry _ _ _ c => spSeen s o sv fuel (some c)
    | .block _ _ _ c => spSeen s o sv fuel (some c)
    | .err .later => false
    | _ => true

/-- Whether an entry from the cursor on is written into granule `g` of a view, as the sparse tensor stands
now (R107). -/
def spLater (s : State) (o : Op) (sv dv : HWord) (g : Nat) : Nat → Option Cursor → Bool
  | 0, _ => false
  | fuel + 1, cu =>
    match (spNext (peekRead o) s sv cu).1 with
    | .skip c => spLater s o sv dv g fuel (some c)
    | .entry i j _ c => inGranule dv g i j || spLater s o sv dv g fuel (some c)
    | .block i j _ c =>
      (blockElems (blkSide sv) 1).any (fun p => inGranule dv g (i + p.1) (j + p.2.1)) ||
        spLater s o sv dv g fuel (some c)
    | _ => false

/-- The job that fills a view with +0 (R92). -/
def zeroJob (dv : HWord) (core : Nat) (later : Nat → Bool) : ElemJob :=
  { total := hRows dv * hCols dv, dst := fun e => some (e / hCols dv, e % hCols dv), src := fun _ => none,
    key := rowMajor dv, dv := dv, sv := dv, later := later, cores := [core] }

/-- The job that moves a stored entry or block of side `b` at address `a` to row `r` and column `c` of a
view (R92). -/
def entryJob (dv : HWord) (core b r c a : Nat) (later : Nat → Bool) : ElemJob :=
  { total := b * b
    dst := fun k => some (r + k / b, c + k % b)
    src := fun k => some (k / b, k % b)
    key := fun i j => if r ≤ i ∧ i < r + b ∧ c ≤ j ∧ j < c + b then (i - r) * b + (j - c) else 0
    dv := dv
    sv := hMake (dw (1 * 2 ^ 60 + hFmt dv * 2 ^ 56 + a)) (dw (b * 2 ^ 32 + b * 65536 + b)) 0#64 0#64
    later := later
    cores := [core] }

/-- Whether one of the entries that have been read ahead is written into granule `g` of a view (R107). -/
def aheadLater (sv dv : HWord) (ahead : List (List Nat)) (g : Nat) : Bool :=
  ahead.any (fun x =>
    match x with
    | [0, r, c, _] =>
      (blockElems (if hType sv = 4 then blkSide sv else 1) 1).any (fun p => inGranule dv g (r + p.1) (c + p.2.1))
    | _ => false)

/-- One access of the reading ahead, from the cursor that `cu` keeps: `res` takes each entry as [0, row, column,
address], and what ends the entries: a bad one as [1, address, progress], a fault as [2, cause, address], or
[3]. -/
def aheadUnit (s : State) (o : Op) (n : Nat) (sv : HWord) (cu : List Nat) (e : Nat) : Except UnitRes (Op × Nat) × State :=
  let stop (s : State) (x : List Nat) : Except UnitRes (Op × Nat) × State :=
    (.ok ({ o with scr := [4], res := o.res ++ [x] }, e), s)
  let took (s : State) (c : Cursor) (x : List Nat) : Except UnitRes (Op × Nat) × State :=
    (.ok ({ o with scr := 3 :: c.nums, res := o.res ++ [x] }, e), s)
  match spNext (fun s va len => engRead s o n va len) s sv (cursorOf cu) with
  | (.skip c, s) => (.ok ({ o with scr := 3 :: c.nums }, e), s)
  | (.past, s) => stop s [3]
  | (.bad a k, s) => stop s [1, a, k]
  | (.err (.err .notPresent va), s) => stop s [2, 0x40, va]
  | (.err (.err .access va), s) => stop s [2, 0x41, va]
  | (.err f, s) => (.error (engFail s f 0xFFFF o.prog), s)
  | (.entry r c a cu, s) => took s cu [0, r, c, a]
  | (.block r c a cu, s) => took s cu [0, r, c, a]

/-- The entries that have been read ahead, in order: the one in hand in `scr` as [5, row, column, address, next
element], or the next. -/
def aheadEntries (s : State) (o : Op) (n : Nat) (sv dv : HWord) (e : Nat) : Except UnitRes (Op × Nat) × State :=
  match o.scr, o.res with
  | [5, r, c, a, k], rest =>
    let b := if hType sv = 4 then blkSide sv else 1
    if b * b ≤ k then (.ok ({ o with scr := [4] }, e), s)
    else
      match elemUnit s o n (entryJob dv o.core b r c a (aheadLater sv dv rest)) k with
      | (.ok (o, k), s) => (.ok ({ o with scr := [5, r, c, a, k] }, e), s)
      | x => x
  | _, [0, r, c, a] :: rest => (.ok ({ o with scr := [5, r, c, a, 0], res := rest }, e), s)
  | _, [1, a, k] :: _ => (.error (.fault s 0x44 a 0xFFFF k), s)
  | _, [2, cause, va] :: _ => (.error (.fault s cause va 0xFFFF o.prog), s)
  | _, _ => (.ok (o, e + 1), s)

/-- One unit of a decompressing copy (R92): the zeroes first, by number, then the entries; `scr` holds the
cursor, or the entry in hand and the cursor after it. Where full-empty bits are set and the tensor cannot be
seen without requests, its entries are read ahead of the zeroes, each once, for a granule's last write is to be
known when it is made (R107; DESIGN CHOICE, log 24). -/
def decompUnit (s : State) (o : Op) (n : Nat) (sv dv : HWord) (e : Nat) : Except UnitRes (Op × Nat) × State :=
  let later (cu : Option Cursor) (g : Nat) : Bool := spLater s o sv dv g (2 ^ 49) cu
  let z := zeroJob dv o.core (if o.res.isEmpty then later none else aheadLater sv dv o.res)
  if e = 0 ∧ o.scr.isEmpty = true ∧ hFew dv = true ∧ inWindows (hBase dv) = true ∧ spSeen s o sv (2 ^ 49) none = false then
    (.ok ({ o with scr := [3] }, e), s)
  else if o.scr.head? = some 3 then aheadUnit s o n sv (o.scr.drop 1) e
  else if e < z.total then elemUnit s o n z e
  else
    match o.scr with
    | 4 :: _ => aheadEntries s o n sv dv e
    | 5 :: _ => aheadEntries s o n sv dv e
    | [2, row, q, stop, r, c, a, k] =>
      let cu : Cursor := { row := row, n := q, stop := stop }
      let b := if hType sv = 4 then blkSide sv else 1
      if b * b ≤ k then (.ok ({ o with scr := cu.nums }, e), s)
      else
        match elemUnit s o n (entryJob dv o.core b r c a (later (some cu))) k with
        | (.ok (o, k), s) => (.ok ({ o with scr := [2, row, q, stop, r, c, a, k] }, e), s)
        | r => r
    | _ =>
      match spNext (fun s va len => engRead s o n va len) s sv (cursorOf o.scr) with
      | (.skip c, s) => (.ok ({ o with scr := c.nums }, e), s)
      | (.past, s) => (.ok (o, e + 1), s)
      | (.bad a k, s) => (.error (.fault s 0x44 a 0xFFFF k), s)
      | (.err f, s) => (.error (engFail s f 0xFFFF o.prog), s)
      | (.entry r c a cu, s) => (.ok ({ o with scr := [2, cu.row, cu.n, cu.stop, r, c, a, 0] }, e), s)
      | (.block r c a cu, s) => (.ok ({ o with scr := [2, cu.row, cu.n, cu.stop, r, c, a, 0] }, e), s)

/-- Whether a compressing copy drops an element (R91). -/
def dropped (sv dv : HWord) (bs : List Byte) : Bool :=
  hZdt dv && (elemNum (hFmt sv) (leNat bs)).isZero

/-- The address of element (i, j) of a DENSE view for a read; none where it reads as zero (R81). -/
def readAddr (h : HWord) (i j : Nat) : Option Nat := if elemValid h i j then some (elemAddr h i j) else none

/-- Reads `k` elements of row `i` of a DENSE view from column `j` on, masked elements as +0 (R81). -/
def readRow (s : State) (o : Op) (n : Nat) (h : HWord) (i k j : Nat) :
    Except EngRes (List (List Byte)) × State :=
  match readElems s o n (esize (hFmt h)) ((List.range k).map (fun c => readAddr h i (j + c))) with
  | ((l, none), s) => (.ok l, s)
  | ((_, some e), s) => (.error e, s)

/-- The writes of entry `n` of a CMPSP destination (R83, R91). -/
def entryWrites (d : HWord) (n row col : Nat) (bs : List Byte) : List (Nat × List Byte) :=
  let w := spWidth d
  let v := (hBase d + n * esize (hFmt d), bs)
  if hL0 d = 0 then [v, (hAddr3 d + w * n, leBytes w col)]
  else [v, (hAddr3 d + 2 * w * n, leBytes w row), (hAddr3 d + 2 * w * n + w, leBytes w col)]

/-- The columns from `j` on whose elements follow one another inside one granule of the source. -/
def granuleRun (h : HWord) (i j : Nat) : List Nat :=
  ((List.range 16).map (fun k => j + k)).takeWhile (fun c =>
    decide (c < hCols h) && elemAddr h i c / 16 == elemAddr h i j / 16 &&
      elemAddr h i c == elemAddr h i j + (c - j) * esize (hFmt h))

/-- The entries of elements in order (column, address, bytes as read): their writes, how many entries there
are then, and whether one exceeds the capacity (R91). Each element sees the writes before it (R111). -/
def keepRun (s : State) (o : Op) (sv dv : HWord) (i : Nat) :
    List (Nat × Option Nat × List Byte) → (k : Nat) → Done → List (Nat × List Byte) × Nat × Bool
  | [], k, _ => ([], k, false)
  | (j, a, bs) :: r, k, d =>
    let bs := match a with
      | none => bs
      | some a => seen s o d a bs
    if dropped sv dv bs then keepRun s o sv dv i r k d
    else if hStride dv ≤ k then ([], k, true)
    else
      let ws := entryWrites dv k i j bs
      let x := keepRun s o sv dv i r (k + 1) (ws.foldl (fun d w => wrote s o [o.core] w.1 w.2 d) d)
      (ws ++ x.1, x.2)

/-- One unit of a compressing copy (R91): the first position, the elements of a row that lie in one granule,
or the position after a row. `scr` holds the entries so far. PROGRESS counts the bytes written (R111); the
faults of R91 give the rows completed, at the address of the first entry past the capacity or of the position
that does not fit; where COO's pos[1] does not, the rows completed are ROWS − 1 (DESIGN CHOICE, log 47: R91
gives neither address, nor this count). -/
def compUnit (s : State) (o : Op) (n : Nat) (sv dv : HWord) (e : Nat) : Except UnitRes (Op × Nat) × State :=
  let w := spWidth dv
  let k := o.scr.headD 0
  let i := (e - 1) / (hCols sv + 1)
  let j := (e - 1) % (hCols sv + 1)
  let put (s : State) (o : Op) (l : List (Nat × List Byte)) (e : Nat) (bad : List EngWrite → Option UnitRes) :
      Except UnitRes (Op × Nat) × State :=
    let (ws, s) := putAll o (fun _ => false) true l s
    match ws.2, bad ws.1 with
    | some (x, fa), _ => (.error (faultAfter s o ws.1 x.opCause fa 0xFFFF (o.prog + cntOf ws.1)), s)
    | none, some r => (.error r, s)
    | none, none => (.ok ({ o with pend := ws.1 }, e), s)
  if e = 0 then put s { o with scr := [0] } [(hAddr2 dv, leBytes w 0)] 1 (fun _ => none)
  else if j = hCols sv then
    let a := hAddr2 dv + w * (if hL0 dv = 0 then i + 1 else 1)
    if hL0 dv ≠ 0 ∧ i + 1 < hRows sv then (.ok (o, e + 1), s)
    else if 2 ^ (8 * w) ≤ k then (.error (.fault s 0x44 a 0xFFFF i), s)
    else put s o [(a, leBytes w k)] (e + 1) (fun _ => none)
  else
    let cs := granuleRun sv i j
    let as := cs.map (readAddr sv i)
    let ((got, bad), s) := readElems s o n (esize (hFmt sv)) as
    if bad = some .later then (.error (.wait s), s)
    else
      let x := keepRun s o sv dv i (cs.zip (as.zip got)) k []
      put s { o with scr := [x.2.1] } x.1 (e + got.length) (fun ws =>
        if x.2.2 then
          some (faultAfter s o ws 0x44 (hBase dv + hStride dv * esize (hFmt dv)) 0xFFFF i)
        else bad.map (fun f => failAfter s o ws f (o.prog + cntOf ws)))

/-! ## The gathering path (R95, R96) -/

/-- The elements of a row of a WINDOW source, from element `j` on, that lie in one window line and,
in the destination, one after another. -/
def lineRun (sv dv : HWord) (i j : Nat) : Nat → Nat → Nat
  | 0, _ => 0
  | fuel + 1, k =>
    let z := esize (hFmt sv)
    let va (c : Nat) : Nat := hBase sv + (i * hStride sv + c) * z
    if j + k < hCols dv ∧ va (j + k) / 64 = va j / 64 ∧ elemValid dv i (j + k) = true ∧
        elemAddr dv i (j + k) = elemAddr dv i j + k * z then 1 + lineRun sv dv i j fuel (k + 1)
    else 0

/-- Whether a WINDOW handle's element size differs from that of the window it names, which is bound to the
operation's PASID (R86). -/
def windowMisfit (s : State) (o : Op) (h : HWord) : Bool :=
  match (locateNow s o.level o.core o.pasid .load (hBase h) 1).1 with
  | .ok (.sluice d w _) =>
    (tfind w (s.die d).windows).any (fun x => x.pasid == o.pasid && esize (hFmt x.base) != esize (hFmt h))
  | _ => false

/-- One unit of a gathering copy: the elements of one window line (R96), or one element once the line has met a
fault, so that those before the first faulting byte are moved (R74); `scr` is then [7]. A handle whose element size is not
the bound window's ends the operation with cause 0x43 and the window address (DESIGN CHOICE, log 43: R86
gives no code for it, and the checks of R88 do not read the window). -/
def gatherUnit (s : State) (o : Op) (n : Nat) (sv dv : HWord) (later : Nat → Bool) (e : Nat) :
    Except UnitRes (Op × Nat) × State :=
  let z := esize (hFmt dv)
  let i := e / hCols dv
  let j := e % hCols dv
  if windowMisfit s o sv then (.error (.fault s 0x43 (hBase sv) 0xFFFF o.prog), s)
  else if !elemValid dv i j then (.ok ({ o with prog := o.prog + z }, e + 1), s)
  else
    let m := if o.scr = [7] then 1 else min (max 1 (lineRun sv dv i j 64 0)) (max 1 (cancelRoom o / z))
    match engRead s o n (hBase sv + (i * hStride sv + j) * z) (m * z) with
    | (.got bs, s) =>
      let fill (g : Nat) : Bool := hFew dv && !later g && lastInGranule dv (rowMajor dv) g (e + m - 1)
      let (w, s) := engWrite s o (elemAddr dv i j) bs fill true
      match w.2 with
      | some (x, fa) => (.error (faultAfter s o w.1 x.opCause fa 0xFFFF (o.prog + cntOf w.1)), s)
      | none => (.ok ({ o with pend := w.1 }, e + m), s)
    | (.err .poison _, s) => (.error (.poison s), s)
    | (.err x va, s) =>
      if m = 1 then (.error (engFail s (.err x va) 0xFFFF o.prog), s) else (.ok ({ o with scr := [7] }, e), s)
    | (f, s) => (.error (engFail s f 0xFFFF o.prog), s)

/-! ## COPY (R113 to R115) -/

/-- The paths of R90. -/
inductive CopyPath where
  | elem | block | gather | compress | decomp
  deriving DecidableEq, Repr

/-- The path of a pair of types (R90). -/
def copyPath (src dst : Nat) (q4 : Bool) : Option CopyPath :=
  match src, dst with
  | 1, 1 => some .elem
  | 1, 2 => some .elem
  | 3, 3 => some .block
  | 3, 2 => some .block
  | 4, 1 => some .decomp
  | 4, 2 => some .decomp
  | 5, 1 => some .decomp
  | 5, 2 => some .decomp
  | 1, 5 => some .compress
  | 6, 1 => some .gather
  | 6, 2 => some .gather
  | 2, 1 => if q4 then none else some .elem
  | 2, 3 => some .block
  | _, _ => none

/-- The SHAPE trap of R114 for two views. -/
def shapeTrap (src dst : HWord) : Option (Nat × DWord) := some (0x0A, shapeVal src dst)

/-- N of R113. -/
def batchN (x : DWord) : Nat := if x.toNat = 0 then 1 else x.toNat

/-- The checks of COPY at acceptance (R114). A FMT disagreement is refused on every path, the compressing
and gathering ones too (DESIGN CHOICE, log 43: R90 names the element and decompressing copies). -/
def copyChk (hC hA : HReg) (sX sY sZ : SReg) (s : State) : Option (Nat × DWord) :=
  let a := s.hreg hA
  let c := s.hreg hC
  let t := hType a
  let sparse := t == 4 || t == 5 || hType c == 5
  let n := s.reg sX
  let ext (h : HWord) (adv : DWord) : List (Nat × Nat) :=
    if hType h = 2 then [hExtent h] else stepExtents h (batchN n) adv.toInt
  firstBad [
    chkH s hA false allTypes,
    chkH s hC true allTypes,
    (if (copyPath t (hType c) (hFmt a == 9)).isSome then none
     else if t = 7 then badH hA 9 else badH hC 9),
    (if hFmt a = hFmt c then none else badH hC 9),
    (if t = 2 ∧ ringAgrees s a = false then some (0x0F, dw (hRnum a)) else none),
    (if hType c = 2 ∧ ringAgrees s c = false then some (0x0F, dw (hRnum c)) else none),
    (if 2 ^ 32 - 1 < n.toNat then some (0x0A, n) else none),
    (if hRows a = hRows c ∧ hCols a = hCols c then none else shapeTrap a c),
    (if sparse && n.toNat > 1 then shapeTrap a c else none),
    (if (t == 2 || t == 4 || t == 5) && sY != 0#5 then shapeTrap a c else none),
    (if (hType c == 2 || hType c == 5) && sZ != 0#5 then shapeTrap a c else none),
    (if s.mine.ph ≠ 1#2 then none else phaseChk s (ext a (s.reg sY) ++ ext c (s.reg sZ)))]

/-- COPY (R113 to R115). -/
def execCopy (o : EOrd) (hC hA : HReg) (sX sY sZ : SReg) (s : State) : Out :=
  childOp (.copy o hC hA sX sY sZ) o (copyChk hC hA sX sY sZ)
    (fun s p => { p with hA := s.hreg hA, hC := s.hreg hC, xv := s.reg sX, yv := s.reg sY, zv := s.reg sZ }) s

/-- The views of a batch step: with a RING, of the slot that was claimed or reserved. -/
def stepView (s : State) (o : Op) (h : HWord) (slot : Option Nat) (i : Nat) (adv : DWord) : Except Nat HWord :=
  if hType h = 2 then
    match ring? s (clusterOfCore o.core) (hRnum h), slot with
    | some r, some k => .ok (slotView h (r.addr k))
    | _, _ => .ok h
  else
    let b := (hBase h : Int) + (i : Int) * adv.toInt
    if b < 0 ∨ 2 ^ 56 ≤ b then .error (b % 2 ^ 64).toNat else .ok (hSetBase h b.toNat)

/-- Whether a batch step after `i` writes a granule of the destination (R107). A later step gets the slot of a
RING of one again. Which slots of a larger one it gets depends on what other producers claim meanwhile, and is
not known: the last write of each step then counts as the last into its slot (DESIGN CHOICE, log 24). -/
def laterStep (o : Op) (i : Nat) (g : Nat) : Bool :=
  if hType o.hC = 2 then
    decide (i + 1 < batchN o.xv) && hSlots o.hC == 1
  else (List.range (batchN o.xv)).any (fun m =>
    decide (i < m) &&
      match hType o.hC with
      | 3 => blocksFrom (hSetBase o.hC ((hBase o.hC : Int) + m * o.zv.toInt).toNat) g 0
      | _ => !lastInGranule (hSetBase o.hC ((hBase o.hC : Int) + m * o.zv.toInt).toNat) (fun _ _ => 1) g 0)

/-- The numbers a step of a path runs through. -/
def pathTotal (p : CopyPath) (d : HWord) : Nat :=
  match p with
  | .block => hRows d * rowBlocks d + 1
  | .compress => 1 + hRows d * (hCols d + 1)
  | .decomp => hRows d * hCols d + 1
  | _ => hRows d * hCols d

/-- The body of a batch step at number `e` (R115). -/
def copyBody (s : State) (o : Op) (n : Nat) (p : CopyPath) (sv dv : HWord) (i e : Nat) :
    Except UnitRes (Op × Nat) × State :=
  match p with
  | .elem =>
    elemUnit s o n
      { total := hRows dv * hCols dv, dst := fun e => some (e / hCols dv, e % hCols dv),
        src := fun e => some (e / hCols dv, e % hCols dv), key := rowMajor dv, dv := dv, sv := sv,
        later := laterStep o i, cores := [o.core] } e
  | .block => blockUnit s o n sv dv [o.core] (laterStep o i) e
  | .gather => gatherUnit s o n sv dv (laterStep o i) e
  | .compress => compUnit s o n sv dv e
  | .decomp => decompUnit s o n sv dv e

/-- One unit of a COPY (R115): phase 0 claims slots, phase 1 moves, phase 2 fills and then releases, each
once. -/
def copyUnit (s : State) (o : Op) (n : Nat) : UnitRes :=
  let i := o.pos.getD 0 0
  let e := o.pos.getD 1 0
  let ph := o.pos.getD 2 0
  let rs := hType o.hA == 2
  let rd := hType o.hC == 2
  if batchN o.xv ≤ i then .fin s o
  else if ph = 2 then
    if rd && o.slotC.isSome then .wait (askRing s o 1 (hRnum o.hC))
    else if rs && o.slotA.isSome then .wait (askRelease s o 4 (hRnum o.hA))
    else .go s { o with pos := [i + 1, 0, 0], scr := [], res := [] }
  else if rs && o.slotA.isNone then .wait (askRing s o 2 (hRnum o.hA))
  else if rd && o.slotC.isNone then .wait (askRing s o 0 (hRnum o.hC))
  else
    match stepView s o o.hA o.slotA i o.yv, stepView s o o.hC o.slotC i o.zv,
        copyPath (hType o.hA) (hType o.hC) (hFmt o.hA == 9) with
    | .error b, _, _ => .fault s 0x41 b 0xFFFF o.prog
    | _, .error b, _ => .fault s 0x41 b 0xFFFF o.prog
    | .ok sv, .ok dv, some p =>
      match copyBody s o n p sv dv i e with
      | (.error r, _) => r
      | (.ok (o, e), s) => .go s { o with pos := [i, e, if e < pathTotal p dv then 1 else 2] }
    | _, _, none => .fin s o

/-! ## COPYM (R116, R117) -/

/-- The group of the slot in s[r] of the core that issues, for engine instructions that name a
group slot: the traps of R116, R220 and R290, or the group. -/
def slotOf (s : State) (v : DWord) : Except (Nat × DWord) Group :=
  if 3 < v.toNat then .error (0x0A, v)
  else
    match slotGroup s.mine v.toNat, s.launchOf s.myCore with
    | some g, some l =>
      match l.group? g with
      | some x => .ok x
      | none => .error (0x0A, v)
    | _, _ => .error (0x0A, v)

/-- The checks of COPYM at acceptance (R116). Of the SHAPE traps, the slot's comes first, then that of an
XMOD group, then the shapes' (DESIGN CHOICE, log 43: R116 gives no order). -/
def copymChk (hC hA : HReg) (sX : SReg) (s : State) : Option (Nat × DWord) :=
  let a := s.hreg hA
  let c := s.hreg hC
  firstBad [
    chkH s hA false [1, 3],
    chkH s hC true [1, 3],
    (if winOf (hBase c) = .tcm ∨ winOf (hBase c) = .spm then none else badH hC 8),
    (if hFmt a = hFmt c then none else badH hC 9),
    (match slotOf s (s.reg sX) with
     | .error e => some e
     | .ok g => if g.xmod then some (0x0A, dw g.gnum) else none),
    (if hRows a = hRows c ∧ hCols a = hCols c then none else shapeTrap a c),
    (match slotOf s (s.reg sX) with
     | .error _ => none
     | .ok g =>
       if s.mine.ph = 1#2 ∧ g.members.any (fun r => r != s.mine.rank) = true then some (0x06, dw g.gnum) else none),
    phaseChk s ([hExtent a, hExtent c] ++ trailerExt a ++ trailerExt c)]

/-- The members of the group that an instruction's slot names, at acceptance. -/
def takeGroup (s : State) (v : DWord) (p : Op) : Op :=
  match slotOf s v with
  | .ok g => { p with group := g.gnum, members := g.members }
  | .error _ => p

/-- COPYM (R116). -/
def execCopym (o : EOrd) (hC hA : HReg) (sX : SReg) (s : State) : Out :=
  childOp (.copym o hC hA sX) o (copymChk hC hA sX)
    (fun s p => takeGroup s (s.reg sX) { p with hA := s.hreg hA, hC := s.hreg hC, xv := s.reg sX }) s

/-- Whether a core runs a context of a launch. -/
def runsLaunch (s : State) (launch core : Nat) : Bool :=
  (s.core core).launch == some launch && s.ctxs.any (fun p => p.1 / 16 == core && p.2.mode != .absent)

/-- The cores that stand for the targets of a COPYM (R116): each member, or one member of each
distinct cluster, that runs a context of the launch when the first burst arrives (R117). -/
def multiTargets (s : State) (o : Op) : List Nat :=
  match s.launch? o.launch with
  | none => []
  | some l =>
    let live := (o.members.map (rankCore l)).filter (runsLaunch s o.launch)
    if winOf (hBase o.hC) = .tcm then live
    else
      live.foldl (fun t c => if t.any (fun x => clusterOfCore x == clusterOfCore c) then t else t ++ [c]) []

/-- The lowest member that receives nothing (R117). -/
def missingMember (s : State) (o : Op) : Option Nat :=
  match s.launch? o.launch with
  | none => o.members.head?
  | some l => o.members.find? (fun r => !runsLaunch s o.launch (rankCore l r))

/-- One unit of a COPYM: the first takes the targets into `scr` behind the CRC state, with the
missing member after it. -/
def copymUnit (s : State) (o : Op) (n : Nat) : UnitRes :=
  match o.pos with
  | [] =>
    let o := { o with members := multiTargets s o
                      mrank := (missingMember s o).getD 0xFFFF }
    .go s { o with pos := [0] }
  | e :: _ =>
    let q := hType o.hC == 3
    let tot := if q then hRows o.hC * rowBlocks o.hC + 1 else hRows o.hC * hCols o.hC
    if tot ≤ e then
      if o.mrank = 0xFFFF then .fin s o else .fault s 0x46 0 o.mrank o.prog
    else if o.members.isEmpty then .fault s 0x46 0 o.mrank 0
    else
      let r :=
        if q then blockUnit s o n o.hA o.hC o.members (fun _ => false) e
        else
          elemUnit s o n
            { total := tot, dst := fun e => some (e / hCols o.hC, e % hCols o.hC),
              src := fun e => some (e / hCols o.hC, e % hCols o.hC), key := rowMajor o.hC, dv := o.hC,
              sv := o.hA, later := fun _ => false, cores := o.members } e
      match r with
      | (.error r, _) => r
      | (.ok (o, e), s) => .go s { o with pos := [e] }

/-! ## PACK and UNPACK (R118) -/

/-- The checks of PACK and UNPACK at acceptance (R118). -/
def packChk (pack : Bool) (hC hA : HReg) (sX : SReg) (s : State) : Option (Nat × DWord) :=
  let a := s.hreg hA
  let c := s.hreg hC
  let g := (s.reg sX).toNat
  let plane := if pack then a else c
  let inter := if pack then c else a
  firstBad [
    chkH s hA false [1],
    chkH s hC true [1],
    (if hFmt a = hFmt c then none else badH hC 9),
    (if [2, 4, 8, 16, 32, 64].contains g then none else some (0x0A, s.reg sX)),
    (if hRows inter = (hRows plane + g - 1) / g ∧ hCols inter = hCols plane * g then none else shapeTrap a c),
    phaseChk s [hExtent a, hExtent c]]

/-- PACK (R118). -/
def execPack (o : EOrd) (hC hA : HReg) (sX : SReg) (s : State) : Out :=
  childOp (.pack o hC hA sX) o (packChk true hC hA sX)
    (fun s p => { p with hA := s.hreg hA, hC := s.hreg hC, xv := s.reg sX }) s

/-- UNPACK (R118). -/
def execUnpack (o : EOrd) (hC hA : HReg) (sX : SReg) (s : State) : Out :=
  childOp (.unpack o hC hA sX) o (packChk false hC hA sX)
    (fun s p => { p with hA := s.hreg hA, hC := s.hreg hC, xv := s.reg sX }) s

/-- The moves of PACK or UNPACK in loop order (R118). -/
def packJob (o : Op) (pack : Bool) : ElemJob :=
  let g := o.xv.toNat
  let plane := if pack then o.hA else o.hC
  let c := hRows plane
  let p := hCols plane
  let q (e : Nat) : Nat := e / (p * g)
  let pp (e : Nat) : Nat := e / g % p
  let ch (e : Nat) : Nat := q e * g + e % g
  let flat (e : Nat) : Nat × Nat := (q e, e % (p * g))
  { total := (c + g - 1) / g * (p * g)
    dst := fun e => if pack then some (flat e) else if ch e < c then some (ch e, pp e) else none
    src := fun e => if pack then (if ch e < c then some (ch e, pp e) else none) else some (flat e)
    key := if pack then rowMajor o.hC else fun i j => (i / g * p + j) * g + i % g
    dv := o.hC
    sv := o.hA
    later := fun _ => false
    cores := [o.core] }

/-- One unit of a PACK or UNPACK (R118). -/
def packUnit (s : State) (o : Op) (n : Nat) (pack : Bool) : UnitRes :=
  let e := o.pos.getD 0 0
  let j := packJob o pack
  if j.total ≤ e then .fin s o
  else
    match elemUnit s o n j e with
    | (.error r, _) => r
    | (.ok (o, e), s) => .go s { o with pos := [e] }

end Sys2Proof.Machine
end

