-- ==== Sys2Proof/Machine/Matrix.lean ====
section
/-! DEFINITION. The matrix unit: MMA and MMAG (spec/09 R208 to R223, spec/08 R202, R203). An
operation's `pos` holds its phase and the tile it is at. -/

namespace Sys2Proof.Machine
open Sys2Proof

/-! ## Formats and shapes (R209, R210) -/

/-- Whether A and B formats may be multiplied (R209). -/
def mmaPair (a b : Nat) : Bool :=
  (a == b && [0, 2, 3, 6, 9].contains a) || ((a == 4 || a == 5) && (b == 4 || b == 5))

/-- The format of C for an A format (R209). -/
def mmaOut (a : Nat) : Nat := if a = 0 then 0 else if a = 6 then 8 else 1

/-- Whether B is held transposed: a QTILE, but not a RING of q4 blocks (R210). -/
def bTrn (b : HWord) : Bool := hType b == 3
/-- Rows of B in its K × N orientation (R210). -/
def bRows (b : HWord) : Nat := if bTrn b then hCols b else hRows b
/-- Columns of B in its K × N orientation (R210). -/
def bCols (b : HWord) : Nat := if bTrn b then hRows b else hCols b

/-- The checks of R209. -/
def mmaFmtChk (a b c : HWord) (hB hC : HReg) : Option (Nat × DWord) :=
  if !mmaPair (hFmt a) (hFmt b) then badH hB 9
  else if hFmt c ≠ mmaOut (hFmt a) then badH hC 9
  else none

/-- The check of R210. -/
def mmaShapeChk (a b c : HWord) : Option (Nat × DWord) :=
  if hRows a = hRows c ∧ bCols b = hCols c ∧ hCols a = bRows b then none
  else some (0x0A, dw (hRows a * 2 ^ 48 + hCols a * 2 ^ 32 + bRows b * 65536 + bCols b))

/-- R120 and the distinct-ring rule of R213. -/
def mmaRingChk (s : State) (a b : HWord) : Option (Nat × DWord) :=
  if hType a = 2 ∧ ringAgrees s a = false then some (0x0F, dw (hRnum a))
  else if hType b = 2 ∧ ringAgrees s b = false then some (0x0F, dw (hRnum b))
  else if hType a = 2 ∧ hType b = 2 ∧ hRnum a = hRnum b then some (0x0F, dw (hRnum a))
  else none

/-- The checks of MMA at acceptance (R217). -/
def mmaChk (hC hA hB : HReg) (s : State) : Option (Nat × DWord) :=
  let a := s.hreg hA
  let b := s.hreg hB
  let c := s.hreg hC
  firstBad [
    chkH s hA false [1, 2, 3, 4, 5],
    chkH s hB false [1, 2, 3],
    chkH s hC true [1],
    mmaRingChk s a b,
    mmaFmtChk a b c hB hC,
    mmaShapeChk a b c,
    phaseChk s ([hExtent a, hExtent b, hExtent c] ++ trailerExt a ++ trailerExt b)]

/-- MMA (R216 to R218). -/
def execMma (ovw : Bool) (o : EOrd) (hC hA hB : HReg) (s : State) : Out :=
  childOp (.mma ovw o hC hA hB) o (mmaChk hC hA hB)
    (fun s p => { p with hA := s.hreg hA, hB := s.hreg hB, hC := s.hreg hC }) s

/-! ## Reading operands -/

/-- Elements as a sum takes them: the bits and the value. -/
abbrev Elems := List (Nat × Num)

/-- Elements as read. -/
def elemsOf (fmt : Nat) (l : List (List Byte)) : Elems := l.map (fun bs => (leNat bs, elemNum fmt (leNat bs)))

/-- Elements of a DENSE view along a line `f`, `k` of them from `m` on, masked ones +0 (R81, R212). -/
def denseLine (s : State) (o : Op) (n : Nat) (h : HWord) (f : Nat → Nat × Nat) (k m : Nat) :
    Except EngRes Elems × State :=
  match readElems s o n (esize (hFmt h)) ((List.range k).map (fun x => readAddr h (f (m + x)).1 (f (m + x)).2)) with
  | ((l, none), s) => (.ok (elemsOf (hFmt h) l), s)
  | ((_, some e), s) => (.error e, s)

/-- The elements of a block of row `r`, masked ones +0. -/
def blockLine (h : HWord) (r b : Nat) (bs : List Byte) : Elems :=
  (List.range 32).map (fun k =>
    if elemValid h r (32 * b + k) then (0, blockElem bs k) else (0, .fin false 0 0))

/-- The address of block `b` of row `r` of a QTILE view; none where MASK hides it (R81). -/
def blockAddr (h : HWord) (r b : Nat) : Option Nat := if blkMasked h r b then none else some (blkAddr h r (32 * b))

/-- Row `r` of a QTILE view from block `b` on, `k` blocks (R82, R195). -/
def quantLine (s : State) (o : Op) (n : Nat) (h : HWord) (r k b : Nat) : Except EngRes Elems × State :=
  match readElems s o n 17 ((List.range k).map (fun x => blockAddr h r (b + x))) with
  | ((l, none), s) => (.ok (l.zipIdx.flatMap (fun p => blockLine h r (b + p.2) p.1)), s)
  | ((_, some e), s) => (.error e, s)

/-- `k` pieces of `n` elements of a list. -/
def pieces {α : Type} (n : Nat) : Nat → List α → List (List α)
  | 0, _ => []
  | k + 1, l => l.take n :: pieces n k (l.drop n)

/-- Whether an operation of a core's matrix unit that took its place earlier still computes (R208, R215);
one that has left its place for a ring slot blocks nothing and stands behind those in the unit when it
takes a place again (R213; DEDUCED, log 45), and an MMAG at its issuer blocks nothing either (R221). -/
def computesBefore (o p : Op) : Bool :=
  p.core == o.core && opClass p.instr == 0 && p.st == .running && p.place && decide (p.placeNo < o.placeNo) &&
    !(p.parent.isNone && (match p.instr with
      | .mmag _ _ _ _ _ _ _ _ => true
      | _ => false))

/-- Whether some operation computes before this one. -/
def computeBehind (s : State) (o : Op) : Bool := s.ops.any (computesBefore o)

/-- Whether accesses of the load place lie within the C extent of the operation in the compute place, for
which they wait (R215). -/
def heldByC (s : State) (o : Op) (ps : List (Nat × Nat)) : Bool :=
  s.ops.any (fun p => computesBefore o p &&
    ps.any (fun x => overlaps x.1 x.2 (hExtent p.hC).1 ((hExtent p.hC).2 - (hExtent p.hC).1)))

/-- Reads of A or B: pieces of `z` bytes, in order (R208, R215). -/
def readPlan (s : State) (o : Op) (n z : Nat) (l : List (Option Nat)) : Except UnitRes (List (List Byte)) × State :=
  if heldByC s o (runPieces z l) then (.error (.wait s), s)
  else
    match readElems s o n z l with
    | ((got, none), s) => (.ok got, s)
    | ((_, some f), s) => (.error (engFail s f o.mrank o.prog), s)

/-- The piece size of an operand: an element, or a block of 17 bytes. -/
def planSize (h : HWord) : Nat := if hFmt h = 9 then 17 else esize (hFmt h)

/-- The reads of rows of a DENSE or QTILE view. -/
def rowsPlan (h : HWord) (rows : List Nat) : List (Option Nat) :=
  if hFmt h = 9 then rows.flatMap (fun i => (List.range (rowBlocks h)).map (blockAddr h i))
  else rows.flatMap (fun i => (List.range (hCols h)).map (readAddr h i))

/-- The rows that the reads of `rowsPlan` give. -/
def rowsOf (h : HWord) (rows : List Nat) (l : List (List Byte)) : List Elems :=
  if hFmt h = 9 then
    (rows.zip (pieces (rowBlocks h) rows.length l)).map (fun p =>
      p.2.zipIdx.flatMap (fun q => blockLine h p.1 q.2 q.1))
  else (pieces (hCols h) rows.length l).map (elemsOf (hFmt h))

/-- The block columns that columns of a view lie in. -/
def blockCols (cols : List Nat) : List Nat := (cols.map (fun j => j / 32)).eraseDups

/-- The reads of columns of B in its K × N orientation (R210): rows of a QTILE, and otherwise row by row. -/
def colsPlan (tr : Bool) (h : HWord) (cols : List Nat) : List (Option Nat) :=
  if tr then rowsPlan h cols
  else if hFmt h = 9 then (List.range (hRows h)).flatMap (fun k => (blockCols cols).map (blockAddr h k))
  else (List.range (hRows h)).flatMap (fun k => cols.map (readAddr h k))

/-- The columns that the reads of `colsPlan` give. -/
def colsOf (tr : Bool) (h : HWord) (cols : List Nat) (l : List (List Byte)) : List Elems :=
  let zero : Nat × Num := (0, .fin false 0 0)
  if tr then rowsOf h cols l
  else if hFmt h = 9 then
    let rs := pieces (blockCols cols).length (hRows h) l
    cols.map (fun j => rs.zipIdx.map (fun p =>
      (blockLine h p.2 (j / 32) (p.1.getD ((blockCols cols).idxOf (j / 32)) [])).getD (j % 32) zero))
  else
    let rs := (pieces cols.length (hRows h) l).map (elemsOf (hFmt h))
    (List.range cols.length).map (fun y => rs.map (fun r => r.getD y zero))

/-- The reading of a sparse A by the load or compute place (R208, R215). -/
def sparseRead (o : Op) (n : Nat) : Reader := fun s va len =>
  if heldByC s o [(va, len)] then (.later, s) else engRead s o n va len

/-- Whether a cursor has passed the last row of a tile. A COO tensor is visited to its end. -/
def sparsePast (h : HWord) (last : Nat) (c : Cursor) : Bool :=
  (hType h == 4 || hL0 h == 0) && (decide (last < c.row) || (c.row == last && decide (c.stop ≤ c.n)))

/-- The next entry of a sparse A for a tile whose rows (block rows) begin with `first`. -/
def sparseNext (rd : Reader) (s : State) (h : HWord) (first : Nat) (c : Option Cursor) : SpNext × State :=
  match c with
  | none => spRow rd s h (if hType h = 4 ∨ hL0 h = 0 then first else 0)
  | some _ => spNext rd s h c

/-- The elements of block (r, c) at address `a` that lie in rows of a tile: row, column and address. -/
def blockPart (h : HWord) (rows : List Nat) (r c a : Nat) : List (Nat × Nat × Nat) :=
  ((blockElems (blkSide h) (esize (hFmt h))).map (fun p => (r + p.1, c + p.2.1, a + p.2.2))).filter (fun p =>
    rows.contains p.1)

/-- The lowest address of a list of faults (R211). -/
def lowest (l : List (XErr × Nat)) : Option (XErr × Nat) :=
  l.foldl (fun m x =>
    match m with
    | none => some x
    | some y => if x.2 < y.2 then some x else some y) none

/-- The faults that an access of a range would meet, granule by granule. -/
def mxProbe (s : State) (o : Op) (a : Access) (va len : Nat) : List (XErr × Nat) :=
  ((List.range (len / 16 + 2)).map (fun k => if k = 0 then va else (va / 16 + k) * 16)).filterMap (fun v =>
    if va + len ≤ v then none
    else
      match (locateNow s o.level o.core o.pasid a v (min (16 - v % 16) (va + len - v))).1 with
      | .error e => some (e, v)
      | .ok (.sluice _ _ _) => some (.access, v)
      | .ok (.far _ _) => some (.access, v)
      | .ok _ => none)

/-- Row `i` of the dense matrix that sparse entries stand for (R92, R214). -/
def sparseLine (h : HWord) (es : List (Nat × Nat × Nat)) (i : Nat) : Elems :=
  (List.range (hCols h)).map (fun k =>
    match (es.filter (fun e => e.1 == i && e.2.1 == k)).getLast? with
    | some e => (e.2.2, elemNum (hFmt h) e.2.2)
    | none => (0, elemNum (hFmt h) 0))

/-- Whether A is sparse. -/
def isSparse (a : HWord) : Bool := hType a == 4 || hType a == 5

/-- The first and last row, or block row, of a sparse A that rows of a tile lie in. -/
def sparseRange (a : HWord) (rows : List Nat) : Nat × Nat :=
  let b := if hType a = 4 then blkSide a else 1
  (rows.headD 0 / b, rows.getLastD 0 / b)

/-! ## What a tile reads of an operand (R211) -/

/-- What has been read of a sparse operand before the tile's bytes are checked, by address, and the faults that
were met. -/
structure Ahead where
  known : List (Nat × List Byte)
  bad : List (XErr × Nat)
  deriving DecidableEq, Repr

/-- The number at an address, if it has been read. -/
def Ahead.at_ (x : Ahead) (a : Nat) : Option Nat := (x.known.find? (fun p => p.1 == a)).map (fun p => leNat p.2)

/-- Two readings, one after the other. -/
def Ahead.and (x y : Ahead) : Ahead := { known := x.known ++ y.known, bad := x.bad ++ y.bad }

/-- Reads in order; one that meets a fault is noted, and the others follow (R211). -/
def aheadReads (o : Op) (n : Nat) : List (Nat × Nat) → State → Except UnitRes Ahead × State
  | [], s => (.ok { known := [], bad := [] }, s)
  | (va, len) :: r, s =>
    let more (s : State) (x : Ahead) : Except UnitRes Ahead × State :=
      match aheadReads o n r s with
      | (.ok y, s) => (.ok (x.and y), s)
      | e => e
    match sparseRead o n s va len with
    | (.got bs, s) => more s { known := [(va, bs)], bad := [] }
    | (.err .notPresent a, s) => more s { known := [], bad := [(.notPresent, a)] }
    | (.err .access a, s) => more s { known := [], bad := [(.access, a)] }
    | (f, s) => (.error (engFail s f o.mrank o.prog), s)

/-- The coordinates of `k` entries of a COO tensor from entry `m` on, up to a bad one (R83). -/
def cooAhead (o : Op) (n : Nat) (h : HWord) : Nat → (m : Nat) → State → Except UnitRes Ahead × State
  | 0, _, s => (.ok { known := [], bad := [] }, s)
  | k + 1, m, s =>
    let w := spWidth h
    let a := hAddr3 h + 2 * w * m
    match aheadReads o n [(a, w), (a + w, w)] s with
    | (.ok x, s) =>
      if (x.at_ a).any (fun v => decide (hRows h ≤ v)) || (x.at_ (a + w)).any (fun v => decide (hCols h ≤ v)) then (.ok x, s)
      else
        match cooAhead o n h k (m + 1) s with
        | (.ok y, s) => (.ok (x.and y), s)
        | e => e
    | e => e

/-- Whether a sparse A is COO. -/
def isCoo (h : HWord) : Bool := hType h == 5 && hL0 h != 0

/-- What a tile reads of a sparse A to know which entries it has: the positions of its rows or block rows, and
of COO the coordinates of every entry. -/
def sparseAhead (o : Op) (n : Nat) (h : HWord) (rows : List Nat) (s : State) : Except UnitRes Ahead × State :=
  let w := spWidth h
  if isCoo h then
    match aheadReads o n [(hAddr2 h, w), (hAddr2 h + w, w)] s with
    | (.ok x, s) =>
      match x.at_ (hAddr2 h), x.at_ (hAddr2 h + w) with
      | some p, some q =>
        match cooAhead o n h (q - p) p s with
        | (.ok y, s) => (.ok (x.and y), s)
        | e => e
      | _, _ => (.ok x, s)
    | e => e
  else
    let (first, last) := sparseRange h rows
    aheadReads o n ((List.range (last - first + 2)).map (fun k => (hAddr2 h + w * (first + k), w))) s

/-- The entries (blocks) of each row (block row) of a tile whose positions are known, up to a pair that
decreases: row, first entry, how many. -/
def sparseSpans (h : HWord) (rows : List Nat) (x : Ahead) : List (Nat × Nat × Nat) :=
  let (first, last) := sparseRange h rows
  let w := spWidth h
  let pair (k : Nat) : Option (Nat × Nat) :=
    match x.at_ (hAddr2 h + w * k), x.at_ (hAddr2 h + w * (k + 1)) with
    | some p, some q => some (p, q)
    | _, _ => none
  (((List.range (last - first + 1)).map (fun k => (first + k, pair (first + k)))).takeWhile (fun p =>
    p.2.all (fun q => decide (q.1 ≤ q.2)))).filterMap (fun p => p.2.map (fun q => (p.1, q.1, q.2 - q.1)))

/-- The bytes that a tile reads of a sparse A beside the positions, as far as they are known: the coordinates or
block columns, and the values of its rows, as addresses and lengths. -/
def sparseBytes (h : HWord) (rows : List Nat) (x : Ahead) : List (Nat × Nat) :=
  let z := esize (hFmt h)
  let w := spWidth h
  if isCoo h then
    match x.at_ (hAddr2 h), x.at_ (hAddr2 h + w) with
    | some p, some q =>
      ((List.range (q - p)).filter (fun k =>
        (x.at_ (hAddr3 h + 2 * w * (p + k))).any (fun r => rows.contains r))).map (fun k => (hBase h + (p + k) * z, z))
    | _, _ => []
  else
    (sparseSpans h rows x).flatMap (fun p =>
      if hType h = 4 then
        let b := blkSide h
        (hAddr3 h + 4 * p.2.1, 4 * p.2.2) ::
          (List.range p.2.2).flatMap (fun k =>
            runPieces z ((blockPart h rows (p.1 * b) 0 (hBase h + (p.2.1 + k) * b * b * z)).map (fun q => some q.2.2)))
      else [(hAddr3 h + w * p.2.1, w * p.2.2), (hBase h + p.2.1 * z, p.2.2 * z)])

/-- A reader that gives what has been read ahead. -/
def knownRead (x : Ahead) (rd : Reader) : Reader := fun s va len =>
  match x.known.find? (fun p => p.1 == va && p.2.length == len) with
  | some p => (.got p.2, s)
  | none => rd s va len

/-- The entries of a sparse operand in some rows, in index order: row, column, bits; or what ended the
reading (R214). What has been read ahead is not read again. -/
def sparseRows (o : Op) (n : Nat) (h : HWord) (x : Ahead) (rows : List Nat) (first last : Nat) :
    Nat → State → Option Cursor → Except UnitRes (List (Nat × Nat × Nat)) × State
  | 0, s, _ => (.ok [], s)
  | fuel + 1, s, c =>
    let z := esize (hFmt h)
    let take (s : State) (l : List (Nat × Nat × Nat)) (cu : Cursor) :
        Except UnitRes (List (Nat × Nat × Nat)) × State :=
      match readPlan s o n z (l.map (fun p => some p.2.2)) with
      | (.error r, s) => (.error r, s)
      | (.ok bs, s) =>
        match sparseRows o n h x rows first last fuel s (some cu) with
        | (.ok m, s) => (.ok ((l.zip bs).map (fun p => (p.1.1, p.1.2.1, leNat p.2)) ++ m), s)
        | e => e
    if c.any (sparsePast h last) then (.ok [], s)
    else
      match sparseNext (knownRead x (sparseRead o n)) s h first c with
      | (.past, s) => (.ok [], s)
      | (.skip c, s) => sparseRows o n h x rows first last fuel s (some c)
      | (.bad a k, s) => (.error (.fault s 0x44 a o.mrank k), s)
      | (.err f, s) => (.error (engFail s f o.mrank o.prog), s)
      | (.entry r c a cu, s) => take s (if rows.contains r then [(r, c, a)] else []) cu
      | (.block r c a cu, s) => take s (blockPart h rows r c a) cu

/-- How an operand is read for a tile: what of it is read first, to know which bytes the tile reads; those bytes;
and the tile's rows or columns. -/
structure TileOperand where
  ahead : State → List Nat → Except UnitRes Ahead × State
  bytes : Ahead → List Nat → List (Nat × Nat)
  get : Ahead → State → List Nat → Except UnitRes (List Elems) × State

/-- An operand of which every byte that a tile reads is known. -/
def plainOperand (bytes : List Nat → List (Nat × Nat)) (get : State → List Nat → Except UnitRes (List Elems) × State) :
    TileOperand :=
  { ahead := fun s _ => (.ok { known := [], bad := [] }, s), bytes := fun _ => bytes, get := fun _ => get }

/-- The rows of A for a tile. -/
def operandA (o : Op) (n : Nat) (a : HWord) : TileOperand :=
  if isSparse a then
    { ahead := fun s rows => sparseAhead o n a rows s
      bytes := fun x rows => sparseBytes a rows x
      get := fun x s rows =>
        match sparseRows o n a x rows (sparseRange a rows).1 (sparseRange a rows).2 (2 ^ 49) s none with
        | (.ok es, s) => (.ok (rows.map (sparseLine a es)), s)
        | (.error r, s) => (.error r, s) }
  else
    plainOperand (fun rows => runPieces (planSize a) (rowsPlan a rows)) (fun s rows =>
      match readPlan s o n (planSize a) (rowsPlan a rows) with
      | (.ok l, s) => (.ok (rowsOf a rows l), s)
      | (.error r, s) => (.error r, s))

/-- The columns of B for a tile; `tr` when it is held transposed. -/
def operandB (o : Op) (n : Nat) (tr : Bool) (b : HWord) : TileOperand :=
  plainOperand (fun cols => runPieces (planSize b) (colsPlan tr b cols)) (fun s cols =>
    match readPlan s o n (planSize b) (colsPlan tr b cols) with
    | (.ok l, s) => (.ok (colsOf tr b cols l), s)
    | (.error r, s) => (.error r, s))

/-- Bytes of B's view (R219). -/
def bBytes (b : HWord) : Nat :=
  if hFmt b = 9 then hRows b * rowBlocks b * 17 else hRows b * hCols b * esize (hFmt b)

/-- Column `j` of B from the bytes of its view as an MMAG has read them (R221). -/
def stagedLine (h : HWord) (bs : List Byte) (j : Nat) : Elems :=
  if hFmt h = 9 then
    (List.range (rowBlocks h)).flatMap (fun b => blockLine h j b ((bs.drop ((j * rowBlocks h + b) * 17)).take 17))
  else
    let z := esize (hFmt h)
    (List.range (hRows h)).map (fun k =>
      let w := leNat ((bs.drop ((k * hCols h + j) * z)).take z)
      (w, elemNum (hFmt h) w))

/-! ## Tiles (R211, R212, R218) -/

/-- The side of an output tile (R211). -/
def tileSide (c : HWord) : Nat := if hFmt c = 0 then 16 else 32
/-- Tiles of a row of tiles. -/
def tileCols (c : HWord) : Nat := (hCols c + tileSide c - 1) / tileSide c
/-- All output tiles. -/
def tileCount (c : HWord) : Nat := (hRows c + tileSide c - 1) / tileSide c * tileCols c

/-- The valid rows of a tile. -/
def tileRows (c : HWord) (t : Nat) : List Nat :=
  ((List.range (tileSide c)).map (fun x => t / tileCols c * tileSide c + x)).filter (fun i =>
    decide (i < hRows c) && (!hMask c || decide (i < hVrows c)))
/-- The valid columns of a tile. -/
def tileColumns (c : HWord) (t : Nat) : List Nat :=
  ((List.range (tileSide c)).map (fun x => t % tileCols c * tileSide c + x)).filter (fun j =>
    decide (j < hCols c) && (!hMask c || decide (j < hVcols c)))

/-- One sum (R202, R203): from the bits of C, or +0. -/
def mmaSum (fmt start : Nat) (a b : Elems) : Nat :=
  if fmt = 0 then sumF64 start ((a.zip b).map (fun p => (p.1.1, p.2.1)))
  else if fmt = 6 then
    let t : Int := (a.zip b).foldl (fun t p => t + toSigned 8 p.1.1 * toSigned 8 p.2.1) (start : Int)
    ofSigned 32 t
  else
    let ps := (a.zip b).map (fun p => (p.1.2.mul p.2.2).1)
    sumGroups (ps.length / 8 + 1) start ps

/-- The valid elements of a tile in the order of their addresses. -/
def tileElems (c : HWord) (rows cols : List Nat) : List (Nat × Nat) :=
  if hTrn c then cols.flatMap (fun j => rows.map (fun i => (i, j))) else rows.flatMap (fun i => cols.map (fun j => (i, j)))

/-- Neighbouring bytes made one run. -/
def joinRuns : List (Nat × List Byte) → List (Nat × List Byte)
  | [] => []
  | (a, bs) :: r =>
    match joinRuns r with
    | (b, cs) :: t => if b = a + bs.length then (a, bs ++ cs) :: t else (a, bs) :: (b, cs) :: t
    | [] => [(a, bs)]

/-- The writes of a tile, granule by granule (R218); a granule that no later tile writes is marked (R107). -/
def tileWrites (s : State) (o : Op) (t : Nat) (l : List (Nat × List Byte)) : Writes × State :=
  let c := o.hC
  let key (i j : Nat) : Nat := i / tileSide c * tileCols c + j / tileSide c
  putAll o (fun g => hFew c && lastInGranule c key g t) false (joinRuns l) s

/-- The last write of a list counts one tile. -/
def countLast : List EngWrite → List EngWrite
  | [] => []
  | [w] => [{ w with cnt := 1 }]
  | w :: r => w :: countLast r

/-- The faults that a tile's accesses would meet (R211): those of the reading ahead, and of every byte of A, B
and C. -/
def tileFaults (s : State) (o : Op) (ovw : Bool) (x : Ahead) (ab : List (Nat × Nat)) (cp : List (Nat × Nat)) :
    List (XErr × Nat) :=
  x.bad ++ ab.flatMap (fun p => mxProbe s o .load p.1 p.2) ++ cp.flatMap (fun p => mxProbe s o .store p.1 p.2) ++
    (if ovw then [] else cp.flatMap (fun p => mxProbe s o .load p.1 p.2))

/-- The sums of a tile once its bytes are checked (R218): A and B are read in the load or the compute place, C
once every operation ahead of it in the unit has written its tiles (R215), and the writes are pended. -/
def tileSums (s : State) (o : Op) (n : Nat) (ovw : Bool) (t : Nat) (a b : TileOperand) (x : Ahead) : UnitRes :=
  let c := o.hC
  let rows := tileRows c t
  let cols := tileColumns c t
  let z := esize (hFmt c)
  let es := tileElems c rows cols
  match a.get x s rows with
  | (.error r, _) => r
  | (.ok as, s) =>
    match b.get { known := [], bad := [] } s cols with
    | (.error r, _) => r
    | (.ok bs, s) =>
      if computeBehind s o then .wait s
      else
        match if ovw then (([], none), s) else readElems s o n z (es.map (fun p => some (elemAddr c p.1 p.2))) with
        | ((_, some f), s) => engFail s f o.mrank o.prog
        | ((old, none), s) =>
          let out (p : (Nat × Nat) × Nat) : Nat × List Byte :=
            let st := if ovw then 0 else leNat (old.getD p.2 [])
            (elemAddr c p.1.1 p.1.2, leBytes z (mmaSum (hFmt o.hA) st
              (as.getD (rows.idxOf p.1.1) []) (bs.getD (cols.idxOf p.1.2) [])))
          let (w, s) := tileWrites s o t (es.zipIdx.map out)
          match w.2 with
          | some (e, va) => .fault s e.opCause va o.mrank o.prog
          | none => .go s { o with pos := [2, t + 1], pend := countLast w.1 }

/-- One tile (R211, R218): what tells which bytes it reads is read first; then, before any other access, its bytes
are checked, a fault naming the lowest address; then the sums follow. -/
def tileUnit (s : State) (o : Op) (n : Nat) (ovw : Bool) (t : Nat) (a b : TileOperand) : UnitRes :=
  let c := o.hC
  let rows := tileRows c t
  let cols := tileColumns c t
  if rows.isEmpty || cols.isEmpty then .go s { o with pos := [2, t + 1], prog := o.prog + 1 }
  else
    match a.ahead s rows with
    | (.error r, _) => r
    | (.ok x, s) =>
      let cp := runPieces (esize (hFmt c)) ((tileElems c rows cols).map (fun p => some (elemAddr c p.1 p.2)))
      let bad := if (gotSoFar s o).length = s.rdAt then
          lowest (tileFaults s o ovw x (a.bytes x rows ++ b.bytes { known := [], bad := [] } cols) cp)
        else none
      match bad with
      | some (e, va) => .fault s e.opCause va o.mrank o.prog
      | none => tileSums s o n ovw t a b x

/-! ## Trailers (R211, R201) -/

/-- Every block of a q4 tile in storage order, those that MASK hides too (R201). -/
def tileBlocks (h : HWord) : List (Option Nat) :=
  (List.range (hRows h * rowBlocks h)).map (fun m => some (blkAddr h (m / rowBlocks h) (32 * (m % rowBlocks h))))

/-- The trailer check of an operand with TRL = 1: the fault, if any, or the failed read. -/
def trailerChk (s : State) (o : Op) (n : Nat) (h : HWord) : Except UnitRes Unit × State :=
  if hFmt h ≠ 9 ∨ hTrl h = false then (.ok (), s)
  else
    match readPlan s o n 17 (tileBlocks h) with
    | (.error r, s) => (.error r, s)
    | (.ok l, s) =>
      match readPlan s o n 16 [some (trailerAddr h)] with
      | (.error r, s) => (.error r, s)
      | (.ok t, s) =>
        if trailerOk (crcAdd crcInit (l.flatMap id)) (t.headD []) then (.ok (), s)
        else (.error (.fault s 0x42 (trailerAddr h) o.mrank 0), s)

/-! ## MMA (R213 to R218) -/

/-- An operand with a RING's claimed slot in its place (R213). -/
def operandView (s : State) (o : Op) (h : HWord) (slot : Option Nat) : HWord :=
  if hType h = 2 then
    match ring? s (clusterOfCore o.core) (hRnum h), slot with
    | some r, some k => slotView h (r.addr k)
    | _, _ => h
  else h

/-- One unit of an MMA (R218): phase 0 claims slots, phase 1 checks trailers, phase 2 is a tile. -/
def mmaUnit (s : State) (o : Op) (n : Nat) (ovw : Bool) : UnitRes :=
  let a := operandView s o o.hA o.slotA
  let b := operandView s o o.hB o.slotB
  match o.pos with
  | [2, t] =>
    if tileCount o.hC ≤ t then .fin s o
    else tileUnit s o n ovw t (operandA o n a) (operandB o n (bTrn o.hB) b)
  | _ =>
    if hType o.hA = 2 ∧ o.slotA = none then .wait (askRing s o 2 (hRnum o.hA))
    else if hType o.hB = 2 ∧ o.slotB = none then .wait (askRing s o 3 (hRnum o.hB))
    else
      match trailerChk s o n a with
      | (.error r, _) => r
      | (.ok _, s) =>
        match trailerChk s o n b with
        | (.error r, _) => r
        | (.ok _, s) => .go s { o with pos := [2, 0] }

/-! ## MMAG (R219 to R223) -/

/-- Whether a template's window is allowed (R219). -/
def templateOk (h : HWord) : Bool := winOf (hBase h) == .tcm || winOf (hBase h) == .paged

/-- The checks of MMAG that concern its group (R220). -/
def mmagGroupChk (a b c : HWord) (v : DWord) (s : State) : Option (Nat × DWord) :=
  match slotOf s v with
  | .error e => some e
  | .ok g =>
    if g.xmod then some (0x0A, dw g.gnum)
    else if 65536 < bBytes b then some (0x0A, dw (bBytes b))
    else if !g.members.contains s.mine.rank then some (0x0A, dw g.gnum)
    else if s.mine.ph = 1#2 ∧ (g.members.any (fun r => r != s.mine.rank) = true ∨
        winOf (hBase a) = .paged ∨ winOf (hBase c) = .paged) then some (0x06, dw g.gnum)
    else none

/-- The checks of MMAG at acceptance (R220). R219's check of a template's BASE (BADH, reason 8) comes after
R88 of the three handles and before R209: R220 gives it no place (DESIGN CHOICE, log 45). -/
def mmagChk (hC hA hB : HReg) (sX : SReg) (s : State) : Option (Nat × DWord) :=
  let a := s.hreg hA
  let b := s.hreg hB
  let c := s.hreg hC
  firstBad [
    chkH s hA false [1, 3],
    chkH s hB false [1, 3],
    chkH s hC true [1],
    (if templateOk a then none else badH hA 8),
    (if templateOk c then none else badH hC 8),
    mmaFmtChk a b c hB hC,
    mmaShapeChk a b c,
    mmagGroupChk a b c (s.reg sX) s,
    phaseChk s ([hExtent a, hExtent b, hExtent c] ++ trailerExt a ++ trailerExt b)]

/-- MMAG (R219, R220). -/
def execMmag (ovw : Bool) (o : EOrd) (hC hA hB : HReg) (sX sY sZ : SReg) (s : State) : Out :=
  childOp (.mmag ovw o hC hA hB sX sY sZ) o (mmagChk hC hA hB sX)
    (fun s p => takeGroup s (s.reg sX)
      { p with hA := s.hreg hA, hB := s.hreg hB, hC := s.hreg hC, xv := s.reg sX, yv := s.reg sY, zv := s.reg sZ }) s

/-- A template as member number `g` resolves it (R220), or the BASE that is out of range. -/
def memberBase (h : HWord) (g : Nat) (stride : DWord) : Except Nat HWord :=
  if winOf (hBase h) = .tcm then .ok h
  else
    let b := (hBase h : Int) + g * stride.toInt
    if b < 0 ∨ 2 ^ 56 ≤ b then .error (b % 2 ^ 64).toNat else .ok (hSetBase h b.toNat)

/-- A member part (R221): `idx` is the member's number. -/
def memberPart (o : Op) (id core rank g stamp : Nat) : Op :=
  { o with
    id := id
    core := core
    idx := g
    st := .queued
    parent := some o.id
    mrank := rank
    slot := none
    inSlot := false
    snap := []
    waits := []
    pos := []
    scr := []
    got := []
    res := []
    prog := 0
    place := false
    cancel := false
    seq := stamp
    phase2 := false }

/-- The member parts of an MMAG, one for each member in increasing rank. -/
def makeParts (s : State) (o : Op) : State :=
  match s.launch? o.launch with
  | none => s
  | some l =>
    o.members.zipIdx.foldl (fun s p =>
      let (id, s) := s.fresh
      { s with ops := s.ops ++ [memberPart o id (rankCore l p.1) p.1 p.2 s.stamp], stamp := s.stamp + 1 }) s

/-- The parts of an MMAG that are not final. -/
def partsOf (s : State) (id : Nat) : List Op := s.ops.filter (fun p => p.parent == some id)

/-- A part's result: rank, state, cause, address, PROGRESS. -/
def partResult (rank st cause addr prog : Nat) : List Nat := [rank, st, cause, addr, prog]

/-- How an MMAG ends once every part has (R223). One that CANCEL has reached ends CANCELLED whatever its
parts met: the table gives no precedence (DESIGN CHOICE, log 45). -/
def mmagFinal (o : Op) : Final :=
  let bad := (o.res.filter (fun r => r.getD 1 0 == 3)).foldl (fun b r =>
    match b with
    | none => some r
    | some x => if r.getD 0 0 < x.getD 0 0 then some r else some x) none
  if o.cancel then
    { st := .cancelled, cause := 0x45, addr := 0, member := 0xFFFF,
      progress := o.res.foldl (fun m r => min m (r.getD 4 0)) (tileCount o.hC) }
  else
    match bad with
    | some r => { st := .faulted, cause := r.getD 2 0, addr := r.getD 3 0, member := r.getD 0 0, progress := r.getD 4 0 }
    | none => { st := .done, cause := 0, addr := 0, member := 0xFFFF, progress := tileCount o.hC }

/-- A row of B as the multicast reads it (R221): the bytes that are sent, those that MASK hides as zeroes, and
the CRC state after them. With TRL = 1 every block is read, for the check (R201). -/
def bRowRead (s : State) (o : Op) (n : Nat) (r crc : Nat) : Except UnitRes (List Byte × Nat) × State :=
  let h := o.hB
  if hFmt h = 9 then
    let bs := List.range (rowBlocks h)
    match readPlan s o n 17 (bs.map (fun b => if hTrl h then some (blkAddr h r (32 * b)) else blockAddr h r b)) with
    | (.ok l, s) =>
      (.ok ((bs.zip l).flatMap (fun p => if blkMasked h r p.1 then List.replicate 17 0#8 else p.2),
        crcAdd crc (l.flatMap id)), s)
    | (.error r, s) => (.error r, s)
  else
    match readPlan s o n (esize (hFmt h)) ((List.range (hCols h)).map (readAddr h r)) with
    | (.ok l, s) => (.ok (l.flatMap id, crc), s)
    | (.error r, s) => (.error r, s)

/-- The first part whose B has not reached its core, with a free staging buffer there (R221). -/
def unstaged (s : State) (id : Nat) : Option Op :=
  (partsOf s id).find? (fun p => p.st == .queued && p.pos.isEmpty && (s.core p.core).stage.isNone)

/-- A part is dropped with a result. -/
def endPart (s : State) (o p : Op) (r : List Nat) : State × Op :=
  let s := dropOp s p.id
  let s := s.modCore p.core (fun c => if c.stage = some p.id then { c with stage := none } else c)
  (s, { o with res := o.res ++ [r] })

/-- One unit of an MMAG at its issuer (R221): rows of B are read, then B is sent to the members and
the parts are awaited. A cancelled MMAG starts no part (R223). -/
def mmagUnit (s : State) (o : Op) (n : Nat) : UnitRes :=
  match o.pos with
  | [1] =>
    match if o.cancel then (partsOf s o.id).find? (fun p => p.st == .queued) else none with
    | some p =>
      let (s, o) := endPart s o p (partResult p.mrank 4 0x45 0 0)
      .go s o
    | none =>
      match unstaged s o.id with
      | some p =>
        if runsLaunch s o.launch p.core then
          .go ((s.modCore p.core (fun c => { c with stage := some p.id })).modOp p.id (fun p => { p with pos := [1] })) o
        else
          let (s, o) := endPart s o p (partResult p.mrank 3 0x46 0 0)
          .go s o
      | none => if (partsOf s o.id).isEmpty then .fin s { o with fin := some (mmagFinal o) } else .wait s
  | _ =>
    let r := o.pos.getD 1 0
    let crc := o.pos.getD 2 crcInit
    let o := { o with mrank := 0xFFFF }
    if o.cancel then
      .fin s { o with fin := some { st := .cancelled, cause := 0x45, addr := 0, member := 0xFFFF, progress := 0 } }
    else if r < hRows o.hB then
      match bRowRead s o n r crc with
      | (.ok (bs, crc), s) => .go s { o with pos := [0, r + 1, crc], scr := o.scr ++ bs.map BitVec.toNat }
      | (.error r, _) => r
    else if hFmt o.hB = 9 ∧ hTrl o.hB = true then
      match readPlan s o n 16 [some (trailerAddr o.hB)] with
      | (.error r, _) => r
      | (.ok t, s) =>
        if trailerOk crc (t.headD []) then .go (makeParts s o) { o with pos := [1], place := false }
        else .fault s 0x42 (trailerAddr o.hB) 0xFFFF 0
    else .go (makeParts s o) { o with pos := [1], place := false }

/-- The bytes of B an MMAG has read. -/
def parentB (s : State) (o : Op) : List Byte :=
  match o.parent.bind s.op? with
  | some p => p.scr.map (BitVec.ofNat 8)
  | none => []

/-- One unit of a member part (R221): as R218 with its own A and C and the staged B. -/
def partUnit (s : State) (o : Op) (n : Nat) (ovw : Bool) : UnitRes :=
  match o.pos with
  | [2, t] =>
    if tileCount o.hC ≤ t then .fin s o
    else
      tileUnit s o n ovw t (operandA o n o.hA)
        (plainOperand (fun _ => []) (fun s cols => (.ok (cols.map (stagedLine o.hB (parentB s o))), s)))
  | _ =>
    match memberBase o.hA o.idx o.yv, memberBase o.hC o.idx o.zv with
    | .error b, _ => .fault s 0x41 b o.mrank 0
    | _, .error b => .fault s 0x41 b o.mrank 0
    | .ok a, .ok c =>
      let o := { o with hA := a, hC := c }
      match trailerChk s o n a with
      | (.error r, _) => r
      | (.ok _, s) => .go s { o with pos := [2, 0] }

end Sys2Proof.Machine
end

