-- ==== Sys2Proof/Machine/Quant.lean ====
section
/-! DEFINITION. The quantiser: QNT, DQNT and QCHK (spec/10 R236 to R241, spec/08 R195 to R201). An
operation's `pos` holds its phase and the block it is at. -/

namespace Sys2Proof.Machine
open Sys2Proof

/-! ## Checks at acceptance (R238) -/

/-- Whether a QTILE is a whole tile: OROW = OCOL = 0, STRIDE = COLS, MASK = 0. -/
def wholeTile (h : HWord) : Bool :=
  hOrow h == 0 && hOcol h == 0 && hStride h == hCols h && !hMask h

/-- The rows and columns of two views agree (R114). -/
def sameShape (a c : HWord) : Option (Nat × DWord) :=
  if hRows a = hRows c ∧ hCols a = hCols c then none else shapeTrap a c

/-- R120 for one operand. -/
def ringChk (s : State) (h : HWord) : Option (Nat × DWord) :=
  if hType h = 2 ∧ ringAgrees s h = false then some (0x0F, dw (hRnum h)) else none

/-- The checks of QNT. -/
def qntChk (hC hA : HReg) (s : State) : Option (Nat × DWord) :=
  let a := s.hreg hA
  let c := s.hreg hC
  firstBad [
    chkH s hA false [1, 2],
    chkH s hC true [3],
    (if 1 ≤ hFmt a ∧ hFmt a ≤ 5 then none else badH hA 9),
    (if wholeTile c then none else badH hC 9),
    sameShape a c,
    ringChk s a,
    phaseChk s [hExtent a, hExtent c, (trailerAddr c, trailerAddr c + 16)]]

/-- The checks of DQNT. -/
def dqntChk (hC hA : HReg) (s : State) : Option (Nat × DWord) :=
  let a := s.hreg hA
  let c := s.hreg hC
  firstBad [
    chkH s hA false [2, 3],
    chkH s hC true [1],
    (if hFmt a = 9 then none else badH hA 9),
    (if hFmt c ≤ 5 then none else badH hC 9),
    sameShape a c,
    (if hType a = 2 ∧ hTrl a = true ∧ hSlotsz a * 64 < hRows a * blkRow a + 16 then some (0x0A, dw (hSlotsz a))
     else none),
    ringChk s a,
    phaseChk s ([hExtent a, hExtent c] ++ (if hTrl a then trailerExt a else []))]

/-- The checks of QCHK. -/
def qchkChk (hA : HReg) (s : State) : Option (Nat × DWord) :=
  let a := s.hreg hA
  firstBad [
    chkH s hA false [3],
    (if wholeTile a then none else badH hA 9),
    phaseChk s ([hExtent a] ++ trailerExt a)]

/-- The operands of QNT and DQNT. -/
def takeQuant (hC hA : HReg) (s : State) (p : Op) : Op := { p with hA := s.hreg hA, hC := s.hreg hC }

/-- QNT, type UNI (R237 to R239). -/
def execQntQ4uni (o : EOrd) (hC hA : HReg) (s : State) : Out :=
  childOp (.qntQ4uni o hC hA) o (qntChk hC hA) (takeQuant hC hA) s
/-- QNT, type E2M1. -/
def execQntQ4e2m1 (o : EOrd) (hC hA : HReg) (s : State) : Out :=
  childOp (.qntQ4e2m1 o hC hA) o (qntChk hC hA) (takeQuant hC hA) s
/-- QNT, type POW. -/
def execQntQ4pow (o : EOrd) (hC hA : HReg) (s : State) : Out :=
  childOp (.qntQ4pow o hC hA) o (qntChk hC hA) (takeQuant hC hA) s
/-- QNT, type HYB. -/
def execQntQ4hyb (o : EOrd) (hC hA : HReg) (s : State) : Out :=
  childOp (.qntQ4hyb o hC hA) o (qntChk hC hA) (takeQuant hC hA) s
/-- QNT, AUTO. -/
def execQntQ4auto (o : EOrd) (hC hA : HReg) (s : State) : Out :=
  childOp (.qntQ4auto o hC hA) o (qntChk hC hA) (takeQuant hC hA) s
/-- DQNT (R237, R240). -/
def execDqnt (o : EOrd) (hC hA : HReg) (s : State) : Out :=
  childOp (.dqnt o hC hA) o (dqntChk hC hA) (takeQuant hC hA) s
/-- QCHK (R237, R241). -/
def execQchk (o : EOrd) (hA : HReg) (s : State) : Out :=
  childOp (.qchk o hA) o (qchkChk hA) (fun s p => { p with hA := s.hreg hA }) s

/-! ## QNT (R239) -/

/-- The trailer's fields so far: AMAX as f32 bits, SAT, RETRIES, FLAGS, the CRC state. -/
structure QntAcc where
  amax : Nat
  sat : Nat
  ret : Nat
  fl : Nat
  crc : Nat
  deriving DecidableEq, Repr

/-- The fields kept in an operation's `scr`. -/
def qntAcc (l : List Nat) (auto : Bool) : QntAcc :=
  match l with
  | [a, s, r, f, c] => { amax := a, sat := s, ret := r, fl := f, crc := c }
  | _ => { amax := 0, sat := 0, ret := 0, fl := 4 * b2n auto, crc := crcInit }

/-- The fields as numbers. -/
def QntAcc.nums (a : QntAcc) : List Nat := [a.amax, a.sat, a.ret, a.fl, a.crc]

/-- The larger magnitude, NaNs left out, on f32 bits (R200). -/
def amaxStep (acc : Nat) (x : Num) : Nat :=
  if x.isNan then acc
  else if (f32.num acc).lt x.abs then (f32.put 0 x.abs).1 else acc

/-- The fields after a block (R239). -/
def QntAcc.add (a : QntAcc) (xs : List Num) (sat raises : Nat) (bs : List Byte) : QntAcc :=
  let nan := xs.any Num.isNan
  let inf := xs.any (fun x => match x with
    | .inf _ => true
    | _ => false)
  { amax := xs.foldl amaxStep a.amax
    sat := min (a.sat + sat) 65535
    ret := min (a.ret + raises) 255
    fl := a.fl ||| b2n nan ||| 2 * b2n inf
    crc := crcAdd a.crc bs }

/-- The trailer (R200). -/
def QntAcc.trailer (a : QntAcc) : List Byte :=
  leBytes 4 a.amax ++ leBytes 2 a.sat ++ leBytes 1 a.ret ++ leBytes 1 a.fl
    ++ leBytes 4 (BitVec.ofNat 32 a.crc ^^^ 0xFFFFFFFF#32).toNat ++ leBytes 4 0

/-- One unit of a QNT of type `ty`, 4 for AUTO: phase 0 claims a slot, phase 1 is a block, phase 2
the trailer, after every block's write is performed; with it the end is decided, so that no CANCEL leaves
trailer bytes (R239). -/
def qntUnit (s : State) (o : Op) (n ty : Nat) : UnitRes :=
  let a := operandView s o o.hA o.slotA
  let c := o.hC
  let nb := rowBlocks c
  let tot := hRows c * nb
  let acc := qntAcc o.scr (ty == 4)
  let fill (e g : Nat) : Bool := hFew c && !blocksFrom c g (e + 1)
  if hType o.hA = 2 ∧ o.slotA = none then .wait (askRing s o 2 (hRnum o.hA))
  else
    match o.pos with
    | [2] => .fin s o
    | l =>
      let e := l.getD 1 0
      if tot ≤ e then
        let s := performAll s o.die
        let (w, s) := engWrite s o (trailerAddr c) acc.trailer (fill e) false
        match w.2 with
        | some (x, fa) => .fault s x.opCause fa 0xFFFF o.prog
        | none =>
          .go s { o with pos := [2], pend := w.1
                         fin := some { st := .done, cause := 0, addr := 0, member := 0xFFFF, progress := o.prog } }
      else
        match denseLine s o n a (fun k => (e / nb, 32 * (e % nb) + k)) 32 0 with
        | (.error f, s) => engFail s f 0xFFFF o.prog
        | (.ok els, s) =>
          let xs := els.map (fun p => p.2)
          let retry := o.csr.toNat % 4
          let (codes, scale, sat, raises) := if ty = 4 then encodeAuto retry xs else encodeBlock ty retry xs
          let bs := blockBytes codes scale
          let (w, s) := engWrite s o (blkAddr c (e / nb) (32 * (e % nb))) bs (fill e) false
          match w.2 with
          | some (x, fa) => .fault s x.opCause fa 0xFFFF o.prog
          | none =>
            .go s { o with pos := [1, e + 1], pend := countLast w.1, scr := (acc.add xs sat raises bs).nums }

/-! ## DQNT (R240) -/

/-- One unit of a DQNT: phase 0 claims a slot and checks the trailer, phase 1 decodes a block. -/
def dqntUnit (s : State) (o : Op) (n : Nat) : UnitRes :=
  let a := operandView s o o.hA o.slotA
  let c := o.hC
  let nb := rowBlocks a
  match o.pos with
  | [1, e] =>
    if hRows a * nb ≤ e then .fin s o
    else
      match quantLine s o n a (e / nb) 1 (e % nb) with
      | (.error f, s) => engFail s f 0xFFFF o.prog
      | (.ok els, s) =>
        let out := els.zipIdx.map (fun p =>
          (e / nb, 32 * (e % nb) + p.2, leBytes (esize (hFmt c)) (elemPut (hFmt c) 0 p.1.2)))
        let fill (g : Nat) : Bool :=
          hFew c && lastInGranule c (fun i j => i * nb + j / 32) g e
        let (w, s) := putElems o c fill out s
        let ws := w.1.map (fun x => { x with cnt := 0 })
        match w.2 with
        | some (x, fa) => faultAfter s o ws x.opCause fa 0xFFFF o.prog
        | none =>
          if ws.isEmpty then .go s { o with pos := [1, e + 1], prog := o.prog + 1 }
          else .go s { o with pos := [1, e + 1], pend := countLast ws }
  | _ =>
    if hType o.hA = 2 ∧ o.slotA = none then .wait (askRing s o 2 (hRnum o.hA))
    else
      match trailerChk s o n a with
      | (.error r, _) => r
      | (.ok _, s) => .go s { o with pos := [1, 0] }

/-! ## QCHK (R241) -/

/-- One unit of a QCHK: a block, or the trailer after the last. -/
def qchkUnit (s : State) (o : Op) (n : Nat) : UnitRes :=
  let a := o.hA
  let nb := rowBlocks a
  let e := o.pos.getD 0 0
  let crc := if e = 0 then crcInit else o.scr.headD crcInit
  if e < hRows a * nb then
    match engRead s o n (blkAddr a (e / nb) (32 * (e % nb))) 17 with
    | (.got bs, s) => .go s { o with pos := [e + 1], scr := [crcAdd crc bs], prog := o.prog + 1 }
    | (f, s) => engFail s f 0xFFFF o.prog
  else
    match engRead s o n (trailerAddr a) 16 with
    | (.got t, s) => if trailerOk crc t then .fin s o else .fault s 0x42 (trailerAddr a) 0xFFFF o.prog
    | (f, s) => engFail s f 0xFFFF o.prog

end Sys2Proof.Machine
end

