-- ==== Sys2Proof/Machine/Transcendental.lean ====
section
/-! DEFINITION. The transcendental operations of the vector unit (spec/08 R205): rational
enclosures of the exact values, the error bounds, and a free function kept inside them (log 31). -/

namespace Sys2Proof.Machine
open Sys2Proof

/-! ## Enclosures -/

/-- A rational enclosure: lo / den ≤ x ≤ hi / den, den positive. -/
structure Encl where
  lo : Int
  hi : Int
  den : Nat
  deriving DecidableEq, Repr

/-- Fraction bits of the fixed-point sums. -/
def fxBits : Nat := 256
/-- One in fixed point. -/
def fxOne : Nat := 2 ^ fxBits

/-- The terms of e^y for y = n / 2^256, 0 ≤ y < 2^−9, each rounded down: the sum of `fuel` terms
from term `k` on. -/
def expTerms (y : Nat) : Nat → (k t : Nat) → Nat
  | 0, _, _ => 0
  | fuel + 1, k, t => t + expTerms y fuel (k + 1) (t * y / (k * fxOne))

/-- A fixed-point interval squared `n` times. -/
def squareUp : Nat → Nat × Nat → Nat × Nat
  | 0, r => r
  | n + 1, (a, b) => squareUp n (a * a / fxOne, b * b / fxOne + 1)

/-- e^x for x = m × 2^e ≥ 0 below 1,024, in fixed point: a lower and an upper bound. The argument
is divided by 2^20; 32 terms leave less than one unit each (DEDUCED). -/
def expBounds (m : Nat) (e : Int) : Nat × Nat :=
  let sh : Int := e + fxBits - 20
  let (y, ex) : Nat × Bool :=
    if 0 ≤ sh then (m * 2 ^ sh.toNat, true) else (m / 2 ^ (-sh).toNat, m % 2 ^ (-sh).toNat == 0)
  let lo := expTerms y 32 1 fxOne
  let hi := expTerms (if ex then y else y + 1) 32 1 fxOne + 64
  squareUp 20 (lo, hi)

/-- 2 × artanh(p / q) in fixed point for p / q ≤ 1/3, terms rounded down: `fuel` terms of the odd
series from exponent `k` on. -/
def atanhTerms (p q : Nat) : Nat → (k t : Nat) → Nat
  | 0, _, _ => 0
  | fuel + 1, k, t => 2 * t / k + atanhTerms p q fuel (k + 2) (t * p * p / (q * q))

/-- ln(p / q) for 1 ≤ p / q ≤ 2: a lower and an upper bound in fixed point. -/
def lnBounds (p q : Nat) : Nat × Nat :=
  let l := atanhTerms (p - q) (p + q) 90 1 ((p - q) * fxOne / (p + q))
  (l, l + 1024)

/-- The enclosure of a value of R205 for a finite argument the special inputs leave: e^x, ln x, or
tanh x. -/
def transEncl (fn : Nat) (neg : Bool) (m : Nat) (e : Int) : Encl :=
  match fn with
  | 8 =>
    let (a, b) := expBounds m e
    if neg then { lo := (fxOne * fxOne * 2 ^ 2048 / b : Nat), hi := (fxOne * fxOne * 2 ^ 2048 / a + 1 : Nat),
                  den := fxOne * 2 ^ 2048 }
    else { lo := a, hi := b, den := fxOne }
  | 9 =>
    let k : Int := e + m.log2
    let (a, b) := lnBounds m (2 ^ m.log2)
    let (c, d) := lnBounds 2 1
    if 0 ≤ k then { lo := k * c + a, hi := k * d + b, den := fxOne }
    else { lo := k * d + a, hi := k * c + b, den := fxOne }
  | _ =>
    let small := magCmp m e 1 (-30) == .lt
    let (lo, hi, den) : Nat × Nat × Nat :=
      if small then
        -- x − x³/3 ≤ tanh x ≤ x, with e < 0
        let d := 2 ^ (-e).toNat
        (3 * m * d * d - m * m * m, 3 * m * d * d, 3 * d * d * d)
      else
        let (a, b) := expBounds m (e + 1)
        ((a - fxOne) * fxOne / (a + fxOne), (b - fxOne) * fxOne / (b + fxOne) + 1, fxOne)
    if neg then { lo := -(hi : Int), hi := -(lo : Int), den := den } else { lo := lo, hi := hi, den := den }

/-! ## The bounds of R205 -/

/-- c × 2^e against a / den. -/
def cmpRat (c : Int) (e : Int) (a : Int) (den : Nat) : Ordering :=
  if 0 ≤ e then compare (c * (2 ^ e.toNat : Nat) * den) a
  else compare (c * den) (a * (2 ^ (-e).toNat : Nat))

/-- The exponent of the binade of a / den, for a ≠ 0. -/
def ratExp (a den : Nat) : Int :=
  let l : Int := (a.log2 : Int) - den.log2
  if cmpRat 1 l a den == .gt then l - 1 else l

/-- Whether a number is a power of two. -/
def isPow2 (m : Nat) : Bool := m == 2 ^ m.log2

/-- The unit of R205's bound, taken against the exact value: the last place of a value whose binade has
exponent `k`, the subnormals' at least. -/
def Fmt.unitOf (f : Fmt) (k : Int) : Int := max (1 - (f.bias : Int) - f.mb) (k - f.mb)

/-- Whether |r − x| ≤ n × 2^u holds for every x of an enclosure. -/
def within (neg : Bool) (m : Nat) (e : Int) (n u : Int) (x : Encl) : Bool :=
  let e0 := min e u
  let v := scaled neg m e e0
  let d := n * (2 ^ (u - e0).toNat : Nat)
  cmpRat (v - d) e0 x.lo x.den != .gt && cmpRat (v + d) e0 x.hi x.den != .lt

/-- Whether the finite argument m × 2^e lies in [0.5, 2]. -/
def nearOne (neg : Bool) (m : Nat) (e : Int) : Bool :=
  !neg && magCmp m e 1 (-1) != .lt && magCmp m e 1 1 != .gt

/-- Whether a finite result r = (−1)^nr × mr × 2^er is inside the bound of R205 for the finite
argument (−1)^n × m × 2^e, in units of the exact value's last place. -/
def transOk (f : Fmt) (fn : Nat) (n : Bool) (m : Nat) (e : Int) (nr : Bool) (mr : Nat) (er : Int) : Bool :=
  match fn with
  | 10 =>
    -- |r − 1/x| ≤ 2^u, by r × m × 2^(er + e) against 1
    let u := f.unitOf (-(m.log2 : Int) - (if isPow2 m then 0 else 1) - e)
    nr == n &&
      (let e0 := min er u
       let v : Int := (mr * 2 ^ (er - e0).toNat : Nat)
       let d : Int := (2 ^ (u - e0).toNat : Nat)
       cmpRat ((v - d) * m) (e0 + e) 1 1 != .gt && cmpRat ((v + d) * m) (e0 + e) 1 1 != .lt)
  | 11 =>
    -- |r − 1/√x| ≤ 2^u, by r² × x against 1
    let t : Int := e + m.log2
    let u := f.unitOf (-(if isPow2 m then (t + 1) / 2 else t / 2 + 1))
    !nr &&
      (let e0 := min er u
       let v : Int := (mr * 2 ^ (er - e0).toNat : Nat)
       let d : Int := (2 ^ (u - e0).toNat : Nat)
       (decide (v < d) || cmpRat ((v - d) * (v - d) * m) (2 * e0 + e) 1 1 != .gt) &&
         cmpRat ((v + d) * (v + d) * m) (2 * e0 + e) 1 1 != .lt)
  | _ =>
    let x := transEncl fn n m e
    -- the exact value's binade, or the lower one where the enclosure meets two
    let a := min x.lo.natAbs x.hi.natAbs
    (a != 0 && within nr mr er 2 (f.unitOf (ratExp a x.den)) x) || (fn == 9 && nearOne n m e && within nr mr er 1 (-22) x)

/-- The special inputs of a transcendental operation in f32 or f64, on bits (R205); e^x of an
argument of 1,024 or more is above every finite value. -/
def transSpecial (f : Fmt) (fn x : Nat) : Option Nat :=
  match f.num x, fn with
  | .nan _, _ => some f.nanBits
  | .inf n, 8 => some (if n then 0 else f.infBits)
  | .inf n, 9 => some (if n then f.nanBits else f.infBits)
  | .inf n, 10 => some (if n then f.signW else 0)
  | .inf n, 11 => some (if n then f.nanBits else 0)
  | .inf n, _ => some ((f.put 0 (.fin n 1 0)).1)
  | .fin n m e, 8 =>
    if magCmp m e 1 10 = .lt then
      let r := transEncl 8 n m e
      if !n && cmpRat (2 ^ (f.mb + 1) - 1) ((f.bias : Int) - f.mb) r.lo r.den == .lt then some f.infBits else none
    else if n then none
    else some f.infBits
  | .fin n m _, 9 =>
    if m = 0 then some (f.signW + f.infBits) else if n then some f.nanBits
    else if f.num x = f.num ((f.put 0 (intNum 1)).1) then some 0 else none
  | .fin n m _, 10 => if m = 0 then some ((if n then f.signW else 0) + f.infBits) else none
  | .fin n m _, 11 =>
    if m = 0 then some ((if n then f.signW else 0) + f.infBits) else if n then some f.nanBits
    else none
  | .fin n m e, _ =>
    if m = 0 then some x
    else if magCmp (m * 10) e 91 0 != .lt then some ((f.put 0 (.fin n 1 0)).1)
    else none

/-- A value that is inside the bound of R205: the enclosure's lower end, 1/x or 1/√x, rounded. -/
def transNear (f : Fmt) (fn : Nat) (n : Bool) (m : Nat) (e : Int) : Nat :=
  match fn with
  | 10 => (f.div 0 ((f.put 0 (intNum 1)).1) ((f.round 0 n m e false).1)).1
  | 11 =>
    let sh : Nat := if e % 2 = 0 then 240 else 241
    -- 1/√(m 2^e) = √(2^sh / m) × 2^(−(e + sh)/2)
    let r := isqrt (2 ^ (sh + 240) / m) 241 0
    (f.round 0 false r (-((e + sh) / 2) - 120) true).1
  | _ =>
    let x := transEncl fn n m e
    let a := x.lo.natAbs * 2 ^ 1200 / x.den
    (f.round 0 (decide (x.lo < 0)) a (-1200) true).1

/-- A transcendental function of R205 in f32 or f64, on bits: a fixed function with no stated
value (`Config.transcendental`), kept inside the bound; where 1/x is above every finite value, for which
R205 states no result, it chooses between infinity and the largest finite number of that sign (log 31). -/
def transOne (f : Fmt) (fn x : Nat) : Nat :=
  match transSpecial f fn x with
  | some r => r
  | none =>
    match f.num x with
    | .fin n m e =>
      let r := Config.transcendental fn (f.mb == 52) x % (2 * f.signW)
      if fn == 8 && magCmp m e 1 10 != .lt then
        -- e^x of −1,024 or less is above zero by less than a unit: two units above it, or one below zero
        if r ≤ 2 ∨ (f.signW ≤ r ∧ r ≤ f.signW + 1) then r else 0
      else
        let d := transNear f fn n m e
        match f.num r with
        | .fin nr mr er => if transOk f fn n m e nr mr er then r else d
        | _ => if d % f.signW = f.infBits ∧ fn = 10 ∧ r % 2 = 1 then d - 1 else d
    | _ => f.nanBits

/-- A transcendental operation on an element (R205): f64 and f32 by their own tables, bf16 and f16
as the f32 result rounded once. -/
def transElem (fmt fn x : Nat) : Nat :=
  match fmtOf fmt with
  | none => 0
  | some f =>
    if fmt = 0 then transOne f64 fn x
    else if fmt = 1 then transOne f32 fn x
    else (f.put 0 (f32.num (transOne f32 fn (f32.put 0 (f.num x)).1))).1

end Sys2Proof.Machine
end

