-- ==== Sys2Proof/Machine/Vector.lean ====
section
/-! DEFINITION. The cluster vector unit: the vector instructions, their queue and their strips
(spec/09 R224 to R235, spec/08 R204 to R206). An operation's `pos` holds the next strip, `scr` the
strips that a lane group holds, `res` what finished strips of a row leave. -/

namespace Sys2Proof.Machine
open Sys2Proof

/-! ## Checks at acceptance (R232) -/

/-- The formats of the arithmetic operations: f64, f32, bf16, f16 (R233). -/
def fmtFloat (f : Nat) : Bool := decide (f ≤ 3)
/-- The same and i32. -/
def fmtArith (f : Nat) : Bool := decide (f ≤ 3) || f == 8

/-- The valid bytes of the window of a handle's BASE (R54). -/
def winEnd (h : HWord) : Nat :=
  hBase h / 2 ^ 32 * 2 ^ 32 + (if inTcm (hBase h) then 131072 else 2097152)

/-- The first byte of an extent outside the valid bytes of its window (R232). -/
def beyond (h : HWord) : Option (Nat × DWord) :=
  let (a, b) := hExtent h
  if winEnd h < b then some (0x04, dw (max a (winEnd h))) else none

/-- Whether a destination view overlaps a source view that is not the same view (R232). -/
def vecClash (c h : HWord) : Option (Nat × DWord) :=
  let (a1, b1) := hExtent c
  let (a2, b2) := hExtent h
  let same := hBase c == hBase h && hStride c == hStride h && hRows c == hRows h && hCols c == hCols h &&
    hTrn c == hTrn h && hOrow c == hOrow h && hOcol c == hOcol h
  if a1 < b2 ∧ a2 < b1 ∧ same = false then some (0x0A, dw (hBase c)) else none

/-- The checks of R232 in order: the format rule `fmt` names the first handle that breaks it, and
`red` tells the shape rule of VREDS and VREDM. -/
def vecChk (hC hA : HReg) (hB : Option HReg) (red : Bool) (fmt : HWord → HWord → HWord → Option HReg)
    (extra : State → Option (Nat × DWord)) (s : State) : Option (Nat × DWord) :=
  let a := s.hreg hA
  let c := s.hreg hC
  let b := match hB with
    | some r => s.hreg r
    | none => a
  let own (r : HReg) : Option (Nat × DWord) :=
    let w := winOf (hBase (s.hreg r))
    if w = .tcm ∨ w = .spm then none else badH r 8
  let two (f : HReg → Option (Nat × DWord)) : Option (Nat × DWord) :=
    match hB with
    | some r => f r
    | none => none
  firstBad [
    chkH s hA false [1],
    two (fun r => chkH s r false [1]),
    chkH s hC true [1],
    (match fmt a b c with
     | some r => badH r 9
     | none => none),
    own hA, two own, own hC,
    (if hRows a = hRows c ∧ (if red then hCols c = 1 else hCols a = hCols c) then none
     else some (0x0A, shapeVal a c)),
    (if hRows b = hRows c ∧ (red ∨ hCols b = hCols c) then none else some (0x0A, shapeVal b c)),
    beyond a, (if hB.isSome then beyond b else none), beyond c,
    vecClash c a, (if hB.isSome then vecClash c b else none),
    extra s]

/-- The format rule of R233: A, B and C of one format that `ok` allows. -/
def fmtSame (ok : Nat → Bool) (hC hA hB : HReg) (a b c : HWord) : Option HReg :=
  if !ok (hFmt a) then some hA
  else if hFmt b ≠ hFmt a then some hB
  else if hFmt c ≠ hFmt a then some hC
  else none

/-- The format rule of VREDS and VSCAN (R235): C as A, or f32 from bf16 or f16. -/
def fmtWiden (hC hA : HReg) (a _b c : HWord) : Option HReg :=
  if !fmtArith (hFmt a) then some hA
  else if hFmt c = hFmt a ∨ (hFmt c = 1 ∧ (hFmt a = 2 ∨ hFmt a = 3)) then none
  else some hC

/-- The format rule of VCMP (R234). -/
def fmtCmp (hA hB : HReg) (a b _c : HWord) : Option HReg :=
  if !fmtArith (hFmt a) then some hA else if hFmt b ≠ hFmt a then some hB else none

/-- The format rule of VSEL (R234). -/
def fmtSel (hC : HReg) (_a b c : HWord) : Option HReg := if hFmt c = hFmt b then none else some hC

/-! ## Acceptance (R225) -/

/-- The vector instructions in a core's queue: each until its last strip is written (R225, R228). -/
def vecQueue (s : State) (core : Nat) : List Op :=
  s.ops.filter (fun o => o.vec && o.core == core && (o.fin.isNone || !o.pend.isEmpty) && !o.st.final)

/-- A vector instruction enters its core's queue and retires; issue stalls while the queue is full
(R225). -/
def vecAccept (i : Instr) (o : VOrd) (f : Op → Op) (s : State) : Out :=
  if 16 ≤ (vecQueue s s.myCore).length then .next s
  else
    let (id, s) := s.fresh
    let p := f (newOp s id i true o.wait.toNat o.pri.toNat o.trapf o.rel false o.slot)
    .next (retire i { s with ops := s.ops ++ [{ p with pos := [0] }] })

/-- A vector instruction at issue (R225, R232). -/
def vecOp (i : Instr) (o : VOrd) (hC hA : HReg) (hB : Option HReg) (x : DWord)
    (chk : State → Option (Nat × DWord)) (s : State) : Out :=
  run i s (fun s =>
    match chk s with
    | some (c, v) => trap i c v s
    | none =>
      vecAccept i o (fun p =>
        { p with
          hA := s.hreg hA
          hB := (match hB with
            | some r => s.hreg r
            | none => 0#256)
          hC := s.hreg hC
          xv := x }) s)

/-- A vector instruction with two sources of one format. -/
def vecTwo (i : Instr) (o : VOrd) (hC hA hB : HReg) (ok : Nat → Bool) (s : State) : Out :=
  vecOp i o hC hA (some hB) 0#64 (vecChk hC hA (some hB) false (fmtSame ok hC hA hB) (fun _ => none)) s

/-- A vector instruction with one source of one format. -/
def vecOne (i : Instr) (o : VOrd) (hC hA : HReg) (ok : Nat → Bool) (s : State) : Out :=
  vecOp i o hC hA none 0#64 (vecChk hC hA none false (fmtSame ok hC hA hA) (fun _ => none)) s

/-- VADD (R233). -/
def execVadd (r : BitVec 2) (o : VOrd) (hC hA hB : HReg) (s : State) : Out :=
  vecTwo (.vadd r o hC hA hB) o hC hA hB fmtArith s
/-- VSUB (R233). -/
def execVsub (r : BitVec 2) (o : VOrd) (hC hA hB : HReg) (s : State) : Out :=
  vecTwo (.vsub r o hC hA hB) o hC hA hB fmtArith s
/-- VMUL (R233). -/
def execVmul (r : BitVec 2) (o : VOrd) (hC hA hB : HReg) (s : State) : Out :=
  vecTwo (.vmul r o hC hA hB) o hC hA hB fmtArith s
/-- VFMA (R233). -/
def execVfma (r : BitVec 2) (o : VOrd) (hC hA hB : HReg) (s : State) : Out :=
  vecTwo (.vfma r o hC hA hB) o hC hA hB fmtFloat s
/-- VMAX (R233). -/
def execVmax (r : BitVec 2) (o : VOrd) (hC hA hB : HReg) (s : State) : Out :=
  vecTwo (.vmax r o hC hA hB) o hC hA hB fmtArith s
/-- VMIN (R233). -/
def execVmin (r : BitVec 2) (o : VOrd) (hC hA hB : HReg) (s : State) : Out :=
  vecTwo (.vmin r o hC hA hB) o hC hA hB fmtArith s
/-- VABS (R233). -/
def execVabs (r : BitVec 2) (o : VOrd) (hC hA : HReg) (s : State) : Out :=
  vecOne (.vabs r o hC hA) o hC hA fmtArith s
/-- VNEG (R233). -/
def execVneg (r : BitVec 2) (o : VOrd) (hC hA : HReg) (s : State) : Out :=
  vecOne (.vneg r o hC hA) o hC hA fmtArith s
/-- VEXP (R233). -/
def execVexp (r : BitVec 2) (o : VOrd) (hC hA : HReg) (s : State) : Out :=
  vecOne (.vexp r o hC hA) o hC hA fmtFloat s
/-- VLOG (R233). -/
def execVlog (r : BitVec 2) (o : VOrd) (hC hA : HReg) (s : State) : Out :=
  vecOne (.vlog r o hC hA) o hC hA fmtFloat s
/-- VRCP (R233). -/
def execVrcp (r : BitVec 2) (o : VOrd) (hC hA : HReg) (s : State) : Out :=
  vecOne (.vrcp r o hC hA) o hC hA fmtFloat s
/-- VRSQ (R233). -/
def execVrsq (r : BitVec 2) (o : VOrd) (hC hA : HReg) (s : State) : Out :=
  vecOne (.vrsq r o hC hA) o hC hA fmtFloat s
/-- VTANH (R233). -/
def execVtanh (r : BitVec 2) (o : VOrd) (hC hA : HReg) (s : State) : Out :=
  vecOne (.vtanh r o hC hA) o hC hA fmtFloat s
/-- VCMP (R234). -/
def execVcmp (r : BitVec 2) (o : VOrd) (hC hA hB : HReg) (sX : SReg) (s : State) : Out :=
  vecOp (.vcmp r o hC hA hB sX) o hC hA (some hB) (s.reg sX)
    (vecChk hC hA (some hB) false (fmtCmp hA hB) (fun s =>
      if (s.reg sX).toNat / 4 = 0 then none else some (0x0A, s.reg sX))) s
/-- VSEL (R234). -/
def execVsel (r : BitVec 2) (o : VOrd) (hC hA hB : HReg) (s : State) : Out :=
  vecOp (.vsel r o hC hA hB) o hC hA (some hB) 0#64
    (vecChk hC hA (some hB) false (fmtSel hC) (fun _ => none)) s
/-- VCVT (R234). -/
def execVcvt (r : BitVec 2) (o : VOrd) (hC hA : HReg) (s : State) : Out :=
  vecOp (.vcvt r o hC hA) o hC hA none 0#64 (vecChk hC hA none false (fun _ _ _ => none) (fun _ => none)) s
/-- VSCL (R234). -/
def execVscl (r : BitVec 2) (o : VOrd) (hC hA : HReg) (sX : SReg) (s : State) : Out :=
  vecOp (.vscl r o hC hA sX) o hC hA none (s.reg sX)
    (vecChk hC hA none false (fmtSame fmtArith hC hA hA) (fun _ => none)) s
/-- VREDS (R235). -/
def execVreds (r : BitVec 2) (o : VOrd) (hC hA : HReg) (s : State) : Out :=
  vecOp (.vreds r o hC hA) o hC hA none 0#64 (vecChk hC hA none true (fmtWiden hC hA) (fun _ => none)) s
/-- VREDM (R235). -/
def execVredm (r : BitVec 2) (o : VOrd) (hC hA : HReg) (s : State) : Out :=
  vecOp (.vredm r o hC hA) o hC hA none 0#64
    (vecChk hC hA none true (fmtSame fmtArith hC hA hA) (fun _ => none)) s
/-- VSCAN (R235). -/
def execVscan (r : BitVec 2) (o : VOrd) (hC hA : HReg) (s : State) : Out :=
  vecOp (.vscan r o hC hA) o hC hA none 0#64 (vecChk hC hA none false (fmtWiden hC hA) (fun _ => none)) s

/-! ## Elements (R233, R234) -/

/-- x op y for two elements of one format, the result into format `z`: an exact result rounded once
by the mode; i32 wraps (R233, R204). -/
def vecArith (fmt z : Nat) (mode : RMode) (fl : Num → Num → Num) (int : Int → Int → Int) (x y : Nat) : Nat :=
  if fmt = 8 then ofSigned 32 (int (toSigned 32 x) (toSigned 32 y))
  else elemPut z mode (fl (elemNum fmt x) (elemNum fmt y))

/-- x + y into format `z`. -/
def vecAdd (fmt z : Nat) (mode : RMode) (x y : Nat) : Nat :=
  vecArith fmt z mode (fun a b => (Num.add mode a b).1) (fun a b => a + b) x y

/-- The larger or smaller of two elements (R233, R169). -/
def vecMax (fmt : Nat) (isMax : Bool) (x y : Nat) : Nat :=
  match fmtOf fmt with
  | some f => f.vmax isMax x y
  | none =>
    let a := toSigned 32 x
    let b := toSigned 32 y
    ofSigned 32 (if isMax then max a b else min a b)

/-- An element written back with a NaN made canonical (R192). -/
def canon (fmt w : Nat) : Nat := elemPut fmt 0 (elemNum fmt w)

/-- |x| and −x: the sign bit of a float, a NaN canonical; i32 modulo 2^32 (R233). -/
def vecSign (fmt : Nat) (abs : Bool) (x : Nat) : Nat :=
  match fmtOf fmt with
  | some f =>
    if (f.num x).isNan then f.nanBits
    else if abs then x % f.signW
    else (x % (2 * f.signW)) ^^^ f.signW
  | none =>
    let a := toSigned 32 x
    ofSigned 32 (if abs then (a.natAbs : Int) else -a)

/-- The relations of VCMP (R234). -/
def vecRel (fmt rel x y : Nat) : Bool :=
  let a := elemNum fmt x
  let b := elemNum fmt y
  match rel with
  | 0 => a.eq b
  | 1 => !a.eq b
  | 2 => a.lt b
  | _ => a.lt b || a.eq b

/-- Whether the selector of VSEL holds: ±0 is zero, a NaN is not (R234). -/
def selected (fmt x : Nat) : Bool := !(elemNum fmt x).isZero

/-- The scalar of VSCL as a number (R234). -/
def sclNum (fmt : Nat) (x : DWord) : Num :=
  if fmt = 0 then f64.num x.toNat else f32.num (x.toNat % 2 ^ 32)

/-- C(e) of an element-wise instruction from A(e), B(e) and C(e) (R233, R234). -/
def vecElem (o : Op) (a b c : Nat) : Nat :=
  let fa := hFmt o.hA
  let fc := hFmt o.hC
  match o.instr with
  | .vadd r _ _ _ _ => vecAdd fa fc r.toNat a b
  | .vsub r _ _ _ _ => vecArith fa fc r.toNat (fun x y => (Num.add r.toNat x y.neg).1) (fun x y => x - y) a b
  | .vmul r _ _ _ _ => vecArith fa fc r.toNat (fun x y => (Num.mul x y).1) (fun x y => x * y) a b
  | .vfma r _ _ _ _ =>
    elemPut fc r.toNat (Num.add r.toNat (Num.mul (elemNum fa a) (elemNum fa b)).1 (elemNum fc c)).1
  | .vmax _ _ _ _ _ => vecMax fa true a b
  | .vmin _ _ _ _ _ => vecMax fa false a b
  | .vabs _ _ _ _ => vecSign fa true a
  | .vneg _ _ _ _ => vecSign fa false a
  | .vexp _ _ _ _ => transElem fa 8 a
  | .vlog _ _ _ _ => transElem fa 9 a
  | .vrcp _ _ _ _ => transElem fa 10 a
  | .vrsq _ _ _ _ => transElem fa 11 a
  | .vtanh _ _ _ _ => transElem fa 12 a
  | .vcmp _ _ _ _ _ _ => elemPut fc 0 (intNum (if vecRel fa (o.xv.toNat % 4) a b then 1 else 0))
  | .vsel _ _ _ _ _ => canon fc (if selected fa a then b else c)
  | .vcvt r _ _ _ => elemPut fc r.toNat (elemNum fa a)
  | .vscl r _ _ _ _ =>
    if fa = 8 then ofSigned 32 (toSigned 32 a * toSigned 32 (o.xv.toNat % 2 ^ 32))
    else elemPut fc r.toNat (Num.mul (elemNum fa a) (sclNum fa o.xv)).1
  | _ => 0

/-- Whether an instruction has the operand B, and whether it reads C (R231). -/
def vecReads (i : Instr) : Bool × Bool :=
  match i with
  | .vadd _ _ _ _ _ => (true, false)
  | .vsub _ _ _ _ _ => (true, false)
  | .vmul _ _ _ _ _ => (true, false)
  | .vfma _ _ _ _ _ => (true, true)
  | .vmax _ _ _ _ _ => (true, false)
  | .vmin _ _ _ _ _ => (true, false)
  | .vcmp _ _ _ _ _ _ => (true, false)
  | .vsel _ _ _ _ _ => (true, true)
  | _ => (false, false)

/-! ## Strips (R228) -/

/-- How an instruction goes through its view: element by element, or row by row, with the
operation of R206 on bits and what an empty row gives. -/
inductive VecKind where
  | elems
  | reduce
  | scan
  deriving DecidableEq, Repr

/-- The kind of a vector instruction. -/
def vecKind : Instr → VecKind
  | .vreds _ _ _ _ => .reduce
  | .vredm _ _ _ _ => .reduce
  | .vscan _ _ _ _ => .scan
  | _ => .elems

/-- Strips of one row. -/
def rowStrips (h : HWord) : Nat := (hCols h + 63) / 64

/-- Strips of an operation (R228). -/
def stripCount (o : Op) : Nat :=
  match vecKind o.instr with
  | .elems => (hRows o.hC * hCols o.hC + 63) / 64
  | _ => hRows o.hA * rowStrips o.hA

/-- Reads elements at places of a DENSE view, in order, masked ones as +0 (R81). -/
def readPlaces (s : State) (o : Op) (n : Nat) (h : HWord) (l : List (Nat × Nat)) : Except EngRes (List Nat) × State :=
  match readElems s o n (esize (hFmt h)) (l.map (fun p => readAddr h p.1 p.2)) with
  | ((bs, none), s) => (.ok (bs.map leNat), s)
  | ((_, some e), s) => (.error e, s)

/-- The operation of R206 on elements in C's format, from the element in A's. -/
def redOp (o : Op) (x y : Nat) : Nat :=
  match o.instr with
  | .vreds r _ _ _ => vecAdd (hFmt o.hC) (hFmt o.hC) r.toNat x y
  | .vscan r _ _ _ => vecAdd (hFmt o.hC) (hFmt o.hC) r.toNat x y
  | _ => vecMax (hFmt o.hC) true x y

/-- What a row with no present element gives (R235). -/
def redEmpty (o : Op) : Nat :=
  match o.instr, fmtOf (hFmt o.hC) with
  | .vredm _ _ _ _, some f => f.signW + f.infBits
  | .vredm _ _ _ _, none => 2 ^ 31
  | _, _ => 0

/-- A value of A in C's format: exact, a NaN canonical. -/
def redIn (o : Op) (w : Nat) : Nat := elemPut (hFmt o.hC) 0 (elemNum (hFmt o.hA) w)

/-- Writes elements of C's view, the masked ones left out. With FEW a granule is marked with the
write that the strips leave last (R107): `last g` tells it. -/
def vecPut (s : State) (o : Op) (els : List (Nat × Nat × Nat)) (last : Nat → Bool) : Writes × State :=
  putElems o o.hC (fun g => hFew o.hC && last g)
    (els.map (fun e => (e.1, e.2.1, leBytes (esize (hFmt o.hC)) e.2.2))) s

/-- Whether no strip other than `k` has still to write a granule: the strips not dispatched and those
the lane groups hold. -/
def stripLast (o : Op) (strip : Nat → Nat → Nat) (k g : Nat) : Bool :=
  !(List.range (hRows o.hC)).any (fun i => (List.range (hCols o.hC)).any (fun j =>
    let t := strip i j
    t != k && (decide (o.pos.getD 0 0 ≤ t) || o.scr.contains t) && elemValid o.hC i j &&
      elemAddr o.hC i j / 16 == g))

/-- A strip has its writes pended and leaves its lane group; the operation is done with its last strip, once
its writes are performed. -/
def stripDone (s : State) (o : Op) (k : Nat) (w : Writes) : UnitRes :=
  match w.2 with
  | some (x, a) => .fault s x.opCause a 0xFFFF o.prog
  | none =>
    let o := { o with pend := o.pend ++ w.1, scr := o.scr.filter (fun t => t != k), prog := o.prog + 1 }
    if stripCount o ≤ o.prog then .fin s o else .go s o

/-- A strip of an element-wise instruction (R228): every source element is read before a
destination element is written. -/
def elemStrip (s : State) (o : Op) (n k : Nat) : UnitRes :=
  let c := hCols o.hC
  let ps := ((List.range 64).map (fun x => 64 * k + x)).filter (fun e => decide (e < hRows o.hC * c))
  let ps := (ps.map (fun e => (e / c, e % c))).filter (fun p => elemValid o.hC p.1 p.2)
  let (rb, rc) := vecReads o.instr
  match readPlaces s o n o.hA ps with
  | (.error e, s) => engFail s e 0xFFFF o.prog
  | (.ok as, s) =>
    match if rb then readPlaces s o n o.hB ps else (.ok [], s) with
    | (.error e, s) => engFail s e 0xFFFF o.prog
    | (.ok bs, s) =>
      match if rc then readPlaces s o n o.hC ps else (.ok [], s) with
      | (.error e, s) => engFail s e 0xFFFF o.prog
      | (.ok cs, s) =>
        let els := ps.zipIdx.map (fun p =>
          (p.1.1, p.1.2, vecElem o (as.getD p.2 0) (bs.getD p.2 0) (cs.getD p.2 0)))
        let (w, s) := vecPut s o els (stripLast o (fun i j => (i * c + j) / 64) k)
        stripDone s o k w

/-- The present elements of strip `k` of a row operation (R206, R228). -/
def rowPlaces (o : Op) (k : Nat) : List (Nat × Nat) :=
  let m := rowStrips o.hA
  (((List.range 64).map (fun x => (k / m, 64 * (k % m) + x))).filter (fun p =>
    decide (p.2 < hCols o.hA))).filter (fun p => elemValid o.hA p.1 p.2)

/-- A strip of a reduction (R206): its tree; the last strip of its row combines the parts in strip
order and writes C(i, 0). `res` keeps row, strip, and the part if there is one. -/
def redStrip (s : State) (o : Op) (n k : Nat) : UnitRes :=
  let m := rowStrips o.hA
  let row := k / m
  match readPlaces s o n o.hA (rowPlaces o k) with
  | (.error e, s) => engFail s e 0xFFFF o.prog
  | (.ok xs, s) =>
    let part := (pairTree (redOp o) 7 (xs.map (redIn o))).toList
    let parts := o.res ++ [[row, k % m] ++ part]
    let mine := parts.filter (fun r => r.getD 0 0 == row)
    if mine.length < m then stripDone s { o with res := parts } k ([], none)
    else
      let vals := (List.range m).flatMap (fun j =>
        (mine.filter (fun r => r.getD 1 0 == j)).flatMap (fun r => r.drop 2))
      let v := match vals with
        | [] => redEmpty o
        | x :: r => r.foldl (redOp o) x
      let o := { o with res := parts.filter (fun r => r.getD 0 0 != row) }
      let last (g : Nat) : Bool :=
        !(List.range (hRows o.hC)).any (fun i => i != row && elemValid o.hC i 0 &&
          elemAddr o.hC i 0 / 16 == g &&
          (List.range m).any (fun j => decide (o.pos.getD 0 0 ≤ i * m + j) || o.scr.contains (i * m + j)))
      let (w, s) := vecPut s o [(row, 0, v)] last
      stripDone s o k w

/-- A strip of a VSCAN (R206, R228): after the strips of its row before it; `res` keeps the running
value of a row. -/
def scanStrip (s : State) (o : Op) (n k : Nat) : UnitRes :=
  let m := rowStrips o.hA
  let row := k / m
  if o.scr.any (fun t => t / m == row && decide (t < k)) then .wait s
  else
    match readPlaces s o n o.hA (rowPlaces o k) with
    | (.error e, s) => engFail s e 0xFFFF o.prog
    | (.ok xs, s) =>
      let run : Option Nat := (o.res.find? (fun r => r.getD 0 0 == row)).map (fun r => r.getD 1 0)
      let vs := scanRow (redOp o) run (xs.map (redIn o))
      let run := match vs.getLast? with
        | some v => some v
        | none => run
      let tail := run.getD (redEmpty o)
      let els := (List.range (min 64 (hCols o.hA - 64 * (k % m)))).map (fun x =>
        (row, 64 * (k % m) + x, vs.getD x tail))
      let rest := o.res.filter (fun r => r.getD 0 0 != row)
      let o := { o with res := match run with
                  | some v => rest ++ [[row, v]]
                  | none => rest }
      let (w, s) := vecPut s o els (stripLast o (fun i j => i * m + j / 64) k)
      stripDone s o k w

/-- One strip of a vector instruction. -/
def stripUnit (s : State) (o : Op) (n k : Nat) : UnitRes :=
  match vecKind o.instr with
  | .elems => elemStrip s o n k
  | .reduce => redStrip s o n k
  | .scan => scanStrip s o n k

/-! ## Dispatch (R225, R227 to R229) -/

/-- Whether two extents overlap. -/
def extMeet (a b : Nat × Nat) : Bool := decide (a.1 < b.2) && decide (b.1 < a.2)

/-- The extents of an operation: its destination first. -/
def vecExts (o : Op) : List (Nat × Nat) :=
  [hExtent o.hC, hExtent o.hA] ++ (if (vecReads o.instr).1 then [hExtent o.hB] else [])

/-- Whether the interlock holds an operation behind an earlier one (R228). -/
def interlocked (o p : Op) : Bool :=
  (vecExts o).any (fun e => extMeet e (hExtent p.hC)) || (vecExts p).any (fun e => extMeet e (hExtent o.hC))

/-- The operation of a core whose next strip may be dispatched (R225): the first that has strips
left, with its snapshot final and the interlock clear. -/
def dispatchable (s : State) (core : Nat) : Option Op :=
  let q := vecQueue s core
  match q.find? (fun o => decide (o.pos.getD 0 0 < stripCount o)) with
  | none => none
  | some o =>
    if !o.waits.isEmpty || launchDead s o.launch then none
    else if q.any (fun p => decide (p.id < o.id) && interlocked o p) then none
    else some o

/-- Strips that the lane groups of a cluster hold. -/
def lanesBusy (s : State) (cl : Nat) : Nat :=
  ((s.ops.filter (fun o => o.vec && clusterOfCore o.core == cl)).map (fun o => o.scr.length)).foldl (fun a b => a + b) 0

/-- The walk of R227 to the core that gets the next strip: the pointer and the deficits. -/
def cvuWalk (s : State) (cl : Nat) : Nat → (ptr : Nat) → Tbl Nat → Nat × Tbl Nat
  | 0, p, d => (p, d)
  | n + 1, p, d =>
    if (dispatchable s (cl * 8 + p)).isSome then (p, d) else cvuWalk s cl n ((p + 1) % 8) (tset p 0 d)

/-- What starting an operation does to its die's order: with REL a release at module scope by its
issuer, whose store buffer empties (R270, R267); then an acquire at module scope (R266, R269). -/
def startOrder (s : State) (o : Op) : State :=
  refreshAll (if o.rel then releaseModule s o.ctx else s) o.die

/-- A strip is dispatched to a free lane group of a cluster (R227); the first strip is
the start of its instruction (R229, R266). -/
def execStripDispatch (cl : Nat) (s : State) : Out :=
  if 8 * s.ndies ≤ cl then .fault .noSuchUnit
  else if 8 ≤ lanesBusy s cl ∨ !(List.range 8).any (fun c => (dispatchable s (cl * 8 + c)).isSome) then .next s
  else
    let x := s.cluster cl
    let (p, d) := cvuWalk s cl 8 x.cvuPtr x.cvuDef
    match dispatchable s (cl * 8 + p) with
    | none => .next s
    | some o =>
      let w := max (((s.core (cl * 8 + p)).vshare.toNat) % 16) 1
      let left := (if tget d p 0 = 0 then w else tget d p 0) - 1
      let s := s.modCluster cl (fun x =>
        { x with cvuPtr := if left = 0 then (p + 1) % 8 else p, cvuDef := tset p left d })
      let s := if o.pos == [0] then startOrder s o else s
      .next (s.modOp o.id (fun o =>
        { o with st := .running, pos := [o.pos.getD 0 0 + 1], scr := o.scr ++ [o.pos.getD 0 0] }))

end Sys2Proof.Machine
end

