-- ==== Sys2Proof/Machine/Weir.lean ====
section
/-! DEFINITION. The weir engine: WINIT, WPROBE, WCOMMIT, WPICK, WRD (spec/10 R242 to R251). An
operation's `pos` holds its phase and the element, row or gain it is at. -/

namespace Sys2Proof.Machine
open Sys2Proof

/-! ## Checks at acceptance (R245) -/

/-- A BASE in the private TCM or own SPM window (R245). -/
def ownBase (s : State) (r : HReg) : Option (Nat × DWord) :=
  let w := winOf (hBase (s.hreg r))
  if w = .tcm ∨ w = .spm then none else badH r 8

/-- The weir's arrays inside their window (R245). -/
def weirBeyond (h : HWord) : Option (Nat × DWord) :=
  let beyond (a : Nat) : Option (Nat × DWord) :=
    let e := a / 2 ^ 32 * 2 ^ 32 + 2097152
    if e < a + 4 * weirSize h then some (0x04, dw (max a e)) else none
  firstBad [beyond (hBase h), beyond (hAddr2 h)]

/-- The format of an operand. -/
def fmtChk (s : State) (r : HReg) (fs : List Nat) : Option (Nat × DWord) :=
  if fs.contains (hFmt (s.hreg r)) then none else badH r 9

/-- Candidates have 1 to 32 rows and as many columns as the weir has elements. -/
def candShape (a w : HWord) : Option (Nat × DWord) :=
  if 1 ≤ hRows a ∧ hRows a ≤ 32 ∧ hCols a = weirSize w then none else shapeTrap a w

/-- The address of a pick record: 8-byte aligned, in the private TCM or own SPM window. -/
def pickAddr (v : DWord) : Option (Nat × DWord) :=
  let a := v.toNat
  if a % 8 ≠ 0 then some (0x03, v)
  else if (inTcm a ∧ a % 2 ^ 32 + 8 ≤ 131072) ∨ (inSpm a ∧ a % 2 ^ 32 + 8 ≤ 2097152) then none
  else some (0x04, v)

/-- The checks of WINIT. -/
def winitChk (hC : HReg) (sX : SReg) (s : State) : Option (Nat × DWord) :=
  firstBad [
    chkH s hC true [7],
    weirBeyond (s.hreg hC),
    (if (f32.num ((s.reg sX).toNat % 2 ^ 32)).isNan then some (0x0A, s.reg sX) else none)]

/-- The checks of WPROBE. -/
def wprobeChk (hC hA hB : HReg) (s : State) : Option (Nat × DWord) :=
  let a := s.hreg hA
  let b := s.hreg hB
  let c := s.hreg hC
  firstBad [
    chkH s hA false [1, 2],
    chkH s hB true [1],
    chkH s hC true [7],
    fmtChk s hA [1, 2],
    fmtChk s hB [1],
    ownBase s hA, ownBase s hB,
    beyond a, beyond b, weirBeyond c,
    candShape a c,
    (if hCount b = hRows a then none else shapeTrap a b),
    ringChk s a]

/-- The checks of WCOMMIT. -/
def wcommitChk (hC hA : HReg) (sX : SReg) (s : State) : Option (Nat × DWord) :=
  let a := s.hreg hA
  let c := s.hreg hC
  firstBad [
    chkH s hA false [1, 2],
    chkH s hC true [7],
    fmtChk s hA [1, 2],
    ownBase s hA,
    beyond a, weirBeyond c,
    candShape a c,
    (if sX = 0#5 then none else pickAddr (s.reg sX)),
    ringChk s a]

/-- The checks of WPICK. -/
def wpickChk (hA : HReg) (sZ : SReg) (s : State) : Option (Nat × DWord) :=
  firstBad [
    chkH s hA false [1],
    fmtChk s hA [1],
    ownBase s hA,
    beyond (s.hreg hA),
    pickAddr (s.reg sZ)]

/-- The checks of WRD. -/
def wrdChk (hC hA hB : HReg) (s : State) : Option (Nat × DWord) :=
  let a := s.hreg hA
  let b := s.hreg hB
  let c := s.hreg hC
  firstBad [
    chkH s hA true [1],
    chkH s hB true [1],
    chkH s hC true [7],
    fmtChk s hA [1],
    fmtChk s hB [8],
    ownBase s hA, ownBase s hB,
    beyond a, beyond b, weirBeyond c,
    (if hCount a = weirSize c then none else shapeTrap c a),
    (if hCount b = weirSize c then none else shapeTrap c b)]

/-- WINIT (R246). -/
def execWinit (o : EOrd) (hC : HReg) (sX : SReg) (s : State) : Out :=
  childOp (.winit o hC sX) o (winitChk hC sX) (fun s p => { p with hC := s.hreg hC, xv := s.reg sX }) s

/-- WPROBE (R247). -/
def execWprobe (o : EOrd) (hC hA hB : HReg) (s : State) : Out :=
  childOp (.wprobe o hC hA hB) o (wprobeChk hC hA hB)
    (fun s p => { p with hA := s.hreg hA, hB := s.hreg hB, hC := s.hreg hC }) s

/-- WCOMMIT (R249). -/
def execWcommit (o : EOrd) (hC hA : HReg) (sX sY sZ : SReg) (s : State) : Out :=
  childOp (.wcommit o hC hA sX sY sZ) o (wcommitChk hC hA sX)
    (fun s p => { p with hA := s.hreg hA, hC := s.hreg hC, xv := s.reg sX, yv := s.reg sY, zv := s.reg sZ }) s

/-- WPICK (R248). -/
def execWpick (o : EOrd) (hA : HReg) (sY sZ : SReg) (s : State) : Out :=
  childOp (.wpick o hA sY sZ) o (wpickChk hA sZ)
    (fun s p => { p with hA := s.hreg hA, yv := s.reg sY, zv := s.reg sZ }) s

/-- WRD (R250). -/
def execWrd (o : EOrd) (hC hA hB : HReg) (s : State) : Out :=
  childOp (.wrd o hC hA hB) o (wrdChk hC hA hB)
    (fun s p => { p with hA := s.hreg hA, hB := s.hreg hB, hC := s.hreg hC }) s

/-! ## Order on one weir (R243) -/

/-- Whether an operation names a weir. -/
def namesWeir (o : Op) : Bool :=
  match o.instr with
  | .winit _ _ _ => true
  | .wprobe _ _ _ _ => true
  | .wcommit _ _ _ _ _ _ => true
  | .wrd _ _ _ _ => true
  | _ => false

/-- Whether an operation on the same weir that started earlier is not finished (R243). -/
def weirBehind (s : State) (o : Op) : Bool :=
  s.ops.any (fun p => clusterOfCore p.core == clusterOfCore o.core && p.st == .running && namesWeir p &&
    hBase p.hC == hBase o.hC && decide (p.startNo < o.startNo) && (p.fin.isNone || !p.pend.isEmpty))

/-! ## Units -/

/-- Writes that count `k` with the last of them. -/
def pendCount (o : Op) (ws : List EngWrite) (k : Nat) : Op :=
  match ws.reverse with
  | [] => { o with prog := o.prog + k }
  | w :: r => { o with pend := ({ w with cnt := k } :: r).reverse }

/-- A unit that ends with writes, which no check can stop after acceptance. An operation that waits for an
earlier one on its weir (R243) has given up its place, so that a third may start on the engine of two
places (R242 does not say; DESIGN CHOICE, log 30). -/
def weirGo (s : State) (o : Op) (w : Writes) (k : Nat) : UnitRes :=
  match w.2 with
  | some (x, a) => .fault s x.opCause a 0xFFFF o.prog
  | none => .go s (pendCount o (w.1.map (fun x => { x with cnt := 0 })) k)

/-- Elements `i` to `i + k − 1` of both arrays (R242). -/
def readWeir (s : State) (o : Op) (n i k : Nat) : Except EngRes (List Nat × List Nat) × State :=
  match engReads s o n [(hBase o.hC + 4 * i, 4 * k), (hAddr2 o.hC + 4 * i, 4 * k)] with
  | (.ok [b, t], s) =>
    let split (l : List Byte) : List Nat := (List.range k).map (fun j => leNat ((l.drop (4 * j)).take 4))
    (.ok (split b, split t), s)
  | (.ok _, s) => (.ok ([], []), s)
  | (.error e, s) => (.error e, s)

/-- Two writes in order. -/
def bothWrites (s : State) (o : Op) (l : List (Nat × List Byte)) : Writes × State := putAll o (fun _ => false) false l s

/-- One unit of a WINIT: 16 elements (R246, R251). -/
def winitUnit (s : State) (o : Op) : UnitRes :=
  let i := o.pos.getD 0 0
  let k := min 16 (weirSize o.hC - i)
  if k = 0 then .fin s o
  else if weirBehind s o then yieldPlace s o
  else
    let rep (w : List Byte) : List Byte := (List.range k).flatMap (fun _ => w)
    let (w, s) := bothWrites s o [(hBase o.hC + 4 * i, rep (leBytes 4 (o.xv.toNat % 2 ^ 32))),
      (hAddr2 o.hC + 4 * i, rep (leBytes 4 0xFFFFFFFF))]
    weirGo s { o with pos := [i + k] } w (8 * k)

/-- The term of a candidate element (R247). -/
def probeTerm (c : Num) (best : Nat) : Nat :=
  if c.isNan then 0
  else
    let d := (f32.put 0 (Num.add 0 c (f32.num best).neg).1).1
    let x := f32.num d
    if x.isNan || !(Num.fin false 0 0).lt x then 0 else d

/-- The gain of a row from its terms, 32 at a time (R247). -/
def probeGain : Nat → Nat → List Nat → Nat
  | 0, g, _ => g
  | fuel + 1, g, l =>
    match l with
    | [] => g
    | _ =>
      let grp := l.take 32 ++ List.replicate (32 - (l.take 32).length) 0
      let v := (pairTree (fun x y => (f32.add 0 x y).1) 6 grp).getD 0
      probeGain fuel ((f32.add 0 g v).1) (l.drop 32)

/-- The terms of a row from what its reads gave, element by element: the candidate, where it is not masked,
and then the element of the best array (R247). -/
def probeTerms (fmt : Nat) : List (Option Nat) → List (List Byte) → List Nat
  | some _ :: r, c :: b :: l => probeTerm (elemNum fmt (leNat c)) (leNat b) :: probeTerms fmt r l
  | none :: r, b :: l => probeTerm (.fin false 0 0) (leNat b) :: probeTerms fmt r l
  | _, _ => []

/-- The reads of a row of a WPROBE, in the order of R247 (R269). -/
def probeReads (o : Op) (a : HWord) (as : List (Option Nat)) : List (Nat × Nat) :=
  as.zipIdx.flatMap (fun p => (p.1.map (fun x => (x, esize (hFmt a)))).toList ++ [(hBase o.hC + 4 * p.2, 4)])

/-- One unit of a WPROBE: a row (R247). -/
def wprobeUnit (s : State) (o : Op) (n : Nat) : UnitRes :=
  let a := operandView s o o.hA o.slotA
  let r := o.pos.getD 0 0
  let size := weirSize o.hC
  if hType o.hA = 2 ∧ o.slotA = none then .wait (askRing s o 2 (hRnum o.hA))
  else if hRows a ≤ r then .fin s o
  else if weirBehind s o then yieldPlace s o
  else
    let as := (List.range size).map (readAddr a r)
    match engReads s o n (probeReads o a as) with
    | (.error f, s) => engFail s f 0xFFFF o.prog
    | (.ok l, s) =>
      let g := probeGain (size / 32 + 1) 0 (probeTerms (hFmt a) as l)
      let i := r / hCols o.hB
      let j := r % hCols o.hB
      let fill (x : Nat) : Bool := hFew o.hB && lastInGranule o.hB (rowMajor o.hB) x r
      let (w, s) := putElems o o.hB fill [(i, j, leBytes 4 g)] s
      weirGo s { o with pos := [r + 1] } w 4

/-- The pick of R248 over gains from number `j` on: gain bits and id. -/
def pickBest (base : Nat) : List Num → Nat → (bg : Num) → (bid : Nat) → Num × Nat
  | [], _, bg, bid => (bg, bid)
  | g :: r, j, bg, bid =>
    let g := if g.isNan then .inf true else g
    let id := (base + j) % 2 ^ 32
    if bg.lt g || (bg.eq g && g != .inf true && decide (id < bid)) then pickBest base r (j + 1) g id
    else pickBest base r (j + 1) bg bid

/-- The unit of a WPICK (R248): one store of the record. -/
def wpickUnit (s : State) (o : Op) (n : Nat) : UnitRes :=
  match o.pos with
  | _ :: _ => .fin s o
  | [] =>
    let places := (List.range (hCount o.hA)).map (fun e => (e / hCols o.hA, e % hCols o.hA))
    match readPlaces s o n o.hA places with
    | (.error f, s) => engFail s f 0xFFFF 0
    | (.ok gs, s) =>
      let (bg, bid) := pickBest o.yv.toNat (gs.map f32.num) 0 (.inf true) 0xFFFFFFFF
      let (w, s) := engWrite s o o.zv.toNat (leBytes 4 bid ++ leBytes 4 (f32.put 0 bg).1) (fun _ => false) false
      weirGo s { o with pos := [1] } w 8

/-- What a candidate element does to an element of the weir (R249): the new best and tie, none where
unchanged. -/
def commitElem (tieMode : Bool) (id : Nat) (c : Num) (best tie : Nat) : Option Nat × Option Nat :=
  let b := f32.num best
  if c.isNan then (none, none)
  else if b.isNan then (none, none)
  else if b.lt c then (some (f32.put 0 c).1, some id)
  else if tieMode && b.eq c && decide (id < tie) then (none, some id)
  else (none, none)

/-- The reads of element `i` of a WCOMMIT's row, each made only where R249 needs it: the candidate, the best,
the tie. A masked candidate is +0 (R81). -/
def commitReads (s : State) (o : Op) (n r i : Nat) (a : HWord) : Except EngRes (Num × Nat × Nat) × State :=
  let read (s : State) (va : Option Nat) (z : Nat) : Except EngRes Nat × State :=
    match va with
    | none => (.ok 0, s)
    | some va =>
      match engRead s o n va z with
      | (.got bs, s) => (.ok (leNat bs), s)
      | (f, s) => (.error f, s)
  match read s (readAddr a r i) (esize (hFmt a)) with
  | (.error f, s) => (.error f, s)
  | (.ok w, s) =>
    let c := elemNum (hFmt a) w
    match read s (if c.isNan then none else some (hBase o.hC + 4 * i)) 4 with
    | (.error f, s) => (.error f, s)
    | (.ok b, s) =>
      match read s (if !c.isNan && hTie o.hC && (f32.num b).eq c then some (hAddr2 o.hC + 4 * i) else none) 4 with
      | (.error f, s) => (.error f, s)
      | (.ok t, s) => (.ok (c, b, t), s)

/-- One unit of a WCOMMIT (R249): first the id, then the slot, then the elements one by one; `scr` holds
the id. -/
def wcommitUnit (s : State) (o : Op) (n : Nat) : UnitRes :=
  let a := operandView s o o.hA o.slotA
  match o.scr with
  | [] =>
    let byAddr := match o.instr with
      | .wcommit _ _ _ sX _ _ => sX != 0#5
      | _ => false
    if byAddr then
      match engRead s o n o.xv.toNat 4 with
      | (.got bs, s) => .go s { o with scr := [leNat bs] }
      | (f, s) => engFail s f 0xFFFF 0
    else .go s { o with scr := [o.zv.toNat % 2 ^ 32] }
  | id :: _ =>
    if hType o.hA = 2 ∧ o.slotA = none then .wait (askRing s o 2 (hRnum o.hA))
    else if id = 0xFFFFFFFF then
      .fin s { o with fin := some { st := .done, cause := 0, addr := 0, member := 0xFFFF, progress := 0 } }
    else
      let r := ((id : Int) - o.yv.toNat) % 2 ^ 32
      let i := o.pos.getD 0 0
      if (hRows a : Int) ≤ r then .fault s 0x44 id 0xFFFF 0
      else if weirSize o.hC ≤ i then .fin s o
      else if weirBehind s o then yieldPlace s o
      else
        match commitReads s o n r.toNat i a with
        | (.error f, s) => engFail s f 0xFFFF o.prog
        | (.ok (c, best, tie), s) =>
          let (nb, nt) := commitElem (hTie o.hC) id c best tie
          let (w, s) := bothWrites s o (nb.toList.map (fun v => (hBase o.hC + 4 * i, leBytes 4 v)) ++
            nt.toList.map (fun v => (hAddr2 o.hC + 4 * i, leBytes 4 v)))
          weirGo s { o with pos := [i + 1] } w 1

/-- How many elements of a WRD go to the next 64-byte boundary of the best copy, 16 at most. The two copies
take turns in such runs, and it is the best copy's boundary at which a cancel stops: R250 and R251 give
neither the order of the two nor whose boundary counts (DESIGN CHOICE, log 45). -/
def wrdRun (h : HWord) (tot : Nat) : Nat → Nat → Nat
  | 0, _ => 0
  | fuel + 1, e =>
    if tot ≤ e then 0
    else if (elemAddr h (e / hCols h) (e % hCols h) + 4) % 64 = 0 then 1
    else 1 + wrdRun h tot fuel (e + 1)

/-- One unit of a WRD (R250): elements up to a 64-byte boundary of the best copy. -/
def wrdUnit (s : State) (o : Op) (n : Nat) : UnitRes :=
  let i := o.pos.getD 0 0
  let k := wrdRun o.hA (weirSize o.hC) 16 i
  if k = 0 then .fin s o
  else if weirBehind s o then yieldPlace s o
  else
    match readWeir s o n i k with
    | (.error f, s) => engFail s f 0xFFFF o.prog
    | (.ok (best, tie), s) =>
      let els (h : HWord) (l : List Nat) : List (Nat × Nat × List Byte) :=
        l.zipIdx.map (fun p => ((i + p.2) / hCols h, (i + p.2) % hCols h, leBytes 4 p.1))
      let fill (h : HWord) (g : Nat) : Bool :=
        hFew h && lastInGranule h (rowMajor h) g (i + k - 1)
      let (w1, s) := putElems o o.hA (fill o.hA) (els o.hA best) s
      let (w2, s) := putElems o o.hB (fill o.hB) (els o.hB tie) s
      weirGo s { o with pos := [i + k] } (w1.1 ++ w2.1, match w1.2 with
        | some x => some x
        | none => w2.2) (8 * k)

end Sys2Proof.Machine
end

