-- ==== Sys2Proof/Machine/Collective.lean ====
section
/-! DEFINITION. Collectives: ALLRED, REDSCAT, ALLGATH, BCAST, ALLTOALL, their timeout and abort
(spec/10 R252 to R260). A member's operation keeps its elements in `scr`; `pos` holds its phase:
0 reading (with the row), 3 sending (with the frame), 1 moving, 2 every element received; `res` lists the granules that have
been written, as [0, granule], and the members that have received everything, as [1, member].
A member is named by its rank, in a cross-module group by its number g (log 33). -/

namespace Sys2Proof.Machine
open Sys2Proof

/-! ## Groups and matches (R253, R362) -/

/-- A member of a match: its name, and its rank on this module or the module it is on. -/
inductive CollMember where
  | here (name rank : Nat)
  | away (name rmod : Nat)
  deriving DecidableEq, Repr

/-- The name of a member. -/
def CollMember.name : CollMember → Nat
  | .here n _ => n
  | .away n _ => n

/-- The remote modules of a group in the order of their numbers (R362). -/
def byModule : List (Nat × Nat × Nat) → List (Nat × Nat × Nat)
  | [] => []
  | x :: r =>
    let l := byModule r
    l.filter (fun y => decide (y.1 < x.1)) ++ x :: l.filter (fun y => decide (x.1 ≤ y.1))

/-- The modules of a cross-module group in order, this one among them, with their members (R362). -/
def collModules (s : State) (launch g : Nat) (ranks : List Nat) : List (Nat × List (Option Nat)) :=
  let mine := (s.modnum.toNat, ranks.map some)
  match s.xgroups.find? (fun x => x.launch == launch && x.gnum == g) with
  | none => [mine]
  | some x =>
    let far := (byModule x.remote).map (fun r => (r.1, List.replicate r.2.2 (none : Option Nat)))
    far.filter (fun m => decide (m.1 < s.modnum.toNat)) ++ [mine] ++ far.filter (fun m => decide (s.modnum.toNat < m.1))

/-- The members of a group in the order of R253. -/
def collMembers (s : State) (launch g : Nat) (xmod : Bool) (ranks : List Nat) : List CollMember :=
  if !xmod then ranks.map (fun r => .here r r)
  else
    let all := (collModules s launch g ranks).flatMap (fun m => m.2.map (fun r => (m.1, r)))
    all.zipIdx.map (fun p => match p.1.2 with
      | some r => .here p.2 r
      | none => .away p.2 p.1.1)

/-- Whether an operation's group has members on other modules. -/
def opXmod (s : State) (o : Op) : Bool :=
  match (s.launch? o.launch).bind (fun l => l.group? o.group) with
  | some g => g.xmod
  | none => false

/-- The members of an operation's match. -/
def Op.match_ (s : State) (o : Op) : List CollMember := collMembers s o.launch o.group (opXmod s o) o.members

/-- The operations of a match on this module. -/
def matchOps (s : State) (o : Op) : List Op :=
  s.ops.filter (fun p => opClass p.instr == 5 && p.launch == o.launch && p.group == o.group && p.matchNo == o.matchNo)

/-! ## Acceptance (R254, R255) -/

/-- The operation and reduction of a collective. -/
inductive CollKind where
  | allred (red : Nat)
  | redscat (red : Nat)
  | allgath
  | bcast
  | alltoall
  deriving DecidableEq, Repr

/-- The kind of an instruction. -/
def collKind : Instr → CollKind
  | .allred r _ _ _ _ _ => .allred r.toNat
  | .redscat r _ _ _ _ _ => .redscat r.toNat
  | .allgath _ _ _ _ _ => .allgath
  | .alltoall _ _ _ _ _ => .alltoall
  | _ => .bcast

/-- Whether a kind reduces. -/
def CollKind.reduces : CollKind → Bool
  | .allred _ => true
  | .redscat _ => true
  | .allgath => false
  | .bcast => false
  | .alltoall => false

/-- Whether element counts follow R254. -/
def countsOk (k : CollKind) (p na nc : Nat) : Bool :=
  match k with
  | .allred _ => na == nc
  | .redscat _ => na == p * nc
  | .allgath => nc == p * na
  | .bcast => na == nc
  | .alltoall => na == nc && na % p == 0

/-- Whether two views are identical (R232). -/
def sameView (c h : HWord) : Bool :=
  hBase c == hBase h && hStride c == hStride h && hRows c == hRows h && hCols c == hCols h &&
    hTrn c == hTrn h && hOrow c == hOrow h && hOcol c == hOcol h

/-- The overlap check of R255. -/
def collOverlap (k : CollKind) (a c : HWord) : Option (Nat × DWord) :=
  let inPlace : Bool := match k with
    | .allred _ => sameView c a
    | .bcast => sameView c a
    | _ => false
  if (hExtent c).1 < (hExtent a).2 ∧ (hExtent a).1 < (hExtent c).2 ∧ inPlace = false then some (0x0A, dw (hBase c))
  else none

/-- The checks of a collective at acceptance (R255). `root` is s[sY] of a BCAST. Where the FMTs of hA and hC
differ, BADH names hC (DESIGN CHOICE, log 43). -/
def collChk (k : CollKind) (hC hA : HReg) (sX sZ : SReg) (root : Option SReg) (s : State) : Option (Nat × DWord) :=
  let a := s.hreg hA
  let c := s.hreg hC
  let plain (r : HReg) : Option (Nat × DWord) :=
    if hMask (s.hreg r) then badH r 9 else if winOf (hBase (s.hreg r)) = .far then badH r 8 else none
  let fmts := if k.reduces then [0, 1, 2, 3, 8] else [0, 1, 2, 3, 4, 5, 6, 8]
  let grp := slotOf s (s.reg sX)
  let members : List CollMember := match grp with
    | .ok g => collMembers s (s.mine.launch.getD 0) g.gnum g.xmod g.members
    | .error _ => []
  let gnum : Nat := match grp with
    | .ok g => g.gnum
    | .error _ => 0
  firstBad [
    chkH s hA false [1], plain hA,
    chkH s hC true [1], plain hC,
    (if fmts.contains (hFmt a) then none else badH hA 9),
    (if hFmt c = hFmt a then none else badH hC 9),
    (if 3 < (s.reg sX).toNat then some (0x0A, s.reg sX) else none),
    (if 2 ^ 32 ≤ (s.reg sZ).toNat then some (0x0A, s.reg sZ) else none),
    (match grp with
     | .error e => some e
     | .ok _ => none),
    (match root with
     | some r => if members.length ≤ (s.reg r).toNat then some (0x0A, s.reg r) else none
     | none => none),
    (if members.any (fun m => match m with
        | .here _ r => r == s.mine.rank
        | .away _ _ => false) then none else some (0x0A, dw gnum)),
    (if countsOk k members.length (hCount a) (hCount c) then none else shapeTrap a c),
    collOverlap k a c,
    (if s.mine.ph = 1#2 ∧ members.any (fun m => match m with
        | .here _ r => r != s.mine.rank
        | .away _ _ => true) = true then some (0x06, dw gnum) else none),
    phaseChk s [hExtent a, hExtent c]]

/-- What the members of a match must agree on (R253): the operation and its reduction, FMT, the element
counts and the root. -/
def collTerms (i : Instr) (a c : HWord) (root : Nat) : List Nat :=
  let k := match collKind i with
    | .allred r => [0, r]
    | .redscat r => [1, r]
    | .allgath => [2, 0]
    | .bcast => [3, 0]
    | .alltoall => [4, 0]
  k ++ [hFmt a, hCount a, hCount c, root]

/-- A collective at acceptance: the count of its group advances with it, and what it was issued with is
kept (R253). -/
def collOp (i : Instr) (o : EOrd) (hC hA : HReg) (sX sZ : SReg) (root : Option SReg) (s : State) : Out :=
  run i s (fun s =>
    match collChk (collKind i) hC hA sX sZ root s with
    | some (c, v) => trap i c v s
    | none =>
      match slotOf s (s.reg sX) with
      | .error (c, v) => trap i c v s
      | .ok g =>
        let k := tget s.mine.collCount g.gnum 0
        let ms := collMembers s (s.mine.launch.getD 0) g.gnum g.xmod g.members
        let me := (ms.find? (fun m => match m with
          | .here _ r => r == s.mine.rank
          | .away _ _ => false)).map CollMember.name
        let fits := !(freeEntries s s.myCore).isEmpty && !(o.det && (slotGroup s.mine 0).isNone)
        accept i o (fun p =>
          { p with
            hA := s.hreg hA
            hC := s.hreg hC
            xv := s.reg sX
            yv := (match root with
              | some r => s.reg r
              | none => 0#64)
            zv := s.reg sZ
            group := g.gnum
            members := g.members
            matchNo := k
            mrank := me.getD 0 })
          (if fits then
            { s.modCore s.myCore (fun c => { c with collCount := tset g.gnum (k + 1) c.collCount }) with
              collTerms := s.collTerms ++
                [{ launch := s.mine.launch.getD 0, group := g.gnum, matchNo := k, name := me.getD 0,
                   terms := collTerms i (s.hreg hA) (s.hreg hC) (root.elim 0 (fun r => (s.reg r).toNat)) }] }
          else s))

/-- ALLRED (R256). -/
def execAllred (red : BitVec 3) (o : EOrd) (hC hA : HReg) (sX sZ : SReg) (s : State) : Out :=
  collOp (.allred red o hC hA sX sZ) o hC hA sX sZ none s
/-- REDSCAT (R256). -/
def execRedscat (red : BitVec 3) (o : EOrd) (hC hA : HReg) (sX sZ : SReg) (s : State) : Out :=
  collOp (.redscat red o hC hA sX sZ) o hC hA sX sZ none s
/-- ALLGATH (R256). -/
def execAllgath (o : EOrd) (hC hA : HReg) (sX sZ : SReg) (s : State) : Out :=
  collOp (.allgath o hC hA sX sZ) o hC hA sX sZ none s
/-- BCAST (R256). -/
def execBcast (o : EOrd) (hC hA : HReg) (sX sY sZ : SReg) (s : State) : Out :=
  collOp (.bcast o hC hA sX sY sZ) o hC hA sX sZ (some sY) s
/-- ALLTOALL (R256). -/
def execAlltoall (o : EOrd) (hC hA : HReg) (sX sZ : SReg) (s : State) : Out :=
  collOp (.alltoall o hC hA sX sZ) o hC hA sX sZ none s

/-! ## Contributions and values (R256, R257) -/

/-- The identifier of an operation's match in frames (R360). -/
def Op.matchId (o : Op) : Nat := (Config.matchId o.pasid o.group o.matchNo).toNat

/-- The payloads that have come for a match from a module. -/
def payloadsFrom (s : State) (o : Op) (rmod : Nat) : List (List Byte) :=
  (s.collData.filter (fun d => d.pasid == o.pasid && d.match_ == o.matchId && d.rmod == rmod)).map CollData.payload

/-- The elements of a member that have arrived, none before they have. -/
def contribution (s : State) (o : Op) (m : CollMember) : Option (List Nat) :=
  match m with
  | .here name _ =>
    match (matchOps s o).find? (fun p => p.mrank == name) with
    | some p => if 1 ≤ p.pos.getD 0 0 then some p.scr else none
    | none => none
  | .away name rmod =>
    Config.remotePart name (payloadsFrom s o rmod)

/-- One combination of a reduction in the format of the partial values (R257). -/
def combine (red fmt x y : Nat) : Nat :=
  match red with
  | 0 => if fmt = 8 then ofSigned 32 (toSigned 32 x + toSigned 32 y) else vecAdd fmt fmt 0 x y
  | 1 => vecMax fmt true x y
  | _ => vecMax fmt false x y

/-- A value taken out of a list by place. -/
def takeAt : Nat → List Nat → Option (Nat × List Nat)
  | _, [] => none
  | 0, x :: r => some (x, r)
  | n + 1, x :: r => (takeAt n r).map (fun p => (p.1, x :: p.2))

/-- A pairwise combination in the order that the free values of `ord` give (R257). -/
def combineAll (red fmt : Nat) (ord : Nat → Nat) : Nat → (step : Nat) → List Nat → Nat
  | 0, _, l => l.headD 0
  | fuel + 1, k, l =>
    match takeAt (ord k % l.length) l with
    | none => 0
    | some (x, r) =>
      match takeAt (ord (k + 1) % r.length) r with
      | none => x
      | some (y, r) => combineAll red fmt ord fuel (k + 2) (combine red fmt x y :: r)

/-- A reduction of one element over its members' values (R257): bf16 and f16 sums carry f32. -/
def reduceElem (o : Op) (red e : Nat) (vals : List Nat) : Nat :=
  let fmt := hFmt o.hA
  let wide := red == 0 && (fmt == 2 || fmt == 3)
  let ord := Config.combineOrder o.launch o.group o.matchNo e
  if wide then
    let l := vals.map (fun v => elemPut 1 0 (elemNum fmt v))
    elemPut fmt 0 (elemNum 1 (combineAll red 1 ord l.length 0 l))
  else canon fmt (combineAll red fmt ord vals.length 0 vals)

/-- The members whose elements destination element `e` of an operation needs, with the element
(R256). -/
def elemNeeds (s : State) (o : Op) (e : Nat) : List (CollMember × Nat) :=
  let ms := o.match_ s
  let g := (ms.findIdx? (fun m => m.name == o.mrank)).getD 0
  let one (h e : Nat) : List (CollMember × Nat) := (ms[h]?).toList.map (fun m => (m, e))
  match collKind o.instr with
  | .allred _ => ms.map (fun m => (m, e))
  | .redscat _ => ms.map (fun m => (m, g * hCount o.hC + e))
  | .allgath => one (e / hCount o.hA) (e % hCount o.hA)
  | .bcast => one o.yv.toNat e
  | .alltoall =>
    let m := hCount o.hA / ms.length
    one (e / m) (g * m + e % m)

/-- The values an element needs, once every one has arrived. -/
def elemValues (s : State) (o : Op) : List (CollMember × Nat) → Option (List Nat)
  | [] => some []
  | (m, e) :: r =>
    match contribution s o m, elemValues s o r with
    | some l, some vs => some (l.getD e 0 :: vs)
    | _, _ => none

/-- The final bits of destination element `e`, if its contributions have arrived. -/
def elemFinal (s : State) (o : Op) (e : Nat) : Option Nat :=
  match elemValues s o (elemNeeds s o e) with
  | none => none
  | some vs =>
    match collKind o.instr with
    | .allred r => some (reduceElem o r e vs)
    | .redscat r => some (reduceElem o r (((o.match_ s).findIdx? (fun m => m.name == o.mrank)).getD 0 * hCount o.hC + e) vs)
    | _ => vs.head?

/-- The members an operation needs that have not contributed. -/
def missingParts (s : State) (o : Op) : List Nat :=
  let need := match collKind o.instr with
    | .bcast => ((o.match_ s)[o.yv.toNat]?).toList
    | _ => o.match_ s
  (need.filter (fun m => (contribution s o m).isNone)).map CollMember.name

/-! ## Agreement (R253) -/

/-- What a member was issued with, once it is known. -/
def memberTerms (s : State) (o : Op) (m : CollMember) : Option (List Nat) :=
  match m with
  | .here name _ =>
    (s.collTerms.find? (fun t => t.launch == o.launch && t.group == o.group && t.matchNo == o.matchNo &&
      t.name == name)).map CollTerm.terms
  | .away name rmod => Config.remoteTerms name (payloadsFrom s o rmod)

/-- The lowest member that disagrees with the lowest, once what every member up to it was issued with is
known, on this module or from another (R253; log 33). -/
def disagree (s : State) (o : Op) : Option Nat :=
  let known := ((o.match_ s).map (fun m => (m.name, memberTerms s o m))).takeWhile (fun p => p.2.isSome)
  match known with
  | [] => none
  | x :: r => (r.find? (fun p => p.2 != x.2)).map Prod.fst

/-- Whether an abort is of an operation's match. -/
def abortOf (o : Op) (a : CollAbort) : Bool :=
  a.launch == o.launch &&
    match a.frame with
    | none => a.group == o.group && a.matchNo == o.matchNo
    | some f => f == (o.pasid, o.matchId)

/-- Every operation of a match that is not final is to end FAULTED (R259). -/
def endMatch (s : State) (launch group matchNo cause culprit : Nat) : State :=
  { s with ops := s.ops.map (fun p =>
      if opClass p.instr == 5 && p.launch == launch && p.group == group && p.matchNo == matchNo then
        decideEnd { st := .faulted, cause := cause, addr := 0, member := culprit, progress := p.prog } p
      else p) }

/-! ## Moving (R258, R260) -/

/-- The granules of a view, in the order of its elements. -/
def viewGranules (h : HWord) : List Nat :=
  ((List.range (hCount h)).map (fun e => elemAddr h (e / hCols h) (e % hCols h) / 16)).eraseDups

/-- The elements of a view in a granule. -/
def granElems (h : HWord) (g : Nat) : List Nat :=
  (List.range (hCount h)).filter (fun e => elemAddr h (e / hCols h) (e % hCols h) / 16 == g)

/-- The granules that have not been written. -/
def granLeft (o : Op) : List Nat := (viewGranules o.hC).filter (fun g => !o.res.contains [0, g])

/-- The bytes of a granule's elements, once all of them are known. -/
def granBytes (s : State) (o : Op) (g : Nat) : Option (List (Nat × Nat × List Byte)) :=
  (granElems o.hC g).foldl (fun acc e =>
    match acc, elemFinal s o e with
    | some l, some v => some (l ++ [(e / hCols o.hC, e % hCols o.hC, leBytes (esize (hFmt o.hC)) v)])
    | _, _ => none) (some [])

/-- The modules that hold other members of an operation's group, with the group's number there (R362). -/
def awayModules (s : State) (o : Op) : List (Nat × Nat) :=
  match s.xgroups.find? (fun x => x.launch == o.launch && x.gnum == o.group) with
  | none => []
  | some x => if opXmod s o then (byModule x.remote).map (fun r => (r.1, r.2.1)) else []

/-- The frames that carry a member's elements to the other modules of its group (R252, R360): module, group
number there, payload. -/
def collFrames (s : State) (o : Op) : List (Nat × Nat × List Byte) :=
  let terms := collTerms o.instr o.hA o.hC o.yv.toNat
  let bs := Config.collPayload o.mrank terms o.scr
  let bs := bs ++ List.replicate ((16 - bs.length % 16) % 16) 0#8
  (awayModules s o).flatMap (fun r =>
    (List.range (max 1 ((bs.length + 1023) / 1024))).map (fun k => (r.1, r.2, (bs.drop (1024 * k)).take 1024)))

/-- One frame of a member's elements is sent, unless its channel is full; on a failed one the operation ends
FAULTED (R361). -/
def sendPart (s : State) (o : Op) (k : Nat) : UnitRes :=
  match (collFrames s o)[k]? with
  | none => .go s { o with pos := [1] }
  | some (r, g, bs) =>
    if (theChannel s r 1).failed then .fault s 0x47 0 ((missingParts s o).foldl min 0xFFFF) o.prog
    else if !canSend s r 1 then yieldPlace s o
    else .go (sendData s r 1 o.pasid (Config.matchId o.pasid g o.matchNo).toNat bs o.id 0 bs.length) { o with pos := [3, k + 1] }

/-- Whether every other member on this module has received everything, or has ended (R258). -/
def allReceived (s : State) (o : Op) : Bool :=
  (o.match_ s).all (fun m => match m with
    | .here n _ =>
      n == o.mrank || o.res.contains [1, n] ||
        (matchOps s o).any (fun p => p.mrank == n && (p.st.final || p.fin.isSome || p.pos.getD 0 0 == 2))
    | .away _ _ => true) &&
  !s.channels.any (fun c => c.unacked.any (fun f => f.op == o.id))

/-- The member has received everything: the other operations of its match keep that (R258). -/
def markReceived (s : State) (o : Op) : State :=
  { s with ops := s.ops.map (fun p =>
      if opClass p.instr == 5 && p.launch == o.launch && p.group == o.group && p.matchNo == o.matchNo then
        { p with res := p.res ++ [[1, o.mrank]] }
      else p) }

/-- The member that an operation's match disagrees with, where the operation ends for it now (R253): one with
members on other modules has sent them what it was issued with first, so that they meet the disagreement
too. -/
def disagreeEnd (s : State) (o : Op) : Option Nat :=
  if opXmod s o && decide (o.pos.getD 0 0 = 0) then none
  else if decide (o.pos.getD 0 0 = 3) && (collFrames s o)[o.pos.getD 1 0]?.any (fun f => !(theChannel s f.1 1).failed) then none
  else disagree s o

/-- One unit of a collective: a row of A is read, or a granule of D written, or the end awaited. -/
def collUnit (s : State) (o : Op) (n : Nat) : UnitRes :=
  let root : Bool := match collKind o.instr with
    | .bcast => ((o.match_ s)[o.yv.toNat]?).map CollMember.name == some o.mrank
    | _ => true
  match s.aborts.find? (abortOf o) with
  | some a => .fault s a.cause 0 a.culprit o.prog
  | none =>
    match disagreeEnd s o with
    | some c => .fault s 0x44 0 c o.prog
    | none =>
      match o.pos.getD 0 0 with
      | 0 =>
        let r := o.pos.getD 1 0
        if !root || decide (hRows o.hA ≤ r) then .go s { o with pos := [3, 0] }
        else
          match readRow s o n o.hA r (hCols o.hA) 0 with
          | (.error f, s) => engFail s f o.mrank o.prog
          | (.ok row, s) => .go s { o with pos := [0, r + 1], scr := o.scr ++ row.map leNat }
      | 3 => sendPart s o (o.pos.getD 1 0)
      | 1 =>
        match granLeft o with
        | [] =>
          let o := { o with pos := [2] }
          .go (markReceived s o) { o with res := o.res ++ [[1, o.mrank]] }
        | left =>
          match left.findSome? (fun g => (granBytes s o g).map (fun b => (g, b))) with
          | none => yieldPlace s o
          | some (g, els) =>
            let (w, s) := putElems o o.hC (fun _ => hFew o.hC) els s
            match w.2 with
            | some (x, a) => .fault s x.opCause a o.mrank o.prog
            | none =>
              .go s { o with pend := countLast (w.1.map (fun x => { x with cnt := 0 })), res := o.res ++ [[0, g]] }
      | _ => if !root || allReceived s o then .fin s o else yieldPlace s o

/-! ## Ends that come from outside (R259) -/

/-- COLLECTIVE_TIMEOUT: the timeout of a member passes before every contribution it needs has
arrived; it counts main-clock cycles from the operation's start (R352; DEDUCED, log 33). -/
def execCollectiveTimeout (id : Nat) (s : State) : Out :=
  match s.op? id with
  | none => .next s
  | some o =>
    let t := o.zv.toNat % 2 ^ 32
    if opClass o.instr ≠ 5 ∨ o.st ≠ .running ∨ t = 0 ∨ s.cycle < o.since + 1800 * t then .next s
    else
      match missingParts s o with
      | [] => .next s
      | m :: r =>
        .next (s.modOp id (decideEnd { st := .faulted, cause := 0x47, addr := 0, member := r.foldl min m,
                                        progress := o.prog }))

/-- The payload of an ABORT frame that names a culprit: whole granules, at most 64 of them (R360; log 37). -/
def abortBytes (culprit : Nat) : List Byte :=
  let bs := Config.abortPayload culprit
  (bs ++ List.replicate ((16 - bs.length % 16) % 16) 0#8).take 1024

/-- The other modules that hold members of the match are told (R259). -/
def tellModules (s : State) (a : CollAbort) : State :=
  match s.xgroups.find? (fun x => x.launch == a.launch && x.gnum == a.group), s.launch? a.launch with
  | some x, some l =>
    (byModule x.remote).foldl (fun s r =>
      emit s (theChannel s r.1 1) 3 0 l.pasid (Config.matchId l.pasid r.2.1 a.matchNo).toNat
        (abortBytes a.culprit)) s
  | _, _ => s

/-- How a far copy ends whose frames from the first of `fs` on are not performed: at the first of them that is
its own (R71, R361). -/
def farFail (fs : List Frame) (o : Op) : Final :=
  let own := fs.filter (fun f => f.op == o.id)
  { st := .faulted, cause := 0x41, addr := (own.map Frame.va).headD 0, member := 0xFFFF
    progress := o.prog - (own.map Frame.count).sum }

/-- An ABORT frame of class 0: the far write of its SEQ has faulted at the other module, and its
operation ends FAULTED there (R71; log 37). -/
def farAbort (s : State) (peer seq : Nat) : State :=
  match (channel? s peer 0).map (fun c => c.unacked.dropWhile (fun f => f.seq != seq)) with
  | some (f :: fs) => s.modOp f.op (fun o => overrideEnd (farFail (f :: fs) o) o)
  | _ => s

/-- ABORT: a collective abort arrives: every member that is not final ends FAULTED with cause 0x46 and
the culprit as MEMBER (R259). One that another module has sent is kept for the members that the launches of its
PASID have still to issue; a launch that is claimed later has no part in it (DESIGN CHOICE, log 45). -/
def execAbort (src : AbortSrc) (s : State) : Out :=
  match src with
  | .here n =>
    match s.aborts[n]? with
    | none => .next s
    | some a =>
      if a.cause ≠ 0x46 ∨ a.frame.isSome = true then .next s
      else
        let s := if a.sent then s else tellModules s a
        let s := { s with aborts := s.aborts.zipIdx.map (fun p => if p.2 == n then { p.1 with sent := true } else p.1) }
        .next (endMatch s a.launch a.group a.matchNo 0x46 a.culprit)
  | .frame bs =>
    if !frameOk s bs 3 then .next s
    else if frameNum bs 1 1 = 0 then .next (farAbort s (frameNum bs 4 2) (frameNum bs 8 4))
    else
      let pasid := frameNum bs 16 4
      let m := frameNum bs 24 8
      let c := Config.abortCulprit (framePayload bs)
      let a (l : Launch) : CollAbort :=
        { launch := l.id, group := 0, matchNo := 0, culprit := c, cause := 0x46, sent := true, frame := some (pasid, m) }
      .next { s with
        aborts := s.aborts ++ (s.launches.filter (fun l => l.pasid == pasid)).map a
        ops := s.ops.map (fun o =>
          if opClass o.instr == 5 && o.pasid == pasid && o.matchId == m then
            decideEnd { st := .faulted, cause := 0x46, addr := 0, member := c, progress := o.prog } o
          else o) }

end Sys2Proof.Machine
end

