-- ==== Sys2Proof/Machine/Context.lean ====
section
/-! DEFINITION. Headers and contexts: START, HEXIT, HJOIN, HSTAT (spec/02 R46 to R48, spec/12 R292
to R295). -/

namespace Sys2Proof.Machine
open Sys2Proof

/-! ## Headers (R46 to R48) -/

/-- A header from its 64 bytes, if every field is valid (R46, R47). -/
def parseHeader (bs : List Byte) : Option Header :=
  let g (o n : Nat) : Nat := leNat ((bs.drop o).take n)
  let h : Header :=
    { regs := g 6 1, mode := g 7 1, early := g 8 2, kind := g 10 2 % 2, entry := g 12 4,
      code := g 16 4, bind := g 20 4, tcm := g 24 4, spm := g 28 4, gtab := g 32 4, gcount := g 36 4 }
  if g 0 4 = 0x4B574D44 ∧ g 4 2 = 1 ∧ 1 ≤ h.regs ∧ h.regs ≤ 32 ∧ h.mode ≤ 1 ∧ h.early % 2 = 0 ∧
      g 10 2 ≤ 1 ∧ h.entry % 4 = 0 ∧ 64 ≤ h.entry ∧ 1 ≤ h.code ∧ h.tcm ≤ 131072 ∧
      h.spm ≤ 2097152 ∧ h.gcount ≤ 256 ∧ (h.gcount ≠ 0 ∨ h.gtab = 0) ∧
      (bs.drop 40).take 24 = List.replicate 24 0#8 then some h
  else none

/-- The accessible count of a REGS (R48). -/
def accOf (regs : Nat) : Nat := (regs + 7) / 8 * 8

/-- A routine's header: valid, KIND 0 and of the launch's MODE (R293, R304). -/
def routineHeader (bs : List Byte) (mode : Nat) : Option Header :=
  match parseHeader bs with
  | none => none
  | some h => if h.kind = 0 ∧ h.mode = mode then some h else none

/-! ## Helpers (R292, R293) -/

/-- Granules in use by a core's live helpers (R292). -/
def usedGranules (c : Core) : Nat := c.helpers.foldl (fun n p => n + p.2 / 8) 0

/-- Whether a helper number is held: live, or with a join record (R292). -/
def helperHeld (c : Core) (k : Nat) : Bool := (tfind k c.helpers).isSome || (tfind k c.joins).isSome

/-- The lowest helper number that is not held. -/
def freeHelper (c : Core) : Option Nat := ([1, 2, 3, 4, 5, 6, 7, 8, 9, 10] : List Nat).find? (fun k => !helperHeld c k)

/-- The context START creates (R293). -/
def helperCtx (me : Ctx) (entry : DWord) (acc : Nat) (arg : DWord) : Ctx :=
  ({ Ctx.fresh with
      mode := .running
      pc := entry
      acc := acc
      xvec := me.xvec
      qctl := me.qctl
      specctl := me.specctl
      drainmax := me.drainmax
      fewait := me.fewait
      retrymax := me.retrymax } : Ctx).setReg 1#5 arg

/-- START (R293). -/
def execStart (d a b : SReg) (s : State) : Out :=
  run (.start d a b) s (fun s =>
    let i : Instr := .start d a b
    let va := s.reg a
    load i va 64 8 64 s (fun bs s =>
      match routineHeader bs (launchMode s) with
      | none => done i d 1#64 s
      | some h =>
        let acc := accOf h.regs
        match freeHelper s.mine with
        | none => done i d 2#64 s
        | some k =>
          if 24 < usedGranules s.mine + acc / 8 then done i d 3#64 s
          else
            let c := helperCtx s.me (va + dw h.entry) acc (s.reg b)
            let s := s.modCore s.myCore (fun x => { x with helpers := tset k acc x.helpers })
            done i d (dw (k * 256)) (s.setCtx (s.myCore * 16 + k) c)))

/-! ## Exit (R294, R331) -/

/-- The key of the queue whose LAUNCH created a core's launch. -/
def launchKey (s : State) (core : Nat) : Nat :=
  match s.launchOf core with
  | some l => l.key
  | none => 0

/-- A tile of an expansion has ended, or will not run (R308). -/
def tileGone (s : State) (tile : Option Nat) (refused : Bool) : State :=
  match tile with
  | none => s
  | some id =>
    let f (e : Expand) : Expand := { e with open_ := e.open_ - 1, refused := e.refused + b2n refused }
    { s with expands := updFirst (fun e => e.id == id) f s.expands }

/-- Every routine still queued for a core is discarded with a DROPPED record (R294, R284). A
dropped tile counts as refused (log 15). -/
def dropRoutines (s : State) (core : Nat) : State :=
  let q := (s.core core).rq
  let s := q.foldl (fun s r =>
    tileGone (postStatus s (launchKey s core) (dieOfCore core) 3 core 0 r.hdr 0#64) r.tile true) s
  s.modCore core (fun c => { c with rq := [] })

/-- A pre-emption request ends NOLAUNCH once no context of its launch is left on the cluster (R343). -/
def shareGone (s : State) (core : Nat) : State :=
  let cl := clusterOfCore core
  match (s.cluster cl).preq with
  | none => s
  | some r =>
    if (s.core core).launch ≠ some r.launch ∨ s.ctxs.any (fun p => clusterOfCore (coreOf p.1) == cl &&
        (s.core (coreOf p.1)).launch == some r.launch && p.2.mode != .absent) then s
    else
      ((saveClear s cl).modCluster cl (fun c => { c with preq := none, gather := none })).report
        (.preempt { launch := r.launch, cluster := cl, code := 4 })

/-- The exit of a context (R294), its pins released: the store buffer empties, its operations become orphans,
and the helper leaves a join record or the rank has ended. The control context's exit code,
which R294 keeps in trace alone, is recorded nowhere: R379 has no record kind for it (DESIGN CHOICE, log 45). -/
def exitCtx (s : State) (k : Nat) (code : BitVec 32) : State :=
  let core := coreOf k
  let s := drainAll s k
  let s := orphanAll s k
  let s := tileGone s ((s.ctx k).disp.bind Disp.tile) true
  let s := s.modCtx k Ctx.exited
  if numOf k != 0 then
    s.modCore core (fun c =>
      { c with helpers := terase (numOf k) c.helpers, joins := tset (numOf k) code c.joins
               joinAcc := tset (numOf k) (tget c.helpers (numOf k) 0) c.joinAcc })
  else
    let s := dropRoutines s core
    shareGone (s.modCore core (fun c => { c with ctlExited := true, mbox := [] })) core

/-- HEXIT (R294). The control context waits until every helper has exited; every place of the handle stack is
unpinned (R331), which may wait for walks (R64). -/
def execHexit (a : SReg) (s : State) : Out :=
  run (.hexit a) s (fun s =>
    if numOf s.cur == 0 && !s.mine.helpers.isEmpty then
      (if s.me.wait.isSome then .next s else .next (waitFor (.hexit a) .exit 0 s))
    else
      match unpinAbove false (drainAll s s.cur) s.cur 0 with
      | (false, s) => .next s
      | (true, s) => .next (exitCtx s s.cur ((s.reg a).setWidth 32)))

/-! ## HJOIN and HSTAT (R295) -/

/-- Whether an HJOIN of another context of the core arrived earlier for a helper (R295). -/
def joinBehind (s : State) (k : Nat) : Bool :=
  let mine := match s.me.wait with
    | some w => w.arrival
    | none => s.stamp
  s.ctxs.any (fun p => p.1 != s.cur && coreOf p.1 == s.myCore &&
    match p.2.wait with
    | some { what := .join j, arrival := t, .. } => j == k && decide (t < mine)
    | _ => false)

/-- HJOIN (R293, R295). -/
def execHjoin (d a b : SReg) (s : State) : Out :=
  run (.hjoin d a b) s (fun s =>
    let i : Instr := .hjoin d a b
    let n := s.reg a
    let m := s.reg b
    let k := n.toNat
    if k = 0 ∨ 10 < k then trap i 0x0A n s
    else if 1 < m.toNat then trap i 0x0A m s
    else if (tfind k s.mine.helpers).isSome then
      if m = 1#64 then done i d (dw (2 ^ 32)) s
      else if s.me.wait.isSome then .next s
      else .next (waitFor i (.join k) 0 s)
    else
      match tfind k s.mine.joins with
      | none => done i d (dw (2 * 2 ^ 32)) s
      | some code =>
        if joinBehind s k then done i d (dw (2 * 2 ^ 32)) s
        else
          done i d (code.setWidth 64) (s.modCore s.myCore (fun c =>
            { c with joins := terase k c.joins, joinAcc := terase k c.joinAcc })))

/-- The state code of a helper number (R295). -/
def helperState (s : State) (core k : Nat) : Nat :=
  let c := s.core core
  let x := s.ctx (core * 16 + k)
  if (tfind k c.helpers).isSome then (if x.mode = .frozen then 4 else if x.it then 2 else 1)
  else if (tfind k c.joins).isSome then 3
  else 0

/-- The accessible count of a helper number that is held, live or exited (R292, R295). -/
def helperAcc (c : Core) (k : Nat) : Nat :=
  match tfind k c.helpers with
  | some n => n
  | none => tget c.joinAcc k 0

/-- HSTAT (R295). -/
def execHstat (d a : SReg) (s : State) : Out :=
  run (.hstat d a) s (fun s =>
    let n := s.reg a
    let k := n.toNat
    if k = 0 ∨ 10 < k then trap (.hstat d a) 0x0A n s
    else
      done (.hstat d a) d
        (dw ((24 - usedGranules s.mine) * 65536 + helperAcc s.mine k * 256
          + helperState s s.myCore k)) s)

end Sys2Proof.Machine
end

