-- ==== Sys2Proof/Machine/Control.lean ====
section
/-! DEFINITION. Branches, jumps, the hardware loop, REP, TRAP, BRK and ERET (spec/07 R181 to
R190, spec/09 R230, spec/14 R334 to R337). -/

namespace Sys2Proof.Machine
open Sys2Proof

/-- A conditional branch (R181). -/
def branch (i : Instr) (off : BitVec 11) (b a : SReg) (c : DWord → DWord → Bool) (s : State) : Out :=
  run i s (fun s =>
    if c (s.reg a) (s.reg b) then .next (jumpTo false (s.pcPlus off) s) else .next (retire i s))

/-- BEQ (R181). -/
def execBeq (off : BitVec 11) (b a : SReg) (s : State) : Out :=
  branch (.beq off b a) off b a (fun x y => x == y) s
/-- BNE (R181). -/
def execBne (off : BitVec 11) (b a : SReg) (s : State) : Out :=
  branch (.bne off b a) off b a (fun x y => x != y) s
/-- BLT (R181). -/
def execBlt (off : BitVec 11) (b a : SReg) (s : State) : Out :=
  branch (.blt off b a) off b a (fun x y => x.slt y) s
/-- BGE (R181). -/
def execBge (off : BitVec 11) (b a : SReg) (s : State) : Out :=
  branch (.bge off b a) off b a (fun x y => !x.slt y) s
/-- BLTU (R181). -/
def execBltu (off : BitVec 11) (b a : SReg) (s : State) : Out :=
  branch (.bltu off b a) off b a (fun x y => x.ult y) s
/-- BGEU (R181). -/
def execBgeu (off : BitVec 11) (b a : SReg) (s : State) : Out :=
  branch (.bgeu off b a) off b a (fun x y => !x.ult y) s

/-- A jump that writes pc + 4 to s[d]; with d = s0 no link is written (R182, R184). -/
def linkJump (d : SReg) (target : DWord) (s : State) : State :=
  jumpTo (d != 0#5) target (s.setReg d (s.me.pc + 4#64))

/-- JAL (R182). -/
def execJal (off : BitVec 20) (d : SReg) (s : State) : Out :=
  run (.jal off d) s (fun s => .next (linkJump d (s.pcPlus off) s))

/-- JALR (R182, R24). -/
def execJalr (imm : BitVec 15) (a d : SReg) (s : State) : Out :=
  run (.jalr imm a d) s (fun s =>
    let t := s.reg a + simm imm
    if t.toNat % 4 ≠ 0 then trap (.jalr imm a d) 0x03 t s else .next (linkJump d t s))

/-- Whether a LOOP may not push its level (R183): two are active, or the new end lies past the
end of the body it stands in. -/
def loopRefused (c : Ctx) (stop : DWord) : Bool :=
  match c.loops with
  | [] => false
  | [l] => l.has c.pc && decide (l.stop.toNat < stop.toNat)
  | _ => true

/-- LOOP (R183). -/
def execLoop (imm : BitVec 15) (a : SReg) (s : State) : Out :=
  run (.loop imm a) s (fun s =>
    let c := s.reg a
    let start := s.me.pc + 4#64
    let stop := start + dw (4 * imm.toNat)
    if c = 0#64 then .next (s.modMe (fun x => retireCtx x (1 + imm.toNat)))
    else if loopRefused s.me stop then illegal (.loop imm a) s
    else .next (s.modMe (fun x =>
      { x with loops := { start := start, stop := stop, remaining := c } :: x.loops, pc := start })))

/-- The words of `n` instructions from an address on (R230). -/
def fetchBlock (s : State) (k : Nat) : Nat → Nat → Except (Nat × Nat) (List (List Word)) × State
  | 0, _ => (.ok [], s)
  | n + 1, va =>
    match fetchInstr s k (va % 2 ^ 64) with
    | (.error e, s) => (.error e, s)
    | (.ok ws, s) =>
      match fetchBlock s k n (va + 4 * ws.length) with
      | (.error e, s) => (.error e, s)
      | (.ok r, s) => (.ok (ws :: r), s)

/-- The words that `n` instructions take, from the first word of each, as far as these can be read:
nothing traps (R185, R230); `none` while a word is on its way from a host or peer page. -/
def blockWords (s : State) (k : Nat) : Nat → Nat → Option Nat × State
  | 0, _ => (some 0, s)
  | n + 1, va =>
    match fetchWord s k (va % 2 ^ 64) with
    | (.error c, s) => (if c = 0 then none else some 0, s)
    | (.ok w, s) =>
      match blockWords s k n (va + 4 * wordCount w) with
      | (none, s) => (none, s)
      | (some m, s) => (some (wordCount w + m), s)

/-- REP (R185, R230). With a count of 0 the block is not fetched and nothing traps: its length comes
from the first words that can be read, and the fetch at the first that cannot faults in its own turn
(DEDUCED, log 11). A context waits while another context of the core holds the buffer. -/
def execRep (ss hs : BitVec 4) (c : SReg) (n : BitVec 5) (s : State) : Out :=
  run (.rep ss hs c n) s (fun s =>
    let i : Instr := .rep ss hs c n
    let cnt := (s.reg c).toNat
    let start := s.me.pc + 4#64
    if ss.toNat % 8 != 0 && decide (s.me.acc < 24) then trap i 0x02 (dw (max s.me.acc 16)) s
    else if cnt = 0 then
      match blockWords s s.cur n.toNat start.toNat with
      | (none, s) => .next s
      | (some m, s) => .next ((ioClear s (.fetch s.cur)).modMe (fun x => retireCtx x (1 + m)))
    else if s.mine.repHolder.any (fun k => k != s.cur) then .next s
    else
      match fetchBlock s s.cur n.toNat start.toNat with
      | (.error (e, fa), s) => fail i e (dw fa) s
      | (.ok ws, s) =>
        let s := (ioClear s (.fetch s.cur)).modCore s.myCore (fun x => { x with repHolder := some s.cur })
        .next (s.modMe (fun x =>
          { x with
            pc := start
            rep := some { block := start, words := ws, idx := 0, iter := 0, count := cnt,
                          hs := hs.toNat, ss := ss.toNat } })))

/-- TRAP (R189). -/
def execTrap (imm : BitVec 15) (s : State) : Out :=
  run (.trap imm) s (fun s => trap (.trap imm) 0x0D (imm.setWidth 64) s)

/-- BRK (R189). -/
def execBrk (imm : BitVec 15) (s : State) : Out :=
  run (.brk imm) s (fun s => trap (.brk imm) 0x0C (imm.setWidth 64) s)

/-- Where a set-aside REP goes on, by XPC (R186): at the instruction XPC names, after the block
the recorded iteration ends, elsewhere the repetition is abandoned. -/
def resumeRep (r : RepState) (xpc : DWord) : List (List Word) → Nat → DWord → Option RepState × Bool
  | [], _, a => if xpc = a then (some { r with idx := r.words.length }, true) else (none, false)
  | w :: ws, j, a =>
    if xpc = a then (some { r with idx := j }, false)
    else resumeRep r xpc ws (j + 1) (a + dw (4 * w.length))

/-- The return from a trap (R337): IT := 0, pc := XPC, the set-aside levels and REP restored. -/
def returnCtx (c : Ctx) : Ctx :=
  let c := { c with xstatus := c.xstatus &&& ~~~1#64, pc := c.xpc, wait := none }
  if c.sav then { c with loops := c.savedLoops, savedLoops := [], savedRep := none } else c

/-- The set-aside REP of a returning context, put where XPC says (R186, R337). -/
def returnRep (r : RepState) (c : Ctx) : Ctx :=
  match resumeRep r c.pc r.words 0 r.block with
  | (none, _) => c
  | (some r', false) => { c with rep := some r' }
  | (some r', true) =>
    if r'.iter + 1 < r'.count then
      { c with pc := r'.block, rep := some { r' with idx := 0, iter := r'.iter + 1 } }
    else
      let (ls, p) := loopBack (r.block - 4#64) c.loops c.pc
      { c with loops := ls, pc := p }

/-- ERET (R190, R337). A return after which a set-aside REP goes on waits while another context of the
core holds the repetition buffer (R230); one that ends or abandons it does not (R186). -/
def execEret (s : State) : Out :=
  run .eret s (fun s =>
    let c := s.me
    if !c.it then illegal .eret s
    else
      match (if c.sav then c.savedRep else none) with
      | none => .next (s.modMe returnCtx)
      | some r =>
        let c' := returnRep r (returnCtx c)
        if c'.rep.isSome && s.mine.repHolder.any (fun k => k != s.cur) then .next s
        else
          let s := s.modMe (fun _ => c')
          .next (if c'.rep.isSome then
              s.modCore s.myCore (fun x => { x with repHolder := some s.cur })
            else s))

end Sys2Proof.Machine
end

