-- ==== Sys2Proof/Machine/Csr.lean ====
section
/-! DEFINITION. CSR access (spec/02 R44, R45, spec/07 R187, R188, and the field maps R109, R144,
R171, R197, R226, R290, R299, R302, R312, R319, R334, R344, R377, R378). -/

namespace Sys2Proof.Machine
open Sys2Proof

/-- Whether a debug feature is open (R376): every one in TEST. -/
def featureOpen (s : State) (bit : Nat) : Bool := s.fuses.life == .test || s.features.getLsbD bit

/-- The feature a CSR needs (R45, R376): DBGCTL needs STOP, the trace CSRs TRACE. -/
def csrFeature (n : Nat) : Option Nat :=
  if n = 0x400 then some 1 else if 0x401 ≤ n ∧ n ≤ 0x403 then some 0 else none

/-- The value a CSR reads as, for context `k` (R44). -/
def csrRead (s : State) (k n : Nat) : DWord :=
  let c := s.ctx k
  let x := s.core (coreOf k)
  match n with
  | 0x000 => c.xstatus
  | 0x001 => c.xcause
  | 0x002 => c.xval
  | 0x003 => c.xpc
  | 0x004 => c.xvec
  | 0x005 => c.xscratch
  | 0x006 => dw (numOf k)
  | 0x100 => dw (coreOf k)
  | 0x101 => dw x.rank
  | 0x102 => dw x.nranks
  | 0x104 => x.grpslot[0]
  | 0x105 => x.grpslot[1]
  | 0x106 => x.grpslot[2]
  | 0x107 => x.grpslot[3]
  | 0x108 => dw x.pasid
  | 0x200 => x.vshare
  | 0x201 => c.qctl
  | 0x202 => c.specctl
  | 0x203 => x.rcbase
  | 0x204 => x.rcsize
  | 0x205 => c.drainmax
  | 0x206 => c.fewait
  | 0x207 => c.retrymax
  | 0x208 => c.fpflags
  | 0x300 => s.time
  | 0x301 => x.stepcnt.setWidth 64
  | 0x302 => x.ph.setWidth 64
  | 0x303 => x.evq
  | 0x400 => x.dbgctl
  | 0x401 => x.trcctl
  | 0x402 => x.trcbase
  | 0x403 => x.trchead
  | _ => 0#64

/-- The bits of a CSR that a write changes: the fields whose access is RW (R4, R187). -/
def csrMask (n : Nat) : DWord :=
  match n with
  | 0x000 => 0x1#64
  | 0x001 => 0xFF#64
  | 0x002 => 0xFFFFFFFFFFFFFFFF#64
  | 0x003 => 0xFFFFFFFFFFFFFFFC#64
  | 0x004 => 0xFFFFFFFFFFFFFFFF#64
  | 0x005 => 0xFFFFFFFFFFFFFFFF#64
  | 0x200 => 0xF#64
  | 0x201 => 0x3#64
  | 0x202 => 0x0001FFFF00FFFFFF#64
  | 0x203 => 0x00FFFFFFFFFFF000#64
  | 0x204 => 0xFFFFFFFF#64
  | 0x205 => 0xFFFFFFFF#64
  | 0x206 => 0xFFFFFFFF#64
  | 0x207 => 0xFFFF#64
  | 0x208 => 0x1F#64
  | 0x303 => 0x00FFFFFFFFFFFFC0#64
  | 0x400 => 0x1#64
  | 0x401 => 0xFF03#64
  | 0x402 => 0x00FFFFFFFFFFF00F#64
  | _ => 0#64

/-- DBGCTL after a write of `v` to a value `old` (R377): GO clears STOP and resumes the core. -/
def dbgWrite (old v : DWord) : DWord :=
  if v.getLsbD 2 then 0#64 else (old &&& 0x2#64) ||| (v &&& 0x1#64)

/-- A CSR of context `k` takes a value; only its RW fields change (R187, R188). -/
def csrWrite (s : State) (k n : Nat) (v : DWord) : State :=
  let m := csrMask n
  let w := (csrRead s k n &&& ~~~m) ||| (v &&& m)
  let cx := s.modCtx k
  let cr := s.modCore (coreOf k)
  match n with
  | 0x000 => cx (fun c => { c with xstatus := w })
  | 0x001 => cx (fun c => { c with xcause := w })
  | 0x002 => cx (fun c => { c with xval := w })
  | 0x003 => cx (fun c => { c with xpc := w })
  | 0x004 => cx (fun c => { c with xvec := w })
  | 0x005 => cx (fun c => { c with xscratch := w })
  | 0x200 => cr (fun x => { x with vshare := w })
  | 0x201 => cx (fun c => { c with qctl := w })
  | 0x202 => cx (fun c => { c with specctl := w })
  | 0x203 => cr (fun x => { x with rcbase := w })
  | 0x204 => cr (fun x => { x with rcsize := w })
  | 0x205 => cx (fun c => { c with drainmax := w })
  | 0x206 => cx (fun c => { c with fewait := w })
  | 0x207 => cx (fun c => { c with retrymax := w })
  | 0x208 => cx (fun c => { c with fpflags := w })
  | 0x303 => cr (fun x => { x with evq := w })
  | 0x400 => cr (fun x => { x with dbgctl := dbgWrite x.dbgctl v })
  | 0x401 => cr (fun x => { x with trcctl := w })
  | 0x402 => cr (fun x => { x with trcbase := w })
  | _ => s

/-- A CSR instruction (R187): the privilege check of R45, the old value to s[d], and the new one. -/
def csrOp (i : Instr) (c : BitVec 12) (d : SReg) (f : DWord → Option DWord) (s : State) : Out :=
  run i s (fun s =>
    if (csrFeature c.toNat).any (fun b => !featureOpen s b) then trap i 0x11 (c.setWidth 64) s
    else
      let old := csrRead s s.cur c.toNat
      let s := match f old with
        | none => s
        | some v => csrWrite s s.cur c.toNat v
      done i d old s)

/-- CSRR (R187). -/
def execCsrr (c : BitVec 12) (d : SReg) (s : State) : Out :=
  csrOp (.csrr c d) c d (fun _ => none) s
/-- CSRW (R187). -/
def execCsrw (c : BitVec 12) (a d : SReg) (s : State) : Out :=
  csrOp (.csrw c a d) c d (fun _ => some (s.reg a)) s
/-- CSRS (R187). -/
def execCsrs (c : BitVec 12) (a d : SReg) (s : State) : Out :=
  csrOp (.csrs c a d) c d (fun old => some (old ||| s.reg a)) s
/-- CSRC (R187). -/
def execCsrc (c : BitVec 12) (a d : SReg) (s : State) : Out :=
  csrOp (.csrc c a d) c d (fun old => some (old &&& ~~~s.reg a)) s

end Sys2Proof.Machine
end

