-- ==== Sys2Proof/Machine/Eddy.lean ====
section
/-! DEFINITION. Eddy bins: SCADD, BFLUSH and the appliers of the base dies (spec/04 R98 to R102). An applier
makes one access a step (R262, R271). A SCADD stands at `pos` [j] until entry j is at the applier, with its offset in
`scr` once that is read, and its bin where it waits for one that is being applied; at [j, 0] with [home, 64,
offset] while its command reads the header, and at [j, 1] with [home, bin, offset] and the header while it
appends. A BFLUSH stands at [0, 0, 0, 0, order] with [home] until its turn comes, and then at [0, 1, bin, entry,
order] with [home] and the header. -/

namespace Sys2Proof.Machine
open Sys2Proof

/-! ## The descriptor (R98, R99) -/

/-- A header from its 32 bytes, if every field is valid (R98). -/
def eddyHdr (bs : List Byte) : Option EddyHdr :=
  let g (o n : Nat) : Nat := leNat ((bs.drop o).take n)
  let h : EddyHdr := { target := g 0 8, count := g 8 4, fmt := g 12 1, binbase := g 16 8, cap := g 24 4 }
  if (h.fmt = 1 ∨ h.fmt = 2 ∨ h.fmt = 8) ∧ h.target % esize h.fmt = 0 ∧ 1 ≤ h.count ∧ g 13 3 = 0 ∧
      h.binbase % 64 = 0 ∧ 8 ≤ h.cap ∧ h.cap ≤ 2 ^ 20 ∧ h.cap % 8 = 0 ∧ g 28 4 = 0 then some h
  else none

/-- Who has an applier at work: a SCADD or BFLUSH, or an early apply. -/
inductive BinUser where
  | op (id : Nat)
  | apply (id : Nat)

/-- A bin set as an applier reaches it: for whom, the launch and core, the TLBs and PASID of its translations,
the descriptor's address and the home of its byte +0. -/
structure Bins where
  who : BinUser
  launch : Nat
  core : Nat
  lv : TlbLevel
  pasid : Nat
  va : Nat
  home : Nat

/-- The applier's die: the base die of the descriptor's home (R99). -/
def Bins.die (b : Bins) : Nat := homeDie b.home

/-- The home of bytes of a bin set, which lie in region-0x0 pages (R98); an error is a cause and an
address. -/
def eddyHome (s : State) (lv : TlbLevel) (pasid : Nat) (a : Access) (va : Nat) : Except (Nat × Nat) Nat × State :=
  match paged s lv pasid a va with
  | (.error e, s) => (.error (e.opCause, va), s)
  | (.ok (.home h _), s) => (.ok h, s)
  | (.ok _, s) => (.error (0x41, va), s)

/-- The accesses that the piece of work at hand has made (R262). -/
def binGot (s : State) (b : Bins) : List (Nat × List Byte) :=
  match b.who with
  | .op id => ((s.op? id).map (gotSoFar s)).getD []
  | .apply id => ((s.applies.find? (fun a => a.id == id)).map EarlyApply.got).getD []

/-- An access at an address has been made and gave `bs`. -/
def binKeep (s : State) (b : Bins) (va : Nat) (bs : List Byte) : State :=
  let l := (binGot s b).take s.rdAt ++ [(va, bs)]
  match b.who with
  | .op id => s.modOp id (fun o => { o with got := tset s.rdKey l o.got })
  | .apply id => { s with applies := updFirst (fun a => a.id == id) (fun a => { a with got := l }) s.applies }

/-- The next access of an applier (R262): what an earlier step has made gives its bytes again; the first that
none has made is made now by `make`, and the work goes on in its next step (cause 0). -/
def binAccess (s : State) (b : Bins) (va len : Nat) (make : State → Except (Nat × Nat) (List Byte) × State) :
    Except (Nat × Nat) (List Byte) × State :=
  match (binGot s b)[s.rdAt]? with
  | some (a, bs) =>
    if a = va ∧ bs.length = len then (.ok bs, { s with rdAt := s.rdAt + 1 }) else (.error (0, va), s)
  | none =>
    match make s with
    | (.error e, s) => (.error e, s)
    | (.ok bs, s) => (.error (0, va), binKeep s b va bs)

/-- A read of an applier: the current value at the home, its own older writes there performed first (R271); a
poisoned unit gives no data (R75). -/
def eddyRead (s : State) (b : Bins) (va len : Nat) : Except (Nat × Nat) (List Byte) × State :=
  binAccess s b va len (fun s =>
    match eddyHome s b.lv b.pasid .load va with
    | (.error e, s) => (.error e, s)
    | (.ok h, s) =>
      let s := performQueue s b.die (homeDie h)
      if poisoned s h len then (.error (0x48, va), s) else (.ok (memRead h len s.mem), s))

/-- A write of an applier: at its home, through the base die's queues when that lies on another die (R271). -/
def eddyWrite (s : State) (b : Bins) (va : Nat) (bs : List Byte) : Except (Nat × Nat) (List Byte) × State :=
  binAccess s b va 0 (fun s =>
    match eddyHome s b.lv b.pasid .store va with
    | (.error e, s) => (.error e, s)
    | (.ok h, s) => (.ok [], issueWrite s b.die b.pasid h bs [] none false))

/-- The addition to a target element: one indivisible action at its home (R102, R271). -/
def eddyAmo (s : State) (b : Bins) (va fmt v : Nat) : Except (Nat × Nat) (List Byte) × State :=
  binAccess s b va 0 (fun s =>
    match eddyHome s b.lv b.pasid .amo va with
    | (.error e, s) => (.error e, s)
    | (.ok h, s) =>
      (.ok [], issueEntry s { src := b.die, dst := homeDie h, home := h, bytes := [], fill := [], chk := none,
                              pasid := b.pasid, unit := false, fe := false, op := none,
                              amo := some (.eddy b.launch b.core fmt v), joined := false }))

/-- The bin set that an operation's command goes to: the home of its descriptor, which it reads and writes. An
address that is not 64-byte aligned ends the operation with cause 0x43, as a header with an invalid field does
(DESIGN CHOICE, log 43: R98 names no cause for it). -/
def opBins (s : State) (o : Op) : Except (Nat × Nat) Bins × State :=
  let va := o.xv.toNat
  if va % 64 ≠ 0 then (.error (0x43, va), s)
  else
    match eddyHome s o.level o.pasid .load va with
    | (.error e, s) => (.error e, s)
    | (.ok h, s) =>
      match eddyHome s o.level o.pasid .store va with
      | (.error e, s) => (.error e, s)
      | (.ok _, s) =>
        (.ok { who := .op o.id, launch := o.launch, core := o.core, lv := o.level, pasid := o.pasid, va := va, home := h }, s)

/-- Whether bytes of a bin set lie as R98 asks, in a region-0x0 page: anywhere else is cause 0x41. A page that is
not present, or that the access at hand may not use, is left to that access (log 43). -/
def regionZero (s : State) (b : Bins) (va : Nat) : Except (Nat × Nat) Unit × State :=
  if va / 2 ^ 56 != 0 || inWindows va then (.error (0x41, va), s)
  else
    match translate false s b.lv b.pasid va with
    | (.error .later, s) => (.error (0, va), s)
    | (.error .poison, s) => (.error (0x48, va), s)
    | (.error _, s) => (.ok (), s)
    | (.ok e, s) =>
      match leafPlace e va with
      | .ok (.home _ _) => (.ok (), s)
      | _ => (.error (0x41, va), s)

/-- Every address of a list lies as R98 asks. -/
def regionZeros (b : Bins) : List Nat → State → Except (Nat × Nat) Unit × State
  | [], s => (.ok (), s)
  | va :: r, s =>
    match regionZero s b va with
    | (.error e, s) => (.error e, s)
    | (.ok _, s) => regionZeros b r s

/-- The header, as a command reads it at its start (R99). -/
def readHdr (s : State) (b : Bins) : Except (Nat × Nat) EddyHdr × State :=
  match eddyRead s b b.va 16 with
  | (.error e, s) => (.error e, s)
  | (.ok lo, s) =>
    match eddyRead s b (b.va + 16) 16 with
    | (.error e, s) => (.error e, s)
    | (.ok hi, s) =>
      match eddyHdr (lo ++ hi) with
      | none => (.error (0x43, b.va), s)
      | some x => (.ok x, s)

/-- The header at the start of a command that applies entries, the target and the bins lying where they may
(R98, R99). -/
def applyHdr (s : State) (b : Bins) : Except (Nat × Nat) EddyHdr × State :=
  match readHdr s b with
  | (.error e, s) => (.error e, s)
  | (.ok x, s) =>
    match regionZeros b [x.target, x.binbase] s with
    | (.error e, s) => (.error e, s)
    | (.ok _, s) => (.ok x, s)

/-- The address of FILL of a bin (R98). -/
def fillVa (b : Bins) (n : Nat) : Nat := b.va + 64 + 8 * n

/-- Whether a flush of the bin set whose descriptor has a home is at work, at a bin that a test picks. -/
def flushAt (s : State) (home : Nat) (p : (bin : Nat) → Bool) : Bool :=
  s.ops.any (fun o => o.st == .running && o.fin.isNone && o.scr.head? == some home &&
    match o.instr, o.pos with
    | .bflush _ _, [_, 1, b, _, _] => p b
    | _, _ => false)

/-- Whether a flush of a bin set has come to its applier before `t`, and is not over. -/
def flushBefore (s : State) (home t : Nat) : Bool :=
  s.ops.any (fun o => o.st == .running && o.fin.isNone && o.scr.head? == some home &&
    match o.instr, o.pos with
    | .bflush _ _, [_, _, _, _, u] => decide (u < t)
    | _, _ => false)

/-- Whether an append is at work on a bin set, and its bin meets a test: one at a time (R99). -/
def appendAt (s : State) (home : Nat) (p : Nat → Bool) : Bool :=
  s.ops.any (fun o => o.st == .running && o.fin.isNone &&
    match o.instr, o.pos, o.scr with
    | .scadd _ _ _ _, [_, _], h :: n :: _ => h == home && p n
    | _, _, _ => false)

/-- Whether bin `n` is being applied, by an early apply or a flush (R100, R101). -/
def binBusy (s : State) (home n : Nat) : Bool :=
  s.applies.any (fun a => a.home == home && a.bin == n) || flushAt s home (fun b => b == n)

/-- The early apply of a bin set that came to its applier before `t`, if one is not over. -/
def applyBefore (s : State) (home t : Nat) : Option EarlyApply :=
  s.applies.find? (fun a => a.home == home && decide (a.stamp < t))

/-- Whether the turn of a command that came to the applier of a bin set at `t` has come: early applies and
flushes run one at a time, in the order of their arrival (R99). -/
def myTurn (s : State) (home t : Nat) : Bool := (applyBefore s home t).isNone && !flushBefore s home t

/-! ## Applying (R102) -/

/-- Entry `k` of bin `n` is applied: one atomic read-modify-write of its target element (R102), whose size it
gives. With no entry left, none. -/
def applyEntry (s : State) (b : Bins) (x : EddyHdr) (n k : Nat) : Except (Nat × Nat) (Option Nat) × State :=
  match eddyRead s b (fillVa b n) 4 with
  | (.error e, s) => (.error e, s)
  | (.ok f, s) =>
    if leNat f ≤ k then (.ok none, s)
    else
      match eddyRead s b (x.binbase + (n * x.cap + k) * 8) 8 with
      | (.error e, s) => (.error e, s)
      | (.ok bs, s) =>
        let z := eddySize x.fmt
        match eddyAmo s b (x.target + leNat (bs.take 4) * z) x.fmt (leNat ((bs.drop 4).take z)) with
        | (.error e, s) => (.error e, s)
        | (.ok _, s) => (.ok (some z), s)

/-- The end of an early apply: FILL[b] := 0 and EARLY one more, saturating (R98, R102). -/
def applyEnd (s : State) (b : Bins) (n : Nat) : Except (Nat × Nat) (List Byte) × State :=
  match eddyWrite s b (fillVa b n) (leBytes 4 0) with
  | (.error e, s) => (.error e, s)
  | (.ok _, s) =>
    match eddyRead s b (b.va + 32) 4 with
    | (.error e, s) => (.error e, s)
    | (.ok e, s) => eddyWrite s b (b.va + 32) (leBytes 4 (min (leNat e + 1) (2 ^ 32 - 1)))

/-- The bin set of an early apply. -/
def EarlyApply.bins (a : EarlyApply) : Bins :=
  { who := .apply a.id, launch := a.launch, core := a.core, lv := .cluster (clusterOfCore a.core), pasid := a.pasid, va := a.va, home := a.home }

/-- An early apply is over. -/
def dropApply (s : State) (id : Nat) : State := { s with applies := s.applies.filter (fun a => a.id != id) }

/-- Changes an early apply. -/
def modApply (s : State) (id : Nat) (f : EarlyApply → EarlyApply) : State :=
  { s with applies := updFirst (fun a => a.id == id) f s.applies }

/-- An early apply that cannot go on: it is never a fault (R100), so it waits for the page or for a valid header,
and ends with its launch; an uncorrectable error makes the launch job-fatal (R75; DESIGN CHOICE, log 43). -/
def applyStuck (s : State) (a : EarlyApply) (e : Nat × Nat) : State :=
  if e.1 = 0 then s
  else if e.1 = 0x48 then
    dropApply (s.markFatal a.launch { cause := 0x48, core := a.core, frec := [] }) a.id
  else modApply s a.id (fun p => { p with stuck := some e, got := if p.hdr.isNone then [] else p.got })

/-- An early apply has done a piece of its work. -/
def applyWent (s : State) (id : Nat) (f : EarlyApply → EarlyApply) : State :=
  modApply s id (fun p => { f p with got := [], stuck := none })

/-- The next access of an early apply, once its turn has come: of its header, which it reads at its start, of its
next entry, or of its end (R99, R100, R102). -/
def stepApply (id : Nat) (s : State) : State :=
  let s := { s with rdAt := 0 }
  match s.applies.find? (fun a => a.id == id) with
  | none => s
  | some a =>
    if !myTurn s a.home a.stamp then s
    else
      match a.hdr with
      | none =>
        match applyHdr s a.bins with
        | (.error e, s) => applyStuck s a e
        | (.ok x, s) => applyWent s id (fun p => { p with hdr := some x })
      | some x =>
        if a.ending then
          match applyEnd s a.bins a.bin with
          | (.error e, s) => applyStuck s a e
          | (.ok _, s) => dropApply s id
        else
          match applyEntry s a.bins x a.bin a.k with
          | (.error e, s) => applyStuck s a e
          | (.ok (some _), s) => applyWent s id (fun p => { p with k := p.k + 1 })
          | (.ok none, s) => applyWent s id (fun p => { p with ending := true })

/-! ## SCADD (R100) -/

/-- The checks of SCADD at acceptance (R100). An hA whose FMT is not 8 raises BADH with reason 9, after the
checks of R88 on both handles (DESIGN CHOICE, log 43: R100 gives the limit and no trap). -/
def scaddChk (hA hB : HReg) (s : State) : Option (Nat × DWord) :=
  let a := s.hreg hA
  let b := s.hreg hB
  firstBad [
    chkH s hA false [1],
    chkH s hB false [1],
    (if hFmt a = 8 then none else badH hA 9),
    (if hCount a = hCount b then none else some (0x0A, dw (hCount b))),
    (if s.mine.ph = 1#2 then some (0x06, dw (hBase a)) else none)]

/-- SCADD (R100). Its descriptor lies in paged memory, so a compute phase refuses it (R58, R98);
the trap names the descriptor's address (DEDUCED, log 23). -/
def execScadd (o : EOrd) (hA hB : HReg) (sX : SReg) (s : State) : Out :=
  childOp (.scadd o hA hB sX) o (fun s => (scaddChk hA hB s).map (fun p =>
      if p.1 = 0x06 then (0x06, s.reg sX) else p))
    (fun s p => { p with hA := s.hreg hA, hB := s.hreg hB, xv := s.reg sX }) s

/-- A bin set and its header as a command keeps them. -/
def hdrNums (x : EddyHdr) : List Nat := [x.target, x.count, x.fmt, x.binbase, x.cap]

/-- An applier's failure as a unit's. -/
def binFail (s : State) (e : Nat × Nat) (prog : Nat) : UnitRes := .fault s e.1 e.2 0xFFFF prog

/-- Entry `j` is appended to bin `n` (R100): its bytes at their home, FILL and APPENDED; a full bin begins an
early apply, for which the operation does not wait. -/
def appendEntry (s : State) (o : Op) (b : Bins) (x : EddyHdr) (j n off v : Nat) : UnitRes :=
  match eddyRead s b (fillVa b n) 4 with
  | (.error e, s) => binFail s e j
  | (.ok f, s) =>
    let f := leNat f
    match eddyWrite s b (x.binbase + (n * x.cap + f) * 8) (leBytes 8 (off + v * 2 ^ 32)) with
    | (.error e, s) => binFail s e j
    | (.ok _, s) =>
      match eddyWrite s b (fillVa b n) (leBytes 4 (f + 1)) with
      | (.error e, s) => binFail s e j
      | (.ok _, s) =>
        match eddyRead s b (b.va + 40) 8 with
        | (.error e, s) => binFail s e j
        | (.ok m, s) =>
          match eddyWrite s b (b.va + 40) (leBytes 8 (leNat m + 1)) with
          | (.error e, s) => binFail s e j
          | (.ok _, s) =>
            let s := if f + 1 = x.cap then
                { s with stamp := s.stamp + 1, nextId := s.nextId + 1
                         applies := s.applies ++ [{ id := s.nextId, home := b.home, va := b.va, pasid := b.pasid,
                                                    core := o.core, launch := o.launch, bin := n, k := 0,
                                                    stamp := s.stamp, hdr := none, stuck := none, ending := false, got := [] }] }
              else s
            .go s { o with pos := [j + 1], scr := [], prog := j + 1 }

/-- An element of a source of SCADD, in row-major order (R100). -/
def scaddRead (s : State) (o : Op) (n : Nat) (h : HWord) (j : Nat) : EngRes × State :=
  let r := j / hCols h
  let c := j % hCols h
  if elemValid h r c then engRead s o n (elemAddr h r c) (esize (hFmt h))
  else (.got (List.replicate (esize (hFmt h)) 0#8), s)

/-- Entry `j`, of an offset, comes to the applier: it begins once no other append is at work on the bin set, and
the bin that it had to wait for is not being applied (R99, R100). -/
def scaddClaim (s : State) (o : Op) (j off : Nat) (bin : Option Nat) : UnitRes :=
  match opBins s o with
  | (.error e, s) => binFail s e j
  | (.ok b, s) =>
    if appendAt s b.home (fun _ => true) || bin.any (binBusy s b.home) then .wait s
    else .go s { o with pos := [j, 0], scr := [b.home, 64, off] }

/-- The command of entry `j` reads the header and checks the entry against it (R99, R100). An offset at or above
COUNT ends the operation at the address of the offset element (DESIGN CHOICE, log 47). An entry whose bin is
being applied waits for that, and lets the entries of other bins go first. -/
def scaddHead (s : State) (o : Op) (b : Bins) (j off : Nat) : UnitRes :=
  match readHdr s b with
  | (.error e, s) => binFail s e j
  | (.ok x, s) =>
    if hFmt o.hB ≠ x.fmt then .fault s 0x43 o.xv.toNat 0xFFFF j
    else if x.count ≤ off then .fault s 0x44 (elemAddr o.hA (j / hCols o.hA) (j % hCols o.hA)) 0xFFFF j
    else
      let bin := off * 64 / x.count
      match regionZeros b [x.target, x.binbase, x.target + off * eddySize x.fmt] s with
      | (.error e, s) => binFail s e j
      | (.ok _, s) =>
        if binBusy s b.home bin then .go s { o with pos := [j], scr := [off, bin] }
        else .go s { o with pos := [j, 1], scr := [b.home, bin, off] ++ hdrNums x }

/-- One unit of SCADD (R100): the offset of an entry is read, its command begins, reads the header, and the entry
is appended with its value. It ends when the last has been appended. -/
def scaddUnit (s : State) (o : Op) (n : Nat) : UnitRes :=
  let j := o.pos.getD 0 0
  let bins (home : Nat) : Bins :=
    { who := .op o.id, launch := o.launch, core := o.core, lv := o.level, pasid := o.pasid, va := o.xv.toNat, home := home }
  match o.pos, o.scr with
  | [_, _], [home, _, off] => scaddHead s o (bins home) j off
  | [_, _], [home, bin, off, target, count, fmt, binbase, cap] =>
    match scaddRead s o n o.hB j with
    | (.got vb, s) =>
      appendEntry s o (bins home) { target := target, count := count, fmt := fmt, binbase := binbase, cap := cap } j bin off
        (leNat vb)
    | (f, s) => engFail s f 0xFFFF j
  | _, [off] => scaddClaim s o j off none
  | _, [off, bin] => scaddClaim s o j off (some bin)
  | _, _ =>
    if hCount o.hA ≤ j then .fin s o
    else
      match scaddRead s o n o.hA j with
      | (.got ob, s) => .go s { o with pos := [j], scr := [leNat ob] }
      | (f, s) => engFail s f 0xFFFF j

/-! ## BFLUSH (R101) -/

/-- BFLUSH (R101). -/
def execBflush (o : EOrd) (sX : SReg) (s : State) : Out :=
  childOp (.bflush o sX) o (fun s => if s.mine.ph = 1#2 then some (0x06, s.reg sX) else none)
    (fun s p => { p with xv := s.reg sX }) s

/-- The turn of a flush that came to the applier at `t` (R99). Behind an early apply that cannot go on, it ends
FAULTED with what keeps that from going on (DESIGN CHOICE, log 43). -/
def flushTurn (s : State) (o : Op) (b : Bins) (t : Nat) : UnitRes :=
  match (applyBefore s b.home t).bind EarlyApply.stuck with
  | some e => binFail s e o.prog
  | none =>
    if !myTurn s b.home t then .wait s
    else
      match applyHdr s b with
      | (.error e, s) => binFail s e o.prog
      | (.ok x, s) => .go s { o with pos := [0, 1, 0, 0, t], scr := b.home :: hdrNums x }

/-- One unit of BFLUSH (R101): it waits for its turn and reads the header, then applies bins 0 to 63 in order,
each once no append for it is at work; PROGRESS counts target bytes. It ends when its applies, and the early
ones that came before it, are performed at their homes. -/
def bflushUnit (s : State) (o : Op) : UnitRes :=
  let bins (home : Nat) : Bins :=
    { who := .op o.id, launch := o.launch, core := o.core, lv := o.level, pasid := o.pasid, va := o.xv.toNat, home := home }
  match o.pos, o.scr with
  | [_, _, n, k, t], [home, target, count, fmt, binbase, cap] =>
    let b := bins home
    let x : EddyHdr := { target := target, count := count, fmt := fmt, binbase := binbase, cap := cap }
    if 64 ≤ n then .fin (performAll s b.die) o
    else if k = 0 ∧ appendAt s home (fun m => m == n) = true then .wait s
    else
      match applyEntry s b x n k with
      | (.error e, s) => binFail s e o.prog
      | (.ok (some z), s) => .go s { o with pos := [0, 1, n, k + 1, t], prog := o.prog + z }
      | (.ok none, s) =>
        match eddyWrite s b (fillVa b n) (leBytes 4 0) with
        | (.error e, s) => binFail s e o.prog
        | (.ok _, s) => .go s { o with pos := [0, 1, n + 1, 0, t] }
  | [_, _, _, _, t], [home] => flushTurn s o (bins home) t
  | _, _ =>
    match opBins s o with
    | (.error e, s) => binFail s e o.prog
    | (.ok b, s) => .go { s with stamp := s.stamp + 1 } { o with pos := [0, 0, 0, 0, s.stamp], scr := [b.home] }

end Sys2Proof.Machine
end

