-- ==== Sys2Proof/Machine/Float.lean ====
section
/-! DEFINITION. Scalar floating point (spec/07 R166 to R171). -/

namespace Sys2Proof.Machine
open Sys2Proof

/-- The format of fn[5] (R37). -/
def fpFmt (f : Bool) : Fmt := if f then f32 else f64

/-- The bits of a register read in a format: an f32 is bits [31:0] (R166). -/
def fpBits (f : Bool) (v : DWord) : Nat := if f then v.toNat % 2 ^ 32 else v.toNat

/-- An instruction that writes s[d], raises flags and retires (R171). -/
def fdone (i : Instr) (d : SReg) (r : Nat × FpFlags) (s : State) : Out :=
  done i d (dw r.1) (s.modMe (fun c => { c with fpflags := orFlags c.fpflags r.2 }))

/-- An instruction of two floating operands. -/
def fp2 (i : Instr) (f : Bool) (d a : SReg) (b : Operand) (op : Fmt → Nat → Nat → Nat × FpFlags)
    (s : State) : Out :=
  run i s (fun s => fdone i d (op (fpFmt f) (fpBits f (s.reg a)) (fpBits f (s.opB b))) s)

/-- A comparison's result as a number. -/
def cmpNum (r : Bool × FpFlags) : Nat × FpFlags := (b2n r.1, r.2)

/-- FADD (R168). -/
def execFadd (r : BitVec 2) (f : Bool) (d a : SReg) (b : Operand) (s : State) : Out :=
  fp2 (.fadd r f d a b) f d a b (fun m => m.add r.toNat) s
/-- FSUB (R168). -/
def execFsub (r : BitVec 2) (f : Bool) (d a : SReg) (b : Operand) (s : State) : Out :=
  fp2 (.fsub r f d a b) f d a b (fun m => m.sub r.toNat) s
/-- FMUL (R168). -/
def execFmul (r : BitVec 2) (f : Bool) (d a : SReg) (b : Operand) (s : State) : Out :=
  fp2 (.fmul r f d a b) f d a b (fun m => m.mul r.toNat) s
/-- FDIV (R168). -/
def execFdiv (r : BitVec 2) (f : Bool) (d a : SReg) (b : Operand) (s : State) : Out :=
  fp2 (.fdiv r f d a b) f d a b (fun m => m.div r.toNat) s
/-- FSQRT (R168). -/
def execFsqrt (r : BitVec 2) (f : Bool) (d a : SReg) (s : State) : Out :=
  run (.fsqrt r f d a) s (fun s =>
    fdone (.fsqrt r f d a) d ((fpFmt f).sqrt r.toNat (fpBits f (s.reg a))) s)
/-- FMIN (R169). -/
def execFmin (f : Bool) (d a : SReg) (b : Operand) (s : State) : Out :=
  fp2 (.fmin f d a b) f d a b (fun m => m.minmax false) s
/-- FMAX (R169). -/
def execFmax (f : Bool) (d a : SReg) (b : Operand) (s : State) : Out :=
  fp2 (.fmax f d a b) f d a b (fun m => m.minmax true) s
/-- FMA: x × y + s[d], rounded once (R168). -/
def execFma (r : BitVec 2) (f : Bool) (d a : SReg) (b : Operand) (s : State) : Out :=
  fp2 (.fma r f d a b) f d a b (fun m x y => m.fma r.toNat false x y (fpBits f (s.reg d))) s
/-- FNMA: −(x × y) + s[d], rounded once (R168). -/
def execFnma (r : BitVec 2) (f : Bool) (d a : SReg) (b : Operand) (s : State) : Out :=
  fp2 (.fnma r f d a b) f d a b (fun m x y => m.fma r.toNat true x y (fpBits f (s.reg d))) s
/-- FEQ (R168, R169). -/
def execFeq (f : Bool) (d a : SReg) (b : Operand) (s : State) : Out :=
  fp2 (.feq f d a b) f d a b (fun m x y => cmpNum (m.feq x y)) s
/-- FLT (R168, R169). -/
def execFlt (f : Bool) (d a : SReg) (b : Operand) (s : State) : Out :=
  fp2 (.flt f d a b) f d a b (fun m x y => cmpNum (m.flt x y)) s
/-- FLE (R168, R169). -/
def execFle (f : Bool) (d a : SReg) (b : Operand) (s : State) : Out :=
  fp2 (.fle f d a b) f d a b (fun m x y => cmpNum (m.fle x y)) s
/-- FCLASS (R168). -/
def execFclass (f : Bool) (d a : SReg) (s : State) : Out :=
  run (.fclass f d a) s (fun s =>
    fdone (.fclass f d a) d (2 ^ (fpFmt f).fclass (fpBits f (s.reg a)), 0) s)

/-- The target of a conversion to an integer: signed, and its width (R170). -/
def cvtInt (signed : Bool) (n : Nat) (mode : RMode) (x : Num) : Nat × FpFlags :=
  let r := if signed then Num.conv mode (-(2 ^ (n - 1) : Int)) (2 ^ (n - 1) - 1) x
    else Num.conv mode 0 (2 ^ n - 1) x
  (ofSigned 64 r.1, r.2)

/-- FCVT's result by kind (R170). Kinds from 18 on are illegal and never reach it. -/
def cvt (k : Nat) (mode : RMode) (v : DWord) : Nat × FpFlags :=
  let w := v.toNat
  let lo := w % 2 ^ 32
  match k with
  | 0 => f32.put mode (f64.num w)
  | 1 => f64.put 0 (f32.num lo)
  | 2 => cvtInt true 64 mode (f64.num w)
  | 3 => cvtInt false 64 mode (f64.num w)
  | 4 => cvtInt true 32 mode (f64.num w)
  | 5 => cvtInt false 32 mode (f64.num w)
  | 6 => cvtInt true 64 mode (f32.num lo)
  | 7 => cvtInt false 64 mode (f32.num lo)
  | 8 => cvtInt true 32 mode (f32.num lo)
  | 9 => cvtInt false 32 mode (f32.num lo)
  | 10 => f64.put mode (intNum v.toInt)
  | 11 => f64.put mode (.fin false w 0)
  | 12 => f32.put mode (intNum v.toInt)
  | 13 => f32.put mode (.fin false w 0)
  | 14 => bf16.put mode (f32.num lo)
  | 15 => f32.put 0 (bf16.num (w % 65536))
  | 16 => f16.put mode (f32.num lo)
  | _ => f32.put 0 (f16.num (w % 65536))

/-- FCVT (R170). -/
def execFcvt (r : BitVec 2) (k : BitVec 5) (d a : SReg) (s : State) : Out :=
  run (.fcvt r k d a) s (fun s => fdone (.fcvt r k d a) d (cvt k.toNat r.toNat (s.reg a)) s)

/-- FSGN's result: x with the sign bit `g` of x's and y's (R168). -/
def signOp (f : Bool) (g : Bool → Bool → Bool) (x y : Nat) : Nat :=
  let sw := (fpFmt f).signW
  x % sw + (if g (x / sw % 2 == 1) (y / sw % 2 == 1) then sw else 0)

/-- FSGN_J (R168). -/
def execFsgnJ (f : Bool) (d a : SReg) (b : Operand) (s : State) : Out :=
  fp2 (.fsgnJ f d a b) f d a b (fun _ x y => (signOp f (fun _ sy => sy) x y, 0)) s
/-- FSGN_JN (R168). -/
def execFsgnJn (f : Bool) (d a : SReg) (b : Operand) (s : State) : Out :=
  fp2 (.fsgnJn f d a b) f d a b (fun _ x y => (signOp f (fun _ sy => !sy) x y, 0)) s
/-- FSGN_JX (R168). -/
def execFsgnJx (f : Bool) (d a : SReg) (b : Operand) (s : State) : Out :=
  fp2 (.fsgnJx f d a b) f d a b (fun _ x y => (signOp f (fun sx sy => sx != sy) x y, 0)) s

end Sys2Proof.Machine
end

