-- ==== Sys2Proof/Machine/Specialise.lean ====
section
/-! DEFINITION. The specialiser: SPEC and its walk (spec/13 R318 to R327, spec/02 R43). The walk is a
function of the reads it has made of the source code, in order; it goes on from its next one (log 34). -/

namespace Sys2Proof.Machine
open Sys2Proof

/-! ## What an instruction reads and writes -/

/-- The scalar register an instruction writes. -/
def Instr.dest (i : Instr) : List SReg :=
  match i with
  | .add _ d _ _ => [d]
  | .sub _ d _ _ => [d]
  | .and d _ _ => [d]
  | .or d _ _ => [d]
  | .xor d _ _ => [d]
  | .andn d _ _ => [d]
  | .sll _ d _ _ => [d]
  | .srl _ d _ _ => [d]
  | .sra _ d _ _ => [d]
  | .rol _ d _ _ => [d]
  | .slt d _ _ => [d]
  | .sltu d _ _ => [d]
  | .min d _ _ => [d]
  | .max d _ _ => [d]
  | .minu d _ _ => [d]
  | .maxu d _ _ => [d]
  | .mul _ d _ _ => [d]
  | .mulh d _ _ => [d]
  | .mulhu d _ _ => [d]
  | .div _ d _ _ => [d]
  | .divu _ d _ _ => [d]
  | .rem _ d _ _ => [d]
  | .remu _ d _ _ => [d]
  | .shadd _ d _ _ => [d]
  | .sel d _ _ => [d]
  | .clz _ d _ => [d]
  | .ctz _ d _ => [d]
  | .popc _ d _ => [d]
  | .brev _ d _ => [d]
  | .bswap _ d _ => [d]
  | .sext d _ _ => [d]
  | .zext d _ _ => [d]
  | .ext d _ _ => [d]
  | .ins d _ _ => [d]
  | .addi d _ _ => [d]
  | .andi d _ _ => [d]
  | .ori d _ _ => [d]
  | .xori d _ _ => [d]
  | .slti d _ _ => [d]
  | .sltiu d _ _ => [d]
  | .slli d _ _ => [d]
  | .srli d _ _ => [d]
  | .srai d _ _ => [d]
  | .roli d _ _ => [d]
  | .fadd _ _ d _ _ => [d]
  | .fsub _ _ d _ _ => [d]
  | .fmul _ _ d _ _ => [d]
  | .fdiv _ _ d _ _ => [d]
  | .fsqrt _ _ d _ => [d]
  | .fmin _ d _ _ => [d]
  | .fmax _ d _ _ => [d]
  | .fma _ _ d _ _ => [d]
  | .fnma _ _ d _ _ => [d]
  | .feq _ d _ _ => [d]
  | .flt _ d _ _ => [d]
  | .fle _ d _ _ => [d]
  | .fclass _ d _ => [d]
  | .fcvt _ _ d _ => [d]
  | .fsgnJ _ d _ _ => [d]
  | .fsgnJn _ d _ _ => [d]
  | .fsgnJx _ d _ _ => [d]
  | .ld _ _ _ _ _ t => [t]
  | .ldFe _ _ _ _ _ t => [t]
  | .ldFec _ _ _ _ _ t => [t]
  | .ldi _ _ _ _ t => [t]
  | .amoAdd _ _ _ _ _ d => [d]
  | .amoAnd _ _ _ _ _ d => [d]
  | .amoOr _ _ _ _ _ d => [d]
  | .amoXor _ _ _ _ _ d => [d]
  | .amoMin _ _ _ _ _ d => [d]
  | .amoMax _ _ _ _ _ d => [d]
  | .amoMinu _ _ _ _ _ d => [d]
  | .amoMaxu _ _ _ _ _ d => [d]
  | .amoSwap _ _ _ _ _ d => [d]
  | .cas _ _ _ _ _ d => [d]
  | .jal _ d => [d]
  | .jalr _ _ d => [d]
  | .callh _ d => [d]
  | .csrr _ d => [d]
  | .csrw _ _ d => [d]
  | .csrs _ _ d => [d]
  | .csrc _ _ d => [d]
  | .hget _ s _ => [s]
  | .hchk _ s _ => [s]
  | .start d _ _ => [d]
  | .hjoin d _ _ => [d]
  | .hstat d _ => [d]
  | .barw d _ => [d]
  | .bar d _ _ => [d]
  | .exch d => [d]
  | .step d => [d]
  | .mrecv d _ => [d]
  | .enq d _ _ => [d]
  | .rdone d => [d]
  | .grab d _ => [d]
  | .preempt d _ _ => [d]
  | .waitt d _ => [d]
  | .tstat d _ => [d]
  | .cancel d _ => [d]
  | .detach d _ _ => [d]
  | .adopt d _ => [d]
  | .tpri d _ _ => [d]
  | .tfrec d _ _ => [d]
  | .waits d _ => [d]
  | .rginit d _ => [d]
  | .rgwait d _ => [d]
  | .rgstat d _ => [d]
  | .hacq d _ => [d]
  | .hrel d _ => [d]
  | .hinfo d _ => [d]
  | .qsub d _ _ => [d]
  | .qstat d _ => [d]
  | .bind d _ _ => [d]
  | .unbind d _ => [d]
  | .copy o _ _ _ _ _ => [o.sT]
  | .copym o _ _ _ => [o.sT]
  | .pack o _ _ _ => [o.sT]
  | .unpack o _ _ _ => [o.sT]
  | .scadd o _ _ _ => [o.sT]
  | .bflush o _ => [o.sT]
  | .mma _ o _ _ _ => [o.sT]
  | .mmag _ o _ _ _ _ _ _ => [o.sT]
  | .qntQ4uni o _ _ => [o.sT]
  | .qntQ4e2m1 o _ _ => [o.sT]
  | .qntQ4pow o _ _ => [o.sT]
  | .qntQ4hyb o _ _ => [o.sT]
  | .qntQ4auto o _ _ => [o.sT]
  | .dqnt o _ _ => [o.sT]
  | .qchk o _ => [o.sT]
  | .winit o _ _ => [o.sT]
  | .wprobe o _ _ _ => [o.sT]
  | .wcommit o _ _ _ _ _ => [o.sT]
  | .wpick o _ _ _ => [o.sT]
  | .wrd o _ _ _ => [o.sT]
  | .allred _ o _ _ _ _ => [o.sT]
  | .redscat _ o _ _ _ _ => [o.sT]
  | .allgath o _ _ _ _ => [o.sT]
  | .bcast o _ _ _ _ _ => [o.sT]
  | .alltoall o _ _ _ _ => [o.sT]
  | .spec o _ _ _ => [o.sT]
  | _ => []

/-- Whether an instruction reads its d field as well (R322, R178). -/
def Instr.readsDest : Instr → Bool
  | .sel _ _ _ => true
  | .ins _ _ _ => true
  | .fma _ _ _ _ _ => true
  | .fnma _ _ _ _ _ => true
  | .cas _ _ _ _ _ _ => true
  | _ => false

/-- The scalar registers an instruction reads. -/
def Instr.reads (i : Instr) : List SReg :=
  if Instr.readsDest i then i.sregs else (Instr.dest i).foldl (fun l d => l.erase d) i.sregs

/-- The instructions of OP 0x01 to 0x0A, which may be folded (R322). -/
def foldable (i : Instr) : Option (State → Out) :=
  match i with
  | .add w d a b => some (execAdd w d a b)
  | .sub w d a b => some (execSub w d a b)
  | .and d a b => some (execAnd d a b)
  | .or d a b => some (execOr d a b)
  | .xor d a b => some (execXor d a b)
  | .andn d a b => some (execAndn d a b)
  | .sll w d a b => some (execSll w d a b)
  | .srl w d a b => some (execSrl w d a b)
  | .sra w d a b => some (execSra w d a b)
  | .rol w d a b => some (execRol w d a b)
  | .slt d a b => some (execSlt d a b)
  | .sltu d a b => some (execSltu d a b)
  | .min d a b => some (execMin d a b)
  | .max d a b => some (execMax d a b)
  | .minu d a b => some (execMinu d a b)
  | .maxu d a b => some (execMaxu d a b)
  | .mul w d a b => some (execMul w d a b)
  | .mulh d a b => some (execMulh d a b)
  | .mulhu d a b => some (execMulhu d a b)
  | .div w d a b => some (execDiv w d a b)
  | .divu w d a b => some (execDivu w d a b)
  | .rem w d a b => some (execRem w d a b)
  | .remu w d a b => some (execRemu w d a b)
  | .shadd k d a b => some (execShadd k d a b)
  | .sel d a b => some (execSel d a b)
  | .clz w d a => some (execClz w d a)
  | .ctz w d a => some (execCtz w d a)
  | .popc w d a => some (execPopc w d a)
  | .brev w d a => some (execBrev w d a)
  | .bswap w d a => some (execBswap w d a)
  | .sext d a b => some (execSext d a b)
  | .zext d a b => some (execZext d a b)
  | .ext d a b => some (execExt d a b)
  | .ins d a b => some (execIns d a b)
  | .addi d a imm => some (execAddi d a imm)
  | .andi d a imm => some (execAndi d a imm)
  | .ori d a imm => some (execOri d a imm)
  | .xori d a imm => some (execXori d a imm)
  | .slti d a imm => some (execSlti d a imm)
  | .sltiu d a imm => some (execSltiu d a imm)
  | .slli d a n => some (execSlli d a n)
  | .srli d a n => some (execSrli d a n)
  | .srai d a n => some (execSrai d a n)
  | .roli d a n => some (execRoli d a n)
  | .fadd r f d a b => some (execFadd r f d a b)
  | .fsub r f d a b => some (execFsub r f d a b)
  | .fmul r f d a b => some (execFmul r f d a b)
  | .fdiv r f d a b => some (execFdiv r f d a b)
  | .fsqrt r f d a => some (execFsqrt r f d a)
  | .fmin f d a b => some (execFmin f d a b)
  | .fmax f d a b => some (execFmax f d a b)
  | .fma r f d a b => some (execFma r f d a b)
  | .fnma r f d a b => some (execFnma r f d a b)
  | .feq f d a b => some (execFeq f d a b)
  | .flt f d a b => some (execFlt f d a b)
  | .fle f d a b => some (execFle f d a b)
  | .fclass f d a => some (execFclass f d a)
  | .fcvt r k d a => some (execFcvt r k d a)
  | .fsgnJ f d a b => some (execFsgnJ f d a b)
  | .fsgnJn f d a b => some (execFsgnJn f d a b)
  | .fsgnJx f d a b => some (execFsgnJx f d a b)
  | _ => none

/-- OP of a word. -/
def wordOp (w : Word) : Nat := (fld w 0 7).toNat

/-- The scalar register of operand a of a word, s0 where the form has none (R25) or names a group slot there, as
BARA, BARW and BAR do; none where its operands are handle registers, which are never known (R321). -/
def markA (w : Word) : Option SReg :=
  let op := wordOp w
  if op = 32 then some (fld w 7 5)
  else if op = 48 ∨ 96 ≤ op then none
  else some (if op = 33 ∨ (op = 50 ∧ (fld w 23 9).toNat < 3) then 0#5 else fA w)

/-- The scalar register of operand b of a word, s0 where it is a literal, FCVT's kind, or the form has none
(R25, R27, R37); only form R has a K bit (R25). None where it is a handle register: in forms H and E, and the
b of RGINIT and BIND (R26, R321). -/
def markB (w : Word) : Option SReg :=
  let op := wordOp w
  if op = 32 then some (fld w 12 5)
  else if op = 48 ∨ 96 ≤ op ∨ ((op = 53 ∨ op = 56) ∧ fld w 23 9 = 0#9) then none
  else if op = 16 ∨ op = 17 ∨ op = 20 ∨ op = 21 then some (fB w)
  else if op = 1 ∨ op = 2 ∨ op = 10 ∨ (49 ≤ op ∧ op ≤ 56) then
    some (if fK w = 1#1 ∨ (op = 10 ∧ fld w 23 5 = 13#5) then 0#5 else fB w)
  else some 0#5

/-! ## The abstract state (R321) -/

/-- What the specialiser knows of s1 to s31: a value, and whether it stands in the register at run
time. -/
abbrev Abs := List (Option (DWord × Bool))

/-- A register's condition; s0 is known and present. -/
def absGet (x : Abs) (r : Nat) : Option (DWord × Bool) := if r = 0 then some (0#64, true) else (x[r]?).join

/-- A register's condition changed. -/
def absSet (x : Abs) (r : Nat) (v : Option (DWord × Bool)) : Abs := if r = 0 then x else x.set r v

/-- A register's value, if it is known. -/
def absVal (x : Abs) (r : SReg) : Option DWord := (absGet x r.toNat).map (fun p => p.1)

/-- Every register unknown. -/
def absNone : Abs := List.replicate 32 none

/-- Registers made unknown. -/
def forget (x : Abs) (rs : List SReg) : Abs := rs.foldl (fun x r => absSet x r.toNat none) x

/-- The instruction that loads a value, the shortest of three (R321). -/
def loadWords (n : Nat) (v : DWord) : List Word :=
  let d : SReg := BitVec.ofNat 5 n
  if -16384 ≤ v.toInt ∧ v.toInt ≤ 16383 then encode (.addi d 0#5 (v.setWidth 15))
  else if (v.setWidth 32).signExtend 64 = v then encode (.add false d 0#5 (.lit32 (v.setWidth 32)))
  else encode (.add false d 0#5 (.lit64 v))

/-- Known registers of a list that are not present, in ascending order, are materialised: the words,
and the state (R321). -/
def materialise (x : Abs) (want : Nat → Bool) : List Word × Abs :=
  (List.range 32).foldl (fun p n =>
    match absGet p.2 n with
    | some (v, false) => if want n then (p.1 ++ loadWords n v, absSet p.2 n (some (v, true))) else p
    | _ => p) ([], x)

/-- Registers of a list are materialised. -/
def matRegs (x : Abs) (rs : List SReg) : List Word × Abs := materialise x (fun n => rs.any (fun r => r.toNat == n))

/-- Every known register below the accessible count is materialised. -/
def matAll (acc : Nat) (x : Abs) : List Word × Abs := materialise x (fun n => decide (n < acc))

/-- The value of a foldable instruction with known sources: what its entry writes to d (R322). -/
def foldValue (x : Abs) (i : Instr) : Option DWord :=
  match foldable i with
  | none => none
  | some f =>
    let c : Ctx :=
      { Ctx.fresh with
        mode := .running
        regs := Vector.ofFn (fun (k : Fin 32) => ((absGet x k.val).map (fun p => p.1)).getD 0#64) }
    match f (State.reset.setCtx 0 c) with
    | .next s => ((Instr.dest i).head?).map (fun d => s.reg d)
    | _ => none

/-! ## The residual code -/

/-- Where a transfer of the residual code goes: an address, or a label of the residual code. -/
inductive Dest where
  | addr (a : Nat)
  | label (n : Nat)
  deriving DecidableEq, Repr

/-- A piece of residual code: words, a branch whose offset is to be filled in, a jump (with its link
register), a LOOP whose body ends at a label. -/
inductive Item where
  | word (w : Word)
  | branch (cond : Nat) (b a : SReg) (t : Dest)
  | jump (d : SReg) (t : Dest)
  | loop (a : SReg) (stop : Nat)
  deriving DecidableEq, Repr

/-- A loop the walk is in: rolled, or unrolled with the iterations left; `snap` is the state of the
walk at its LOOP. -/
structure SFrame where
  rolled : Bool
  start : Nat
  stop : Nat
  left : Nat
  snap : Nat
  deriving DecidableEq, Repr

/-- A point that is pending: its address, state, loops and label (R323). -/
structure Pend where
  addr : Nat
  abs : Abs
  frames : List SFrame
  label : Nat
  deriving DecidableEq, Repr

/-- A rolled loop whose body is being walked: what is pending outside it, the place and label of its
body, how the walk goes on after it, and the state of the walk at its LOOP. -/
structure Body where
  pend : List Pend
  first : Nat
  stopLabel : Nat
  joinLabel : Nat
  joined : Bool
  stop : Nat
  abs : Abs
  frames : List SFrame
  frame : SFrame
  deriving DecidableEq, Repr

/-- The state of the walk at a LOOP, for taking back (R324, R325). -/
structure Snap where
  addr : Nat
  abs : Abs
  frames : List SFrame
  items : Nat
  labels : Nat
  points : Nat
  pend : List Pend
  bodies : List Body
  deriving DecidableEq, Repr

/-- Where a path of the walk is; `force` makes a LOOP rolled (R324). -/
structure Path where
  addr : Nat
  abs : Abs
  frames : List SFrame
  force : Bool
  deriving DecidableEq, Repr

/-- The walk. -/
structure Walker where
  items : List Item
  labels : List (Nat × Nat)
  points : List (Nat × Abs × List SFrame × Nat)
  pend : List Pend
  bodies : List Body
  snaps : List Snap
  cur : Option Path
  nextLabel : Nat
  steps : Nat
  deferred : Bool
  partial_ : Bool
  outOver : Bool
  stepOver : Bool
  code : Nat
  ended : Bool
  reads : Nat
  need : Option (Nat × Nat)

/-- A read of the source code that the walk has made: its address, its length and what it gave. -/
structure SrcRead where
  addr : Nat
  len : Nat
  val : Nat
  deriving DecidableEq, Repr

/-- The source code: its first address and words, where its bind bytes stand, the reads made so far in order,
where the residual code goes, the accessible count, the budgets, and the free values that order the pending
points. -/
structure Source where
  base : Nat
  words : Nat
  bind : Option Nat
  log : List SrcRead
  out : Nat
  acc : Nat
  outb : Nat
  stepb : Nat
  pick : Nat → Nat

/-- The end of the source code. -/
def Source.stop (c : Source) : Nat := c.base + 4 * c.words

/-- Whether an address is one of a word of the source code. -/
def Source.has (c : Source) (a : Nat) : Bool := decide (c.base ≤ a) && decide (a < c.stop)

/-- A reading of the source code from the `k`-th read on: what it gives and how many reads there are behind
it, or the address and length of the read that has not been made yet. -/
abbrev SrcM (α : Type) := (k : Nat) → Except (Nat × Nat) (α × Nat)

/-- The next read of the walk (R327). -/
def Source.read (c : Source) (a len : Nat) : SrcM Nat := fun k =>
  match c.log[k]? with
  | some r => if r.addr = a ∧ r.len = len then .ok (r.val, k + 1) else .error (a, len)
  | none => .error (a, len)

/-- Words of one piece, branches counted short. -/
def Item.size : Item → Nat
  | .word _ => 1
  | .branch _ _ _ _ => 1
  | .jump _ _ => 1
  | .loop _ _ => 1

/-- The item number of a label; one that is not placed yet stands at the end. -/
def labelAt (l : List (Nat × Nat)) (n : Nat) : Nat := ((l.find? (fun p => p.1 == n)).map (fun p => p.2)).getD (2 ^ 32)

/-- The first place of each item in words, given which branches are long (R323). -/
def places (items : List Item) (long : List Nat) : List Nat :=
  (items.zipIdx.foldl (fun p i => (p.1 ++ [p.2], p.2 + i.1.size + (if long.contains i.2 then 1 else 0)))
    (([] : List Nat), 0)).1

/-- Words of items. -/
def itemWords (items : List Item) (long : List Nat) : Nat :=
  (items.foldl (fun n i => n + i.size) 0) + long.length

/-- The target of a transfer, in words from the start of the residual code at `base`. -/
def targetAt (base : Nat) (labels : List (Nat × Nat)) (pl : List Nat) (total : Nat) : Dest → Int
  | .addr a => ((a : Int) - base) / 4
  | .label n => ((pl.getD (labelAt labels n) total : Nat) : Int)

/-- The branches that must be long: those whose target is out of reach, until none is added. -/
def relax (base : Nat) (labels : List (Nat × Nat)) (items : List Item) : Nat → List Nat → List Nat
  | 0, long => long
  | fuel + 1, long =>
    let pl := places items long
    let total := itemWords items long
    let more := (items.zipIdx.filter (fun i =>
      match i.1 with
      | .branch _ _ _ t =>
        let off := targetAt base labels pl total t - (pl.getD i.2 0 : Nat)
        !long.contains i.2 && (decide (off < -1024) || decide (1023 < off))
      | _ => false)).map (fun i => i.2)
    if more.isEmpty then long else relax base labels items fuel (long ++ more)

/-- The words of a jump at word `at_`, if its target is in reach (R182, R323). -/
def jumpWords (d : SReg) (at_ : Nat) (t : Int) : Option (List Word) :=
  let off := t - at_
  if -524288 ≤ off ∧ off ≤ 524287 then some (encode (.jal (BitVec.ofInt 20 off) d)) else none

/-- A branch by condition code (R181). -/
def branchOf (cond : Nat) (off : Int) (b a : SReg) : Instr :=
  let o := BitVec.ofInt 11 off
  match cond with
  | 0 => .beq o b a
  | 1 => .bne o b a
  | 2 => .blt o b a
  | 3 => .bge o b a
  | 4 => .bltu o b a
  | _ => .bgeu o b a

/-- The residual words, or none where a transfer cannot reach (R323). -/
def layout (base : Nat) (labels : List (Nat × Nat)) (items : List Item) : Option (List Word) :=
  let long := relax base labels items (items.length + 1) []
  let pl := places items long
  let total := itemWords items long
  items.zipIdx.foldl (fun acc i =>
    match acc with
    | none => none
    | some ws =>
      let p := pl.getD i.2 0
      let more : Option (List Word) := match i.1 with
        | .word w => some [w]
        | .jump d t => jumpWords d p (targetAt base labels pl total t)
        | .loop a n =>
          some (encode (.loop (BitVec.ofInt 15 (targetAt base labels pl total (.label n) - (p + 1))) a))
        | .branch c b a t =>
          let to_ := targetAt base labels pl total t
          if long.contains i.2 then
            (jumpWords 0#5 (p + 1) to_).map (fun j => encode (branchOf (c ^^^ 1) 2 b a) ++ j)
          else some (encode (branchOf c (to_ - p) b a))
      more.map (fun m => ws ++ m)) (some [])

/-! ## The walk (R322 to R325) -/

/-- The words from an address on, read in order. -/
def sourceWords (c : Source) : (n : Nat) → (a : Nat) → SrcM (List Word)
  | 0, _, k => .ok ([], k)
  | n + 1, a, k =>
    match c.read a 4 k with
    | .error e => .error e
    | .ok (w, k) =>
      match sourceWords c n (a + 4) k with
      | .error e => .error e
      | .ok (l, k) => .ok (BitVec.ofNat 32 w :: l, k)

/-- The instruction that words are, if they are one (R41). -/
def codeInstr (ws : List Word) : Option Instr := (decodeList ws).filter Instr.wf

/-- Whether some later words make an instruction of a first word (R41). -/
def startsInstr (w : Word) : Bool :=
  (codeInstr [w]).isSome || (List.range 128).any (fun f => (codeInstr [w, BitVec.ofNat 32 (f * 512)]).isSome)

/-- An instruction of the source code at an address: its words, and the instruction unless they are none
(R322); no words where it does not lie in the source code whole (R323). A word that starts no instruction
stands alone where the later words lie outside. -/
def sourceInstr (c : Source) (a : Nat) : SrcM (List Word × Option Instr) := fun k =>
  match sourceWords c 1 a k with
  | .error e => .error e
  | .ok (ws, k) =>
    let w := ws.headD 0#32
    let n := wordCount w
    if c.stop < a + 4 * n then .ok (if startsInstr w then ([], none) else ([w], none), k)
    else
      match sourceWords c (n - 1) (a + 4) k with
      | .error e => .error e
      | .ok (r, k) => .ok ((w :: r, codeInstr (w :: r)), k)

/-- The bind byte of the word at an address (R320). -/
def bindByte (c : Source) (a : Nat) : SrcM Nat := fun k =>
  match c.bind with
  | none => .ok (0, k)
  | some b => c.read (b + (a - c.base) / 4) 1 k

/-- Bind bytes of `n` words from an address on. -/
def bindBytes (c : Source) : (n : Nat) → (a : Nat) → SrcM (List Nat)
  | 0, _, k => .ok ([], k)
  | n + 1, a, k =>
    match bindByte c a k with
    | .error e => .error e
    | .ok (m, k) =>
      match bindBytes c n (a + 4) k with
      | .error e => .error e
      | .ok (l, k) => .ok (m :: l, k)

/-- The walk ends with a status (R326). -/
def Walker.status (w : Walker) (code : Nat) : Walker := { w with code := code, ended := true, cur := none }

/-- The walk stands at a read that it has not made yet. -/
def Walker.ask (w : Walker) (e : Nat × Nat) : Walker := { w with need := some e, ended := true }

/-- Where sequential flow goes (R183, R184): on at an address, or the end of a rolled body. -/
def advance (pc next : Nat) : List SFrame → Option (List SFrame)
  | [] => some []
  | f :: r =>
    if f.rolled then if next = f.stop then none else some (f :: r)
    else if next = f.stop then
      if f.left ≤ 1 then advance pc next r else some ({ f with left := f.left - 1 } :: r)
    else if f.start ≤ pc ∧ pc < f.stop ∧ f.stop < next then advance pc next r
    else some (f :: r)

/-- The address after sequential flow: back to the start of an unrolled body, or the next. -/
def flowTo (next : Nat) (old new : List SFrame) : Nat :=
  match new with
  | f :: _ => if f.rolled = false ∧ next = f.stop ∧ old.length ≥ new.length ∧ !old.contains f then f.start else next
  | [] => next

/-- The unrolled loops that a transfer leaves (R184). -/
def leaveFrames (pc target : Nat) : List SFrame → List SFrame
  | [] => []
  | f :: r =>
    if !f.rolled && decide (f.start ≤ pc) && decide (pc < f.stop) && !(decide (f.start ≤ target) && decide (target < f.stop)) then
      leaveFrames pc target r
    else f :: r

/-- Items emitted. -/
def Walker.emit (w : Walker) (l : List Item) : Walker := { w with items := w.items ++ l }

/-- The point at an address with a state, if it has been emitted (R323). -/
def Walker.emitted (w : Walker) (a : Nat) (x : Abs) (fs : List SFrame) : Option Nat :=
  (w.points.find? (fun p => p.1 == a && p.2.1 == x && p.2.2.1 == fs)).map (fun p => p.2.2.2)

/-- The pending points that have been emitted in the meantime get their labels (R323). -/
def Walker.resolve (w : Walker) : Walker :=
  w.pend.foldl (fun w q =>
    match w.emitted q.addr q.abs q.frames with
    | none => w
    | some l => { w with labels := w.labels ++ [(q.label, labelAt w.labels l)], pend := w.pend.filter (fun r => r.label != q.label) }) w

/-- The walk as it was at a LOOP, its steps and flags kept (R324, R325). -/
def Walker.takeBack (w : Walker) (n : Snap) : Walker :=
  { w with
    items := w.items.take n.items
    labels := w.labels.take n.labels
    points := w.points.take n.points
    pend := n.pend
    bodies := n.bodies
    cur := some { addr := n.addr, abs := n.abs, frames := n.frames, force := false } }

/-- Words of the walk's items so far, with the branches that are out of reach long (R323, R325). -/
def Walker.size (w : Walker) (c : Source) : Nat :=
  itemWords w.items (relax c.out w.labels w.items (w.items.length + 1) [])

/-- Whether every transfer of some new items to an address outside the source code can reach it, by JAL at
the least (R323). -/
def Walker.inReach (w : Walker) (c : Source) (l : List Item) : Bool :=
  l.zipIdx.all (fun i =>
    let at_ := w.size c + i.2
    match i.1 with
    | .jump _ (.addr a) => (jumpWords 0#5 at_ (targetAt c.out w.labels [] 0 (.addr a))).isSome
    | .branch _ _ _ (.addr a) => (jumpWords 0#5 (at_ + 1) (targetAt c.out w.labels [] 0 (.addr a))).isSome
    | _ => true)

/-- The earliest LOOP of the loops that pending points lie in. -/
def pendLoop (l : List Pend) : Option Nat :=
  l.foldl (fun m p =>
    match m, p.frames.getLast? with
    | none, some f => some f.snap
    | some n, some f => some (min n f.snap)
    | m, none => m) none

/-- Taking back until no pending point lies in a loop body (R325). -/
def Walker.settle : Nat → Walker → Walker
  | 0, w => w
  | fuel + 1, w =>
    match (pendLoop w.pend).bind (fun n => w.snaps[n]?) with
    | none => w
    | some n => Walker.settle fuel (w.takeBack n)

/-- The fallback of R325: the place is the point itself or the outermost LOOP; there and at every
pending point a jump to the original code is emitted, and the walk ends. -/
def Walker.fallback (w : Walker) (c : Source) (p : Path) : Walker :=
  let w := { w with cur := some p, partial_ := true }
  let w := match (p.frames.getLast?).bind (fun f => w.snaps[f.snap]?) with
    | some n => w.takeBack n
    | none => w
  let w := Walker.settle (w.snaps.length + 1) w
  let leave (w : Walker) (a : Nat) (x : Abs) : Walker :=
    let l := ((matAll c.acc x).1).map Item.word ++ [.jump 0#5 (.addr a)]
    if w.code = 0 ∧ w.inReach c l = true then w.emit l else w.status (if w.code = 0 then 5 else w.code)
  let w := match w.cur with
    | some p => leave w p.addr p.abs
    | none => w
  let w := w.pend.foldl (fun w q =>
    leave { w with labels := w.labels ++ [(q.label, w.items.length)] } q.addr q.abs) w
  { w with cur := none, pend := [], ended := true }

/-- Emits a block if the output budget holds it; otherwise the innermost unrolled loop is taken back
and emitted rolled, or the walk falls back (R324, R325). A transfer in it that not even JAL can reach ends
the walk with FAR (R323). -/
def Walker.block (w : Walker) (c : Source) (p : Path) (l : List Item) (k : Walker → Walker) : Walker :=
  if (w.emit l).size c ≤ c.outb then
    if w.inReach c l then k (w.emit l) else w.status 5
  else
    match p.frames.find? (fun f => !f.rolled) with
    | some f =>
      match w.snaps[f.snap]? with
      | some n =>
        let w := { w.takeBack n with partial_ := true }
        { w with cur := w.cur.map (fun q => { q with force := true }) }
      | none => w.fallback c p
    | none => ({ w with outOver := true } : Walker).fallback c p

/-- A path goes on sequentially after an instruction at `pc`; at the end of a rolled body it ends
there, with the registers the body writes materialised (R324). -/
def Walker.goOn (w : Walker) (c : Source) (pc next : Nat) (x : Abs) (fs : List SFrame) : Walker :=
  match advance pc next fs with
  | some gs => { w with cur := some { addr := flowTo next fs gs, abs := x, frames := gs, force := false } }
  | none =>
    match w.bodies with
    | [] => { w with cur := none }
    | b :: bs =>
      let p : Path := { addr := next, abs := x, frames := fs, force := false }
      let (m, _) := materialise x (fun n => decide (n < 32) && (absGet b.abs n).isNone)
      w.block c p (m.map Item.word) (fun w =>
        let w := w.resolve
        if w.pend.isEmpty && !b.joined then { w with cur := none }
        else
          w.block c p (if w.pend.isEmpty then [] else [.jump 0#5 (.label b.joinLabel)]) (fun w =>
            { w with cur := none, bodies := { b with joined := true } :: bs }))

/-- A path takes a transfer that has been removed (R323). -/
def Walker.follow (w : Walker) (c : Source) (p : Path) (target : Nat) : Walker :=
  if !c.has target then
    w.block c p ((matAll c.acc p.abs).1.map Item.word ++ [.jump 0#5 (.addr target)]) (fun w => { w with cur := none })
  else
    let gs := leaveFrames p.addr target p.frames
    match w.emitted target p.abs gs with
    | some l => w.block c p [.jump 0#5 (.label l)] (fun w => { w with cur := none })
    | none => { w with cur := some { addr := target, abs := p.abs, frames := gs, force := false } }

/-- What the words of a loop body or REP block write: the registers, or none for all of them; a REP may
write any of its rotated window (R324). -/
def sweepWrites (i : Option Instr) : Option (List SReg) :=
  match i with
  | none => none
  | some (.jal _ d) => if d = 0#5 then some [] else none
  | some (.jalr _ _ _) => none
  | some (.callh _ _) => none
  | some (.trap _) => none
  | some (.brk _) => none
  | some (.rep _ _ _ _) => some ([16, 17, 18, 19, 20, 21, 22, 23].map (fun k => BitVec.ofNat 5 k))
  | some i => some (Instr.dest i)

/-- A sweep over the instructions of [a, stop): each address with its words and instruction; none
where one does not lie in it whole. `fuel` bounds the words. -/
def sweep (c : Source) (stop : Nat) : Nat → (a : Nat) → SrcM (Option (List (Nat × List Word × Option Instr)))
  | 0, _, k => .ok (some [], k)
  | fuel + 1, a, k =>
    if stop ≤ a then .ok (some [], k)
    else
      match sourceInstr c a k with
      | .error e => .error e
      | .ok (([], _), k) => .ok (none, k)
      | .ok ((ws, i), k) =>
        let n := if i.isNone then 1 else ws.length
        if stop < a + 4 * n then .ok (none, k)
        else
          match sweep c stop fuel (a + 4 * n) k with
          | .error e => .error e
          | .ok (none, k) => .ok (none, k)
          | .ok (some l, k) => .ok (some ((a, ws, i) :: l), k)

/-- The target of a pc-relative transfer. -/
def relTarget {n : Nat} (a : Nat) (off : BitVec n) : Nat := ((a : Int) + 4 * off.toInt).toNat

/-- Condition, operands and offset of a branch. -/
def branchParts : Instr → Option (Nat × SReg × SReg × BitVec 11)
  | .beq o b a => some (0, b, a, o)
  | .bne o b a => some (1, b, a, o)
  | .blt o b a => some (2, b, a, o)
  | .bge o b a => some (3, b, a, o)
  | .bltu o b a => some (4, b, a, o)
  | .bgeu o b a => some (5, b, a, o)
  | _ => none

/-- Whether a branch condition holds (R181). -/
def condHolds (cond : Nat) (x y : DWord) : Bool :=
  match cond with
  | 0 => x == y
  | 1 => x != y
  | 2 => x.slt y
  | 3 => !x.slt y
  | 4 => x.ult y
  | _ => !x.ult y

/-- Whether an instruction ends a path (R323). -/
def endsPath : Instr → Bool
  | .jalr _ _ d => d == 0#5
  | .callh _ d => d == 0#5
  | .reth _ => true
  | .rdone _ => true
  | .hexit _ => true
  | .eret => true
  | _ => false

/-- Whether an instruction of a body [start, stop) may leave it, so that the body is not rolled
(R324). -/
def leavesBody (start stop a : Nat) (i : Instr) : Bool :=
  let out (t : Nat) : Bool := !(decide (start ≤ t) && decide (t < stop))
  endsPath i ||
    match branchParts i, i with
    | some (_, _, _, o), _ => out (relTarget a o)
    | none, .jal o d => d == 0#5 && out (relTarget a o)
    | none, _ => false

/-- A state of the walk kept at a LOOP. -/
def Walker.snapNow (w : Walker) (p : Path) : Walker × Nat :=
  let n : Snap := { addr := p.addr, abs := p.abs, frames := p.frames, items := w.items.length,
                    labels := w.labels.length, points := w.points.length, pend := w.pend, bodies := w.bodies }
  ({ w with snaps := w.snaps ++ [n] }, w.snaps.length)

/-- A LOOP is emitted rolled, or the walk falls back (R324). -/
def Walker.roll (w : Walker) (c : Source) (p : Path) (stop : Nat) (a : SReg) : Walker :=
  let start := p.addr + 4
  match sweep c stop 16384 start w.reads with
  | .error e => w.ask e
  | .ok (none, k) => ({ w with reads := k } : Walker).fallback c p
  | .ok (some is, k) =>
    let w := { w with reads := k }
    if 16383 < (stop - start) / 4 ∨ is.any (fun i => match i.2.2 with
        | some j => leavesBody start stop i.1 j
        | none => false) then w.fallback c p
    else
      let all := is.any (fun i => (sweepWrites i.2.2).isNone)
      let writes (n : Nat) : Bool := all || is.any (fun i => ((sweepWrites i.2.2).getD []).any (fun r => r.toNat == n))
      let reads (n : Nat) : Bool := is.any (fun i => match i.2.2 with
        | some j => (Instr.reads j).any (fun r => r.toNat == n)
        | none => false)
      let (m, x) := materialise p.abs (fun n => n == a.toNat || reads n || writes n)
      let x := (List.range 32).foldl (fun x n => if writes n then absSet x n none else x) x
      let (w, sn) := w.snapNow p
      let f : SFrame := { rolled := true, start := start, stop := stop, left := 1, snap := sn }
      w.block c p (m.map Item.word ++ [.loop a w.nextLabel]) (fun w =>
        let b : Body := { pend := w.pend, first := w.items.length, stopLabel := w.nextLabel,
                          joinLabel := w.nextLabel + 1, joined := false, stop := stop, abs := x, frames := p.frames,
                          frame := f }
        if start = stop then { w with bodies := b :: w.bodies, pend := [], nextLabel := w.nextLabel + 2, cur := none }
        else
          { w with bodies := b :: w.bodies, pend := [], nextLabel := w.nextLabel + 2,
                   cur := some { addr := start, abs := x, frames := f :: p.frames, force := false } })

/-- A LOOP (R324). -/
def Walker.loop (w : Walker) (c : Source) (p : Path) (imm : BitVec 15) (a : SReg) (early : Bool) : Walker :=
  let start := p.addr + 4
  let stop := ((start : Int) + 4 * imm.toInt).toNat
  let count := absVal p.abs a
  if imm.toInt < 0 ∨ c.stop < stop then
    if early = true ∧ count = some 0#64 then w.goOn c p.addr stop p.abs p.frames else w.fallback c p
  else if early && !p.force then
    match count with
    | none => w.status 1
    | some v =>
      if v = 0#64 ∨ start = stop then w.goOn c p.addr stop p.abs p.frames
      else
        let (w, sn) := w.snapNow p
        let f : SFrame := { rolled := false, start := start, stop := stop, left := v.toNat, snap := sn }
        { w with cur := some { addr := start, abs := p.abs, frames := f :: p.frames, force := false } }
  else w.roll c p stop a

/-- The n instructions of a REP block from an address on: words and instructions, none where they run
past the end of the source code. -/
def repBlock (c : Source) : Nat → (a : Nat) → SrcM (Option (List (Nat × List Word × Option Instr)))
  | 0, _, k => .ok (some [], k)
  | n + 1, a, k =>
    if !c.has a then .ok (none, k)
    else
      match sourceInstr c a k with
      | .error e => .error e
      | .ok (([], _), k) => .ok (none, k)
      | .ok ((ws, i), k) =>
        match repBlock c n (a + 4 * ws.length) k with
        | .error e => .error e
        | .ok (none, k) => .ok (none, k)
        | .ok (some l, k) => .ok (some ((a, ws, i) :: l), k)

/-- The end of the source code is reached at an address (R323). -/
def Walker.atEnd (w : Walker) (c : Source) (p : Path) : Walker :=
  let (m, _) := matAll c.acc p.abs
  w.block c p (m.map Item.word ++ [.jump 0#5 (.addr p.addr)]) (fun w => { w with cur := none })

/-- A REP and its block, verbatim (R324). -/
def Walker.rep (w : Walker) (c : Source) (p : Path) (ws : List Word) (n : Nat) : Walker :=
  match repBlock c n (p.addr + 4) w.reads with
  | .error e => w.ask e
  | .ok (none, k) => ({ w with reads := k } : Walker).atEnd c p
  | .ok (some l, k) =>
    let words := (l.map (fun i => i.2.1.length)).foldl (fun a b => a + b) 0
    match bindBytes c words (p.addr + 4) k with
    | .error e => w.ask e
    | .ok (ms, k) =>
      let w := { w with reads := k }
      if ms.any (fun m => m != 0) then w.status 1
      else
        let (m, x) := matAll c.acc p.abs
        let dests := (l.flatMap (fun i => (i.2.2.map Instr.dest).getD [])) ++
          ([16, 17, 18, 19, 20, 21, 22, 23].map (fun k => BitVec.ofNat 5 k))
        w.block c p ((m ++ ws ++ l.flatMap (fun i => i.2.1)).map Item.word) (fun w =>
          ({ w with steps := w.steps + l.length } : Walker).goOn c p.addr
            (p.addr + 4 + 4 * words) (forget x dests) p.frames)

/-- A branch with EC = 0 (R323). -/
def Walker.branch (w : Walker) (c : Source) (p : Path) (cond : Nat) (b a : SReg) (target : Nat) : Walker :=
  let next := p.addr + 4
  if !c.has target then
    let (m, x) := matAll c.acc p.abs
    w.block c p (m.map Item.word ++ [.branch cond b a (.addr target)]) (fun w => w.goOn c p.addr next x p.frames)
  else
    let (m, x) := matRegs p.abs [a, b]
    let gs := leaveFrames p.addr target p.frames
    match w.emitted target x gs, w.pend.find? (fun q => q.addr == target && q.abs == x && q.frames == gs) with
    | some l, _ =>
      w.block c p (m.map Item.word ++ [.branch cond b a (.label l)]) (fun w => w.goOn c p.addr next x p.frames)
    | none, some q =>
      w.block c p (m.map Item.word ++ [.branch cond b a (.label q.label)]) (fun w => w.goOn c p.addr next x p.frames)
    | none, none =>
      let pending := (w.pend.length) + (w.bodies.map (fun d => d.pend.length)).foldl (fun a b => a + b) 0
      if 64 ≤ pending then
        -- a 65th pending point counts as an exhausted output budget here
        w.block { c with outb := 0 } p [.word 0#32] id
      else
        w.block c p (m.map Item.word ++ [.branch cond b a (.label w.nextLabel)]) (fun w =>
          ({ w with nextLabel := w.nextLabel + 1,
                    pend := w.pend ++ [{ addr := target, abs := x, frames := gs, label := w.nextLabel }] } : Walker).goOn
            c p.addr next x p.frames)

/-- A transfer of a kind that R323 names, or none of them. -/
def Walker.transfer (w : Walker) (c : Source) (p : Path) (ws : List Word) (i : Instr) (early : Bool) : Option Walker :=
  let next := p.addr + 4 * ws.length
  let (m, x) := matAll c.acc p.abs
  let linked (it : List Item) : Walker :=
    w.block c p (m.map Item.word ++ it) (fun w => w.goOn c p.addr next absNone p.frames)
  match branchParts i, i with
  | some (cond, b, a, o), _ =>
    let target := relTarget p.addr o
    if early then
      match absVal p.abs a, absVal p.abs b with
      | some u, some v =>
        if condHolds cond u v then some (w.follow c p target)
        else some (w.goOn c p.addr next p.abs p.frames)
      | _, _ => some (w.status 1)
    else some (w.branch c p cond b a target)
  | none, .jal o d =>
    let target := relTarget p.addr o
    if d = 0#5 then some (w.follow c p target)
    else some (linked [.jump d (match w.emitted target x p.frames with
      | some l => .label l
      | none => .addr target)])
  | none, .jalr _ _ d => if d = 0#5 then none else some (linked (ws.map Item.word))
  | none, .callh _ d => if d = 0#5 then none else some (linked (ws.map Item.word))
  | none, .trap _ => some (linked (ws.map Item.word))
  | none, .brk _ => some (linked (ws.map Item.word))
  | none, .loop imm a => some (w.loop c p imm a early)
  | none, .rep _ _ _ n => some (w.rep c p ws n.toNat)
  | none, _ => none

/-- Whether an instruction divides by a known zero in its width (R322). -/
def zeroDivisor (x : Abs) (i : Instr) : Bool :=
  let known (w : Bool) (b : Operand) : Bool :=
    let v : Option DWord := match b with
      | .reg r => absVal x r
      | .lit32 v => some (v.signExtend 64)
      | .lit64 v => some v
    match v with
    | some v => if w then v.setWidth 32 == 0#32 else v == 0#64
    | none => false
  match i with
  | .div w _ _ b => known w b
  | .divu w _ _ b => known w b
  | .rem w _ _ b => known w b
  | .remu w _ _ b => known w b
  | _ => false

/-- One visited word (R322), its bind byte `m` and those of the words after it. -/
def Walker.visit (w : Walker) (c : Source) (p : Path) (ws : List Word) (i : Option Instr) (m : Nat) (later : List Nat) :
    Walker :=
  let w0 := ws.headD 0#32
  let bad := w.status 1
  let ea := m % 2 == 1
  let eb := m / 2 % 2 == 1
  let er := m / 4 % 2 == 1
  let ec := m / 8 % 2 == 1
  let out (l : List Word) (x : Abs) (next : Nat) : Walker :=
    w.block c p (l.map Item.word) (fun w => w.goOn c p.addr next x p.frames)
  if m / 16 ≠ 0 ∨ (i.isSome ∧ later.any (fun b => b != 0)) then bad
  else
    match i with
    | none =>
      if m ≠ 0 then bad
      else out ((matAll c.acc p.abs).1 ++ [w0]) absNone (p.addr + 4)
    | some i =>
      let next := p.addr + 4 * ws.length
      let srcKnown := (Instr.reads i).all (fun r => (absVal p.abs r).isSome)
      if (ea && ((markA w0).bind (absVal p.abs)).isNone) || (eb && ((markB w0).bind (absVal p.abs)).isNone) then bad
      else if er && ((foldable i).isNone || !srcKnown) then bad
      else if ec && (branchParts i).isNone && (match i with
          | .loop _ _ => false
          | _ => true) then bad
      else if zeroDivisor p.abs i then
        let (l, x) := matRegs p.abs (Instr.reads i)
        w.block c p ((l ++ ws).map Item.word) (fun w =>
          ({ w with deferred := true } : Walker).goOn c p.addr next (forget x (Instr.dest i)) p.frames)
      else if er then
        let x := (Instr.dest i).foldl (fun x d =>
          absSet x d.toNat ((foldValue p.abs i).map (fun v => (v, false)))) p.abs
        w.goOn c p.addr next x p.frames
      else if endsPath i then
        w.block c p (((matAll c.acc p.abs).1 ++ ws).map Item.word) (fun w => { w with cur := none })
      else
        match w.transfer c p ws i ec with
        | some w => w
        | none =>
          let (l, x) := matRegs p.abs (Instr.reads i)
          out (l ++ ws) (forget x (Instr.dest i)) next

/-- Words of a rolled body as it is laid out. -/
def Walker.bodyWords (w : Walker) (c : Source) (first : Nat) : Nat :=
  let long := relax c.out w.labels w.items (w.items.length + 1) []
  itemWords (w.items.drop first) (long.filter (fun i => decide (first ≤ i)))

/-- The body of a rolled loop is closed: a no-operation where paths join or nothing was emitted, and
its end label; one that is too long is not rolled, and the walk falls back at its LOOP (R324). -/
def Walker.close (w : Walker) (c : Source) (b : Body) (bs : List Body) : Walker :=
  let p : Path := { addr := b.stop, abs := b.abs, frames := b.frame :: b.frames, force := false }
  let w := if b.joined then { w with labels := w.labels ++ [(b.joinLabel, w.items.length)] } else w
  w.block c p (if b.joined ∨ w.items.length = b.first then [.word 3#32] else []) (fun w =>
    if 16383 < w.bodyWords c b.first then w.fallback c p
    else
      ({ w with labels := w.labels ++ [(b.stopLabel, w.items.length)], bodies := bs, pend := b.pend } : Walker).goOn c
        (b.stop - 4) b.stop b.abs b.frames)

/-- One action of the walk. -/
def Walker.act (w : Walker) (c : Source) : Walker :=
  match w.cur with
  | none =>
    match w.pend with
    | [] =>
      match w.bodies with
      | [] => { w with ended := true }
      | b :: bs => w.close c b bs
    | q :: qs =>
      let k := c.pick (w.steps + w.items.length) % (qs.length + 1)
      let q := (q :: qs).getD k q
      let w := { w with pend := w.pend.filter (fun r => r.label != q.label) }
      match w.emitted q.addr q.abs q.frames with
      | some l => { w with labels := w.labels ++ [(q.label, labelAt w.labels l)] }
      | none =>
        { w with
          labels := w.labels ++ [(q.label, w.items.length)]
          cur := some { addr := q.addr, abs := q.abs, frames := q.frames, force := false } }
  | some p =>
    if !c.has p.addr then w.atEnd c p
    else if !p.force && decide (c.stepb ≤ w.steps) then ({ w with stepOver := true } : Walker).fallback c p
    else
      match sourceInstr c p.addr w.reads with
      | .error e => w.ask e
      | .ok (([], _), k) => ({ w with reads := k } : Walker).atEnd c p
      | .ok ((ws, i), k) =>
        match bindBytes c ws.length p.addr k with
        | .error e => w.ask e
        | .ok (ms, k) =>
          let w := { w with reads := k }
          let w := if (w.emitted p.addr p.abs p.frames).isSome then w
            else
              { w with points := w.points ++ [(p.addr, p.abs, p.frames, w.nextLabel)],
                       labels := w.labels ++ [(w.nextLabel, w.items.length)], nextLabel := w.nextLabel + 1 }
          let w := if p.force then w else { w with steps := w.steps + 1 }
          w.visit c p ws i (ms.headD 0) ms.tail

/-- The walk, at most `fuel` actions. -/
def Walker.run : Nat → Walker → Source → Walker
  | 0, w, _ => w
  | fuel + 1, w, c => if w.ended then w else Walker.run fuel (w.act c) c

/-- The walk at its start (R321): the early registers known and not present. -/
def Walker.start (entry : Nat) (early : List (Nat × DWord)) : Walker :=
  { items := [], labels := [], points := [], pend := [], bodies := [], snaps := [],
    cur := some { addr := entry, abs := early.foldl (fun x e => absSet x e.1 (some (e.2, false))) absNone,
                  frames := [], force := false },
    nextLabel := 0, steps := 0, deferred := false, partial_ := false, outOver := false, stepOver := false,
    code := 0, ended := false, reads := 0, need := none }

/-! ## SPEC as an operation (R318 to R320, R325 to R327) -/

/-- SPECCTL in range (R319). -/
def specctlOk (v : DWord) : Bool :=
  let n := v.toNat
  let outb := nbits n 32 17
  nbits n 49 15 == 0 && nbits n 24 8 == 0 && decide (1 ≤ outb) && decide (outb ≤ 65536) && n % 2 ^ 24 != 0

/-- The checks of SPEC at acceptance (R318). -/
def specChk (sX sY sZ : SReg) (s : State) : Option (Nat × DWord) :=
  firstBad [
    (if chOk (s.reg sX) then none else some (0x0B, s.reg sX)),
    (if (s.reg sY).toNat % 8 = 0 then none else some (0x03, s.reg sY)),
    (if (s.reg sZ).toNat % 16 = 0 then none else some (0x03, s.reg sZ)),
    (if specctlOk s.me.specctl then none else some (0x0A, s.me.specctl)),
    (if s.mine.ph = 1#2 then some (0x06, 0#64) else none)]

/-- SPEC (R318). -/
def execSpec (o : EOrd) (sX sY sZ : SReg) (s : State) : Out :=
  childOp (.spec o sX sY sZ) o (specChk sX sY sZ)
    (fun s p => { p with xv := s.reg sX, yv := s.reg sY, zv := s.reg sZ, csr := s.me.specctl }) s

/-- Who acts on the pool for an operation. -/
def Op.actor (o : Op) : Actor := { lv := o.level, core := o.core, pasid := o.pasid, now := false }

/-- OUTB of an operation. -/
def Op.outb (o : Op) : Nat := nbits o.csr.toNat 32 17

/-- STEPB of an operation. -/
def Op.stepb (o : Op) : Nat := o.csr.toNat % 2 ^ 24

/-- Granules that R320 allocates. -/
def Op.granules (o : Op) : Nat := (4 * (o.outb + 94 * 65) + 255) / 256

/-- A pool as an operation keeps it. -/
def poolNums (p : Pool) : List Nat := [p.base, p.nent, p.ngran, p.hdr]

/-- The pool that an operation has read (R320). -/
def Op.pool (o : Op) : Pool :=
  match o.res with
  | [base, nent, ngran, hdr] :: _ => { base := base, nent := nent, ngran := ngran, hdr := hdr }
  | _ => { base := 0, nent := 0, ngran := 0, hdr := 0 }

/-- The search for a run of `need` free granules goes through the bits of one bitmap word, from granule `g` on,
`run` free ones behind it: the run's first granule, or how many stand free behind the next word. -/
def scanBits (v need ngran : Nat) : Nat → (g run : Nat) → Except Nat Nat
  | 0, _, run => .ok run
  | fuel + 1, g, run =>
    if need ≤ run then .error (g - run)
    else if ngran ≤ g then .ok run
    else if nbit v (g % 64) then scanBits v need ngran fuel (g + 1) 0
    else scanBits v need ngran fuel (g + 1) (run + 1)

/-- INFO (R326). -/
def specInfo (steps words : Nat) (outOver stepOver deferred part : Bool) (code : Nat) : Nat :=
  min steps (2 ^ 24 - 1) * 2 ^ 40 + words * 65536 + b2n outOver * 2048 + b2n stepOver * 1024 + b2n deferred * 512
    + b2n part * 256 + code

/-- The record of R326 as two 8-byte writes; then the operation is done. -/
def specRecord (s : State) (o : Op) (handle info : Nat) : UnitRes :=
  match engWrite s o o.zv.toNat (leBytes 8 handle) (fun _ => false) false with
  | ((_, some (x, a)), s) => engFail s (.err x a) 0xFFFF o.prog
  | ((w1, none), s) =>
    match engWrite s o (o.zv.toNat + 8) (leBytes 8 info) (fun _ => false) false with
    | ((_, some (x, a)), s) => engFail s (.err x a) 0xFFFF o.prog
    | ((w2, none), s) => .go s { o with pend := w1 ++ w2, pos := [9] }

/-! ### What a SPEC gives back (R320, R327) -/

/-- What comes once a SPEC has given back what it holds: a record without a handle, a fault, the end of a
cancelled one, or another search for granules. -/
inductive SpecEnd where
  | status (info : Nat)
  | fault (cause addr : Nat)
  | cancelled
  | again
  deriving DecidableEq, Repr

/-- The numbers that an operation keeps of it. -/
def SpecEnd.nums : SpecEnd → List Nat
  | .status info => [0, info, 0]
  | .fault cause addr => [1, cause, addr]
  | .cancelled => [2, 0, 0]
  | .again => [3, 0, 0]

/-- It as the numbers tell it. -/
def SpecEnd.ofNums : List Nat → SpecEnd
  | [0, info, _] => .status info
  | [1, cause, addr] => .fault cause addr
  | [2, _, _] => .cancelled
  | _ => .again

/-- A run of granules that is given back: those left from the first on, whether USED counts them, and how many
have had their bits cleared. -/
structure GiveRun where
  first : Nat
  left : Nat
  counted : Bool
  cleared : Nat
  deriving DecidableEq, Repr

/-- The numbers that an operation keeps of it. -/
def GiveRun.nums (r : GiveRun) : List Nat := [r.first, r.left, b2n r.counted, r.cleared]

/-- It as the numbers tell it. -/
def GiveRun.ofNums (l : List Nat) : GiveRun :=
  { first := l.getD 0 0, left := l.getD 1 0, counted := l.getD 2 0 != 0, cleared := l.getD 3 0 }

/-- The granules that a SPEC holds. -/
def heldRun (g n : Nat) : List GiveRun := [{ first := g, left := n, counted := true, cleared := 0 }]

/-- A SPEC begins to give back what it holds: the granules of some runs, then the reference when `ref_` holds;
`e` comes after that (R320, R327). -/
def specGive (s : State) (o : Op) (ref_ : Bool) (runs : List GiveRun) (e : SpecEnd) : UnitRes :=
  .go s { o with pos := [14], res := poolNums o.pool :: (b2n ref_ :: e.nums) :: runs.map GiveRun.nums }

/-- A SPEC gives back one more bitmap word's granules, or lowers USED by those of a run, or releases its
reference, each as one action (R316). What lies in a part of the pool that is unusable stays as it is (log 46). -/
def specGiveBack (s : State) (o : Op) : UnitRes :=
  let e := o.res.getD 1 []
  let left (s : State) (rs : List (List Nat)) : UnitRes := .go s { o with res := poolNums o.pool :: e :: rs }
  match o.res.drop 2 with
  | [] =>
    if e.headD 0 = 0 then .go s { o with pos := [15] }
    else
      match releaseRef s o.actor o.pool o.xv with
      | (some .later, s) => .wait s
      | (some .poison, s) => .poison s
      | (_, s) => .go s { o with pos := [15] }
  | l :: rs =>
    let r := GiveRun.ofNums l
    if r.left = 0 then
      left (if r.counted && r.cleared != 0 then addUsed s o.actor o.pool (-(r.cleared : Int)) else s) rs
    else
      match bitmapHome s o.actor o.pool r.first with
      | (.error .later, s) => .wait s
      | (.error .poison, s) => .poison s
      | (.error _, s) => left s ({ r with left := 0 }.nums :: rs)
      | (.ok h, s) =>
        let (k, m) := granuleBits r.first r.left
        left (setBits s o.actor false h m)
          ({ r with first := r.first + k, left := r.left - k, cleared := r.cleared + k }.nums :: rs)

/-- A SPEC has given back what it held. -/
def specGaveBack (s : State) (o : Op) : UnitRes :=
  match SpecEnd.ofNums ((o.res.getD 1 []).drop 1) with
  | .status info => specRecord s o 0 info
  | .fault cause addr => .fault s cause addr 0xFFFF o.prog
  | .cancelled =>
    .fin s { o with fin := some { st := .cancelled, cause := 0x45, addr := 0, member := 0xFFFF, progress := o.prog } }
  | .again => .go s { o with pos := [10, 0, 0], res := [poolNums o.pool] }

/-- A SPEC that ends with a status and no handle (R320): the record is written when what it holds is given
back. -/
def specStatus (s : State) (o : Op) (ref_ : Bool) (runs : List GiveRun) (info : Nat) : UnitRes :=
  specGive s o ref_ runs (.status info)

/-- What the pool's header, the entry of s[sX] or the bitmap makes of a SPEC when it is unusable (R313). -/
def specNoPool (s : State) (o : Op) (e : XErr) (ref_ : Bool) (runs : List GiveRun) (info : Nat) : UnitRes :=
  match e with
  | .later => .wait s
  | .poison => .poison s
  | _ => specStatus s o ref_ runs (info + 6)

/-- A SPEC that meets a fault ends FAULTED once what it holds is given back (R327); an uncorrectable error makes
its launch job-fatal (R75). -/
def specFault (s : State) (o : Op) (e : EngRes) (runs : List GiveRun) : UnitRes :=
  match e with
  | .later => .wait s
  | .got _ => .wait s
  | .poison => .poison s
  | .err .later _ => .wait s
  | .err .poison _ => .poison s
  | .err x a => specGive s o true runs (.fault x.opCause a)

/-- A cancelled SPEC gives back what it holds (R327). -/
def specCancel (s : State) (o : Op) (ref_ : Bool) (runs : List GiveRun) : UnitRes :=
  specGive s o ref_ runs .cancelled

/-! ### The steps of a SPEC -/

/-- Residual words are written from word `k` on, 4 at a time, into pages the specialiser may write
(R313, R327). -/
def specWrites (s : State) (o : Op) (base : Nat) (words : List Nat) (k : Nat) : Except (XErr × Nat) EngWrite × State :=
  let l := (words.drop k).take 4
  let va := base + 4 * k
  match poolPlace s o.actor va with
  | (.error x, s) => (.error (x, va), s)
  | (.ok h, s) =>
    (.ok { va := va, home := h, bytes := l.flatMap (fun w => leBytes 4 w), fill := [], chk := none, unit := false,
           cnt := 0 }, s)

/-- The early registers of a mask with their values, the k-th set bit taking the k-th value (R320). -/
def earlyRegs (mask : Nat) (vals : List DWord) : List (Nat × DWord) :=
  (((List.range 16).filter (fun k => nbit mask k)).zip vals)

/-- A read of the walk as an operation keeps it, and as the walk sees it. -/
def SrcRead.ofNums (l : List Nat) : SrcRead := { addr := l.getD 0 0, len := l.getD 1 0, val := l.getD 2 0 }

/-- The source code of a SPEC (R320), from what it keeps in `scr`: the header's address, the entry, the
accessible count, the code words, the .bind offset, the EARLY mask and the early values; the reads of the walk
follow the pool in `res`. -/
def specSource (o : Op) (out : Nat) (pick : Nat → Nat) : Source :=
  let f (k : Nat) : Nat := o.scr.getD k 0
  { base := f 0 + 64
    words := f 3
    bind := if f 4 = 0 then none else some (f 0 + f 4)
    log := o.res.tail.map SrcRead.ofNums
    out := out
    acc := f 2
    outb := o.outb
    stepb := o.stepb
    pick := pick }

/-- The walk of a SPEC as far as the reads go that it has made. -/
def specWalk (o : Op) (c : Source) : Walker :=
  Walker.run (8 * (c.stepb + 256)) (Walker.start (o.scr.getD 1 0) (earlyRegs (o.scr.getD 5 0) ((o.scr.drop 6).map dw))) c

/-- A SPEC's order of pending points: free values of the operation (log 34). -/
def specPick (o : Op) (k : Nat) : Nat := Config.specOrder o.id k

/-- Step 2 of R320: the reference on the entry of s[sX], as one action (R316). -/
def specRef (s : State) (o : Op) : UnitRes :=
  let st (s : State) (code : Nat) : UnitRes := specStatus s o false [] code
  if o.pool.nent ≤ chIdx o.xv then st s 3
  else
    match poolEntry s o.actor o.pool (chIdx o.xv) with
    | (.error x, s) => specNoPool s o x false [] 0
    | (.ok (h, e), s) =>
      if e.gen ≠ chGen o.xv ∨ e.state ≠ 1 ∨ e.kind ≠ 0 then st s 3
      else if e.refs = 2 ^ 32 - 1 then st s 7
      else .go (putEntry s o.actor h { e with refs := e.refs + 1 }) { o with pos := [1], scr := [e.source, e.base] }

/-- Steps 3 and 4 of R320: the header and the early values. A SOURCE that is not a multiple of 64
fails R46 (DESIGN CHOICE, log 43: R320 does not name the address among what it reads there). -/
def specPrepare (s : State) (o : Op) (n : Nat) : UnitRes :=
  let src := o.scr.getD 0 0
  match engRead s o n src 64 with
  | (.got bs, s) =>
    match if src % 64 = 0 then parseHeader bs else none with
    | none => specStatus s o true [] 2
    | some h =>
      let acc := accOf h.regs
      if (List.range 16).any (fun k => nbit h.early k && decide (acc ≤ k)) then specStatus s o true [] 2
      else
        let cnt := ((List.range 16).filter (fun k => nbit h.early k)).length
        match if cnt = 0 then (EngRes.got [], s) else engRead s o n o.yv.toNat (8 * cnt) with
        | (.got vs, s) =>
          let vals := (List.range cnt).map (fun k => leNat ((vs.drop (8 * k)).take 8))
          .go s { o with pos := [10, 0, 0], scr := [src, o.scr.getD 1 0, acc, h.code, h.bind, h.early] ++ vals }
        | (f, s) => specFault s o f []
  | (f, s) => specFault s o f []

/-- Step 5 of R320, the search: one word of the bitmap, from granule `g` on with `run` free granules behind it
(R262, R316). -/
def specScan (s : State) (o : Op) (g run : Nat) : UnitRes :=
  let claim (s : State) (r : Nat) : UnitRes := .go s { o with pos := [11, r, 0] }
  if o.pool.ngran ≤ g then
    if o.granules ≤ run then claim s (g - run) else specStatus s o true [] 4
  else
    match bitmapHome s o.actor o.pool g with
    | (.error x, s) => specNoPool s o x true [] 0
    | (.ok h, s) =>
      match scanBits (readLe s h 8) o.granules o.pool.ngran 64 g run with
      | .error r => claim s r
      | .ok run => .go s { o with pos := [10, min (g + 64) o.pool.ngran, run] }

/-- Step 5 of R320, the allocation: the `k` first granules of the run from `r` on are taken, and one more word's
now, as one action (R316). Where another specialiser has taken one in the meantime, what is taken goes back and
the search begins again (DESIGN CHOICE, log 46). -/
def specClaim (s : State) (o : Op) (r k : Nat) : UnitRes :=
  if o.granules ≤ k then .go (addUsed s o.actor o.pool o.granules) { o with pos := [2, r, o.granules] }
  else
    let taken : List GiveRun := [{ first := r, left := k, counted := false, cleared := 0 }]
    match bitmapHome s o.actor o.pool (r + k) with
    | (.error x, s) => specNoPool s o x true taken 0
    | (.ok h, s) =>
      let (c, m) := granuleBits (r + k) (o.granules - k)
      if readLe s h 8 &&& m ≠ 0 then specGive s o false taken .again
      else .go (setBits s o.actor true h m) { o with pos := [11, r, k + c] }

/-- One read of the walk, or its end (R321 to R327). A cancel takes effect before the next visited
instruction. -/
def specVisit (s : State) (o : Op) (n g gn : Nat) : UnitRes :=
  let c := specSource o (o.pool.base + o.pool.data + 256 * g) (specPick o)
  let w := specWalk o c
  let o := { o with prog := w.steps }
  match w.need with
  | some (a, len) =>
    if o.cancel then specCancel s o true (heldRun g gn)
    else
      match engRead s o n a len with
      | (.got bs, s) => .go s { o with res := o.res ++ [[a, len, leNat bs]] }
      | (f, s) => specFault s o f (heldRun g gn)
  | none =>
    let info (words code : Nat) : Nat := specInfo w.steps words w.outOver w.stepOver w.deferred w.partial_ code
    if w.code ≠ 0 then specStatus s o true (heldRun g gn) (info 0 w.code)
    else
      match layout c.out w.labels w.items with
      | none => specStatus s o true (heldRun g gn) (info 0 5)
      | some ws =>
        if 64 * gn < ws.length then specStatus s o true (heldRun g gn) (info 0 4)
        else .go s { o with pos := [3, g, gn, 0], scr := ws.map BitVec.toNat, res := [poolNums o.pool, [info ws.length 0]] }

/-- The end of a walk without a failure (R325): the unused granules of a run, from the `k`-th on, go back, one
word of the bitmap at a time, and USED is lowered. -/
def specTrim (s : State) (o : Op) (g gn k : Nat) : UnitRes :=
  let used := (4 * o.scr.length + 255) / 256
  if gn ≤ k then
    .go (if gn = used then s else addUsed s o.actor o.pool (-((gn - used : Nat) : Int))) { o with pos := [6, g, used, 0] }
  else
    match bitmapHome s o.actor o.pool (g + k) with
    | (.error x, s) =>
      specNoPool s o x true
        (heldRun g used ++ [{ first := g + k, left := gn - k, counted := true, cleared := k - used }])
        ((o.res.getD 1 []).headD 0)
    | (.ok h, s) =>
      let (c, m) := granuleBits (g + k) (gn - k)
      .go (setBits s o.actor false h m) { o with pos := [4, g, gn, k + c] }

/-- The entry of index `k`, as the search for a FREE one reads it: a fault there ends the operation (R327). -/
def specEntry (s : State) (o : Op) (g gn k : Nat) (f : Nat → PEnt → State → UnitRes) : UnitRes :=
  let va := o.pool.base + 64 + 32 * k
  match poolAt s o.actor va 32 with
  | (.error x, s) => specFault s o (.err x va) (heldRun g gn)
  | (.ok h, s) => f h (PEnt.ofBytes (memRead h 32 s.mem)) s

/-- The search for the lowest-indexed FREE entry, one entry a step (R325). With none the status is NOSPACE, the
words having been written. -/
def specSearch (s : State) (o : Op) (g gn k : Nat) : UnitRes :=
  if o.pool.nent ≤ k then specStatus s o true (heldRun g gn) ((o.res.getD 1 []).headD 0 + 4)
  else
    specEntry s o g gn k (fun _ e s => .go s { o with pos := [if e.state = 0 then 7 else 6, g, gn, if e.state = 0 then k else k + 1] })

/-- The FREE entry becomes the residual code's, and the record is written (R325, R326). No entry is made where
the record's write faults, at the window that it goes through included (R55, R327): a record that a window
checks is performed with the entry. -/
def specMake (s : State) (o : Op) (g gn k : Nat) : UnitRes :=
  specEntry s o g gn k (fun h e s =>
    if e.state ≠ 0 then .go s { o with pos := [6, g, gn, k + 1] }
    else
      let gen := if e.gen = 0 then 1 else e.gen
      let new : PEnt :=
        { gen := gen, state := 1, kind := 1, pins := 0, refs := 1, length := o.scr.length,
          base := o.pool.base + o.pool.data + 256 * g, source := o.xv.toNat }
      match specRecord s o (chMake gen k).toNat ((o.res.getD 1 []).headD 0) with
      | .go s p =>
        match p.pend.find? (fun w => !chkOk s o.pasid w.chk) with
        | some w => specGive s o true (heldRun g gn) (.fault 0x41 w.va)
        | none =>
          let s := putEntry s o.actor h new
          if p.pend.all (fun w => w.chk.isNone) then .go s p
          else .go (performAll (engFlush s p) o.die) { p with pend := [] }
      | .fault s c a _ _ => if c = 0 then .wait s else specGive s o true (heldRun g gn) (.fault c a)
      | r => r)

/-- One unit of a SPEC (R320 to R327): 0 the pool, 8 the reference, 1 the header and values, 10 and 11 the
granules, 2 the walk, 3 the residual words, 4 the granules left over, 6 and 7 the entry and the record, 14 and
15 what is given back, 9 the end. -/
def specUnit (s : State) (o : Op) (n : Nat) : UnitRes :=
  let g := o.pos.getD 1 0
  let gn := o.pos.getD 2 0
  let k := o.pos.getD 3 0
  match o.pos.getD 0 0 with
  | 0 =>
    if o.cancel then specCancel s o false []
    else
      match openPool s o.actor o.rcb.toNat (o.rcs.toNat % 2 ^ 32) with
      | (.error x, s) => specNoPool s o x false [] 0
      | (.ok p, s) => .go s { o with pos := [8], res := [poolNums p] }
  | 8 => if o.cancel then specCancel s o false [] else specRef s o
  | 1 => if o.cancel then specCancel s o true [] else specPrepare s o n
  | 10 => if o.cancel then specCancel s o true [] else specScan s o g gn
  | 11 => specClaim s o g gn
  | 2 => specVisit s o n g gn
  | 3 =>
    if o.scr.length ≤ k then .go (performAll s o.die) { o with pos := [4, g, gn, (4 * o.scr.length + 255) / 256] }
    else
      match specWrites s o (o.pool.base + o.pool.data + 256 * g) o.scr k with
      | (.error (x, a), s) => specFault s o (.err x a) (heldRun g gn)
      | (.ok w, s) => .go s { o with pos := [3, g, gn, k + 4], pend := [w] }
  | 4 => specTrim s o g gn k
  | 6 => specSearch s o g gn k
  | 9 => .fin s o
  | 14 => specGiveBack s o
  | 15 => specGaveBack s o
  | _ => specMake s o g gn k

end Sys2Proof.Machine
end

