-- ==== Sys2Proof/Machine/EngineRun.lean ====
section
/-! DEFINITION. Engines at work: which operation starts next, the units of work of a running one, and
the action that makes it final (spec/06 R132 to R138, R152, spec/05 R110, R111, spec/09 R208, R221,
spec/11 R269, R270). -/

namespace Sys2Proof.Machine
open Sys2Proof

/-! ## Engines and their places -/

/-- The class of an engine (R137). -/
def engCls : EngineId → Nat
  | .matrix _ => 0
  | .copy _ => 1
  | .eddy _ => 2
  | .quant _ => 3
  | .weir _ => 4
  | .coll _ => 5
  | .spec _ => 6

/-- The core, cluster, compute die or base die that an engine belongs to. -/
def engNum : EngineId → Nat
  | .matrix c => c
  | .copy c => c
  | .eddy t => t
  | .quant c => c
  | .weir c => c
  | .coll c => c
  | .spec d => d

/-- Whether the module has an engine. -/
def engExists (s : State) (e : EngineId) : Bool :=
  decide (engNum e < (match engCls e with
    | 0 => 64 * s.ndies
    | 2 => 32
    | 6 => s.ndies
    | _ => 8 * s.ndies))

/-- The base die whose applier takes an operation: that of the descriptor's home (R10, R99). One whose
descriptor has no home in HBM5 faults at whichever takes it (log 22). -/
def binStack (s : State) (o : Op) : Nat :=
  match (pagedNow s o.level o.pasid .load o.xv.toNat).1 with
  | .ok (.home h _) => if h < 2 ^ 41 then stackOf h else 0
  | _ => 0

/-- The core, cluster, compute die or base die whose engine runs an operation (R10, R137). -/
def unitOf (s : State) (o : Op) : Nat :=
  match opClass o.instr with
  | 0 => o.core
  | 2 => o.base.elim (binStack s o) (fun b => b - 64)
  | 6 => dieOfCore o.core
  | _ => clusterOfCore o.core

/-- Whether an operation belongs to an engine of class `cls` and unit `u`. -/
def onEngine (s : State) (cls u : Nat) (o : Op) : Bool := !o.vec && opClass o.instr == cls && unitOf s o == u

/-- The running operations that hold a place of an engine. -/
def placed (s : State) (cls u : Nat) : List Op := s.ops.filter (fun o => onEngine s cls u o && o.st == .running && o.place)

/-- Whether an operation of a matrix unit stands in its compute place (R208): it forms tiles, and none
that took its place earlier does. -/
def inCompute (s : State) (o : Op) : Bool :=
  (match o.pos with
   | [2, _] => true
   | _ => false) && !computeBehind s o

/-- Whether an engine has a place (R110, R208, R236, R242, R252, R318): copies and collectives share
four; an applier takes commands as they arrive (R99); a matrix unit starts into its load place. -/
def placeFree (s : State) (cls u : Nat) : Bool :=
  match cls with
  | 0 => (placed s 0 u).all (inCompute s)
  | 1 => decide ((placed s 1 u).length + (placed s 5 u).length < 4)
  | 2 => true
  | 3 => (placed s 3 u).isEmpty
  | 4 => decide ((placed s 4 u).length < 2)
  | 5 => decide ((placed s 1 u).length + (placed s 5 u).length < 4)
  | _ => (placed s 6 u).isEmpty

/-! ## Starting (R138) -/

/-- The list an operation stands in: its context, or, for a member part, the list of parts that
follows the core's contexts (R221). -/
def listKey (o : Op) : Nat := if o.parent.isSome then o.core * 16 + 11 else o.ctx

/-- The order in a list: issue order, or arrival order for parts. -/
def listOrder (o : Op) : Nat := if o.parent.isSome then o.seq else o.id

/-- Whether two operations stand in one list: one context of one launch, or the parts of one core. -/
def sameList (p o : Op) : Bool := listKey p == listKey o && p.launch == o.launch

/-- Whether an attached operation is saved with its owner's context, and in no engine queue (R147). -/
def savedOp (s : State) (o : Op) : Bool := o.parent.isNone && o.attached && !launchOn s o.homeCore o

/-- Whether a pre-emption point keeps a queued attached operation from starting (R346). -/
def heldBack (s : State) (o : Op) : Bool :=
  let cl := s.cluster (clusterOfCore o.homeCore)
  o.parent.isNone && o.attached &&
    ((cl.gather.isSome && cl.preq.any (fun r => r.launch == o.launch)) ||
      cl.saving.any (fun v => v.req.launch == o.launch))

/-- Whether an operation is ready, but for a place (R138, R221). One of a job-fatal launch never is (R133). -/
def readyOp (s : State) (o : Op) : Bool := o.waits.isEmpty && !heldBack s o && !launchDead s o.launch

/-- Whether an operation stands in its list: a member part does once its B has arrived (R221), a saved
operation does not (R147). -/
def inList (s : State) (o : Op) : Bool := if o.parent.isSome then o.pos == [1] else !savedOp s o

/-- The ready heads of the lists of an engine at a priority. -/
def readyHeads (s : State) (cls u pri : Nat) : List Op :=
  let q := s.ops.filter (fun o =>
    onEngine s cls u o && o.st == .queued && o.fin.isNone && o.pri == pri && inList s o)
  q.filter (fun o => readyOp s o && !q.any (fun p => sameList p o && decide (listOrder p < listOrder o)))

/-- The heads at the highest priority that has a ready one, with that priority. -/
def topHeads (s : State) (cls u : Nat) : Option (Nat × List Op) :=
  ([3, 2, 1, 0] : List Nat).findSome? (fun p =>
    match readyHeads s cls u p with
    | [] => none
    | l => some (p, l))

/-- The round-robin pointers of an engine, by priority: one more than the list served last. -/
def rrOf (s : State) (cls u : Nat) : Tbl Nat :=
  match cls with
  | 0 => (s.core u).mxRr
  | 1 => (s.cluster u).rrCopy
  | 2 => tget s.eddyRr u []
  | 3 => (s.cluster u).rrQnt
  | 4 => (s.cluster u).rrWeir
  | 5 => (s.cluster u).rrColl
  | _ => (s.die u).specRr

/-- Sets the round-robin pointers of an engine. -/
def setRr (s : State) (cls u : Nat) (t : Tbl Nat) : State :=
  match cls with
  | 0 => s.modCore u (fun c => { c with mxRr := t, mxOn := true })
  | 1 => s.modCluster u (fun c => { c with rrCopy := t })
  | 2 => { s with eddyRr := tset u t s.eddyRr }
  | 3 => s.modCluster u (fun c => { c with rrQnt := t })
  | 4 => s.modCluster u (fun c => { c with rrWeir := t })
  | 5 => s.modCluster u (fun c => { c with rrColl := t })
  | _ => s.modDie u (fun d => { d with specRr := t })

/-- The head whose list comes first from a number on, or from 0. -/
def firstFrom (p : Nat) (l : List Op) : Option Op :=
  let least (m : List Op) : Option Op := m.foldl (fun b o =>
    match b with
    | none => some o
    | some x => if listKey o < listKey x then some o else some x) none
  match least (l.filter (fun o => decide (p ≤ listKey o))) with
  | some o => some o
  | none => least l

/-- An operation becomes RUNNING: its order at the start (R266, R270), a place, and for an applier's its base
die (R99). The release of an MMAG is made by its own start, not by its parts'. -/
def startOp (s : State) (o : Op) : State :=
  let base := if opClass o.instr = 2 then some (64 + binStack s o) else none
  let s := startOrder s { o with rel := o.rel && o.parent.isNone, base := base }
  { s.modOp o.id (fun p =>
      { p with st := .running, base := base, place := true, startNo := s.stamp, placeNo := s.stamp, since := s.cycle }) with
    stamp := s.stamp + 1 }

/-- ENGINE_START: an engine with a place starts the operation that R138 chooses. -/
def execEngineStart (e : EngineId) (s : State) : Out :=
  if !engExists s e then .fault .noSuchUnit
  else if !placeFree s (engCls e) (engNum e) then .next s
  else
    match topHeads s (engCls e) (engNum e) with
    | none => .next s
    | some (p, l) =>
      let t := rrOf s (engCls e) (engNum e)
      match firstFrom (tget t p 0) l with
      | none => .next s
      | some o => .next (startOp (setRr s (engCls e) (engNum e) (tset p (listKey o + 1) t)) o)

/-! ## Stepping (R269) -/

/-- Whether an operation is an MMAG at its issuer. -/
def isGang (o : Op) : Bool :=
  match o.instr, o.parent with
  | .mmag _ _ _ _ _ _ _ _, none => true
  | _, _ => false

/-- Whether a running operation needs a place for its next unit: an MMAG that has sent its B does not
(R221). -/
def needsPlace (o : Op) : Bool := !(isGang o && o.pos == [1])

/-- The 64-byte boundary of PROGRESS at which a cancel takes effect (R152). -/
def cancelBound (o : Op) : Nat := (o.cancelAt + 63) / 64 * 64

/-- Whether an operation is inside a tile: its operands are being read (R223). -/
def inTile (o : Op) : Bool :=
  (match o.pos with
   | [2, _] => true
   | _ => false) && !o.got.isEmpty

/-- Whether the applier's unit at hand of a SCADD or BFLUSH has made a write. -/
def binWrote (o : Op) : Bool := o.got.any (fun t => t.2.any (fun p => p.2.isEmpty))

/-- Whether a SCADD or BFLUSH stands at a boundary of its progress, of `n`, at or after the cancel, with no write
made of what follows it (R152). -/
def binBoundary (o : Op) (n : Nat) : Bool := o.prog % n == 0 && decide (o.cancelAt ≤ o.prog) && !binWrote o

/-- Whether a cancel takes effect now (R152), no write being pended: at the boundary of the operation's
progress. SCADD counts entries, and its 64-byte boundary is taken as 8 entries (DESIGN CHOICE, log 45). An
MMAG and a SPEC see to it in their own units. -/
def cancelDue (s : State) (o : Op) : Bool :=
  if o.parent.isSome then (o.parent.bind s.op?).any (fun p => p.cancel) && !inTile o
  else if !o.cancel then false
  else
    match opClass o.instr with
    | 0 => !isGang o && !inTile o
    | 1 => decide (cancelBound o ≤ o.prog)
    | 2 =>
      match o.instr with
      | .scadd _ _ _ _ => binBoundary o 8
      | _ => binBoundary o 64
    | 3 => o.got.isEmpty
    | 4 =>
      match o.instr with
      | .wcommit _ _ _ _ _ _ => o.pos.headD 0 % 16 == 0
      | _ => true
    | 6 => false
    | _ => true

/-- How a cancelled operation ends (R152); no member has faulted, so MEMBER names none (R137). -/
def cancelEnd (o : Op) : Final :=
  { st := .cancelled, cause := 0x45, addr := 0, member := 0xFFFF, progress := o.prog }

/-- One unit of work of an operation (R269). -/
def opUnit (s : State) (o : Op) (n : Nat) : UnitRes :=
  match o.instr with
  | .copy _ _ _ _ _ _ => copyUnit s o n
  | .copym _ _ _ _ => copymUnit s o n
  | .pack _ _ _ _ => packUnit s o n true
  | .unpack _ _ _ _ => packUnit s o n false
  | .scadd _ _ _ _ => scaddUnit s o n
  | .bflush _ _ => bflushUnit s o
  | .mma ovw _ _ _ _ => mmaUnit s o n ovw
  | .mmag ovw _ _ _ _ _ _ _ => if o.parent.isSome then partUnit s o n ovw else mmagUnit s o n
  | .qntQ4uni _ _ _ => qntUnit s o n 0
  | .qntQ4e2m1 _ _ _ => qntUnit s o n 1
  | .qntQ4pow _ _ _ => qntUnit s o n 2
  | .qntQ4hyb _ _ _ => qntUnit s o n 3
  | .qntQ4auto _ _ _ => qntUnit s o n 4
  | .dqnt _ _ _ => dqntUnit s o n
  | .qchk _ _ => qchkUnit s o n
  | .winit _ _ _ => winitUnit s o
  | .wprobe _ _ _ _ => wprobeUnit s o n
  | .wcommit _ _ _ _ _ _ => wcommitUnit s o n
  | .wpick _ _ _ _ => wpickUnit s o n
  | .wrd _ _ _ _ => wrdUnit s o n
  | .allred _ _ _ _ _ _ => collUnit s o n
  | .redscat _ _ _ _ _ _ => collUnit s o n
  | .allgath _ _ _ _ _ => collUnit s o n
  | .bcast _ _ _ _ _ _ => collUnit s o n
  | .alltoall _ _ _ _ _ => collUnit s o n
  | .spec _ _ _ _ => specUnit s o n
  | _ => .wait s

/-- An operation meets an uncorrectable error: its launch is job-fatal (R75). -/
def poisonOp (s : State) (o : Op) : State := s.markFatal o.launch { cause := 0x48, core := o.core, frec := [] }

/-- An operation's unit is over: its new fields, with an end if one is decided; what the unit has read is
dropped. Cause 0x48 is an uncorrectable error: the launch is job-fatal and no end is kept (R75, R133). -/
def endUnit (s : State) (o p : Op) (f : Option Final) : State :=
  let fin := match p.fin with
    | some g => some g
    | none => f
  if fin.any (fun g => g.cause == 0x48) then poisonOp s o
  else ioClear (s.modOp o.id (fun _ => { p with fin := fin, got := terase s.rdKey p.got })) (.op o.id)

/-- What a unit makes of the state. -/
def takeUnit (o : Op) : UnitRes → State
  | .wait s => s
  | .go s p => endUnit s o p none
  | .fin s p => endUnit s o p (some { st := .done, cause := 0, addr := 0, member := 0xFFFF, progress := p.prog })
  | .fault s c a m pr =>
    if c = 0 then s else
    endUnit s o ((s.op? o.id).getD o) (some { st := .faulted, cause := c, addr := a, member := m, progress := pr })
  | .poison s => poisonOp s o

/-- Whether the channel of a far write has failed (R361). -/
def farDead (s : State) (pasid h : Nat) : Bool :=
  match farWin? s pasid ((h - farBase) / 2 ^ 32) with
  | none => false
  | some f => (theChannel s f.rmod 0).failed

/-- Whether two writes of a tile or a collective fall into one granule, which is written whole (R218,
R258). -/
def mates (o : Op) (w x : EngWrite) : Bool :=
  (opClass o.instr == 0 || opClass o.instr == 5) && x.home / 16 == w.home / 16

/-- An operation whose far write cannot be made ends at its address, and writes nothing more (R71, R361). -/
def farStop (o : Op) (w : EngWrite) (p : Op) : Op :=
  decideEnd { st := .faulted, cause := 0x41, addr := farVa w.home, member := 0xFFFF, progress := o.prog }
    { p with pend := [] }

/-- The first pending writes of an operation, into one granule: performed, queued or sent; they wait while
their channel is full, and one on a failed channel ends the operation (R361). -/
def popWrite (s : State) (o : Op) (w : EngWrite) (r : List EngWrite) : State :=
  if farBase ≤ w.home && farDead s o.pasid w.home then
    s.modOp o.id (farStop o w)
  else if farBase ≤ w.home && !farReady s o.pasid w.home then s
  else
    let now := w :: r.takeWhile (mates o w)
    match if farBase ≤ w.home then farWhole s o.pasid o.id w.home w.bytes else (some (some w.bytes), s) with
    | (none, s) => s
    | (some none, s) => s.modOp o.id (farStop o w)
    | (some (some bs), s) =>
      let s := ioTaken (s.modOp o.id (fun p =>
        { p with pend := r.drop (now.length - 1), prog := p.prog + (now.map EngWrite.cnt).sum })) o.id (w.home / 16 * 16)
      (now.drop 1).foldl (fun s x => engPerform s o true x.bytes x) (engPerform s o false bs w)

/-- Whether an instruction is a WPROBE. -/
def isProbe : Instr → Bool
  | .wprobe _ _ _ _ => true
  | _ => false

/-- The write that a cancelled copy may still make (R111, R152): the first that is pended, cut at the
boundary; none at the boundary. A block is written whole, and so are the elements of a COPYM at every
member once the first has them. A cancelled WPROBE writes no further gain (R251). -/
def cutWrite (o : Op) (w : EngWrite) : Option EngWrite :=
  if isProbe o.instr ∧ o.cancel = true then none
  else if opClass o.instr = 1 ∧ o.cancel = true ∧ hFmt o.hC ≠ 9 then
    if w.cnt = 0 then some w
    else if cancelBound o ≤ o.prog then none
    else if w.cnt = w.bytes.length ∧ cancelBound o < o.prog + w.cnt then
      some { w with bytes := w.bytes.take (cancelBound o - o.prog), cnt := cancelBound o - o.prog, unit := false }
    else some w
  else some w

/-- Whether a started operation may take a place again: one is free, and no operation that started
earlier waits for it (R110, R213). -/
def mayRetake (s : State) (o : Op) : Bool :=
  let cls := opClass o.instr
  let u := unitOf s o
  placeFree s cls u &&
    !s.ops.any (fun p => onEngine s cls u p && p.st == .running && !p.place && p.want.isNone && p.fin.isNone &&
      cls != 5 && needsPlace p && decide (p.startNo < o.startNo))

/-- An operation goes on with the unit of key `k`, up to its next access; each step draws a free number for
what R270 leaves open. -/
def runUnit (s : State) (o : Op) (k : Nat) (unit : State → Op → Nat → UnitRes) : State :=
  let (n, s) := s.free
  takeUnit o (unit { s with rdKey := k, rdAt := 0 } o n)

/-- A step of a running operation of an engine (R269). -/
def opStep (s : State) (o : Op) : State :=
  match o.pend with
  | w :: r =>
    match cutWrite o w with
    | some w => popWrite s o w r
    | none => s.modOp o.id (fun p => { p with pend := [], want := none, fin := some (cancelEnd o) })
  | [] =>
    if o.fin.isSome then s
    else if cancelDue s o then s.modOp o.id (decideEnd (cancelEnd o))
    else if o.want.isSome then s
    else if o.place || !needsPlace o then runUnit s o 0 opUnit
    else if mayRetake s o then
      let o := { o with place := true, placeNo := s.stamp }
      runUnit { s.modOp o.id (fun _ => o) with stamp := s.stamp + 1 } o 0 opUnit
    else s

/-- ENGINE_STEP: a running operation's next access (R262, R269); of a vector instruction with no write
pended, one of the `k`-th strip that the lane groups hold. -/
def execEngineStep (id k : Nat) (s : State) : Out :=
  match s.op? id with
  | none => .next s
  | some o =>
    if o.st ≠ .running then .next s
    else if o.vec then
      match o.pend, o.scr[k]? with
      | w :: r, _ => .next (popWrite s o w r)
      | [], none => .next s
      | [], some t => if o.fin.isSome then .next s else .next (runUnit s o t (fun s o n => stripUnit s o n t))
    else .next (opStep s o)

/-! ## Completion (R134, R136) -/

/-- Whether frames of an operation are still unacknowledged on a channel that has not failed (R363). -/
def framesOut (s : State) (id : Nat) : Bool :=
  s.channels.any (fun c => !c.failed && c.unacked.any (fun f => f.op == id))

/-- A member part ends: its MMAG keeps the result, and the staging buffer is free (R221, R223). -/
def completePart (s : State) (o : Op) (parent : Nat) (f : Final) : State :=
  match s.op? parent with
  | none => dropOp s o.id
  | some p =>
    let (s, p) := endPart s p o (partResult o.mrank f.st.code f.cause f.addr f.progress)
    s.modOp parent (fun _ => p)

/-- An operation whose end is decided becomes final, and its ring slots are given back (R121, R123), once
one that it has claimed is there to release. One of a job-fatal launch stays as it is (R133). -/
def completeOp (s : State) (o : Op) (f : Final) : State :=
  if launchDead s o.launch then s else
  let s := ioClear { s with farReads := s.farReads.filter (fun r => r.op != o.id) } (.op o.id)
  match o.parent with
  | some p => completePart s o p f
  | none =>
    match endSlots s o with
    | some s => s
    | none => finalise (ringEnd s o) o.id (if opClass o.instr = 5 then { f with progress := o.prog } else f)

/-- OPERATION_COMPLETION: an operation whose end is decided becomes final, its writes and every older entry
of its die's queues performed first (R269; a window check that fails there decides the end anew, R73); one
that is final has its record posted where R136 asks for it. -/
def execOperationCompletion (id : Nat) (s : State) : Out :=
  match s.op? id with
  | none => .next s
  | some o =>
    if o.st.final then .next (postOp s id)
    else
      match o.fin with
      | none => .next s
      | some _ =>
        if !o.pend.isEmpty || framesOut s id then .next s
        else
          let s := performAll s o.die
          match s.op? id with
          | none => .next s
          | some o =>
            match o.fin with
            | none => .next s
            | some f => .next (completeOp s o f)

end Sys2Proof.Machine
end

