-- ==== Sys2Proof/Machine/Queue.lean ====
section
/-! DEFINITION. Submissions to hardware queues: QSUB, QSTAT, host kicks, held packets and the
policy core's changes (spec/12 R278 to R281, R309, spec/15 R356, R374). -/

namespace Sys2Proof.Machine
open Sys2Proof

/-! ## Reads of the Headgate, which a host page may delay (R69) -/

/-- What a read by the Headgate gives: bytes, the address of a fault, or nothing yet. -/
inductive IoRes where
  | got (bs : List Byte)
  | fault (va : Nat)
  | later
  deriving DecidableEq, Repr

/-- One access of the Headgate at a home, of bytes inside a granule: what an earlier step has read is there; what
none has is read now, and the reader goes on in its next step (R262, R274). A poisoned unit gives no data: it
is met as a fault, and the policy core is told (R75). -/
def ioHome (s : State) (owner : IoOwner) (h k va : Nat) : IoRes × State :=
  match s.ioGot.find? (fun p => p.owner == owner && p.addr == h && p.bytes.any (fun bs => bs.length == k)) with
  | some p => (.got (p.bytes.getD []), s)
  | none =>
    if poisoned s h k then (.fault va, s.report (.uncorrectable 0 (h / 64)))
    else (.later, { s with ioGot := s.ioGot ++ [{ owner := owner, addr := h, bytes := some (memRead h k s.mem) }] })

/-- Bytes read so far, with what comes after them. -/
def IoRes.after (acc : List Byte) : IoRes → IoRes
  | .got bs => .got (acc ++ bs)
  | r => r

/-- Reads `n` bytes from `va` on, in a PASID: at their homes one granule a step, and over the link in pieces
inside aligned 64-byte units; `fuel` bounds the pieces (R69, R262, R278, R309, R414). -/
def ioRead : Nat → State → (owner : IoOwner) → (pasid va n : Nat) → IoRes × State
  | 0, s, _, _, _, _ => (.got [], s)
  | fuel + 1, s, owner, pasid, va, n =>
    if n = 0 then (.got [], s)
    else
      let (k, r, s) : Nat × IoRes × State :=
        match pagedNow s .io pasid .load va with
        | (.ok (.home h _), s) => (min (16 - va % 16) n, ioHome s owner h (min (16 - va % 16) n) va)
        | (.ok (.pcie h _), s) =>
          let k := min (64 - va % 64) n
          match ioPcie s owner pasid h k va with
          | (some (some bs), s) => (k, .got (bs.take k), s)
          | (some none, s) => (k, .fault va, s)
          | (none, s) => (k, .later, s)
        | (_, s) => (0, .fault va, s)
      match r with
      | .got bs =>
        let (r, s) := ioRead fuel s owner pasid (va + k) (n - k)
        (r.after bs, s)
      | r => (r, s)

/-- A read of `n` bytes at `va` for an owner. -/
def ioBytes (s : State) (owner : IoOwner) (pasid va n : Nat) : IoRes × State := ioRead (n / 16 + 2) s owner pasid va n

/-- The home of a store of the Headgate in a PASID (R63, R69), if it may be made. -/
def ioStore (s : State) (pasid va : Nat) : Option Nat :=
  match (pagedNow s .io pasid .store va).1 with
  | .ok (.home h _) => some h
  | .ok (.pcie h _) => some h
  | _ => none

/-! ## Acceptance (R281) -/

/-- A packet of QSUB enters the ring of an ACTIVE queue (R281): the status. -/
def acceptPacket (s : State) (key : Nat) (q : Qcb) (h : Held) : Nat × State :=
  if (q.tail + 65536 - q.head) % 65536 = q.size then (4, s)
  else
    let va := q.ring + 64 * (q.tail % q.size)
    match ioStore s (keyPasid key) va with
    | none => (7, s.report (.fault key q.tail va))
    | some a =>
      let s := perform s 96 (keyPasid key) a h.packet [] none true
      let s := qsetTail s key (q.tail + 1)
      let f : FromQsub := { key := key, ringIdx := q.tail, launch := h.launch, rank := h.rank }
      (0, { s with fromQsub := s.fromQsub.filter (fun x => !(x.key == key && x.ringIdx == q.tail)) ++ [f] })

/-- A kick moves TAIL of an ACTIVE queue (R281): the status. -/
def acceptKick (s : State) (key : Nat) (q : Qcb) (tail : Nat) : Nat × State :=
  let d := (tail + 65536 - q.head) % 65536
  if q.size < d ∨ d < (q.tail + 65536 - q.head) % 65536 then (5, s)
  else (0, qsetTail s key tail)

/-- What QSTAT writes (R309). -/
def qstatOf (q : Qcb) : DWord := dw (q.state * 2 ^ 40 + (q.tail + 65536 - q.head) % 65536)

/-- The held packets, which are at most 64 (R281); a lookup of QSTAT that waits is no packet. -/
def heldCount (s : State) : Nat := (s.held.filter (fun h => decide (h.kind ≠ .qstat))).length

/-- A submission to a queue whose QCB is known: its status; one to a PARKED queue is held, if there is room
(R281). So a kick to such a queue answers HELD or NACK_BUSY also where its TAIL would answer ACCEPTED without a
change, or BADTAIL: R281 gives these no precedence (DESIGN CHOICE, log 47). -/
def submitTo (s : State) (q : Qcb) (h : Held) : Nat × State :=
  if q.state = 1 then
    if 64 ≤ heldCount s then (3, s)
    else (6, { s with held := s.held ++ [{ h with src := none, blocked := false, asked := false }] })
  else if h.kind = .kick then acceptKick s h.key q h.tail
  else acceptPacket s h.key q h

/-- What the policy core answers when no QCB has a key (R279). -/
def noQueue (s : State) (key : Nat) : Nat :=
  if s.liveGen.any (fun p => p.1 == keyPasid key && p.2.1 == keyQnum key) then 1 else 2

/-- Whether the module answers the host: powered, and not stopped by its life cycle (R368). -/
def hostOn (s : State) : Bool := s.power && !s.stopped

/-- Whether a reclaim is running (R373, R374). -/
def reclaiming (s : State) : Bool := s.reclaimState != 0#3 && s.reclaimState != 4#3

/-! ## QSUB and QSTAT (R309) -/

/-- The key that a queue operand names, if its other bits are zero (R309). -/
def operandKey (s : State) (v : DWord) : Option Nat :=
  if v.toNat / 2 ^ 28 != 0 then none
  else some (qkey s.mine.pasid (v.toNat % 4096) (v.toNat / 4096 % 65536))

/-- A lookup goes to the policy core, for a context that waits (R279). -/
def askPolicy (i : Instr) (h : Held) (s : State) : State :=
  let (id, s) := s.fresh
  let s := { s with held := s.held ++ [{ h with id := id, src := some s.cur, asked := true }] }
  waitFor i (.lookup id none) 0 s

/-- A submission of the core that issues, without its packet. -/
def heldOf (s : State) (kind : HeldKind) (key : Nat) (bs : List Byte) : Held :=
  { id := 0, kind := kind, key := key, tail := 0, packet := bs, src := none, blocked := false,
    asked := false, launch := s.mine.launch.getD 0, rank := s.mine.rank }

/-- QSUB (R281, R309). -/
def execQsub (d a b : SReg) (s : State) : Out :=
  run (.qsub d a b) s (fun s =>
    let i : Instr := .qsub d a b
    match s.me.wait with
    | some { what := .lookup _ none, .. } => .next s
    | some { what := .lookup _ (some r), .. } => done i d r s
    | _ =>
      match operandKey s (s.reg b) with
      | none => trap i 0x0A (s.reg b) s
      | some key =>
        load i (s.reg a) 64 8 64 s (fun bs s =>
          let h := heldOf s .qsub key bs
          let s := tellLookup s key
          match qbucket s key with
          | some n =>
            let (st, s) := submitTo s (bucketQcb s n) h
            done i d (dw st) s
          | none =>
            if 64 ≤ heldCount s then done i d 3#64 s
            else if s.holder = .utonauz then
              let (id, s) := s.fresh
              done i d 6#64 { s with held := s.held ++ [{ h with id := id, asked := true }] }
            else .next (askPolicy i h s)))

/-- QSTAT (R309). A lookup that needs the policy core waits for it (DEDUCED, log 19). -/
def execQstat (d a : SReg) (s : State) : Out :=
  run (.qstat d a) s (fun s =>
    let i : Instr := .qstat d a
    match s.me.wait with
    | some { what := .lookup _ none, .. } => .next s
    | some { what := .lookup _ (some r), .. } => done i d r s
    | _ =>
      match operandKey s (s.reg a) with
      | none => trap i 0x0A (s.reg a) s
      | some key =>
        let s := tellLookup s key
        match qbucket s key with
        | some n => done i d (qstatOf (bucketQcb s n)) s
        | none => .next (askPolicy i (heldOf s .qstat key []) s))

/-! ## Host kicks (R281, R356) -/

/-- KICKSTAT after a kick is served (R356). -/
def kickServed (s : State) (st : Nat) : State :=
  { s with kickSeq := s.kickSeq + 1#32, kickStatus := BitVec.ofNat 8 st }

/-- Whether the host has written PDIRBASE, PDIRCOUNT and QTBASE since the reset (R385). -/
def tablesSet (s : State) : Bool := ([0x18, 0x20, 0x28] : List Nat).all (fun r => s.setUp.contains r)

/-- Serves a kick: KICKSTAT, or a lookup that waits for the policy core (R279, R281, R374). One that comes
before the tables are set up finds no queue (R385). -/
def serveKick (s : State) (k : KickReq) : State :=
  let h : Held := { heldOf s .kick k.key [] with tail := k.tail, launch := 0, rank := 0 }
  if reclaiming s || !tablesSet s then kickServed s 2
  else
    let s := tellLookup s k.key
    match qbucket s k.key with
    | some n =>
      let (st, s) := submitTo s (bucketQcb s n) h
      kickServed s st
    | none =>
      if 64 ≤ heldCount s then kickServed s 3
      else
        let (id, s) := s.fresh
        if s.holder = .utonauz then
          kickServed { s with held := s.held ++ [{ h with id := id, asked := true }] } 6
        else { s with held := s.held ++ [{ h with id := id, asked := true, blocked := true }] }

/-- Serves the accepted kicks in order, up to one whose lookup waits; at most `fuel` (R356). -/
def serveKicks : Nat → State → State
  | 0, s => s
  | fuel + 1, s =>
    if s.held.any Held.blocked then s
    else
      match s.kicks with
      | [] => s
      | k :: r => serveKicks fuel (serveKick { s with kicks := r } k)

/-- KICK: a host write of 8 bytes to KICK (R281): a service drain, an acquire, and the kick is
served in its turn. -/
def execKick (v : DWord) (s : State) : Out :=
  if !hostOn s then .next s
  else
    let w := v.toNat
    let s := svcDrain s
    let k : KickReq := { tail := w / 2 ^ 48, key := w % 2 ^ 48 }
    let s := { s with kicks := s.kicks ++ [k] }
    .next (serveKicks s.kicks.length s)

/-- The value of KICKSTAT (R356). -/
def kickstat (s : State) : DWord := dw (s.kickSeq.toNat * 2 ^ 32 + s.kickStatus.toNat)

/-- KICKSTAT_READ: answered once every kick accepted before it is served (R356). -/
def execKickstatRead (s : State) : Out :=
  if hostOn s && s.kicks.isEmpty && !s.held.any (fun h => h.blocked) then
    .next { s with bar2Out := s.bar2Out ++ [.data (leBytes 8 (kickstat s).toNat)] }
  else .next s

/-! ## The policy core's answers and changes (R279, R280, R281) -/

/-- A context that waits for a lookup learns its result. -/
def lookupResult (s : State) (h : Held) (r : DWord) : State :=
  match h.src with
  | none => if h.blocked then kickServed s r.toNat else s
  | some k =>
    s.modCtx k (fun c =>
      match c.wait with
      | some w => if w.what = .lookup h.id none then { c with wait := some { w with what := .lookup h.id (some r) } } else c
      | none => c)

/-- A held submission that no one waits for is appended, or dropped and told (R281). One that
meets a full ring or a bad TAIL is dropped (DEDUCED, log 20). -/
def appendHeld (s : State) (q : Qcb) (h : Held) : State :=
  match submitTo s q h with
  | (0, s) => s
  | (6, s) => s
  | (_, s) => s.report (.dropped h.key h.tail)

/-- Whether a packet whose lookup waits arrived before another of its queue (R281). -/
def askedBefore (s : State) (h : Held) : Bool :=
  decide (h.kind ≠ .qstat) && (s.held.takeWhile (fun x => x.id != h.id)).any (fun x =>
    x.key == h.key && x.asked && decide (x.kind ≠ .qstat))

/-- LOOKUP_ANSWER: the policy core answers a held lookup (R279); packets of one queue in their arrival
order (R281). A submission that is dropped has no ring index: what the policy core is told is the TAIL that a
kick asked for, and 0 of a QSUB (DESIGN CHOICE, log 47). -/
def execLookupAnswer (id : Nat) (s : State) : Out :=
  if s.holder = .utonauz then .next s
  else
    match takeFirst (fun h : Held => h.id == id && h.asked) s.held with
    | none => .next s
    | some (h, r) =>
      if askedBefore s h then .next s else
      let s := { s with held := r }
      let waits := h.src.isSome || h.blocked
      let s := match qcb? s h.key with
        | some q =>
          if h.kind = .qstat then lookupResult s h (qstatOf q)
          else if waits then
            let (st, s) := submitTo s q h
            lookupResult s h (dw st)
          else appendHeld s q h
        | none =>
          let st := noQueue s h.key
          if h.kind = .qstat then lookupResult s h (dw (st * 2 ^ 32))
          else if waits then lookupResult s h (dw st)
          else s.report (.dropped h.key h.tail)
      .next (serveKicks s.kicks.length s)

/-- The first bucket that a new queue may take among the eight of its key (R278, R279). -/
def freeBucket (s : State) (key : Nat) : Option Nat :=
  ((List.range 8).map (fun i => (homeBucket key + i) % 4096)).find? (fun b =>
    !nbit (readLe s (bucketAddr s b) 8) 63 && !poisoned s (bucketAddr s b) 64)

/-- The 64 bytes of a QCB of a new queue (R278). -/
def qcbBytes (key ring size statusq : Nat) : List Byte :=
  leBytes 8 (2 ^ 63 + key) ++ leBytes 8 ring ++ leBytes 4 size ++ leBytes 4 0 ++ leBytes 8 0
    ++ leBytes 8 statusq ++ leBytes 24 0

/-- A queue is created: in the table, or in the overflow list when none of its eight buckets is
free (R278, R279). -/
def createQueue (s : State) (key ring size statusq : Nat) : State :=
  let s := { s with liveGen := s.liveGen ++ [(keyPasid key, keyQnum key, keyGen key)] }
  match freeBucket s key with
  | some b => putBytes s (bucketAddr s b) (qcbBytes key ring size statusq)
  | none =>
    let o : Overflow := { key := key, ring := dw ring, size := size, head := 0, tail := 0, state := 0,
                          statusq := dw statusq }
    { s with overflow := s.overflow ++ [o] }

/-- A queue is parked (R278); what the Headgate has read of a head packet it reads again. -/
def parkQueue (s : State) (key : Nat) : State := ioClear (qsetState s key 1) .gate

/-- A queue is reinstated, and its held packets are appended in arrival order (R281, R414). -/
def reinstateQueue (s : State) (key : Nat) : State :=
  let mine := s.held.filter (fun h => h.key == key && !h.asked)
  let s := { qsetState s key 0 with
             held := s.held.filter (fun h => !(h.key == key && !h.asked))
             hgStopped := s.hgStopped.filter (fun k => k != key) }
  mine.foldl (fun s h =>
    match qcb? s key with
    | some q => appendHeld s q h
    | none => s) s

/-- A queue is destroyed, and what it holds unstarted is discarded (R278, R280). -/
def destroyQueue (s : State) (key : Nat) : State :=
  let mine := s.held.filter (fun h => h.key == key && !h.asked)
  let s := match qbucket s key with
    | some b => putBytes s (bucketAddr s b) (leBytes 8 (2 ^ 62))
    | none => s
  let s := { s with
    overflow := s.overflow.filter (fun o => o.key != key)
    liveGen := s.liveGen.filter (fun p => p != (keyPasid key, keyQnum key, keyGen key))
    held := s.held.filter (fun h => !(h.key == key && !h.asked))
    hgStopped := s.hgStopped.filter (fun k => k != key)
    fromQsub := s.fromQsub.filter (fun f => f.key != key) }
  let s := ioClear s .gate
  mine.foldl (fun s h => s.report (.dropped key h.tail)) s

/-- Whether a queue may be created (R278): firmware keeps queue numbers unique and its fields
valid. -/
def createOk (s : State) (pasid qnum gen ring size : Nat) : Bool :=
  decide (pasid < 2 ^ 20) && decide (qnum < 4096) && decide (gen < 65536) && ring % 64 == 0 &&
    decide (ring < 2 ^ 56) && decide (2 ≤ size) && decide (size ≤ 32768) && 2 ^ size.log2 == size &&
    !s.liveGen.any (fun p => p.1 == pasid && p.2.1 == qnum)

/-- QCB_CHANGE: the policy core creates, parks, reinstates or destroys a queue, as one action of
the Headgate (R280). Utonauz makes no change. -/
def execQcbChange (c : QueueChange) (s : State) : Out :=
  if s.holder = .utonauz then .next s
  else
    match c with
    | .create p q g ring size st =>
      if createOk s p q g ring size then .next (createQueue s (qkey p q g) ring size st) else .next s
    | .park p q g => if (qcb? s (qkey p q g)).isSome then .next (parkQueue s (qkey p q g)) else .next s
    | .reinstate p q g =>
      if (qcb? s (qkey p q g)).isSome then .next (reinstateQueue s (qkey p q g)) else .next s
    | .destroy p q g =>
      if (qcb? s (qkey p q g)).isSome then .next (destroyQueue s (qkey p q g)) else .next s

end Sys2Proof.Machine
end

