-- ==== Sys2Proof/Machine/Task.lean ====
section
/-! DEFINITION. Routines, deadlines, SLEEPTO and the range unit (spec/12 R303 to R306, R310,
R311). -/

namespace Sys2Proof.Machine
open Sys2Proof

/-- δ(x, y): the signed 48-bit difference (R305). -/
def delta (x y : DWord) : Int := ((x.setWidth 48) - (y.setWidth 48)).toInt

/-- Whether a routine queue entry is released (R305). -/
def Rtn.released (r : Rtn) (time : DWord) : Bool :=
  !r.relWord.getLsbD 63 || decide (0 ≤ delta time r.relWord)

/-! ## ENQ (R304) -/

/-- Whether two ranks of a launch share a group (R304). -/
def shareGroup (l : Launch) (a b : Nat) : Bool := l.groups.any (fun g => g.members.contains a && g.members.contains b)

/-- What the target core makes of a descriptor (R304): a status, and the state with the entry; none while the
header waits for a walk of the target's (R64). -/
def enqueueAt (s : State) (t : Nat) (mode : Nat) (hdr : DWord) (f : Header → Rtn) : Option Nat × State :=
  let c := s.core t
  if c.ctlExited then (some 5, s)
  else if hdr.toNat % 64 ≠ 0 then (some 2, s)
  else
    match locate s (.core t) t c.pasid .load hdr.toNat 64 with
    | (.error .later, s) => (none, s)
    | (.error .poison, s) => (some 2, poisonLaunch s t)
    | (.ok (.home h _), s) =>
      if poisoned s h 64 then (some 2, poisonLaunch s t)
      else match routineHeader (viewRead s (dieOfCore t) h 64) mode with
      | none => (some 2, s)
      | some x =>
        if 64 ≤ c.rq.length then (some 1, s)
        else (some 0, s.modCore t (fun c => { c with rq := c.rq ++ [f x] }))
    | (_, s) => (some 2, s)

/-- Whether a core takes no descriptor now: its cluster is switched out, or its share of the launch is being
saved (R346, R347; log 18, log 38). -/
def targetAway (s : State) (launch t : Nat) : Bool := (s.core t).launch != some launch || beingSaved s launch t

/-- ENQ (R303, R304), one try a step with the descriptor that it has loaded. A target whose cluster is switched
out answers once it is back (log 18). -/
def execEnq (d a b : SReg) (s : State) : Out :=
  run (.enq d a b) s (fun s =>
    let i : Instr := .enq d a b
    load i (s.reg a) 32 8 32 s (fun bs s =>
      let g (o : Nat) : DWord := dw (leNat ((bs.drop o).take 8))
      let r := (s.reg b).toNat
      match s.launchOf s.myCore with
      | none => done i d 4#64 s
      | some l =>
        let t := rankCore l r
        if s.mine.nranks ≤ r then done i d 4#64 s
        else if !shareGroup l s.mine.rank r then done i d 3#64 s
        else if (g 16).toNat / 2 ^ 48 ≠ 0 ∨ nbits (g 24).toNat 48 15 ≠ 0 then done i d 2#64 s
        else if targetAway s l.id t then keepWords i bs s
        else
          match enqueueAt s t l.hdr.mode (g 0) (fun x =>
            { hdr := g 0, arg := g 8, dl := (g 16).setWidth 48, dlWord := g 16, relWord := g 24,
              rank := s.mine.rank, acc := accOf x.regs, entry := x.entry, tile := none }) with
          | (none, s) => keepWords i bs s
          | (some st, s) => done i d (dw st) s))

/-! ## RDONE (R305) -/

/-- The chosen entry among the released ones: smallest δ(DL, TIME), then arrival order (R305). -/
def chosen (time : DWord) (q : List Rtn) : Option (Rtn × List Rtn) :=
  let best := (q.filter (fun r => r.released time)).foldl (fun b r =>
    match b with
    | none => some (delta (r.dl.setWidth 64) time)
    | some m => some (min m (delta (r.dl.setWidth 64) time))) none
  match best with
  | none => none
  | some m => takeFirst (fun r => r.released time && delta (r.dl.setWidth 64) time == m) q

/-- The dispatcher of context `k` takes an entry or leaves (R305), so that the RDONE retires and the tile
that it ends has ended (R308, R409): the state it goes to, or none while it waits for a release. -/
def dispatch (s : State) (k : Nat) (p : Disp) : Option State :=
  let core := coreOf k
  let q := (s.core core).rq
  if q.isEmpty then
    some ((tileGone s p.tile false).modCtx k (fun c => { (c.setReg p.dreg (dw p.count)) with pc := p.ret, disp := none, wait := none }))
  else
    match chosen s.time q with
    | none => none
    | some (e, r) =>
      let s := (tileGone s p.tile false).modCore core (fun c => { c with rq := r })
      let dl : DWord := e.dl.setWidth 64
      let s := s.modCtx k (fun c =>
        let c := ((c.setReg 1#5 e.arg).setReg 2#5 e.dlWord).setReg 3#5 (dw e.rank)
        { c with
          acc := e.acc
          pc := e.hdr + dw e.entry
          wait := none
          disp := some { p with running := true, late := decide (0 < delta s.time dl),
                                loops := c.loops.length, places := c.hstack.length, dl := e.dl,
                                hdr := e.hdr, tile := e.tile } })
      some (trace s core 4 0 e.hdr dl)

/-- The end of a running routine (R305), the handle stack places that it pushed unpinned: the LATE record, the
count and the loop levels. A tile counts as ended only when its RDONE retires (R409). -/
def endRoutine (s : State) (k : Nat) (p : Disp) : State × Disp :=
  let core := coreOf k
  let dl : DWord := p.dl.setWidth 64
  let late := b2n p.late + b2n (decide (0 < delta s.time dl)) * 2
  let s := if late ≠ 0 then
      postStatus s (launchKey s core) (dieOfCore core) 1 core late p.hdr dl
    else s
  let p' : Disp := { p with count := p.count + 1, running := false, late := false }
  (s.modCtx k (fun c =>
    { c with acc := 32, loops := c.loops.drop (c.loops.length - p.loops), disp := some p' }), p')

/-- The dispatcher of the context that issues, as RDONE finds it (R303, R305): entered, or with its routine at
an end once the places that this pushed are unpinned (R331); none while one of them waits for a walk (R64). -/
def atRdone (d : SReg) (s : State) : Option Disp × State :=
  match s.me.disp with
  | none =>
    let p : Disp := { ret := s.me.pc + 4#64, dreg := d, count := 0, running := false,
                      late := false, loops := 0, places := 0, dl := 0#48, hdr := 0#64,
                      tile := none }
    (some p, s.modMe (fun c => { c with disp := some p }))
  | some p =>
    if !p.running then (some p, s)
    else
      match unpinAbove false s s.cur p.places with
      | (false, s) => (none, s)
      | (true, s) =>
        let (s, p) := endRoutine s s.cur p
        (some p, s)

/-- RDONE (R303, R305). -/
def execRdone (d : SReg) (s : State) : Out :=
  run (.rdone d) s (fun s =>
    let i : Instr := .rdone d
    if numOf s.cur ≠ 0 then trap i 0x11 0#64 s
    else
      match atRdone d s with
      | (none, s) => .next s
      | (some p, s) =>
        match dispatch s s.cur p with
        | some s => .next s
        | none => if s.me.wait.isSome then .next s else .next (waitFor i .dispatch 0 s))

/-- RELEASE_TIME_REACHED: a control context that waits in the dispatcher takes the entry whose
release time has come (R305). -/
def execReleaseTimeReached (core : Nat) (s : State) : Out :=
  let k := core * 16
  match (s.ctx k).wait, (s.ctx k).disp with
  | some { what := .dispatch, .. }, some p => .next ((dispatch s k p).getD s)
  | _, _ => .next s

/-! ## SLEEPTO (R306) -/

/-- SLEEPTO (R306). -/
def execSleepto (a : SReg) (s : State) : Out :=
  run (.sleepto a) s (fun s =>
    if 0 ≤ delta s.time (s.reg a) then .next (retire (.sleepto a) s)
    else if s.me.wait.isSome then .next s
    else .next (waitFor (.sleepto a) .time 0 s))

/-- SLEEPTO_WAKE: a context that sleeps goes on once TIME has reached its threshold (R306). -/
def execSleeptoWake (core ctx : Nat) (s : State) : Out :=
  let k := core * 16 + ctx
  match (s.ctx k).wait with
  | some { what := .time, instr := .sleepto a, .. } =>
    if 0 ≤ delta s.time ((s.ctx k).reg a) then
      let s' := retire (.sleepto a) { s with cur := k }
      .next { s' with cur := s.cur }
    else .next s
  | _ => .next s

/-! ## The range unit (R310, R311) -/

/-- The length of a grant (R310). -/
def grantLen (c : RangeCtr) : Nat :=
  let rem := c.stop - c.next
  min (min (max c.minchunk ((rem + 2 * c.part - 1) / (2 * c.part))) rem) (2 ^ 24 - 1)

/-- GRAB (R303, R310): one grant at the leader; a request waits while the leader's die is
unhealthy (R311). -/
def execGrab (d a : SReg) (s : State) : Out :=
  run (.grab d a) s (fun s =>
    let i : Instr := .grab d a
    let n := s.reg a
    if 15 < n.toNat then trap i 0x0A n s
    else
      match s.launchOf s.myCore with
      | none => .next s
      | some l =>
        if !(s.die l.leader).healthy then .next s
        else
          match l.ranges[n.toNat]? with
          | none => .next s
          | some c =>
            let g := grantLen c
            let s := s.modLaunch l.id (fun l =>
              { l with ranges := l.ranges.set n.toNat { c with next := c.next + g } })
            let s := s.modCore s.myCore (fun c => { c with grabSeq := c.grabSeq + 1 })
            done i d (dw (c.next * 2 ^ 24 + g)) s)

end Sys2Proof.Machine
end

