-- ==== Sys2Proof/Machine/Headgate.lean ====
section
/-! DEFINITION. The Headgate: packets, launches and device-built launches (spec/12 R282 to R291,
R307, R308, R414, spec/05 R106, spec/06 R146, spec/15 R382). -/

namespace Sys2Proof.Machine
open Sys2Proof

/-! ## Which packet is next (R282) -/

/-- The buckets of the queue table that hold any nonzero byte, ascending. -/
def tableBuckets (s : State) : List Nat :=
  let b := s.qtbase.toNat
  s.mem.foldr (fun c l =>
    if b ≤ c.1 ∧ c.1 < b + 262144 then
      (if l.head? = some ((c.1 - b) / 64) then l else (c.1 - b) / 64 :: l)
    else l) []

/-- Every queue with its place in bucket order; overflow queues follow the table (log 3). -/
def allQueues (s : State) : List (Nat × Nat × Qcb) :=
  ((tableBuckets s).filterMap (fun b =>
    let k := readLe s (bucketAddr s b) 8
    if nbit k 63 && !poisoned s (bucketAddr s b) 64 then some (b, k % 2 ^ 48, bucketQcb s b) else none))
  ++ s.overflow.zipIdx.map (fun p => (4096 + p.2, p.1.key, p.1.qcb))

/-- The queues in round-robin order. -/
def roundRobin (s : State) : List (Nat × Nat × Qcb) :=
  let qs := allQueues s
  qs.filter (fun p => decide (s.hgNext ≤ p.1)) ++ qs.filter (fun p => decide (p.1 < s.hgNext))

/-- Whether the bytes [a, b) of a packet are zero. -/
def zeroBytes (bs : List Byte) (a b : Nat) : Bool := ((bs.drop a).take (b - a)).all (fun x => x == 0#8)

/-- A little-endian field of bytes. -/
def field (bs : List Byte) (o n : Nat) : Nat := leNat ((bs.drop o).take n)

/-- The kind of a packet: its TYPE, or 9 for one that is skipped as BADPKT (R282, R283, R285,
R307). -/
def packetKind (s : State) (key idx : Nat) (bs : List Byte) : Nat :=
  match field bs 0 1 with
  | 0 => if zeroBytes bs 1 64 then 0 else 9
  | 1 => if zeroBytes bs 1 2 && zeroBytes bs 4 8 then 1 else 9
  | 2 =>
    if zeroBytes bs 2 4 && zeroBytes bs 32 64 && s.fromQsub.any (fun f => f.key == key && f.ringIdx == idx)
    then 2 else 9
  | 3 => if zeroBytes bs 1 64 then 3 else 9
  | 4 => if zeroBytes bs 1 8 && zeroBytes bs 24 64 then 4 else 9
  | _ => 9

/-- The rectangle of a LAUNCH packet: ROW0, COL0, ROWS, COLS (R285). -/
def packetRect (bs : List Byte) : Nat × Nat × Nat × Nat :=
  (field bs 16 2, field bs 18 2, field bs 20 2, field bs 22 2)

/-- Whether a rectangle lies in the grade's grid (R13, R286); one without a row or a column does not (DESIGN
CHOICE, log 47: R286 gives no reason for it, and a LAUNCH of it is refused with reason 3). -/
def rectOk (s : State) (r : Nat × Nat × Nat × Nat) : Bool :=
  decide (1 ≤ r.2.2.1) && decide (1 ≤ r.2.2.2) && decide (r.1 + r.2.2.1 ≤ s.ndies) &&
    decide (r.2.1 + r.2.2.2 ≤ 64)

/-- The core at a grid row and column (R9). -/
def gridCore (row col : Nat) : Nat := (row / 8 * 8 + col / 8) * 64 + row % 8 * 8 + col % 8

/-- The cores of a rectangle in rank order (R286). -/
def rectCores (r : Nat × Nat × Nat × Nat) : List Nat :=
  (List.range (r.2.2.1 * r.2.2.2)).map (fun i => gridCore (r.1 + i / r.2.2.2) (r.2.1 + i % r.2.2.2))

/-- A list of numbers without repeats, ascending. -/
def setOf (l : List Nat) : List Nat := l.foldl (fun t x => sins x t) []

/-- The claimant that the cores of a switched-out share last passed to (R343). -/
def claimant (s : State) (core : Nat) : Option Nat :=
  (((s.cluster (clusterOfCore core)).suspended.filter (fun p => p.cores.any (fun c => c.1 == core))).getLast?).map
    Suspended.claim

/-- Whether a rectangle is free for a launch of a queue (R286, R106): no core belongs to a launch, and a
core of a switched-out share only to this queue's (R343, log 38). -/
def rectFree (s : State) (key : Nat) (cores : List Nat) : Bool :=
  let pasid := keyPasid key
  cores.all (fun c => (s.core c).launch.isNone && (claimant s c).all (fun k => k == key)) &&
  (setOf (cores.map clusterOfCore)).all (fun cl =>
    ([0, 1, 2, 3, 4, 5, 6, 7] : List Nat).all (fun j =>
      (s.core (cl * 8 + j)).launch.isNone || (s.core (cl * 8 + j)).pasid == pasid))

/-- Whether a head packet of a kind can start (R282). -/
def canStart (s : State) (key kind : Nat) (bs : List Byte) : Bool :=
  match kind with
  | 1 => !rectOk s (packetRect bs) || rectFree s key (rectCores (packetRect bs))
  | 3 => !s.packets.any (fun p => p.key == key)
  | 4 => !s.packets.any (fun p => p.key == key)
  | _ => true

/-- A head packet that the Headgate comes to start, or whose read meets a fault (R414). -/
structure Head where
  place : Nat
  key : Nat
  q : Qcb
  kind : Nat
  bs : List Byte
  fault : Option Nat
  deriving DecidableEq, Repr

/-- Whether a read has neither made an access nor asked for one: it waits for the link. -/
def ioIdle (s t : State) : Bool := t.nextId == s.nextId && t.ioGot.length == s.ioGot.length

/-- The first queue in turn whose head packet can start, or meets a fault. A head is read first, one access a
step (R262), and one in a host page over the link (R69), while which the queues behind it have their turn. -/
def pickHead : State → List (Nat × Nat × Qcb) → Option Head × State
  | s, [] => (none, s)
  | s, (p, key, q) :: r =>
    if q.state = 1 ∨ q.head = q.tail ∨ s.hgStopped.contains key then pickHead s r
    else
      match ioBytes s .gate (keyPasid key) (q.ring + 64 * (q.head % q.size)) 64 with
      | (.fault va, s') =>
        (some { place := p, key := key, q := q, kind := 0, bs := [], fault := some va }, s')
      | (.later, s') => if ioIdle s s' then pickHead s r else (none, s')
      | (.got bs, s') =>
        let k := packetKind s key q.head bs
        if canStart s key k bs then
          (some { place := p, key := key, q := q, kind := k, bs := bs, fault := none }, s')
        else pickHead s r

/-- Whether the Headgate serves packets: powered, out of reset, no reclaim running. -/
def hgOn (s : State) : Bool := s.power && s.released && !reclaiming s

/-- A record of the Headgate to a queue's status queue (R284). -/
def hgPost (s : State) (key kind aux : Nat) (a b : DWord) : State := postStatus s key 96 kind 0xFFFF aux a b

/-- A REFUSED record (R286). -/
def refused (s : State) (key idx reason : Nat) (b : DWord) : State := hgPost s key 4 reason (dw idx) b

/-- A faulting read of a head packet: the queue stops, REFUSED with reason 4 is posted, and the
policy core parks the queue (R414). -/
def ringReadFault (s : State) (h : Head) (va : Nat) : State :=
  let s := { s with hgStopped := s.hgStopped ++ [h.key], hgNext := h.place + 1 }
  let s := refused s h.key h.q.head 4 0#64
  parkQueue (s.report (.ringRead h.key h.q.head va)) h.key

/-- The next packet in turn starts, if it is of `kind`: `f` answers whether it has started, which
advances HEAD, or still needs reads (R282). -/
def startPacket (kind : Nat) (f : Head → State → Bool × State) (s : State) : Out :=
  if !hgOn s then .next s
  else
    match pickHead s (roundRobin s) with
    | (none, s') => .next s'
    | (some h, s') =>
      match h.fault with
      | some va => .next (ringReadFault (ioClear s' .gate) h va)
      | none =>
        if h.kind ≠ kind then .next s
        else
          match f h s' with
          | (false, s') => .next s'
          | (true, s') =>
            let s' := { ioClear s' .gate with
                                hgNext := h.place + 1
                                fromQsub := s'.fromQsub.filter (fun x => !(x.key == h.key && x.ringIdx == h.q.head)) }
            .next (qsetHead s' h.key (h.q.head + 1))

/-- NOP (R282). -/
def execNop (s : State) : Out := startPacket 0 (fun _ s => (true, s)) s

/-- FENCE_PACKET (R282). -/
def execFencePacket (s : State) : Out := startPacket 3 (fun _ s => (true, s)) s

/-- BADPKT: the packet is skipped, and a BADPKT record is posted (R282). -/
def execBadpkt (s : State) : Out :=
  startPacket 9 (fun h s => (true, hgPost s h.key 5 0 (dw h.q.head) 0#64)) s

/-- The store of a SIGNAL packet, or its REFUSED record (R283). -/
def signalStore (h : Head) (s : State) : State :=
  let va := field h.bs 8 8
  let p := keyPasid h.key
  match if va % 8 = 0 ∧ !inWindows va then ioStore s p va else none with
  | some a => perform s 96 p a ((h.bs.drop 16).take 8) [] none false
  | none => refused s h.key h.q.head 4 0#64

/-- SIGNAL (R283). -/
def execSignal (s : State) : Out := startPacket 4 (fun h s => (true, signalStore h s)) s

/-! ## The parts of a launch (R285 to R291, R310) -/

/-- A group of the table before its members are known, and the array it still needs (R289). -/
structure GroupRaw where
  gnum : Nat
  kind : Nat
  adopter : Nat
  shape : List Byte
  list : Nat
  deriving DecidableEq, Repr

/-- The entries of a group table (R289). -/
def groupRaws (bs : List Byte) : Nat → List GroupRaw
  | 0 => []
  | n + 1 =>
    { gnum := field bs 0 1, kind := field bs 1 1, adopter := field bs 2 2, shape := (bs.drop 4).take 4,
      list := field bs 8 8 } :: groupRaws (bs.drop 16) n

/-- 16-bit numbers of an array. -/
def halves (bs : List Byte) : Nat → List Nat
  | 0 => []
  | n + 1 => field bs 0 2 :: halves (bs.drop 2) n

/-- The ranks of a rectangle group, if it lies in the rank grid (R289). -/
def rectMembers (r : GroupRaw) (rows cols : Nat) : Option (List Nat) :=
  let b (i : Nat) : Nat := field r.shape i 1
  if r.list ≠ 0 ∨ b 2 = 0 ∨ b 3 = 0 ∨ rows < b 0 + b 2 ∨ cols < b 1 + b 3 then none
  else some ((List.range (b 2 * b 3)).map (fun i => (b 0 + i / b 3) * cols + b 1 + i % b 3))

/-- A group from its entry and its members, if it is valid (R289). -/
def makeGroup (r : GroupRaw) (ms : List Nat) (nranks : Nat) : Option Group :=
  let m := setOf ms
  let ad := if r.adopter = 0xFFFF then m.headD 0 else r.adopter
  if r.kind / 2 % 64 ≠ 0 ∨ m.length ≠ ms.length ∨ ms.any (fun x => decide (nranks ≤ x)) ∨ !m.contains ad then none
  else if r.gnum = 255 ∧ (m.length ≠ nranks ∨ nbit r.kind 7) then none
  else some { gnum := r.gnum, xmod := nbit r.kind 7, adopter := ad, members := m, arrived := [],
              waited := [], completed := 0, arrivals := [], results := [] }

/-- What reading and checking a launch gives: a value, a reason of R286, or reads still to come. -/
inductive Chkd (α : Type) where
  | ok (x : α)
  | refuse (reason : Nat)
  | later
  deriving DecidableEq, Repr

/-- The groups of a table, reading the arrays of list groups (R289). -/
def readGroups : State → (pasid rows cols : Nat) → List GroupRaw → Chkd (List Group) × State
  | s, _, _, _, [] => (.ok [], s)
  | s, pasid, rows, cols, r :: rs =>
    let (ms, s) : Chkd (List Nat) × State :=
      if nbit r.kind 0 then
        let n := leNat r.shape
        if n = 0 ∨ 4096 < n ∨ r.list % 2 ≠ 0 then (.refuse 2, s)
        else
          match ioBytes s .gate pasid r.list (2 * n) with
          | (.got bs, s) => (.ok (halves bs n), s)
          | (.fault _, s) => (.refuse 4, s)
          | (.later, s) => (.later, s)
      else
        match rectMembers r rows cols with
        | none => (.refuse 2, s)
        | some l => (.ok l, s)
    match ms with
    | .refuse c => (.refuse c, s)
    | .later => (.later, s)
    | .ok l =>
      match makeGroup r l (rows * cols) with
      | none => (.refuse 2, s)
      | some g =>
        match readGroups s pasid rows cols rs with
        | (.ok gs, s) =>
          if gs.any (fun x => x.gnum == g.gnum) then (.refuse 2, s) else (.ok (g :: gs), s)
        | e => e

/-- Group 255 as the Headgate adds it (R289). -/
def wholeGroup (nranks : Nat) : Group :=
  { gnum := 255, xmod := false, adopter := 0, members := List.range nranks, arrived := [], waited := [],
    completed := 0, arrivals := [], results := [] }

/-- The table with group 255 (R289). -/
def addWhole (gs : List Group) (nranks : Nat) : List Group :=
  if gs.any (fun g => g.gnum == 255) then gs else gs ++ [wholeGroup nranks]

/-- The group numbers of a rank's slots (R290). -/
def rankGroups (gs : List Group) (rank : Nat) : List Nat :=
  (gs.filter (fun g => g.members.contains rank)).map Group.gnum

/-- GRPSLOT0 to GRPSLOT3 of a rank (R290). -/
def rankSlots (gs : List Group) (rank : Nat) : Vector DWord 4 :=
  let l := (rankGroups gs rank).map (fun g => dw (256 + g))
  #v[l.getD 0 0#64, l.getD 1 0#64, l.getD 2 0#64, l.getD 3 0#64]

/-- The group table of a launch (R289, R291). -/
def launchGroups (s : State) (pasid hdr : Nat) (h : Header) (rows cols : Nat) :
    Chkd (List Group) × State :=
  match ioBytes s .gate pasid (hdr + h.gtab) (16 * h.gcount) with
  | (.fault _, s) => (.refuse 4, s)
  | (.later, s) => (.later, s)
  | (.got bs, s) =>
    match readGroups s pasid rows cols (groupRaws bs h.gcount) with
    | (.ok gs, s) =>
      let gs := addWhole gs (rows * cols)
      if (List.range (rows * cols)).any (fun r => decide (4 < (rankGroups gs r).length)) then (.refuse 2, s)
      else (.ok gs, s)
    | e => e

/-- The range counters of a table, if every entry is valid (R310). -/
def rangeCtrs (nranks : Nat) (bs : List Byte) : Nat → Option (List RangeCtr)
  | 0 => some []
  | n + 1 =>
    let st := field bs 0 8
    let ln := field bs 8 8
    let mc := field bs 16 4
    let pt := field bs 20 2
    if 2 ^ 40 ≤ st ∨ 2 ^ 40 < st + ln ∨ 2 ^ 24 ≤ mc ∨ !zeroBytes bs 22 32 then none
    else
      match rangeCtrs nranks (bs.drop 32) n with
      | none => none
      | some r =>
        some ({ next := st, stop := st + ln, minchunk := max 1 mc, part := if pt = 0 then nranks else pt } :: r)

/-- The range counters of a launch (R310). -/
def launchRanges (s : State) (pasid va nranks : Nat) : Chkd (List RangeCtr) × State :=
  if va = 0 then
    (.ok (List.replicate 16 { next := 0, stop := 0, minchunk := 1, part := nranks }), s)
  else
    match ioBytes s .gate pasid va 512 with
    | (.fault _, s) => (.refuse 4, s)
    | (.later, s) => (.later, s)
    | (.got bs, s) =>
      match rangeCtrs nranks bs 16 with
      | none => (.refuse 5, s)
      | some l => (.ok l, s)

/-- The length L of an image (R287). -/
def imageLen (h : Header) : Nat := (max (64 + 4 * h.code) (h.bind + h.code) + 63) / 64 * 64

/-- The header and image of a launch (R286, R287). -/
def launchImage (s : State) (pasid va : Nat) : Chkd (Header × List Byte) × State :=
  if va % 64 ≠ 0 then (.refuse 1, s)
  else
    match ioBytes s .gate pasid va 64 with
    | (.fault _, s) => (.refuse 4, s)
    | (.later, s) => (.later, s)
    | (.got hb, s) =>
      match parseHeader hb with
      | none => (.refuse 1, s)
      | some h =>
        if h.kind ≠ 1 ∨ 131072 < h.tcm + imageLen h then (.refuse 1, s)
        else
          match ioBytes s .gate pasid va (imageLen h) with
          | (.fault _, s) => (.refuse 4, s)
          | (.later, s) => (.later, s)
          | (.got bs, s) => (.ok (h, bs), s)

/-! ## Claiming, zeroing and setting up (R106, R287) -/

/-- Older copies of [a, a + n) leave every view. -/
def dropViews (s : State) (a n : Nat) : State :=
  { s with views := s.views.filter (fun v => !overlaps (v.granule * 16) 16 a n) }

/-- Zeroes [a, a + n) at the homes, with its full-empty bits and poison marks (R106, R375). -/
def zeroRange (s : State) (a n : Nat) : State :=
  { dropViews s a n with
    mem := memZero a n s.mem
    full := s.full.filter (fun g => !overlaps (g * 16) 16 a n)
    poison := s.poison.filter (fun p => !(decide (a ≤ p.1 * 64) && decide (p.1 * 64 + 64 ≤ a + n))) }

/-- Bytes placed at their homes. -/
def placeBytes (s : State) (a : Nat) (bs : List Byte) : State :=
  { dropViews s a bs.length with mem := memWrite a bs s.mem }

/-- The zeroing of a cluster's SPM for a launch (R106). -/
def zeroSpm (s : State) (pasid spm cl : Nat) : State :=
  let n := if (s.cluster cl).lastPasid = some pasid then spm else 2097152
  (zeroRange s (spmHome cl 0) n).modCluster cl (fun c => { c with lastPasid := some pasid })

/-- The zeroing of a core's TCM for a launch (R106). -/
def zeroTcm (s : State) (pasid tcm core : Nat) : State :=
  let n := if (s.core core).lastPasid = some pasid then tcm else 131072
  (zeroRange s (tcmHome core 0) n).modCore core (fun c => { c with lastPasid := some pasid })

/-- A core as a rank of a launch (R287, R130, R378); the other per-core CSRs keep their values. -/
def rankSetup (c : Core) (l : Launch) (rank : Nat) : Core :=
  { c with
    launch := some l.id
    rank := rank
    nranks := l.rows * l.cols
    pasid := l.pasid
    grpslot := rankSlots l.groups rank
    stepcnt := 0#32
    ph := if l.hdr.mode = 1 then 1#2 else 0#2
    trcctl := 0#64
    joins := []
    joinAcc := []
    helpers := []
    ctlExited := false
    gens := []
    collCount := []
    grabSeq := 0
    rq := []
    mbox := []
    retry := []
    stage := none
    repHolder := none }

/-- The control context of a rank before gang release (R287). -/
def controlCtx (l : Launch) : Ctx :=
  let a := 0xFFF00000000000 + 131072 - l.image
  ({ Ctx.fresh with mode := .ready, pc := dw (a + l.hdr.entry) } : Ctx)
    |>.setReg 1#5 l.arg |>.setReg 2#5 (dw a)

/-- A rank is set up: its TCM, the image, the core and its contexts (R287). -/
def setupRank (l : Launch) (img : List Byte) (s : State) (p : Nat × Nat) : State :=
  let s := zeroTcm s l.pasid l.hdr.tcm p.1
  let s := placeBytes s (tcmHome p.1 (131072 - l.image)) img
  let s := s.modCore p.1 (fun c => rankSetup c l p.2)
  (List.range 11).foldl (fun s n =>
    s.modCtx (p.1 * 16 + n) (fun c => if n = 0 then controlCtx l else c.exited)) s

/-- The leader and the candidate among the dies of a launch (R311). -/
def electDies (s : State) (dies : List Nat) : Nat × Option Nat :=
  match dies.filter (fun d => (s.die d).healthy) with
  | [] => (dies.headD 0, none)
  | [d] => (d, none)
  | d :: e :: _ => (d, some e)

/-- The cores of a launch. -/
def Launch.cores (l : Launch) : List Nat := rectCores (l.row0, l.col0, l.rows, l.cols)
/-- The dies of a launch, ascending. -/
def Launch.dies (l : Launch) : List Nat := setOf (l.cores.map dieOfCore)

/-- A launch is claimed, zeroed, multicast and set up (R287). -/
def claimLaunch (s : State) (h : Head) (hdr : Header) (img : List Byte) (gs : List Group)
    (rs : List RangeCtr) : State :=
  let r := packetRect h.bs
  let (id, s) := s.fresh
  let cores := rectCores r
  let (ld, cd) := electDies s (setOf (cores.map dieOfCore))
  let l : Launch :=
    { id := id, key := h.key, ringIdx := h.q.head, pasid := keyPasid h.key, row0 := r.1, col0 := r.2.1,
      rows := r.2.2.1, cols := r.2.2.2, arg := dw (field h.bs 24 8), caddr := dw (field h.bs 32 8),
      cval := dw (field h.bs 40 8), imb := dw (field h.bs 56 8), imblog := field h.bs 2 2,
      hdrVa := dw (field h.bs 8 8), hdr := hdr, image := imageLen hdr, groups := gs, ranges := rs,
      leader := ld, candidate := cd, released := none, fatal := none }
  let s := (setOf (cores.map clusterOfCore)).foldl (fun s cl => zeroSpm s l.pasid hdr.spm cl) s
  let s := cores.zipIdx.foldl (setupRank l img) s
  { s with
    launches := s.launches ++ [l]
    packets := s.packets ++ [{ id := id, key := h.key, ringIdx := h.q.head, kind := 1, ref := id }] }

/-- A LAUNCH packet starts: it is checked, then claimed or refused (R286, R287). The order of the
checks, where several fail, is the model's (log 21). -/
def launchPacket (h : Head) (s : State) : Bool × State :=
  let bs := h.bs
  let p := keyPasid h.key
  let r := packetRect bs
  let no (c : Nat) (s : State) : Bool × State := (true, refused s h.key h.q.head c 0#64)
  if !rectOk s r then no 3 s
  else
    match launchImage s p (field bs 8 8) with
    | (.refuse c, s) => no c s
    | (.later, s) => (false, s)
    | (.ok (hdr, img), s) =>
      match launchGroups s p (field bs 8 8) hdr r.2.2.1 r.2.2.2 with
      | (.refuse c, s) => no c s
      | (.later, s) => (false, s)
      | (.ok gs, s) =>
        match launchRanges s p (field bs 48 8) (r.2.2.1 * r.2.2.2) with
        | (.refuse c, s) => no c s
        | (.later, s) => (false, s)
        | (.ok rs, s) =>
          if 16 < field bs 2 2 ∨ field bs 32 8 % 8 ≠ 0 ∨ field bs 56 8 % 32 ≠ 0 then no 6 s
          else (true, claimLaunch s h hdr img gs rs)

/-- LAUNCH (R287). -/
def execLaunch (s : State) : Out := startPacket 1 launchPacket s

/-- GANG_RELEASE: every rank is set up, and the gang is released (R287). -/
def execGangRelease (id : Nat) (s : State) : Out :=
  .next (s.modLaunch id (fun l => if l.released.isNone then { l with released := some s.cycle } else l))

/-- The start delay of a core's control context after gang release, in cycles (R382). -/
def stagger (core : Nat) : Nat :=
  let n := dieOfCore core
  32 * (n / 8 + n % 8) + 16 * (core / 8 % 8) + 2 * (core % 8)

/-- CONTROL_CONTEXT_START: a control context starts once its stagger has passed (R287, R382). -/
def execControlContextStart (core : Nat) (s : State) : Out :=
  match s.launchOf core with
  | none => .next s
  | some l =>
    match l.released with
    | none => .next s
    | some t =>
      if (s.ctx (core * 16)).mode = .ready ∧ t + stagger core ≤ s.cycle then
        .next (s.modCtx (core * 16) (fun c => { c with mode := .running }))
      else .next s

/-! ## The end of a launch (R146, R288) -/

/-- A core that its launch gives back; its CSRs and memory stay. -/
def freeCore (c : Core) : Core :=
  { c with
    launch := none
    joins := []
    joinAcc := []
    helpers := []
    ctlExited := false
    rq := []
    mbox := []
    retry := []
    stage := none
    repHolder := none }

/-- Pre-emption requests that name a launch that has ended end NOLAUNCH (R343), and what its save or restore has
read is given up. -/
def endRequests (s : State) (id : Nat) : State :=
  s.clusters.foldl (fun s c =>
    if c.2.preq.any (fun r => r.launch == id) then
      ((saveClear s c.1).modCluster c.1 (fun x => { x with preq := none, gather := none })).report
        (.preempt { launch := id, cluster := c.1, code := 4 })
    else if c.2.suspended.any (fun p => p.launch == id) then ioClear s (.save c.1)
    else s) s

/-- Whether a record on its way is of a launch's operations (R146). -/
def ownPost (l : Launch) (p : Post) : Bool := p.launch == some l.id

/-- Whether data of a remote member outlives a launch that ends: it is not what one of the launch's matches
was given, and another launch of its PASID lives (DESIGN CHOICE, log 45: a frame's match identifier names no
launch, so a later launch must not find an earlier one's data). -/
def keepData (s : State) (l : Launch) (d : CollData) : Bool :=
  d.pasid != l.pasid ||
    (s.launches.any (fun y => y.id != l.id && y.pasid == l.pasid) &&
      !s.collTerms.any (fun t => t.launch == l.id && (Config.matchId l.pasid t.group t.matchNo).toNat == d.match_))

/-- What a launch holds is released: its windows (R97), rings (R119), token table entries (R146)
and cores (R288). Early applies that cannot go on end with it (log 43), and so do aborts that other modules have
sent for it; data go as `keepData` says. -/
def releaseLaunch (s : State) (l : Launch) : State :=
  let s := endRequests s l.id
  let s := { s with
    dies := s.dies.map (fun d =>
      (d.1, { d.2 with windows := d.2.windows.filter (fun w => w.2.launch != l.id) }))
    clusters := s.clusters.map (fun c =>
      (c.1, { c.2 with rings := c.2.rings.filter (fun r => r.2.owner != l.id)
                       suspended := c.2.suspended.filter (fun p => p.launch != l.id) }))
    ops := s.ops.filter (fun o => o.launch != l.id)
    applies := s.applies.filter (fun a => a.launch != l.id)
    posts := s.posts.filter (fun p => !ownPost l p)
    traces := s.traces.filter (fun r => r.launch != some l.id)
    launches := s.launches.filter (fun x => x.id != l.id)
    xgroups := s.xgroups.filter (fun x => x.launch != l.id)
    collTerms := s.collTerms.filter (fun x => x.launch != l.id)
    collData := s.collData.filter (keepData s l)
    aborts := s.aborts.filter (fun x => x.launch != l.id) }
  l.cores.foldl (fun s c =>
    if (s.core c).launch = some l.id then
      (List.range 11).foldl (fun s n => s.modCtx (c * 16 + n) Ctx.exited) (s.modCore c freeCore)
    else s) s

/-- The packet of a launch or expansion counts as complete (R282). -/
def packetDone (s : State) (id : Nat) : State :=
  { s with packets := s.packets.filter (fun p => p.id != id) }

/-- Whether a launch meets R146: its operations have gone, and so have their records; and whether what writes for
it beside them is over, early applies that can go on and trace records (R288). -/
def launchEnded (s : State) (l : Launch) : Bool :=
  l.fatal.isNone && l.cores.all (fun c => (s.core c).launch == some l.id && (s.core c).ctlExited) &&
    !s.ops.any (fun o => o.launch == l.id) && !s.posts.any (ownPost l) &&
    !s.applies.any (fun a => a.launch == l.id && a.stuck.isNone) && !s.traces.any (fun r => r.launch == some l.id)

/-- The dies whose outbound queues may hold writes of a launch: its own, and the base dies with their appliers
(R271). -/
def Launch.sources (l : Launch) : List Nat := l.dies ++ (List.range 32).map (fun k => 64 + k)

/-- LAUNCH_COMPLETE: a launch that meets R146 ends: CVAL at CADDR once its writes are performed, and the rectangle
is free (R288). -/
def execLaunchComplete (id : Nat) (s : State) : Out :=
  match s.launch? id with
  | none => .next s
  | some l =>
    if !launchEnded s l then .next s
    else
      let s := l.sources.foldl performAll s
      let s :=
        if l.caddr = 0#64 then s
        else
          match ioStore s l.pasid l.caddr.toNat with
          | some a => perform s 96 l.pasid a (leBytes 8 l.cval.toNat) [] none false
          | none =>
            (hgPost s l.key 6 0 (dw l.ringIdx) l.caddr).report (.fault l.key l.ringIdx l.caddr.toNat)
      .next (packetDone (releaseLaunch s l) l.id)

/-! ## Device-built launches (R307, R308) -/

/-- The fields of a RECORDS packet outside their valid values (R307). -/
def recordsBad (bs : List Byte) : Bool :=
  let n := field bs 4 4
  n == 0 || decide (2 ^ 24 < n) || field bs 8 8 % 32 != 0 || field bs 16 8 / 2 ^ 48 != 0 ||
    field bs 24 8 % 16 != 0

/-- A RECORDS packet from QSUB starts or is refused (R307). -/
def recordsPacket (h : Head) (s : State) : Bool × State :=
  let no (c : Nat) : Bool × State := (true, refused s h.key h.q.head c 0#64)
  match s.fromQsub.find? (fun f => f.key == h.key && f.ringIdx == h.q.head) with
  | none => no 2
  | some f =>
    if recordsBad h.bs then no 6
    else
      match (s.launch? f.launch).bind (fun l => l.group? (field h.bs 1 1)) with
      | none => no 2
      | some g =>
        if g.xmod then no 2
        else
          let (id, s) := s.fresh
          let e : Expand :=
            { id := id, pkt := id, key := h.key, ringIdx := h.q.head, launch := f.launch,
              members := g.members, nrec := field h.bs 4 4, recs := dw (field h.bs 8 8),
              dl := BitVec.ofNat 48 (field h.bs 16 8), caddr := dw (field h.bs 24 8), rank := f.rank,
              record := 0, cur := none, tile := 0, count := 0, total := 0, skipped := 0, refused := 0, open_ := 0,
              finished := false, wrote := false }
          (true, { s with
            expands := s.expands ++ [e]
            packets := s.packets ++ [{ id := id, key := h.key, ringIdx := h.q.head, kind := 2, ref := id }] })

/-- RECORDS (R307). -/
def execRecords (s : State) : Out := startPacket 2 recordsPacket s

/-- Changes an expansion. -/
def modExpand (s : State) (id : Nat) (f : Expand → Expand) : State :=
  { s with expands := updFirst (fun e => e.id == id) f s.expands }

/-- The expansion goes to its next record; after the last it is finished. -/
def Expand.advance (e : Expand) : Expand :=
  { e with record := e.record + 1, cur := none, tile := 0, finished := decide (e.nrec ≤ e.record + 1) }

/-- The expansion goes on after a tile of a record of `c` tokens. `count`, the tiles dispatched of the completion
record, does not count a tile that is refused for its header (DESIGN CHOICE, log 47). -/
def Expand.nextTile (e : Expand) (c : Nat) (taken : Bool) : Expand :=
  let e := { e with total := e.total + 1, count := e.count + b2n taken, open_ := e.open_ + b2n taken,
                    refused := e.refused + b2n (!taken) }
  if c ≤ 32 * (e.tile + 1) then e.advance else { e with tile := e.tile + 1 }

/-- One tile goes to its member, or the expander waits while that member's queue is full, its cluster is switched
out, or the member's walk for the header is on its way (R64, R308). A tile that a member cannot take counts as refused (log 15). -/
def sendTile (s : State) (e : Expand) (c hdr : Nat) : State :=
  match s.launch? e.launch with
  | none => modExpand s e.id (fun e => e.nextTile c false)
  | some l =>
    let t := rankCore l (e.members.getD (e.total % e.members.length) 0)
    if targetAway s l.id t then s
    else
      let v := min 32 (c - 32 * e.tile)
      let mk (x : Header) : Rtn :=
        { hdr := dw hdr, arg := e.recs + dw (32 * e.record), dl := e.dl, dlWord := dw (e.tile * 64 + v),
          relWord := 0#64, rank := e.rank, acc := accOf x.regs, entry := x.entry, tile := some e.id }
      match enqueueAt s t l.hdr.mode (dw hdr) mk with
      | (none, s) => s
      | (some 0, s) => modExpand s e.id (fun e => e.nextTile c true)
      | (some 1, s) => s
      | (some _, s) => modExpand s e.id (fun e => e.nextTile c false)

/-- The expander reads a record: its token count and, of one with tiles, the routine header's address, each
once (R308, R409). -/
def readRecord (s : State) (e : Expand) : State :=
  let va := e.recs.toNat + 32 * e.record
  let fault (s : State) : State :=
    modExpand (refused (ioClear s (.expand e.id)) e.key e.ringIdx 4 (dw e.record)) e.id (fun e => { e with finished := true })
  match ioBytes s (.expand e.id) (keyPasid e.key) (va + 4) 4 with
  | (.later, s) => s
  | (.fault _, s) => fault s
  | (.got bs, s) =>
    let c := leNat bs
    if c = 0 then modExpand (ioClear s (.expand e.id)) e.id (fun e => { e.advance with skipped := e.skipped + 1 })
    else if 2 ^ 24 < c then
      modExpand (refused (ioClear s (.expand e.id)) e.key e.ringIdx 6 (dw e.record)) e.id
        (fun e => { e.advance with skipped := e.skipped + 1 })
    else
      match ioBytes s (.expand e.id) (keyPasid e.key) (va + 24) 8 with
      | (.later, s) => s
      | (.fault _, s) => fault s
      | (.got hs, s) => modExpand (ioClear s (.expand e.id)) e.id (fun e => { e with cur := some (c, leNat hs) })

/-- EXPAND_RECORD: the expander's next record or tile (R308). -/
def execExpandRecord (id : Nat) (s : State) : Out :=
  match s.expands.find? (fun e => e.id == id) with
  | none => .next s
  | some e =>
    if e.finished || !hgOn s then .next s
    else
      match e.cur with
      | none => .next (readRecord s e)
      | some (c, h) => .next (sendTile s e c h)

/-- An expansion is over, and its packet complete (R308). -/
def endExpand (s : State) (e : Expand) : State :=
  packetDone { s with expands := s.expands.filter (fun x => x.id != e.id) } e.pkt

/-- A write of the completion record meets a fault at an address: nothing more of it is written (R308). -/
def recordFault (s : State) (e : Expand) (va : Nat) : State :=
  (hgPost (endExpand s e) e.key 6 0 (dw e.ringIdx) (dw va)).report (.fault e.key e.ringIdx va)

/-- RECORDS_COMPLETE: once every tile has ended, the completion record: the counts in one step, and DONE in the
next, as a store-release at module scope of the Headgate's die (R262, R308, R409, R267). -/
def execRecordsComplete (id : Nat) (s : State) : Out :=
  match s.expands.find? (fun e => e.id == id) with
  | none => .next s
  | some e =>
    if !e.finished || e.open_ != 0 then .next s
    else
      let p := keyPasid e.key
      let va := e.caddr.toNat + if e.wrote then 12 else 0
      match ioStore s p va with
      | none => .next (recordFault s e va)
      | some a =>
        if e.wrote then .next (endExpand (perform (performAll s 96) 96 p a (leBytes 4 1) [] none false) e)
        else
          .next (modExpand
            (perform s 96 p a (leBytes 4 e.count ++ leBytes 4 e.skipped ++ leBytes 4 e.refused) [] none false)
            id (fun e => { e with wrote := true }))

end Sys2Proof.Machine
end

