-- ==== Sys2Proof/Machine/HostReg.lean ====
section
/-! DEFINITION. The host port: BAR0, the apertures of BAR2, service drains, invalidations, and the
answers to the module's own requests (spec/03 R67 to R70, spec/11 R275, R276, spec/15 R354 to R357,
R377, R415). -/

namespace Sys2Proof.Machine
open Sys2Proof

/-! ## Service cores (R12, R275, R276) -/

/-- The service core of the quadrant of a home (R12). -/
def svcOf (h : Nat) : Nat :=
  let d := homeDie h
  let (row, col) := if 64 ≤ d then ((d - 64) / 4 % 8, (d - 64) % 4 * 2) else (d / 8, d % 8)
  if row < 4 then (if col < 4 then 0 else 1) else if col < 4 then 3 else 2

/-- What a service core has accepted is performed, in order (R275). -/
def svcFlush (s : State) (v : Nat) : State := svcSome (fun w => w.svc == v) s.svcq.length s

/-- A service core performs the oldest piece that it has accepted (R275). -/
def svcStep (v : Nat) (s : State) : State := svcFirst (fun w => w.svc == v) s

/-- An answer to the host goes out. -/
def hostPut (s : State) (r : HostResp) : State := { s with bar2Out := s.bar2Out ++ [r] }

/-- SERVICE_DRAIN: a write of GO to SVCDRAIN starts a drain, or extends the one in progress (R276). -/
def execServiceDrain (s : State) : Out :=
  if hostOn s then .next { s with svcBusy := true, svcGo := s.svcGo + 1 } else .next s

/-- SERVICE_DRAIN_COMPLETE: every accepted host write is performed; BUSY falls, and DONE counts each
GO (R276). -/
def execServiceDrainComplete (s : State) : Out :=
  if s.svcBusy then
    .next { svcDrain s with svcBusy := false, svcGo := 0, svcDone := s.svcDone + BitVec.ofNat 32 s.svcGo }
  else .next s

/-! ## BAR0 (R355, R356, R415) -/

/-- The fields of a debug window that a read gets (R377). -/
def dbgGet (s : State) (core off : Nat) : Nat :=
  if !featureOpen s 1 then 0
  else
    let c := s.core core
    let x := s.ctx (core * 16)
    if off = 0 then c.dbgctl.toNat
    else if !c.dbgctl.getLsbD 1 then 0
    else if off = 8 then x.pc.toNat
    else if off = 16 then c.stepcnt.toNat
    else if off = 24 then c.ph.toNat
    else if 32 ≤ off ∧ off < 32 + 8 * 31 then (x.reg (BitVec.ofNat 5 ((off - 32) / 8 + 1))).toNat
    else 0

/-- A byte of MBXDATA (R365). -/
def mbxByte (s : State) (i : Nat) : Byte := s.mbxData.getD i 0#8

/-- Eight bytes of a list from a place on, zero beyond its end. -/
def eightAt (bs : List Byte) (i : Nat) : Nat := leNat ((List.range 8).map (fun j => bs.getD (i + j) 0#8))

/-- MBXSTAT (R365). -/
def mbxstat (s : State) : Nat :=
  s.mbxSeq.toNat * 2 ^ 32 + s.mbxRlen.toNat * 65536 + s.mbxResult.toNat * 256 + b2n s.mbxBusy

/-- RECLAIM as it reads (R373). -/
def reclaimReg (s : State) : Nat := s.reclaimSeq.toNat * 2 ^ 32 + s.reclaimState.toNat * 2

/-- The 8 bytes that a read of BAR0 at a multiple of 8 returns (R355). -/
def bar0Get (s : State) (off : Nat) : Nat :=
  if off = 0x08 then (kickstat s).toNat
  else if off = 0x10 then s.svcDone.toNat * 2 ^ 32 + b2n s.svcBusy * 2
  else if off = 0x18 then s.qtbase.toNat
  else if off = 0x20 then s.pdirbase.toNat
  else if off = 0x28 then s.pdircount.toNat
  else if off = 0x40 then s.invaddr.toNat
  else if off = 0x48 then s.invcmd.toNat + b2n s.inval.isSome * 2 ^ 30
  else if 0x1000 ≤ off ∧ off < 0x1200 then
    let n := (off - 0x1000) / 16
    if off % 16 = 0 then (s.aptBase.toList.getD n 0#64).toNat else (s.aptCtl.toList.getD n 0#32).toNat
  else if off = 0x10008 then mbxstat s
  else if 0x11000 ≤ off ∧ off < 0x12000 then eightAt s.mbxData (off - 0x11000)
  else if off = 0x20000 then reclaimReg s
  else if 0x20100 ≤ off ∧ off < 0x20260 then eightAt s.record (off - 0x20100)
  else if 0x30000 ≤ off ∧ off < 0x30400 then msixWord s ((off - 0x30000) / 8)
  else if off = 0x31000 then s.msixPend.foldl (fun m v => m ||| 2 ^ v) 0
  else if 0x100000 ≤ off ∧ off < 0x300000 then dbgGet s ((off - 0x100000) / 512) (off % 512)
  else 0

/-- Places bytes in a list of 4,096, from a place on. -/
def putAt (bs : List Byte) (i : Nat) (new : List Byte) : List Byte :=
  (List.range (max bs.length (i + new.length))).map (fun j =>
    if i ≤ j ∧ j < i + new.length then new.getD (j - i) 0#8 else bs.getD j 0#8)

/-- The fields of INVCMD that stay (R67): KIND and PASID. -/
def invFields (v : Nat) : BitVec 32 := BitVec.ofNat 32 v &&& 0x300FFFFF#32

/-- A double word of the MSI-X table is written; a vector that is pending and no longer masked goes out. -/
def msixSet (s : State) (n : Nat) (v : DWord) : State :=
  let s := { s with msixTab := tset n v s.msixTab }
  if s.msixPend.contains (n / 2) && !nbit (msixWord s (n / 2 * 2 + 1)) 32 then
    msixSend { s with msixPend := sdel (n / 2) s.msixPend } (n / 2)
  else s

/-- A write of a core's DBGCTL in the debug window (R377); nothing while STOP is closed. -/
def dbgSet (s : State) (core : Nat) (v : DWord) : State :=
  if core < s.ndies * 64 ∧ featureOpen s 1 then s.modCore core (fun c => { c with dbgctl := dbgWrite c.dbgctl v }) else s

/-- A register without an event of its own, or DBGCTL, takes its RW fields of 8 bytes (R67, R70, R355,
R377, R415). -/
def bar0Set (s : State) (off v : Nat) : State :=
  if off = 0x18 then { s with qtbase := dw (v % 2 ^ 41 / 2 ^ 18 * 2 ^ 18), setUp := sins off s.setUp }
  else if off = 0x20 then { s with pdirbase := dw (v % 2 ^ 41 / 4096 * 4096), setUp := sins off s.setUp }
  else if off = 0x28 then { s with pdircount := dw (min (v % 2 ^ 21) (2 ^ 20)), setUp := sins off s.setUp }
  else if off = 0x40 then { s with invaddr := dw (v % 2 ^ 56 / 2 ^ 19 * 2 ^ 19) }
  else if off = 0x48 then
    if nbit v 31 && nbits v 28 2 != 3 then s
    else if nbit v 31 && s.inval.isSome then s
    else { s with invcmd := invFields v }
  else if 0x1000 ≤ off ∧ off < 0x1200 then
    let n := (off - 0x1000) / 16
    if off % 16 = 0 then { s with aptBase := s.aptBase.set! n (dw (v % 2 ^ 56 / 2 ^ 31 * 2 ^ 31)) }
    else { s with aptCtl := s.aptCtl.set! n (BitVec.ofNat 32 v &&& 0xC00FFFFF#32) }
  else if 0x11000 ≤ off ∧ off < 0x12000 then { s with mbxData := putAt s.mbxData (off - 0x11000) (leBytes 8 v) }
  else if 0x30000 ≤ off ∧ off < 0x30400 then msixSet s ((off - 0x30000) / 8) (dw v)
  else if 0x100000 ≤ off ∧ off < 0x300000 ∧ off % 512 = 0 then dbgSet s ((off - 0x100000) / 512) (dw v)
  else s

/-- REGISTER_WRITE: a write of `n` bytes at a BAR0 offset (R356). Only naturally aligned writes of 4 or
8 bytes act; a register with a behaviour of its own has an event for it. -/
def execRegisterWrite (off n : Nat) (v : DWord) (s : State) : Out :=
  if !hostOn s then .next s
  else
    let s := svcFlush s 0
    if n = 8 ∧ off % 8 = 0 then .next (bar0Set s off v.toNat)
    else if n = 4 ∧ off % 4 = 0 then
      let b := off / 8 * 8
      let old := bar0Get s b
      let w := v.toNat % 2 ^ 32
      .next (bar0Set s b (if off % 8 = 0 then old / 2 ^ 32 * 2 ^ 32 + w else w * 2 ^ 32 + old % 2 ^ 32))
    else .next s

/-- The host reads `n` bytes of BAR0 (R355, R356): registers answer naturally aligned reads of 4 or 8 bytes,
any other returns zero. The service core of I/O die 0 serves it in order, and KICKSTAT is answered once
every kick accepted before is served. -/
def bar0Read (off n : Nat) (s : State) : State :=
  if !hostOn s then s
  else if off / 8 = 1 ∧ (!s.kicks.isEmpty || s.held.any (fun h => h.blocked)) then s
  else
    let s := svcFlush s 0
    let v := bar0Get s (off / 8 * 8)
    let ok := (n = 4 ∨ n = 8) ∧ off % n = 0
    hostPut s (.data (leBytes n (if ok then v / 2 ^ (8 * (off % 8)) else 0)))

/-! ## The debug window (R377) -/

/-- DBG_STOP: a write of STOP to a core's DBGCTL asks for a stop at its next boundary. -/
def execDbgStop (core : Nat) (s : State) : Out :=
  if s.ndies * 64 ≤ core then .fault .noSuchUnit
  else .next (if hostOn s then dbgSet s core 1#64 else s)

/-- DBG_GO: a write of GO to a core's DBGCTL resumes it. -/
def execDbgGo (core : Nat) (s : State) : Out :=
  if s.ndies * 64 ≤ core then .fault .noSuchUnit
  else .next (if hostOn s then dbgSet s core 4#64 else s)

/-! ## BAR2 (R70) -/

/-- A piece of a request at BAR2: its address, its length, its home, and the window check made there. -/
structure BarPiece where
  va : Nat
  len : Nat
  home : Nat
  chk : Option Chk
  deriving DecidableEq, Repr

/-- What a request at BAR2 meets: a refusal, a fault at an address, or its pieces with the PASID they are
made in. -/
inductive BarRes where
  | unsupported
  | fault (addr : Nat)
  | ok (pasid : Nat) (pieces : List BarPiece)
  deriving DecidableEq, Repr

/-- The pieces of [a, a + n) inside naturally aligned 8 bytes, as address and length; `fuel` bounds
them. -/
def eights : Nat → Nat → Nat → List (Nat × Nat)
  | 0, _, _ => []
  | fuel + 1, a, n => if n = 0 then [] else
      let k := min (8 - a % 8) n
      (a, k) :: eights fuel (a + k) (n - k)

/-- Whether BAR2 is served: the dies out of reset, and no reclaim running (R374). -/
def bar2On (s : State) : Bool := hostOn s && s.released && !reclaiming s

/-- Where `k` bytes of a request lead: a home in HBM5, or, through a core alias, cluster SPM alias or die
pool window, one on a compute die (R12, R54, R377), whose check the service core makes at the home (R55).
R70 does not say what a request meets at the other windows, which name an accessing core, a sluice or a
far module, or at a host or peer page: it is answered as a fault (DESIGN CHOICE, log 43). -/
def barPlace (s : State) (virt : Bool) (pasid : Nat) (w : Access) (a k : Nat) : Option (Nat × Option Chk) :=
  if !virt then (if a < 2 ^ 41 then some (a, none) else none)
  else if inWindows a then
    if inTcm a || inSpm a then none
    else
      match window s 0 a k with
      | some (.home h c) => some (h, c)
      | _ => none
  else
    match (pagedNow s .io pasid w a).1 with
    | .ok (.home h c) => some (h, c)
    | _ => none

/-- The pieces of a request, each translated and checked, or the address of the first that faults. -/
def barPieces (s : State) (virt : Bool) (pasid : Nat) (w : Access) : List (Nat × Nat) → Except Nat (List BarPiece)
  | [] => .ok []
  | (a, k) :: r =>
    match barPlace s virt pasid w a k with
    | none => .error a
    | some (h, c) =>
      match barPieces s virt pasid w r with
      | .ok l => .ok ({ va := a, len := k, home := h, chk := c } :: l)
      | .error x => .error x

/-- A request of `n` bytes at offset `x` of BAR2, with its PASID prefix if it has one (R70). A request
that any of its pieces stops has no effect (DESIGN CHOICE, log 35). -/
def barRequest (s : State) (x n : Nat) (tag : Option Nat) (w : Access) : BarRes :=
  let a := x / 2 ^ 31
  let ctl := (s.aptCtl.toList.getD a 0#32).toNat
  let base := (s.aptBase.toList.getD a 0#64).toNat
  let p := ctl % 2 ^ 20
  let virt := nbit ctl 30
  if !bar2On s || decide (32 ≤ a) || !nbit ctl 31 then .unsupported
  else if virt && tag.any (fun t => t != p) then .unsupported
  else
    let b := (if virt then nbits base 31 25 else nbits base 31 25 % 2 ^ 25) * 2 ^ 31
    match barPieces s virt p w (eights (n / 8 + 2) (b + x % 2 ^ 31) n) with
    | .ok l => .ok p l
    | .error a => .fault a

/-- A request at BAR2 meets a fault: it is logged, and the policy core gets a fault event (R70). -/
def barStop (s : State) (a : Nat) : State := barFault (aerLog s 15) a

/-- A request at BAR2 that the module does not support is answered so (R70, R354). -/
def barNo (s : State) : State := hostPut (aerLog s 20) .unsupported

/-- BAR2_READ: the service cores of the homes' quadrants accept its pieces, and read each at its home after
what they accepted before (R70, R274, R275). -/
def execBar2Read (x n : Nat) (tag : Option Nat) (s : State) : Out :=
  if !hostOn s then .next s else
  match barRequest s x n tag .load with
  | .unsupported => .next (barNo s)
  | .fault a => .next (hostPut (barStop s a) .abort)
  | .ok p l =>
    let (id, s) := s.fresh
    .next { s with
      barReads := s.barReads ++ [{ id := id, parts := l.length, got := [], bad := none }]
      svcq := s.svcq ++ l.zipIdx.map (fun q =>
        { svc := svcOf q.1.home, home := q.1.home, bytes := [], read := some id, part := q.2, len := q.1.len,
          va := q.1.va, pasid := p, chk := q.1.chk }) }

/-- The answer to a read of BAR2 whose pieces have all come: the bytes, or Completer Abort (R70). -/
def barAnswer (id : Nat) (s : State) : State :=
  match s.barReads.find? (fun b => b.id == id) with
  | none => s
  | some b =>
    if b.got.length ≠ b.parts then s
    else
      let s := { s with barReads := s.barReads.filter (fun x => x.id != id) }
      match b.bad with
      | some a => hostPut (barStop s a) .abort
      | none => hostPut s (.data (b.got.flatMap Prod.snd))

/-- Whether a piece of a write of [a, a + n) lies in a 64-byte unit that the write covers (R75). -/
def wholeUnit (a n : Nat) (p : BarPiece) : Bool :=
  let u := a + (p.va - a) / 64 * 64
  decide (a % 64 = 0) && decide (u + 64 ≤ a + n)

/-- BAR2_WRITE: the service cores accept its pieces, and perform them before any request that they accept
later (R70, R274, R275). A posted write gets no answer. -/
def execBar2Write (x : Nat) (bs : List Byte) (tag : Option Nat) (s : State) : Out :=
  if !hostOn s then .next s else
  match barRequest s x bs.length tag .store with
  | .unsupported => .next (aerLog s 20)
  | .fault a => .next (barStop s a)
  | .ok p l =>
    let a := (l.head?).elim 0 BarPiece.va
    let ws := (l.foldl (fun (t : List SvcReq × List Byte) q =>
      (t.1 ++ [{ svc := svcOf q.home, home := q.home, bytes := t.2.take q.len, read := none,
                 part := b2n (wholeUnit a bs.length q), len := q.len, va := q.va, pasid := p, chk := q.chk }],
       t.2.drop q.len)) ([], bs)).1
    .next { s with svcq := s.svcq ++ ws }

/-- An AtomicOp request to BAR2 gets Unsupported Request (R354). -/
def atomicOp (s : State) : State := if hostOn s then barNo s else s

/-! ## Invalidation (R67, R68) -/

/-- Whether an invalidation matches a page of 2^`size` bytes at `va` of a PASID. -/
def Inval.hits (v : Inval) (pasid va size : Nat) : Bool :=
  match v.kind with
  | 0 => v.pasid == pasid && va / 2 ^ size == v.va / 2 ^ size
  | 1 => v.pasid == pasid
  | _ => true

/-- Whether an invalidation matches a cached pointer (R64, R68). -/
def Inval.hitsPtr (v : Inval) (p : PtrEnt) : Bool :=
  match v.kind with
  | 0 => v.pasid == p.pasid && p.va == ptPrefix p.level v.va
  | 1 => v.pasid == p.pasid
  | _ => true

/-- An invalidation of a kind starts (R67, R68): a service drain, and the walks in flight will not
be cached. A GO while one is in progress is ignored. -/
def startInval (s : State) (kind : Nat) (v : Word) : State :=
  if !hostOn s || !v.getLsbD 31 || v.toNat / 2 ^ 28 % 4 != kind || s.inval.isSome then s
  else
    let s := svcDrain s
    let i : Inval := { kind := kind, va := s.invaddr.toNat % 2 ^ 56 / 2 ^ 19 * 2 ^ 19, pasid := v.toNat % 2 ^ 20 }
    { s with
      invcmd := invFields v.toNat
      inval := some i
      dies := s.dies.map (fun d => (d.1, { d.2 with walks := d.2.walks.map (fun w => { w with stale := true }) })) }

/-- INVALIDATE_PAGE (R67). -/
def execInvalidatePage (v : Word) (s : State) : Out := .next (startInval s 0 v)
/-- INVALIDATE_PASID (R67). -/
def execInvalidatePasid (v : Word) (s : State) : Out := .next (startInval s 1 v)
/-- INVALIDATE_ALL (R67). -/
def execInvalidateAll (v : Word) (s : State) : Out := .next (startInval s 2 v)

/-- A core's micro-TLB without the entries that an invalidation matches. -/
def Core.dropTlb (i : Inval) (c : Core) : Core := { c with utlb := c.utlb.filter (fun e => !i.hits e.pasid e.va e.size) }

/-- Every TLB and walker cache without the entries that an invalidation matches, those of switched-out
cores among them. -/
def dropCached (s : State) (i : Inval) : State :=
  let tl (l : List TlbEnt) : List TlbEnt := l.filter (fun e => !i.hits e.pasid e.va e.size)
  { s with
    cores := s.cores.map (fun c => (c.1, c.2.dropTlb i))
    clusters := s.clusters.map (fun c =>
      (c.1, { c.2 with tlb := tl c.2.tlb
                       suspended := c.2.suspended.map (fun p =>
                         { p with cores := p.cores.map (fun x => (x.1, x.2.dropTlb i)) }) }))
    dies := s.dies.map (fun d => (d.1, { d.2 with tlb := tl d.2.tlb, ptrs := d.2.ptrs.filter (fun p => !i.hitsPtr p) })) }

/-- The pending writes of an operation are performed or enter their queues; one to another module stays. -/
def flushPend (s : State) (id : Nat) : State :=
  match s.op? id with
  | none => s
  | some o =>
    let near := o.pend.filter (fun w => decide (w.home < farBase))
    (engFlush s { o with pend := near }).modOp id (fun p =>
      { p with pend := p.pend.filter (fun w => decide (farBase ≤ w.home)), prog := p.prog + cntOf near })

/-- Every access that was translated for a PASID, or for any with `none`, is performed at its home
(R68): the store buffers, the engines' writes, the outbound queues, and what service cores have
accepted. -/
def settle (s : State) (pasid : Option Nat) : State :=
  let mine (p : Nat) : Bool := pasid.all (fun q => q == p)
  let s := (s.ctxs.map Prod.fst).foldl (fun s k => if mine (s.pasidOf k) then drainAll s k else s) s
  let s := (s.ops.filter (fun o => mine o.pasid)).foldl (fun s o => flushPend s o.id) s
  svcDrain ((s.outq.map QEntry.src).eraseDups.foldl performAll s)

/-- Whether a request that was translated under an entry an invalidation matches is out on the link (R68,
R69). -/
def readsOut (s : State) (i : Inval) : Bool := s.pcieReads.any (fun r => i.kind == 2 || r.pasid == i.pasid)

/-- INVALIDATION_COMPLETE: once the walks in flight at GO and the reads on the link have ended, every
matching entry is gone, every access translated under one is performed, and BUSY falls (R68). -/
def execInvalidationComplete (s : State) : Out :=
  match s.inval with
  | none => .next s
  | some i =>
    if s.dies.any (fun d => d.2.walks.any (fun w => w.stale)) || readsOut s i then .next s
    else .next { settle (dropCached s i) (if i.kind = 2 then none else some i.pasid) with inval := none }

/-! ## Answers to the module's requests (R69) -/

/-- Whether what made a request still waits for its answer. -/
def ownerWaits (s : State) : IoOwner → Bool
  | .ctx _ => false
  | .fetch k => (s.ctx k).mode != .absent
  | .op id => (s.op? id).any (fun o => !o.st.final)
  | .gate => true
  | .expand id => s.expands.any (fun e => e.id == id)
  | .post id => s.posts.any (fun p => p.id == id)
  | .save cl => (s.cluster cl).gather.isSome || !(s.cluster cl).suspended.isEmpty
  | .far id => s.farIn.any (fun f => f.id == id)

/-- What has come of a non-posted request: its bytes, or none where it failed. A scalar load then
traps with cause 0x04; a fetch, an engine, the Headgate or a post finds it when it goes on. -/
def pcieAnswer (s : State) (q : PcieRead) (r : Option (List Byte)) : State :=
  let s := { s with pcieReads := s.pcieReads.filter (fun x => x.id != q.id) }
  match q.owner with
  | .ctx k =>
    match (s.ctx k).wait with
    | some w =>
      match w.what with
      | .pcie id got true =>
        if id ≠ q.id then s
        else
          match r with
          | some bs => s.modCtx k (fun c => { c with wait := some { w with what := .pcie id (got ++ bs) false } })
          | none => takeTrap s k w.instr.len 0x04 q.va
      | _ => s
    | none => s
  | o => if ownerWaits s o then { s with ioGot := s.ioGot ++ [{ owner := o, addr := q.addr, bytes := r }] } else s

/-- PCIE_COMPLETION: the bytes of a request arrive, or with none it is reported as failed (R69). -/
def execPcieCompletion (id : Nat) (r : Option (List Byte)) (s : State) : Out :=
  match s.pcieReads.find? (fun q => q.id == id) with
  | none => .next s
  | some q =>
    if r.any (fun bs => bs.length != q.size) then .next s else .next (pcieAnswer s q r)

/-- COMPLETION_TIMEOUT: a request's completion does not arrive in time (R69), which is logged (R354). -/
def execCompletionTimeout (id : Nat) (s : State) : Out :=
  match s.pcieReads.find? (fun q => q.id == id) with
  | none => .next s
  | some q => .next (pcieAnswer (aerLog s 14) q none)

end Sys2Proof.Machine
end

