-- ==== Sys2Proof/Machine/Fatal.lean ====
section
/-! DEFINITION. Job-fatal discard, die dispatchers, and the integrity and power events (spec/14 R341,
spec/12 R311, spec/15 R380 to R383). -/

namespace Sys2Proof.Machine
open Sys2Proof

/-! ## Discard (R341) -/

/-- The contexts of a launch's cores. -/
def launchCtxs (s : State) (l : Launch) : List Nat :=
  (l.cores.filter (fun c => (s.core c).launch == some l.id)).flatMap (fun c =>
    (List.range 11).map (fun n => c * 16 + n))

/-- Actions in order, up to one that waits: whether all are over. -/
def inOrder : List (State → Bool × State) → State → Bool × State
  | [], s => (true, s)
  | f :: r, s =>
    match f s with
    | (false, s) => (false, s)
    | (true, s) => inOrder r s

/-- The top place of a switched-out context's handle stack is popped. -/
def popSaved (s : State) (cl launch k : Nat) : State :=
  s.modCluster cl (fun c =>
    { c with suspended := updFirst (fun p => p.launch == launch) (fun p =>
        { p with ctxs := p.ctxs.map (fun x =>
            if x.1 == k then (k, { x.2 with hstack := x.2.hstack.drop 1 }) else x) }) c.suspended })

/-- The places of a switched-out context's handle stack are unpinned, top first, in the pool that its core
named (R331): whether all are. -/
def unpinSaved (now : Bool) (l : Launch) (cl k : Nat) (x : Core) : List DWord → State → Bool × State
  | [], s => (true, s)
  | v :: r, s =>
    let w : Actor := { lv := .core (coreOf k), core := coreOf k, pasid := l.pasid, now := now }
    match unpinWith s w x (some l.id) v with
    | (false, s) => (false, s)
    | (true, s) => unpinSaved now l cl k x r (popSaved s cl l.id k)

/-- What unpins the stacks of a launch's switched-out contexts. -/
def savedPins (now : Bool) (s : State) (l : Launch) : List (State → Bool × State) :=
  s.clusters.flatMap (fun c => (c.2.suspended.filter (fun p => p.launch == l.id)).flatMap (fun p =>
    p.ctxs.map (fun x =>
      unpinSaved now l c.1 x.1 ((p.cores.find? (fun q => q.1 == coreOf x.1)).elim Core.fresh Prod.snd) x.2.hstack)))

/-- Every handle stack of a discarded launch is unpinned (R331), its contexts' buffered stores being lost (R341):
whether that is over, or a pin waits for a walk (R64). -/
def unpinLaunch (now : Bool) (s : State) (l : Launch) : Bool × State :=
  let ks := launchCtxs s l
  let s := ks.foldl (fun s k => s.modCtx k (fun c => { c with sbuf := [] })) s
  inOrder (ks.map (fun k s => unpinAbove now s k 0) ++ savedPins now s l) s

/-- A context of a discarded launch ends without orphans, and the routine it runs is given up. -/
def discardCtx (s : State) (k : Nat) : State :=
  let s := tileGone s ((s.ctx k).disp.bind Disp.tile) true
  s.modCtx k (fun c => { c with disp := none, wait := none })

/-- The routines that switched-out contexts run are given up. -/
def discardSaved (p : Suspended) (s : State) : State :=
  p.ctxs.foldl (fun s c => tileGone s (c.2.disp.bind Disp.tile) true) s

/-- The tiles of expansions in a routine queue will not run (R308, R341). -/
def dropTiles (q : List Rtn) (s : State) : State := q.foldl (fun s r => tileGone s r.tile true) s

/-- Steps 1 to 3 and 5 of R341: the cores stop, the pins that are left are released, the work is discarded, the
resources and the rectangle are released, and the LAUNCH packet counts as complete. -/
def discardLaunch (s : State) (l : Launch) : State :=
  let s := (unpinLaunch true s l).2
  let s := (launchCtxs s l).foldl discardCtx s
  let s := l.cores.foldl (fun s c => if (s.core c).launch = some l.id then dropTiles (s.core c).rq s else s) s
  let out := (s.clusters.map (fun c => c.2.suspended.filter (fun p => p.launch == l.id))).flatMap id
  let s := out.foldl (fun s p => p.cores.foldl (fun s c => dropTiles c.2.rq s) (discardSaved p s)) s
  let s := l.sources.foldl performAll s
  packetDone (releaseLaunch s l) l.id

/-- Whether a save of a launch is in progress, which is never abandoned (R350). -/
def savingLaunch (s : State) (id : Nat) : Bool := s.clusters.any (fun c => c.2.saving.any (fun v => v.req.launch == id))

/-- JOB_FATAL_DISCARD: the policy core discards a job-fatal launch, parks its queue and reports it
(R341, R357), once the pins that wait for walks are released (R64). A reclaim discards it itself, without
parking and without a report (R374). -/
def execJobFatalDiscard (id : Nat) (s : State) : Out :=
  match s.launch? id with
  | none => .next s
  | some l =>
    match l.fatal with
    | none => .next s
    | some f =>
      if savingLaunch s id || reclaiming s then .next s
      else
        match unpinLaunch false s l with
        | (false, s) => .next s
        | (true, s) =>
          let s := parkQueue (discardLaunch s l) l.key
          .next (raise (s.report (.discard l.key l.ringIdx f.cause f.core f.frec)) 1)

/-! ## Die dispatchers (R311) -/

/-- LEADER_FAILOVER: the candidate of a launch whose leader's die is unhealthy becomes leader and names
a new candidate; with no candidate the launch is job-fatal. Grants are whole (R311), so the GRABs that
cores resend are answered as before. -/
def execLeaderFailover (id : Nat) (s : State) : Out :=
  match s.launch? id with
  | none => .next s
  | some l =>
    if (s.die l.leader).healthy then .next s
    else
      match l.candidate with
      | none => .next (s.markFatal id { cause := 0x48, core := l.cores.headD 0, frec := [] })
      | some c =>
        let next := l.dies.filter (fun d => (s.die d).healthy && d != c)
        .next (s.modLaunch id (fun x => { x with leader := c, candidate := next.head? }))

/-! ## Integrity (R380) -/

/-- A launch meets an uncorrectable error at a core. -/
def meetError (s : State) (launch : Option Nat) (core : Nat) : State :=
  match launch with
  | none => s
  | some l => s.markFatal l { cause := 0x48, core := core, frec := [] }

/-- The list without its entry `n`. -/
def dropAt {α : Type} (l : List α) (n : Nat) : List α := l.take n ++ l.drop (n + 1)

/-- UNCORRECTABLE_ERROR: a poisoned unit of HBM (R75); an error that makes the launch that met it
job-fatal; a cached translation that is dropped and walked again; a die dispatcher that the policy core
fences (R311). -/
def execUncorrectableError (u : ErrUnit) (s : State) : Out :=
  let tell (kind n : Nat) (s : State) : Out := .next (s.report (.uncorrectable kind n))
  match u with
  | .hbm n => tell 0 n (if s.poison.any (fun p => p.1 == n) then
      { s with poison := s.poison.map (fun p => if p.1 == n then (n, 0) else p) }
      else { s with poison := s.poison ++ [(n, 0)] })
  | .sram h l core => tell 1 h (meetError s (some l) core)
  | .table core => tell 1 core (meetError s (s.core core).launch core)
  | .coreTlb core n => tell 3 core (s.modCore core (fun c => { c with utlb := dropAt c.utlb n }))
  | .clusterTlb cl n => tell 3 cl (s.modCluster cl (fun c => { c with tlb := dropAt c.tlb n }))
  | .dieTlb die n => tell 3 die (s.modDie die (fun d => { d with tlb := dropAt d.tlb n }))
  | .walker die n => tell 3 die (s.modDie die (fun d => { d with ptrs := dropAt d.ptrs n }))
  | .register core _ => tell 2 core (meetError s (s.core core).launch core)
  | .matrix core => tell 2 core (meetError s (s.core core).launch core)
  | .staging op =>
    match s.op? op with
    | none => .next s
    | some o => tell 2 op (meetError s (some o.launch) o.core)
  | .dispatcher die => tell 1 die (s.modDie die (fun d => { d with healthy := false }))
  | .policy => tell 1 0 s

/-- CORRECTED_ERROR: counted for the policy core, with no other effect (R380). -/
def execCorrectedError (_u : ErrUnit) (s : State) : Out := .next { s with corrected := s.corrected + 1 }

/-- FLIT_REPLAY: a flit is sent again, and nothing else changes (R380). -/
def execFlitReplay (_link : Nat) (s : State) : Out := .next { s with replays := s.replays + 1 }

/-- The first core of a launch. -/
def firstCore (s : State) (l : Nat) : Nat := ((s.launch? l).map (fun x => x.cores.headD 0)).getD 0

/-- LINK_FENCE: a link is fenced after its replays have failed, and the launches that used it are
job-fatal (R380). Which launches those are is the move's to say; the error is no core's own, and the
launch's first core stands for it (log 36). Later launches are routed round a fenced link, which no other
launch then meets. -/
def execLinkFence (link : Nat) (used : List Nat) (s : State) : Out :=
  if s.fenced.contains link then .next s else
  let s := { s with fenced := sins link s.fenced }
  .next ((used.foldl (fun s l => meetError s (some l) (firstCore s l)) s).report (.uncorrectable 4 link))

/-- The PCI Express link meets an error that replay does not correct: an AER report to the host, of the Data
Link Protocol Error (PRESUMED from PCI Express, log 35), which the policy core counts (R380). -/
def pcieError (s : State) : State :=
  if s.power then (aerLog s 4).report (.uncorrectable 5 0) else s

/-- Whether an element's words carry SECDED (R380). -/
def errSecded : ErrUnit → Bool
  | .hbm _ => true
  | .sram _ _ _ => true
  | .table _ => true
  | .coreTlb _ _ => true
  | .clusterTlb _ _ => true
  | .dieTlb _ _ => true
  | .walker _ _ => true
  | .register _ _ => false
  | .matrix _ => false
  | .staging _ => false
  | .dispatcher _ => true
  | .policy => true

/-! ## Islands and power (R16, R383) -/

/-- What an island supplies (R16): a cluster (die × 8 + cluster), a die pool, a die's fabric, one of a base
die's eight, one of an I/O die's thirty-two. -/
inductive Island where
  | cluster (cl : Nat)
  | pool (die : Nat)
  | fabric (die : Nat)
  | base (stack n : Nat)
  | io (die n : Nat)
  deriving DecidableEq, Repr

/-- The island of a number (R16): ten for each compute die, then eight for each base die, then thirty-two
for each I/O die (DESIGN CHOICE: the numbering, log 36). On a die that the grade fuses off only the fabric
island stays in service (R2, R13). -/
def islandOf (s : State) (n : Nat) : Option Island :=
  if n < 640 then
    if n % 10 = 9 then some (.fabric (n / 10))
    else if n / 10 < s.ndies then some (if n % 10 = 8 then .pool (n / 10) else .cluster (n / 10 * 8 + n % 10))
    else none
  else if n < 896 then some (.base ((n - 640) / 8) ((n - 640) % 8))
  else if n < 1024 then some (.io ((n - 896) / 32) ((n - 896) % 32))
  else none

/-- The frequency of an island in MHz and its voltage in mV: the main clock, and the implementation's, until
the firmware sets them (log 36). -/
def islandRate (s : State) (n : Nat) : Nat × Nat := tget s.islands n (1800, Config.islandVolt n)

/-- Sets an island's frequency, which changes only timing (R383). -/
def islandClock (s : State) (n mhz : Nat) : State := { s with islands := tset n (mhz, (islandRate s n).2) s.islands }

/-- POWER_CAP: hardware lowers the frequency of a cluster island (R383); a capped island of another kind
keeps its clock. -/
def execPowerCap (island rate : Nat) (s : State) : Out :=
  match islandOf s island with
  | none => .fault .noSuchUnit
  | some (.cluster _) => .next (islandClock s island (min rate (islandRate s island).1))
  | some _ => .next s

/-- THERMAL_THROTTLE: an island's clock is halved (R383). -/
def execThermalThrottle (island : Nat) (s : State) : Out :=
  match islandOf s island with
  | none => .fault .noSuchUnit
  | some _ => .next (islandClock s island ((islandRate s island).1 / 2))

/-- The firmware sets the frequency and the voltage of an island (R383). -/
def islandSet (n mhz mv : Nat) (s : State) : State :=
  if s.holder = .firmware ∧ (islandOf s n).isSome then { s with islands := tset n (mhz, mv) s.islands } else s

end Sys2Proof.Machine
end

