-- ==== Sys2Proof/Machine/Crypto.lean ====
section
/-! DEFINITION. SHA-384 and ECDSA on the 384-bit random Brainpool curve (spec/15 R367), as FIPS 180-4,
FIPS 186 and RFC 5639 (brainpoolP384r1) give them. Numbers in keys and signatures are big-endian
(PRESUMED, log 39). -/

namespace Sys2Proof.Machine
open Sys2Proof

/-! ## SHA-384 -/

/-- The number of bytes, the first the most significant. -/
def beNat (bs : List Byte) : Nat := bs.foldl (fun n b => n * 256 + b.toNat) 0

/-- A number as `n` bytes, the most significant first. -/
def beBytes (n v : Nat) : List Byte := (leBytes n v).reverse

/-- Round constants 0 to 15. -/
def shaK0 : List DWord :=
  [0x428A2F98D728AE22#64, 0x7137449123EF65CD#64, 0xB5C0FBCFEC4D3B2F#64, 0xE9B5DBA58189DBBC#64,
   0x3956C25BF348B538#64, 0x59F111F1B605D019#64, 0x923F82A4AF194F9B#64, 0xAB1C5ED5DA6D8118#64,
   0xD807AA98A3030242#64, 0x12835B0145706FBE#64, 0x243185BE4EE4B28C#64, 0x550C7DC3D5FFB4E2#64,
   0x72BE5D74F27B896F#64, 0x80DEB1FE3B1696B1#64, 0x9BDC06A725C71235#64, 0xC19BF174CF692694#64]

/-- Round constants 16 to 31. -/
def shaK1 : List DWord :=
  [0xE49B69C19EF14AD2#64, 0xEFBE4786384F25E3#64, 0x0FC19DC68B8CD5B5#64, 0x240CA1CC77AC9C65#64,
   0x2DE92C6F592B0275#64, 0x4A7484AA6EA6E483#64, 0x5CB0A9DCBD41FBD4#64, 0x76F988DA831153B5#64,
   0x983E5152EE66DFAB#64, 0xA831C66D2DB43210#64, 0xB00327C898FB213F#64, 0xBF597FC7BEEF0EE4#64,
   0xC6E00BF33DA88FC2#64, 0xD5A79147930AA725#64, 0x06CA6351E003826F#64, 0x142929670A0E6E70#64]

/-- Round constants 32 to 47. -/
def shaK2 : List DWord :=
  [0x27B70A8546D22FFC#64, 0x2E1B21385C26C926#64, 0x4D2C6DFC5AC42AED#64, 0x53380D139D95B3DF#64,
   0x650A73548BAF63DE#64, 0x766A0ABB3C77B2A8#64, 0x81C2C92E47EDAEE6#64, 0x92722C851482353B#64,
   0xA2BFE8A14CF10364#64, 0xA81A664BBC423001#64, 0xC24B8B70D0F89791#64, 0xC76C51A30654BE30#64,
   0xD192E819D6EF5218#64, 0xD69906245565A910#64, 0xF40E35855771202A#64, 0x106AA07032BBD1B8#64]

/-- Round constants 48 to 63. -/
def shaK3 : List DWord :=
  [0x19A4C116B8D2D0C8#64, 0x1E376C085141AB53#64, 0x2748774CDF8EEB99#64, 0x34B0BCB5E19B48A8#64,
   0x391C0CB3C5C95A63#64, 0x4ED8AA4AE3418ACB#64, 0x5B9CCA4F7763E373#64, 0x682E6FF3D6B2B8A3#64,
   0x748F82EE5DEFB2FC#64, 0x78A5636F43172F60#64, 0x84C87814A1F0AB72#64, 0x8CC702081A6439EC#64,
   0x90BEFFFA23631E28#64, 0xA4506CEBDE82BDE9#64, 0xBEF9A3F7B2C67915#64, 0xC67178F2E372532B#64]

/-- Round constants 64 to 79. -/
def shaK4 : List DWord :=
  [0xCA273ECEEA26619C#64, 0xD186B8C721C0C207#64, 0xEADA7DD6CDE0EB1E#64, 0xF57D4F7FEE6ED178#64,
   0x06F067AA72176FBA#64, 0x0A637DC5A2C898A6#64, 0x113F9804BEF90DAE#64, 0x1B710B35131C471B#64,
   0x28DB77F523047D84#64, 0x32CAAB7B40C72493#64, 0x3C9EBE0A15C9BEBC#64, 0x431D67C49C100D4C#64,
   0x4CC5D4BECB3E42B6#64, 0x597F299CFC657E2A#64, 0x5FCB6FAB3AD6FAEC#64, 0x6C44198C4A475817#64]

/-- The round constants of SHA-512 and SHA-384. -/
def shaK : List DWord := shaK0 ++ shaK1 ++ shaK2 ++ shaK3 ++ shaK4

/-- The initial hash value of SHA-384. -/
def shaInit : List DWord :=
  [0xCBBB9D5DC1059ED8#64, 0x629A292A367CD507#64, 0x9159015A3070DD17#64, 0x152FECD8F70E5939#64,
   0x67332667FFC00B31#64, 0x8EB44A8768581511#64, 0xDB0C2E0D64F98FA7#64, 0x47B5481DBEFA4FA4#64]

/-- The message padded to whole blocks of 128 bytes: 0x80, zeroes, and its length in bits. -/
def shaPad (bs : List Byte) : List Byte :=
  bs ++ [0x80#8] ++ List.replicate ((239 - bs.length % 128) % 128) 0#8 ++ beBytes 16 (8 * bs.length)

/-- The sixteen words of a block, the last first. -/
def shaWords (blk : List Byte) : List DWord :=
  ((List.range 16).map (fun i => BitVec.ofNat 64 (beNat ((blk.drop (8 * i)).take 8)))).reverse

/-- The message schedule with `n` more words, the last first. -/
def shaSchedule : Nat → List DWord → List DWord
  | 0, ws => ws
  | n + 1, ws =>
    let a := ws.getD 1 0#64
    let b := ws.getD 14 0#64
    let s1 := a.rotateRight 19 ^^^ a.rotateRight 61 ^^^ (a >>> 6)
    let s0 := b.rotateRight 1 ^^^ b.rotateRight 8 ^^^ (b >>> 7)
    shaSchedule n ((s1 + ws.getD 6 0#64 + s0 + ws.getD 15 0#64) :: ws)

/-- One round on the eight working variables. -/
def shaRound (v : List DWord) (kw : DWord × DWord) : List DWord :=
  let x (i : Nat) : DWord := v.getD i 0#64
  let e1 := (x 4).rotateRight 14 ^^^ (x 4).rotateRight 18 ^^^ (x 4).rotateRight 41
  let ch := (x 4 &&& x 5) ^^^ (~~~x 4 &&& x 6)
  let t1 := x 7 + e1 + ch + kw.1 + kw.2
  let e0 := (x 0).rotateRight 28 ^^^ (x 0).rotateRight 34 ^^^ (x 0).rotateRight 39
  let maj := (x 0 &&& x 1) ^^^ (x 0 &&& x 2) ^^^ (x 1 &&& x 2)
  [t1 + e0 + maj, x 0, x 1, x 2, x 3 + t1, x 4, x 5, x 6]

/-- The hash value after a block. -/
def shaBlock (h : List DWord) (blk : List Byte) : List DWord :=
  let w := (shaSchedule 64 (shaWords blk)).reverse
  (h.zip ((shaK.zip w).foldl shaRound h)).map (fun p => p.1 + p.2)

/-- The hash value after `n` blocks. -/
def shaBlocks : Nat → List DWord → List Byte → List DWord
  | 0, h, _ => h
  | n + 1, h, bs => shaBlocks n (shaBlock h (bs.take 128)) (bs.drop 128)

/-- SHA-384 of bytes, 48 bytes (R367). -/
def sha384 (bs : List Byte) : List Byte :=
  let m := shaPad bs
  ((shaBlocks (m.length / 128) shaInit m).flatMap (fun x => beBytes 8 x.toNat)).take 48

/-! ## The curve (R367) -/

/-- The prime of the field. -/
def ecP : Nat :=
  0x8CB91E82A3386D280F5D6F7E50E641DF152F7109ED5456B412B1DA197FB71123ACD3A729901D1A71874700133107EC53
/-- The curve's coefficient A. -/
def ecA : Nat :=
  0x7BC382C63D8C150C3C72080ACE05AFA0C2BEA28E4FB22787139165EFBA91F90F8AA5814A503AD4EB04A8C7DD22CE2826
/-- The curve's coefficient B. -/
def ecB : Nat :=
  0x04A8C7DD22CE28268B39B55416F0447C2FB77DE107DCD2A62E880EA53EEB62D57CB4390295DBC9943AB78696FA504C11
/-- The base point's x. -/
def ecX : Nat :=
  0x1D1C64F068CF45FFA2A63A81B7C13F6B8847A3E77EF14FE3DB7FCAFE0CBD10E8E826E03436D646AAEF87B2E247D4AF1E
/-- The base point's y. -/
def ecY : Nat :=
  0x8ABE1D7520F9C2A45CB1EB8E95CFD55262B70B29FEEC5864E19C054FF99129280E4646217791811142820341263C5315
/-- The order of the base point. -/
def ecQ : Nat :=
  0x8CB91E82A3386D280F5D6F7E50E641DF152F7109ED5456B31F166E6CAC0425A7CF3AB6AF6B7FC3103B883202E9046565

/-- x^e mod m, for an exponent of at most `n` bits. -/
def powMod (m x : Nat) : Nat → Nat → Nat
  | 0, _ => 1 % m
  | n + 1, e =>
    let r := powMod m x n (e / 2)
    if e % 2 = 1 then r * r % m * x % m else r * r % m

/-- The inverse modulo a prime of 384 bits. -/
def invMod (m x : Nat) : Nat := powMod m (x % m) 384 (m - 2)

/-- a − b modulo m, for b below m. -/
def subMod (m a b : Nat) : Nat := (a + (m - b)) % m

/-- The sum of two points; `none` is the point at infinity. -/
def ecAdd : Option (Nat × Nat) → Option (Nat × Nat) → Option (Nat × Nat)
  | none, v => v
  | u, none => u
  | some (x, y), some (z, w) =>
    if x = z ∧ (y + w) % ecP = 0 then none
    else
      let l := if x = z then (3 * x * x + ecA) % ecP * invMod ecP (2 * y) % ecP
        else subMod ecP w y * invMod ecP (subMod ecP z x) % ecP
      let r := subMod ecP (subMod ecP (l * l) x) z
      some (r, subMod ecP (l * subMod ecP x r) y)

/-- k times a point, for a k of at most `n` bits. -/
def ecMul (u : Option (Nat × Nat)) : Nat → Nat → Option (Nat × Nat)
  | 0, _ => none
  | n + 1, k =>
    let h := ecMul u n (k / 2)
    let d := ecAdd h h
    if k % 2 = 1 then ecAdd d u else d

/-- The base point. -/
def ecG : Option (Nat × Nat) := some (ecX, ecY)

/-- The public key of 96 bytes, x then y, if it is a point of the curve (R367). -/
def ecKey (key : List Byte) : Option (Nat × Nat) :=
  let x := beNat (key.take 48)
  let y := beNat ((key.drop 48).take 48)
  if key.length = 96 ∧ x < ecP ∧ y < ecP ∧ y * y % ecP = (x * x % ecP * x + ecA * x + ecB) % ecP then some (x, y)
  else none

/-- Whether a signature of 96 bytes, r then s, over bytes verifies under a public key (R367). -/
def ecdsaVerify (key bytes sig : List Byte) : Bool :=
  let r := beNat (sig.take 48)
  let t := beNat ((sig.drop 48).take 48)
  match ecKey key with
  | none => false
  | some u =>
    if sig.length ≠ 96 ∨ r = 0 ∨ ecQ ≤ r ∨ t = 0 ∨ ecQ ≤ t then false
    else
      let w := invMod ecQ t
      let z := beNat (sha384 bytes)
      match ecAdd (ecMul ecG 384 (z * w % ecQ)) (ecMul (some u) 384 (r * w % ecQ)) with
      | none => false
      | some (x, _) => x % ecQ == r

/-- The signature of bytes by a private key with a secret number below the order (R367). -/
def ecdsaSign (key : List Byte) (k : Nat) (bytes : List Byte) : List Byte :=
  let r := (ecMul ecG 384 k).elim 0 Prod.fst % ecQ
  let t := invMod ecQ k * (beNat (sha384 bytes) + r * beNat key) % ecQ
  beBytes 48 r ++ beBytes 48 t

end Sys2Proof.Machine
end

