-- ==== Sys2Proof/Machine/Policy.lean ====
section
/-! DEFINITION. The policy core (spec/01 R10, spec/15 R364): RV32IMC as RISC-V's unprivileged manual gives
it, on 256 KiB of TCM at address 0 (PRESUMED, log 44). -/

namespace Sys2Proof.Machine
open Sys2Proof

/-- Bytes of the policy core's TCM that firmware may use; the rest belongs to Utonauz (R364). -/
def policySize : Nat := 229376

/-! ## Instructions -/

/-- An instruction of RV32IM. `f` is a function code: of an operation 0 add, 1 sll, 2 slt, 3 sltu, 4 xor,
5 srl, 6 or, 7 and, 8 sub, 13 sra; otherwise funct3. -/
inductive RvOp where
  | lui (rd : Nat) (imm : Word)
  | auipc (rd : Nat) (imm : Word)
  | jal (rd : Nat) (off : Word)
  | jalr (rd a : Nat) (off : Word)
  | branch (f a b : Nat) (off : Word)
  | load (f rd a : Nat) (off : Word)
  | store (f b a : Nat) (off : Word)
  | imm (f rd a : Nat) (v : Word)
  | op (f rd a b : Nat)
  | muldiv (f rd a b : Nat)
  | fence
  deriving DecidableEq, Repr

/-- The low `n` bits of a number, sign-extended to a word. -/
def rvSext (n v : Nat) : Word := (BitVec.ofNat n v).signExtend 32

/-- The function of an operation from funct3 and funct7, if there is one. -/
def rvFun (f f7 : Nat) : Option Nat :=
  if f7 = 0 then some f
  else if f7 = 0x20 ∧ f = 0 then some 8
  else if f7 = 0x20 ∧ f = 5 then some 13
  else none

/-- An instruction of 32 bits. -/
def rvDecode (w : Nat) : Option RvOp :=
  let rd := nbits w 7 5
  let f := nbits w 12 3
  let a := nbits w 15 5
  let b := nbits w 20 5
  let f7 := nbits w 25 7
  let i := rvSext 12 (nbits w 20 12)
  match w % 128 with
  | 0x37 => some (.lui rd (BitVec.ofNat 32 (w / 4096 * 4096)))
  | 0x17 => some (.auipc rd (BitVec.ofNat 32 (w / 4096 * 4096)))
  | 0x6F => some (.jal rd (rvSext 21 (nbits w 31 1 * 2 ^ 20 + nbits w 12 8 * 2 ^ 12 + nbits w 20 1 * 2 ^ 11 + nbits w 21 10 * 2)))
  | 0x67 => if f = 0 then some (.jalr rd a i) else none
  | 0x63 =>
    if f = 2 ∨ f = 3 then none
    else some (.branch f a b (rvSext 13 (nbits w 31 1 * 2 ^ 12 + nbits w 7 1 * 2 ^ 11 + nbits w 25 6 * 2 ^ 5 + nbits w 8 4 * 2)))
  | 0x03 => if f = 3 ∨ 5 < f then none else some (.load f rd a i)
  | 0x23 => if 2 < f then none else some (.store f b a (rvSext 12 (f7 * 32 + rd)))
  | 0x13 =>
    if f = 1 then (if f7 = 0 then some (.imm 1 rd a (BitVec.ofNat 32 b)) else none)
    else if f = 5 then (rvFun 5 f7).map (fun g => .imm g rd a (BitVec.ofNat 32 b))
    else some (.imm f rd a i)
  | 0x33 => if f7 = 1 then some (.muldiv f rd a b) else (rvFun f f7).map (fun g => .op g rd a b)
  | 0x0F => if f = 0 then some .fence else none
  | _ => none

/-- The offset of C.J and C.JAL. -/
def rvcJump (h : Nat) : Word :=
  rvSext 12 (nbits h 12 1 * 2048 + nbits h 11 1 * 16 + nbits h 9 2 * 256 + nbits h 8 1 * 1024 + nbits h 7 1 * 64
    + nbits h 6 1 * 128 + nbits h 3 3 * 2 + nbits h 2 1 * 32)

/-- The offset of C.BEQZ and C.BNEZ. -/
def rvcBranch (h : Nat) : Word :=
  rvSext 9 (nbits h 12 1 * 256 + nbits h 10 2 * 8 + nbits h 5 2 * 64 + nbits h 3 2 * 2 + nbits h 2 1 * 32)

/-- A compressed instruction of quadrant 0. -/
def rvc0 (h : Nat) : Option RvOp :=
  let x := 8 + nbits h 7 3
  let y := 8 + nbits h 2 3
  let o := BitVec.ofNat 32 (nbits h 10 3 * 8 + nbits h 6 1 * 4 + nbits h 5 1 * 64)
  let n := nbits h 11 2 * 16 + nbits h 7 4 * 64 + nbits h 6 1 * 4 + nbits h 5 1 * 8
  match nbits h 13 3 with
  | 0 => if n = 0 then none else some (.imm 0 y 2 (BitVec.ofNat 32 n))
  | 2 => some (.load 2 y x o)
  | 6 => some (.store 2 y x o)
  | _ => none

/-- A compressed instruction of quadrant 1. -/
def rvc1 (h : Nat) : Option RvOp :=
  let rd := nbits h 7 5
  let x := 8 + nbits h 7 3
  let y := 8 + nbits h 2 3
  let six := nbits h 12 1 * 32 + nbits h 2 5
  match nbits h 13 3 with
  | 0 => some (.imm 0 rd rd (rvSext 6 six))
  | 1 => some (.jal 1 (rvcJump h))
  | 2 => some (.imm 0 rd 0 (rvSext 6 six))
  | 3 =>
    if six = 0 then none
    else if rd = 2 then
      some (.imm 0 2 2 (rvSext 10 (nbits h 12 1 * 512 + nbits h 6 1 * 16 + nbits h 5 1 * 64 + nbits h 3 2 * 128 + nbits h 2 1 * 32)))
    else some (.lui rd (rvSext 18 (six * 4096)))
  | 4 =>
    match nbits h 10 2 with
    | 0 => if nbit h 12 then none else some (.imm 5 x x (BitVec.ofNat 32 six))
    | 1 => if nbit h 12 then none else some (.imm 13 x x (BitVec.ofNat 32 six))
    | 2 => some (.imm 7 x x (rvSext 6 six))
    | _ =>
      if nbit h 12 then none
      else some (.op (match nbits h 5 2 with
        | 0 => 8
        | 1 => 4
        | 2 => 6
        | _ => 7) x x y)
  | 5 => some (.jal 0 (rvcJump h))
  | 6 => some (.branch 0 x 0 (rvcBranch h))
  | _ => some (.branch 1 x 0 (rvcBranch h))

/-- A compressed instruction of quadrant 2. -/
def rvc2 (h : Nat) : Option RvOp :=
  let rd := nbits h 7 5
  let b := nbits h 2 5
  match nbits h 13 3 with
  | 0 => if nbit h 12 then none else some (.imm 1 rd rd (BitVec.ofNat 32 b))
  | 2 =>
    if rd = 0 then none
    else some (.load 2 rd 2 (BitVec.ofNat 32 (nbits h 12 1 * 32 + nbits h 4 3 * 4 + nbits h 2 2 * 64)))
  | 4 =>
    if b = 0 then
      if rd = 0 then none else some (.jalr (nbits h 12 1) rd 0#32)
    else some (.op 0 rd (if nbit h 12 then rd else 0) b)
  | 6 => some (.store 2 b 2 (BitVec.ofNat 32 (nbits h 9 4 * 4 + nbits h 7 2 * 64)))
  | _ => none

/-- The instruction at an address of the policy core's memory with its length; outside the firmware's part of
the memory there is none, and the core stays where it is (DESIGN CHOICE, log 44). -/
def rvFetch (m : List Host.Cell) (pc : Nat) : Option (RvOp × Nat) :=
  let h := leNat (memRead pc 2 m)
  if pc % 2 ≠ 0 ∨ policySize < pc + 2 then none
  else
    match h % 4 with
    | 0 => (rvc0 h).map (fun o => (o, 2))
    | 1 => (rvc1 h).map (fun o => (o, 2))
    | 2 => (rvc2 h).map (fun o => (o, 2))
    | _ => if policySize < pc + 4 then none else (rvDecode (leNat (memRead pc 4 m))).map (fun o => (o, 4))

/-! ## Execution -/

/-- The result of an operation. -/
def rvAlu (f : Nat) (x y : Word) : Word :=
  let n := y.toNat % 32
  match f with
  | 0 => x + y
  | 1 => x <<< n
  | 2 => if x.slt y then 1#32 else 0#32
  | 3 => if x.ult y then 1#32 else 0#32
  | 4 => x ^^^ y
  | 5 => x >>> n
  | 6 => x ||| y
  | 7 => x &&& y
  | 8 => x - y
  | _ => x.sshiftRight n

/-- The result of an instruction of the M extension, by funct3. -/
def rvMulDiv (f : Nat) (x y : Word) : Word :=
  match f with
  | 0 => x * y
  | 1 => BitVec.ofInt 32 (x.toInt * y.toInt / 2 ^ 32)
  | 2 => BitVec.ofInt 32 (x.toInt * (y.toNat : Int) / 2 ^ 32)
  | 3 => BitVec.ofNat 32 (x.toNat * y.toNat / 2 ^ 32)
  | 4 => if y = 0#32 then BitVec.ofNat 32 (2 ^ 32 - 1) else BitVec.ofInt 32 (x.toInt.tdiv y.toInt)
  | 5 => if y = 0#32 then BitVec.ofNat 32 (2 ^ 32 - 1) else x / y
  | 6 => if y = 0#32 then x else BitVec.ofInt 32 (x.toInt.tmod y.toInt)
  | _ => if y = 0#32 then x else x % y

/-- Whether a branch is taken, by funct3. -/
def rvTaken (f : Nat) (x y : Word) : Bool :=
  match f with
  | 0 => x == y
  | 1 => x != y
  | 4 => x.slt y
  | 5 => !x.slt y
  | 6 => x.ult y
  | _ => !x.ult y

/-- A register of the policy core; x0 is zero. -/
def State.px (s : State) (r : Nat) : Word := if r = 0 then 0#32 else s.policyRegs.toList.getD r 0#32

/-- The policy core's instruction retires: a register's new value and the next pc. -/
def State.pretire (s : State) (rd : Nat) (v pc : Word) : State :=
  { s with policyRegs := if rd = 0 then s.policyRegs else s.policyRegs.set! rd v, policyPc := pc }

/-- Bytes of a load or store, by funct3. -/
def rvBytes (f : Nat) : Nat := 2 ^ (f % 4)

/-- An access in the firmware's part of the TCM. What stands elsewhere, the spec does not say. -/
def rvInTcm (a n : Nat) : Bool := decide (a + n ≤ policySize)

/-- What a load gets: TCM bytes, or a free value elsewhere (DESIGN CHOICE, log 44). -/
def rvLoad (s : State) (f a : Nat) : Word × State :=
  let n := rvBytes f
  let (v, s) := if rvInTcm a n then (leNat (memRead a n s.policyTcm), s) else s.free
  (if f < 4 then rvSext (8 * n) v else BitVec.ofNat 32 (v % 2 ^ (8 * n)), s)

/-- One instruction of the policy core, of `n` bytes. A load or store at an address that is no multiple of its
size is performed whole (DESIGN CHOICE, log 44). -/
def rvExec (s : State) (n : Nat) : RvOp → State
  | .lui rd v => s.pretire rd v (s.policyPc + BitVec.ofNat 32 n)
  | .auipc rd v => s.pretire rd (s.policyPc + v) (s.policyPc + BitVec.ofNat 32 n)
  | .jal rd o => s.pretire rd (s.policyPc + BitVec.ofNat 32 n) (s.policyPc + o)
  | .jalr rd a o => s.pretire rd (s.policyPc + BitVec.ofNat 32 n) ((s.px a + o) &&& ~~~1#32)
  | .branch f a b o =>
    s.pretire 0 0#32 (s.policyPc + if rvTaken f (s.px a) (s.px b) then o else BitVec.ofNat 32 n)
  | .load f rd a o =>
    let (v, s) := rvLoad s f (s.px a + o).toNat
    s.pretire rd v (s.policyPc + BitVec.ofNat 32 n)
  | .store f b a o =>
    let x := (s.px a + o).toNat
    let m := if rvInTcm x (rvBytes f) then memWrite x (leBytes (rvBytes f) (s.px b).toNat) s.policyTcm else s.policyTcm
    { s with policyTcm := m }.pretire 0 0#32 (s.policyPc + BitVec.ofNat 32 n)
  | .imm f rd a v => s.pretire rd (rvAlu f (s.px a) v) (s.policyPc + BitVec.ofNat 32 n)
  | .op f rd a b => s.pretire rd (rvAlu f (s.px a) (s.px b)) (s.policyPc + BitVec.ofNat 32 n)
  | .muldiv f rd a b => s.pretire rd (rvMulDiv f (s.px a) (s.px b)) (s.policyPc + BitVec.ofNat 32 n)
  | .fence => s.pretire 0 0#32 (s.policyPc + BitVec.ofNat 32 n)

/-- The policy core executes an instruction while firmware holds it, and Utonauz serves no command of its
own (R364, R365, R371). One outside RV32IMC, or that calls its environment, stays where it is: the spec
gives the core no trap (DESIGN CHOICE, log 44). -/
def policyStep (s : State) : State :=
  if !s.power || s.stopped || s.policyHalted || decide (s.holder = .utonauz) || s.mbxCmd.any (fun c => decide (c.code < 0x40)) then s
  else
    match rvFetch s.policyTcm s.policyPc.toNat with
    | none => s
    | some (o, n) => rvExec s n o

end Sys2Proof.Machine
end

