-- ==== Sys2Proof/Machine/Transport.lean ====
section
/-! DEFINITION. The collective transport: arriving frames, acknowledgements, replay and the failure of a
channel (spec/15 R360 to R363, spec/03 R71). -/

namespace Sys2Proof.Machine
open Sys2Proof

/-! ## The receiving end (R361, R363, R71) -/

/-- The place of a far write at this module: a page or a window that its PASID may write here (R55, R71). The
policy core is told of a page table in a poisoned unit (R75). -/
def remotePlace (s : State) (pasid va n : Nat) : Option (Nat × Option Chk) × State :=
  if inTcm va || inSpm va then (none, s)
  else
    match locateNow s .io 0 pasid .store va n with
    | (.ok (.home h c), s) => (if chkOk s pasid c then some (h, c) else none, s)
    | (.ok (.pcie h _), s) => (some (h, none), s)
    | (.error .poison, s) => (none, s.report (.poisoned pasid va))
    | (_, s) => (none, s)

/-- The granules of a far write with their addresses and places, or none where one of them faults. -/
def remotePlaces (pasid : Nat) :
    State → List (Nat × List Byte) → Option (List (Nat × Nat × Option Chk × List Byte)) × State
  | s, [] => (some [], s)
  | s, (va, bs) :: r =>
    match remotePlace s pasid va bs.length with
    | (none, s) => (none, s)
    | (some (h, c), s) =>
      let (l, s) := remotePlaces pasid s r
      (l.map (fun l => (va, h, c, bs) :: l), s)

/-- Bytes at an address cut into granules; `fuel` bounds them. -/
def cutGranules : Nat → Nat → List Byte → List (Nat × List Byte)
  | 0, _, _ => []
  | fuel + 1, va, bs =>
    if bs.isEmpty then []
    else
      let k := min (16 - va % 16) bs.length
      (va, bs.take k) :: cutGranules fuel (va + k) (bs.drop k)

/-- A frame of class 0 that is accepted: its writes, or false where one of them faults, and none is then
made (log 37). A 64-byte unit that the frame writes whole loses its poison mark (R75). -/
def farWrite (s : State) (pasid addr : Nat) (bs : List Byte) : Bool × State :=
  let whole (va : Nat) : Bool := decide (addr ≤ va / 64 * 64) && decide (va / 64 * 64 + 64 ≤ addr + bs.length)
  match remotePlaces pasid s (cutGranules (bs.length / 16 + 2) addr bs) with
  | (none, s) => (false, s)
  | (some l, s) => (true, l.foldl (fun s w => perform s 96 pasid w.2.1 w.2.2.2 [] w.2.2.1 (whole w.1)) s)

/-- What has come of a read of bytes inside a granule by another module: it is checked against the remote
PASID and read at its home, over the link or through the sluice window (R55, R71, R96; log 30). A poisoned
unit gives no data, and the policy core is told (R75). -/
def farRead (s : State) (q : FarIn) : Option (Option (List Byte)) × State :=
  if inTcm q.va || inSpm q.va || decide (16 < q.va % 16 + q.len) then (some none, s)
  else
    let bad (s : State) : Option (Option (List Byte)) × State := (some none, s.report (.poisoned q.pasid q.va))
    match locateNow s .io 0 q.pasid .load q.va q.len with
    | (.ok (.home h _), s) => if poisoned s h q.len then bad s else (some (some (memRead h q.len s.mem)), s)
    | (.ok (.pcie h _), s) => ioPcie s (.far q.id) q.pasid h q.len q.va
    | (.ok (.sluice d w off), s) =>
      match sluiceRead s .io (.far q.id) q.pasid d w off q.len with
      | (.ok bs, s) => (some (some bs), s)
      | (.error .later, s) => (none, s)
      | (.error .poison, s) => bad s
      | (.error _, s) => (some none, s)
    | (.error .poison, s) => bad s
    | (_, s) => (some none, s)

/-- A read of another module goes on; its answer goes back, without data where it fails (R71). -/
def farGo (id : Nat) (s : State) : State :=
  match s.farIn.find? (fun q => q.id == id) with
  | none => s
  | some q =>
    match farRead s q with
    | (none, s) => s
    | (some bs, s) =>
      ioClear { s with farIn := s.farIn.filter (fun x => x.id != id)
                       farOut := s.farOut ++ [{ rmod := q.rmod, bytes := bs }] } (.far id)

/-- Another module reads bytes inside a granule through a far window of its own (R71). -/
def farServe (rmod pasid va len : Nat) (s : State) : State :=
  if !s.power || !s.released then s
  else
    let (id, s) := s.fresh
    farGo id { s with farIn := s.farIn ++ [{ id := id, rmod := rmod, pasid := pasid, va := va, len := len }] }

/-- The answer to a read of this module through a far window comes (R71). -/
def farAnswer (id : Nat) (bs : Option (List Byte)) (s : State) : State :=
  match s.farReads.find? (fun r => r.id == id) with
  | none => s
  | some r =>
    if bs.any (fun l => l.length != r.len) then s else
    { s with farReads := s.farReads.filter (fun x => x.id != id)
             ioGot := s.ioGot ++ [{ owner := .op r.op, addr := r.addr, bytes := bs }] }

/-- DATA: a frame whose SEQ is the expected one is accepted and performed, and acknowledged; another SEQ
is answered with a NAK; a frame that is not whole is dropped (R361). A far write that faults here is
answered with an ABORT frame of its SEQ (log 37). -/
def execData (bs : List Byte) (s : State) : Out :=
  if !s.power || !s.released || !frameOk s bs 0 then .next s
  else
    let src := frameNum bs 4 2
    let cls := frameNum bs 1 1
    let seq := frameNum bs 8 4
    let pasid := frameNum bs 16 4
    let c := theChannel s src cls
    if seq ≠ c.expect then .next (emit (putChannel s c) c 2 0 pasid 0 [])
    else
      let c' := { c with expect := (seq + 1) % 2 ^ 32 }
      let s := putChannel s c'
      if cls = 0 then
        match farWrite s pasid (frameNum bs 24 8) (framePayload bs) with
        | (true, s) => .next (emit s c' 1 0 pasid 0 [])
        | (false, s) => .next (emit s c' 3 seq pasid 0 [])
      else
        let d : CollData := { pasid := pasid, match_ := frameNum bs 24 8, rmod := src, payload := framePayload bs }
        .next (emit { s with collData := s.collData ++ [d] } c' 1 0 pasid 0 [])

/-! ## The sending end (R361) -/

/-- Whether a sequence number is below another (R361). -/
def seqBelow (a b : Nat) : Bool := decide ((b + 2 ^ 32 - a - 1) % 2 ^ 32 < 2 ^ 31)

/-- A channel after every frame below `n` is acknowledged: progress ends a run of resends. -/
def ackBelow (s : State) (c : Channel) (n : Nat) : Channel :=
  let left := c.unacked.filter (fun f => !seqBelow f.seq n)
  if left.length < c.unacked.length then { c with unacked := left, resends := 0, since := s.cycle } else c

/-- Every unacknowledged frame of a channel goes out again. -/
def resendAll (s : State) (c : Channel) : State :=
  c.unacked.foldl (fun s f => emit s c 0 f.seq f.pasid f.addr f.payload) s

/-- Whether a collective waits on a module: frames to it are unacknowledged, or its part has not come. -/
def waitsModule (s : State) (c : Channel) (o : Op) : Bool :=
  opClass o.instr == 5 && o.st == .running &&
    (c.unacked.any (fun f => f.op == o.id) ||
      (o.match_ s).any (fun m => match m with
        | .away n r => r == c.peer && (missingParts s o).contains n
        | .here _ _ => false))

/-- A channel fails: the policy core is told, and what waits on it ends FAULTED (R361), a far copy also where all
its frames have been sent (R363). -/
def failChannel (s : State) (c : Channel) : State :=
  let s := (putChannel s { c with failed := true }).report (.channel c.peer c.cls)
  let s := if c.cls = 0 then
      (s.farReads.filter (fun r => r.rmod == c.peer)).foldl (fun s r => farAnswer r.id none s) s
    else s
  { s with ops := s.ops.map (fun o =>
      if c.cls = 0 && c.unacked.any (fun f => f.op == o.id) then
        overrideEnd (farFail c.unacked o) o
      else if c.cls = 1 && waitsModule s c o then
        decideEnd { st := .faulted, cause := 0x47, addr := 0,
                    member := (match missingParts s o with
                      | [] => 0xFFFF
                      | m :: r => r.foldl min m), progress := o.prog } o
      else o) }

/-- The sender resends from the first unacknowledged frame; after 32 resends without progress the
channel fails (R361). -/
def resendFrom (s : State) (c : Channel) : State :=
  if c.unacked.isEmpty then putChannel s c
  else if 32 ≤ c.resends then failChannel s c
  else
    let c := { c with resends := c.resends + 1, since := s.cycle }
    resendAll (putChannel s c) c

/-- The channel that an acknowledging frame names, if it is whole and the channel stands. -/
def ackChannel (s : State) (bs : List Byte) (kind : Nat) : Option Channel :=
  if !s.power || !frameOk s bs kind then none
  else
    match channel? s (frameNum bs 4 2) (frameNum bs 1 1) with
    | none => none
    | some c => if c.failed then none else some (ackBelow s c (frameNum bs 12 4))

/-- ACK: every frame below ACKSEQ is acknowledged (R361). -/
def execAck (bs : List Byte) (s : State) : Out :=
  match ackChannel s bs 1 with
  | none => .next s
  | some c => .next (putChannel s c)

/-- NAK: every frame below ACKSEQ is acknowledged, and the rest go out again (R361). -/
def execNak (bs : List Byte) (s : State) : Out :=
  match ackChannel s bs 2 with
  | none => .next s
  | some c => .next (resendFrom s c)

/-- PROBE: the spec gives the arrival of one no effect on the module (R360). -/
def execProbe (_bs : List Byte) (s : State) : Out := .next s

/-- REPLAY_TIMEOUT: 10 µs have passed on a channel without progress, and the sender resends (R361). -/
def execReplayTimeout (peer cls : Nat) (s : State) : Out :=
  match channel? s peer cls with
  | none => .next s
  | some c =>
    if c.failed || c.unacked.isEmpty || decide (s.cycle < c.since + 18000) then .next s
    else .next (resendFrom s c)

end Sys2Proof.Machine
end

