-- ==== Sys2Proof/Machine/Firmware.lean ====
section
/-! DEFINITION. Utonauz, the policy core's mailbox, hand-over, the latchkey, reclaim, resets, power and
TIME (spec/15 R357, R364 to R376, R383, R413, spec/14 R352, R353). -/

namespace Sys2Proof.Machine
open Sys2Proof

/-! ## Firmware images (R369) -/

/-- Bytes [a, a + n) of a request, zero beyond its end. -/
def slice (bs : List Byte) (a n : Nat) : List Byte := (List.range n).map (fun i => bs.getD (a + i) 0#8)

/-- A number of `n` bytes at a place. -/
def num (bs : List Byte) (a n : Nat) : Nat := leNat (slice bs a n)

/-- Whether bytes [a, a + n) are zero. -/
def zeroAt (bs : List Byte) (a n : Nat) : Bool := (slice bs a n).all (fun b => b == 0#8)

/-- SIGNER of an image. -/
def imgSigner (bs : List Byte) : Nat := num bs 6 1
/-- SECVER of an image. -/
def imgSecver (bs : List Byte) : Nat := num bs 8 4
/-- LENGTH of an image. -/
def imgLength (bs : List Byte) : Nat := num bs 12 4
/-- The bytes that SIG covers. -/
def imgSigned (bs : List Byte) : List Byte := slice bs 0 64 ++ slice bs 256 (imgLength bs)
/-- The measurement of an image (R368). -/
def imgMeasure (bs : List Byte) : List Byte := sha384 (imgSigned bs)

/-- Whether the fields of an image's header are valid (R369). -/
def imgForm (bs : List Byte) : Bool :=
  num bs 0 4 == 0x4B574657 && num bs 4 2 == 1 && decide (imgSigner bs ≤ 2) && zeroAt bs 7 1 &&
    imgLength bs % 4 == 0 && decide (4 ≤ imgLength bs) && decide (imgLength bs ≤ 229376) && num bs 16 4 % 4 == 0 &&
    decide (num bs 16 4 < imgLength bs) && zeroAt bs 20 44 && zeroAt bs 160 96

/-- The key and the minimum version for an image's signer, none for a lease owner without a lease. -/
def imgKey (s : State) (bs : List Byte) : Option (List Byte × Nat) :=
  match imgSigner bs with
  | 0 => some (s.fuses.vendorKey, s.fuses.minVendor)
  | 1 => some (s.fuses.operatorKey, s.fuses.minOperator)
  | _ => s.lease.map (fun l => (l.owner, l.minver))

/-- Whether an image verifies (R369). -/
def imgOk (s : State) (bs : List Byte) : Bool :=
  imgForm bs && (imgKey s bs).any (fun k => decide (k.2 ≤ imgSecver bs) && ecdsaVerify k.1 (imgSigned bs) (slice bs 64 96))

/-- A vendor or operator image that has verified raises the fused minimum (R369). -/
def raiseMin (s : State) (bs : List Byte) : State :=
  match imgSigner bs with
  | 0 => { s with fuses := { s.fuses with minVendor := max s.fuses.minVendor (imgSecver bs) } }
  | 1 => { s with fuses := { s.fuses with minOperator := max s.fuses.minOperator (imgSecver bs) } }
  | _ => s

/-- An image is loaded at offset 0 of the policy core's TCM and started at ENTRY, and holds the core; the
dies are out of reset (R368). The core's registers start at zero (DESIGN CHOICE, log 44). -/
def startImage (s : State) (bs : List Byte) : State :=
  { raiseMin s bs with
    current := some bs
    policyTcm := memWrite 0 (slice bs 256 (imgLength bs)) s.policyTcm
    policyRegs := Vector.replicate 32 0#32
    policyPc := BitVec.ofNat 32 (num bs 16 4)
    policyHalted := false
    holder := .firmware
    released := true
    recovery := false }

/-- Utonauz chooses and verifies an image and starts it, or stays in recovery (R368 steps 3 to 5). -/
def boot (s : State) (useOwner : Bool) : State :=
  let own := if useOwner && s.lease.isSome then s.stagedOwner else none
  match own.bind (fun b => if imgOk s b then some b else none) with
  | some b => startImage s b
  | none =>
    if imgSigner s.bootImage = 1 && imgOk s s.bootImage then startImage s s.bootImage
    else { s with holder := .utonauz, current := none, recovery := true }

/-! ## Signatures and nonces (R367, R376) -/

/-- A free number, and the counter advanced. -/
def tickFree (s : State) : Nat × State := (s.freeCtr, { s with freeCtr := s.freeCtr + 1 })

/-- The device identity key's signature over bytes, with a secret number that is free (R367, R372, R375). -/
def deviceSign (s : State) (n : Nat) (bs : List Byte) : List Byte :=
  ecdsaSign s.fuses.devKey (1 + Config.freeNat n % (ecQ - 1)) bs

/-- The state number of the life cycle (log 39). -/
def lifeCode : LifeCycle → Nat
  | .test => 0
  | .production => 1
  | .retired => 2

/-- The number of a hand-over state (R371). -/
def handCode : HandState → Nat
  | .none => 0
  | .staged => 1
  | .quiescing => 2
  | .switching => 3

/-- HOLDER of a report (R372): Utonauz, operator firmware (a vendor image counts as it, log 39), or lease
owner firmware. -/
def holderCode (s : State) : Nat :=
  match s.holder, s.current with
  | .firmware, some b => if imgSigner b = 2 then 2 else 1
  | .firmware, none => 0
  | .utonauz, _ => 0

/-- The open latchkey features: in TEST every one that R376 defines. -/
def openFeatures (s : State) : Nat := if s.fuses.life = .test then 0x70F else s.features.toNat

/-- The report of R372 without its signature. -/
def attestBody (s : State) (nonce : List Byte) : List Byte :=
  let meas (o : Option (List Byte)) : List Byte := o.elim (List.replicate 48 0#8) imgMeasure
  let ver (o : Option (List Byte)) : Nat := o.elim 0 imgSecver
  leBytes 4 0x4B574154 ++ leBytes 1 (holderCode s) ++ leBytes 1 (handCode s.hand) ++ leBytes 1 (lifeCode s.fuses.life)
    ++ leBytes 1 0 ++ slice s.fuses.devid 0 16 ++ slice nonce 0 32 ++ leBytes 4 (openFeatures s) ++ leBytes 4 0
    ++ s.lease.elim (List.replicate 16 0#8) (fun l => slice l.id 0 16) ++ meas s.current ++ leBytes 4 (ver s.current)
    ++ leBytes 4 (ver s.staged) ++ meas s.staged ++ leBytes 8 s.time.toNat

/-! ## The commands of Utonauz (R365) -/

/-- What a command makes of the state: a result, a response, and the state. -/
abbrev CmdRes := Nat × List Byte × State

/-- ATTEST (R372). -/
def attestCmd (req : List Byte) (s : State) : CmdRes :=
  let (n, s) := tickFree s
  let b := attestBody s req
  (0, b ++ deviceSign s n b, s)

/-- CHALLENGE (R365, R376). -/
def challengeCmd (s : State) : CmdRes :=
  let (n, s) := tickFree s
  let x := slice (Config.nonce n) 0 32
  (0, x, { s with nonce := some x })

/-- The key that a token's signer names (R376). -/
def tokenKey (s : State) (signer : Nat) : Option (List Byte) :=
  match signer with
  | 0 => some s.fuses.vendorKey
  | 1 => s.lease.map Lease.owner
  | _ => none

/-- FEATURES bits that R376 does not define. -/
def featuresReserved (f : Nat) : Bool := nbits f 4 4 != 0 || nbits f 11 21 != 0

/-- What LATCHKEY answers in PRODUCTION (R376; the result codes of its refusals are the model's, log 39). -/
def latchResult (s : State) (t : List Byte) : Nat :=
  let f := num t 56 4
  let signer := num t 4 1
  if num t 0 4 ≠ 0x4B574C4B ∨ !zeroAt t 5 3 ∨ !zeroAt t 60 4 then 2
  else
    match tokenKey s signer, s.nonce with
    | none, _ => 3
    | _, none => 3
    | some k, some x =>
      if slice t 8 16 ≠ slice s.fuses.devid 0 16 ∨ slice t 24 32 ≠ x ∨ !ecdsaVerify k (slice t 0 64) (slice t 64 96) then 2
      else if (signer = 1 ∨ featuresReserved f = true) ∧ f / 256 ≠ 0 then 3
      else 0

/-- LATCHKEY (R376): in TEST every feature is open, and a token changes nothing. It consumes the nonce. -/
def latchCmd (req : List Byte) (s : State) : CmdRes :=
  match s.fuses.life with
  | .test => (0, [], { s with nonce := none })
  | .retired => (3, [], { s with nonce := none })
  | .production =>
    let x := latchResult s req
    let f := if x = 0 then s.features ||| BitVec.ofNat 32 (num req 56 4) else s.features
    (x, [], { s with nonce := none, features := f })

/-- LEASE_START (R370, R374). -/
def leaseCmd (req : List Byte) (s : State) : CmdRes :=
  if s.lease.isSome then (3, [], s)
  else if zeroAt req 0 16 || num req 16 1 != 4 || !zeroAt req 113 3 || !zeroAt req 120 8 ||
      !ecdsaVerify s.fuses.operatorKey (slice req 0 128) (slice req 128 96) then (2, [], s)
  else
    (0, [], { s with
      lease := some { id := slice req 0 16, owner := slice req 17 96, minver := num req 116 4 }
      reclaimState := 0#3 })

/-- STAGE (R365, R368, R369, R371). An image in a poisoned unit gives no data, and the policy core is told
(R75). -/
def stageCmd (req : List Byte) (s : State) : CmdRes :=
  let a := num req 0 8
  let h := memRead a 256 s.mem
  let b := h ++ memRead (a + 256) (imgLength h) s.mem
  if s.hand ≠ .none then (3, [], s)
  else if 2 ^ 41 < a + 256 + imgLength h ∨ (s.recovery = true ∧ imgSigner h = 2) ∨ imgForm h = false then (2, [], s)
  else if poisoned s a (256 + imgLength h) then (2, [], s.report (.uncorrectable 0 (a / 64)))
  else if imgOk s b = false then (2, [], s)
  else
    (0, [], { raiseMin s b with
      staged := some b
      hand := .staged
      stagedOwner := if imgSigner b = 2 then some b else s.stagedOwner })

/-- HANDOVER (R371). -/
def handoverCmd (s : State) : CmdRes :=
  if s.hand = .staged then (0, [], { s with hand := .quiescing, handSince := s.time }) else (3, [], s)

/-- What a firmware command does to the tables of R359 and R362. -/
def fwAct (s : State) : FwAction → State
  | .none => s
  | .farWindow p w m rp b =>
    { s with farWin := s.farWin.filter (fun f => !(f.pasid == p && f.win == w)) ++
        [{ pasid := p, win := w, rmod := m, rpasid := rp, base := b / 2 ^ 32 * 2 ^ 32 }] }
  | .farClear p w => { s with farWin := s.farWin.filter (fun f => !(f.pasid == p && f.win == w)) }
  | .group l g m =>
    { s with xgroups := s.xgroups.filter (fun x => !(x.launch == l && x.gnum == g)) ++ [{ launch := l, gnum := g, remote := m }] }
  | .modnum n => { s with modnum := BitVec.ofNat 13 n }

/-- A command of the firmware: UNKNOWN while Utonauz holds the policy core (R365). What the firmware answers
is free. -/
def firmwareCmd (code : Nat) (act : FwAction) (req : List Byte) (s : State) : CmdRes :=
  if s.holder = .utonauz then (1, [], s)
  else
    let (n, s) := tickFree s
    let (x, out) := Config.firmware n code req
    (x % 256, out.take 4096, fwAct s act)

/-- What a command other than RECLAIM does, by its code (R365). -/
def cmdAct (code : Nat) (act : FwAction) (req : List Byte) (s : State) : CmdRes :=
  match code with
  | 1 => attestCmd req s
  | 2 => challengeCmd s
  | 3 => latchCmd req s
  | 4 => leaseCmd req s
  | 5 => stageCmd req s
  | 6 => handoverCmd s
  | 7 => (0, s.record, s)
  | _ => if code < 0x40 then (1, [], s) else firmwareCmd code act req s

/-! ## The mailbox (R365) -/

/-- Whether a command of Utonauz is in progress (R365). -/
def utonauzBusy (s : State) : Bool := s.mbxCmd.any (fun c => decide (c.code < 0x40))

/-- A reclaim starts, or a request joins the one that runs (R374 steps 1 and 2). A command of Utonauz in
progress goes on to its end; one of the firmware, which has lost the core, answers BUSY. Every kick that is
not served reports NACK_NOQ. -/
def startReclaim (s : State) : State :=
  if reclaiming s then s
  else
    let s : State := { s with
      reclaimState := 1#3
      reclaimStart := s.time
      holder := .utonauz
      hand := .none
      staged := none
      stagedOwner := if s.hand = .none then s.stagedOwner else none
      mbxCmd := s.mbxCmd.map (fun c : MbxCmd => if c.code < 0x40 then c else { c with result := 4, response := [] }) }
    let s := (s.held.filter Held.blocked).foldl (fun s _ => kickServed s 2)
      { s with held := s.held.filter (fun h => !h.blocked) }
    serveKicks s.kicks.length s

/-- A command goes to work in the mailbox: RECLAIM is answered at its end; the others answer BUSY while a
reclaim runs, but for ATTEST and RECORD (R374). MBX_COMMAND_COMPLETE posts the answer. -/
def mbxServe (code : Nat) (act : FwAction) (req : List Byte) (s : State) : State :=
  if code = 8 then startReclaim { s with reclaimMbx := true }
  else if reclaiming s && code != 1 && code != 7 then { s with mbxCmd := some { code := code, result := 4, response := [] } }
  else
    let (x, out, s) := cmdAct code act req s
    { s with mbxCmd := some { code := code, result := x, response := out } }

/-- A command starts: the mailbox is BUSY, and MBXDATA holds the request. -/
def mbxBegin (code : Nat) (mctp : Bool) (act : FwAction) (req : List Byte) (s : State) : State :=
  mbxServe code act req { s with mbxBusy := true, mbxMctp := mctp, mbxData := if mctp then req else s.mbxData }

/-- A command comes (R365): through BAR0 it is ignored while the mailbox is BUSY, over MCTP it then waits its
turn. A stopped module answers nothing (R368). -/
def mbxCommand (code : Nat) (act : FwAction) (r : MbxReq) (s : State) : State :=
  if !hostOn s then s
  else
    match r with
    | .bar0 len => if s.mbxBusy then s else mbxBegin code false act (slice s.mbxData 0 (min len 4096)) s
    | .mctp bs =>
      if s.mbxBusy then { s with mctp := s.mctp ++ [{ code := code, bytes := bs.take 4096, act := act }] }
      else mbxBegin code true act (bs.take 4096) s

/-- The next command that waits over MCTP starts. -/
def mbxNext (s : State) : State :=
  match s.mctp with
  | [] => s
  | q :: r => mbxBegin q.code true q.act q.bytes { s with mctp := r }

/-- The response is placed in MBXDATA and MBXSTAT leaves BUSY, with vector 0 (R357, R365); one that came over
MCTP is answered there too, and the next may start. -/
def mbxEnd (s : State) (c : MbxCmd) : State :=
  mbxNext (raise { s with
    mbxBusy := false
    mbxCmd := none
    mbxMctp := false
    mctpOut := if s.mbxMctp then s.mctpOut ++ [c] else s.mctpOut
    mbxSeq := s.mbxSeq + 1#32
    mbxRlen := BitVec.ofNat 16 c.response.length
    mbxResult := BitVec.ofNat 8 c.result
    mbxData := putAt s.mbxData 0 c.response } 0)

/-- MBX_COMMAND_COMPLETE (R365). -/
def execMbxCommandComplete (s : State) : Out :=
  match s.mbxCmd with
  | none => .next s
  | some c => .next (mbxEnd s c)

/-- ATTEST (R365, R372). -/
def execAttest (r : MbxReq) (s : State) : Out := .next (mbxCommand 0x01 .none r s)
/-- CHALLENGE (R365, R376). -/
def execChallenge (r : MbxReq) (s : State) : Out := .next (mbxCommand 0x02 .none r s)
/-- LATCHKEY (R365, R376). -/
def execLatchkey (r : MbxReq) (s : State) : Out := .next (mbxCommand 0x03 .none r s)
/-- LEASE_START (R365, R370). -/
def execLeaseStart (r : MbxReq) (s : State) : Out := .next (mbxCommand 0x04 .none r s)
/-- STAGE (R365, R371). -/
def execStage (r : MbxReq) (s : State) : Out := .next (mbxCommand 0x05 .none r s)
/-- HANDOVER (R365, R371). -/
def execHandover (r : MbxReq) (s : State) : Out := .next (mbxCommand 0x06 .none r s)
/-- RECORD (R365, R375). -/
def execRecord (r : MbxReq) (s : State) : Out := .next (mbxCommand 0x07 .none r s)
/-- RECLAIM over the mailbox (R365, R373). -/
def execReclaim (r : MbxReq) (s : State) : Out := .next (mbxCommand 0x08 .none r s)

/-- MBX_UNKNOWN: codes 0x0009 to 0x003F (R365). -/
def execMbxUnknown (code : Nat) (r : MbxReq) (s : State) : Out :=
  if code < 9 ∨ 0x3F < code then .next s else .next (mbxCommand code .none r s)

/-- FIRMWARE_COMMAND: codes from 0x0040 on (R365). -/
def execFirmwareCommand (code : Nat) (r : MbxReq) (act : FwAction) (s : State) : Out :=
  if code < 0x40 ∨ 0xFFFF < code then .next s else .next (mbxCommand code act r s)

/-! ## Hand-over (R371) -/

/-- The switch of a hand-over: the first time Utonauz takes the policy core (SWITCHING), the second it
starts the incoming image, which becomes current. -/
def switchImage (s : State) : State :=
  match s.hand, s.staged with
  | .switching, some b => { startImage s b with staged := none, hand := .none }
  | _, _ => { s with hand := .switching, holder := .utonauz }

/-- YIELD: the current firmware yields in QUIESCING; Utonauz then switches (R371). -/
def execYield (s : State) : Out :=
  if !reclaiming s && (s.hand == .quiescing && s.holder == .firmware || s.hand == .switching) then .next (switchImage s) else .next s

/-- HANDOVER_TIMEOUT: one second after HANDOVER, Utonauz takes the core and switches (R371). -/
def execHandoverTimeout (s : State) : Out :=
  if !reclaiming s && s.hand == .quiescing && decide (s.handSince.toNat + 1000000000 ≤ s.time.toNat) ||
      !reclaiming s && s.hand == .switching then
    .next (switchImage s)
  else .next s

/-! ## The scrub and reclaim (R373 to R375) -/

/-- Every storage element of the module zeroed, but for the fuses, Utonauz's own state with the command that it
serves, TIME, the boot flash and what lies outside the module; a die, link, port or storage unit found bad stays
so (R375). The host-facing registers, MBXDATA and the MSI-X table among them, are at reset (log 40). An island that
the firmware has set is at the main clock and its first voltage again, after a reclaim, a warm reset and a power
loss alike (DESIGN CHOICE: R16 and R383 do not say, log 36). -/
def scrubbed (s : State) : State :=
  { State.reset with
    dies := (s.dies.filter (fun d => !d.2.healthy)).map (fun d => (d.1, { Die.fresh with healthy := false }))
    mbxBusy := s.mbxBusy
    mbxSeq := s.mbxSeq
    mbxCmd := s.mbxCmd
    mbxMctp := s.mbxMctp
    mctp := s.mctp
    mctpOut := s.mctpOut
    reclaimState := s.reclaimState
    reclaimSeq := s.reclaimSeq
    reclaimMbx := s.reclaimMbx
    reclaimStart := s.reclaimStart
    record := s.record
    msix := s.msix
    pcieOut := s.pcieOut
    bar2Out := s.bar2Out
    ethOut := s.ethOut
    time := s.time
    timeFrac := s.timeFrac
    cycle := s.cycle
    trim := s.trim
    fuses := s.fuses
    lease := s.lease
    bootImage := s.bootImage
    stagedOwner := s.stagedOwner
    nonce := s.nonce
    features := s.features
    power := s.power
    stopped := s.stopped
    badPorts := s.badPorts
    fenced := s.fenced
    badUnits := s.badUnits
    dbgOut := s.dbgOut
    corrected := s.corrected
    replays := s.replays
    reports := s.reports
    cur := s.cur
    agenda := s.agenda
    keep := s.keep
    freeCtr := s.freeCtr
    nextId := s.nextId
    stamp := s.stamp }

/-- Bytes scrubbed of a class (R375): the spec gives the sizes of the first four and of the last; the
others are the implementation's. -/
def classBytes (s : State) (c : Nat) : Nat :=
  match c with
  | 0 => 2 ^ 41
  | 1 => 2 ^ 26 * s.ndies
  | 2 => 2 ^ 21 * 8 * s.ndies
  | 3 => 2 ^ 17 * 64 * s.ndies
  | 11 => policySize
  | _ => Config.classBytes c

/-- The failing units of a class that a scrub finds (R375). -/
def failing (s : State) (c : Nat) : Nat := (s.badUnits.filter (fun u => u.1 == c)).length

/-- The record of a scrub, signed: its status and the failing units of each class (R375). -/
def scrubRecord (s : State) (lease : List Byte) (start : DWord) : List Byte :=
  let b := leBytes 4 0x4B575343 ++ leBytes 2 (b2n (!s.badUnits.isEmpty)) ++ leBytes 2 0 ++ slice s.fuses.devid 0 16 ++ slice lease 0 16
    ++ leBytes 8 start.toNat ++ leBytes 8 s.time.toNat
    ++ (List.range 12).flatMap (fun c => leBytes 2 c ++ leBytes 2 0 ++ leBytes 4 (failing s c) ++ leBytes 8 (classBytes s c)) ++ leBytes 8 0
  b ++ deviceSign s s.freeCtr b

/-- Every launch is discarded without parking and without reports (R357, R374). -/
def discardAll (s : State) : State := s.launches.foldl discardLaunch s

/-- RECLAIM_REGISTER_WRITE: an 8-byte write to RECLAIM (R373). -/
def execReclaimRegisterWrite (v : DWord) (s : State) : Out :=
  if hostOn s && v.getLsbD 0 && nbits v.toNat 24 8 == 0xC5 then .next (startReclaim s) else .next s

/-- The answer to RECLAIM. -/
def reclaimDone : MbxCmd := { code := 0x08, result := 0, response := [] }

/-- The requests that asked for a reclaim over the mailbox, or have joined it over MCTP, are answered (R374). -/
def answerReclaims (s : State) : State :=
  let joined := s.mctp.filter (fun q => q.code == 8)
  let s := { s with
    mctp := s.mctp.filter (fun q => q.code != 8)
    mctpOut := s.mctpOut ++ joined.map (fun _ => reclaimDone)
    mbxSeq := s.mbxSeq + BitVec.ofNat 32 joined.length }
  if s.reclaimMbx then mbxEnd { s with reclaimMbx := false } reclaimDone else s

/-- The end of a reclaim (R374 steps 5 to 7): the record, what Utonauz held is erased, vector 2, the
mailbox's answer, and the operator image. -/
def endReclaim (s : State) : State :=
  let lease := s.lease.elim [] Lease.id
  let s := { s with
    record := scrubRecord s lease s.reclaimStart
    freeCtr := s.freeCtr + 1
    lease := none
    stagedOwner := none
    features := 0#32
    nonce := none
    reclaimState := 4#3
    reclaimSeq := s.reclaimSeq + 1#32 }
  let s := raise s 2
  boot (answerReclaims s) false

/-- RECLAIM_COMPLETE: the reclaim goes through its states, one at a time (R373, R374): once no command of
Utonauz and no save is in progress the launches are discarded and the channels reset; the scrub; the signing
and the end. -/
def execReclaimComplete (s : State) : Out :=
  match s.reclaimState.toNat with
  | 1 =>
    if utonauzBusy s || s.clusters.any (fun c => c.2.saving.isSome) then .next s
    else .next { discardAll s with channels := [], collData := [], reclaimState := 2#3 }
  | 2 => .next { scrubbed s with reclaimState := 3#3 }
  | 3 => .next (endReclaim s)
  | _ => .next s

/-! ## Resets and power (R357, R366 to R368, R383) -/

/-- What a warm reset leaves (R357): the lease, TIME and HBM with its full contents, the on-chip memories
and the records of who held them (log 41); host-facing registers and every die's state are at reset. A
reclaim in progress is at an end (log 41). -/
def warm (s : State) : State :=
  { scrubbed s with
    mem := s.mem
    full := s.full
    poison := s.poison
    aer := s.aer
    cores := (s.cores.filter (fun c => c.2.lastPasid.isSome)).map (fun c => (c.1, { Core.fresh with lastPasid := c.2.lastPasid }))
    clusters := (s.clusters.filter (fun c => c.2.lastPasid.isSome)).map (fun c =>
      (c.1, { Cluster.fresh with lastPasid := c.2.lastPasid }))
    dies := s.dies.map (fun d => (d.1, { Die.fresh with healthy := d.2.healthy, poolOwner := d.2.poolOwner, poolLast := d.2.poolLast }))
    mbxBusy := false
    mbxSeq := 0#32
    mbxRlen := 0#16
    mbxResult := 0#8
    mbxData := []
    mbxCmd := none
    mbxMctp := false
    mctp := []
    msixTab := []
    msixPend := []
    pasidCap := false
    reclaimState := 0#3
    reclaimSeq := 0#32
    reclaimMbx := false
    features := 0#32
    nonce := none }

/-- FUNCTION_LEVEL_RESET: a warm reset (R357, R368); a module in RETIRED then stops. -/
def execFunctionLevelReset (s : State) : Out :=
  if !hostOn s then .next s
  else
    let s := warm (discardAll s)
    .next (if s.fuses.life = .retired then { s with holder := .utonauz, current := none, stopped := true } else boot s true)

/-- What is left when module power is lost: the fuses and the boot flash (R367). -/
def unpowered (s : State) : State :=
  { scrubbed s with
    dies := (s.dies.filter (fun d => !d.2.healthy)).map (fun d => (d.1, { Die.fresh with healthy := false }))
    mbxBusy := false
    mbxSeq := 0#32
    mbxRlen := 0#16
    mbxResult := 0#8
    mbxData := []
    mbxCmd := none
    mbxMctp := false
    mctp := []
    msixTab := []
    msixPend := []
    aer := 0#32
    pasidCap := false
    reclaimState := 0#3
    reclaimSeq := 0#32
    reclaimMbx := false
    reclaimStart := 0#64
    record := []
    time := 0#64
    timeFrac := 0
    trim := 0
    lease := none
    stagedOwner := none
    features := 0#32
    nonce := none
    power := false
    stopped := false }

/-- POWER_LOSS (R367). -/
def execPowerLoss (s : State) : Out := .next (unpowered s)

/-- THERMAL_SHUTDOWN: module power is removed (R383). -/
def execThermalShutdown (s : State) : Out := .next (unpowered s)

/-- POWER_ON: at power-on, or right after the reset that leaves Utonauz to run, it stops in RETIRED, and
otherwise scrubs, keeps a record with lease identifier zero, and starts an image (R366, R368). -/
def execPowerOn (s : State) : Out :=
  if s.power && (s.released || s.recovery || s.stopped || s.holder == .firmware) then .next s
  else if s.fuses.life = .retired then .next { s with power := true, stopped := true }
  else
    let s := { scrubbed s with power := true, time := 0#64, timeFrac := 0 }
    .next (boot { s with record := scrubRecord s [] 0#64, freeCtr := s.freeCtr + 1 } true)

/-! ## TIME and pools (R352, R353, R366, R413) -/

/-- TIMESET: TIME takes a value at every core at once; a TIME_STEP record for each running launch (R352,
R353). -/
def execTimeset (v : DWord) (s : State) : Out :=
  let old := s.time
  let s := { s with time := v, timeFrac := 0 }
  .next (s.launches.foldl (fun s l =>
    postStatus s l.key 96 2 0xFFFF (b2n (decide (v.toNat < old.toNat))) old v) s)

/-! ## What the firmware and the fuses do without an event of the table (R357, R359, R367) -/

/-- The firmware that holds the policy core raises a vector of its own, 3 to 63 (R357). -/
def fwVector (v : Nat) (s : State) : State := if s.holder = .firmware ∧ 3 ≤ v ∧ v ≤ 63 then raise s v else s

/-- The firmware writes a module's MAC address into its table (R359). -/
def fwMac (m : Nat) (a : List Byte) (s : State) : State :=
  if s.holder = .firmware ∧ m < 8192 ∧ a.length = 6 then { s with macs := tset m a s.macs } else s

/-- The operator's public key is written at commissioning, once (R367). -/
def fuseOperator (key : List Byte) (s : State) : State :=
  if s.fuses.operatorKey = [] then { s with fuses := { s.fuses with operatorKey := key } } else s

/-- The module is retired (R367), which shows at its next reset (R368). -/
def fuseRetire (s : State) : State := { s with fuses := { s.fuses with life := .retired } }

/-- A storage unit of a class goes bad, which a scrub finds (R375). -/
def unitFails (c n : Nat) (s : State) : State :=
  if 12 ≤ c ∨ s.badUnits.contains (c, n) = true then s else { s with badUnits := s.badUnits ++ [(c, n)] }

/-! ## The features of a latchkey outside the cores (R376) -/

/-- The feature that the debug port asks for, by who holds the policy core. -/
def debugFeature (s : State) : Nat :=
  match holderCode s with
  | 0 => 8
  | 1 => 9
  | _ => 2

/-- An answer of a debug access goes out. -/
def debugPut (bs : List Byte) (s : State) : State := { s with dbgOut := s.dbgOut ++ [bs] }

/-- The debug port of the policy core (R376): what an open port can do is the model's (DESIGN CHOICE,
log 39). Memory that is Utonauz's own is reached only while Utonauz is debugged (R364). -/
def policyDebug (d : PolicyDebug) (s : State) : State :=
  let size := if debugFeature s = 8 then 2 ^ 18 else policySize
  if !hostOn s || !featureOpen s (debugFeature s) then s
  else
    match d with
    | .halt => { s with policyHalted := true }
    | .go => { s with policyHalted := false }
    | .readReg r => debugPut (leBytes 4 (s.px r).toNat) s
    | .writeReg r v => if 1 ≤ r ∧ r < 32 then { s with policyRegs := s.policyRegs.set! r v } else s
    | .readPc => debugPut (leBytes 4 s.policyPc.toNat) s
    | .writePc v => { s with policyPc := v }
    | .readMem a n => if a + n ≤ size then debugPut (memRead a n s.policyTcm) s else s
    | .writeMem a bs => if a + bs.length ≤ size then { s with policyTcm := memWrite a bs s.policyTcm } else s

/-- An error is injected (R376): one bit of a SECDED word is corrected, two are not, and a flit whose CRC fails
is sent again (R380). -/
def injectError (p : ErrPlace) (double : Bool) (s : State) : State :=
  let out : Out := match p with
    | .word u =>
      if !errSecded u then .next s
      else if double then execUncorrectableError u s else execCorrectedError u s
    | .flit link => execFlitReplay link s
  if !hostOn s || !featureOpen s 3 then s
  else
    match out with
    | .next t => t
    | _ => s

/-- The key store is read, but for the private key (R376); the layout is the model's (log 39). -/
def fuseView (s : State) : State :=
  let f := s.fuses
  if !hostOn s || !featureOpen s 10 then s
  else
    debugPut (leBytes 1 (lifeCode f.life) ++ slice f.devid 0 16 ++ slice f.vendorKey 0 96 ++ slice f.operatorKey 0 96
      ++ leBytes 4 f.minVendor ++ leBytes 4 f.minOperator ++ leBytes 1 (b2n f.c48)) s

/-- TIME_TRIM: the rate of TIME, in parts per million within ±200 (R366). -/
def execTimeTrim (ppm : Int) (s : State) : Out :=
  if -200 ≤ ppm ∧ ppm ≤ 200 then .next { s with trim := ppm } else .next s

/-- POOL_OWNER_SET: a die pool gets an owner, zeroed first for a PASID other than the last (R413). -/
def execPoolOwnerSet (die : Nat) (pasid : Option Nat) (s : State) : Out :=
  if s.ndies ≤ die then .fault .noSuchUnit
  else
    match pasid with
    | none => .next (s.modDie die (fun d => { d with poolOwner := none }))
    | some p =>
      let s := if (s.die die).poolLast = some p then s else zeroRange s (poolHome die 0) 67108864
      .next (s.modDie die (fun d => { d with poolOwner := some p, poolLast := some p }))

/-- PTP_EVENT_FRAME: an IEEE 1588 event frame on a port is stamped with TIME (R366). -/
def execPtpEventFrame (port : Nat) (sent : Bool) (s : State) : Out :=
  if 16 ≤ port then .fault .noSuchUnit else .next { s with ptp := s.ptp ++ [(port, sent, s.time)] }

end Sys2Proof.Machine
end

