-- ==== Sys2Proof/Machine/Handle.lean ====
section
/-! DEFINITION. Handle instructions (spec/04 R93, R94) and the binding of sluice windows
(R95, R97). -/

namespace Sys2Proof.Machine
open Sys2Proof

/-- The address of HLD and HST (R93). -/
def State.addrH (s : State) (r : SReg) (imm : BitVec 8) : DWord :=
  s.reg r + imm.signExtend 64 * 32#64

/-- The 32 bytes of a handle, word 0 lowest (R76). -/
def hBytes (h : HWord) : List Byte := leBytes 32 h.toNat

/-- HLD: four 8-byte loads in word order (R93). -/
def execHld (imm : BitVec 8) (r : SReg) (hd : HReg) (s : State) : Out :=
  run (.hld imm r hd) s (fun s =>
    load (.hld imm r hd) (s.addrH r imm) 32 8 32 s (fun bs s =>
      .next (retire (.hld imm r hd) (s.setHreg hd (hOfBytes bs)))))

/-- HST: four 8-byte stores in word order (R93). -/
def execHst (imm : BitVec 8) (r : SReg) (ha : HReg) (s : State) : Out :=
  run (.hst imm r ha) s (fun s =>
    store (.hst imm r ha) (s.addrH r imm) (hBytes (s.hreg ha)) 8 32 false false s
      (fun s => .next (retire (.hst imm r ha) s)))

/-- HGET (R93). -/
def execHget (w : BitVec 2) (r : SReg) (ha : HReg) (s : State) : Out :=
  run (.hget w r ha) s (fun s => done (.hget w r ha) r (hWord (s.hreg ha) w) s)

/-- HSET (R93). -/
def execHset (w : BitVec 2) (r : SReg) (ha hd : HReg) (s : State) : Out :=
  run (.hset w r ha hd) s (fun s =>
    .next (retire (.hset w r ha hd) (s.setHreg hd (hSetWord (s.hreg ha) w (s.reg r)))))

/-- HMOV (R93). -/
def execHmov (ha hd : HReg) (s : State) : Out :=
  run (.hmov ha hd) s (fun s => .next (retire (.hmov ha hd) (s.setHreg hd (s.hreg ha))))

/-- What HADV makes of a view (R94): the new view, or a trap's cause and value. -/
def hadv (w : BitVec 2) (ha : HReg) (v : HWord) (x : DWord) : Except (Nat × DWord) HWord :=
  let t := hType v
  let tile := t == 1 || t == 3
  let bad : Nat × DWord := (0x09, dw (ha.toNat * 256 + 9))
  let shape : Nat × DWord := (0x0A, x)
  if w = 0#2 then
    if !tile then .error bad else
    let n := (hOrow v : Int) + x.toInt
    if n < 0 ∨ 2 ^ 32 ≤ n then .error shape
    else .ok (hSetWord v 2#2 ((hWord v 2#2).extractLsb' 32 32 ++ BitVec.ofInt 32 n))
  else if w = 1#2 then
    if !tile then .error bad else
    let n := (hOcol v : Int) + x.toInt
    if n < 0 ∨ 2 ^ 32 ≤ n then .error shape
    else if t == 3 && n % 32 != 0 then .error shape
    else .ok (hSetWord v 2#2 (BitVec.ofInt 32 n ++ (hWord v 2#2).extractLsb' 0 32))
  else
    if !(tile || t == 4 || t == 5 || t == 6) then .error bad else
    let n := (hBase v : Int) + x.toInt
    if n < 0 ∨ 2 ^ 56 ≤ n then .error shape
    else if t == 6 && n.toNat / 2 ^ 32 != hBase v / 2 ^ 32 then .error shape
    else .ok (hSetBase v n.toNat)

/-- HADV (R94). -/
def execHadv (w : BitVec 2) (r : SReg) (ha hd : HReg) (s : State) : Out :=
  run (.hadv w r ha hd) s (fun s =>
    match hadv w ha (s.hreg ha) (s.reg r) with
    | .error (c, v) => trap (.hadv w r ha hd) c v s
    | .ok h => .next (retire (.hadv w r ha hd) (s.setHreg hd h)))

/-- HCHK: the reason of R88 for a use (R93). -/
def execHchk (u : Bool) (r : SReg) (ha : HReg) (s : State) : Out :=
  run (.hchk u r ha) s (fun s => done (.hchk u r ha) r (dw (hReason (s.hreg ha) u allTypes)) s)

/-! ## Sluice windows (R95, R97) -/

/-- The reason for which BIND refuses a handle: R88 with the added conditions, in the order of
the reasons (R95). -/
def bindReason (h : HWord) (fmtOk : Bool) : Nat :=
  let r := hReason h false [1]
  if 1 ≤ r ∧ r ≤ 8 then r
  else if inWindows (hBase h) then 8
  else if r = 9 ∨ !fmtOk ∨ hTrn h ∨ hMask h then 9
  else r

/-- BIND (R95). -/
def execBind (d a : SReg) (h : HReg) (s : State) : Out :=
  run (.bind d a h) s (fun s =>
    let i : Instr := .bind d a h
    let ix := s.hreg h
    let bs := s.hreg (h + 1#4)
    let r1 := bindReason ix (hFmt ix == 8)
    let r2 := bindReason bs ([2, 4, 8].contains (esize (hFmt bs)))
    if r1 ≠ 0 then trap i 0x09 (dw (h.toNat * 256 + r1)) s
    else if r2 ≠ 0 then trap i 0x09 (dw ((h.toNat + 1) * 256 + r2)) s
    else
      let w := (s.reg a).toNat
      if 63 < w then done i d 2#64 s
      else if (tfind w (s.die s.myDie).windows).isSome then done i d 1#64 s
      else
        let win : Window := { pasid := s.mine.pasid, launch := s.mine.launch.getD 0, index := ix,
                              base := bs, core := s.myCore, oob := false, lines := [] }
        done i d 0#64 (s.modDie s.myDie (fun x => { x with windows := tset w win x.windows })))

/-- Whether a read of a window that it has accepted is still to be served (R97): its reader goes on. -/
def lineOpen (s : State) (l : LineRead) : Bool :=
  match l.owner with
  | .ctx k => (s.ctx k).mode == .running
  | .op id => (s.op? id).any (fun o => o.st == .running && o.fin.isNone && !launchDead s o.launch)
  | _ => false

/-- UNBIND (R97): once every line read that the window has accepted has been served. -/
def execUnbind (d a : SReg) (s : State) : Out :=
  run (.unbind d a) s (fun s =>
    let w := (s.reg a).toNat
    match tfind w (s.die s.myDie).windows with
    | none => done (.unbind d a) d 2#64 s
    | some win =>
      if win.pasid ≠ s.mine.pasid then done (.unbind d a) d 2#64 s
      else if win.lines.any (lineOpen s) then .next s
      else
        done (.unbind d a) d (if win.oob then 1#64 else 0#64)
          (s.modDie s.myDie (fun x => { x with windows := terase w x.windows })))

end Sys2Proof.Machine
end

