-- ==== Sys2Proof/Machine/Message.lean ====
section
/-! DEFINITION. Messages between ranks (spec/12 R301, R302, spec/14 R342). -/

namespace Sys2Proof.Machine
open Sys2Proof

/-- MSEND (R301, R302): checks, the 64 bytes read as a release, the retry buffer, and the wait for
the answer. Its 64 bytes are eight loads in order, one a step (R263). The XVAL of its phase violation
is the address or PH, a free choice between the two that R338 allows (log 6). -/
def execMsend (a b : SReg) (s : State) : Out :=
  run (.msend a b) s (fun s =>
    let i : Instr := .msend a b
    match s.me.wait with
    | some { what := .msend _ none, .. } => .next s
    | some { what := .msend _ (some true), .. } => .next (retire i s)
    | some { what := .msend _ (some false), .. } => trap i 0x0E (s.reg a) s
    | _ =>
      let va := s.reg b
      let r := s.reg a
      match scalarPlace s s.cur .load va 64 64 with
      | (.error c, s) => fail i c va s
      | (.ok _, s) =>
        match s.launchOf s.myCore with
        | none => trap i 0x0A r s
        | some l =>
          let dst := rankCore l r.toNat
          if s.mine.nranks ≤ r.toNat then trap i 0x0A r s
          else if s.mine.ph = 1#2 ∧ dst ≠ s.myCore then
            let (n, s) := s.free
            trap i 0x06 (if n % 2 = 0 then va else dw s.mine.ph.toNat) s
          else if 16 ≤ s.mine.retry.length then .next s
          else
            load i va 64 8 64 (if (wordsGot s).isEmpty then releaseMe s else s) (fun bs s =>
              let (id, s) := s.fresh
              let e : Retry := { id := id, ctx := s.cur, dst := dst, rank := r.toNat,
                                 sender := s.mine.rank, bytes := bs, tries := 0, backoff := 64,
                                 due := none }
              let s := s.modCore s.myCore (fun c => { c with retry := c.retry ++ [e] })
              .next (waitFor i (.msend id none) 0 s)))

/-- MRECV (R301, R302). -/
def execMrecv (d a : SReg) (s : State) : Out :=
  run (.mrecv d a) s (fun s =>
    let i : Instr := .mrecv d a
    let va := s.reg a
    match scalarPlace s s.cur .store va 64 64 with
    | (.error c, s) => fail i c va s
    | (.ok _, s) =>
      if waitOver s then trap i 0x08 va s
      else
      match s.mine.mbox with
      | [] =>
        if s.me.wait.isSome then .next s else .next (waitFor i .mailbox (feLimit s) s)
      | m :: r =>
        let s := acquireMe (s.modCore s.myCore (fun c => { c with mbox := r }))
        store i va m.bytes 8 64 false false s (fun s =>
          done i d (dw (r.length * 65536 + m.sender)) s))

/-! ## The receiving interface (R342) -/

/-- What an interface answers: accepted, a negative acknowledgement, or a final refusal. -/
inductive MsgAnswer where
  | accept | nack | final
  deriving DecidableEq, Repr

/-- The decision of R342 for a message of a launch to a core; one whose share of the launch is being saved
answers as a switched-out one does (log 38). -/
def msgAnswer (s : State) (launch dst : Nat) : MsgAnswer :=
  let c := s.core dst
  let x := s.ctx (dst * 16)
  if c.launch != some launch then
    (match (s.cluster (clusterOfCore dst)).suspended.find? (fun p => p.launch == launch) with
      | none => .final
      | some p => if p.cores.any (fun x => x.1 == dst && x.2.ctlExited) then .final else .nack)
  else if c.ctlExited then .final
  else if beingSaved s launch dst || 8 ≤ c.mbox.length || x.it || x.mode == .frozen then .nack
  else .accept

/-- The sending context learns the answer, and the retry entry is freed. -/
def msgResolve (s : State) (core : Nat) (e : Retry) (ok : Bool) : State :=
  let s := s.modCore core (fun c => { c with retry := c.retry.filter (fun x => x.id != e.id) })
  s.modCtx e.ctx (fun c =>
    match c.wait with
    | some w => if w.what = .msend e.id none then { c with wait := some { w with what := .msend e.id (some ok) } } else c
    | none => c)

/-- Whether an older message of a core to the same receiver is still to arrive (R302). -/
def msgBehind (c : Core) (e : Retry) : Bool := c.retry.any (fun x => x.dst == e.dst && decide (x.id < e.id))

/-- MESSAGE_ARRIVAL: the message of entry `id` of a core's retry buffer reaches its receiver
(R342, R302). -/
def execMessageArrival (core id : Nat) (s : State) : Out :=
  let c := s.core core
  match c.retry.find? (fun e => e.id == id) with
  | none => .next s
  | some e =>
    if e.due.isSome || msgBehind c e then .next s
    else
      match msgAnswer s (c.launch.getD 0) e.dst with
      | .accept =>
        let s := s.modCore e.dst (fun c => { c with mbox := c.mbox ++ [{ bytes := e.bytes, sender := e.sender }] })
        .next (msgResolve s core e true)
      | .final => .next (msgResolve s core e false)
      | .nack =>
        let limit := (s.ctx e.ctx).retrymax.toNat % 65536
        if limit ≠ 0 ∧ limit ≤ e.tries + 1 then .next (msgResolve s core e false)
        else
          let e' := { e with tries := e.tries + 1, backoff := min (e.backoff * 2) 65536,
                             due := some (s.cycle + e.backoff) }
          .next (s.modCore core (fun c =>
            { c with retry := c.retry.map (fun x => if x.id == id then e' else x) }))

/-- MSEND_RETRY: the back-off of a refused message has passed, and it is sent again (R302). -/
def execMsendRetry (core id : Nat) (s : State) : Out :=
  match (s.core core).retry.find? (fun e => e.id == id) with
  | none => .next s
  | some e =>
    if e.due.any (fun t => decide (t ≤ s.cycle)) then
      .next (s.modCore core (fun c =>
        { c with retry := c.retry.map (fun x => if x.id == id then { x with due := none } else x) }))
    else .next s

end Sys2Proof.Machine
end

