-- ==== Sys2Proof/Machine/Ordering.lean ====
section
/-! DEFINITION. The ordering machine's own steps, the die walker, and the bound of a wait (spec/11
R262, spec/03 R64 to R68, spec/05 R109). -/

namespace Sys2Proof.Machine
open Sys2Proof

/-- Whether a core and a context number name a context of the module. -/
def ctxThere (s : State) (core ctx : Nat) : Bool := decide (core < s.ndies * 64) && decide (ctx ≤ 10)

/-- DRAIN: the head of a context's store buffer leaves it (R262). -/
def execDrain (core ctx : Nat) (s : State) : Out :=
  if ctxThere s core ctx then .next (drainHead s (core * 16 + ctx)) else .fault .noSuchUnit

/-- PERFORM: the head entry of Q(src→dst) is performed at its home (R262). -/
def execPerform (src dst : Nat) (s : State) : Out := .next (performHead s src dst)

/-- REFRESH: a granule of a die's view takes the values at its home (R262). -/
def execRefresh (die g : Nat) (s : State) : Out := .next (refreshOne s die g)

/-- A walk is asked for by a core's access, if nothing holds the translation (R64). -/
def startWalk (s : State) (core pasid va : Nat) : State :=
  if inWindows va || decide (2 ^ 56 ≤ va) || (tlbFind (s.die (dieOfCore core)).tlb pasid va).isSome then s
  else askWalk s (.core core) false pasid va

/-- PAGE_WALK: the walk in flight for an address ends; with none, one begins. The accesses that wait for it
make their own checks with what it finds (R64). -/
def execPageWalk (core pasid va : Nat) (s : State) : Out :=
  if !ctxThere s core 0 then .fault .noSuchUnit
  else
    let die := dieOfCore core
    match takeFirst (fun w : WalkEnt => w.covers pasid va) (s.die die).walks with
    | none => .next (startWalk s core pasid va)
    | some (w, r) => .next (endWalk (s.modDie die (nextWalk r)) w)

/-- The address of a waiting full-empty access. -/
def feAddr (s : State) (k : Nat) : Instr → DWord
  | .ldFe _ _ h b a _ => State.addrM { s with cur := k } a b h
  | .ldFec _ _ h b a _ => State.addrM { s with cur := k } a b h
  | .stFee _ _ h b a _ => State.addrM { s with cur := k } a b h
  | _ => 0#64

/-- The buffer address of a waiting MRECV (R302). -/
def recvAddr (s : State) (k : Nat) : Instr → DWord
  | .mrecv _ a => (s.ctx k).reg a
  | _ => 0#64

/-- XVAL of the FE-timeout trap, for a wait that FEWAIT bounds (R109, R302). -/
def feVal (s : State) (k : Nat) (w : WaitRec) : Option DWord :=
  match w.what with
  | .granule _ => some (feAddr s k w.instr)
  | .ring n => some (dw n)
  | .mailbox => some (recvAddr s k w.instr)
  | _ => none

/-- FE_TIMEOUT: a full-empty, ring or mailbox wait that has lasted more than its limit traps with cause
0x08 (R109). -/
def execFeTimeout (core ctx : Nat) (s : State) : Out :=
  if !ctxThere s core ctx then .fault .noSuchUnit
  else
    let k := core * 16 + ctx
    match (s.ctx k).wait with
    | none => .next s
    | some w =>
      match feVal s k w with
      | none => .next s
      | some v =>
        if w.limit = 0 ∨ s.cycle ≤ w.since + w.limit then .next s
        else .next (takeTrap s k w.instr.len 0x08 v)

end Sys2Proof.Machine
end

