-- ==== Sys2Proof/Machine/Preempt.lean ====
section
/-! DEFINITION. Pre-emption: requests, points, the save and the restore of a cluster's share of a launch
(spec/14 R343 to R351, spec/06 R147). -/

namespace Sys2Proof.Machine
open Sys2Proof

/-! ## Requests (R343, R351) -/

/-- The cores of a cluster that hold a rank of a launch, in core order (R343). -/
def shareCores (s : State) (cl lid : Nat) : List Nat :=
  (([0, 1, 2, 3, 4, 5, 6, 7] : List Nat).map (fun j => cl * 8 + j)).filter (fun c => (s.core c).launch == some lid)

/-- The policy core gets the final status of a request (R343). -/
def preStatus (s : State) (lid cl code : Nat) : State := s.report (.preempt { launch := lid, cluster := cl, code := code })

/-- The contexts of a launch's share of a cluster that have not exited. -/
def liveCtxs (s : State) (cl lid : Nat) : List Nat :=
  (shareCores s cl lid).flatMap (fun c =>
    ((List.range 11).map (fun n => c * 16 + n)).filter (fun k => (s.ctx k).mode != .absent))

/-- Whether a context waits at a point (R346). -/
def atPoint (s : State) (k : Nat) : Bool :=
  (s.ctx k).wait.any (fun w => match w.what with
    | .point none => true
    | _ => false)

/-- The contexts of a launch that wait at a point go on with a result (R346). -/
def endPoint (s : State) (cl lid : Nat) (r : BitVec 2) : State :=
  let s := ((liveCtxs s cl lid).filter (atPoint s)).foldl (fun s k =>
    s.modCtx k (fun c => { c with wait := c.wait.map (fun w => { w with what := .point (some r) }) })) s
  (saveClear s cl).modCluster cl (fun c => { c with gather := none })

/-- A request becomes the pending one; contexts that waited for a request of another launch go on
DECLINED (log 38). -/
def putRequest (s : State) (cl : Nat) (r : PreReq) : State :=
  let s := match (s.cluster cl).preq with
    | none => s
    | some p => preStatus (if p.launch = r.launch then s else endPoint s cl p.launch 2#2) p.launch cl 2
  s.modCluster cl (fun c => { c with preq := some r })

/-- PREEMPT_REQUEST: the request becomes pending, waits for a save that it outranks, or is refused BUSY (R343,
R351); a launch without a live context on the cluster gives NOLAUNCH. A request with a field outside its
limits, or whose areas go beyond region 0x0, does nothing (log 38). `claim` is the key of the claimant's queue
(log 38). -/
def execPreemptRequest (cl lid claim prio base stride : Nat) (s : State) : Out :=
  if 8 * s.ndies ≤ cl then .fault .noSuchUnit
  else if 7 < prio ∨ base % 4096 ≠ 0 ∨ 2 ^ 41 < base + (shareCores s cl lid).length * stride ∨ stride % 4096 ≠ 0 then
    .next s
  else
    let r : PreReq := { launch := lid, claim := claim, prio := prio, savebase := base, stride := stride }
    let c := s.cluster cl
    if (liveCtxs s cl lid).isEmpty then .next (preStatus s lid cl 4)
    else
      match c.saving with
      | some v =>
        if prio ≤ v.req.prio then .next (preStatus s lid cl 2)
        else
          match v.late with
          | none => .next (s.modCluster cl (fun c => { c with saving := some { v with late := some r } }))
          | some l =>
            if prio ≤ l.prio then .next (preStatus s lid cl 2)
            else .next ((preStatus s l.launch cl 2).modCluster cl (fun c => { c with saving := some { v with late := some r } }))
      | none =>
        match c.preq with
        | none => .next (putRequest s cl r)
        | some p => if prio ≤ p.prio then .next (preStatus s lid cl 2) else .next (putRequest s cl r)

/-! ## PREEMPT (R345, R346) -/

/-- The lowest live scalar register that is not accessible (R345). -/
def badLive (acc : Nat) (live : BitVec 48) : Option Nat :=
  (List.range 32).find? (fun i => i != 0 && live.getLsbD i && decide (acc ≤ i))

/-- PREEMPT (R345, R346): NONE with no request for the launch or inside a handler, otherwise it waits at
the point for RESUMED or DECLINED. -/
def execPreempt (d a : SReg) (live : BitVec 48) (s : State) : Out :=
  run (.preempt d a live) s (fun s =>
    let i : Instr := .preempt d a live
    match badLive s.me.acc live with
    | some r => trap i 0x02 (dw r) s
    | none =>
      if (s.reg a).toNat % 64 ≠ 0 then trap i 0x03 (s.reg a) s
      else
        match s.me.wait with
        | some { what := .point (some r), .. } =>
          done i d (r.setWidth 64) (if r = 1#2 then acquireMe s else s)
        | some _ => .next s
        | none =>
          let cl := clusterOfCore s.myCore
          let mine := match (s.cluster cl).preq with
            | some p => s.mine.launch == some p.launch
            | none => false
          if !mine || s.me.it then done i d 0#64 s
          else
            let s := waitFor i (.point none) 0 s
            .next (s.modCluster cl (fun c => { c with gather := some (c.gather.getD s.cycle) })))

/-! ## The point (R344, R346) -/

/-- DRAINMAX of the control context of the lowest-ranked participating core, in cycles; 0 is no bound
(R344). -/
def drainLimit (s : State) (cl lid : Nat) : Nat :=
  match (shareCores s cl lid).foldl (fun b c =>
      match b with
      | none => some c
      | some x => if (s.core c).rank < (s.core x).rank then some c else some x) none with
  | none => 0
  | some c => (s.ctx (c * 16)).drainmax.toNat % 2 ^ 32 * 1800

/-- Whether every live context of the participating cores waits at a point (R346). -/
def gathered (s : State) (cl lid : Nat) : Bool :=
  !(liveCtxs s cl lid).isEmpty && (liveCtxs s cl lid).all (atPoint s)

/-- Whether what a point must drain has ended (R346, R147), and no trace record of the cores waits (R379). -/
def drained (s : State) (cl lid : Nat) : Bool :=
  let cs := shareCores s cl lid
  !s.ops.any (fun o => o.launch == lid &&
    ((cs.contains o.core && (o.vec || o.parent.isSome || (o.st == .running && opClass o.instr == 5))) ||
      (cs.contains o.homeCore && o.st == .running && o.attached))) &&
  cs.all (fun c => (s.core c).retry.isEmpty) && !s.traces.any (fun r => cs.contains r.core)

/-- A range list (R345): its ranges, or the trap that its entry `i` raises. -/
def rangeList (s : State) (core : Nat) : Nat → List Byte → Except Nat (List (Nat × Nat))
  | 0, _ => .ok []
  | n + 1, bs =>
    let a := field bs 0 8
    let len := field bs 8 4
    if len = 0 then .ok []
    else if a % 16 ≠ 0 ∨ len % 16 ≠ 0 then .error 0x03
    else if field bs 12 4 ≠ 0 ∨ !(inTcm a || inSpm a) ∨ (window s core a len).isNone then .error 0x04
    else
      match rangeList s core n (bs.drop 16) with
      | .ok r => .ok ((a, len) :: r)
      | .error c => .error c

/-- The address of the range list that a waiting PREEMPT names; s0 names none (R345). -/
def listReg (s : State) (k : Nat) : Option Nat :=
  match (s.ctx k).wait with
  | some { instr := .preempt _ a _, .. } => if a = 0#5 then none else some ((s.ctx k).reg a).toNat
  | _ => none

/-- The context whose range list a core's save takes, with its address: the lowest-numbered that names one
(log 38). -/
def listCtx (s : State) (cl lid core : Nat) : Option (Nat × Nat) :=
  (liveCtxs s cl lid).findSome? (fun k => if coreOf k = core then (listReg s k).map (fun a => (k, a)) else none)

/-- An access of the save engine for a range list, kept by a number: what an earlier step has read is there; what
none has is read now by `make`, and the engine goes on in its next step (0; R262). -/
def listKept (s : State) (cl a : Nat) (make : State → Except Nat (List Byte) × State) : Except Nat (List Byte) × State :=
  match s.ioGot.find? (fun p => p.owner == .save cl && p.addr == a) with
  | some p => (.ok (p.bytes.getD []), s)
  | none =>
    match make s with
    | (.error c, s) => (.error c, s)
    | (.ok bs, s) => (.error 0, { s with ioGot := s.ioGot ++ [{ owner := .save cl, addr := a, bytes := some bs }] })

/-- The 16 bytes of an entry of a range list as they are read, or the cause of a fault, which is an access fault
whatever its page (R345); 0 while the read is on its way (R64, R69, R96). -/
def listEntry (s : State) (cl core a : Nat) : Except Nat (List Byte) × State :=
  let pasid := (s.core core).pasid
  match locate s (.core core) core pasid .load a 16 with
  | (.ok (.home h _), s) =>
    listKept s cl h (fun s => (if poisoned s h 16 then .error 0x48 else .ok (viewRead s (dieOfCore core) h 16), s))
  | (.ok (.pcie h _), s) =>
    match ioPcie s (.save cl) pasid h 16 a with
    | (some (some bs), s) => (.ok (bs.take 16), s)
    | (some none, s) => (.error 0x04, s)
    | (none, s) => (.error 0, s)
  | (.ok (.sluice d w off), s) =>
    listKept s cl a (fun s =>
      match sluiceRead s (.core core) (.save cl) pasid d w off 16 with
      | (.ok bs, s) => (.ok bs, s)
      | (.error .later, s) => (.error 0, s)
      | (.error .poison, s) => (.error 0x48, s)
      | (.error _, s) => (.error 0x04, s))
  | (.error .later, s) => (.error 0, s)
  | (.error .poison, s) => (.error 0x48, s)
  | (_, s) => (.error 0x04, s)

/-- The bytes of `n` entries of a range list from an address on, each read and then checked, up to the one that
ends the list; or the cause and the address of the entry that stops it (R345). -/
def readEntries (cl core : Nat) : Nat → (a : Nat) → (ended : Bool) → State → Except (Nat × Nat) (List Byte) × State
  | 0, _, _, s => (.ok [], s)
  | n + 1, a, ended, s =>
    match listEntry s cl core a with
    | (.error c, s) => (.error (c, a), s)
    | (.ok bs, s) =>
      let ended := ended || field bs 8 4 == 0
      match if ended then .ok [] else rangeList s core 1 bs with
      | .error c => (.error (c, a), s)
      | .ok _ =>
        match readEntries cl core n (a + 16) ended s with
        | (.ok r, s) => (.ok (bs ++ r), s)
        | e => e

/-- The range lists of some cores, or what stops them: the context, the cause and the address. -/
def readLists (cl lid : Nat) : List Nat → State → Except (Nat × Nat × Nat) (Tbl (List Byte)) × State
  | [], s => (.ok [], s)
  | core :: r, s =>
    match listCtx s cl lid core with
    | none =>
      match readLists cl lid r s with
      | (.ok t, s) => (.ok ((core, List.replicate 64 0#8) :: t), s)
      | e => e
    | some (k, a) =>
      match readEntries cl core 4 a false s with
      | (.error (c, x), s) => (.error (k, c, x), s)
      | (.ok bs, s) =>
        match readLists cl lid r s with
        | (.ok t, s) => (.ok ((core, bs) :: t), s)
        | e => e

/-- The ranges of a list that has been checked. -/
def rangesOf (s : State) (core : Nat) (bs : List Byte) : List (Nat × Nat) :=
  match rangeList s core 4 bs with
  | .ok r => r
  | .error _ => []

/-- The bytes that the data of a range takes in a save area (R347). -/
def rangeSize (len : Nat) : Nat := len + (len / 16 + 511) / 512 * 64

/-- Whether the ranges of a core fit its save area (R347). -/
def rangesFit (rs : List (Nat × Nat)) (stride : Nat) : Bool :=
  decide (49152 + (rs.map (fun r => rangeSize r.2)).foldl (fun a b => a + b) 0 ≤ stride)

/-- The rings that a launch owns in a cluster. -/
def ownRings (s : State) (cl lid : Nat) : List (Nat × Ring) := (s.cluster cl).rings.filter (fun r => r.2.owner == lid)

/-! ## The save (R347 to R349) -/

/-- Bytes padded with zeroes to a length. -/
def padTo (n : Nat) (bs : List Byte) : List Byte := bs.take n ++ List.replicate (n - bs.length) 0#8

/-- The join records of a core. -/
def joinBytes (c : Core) : List Byte :=
  (List.range 10).flatMap (fun j =>
    match tfind (j + 1) c.joins with
    | some v => leBytes 8 (2 ^ 63 + v.toNat)
    | none => leBytes 8 0)

/-- A ring table entry as saved: the damage marks of the slots from RIDX on. -/
def ringBytes (r : Ring) : List Byte :=
  leBytes 8 r.base.toNat ++ leBytes 2 r.slots ++ leBytes 2 r.slotsz ++ leBytes 2 (r.ridx % r.slots) ++ leBytes 2 r.nfil
    ++ leBytes 2 r.nclm ++ leBytes 6 0
    ++ leBytes 8 ((List.range 64).foldl (fun m j => if smem (r.ridx + j) r.damaged then m + 2 ^ j else m) 0)

/-- The ring table as saved, 32 bytes by ring number. -/
def ringsBytes (rs : List (Nat × Ring)) : List Byte :=
  (List.range 32).flatMap (fun n => match rs.find? (fun p => p.1 == n) with
    | some p => ringBytes p.2
    | none => List.replicate 32 0#8)

/-- A mailbox as saved, oldest first. -/
def mboxBytes (ms : List Msg) : List Byte :=
  padTo 576 (ms.flatMap (fun m => padTo 64 m.bytes ++ leBytes 2 m.sender ++ leBytes 6 0))

/-- DL of a routine's descriptor (R304): that of an ENQ as it was given; a tile's is its deadline, and what
s2 gets stays with the cluster (R308). -/
def rtnDl (r : Rtn) : Nat := if r.tile.isSome then r.dl.toNat else r.dlWord.toNat

/-- A routine queue as saved, in arrival order; a routine that waits has not been dispatched, so its
late_at_dispatch is 0. -/
def rqBytes (q : List Rtn) : List Byte :=
  padTo 3072 (q.flatMap (fun r =>
    leBytes 8 r.hdr.toNat ++ leBytes 8 r.arg.toNat ++ leBytes 8 (rtnDl r) ++ leBytes 8 r.relWord.toNat
      ++ leBytes 2 r.rank ++ leBytes 14 0))

/-- The context that an operation is attached to, or that issued it. -/
def Op.owner (o : Op) : Nat :=
  match o.standing with
  | .attached k => k
  | .adopter _ => o.ctx
  | .posting _ => o.ctx

/-- A re-issuable record (R349); its snapshot holds the operations that it still waits for, an orphan's too
(R141). -/
def recBytes (s : State) (o : Op) : List Byte :=
  let ws := encode o.instr
  let snap := (o.waits.filterMap (fun i => s.op? i)).foldl (fun m p =>
    if p.core = o.core ∧ p.holds ∧ !p.st.final ∧ !nbit m p.idx then m + 2 ^ p.idx else m) 0
  let csr := match opClass o.instr with
    | 3 => o.csr.toNat
    | 6 => o.csr.toNat
    | _ => 0
  leBytes 4 o.token.toNat ++ leBytes 1 (numOf o.owner) ++ leBytes 1 (b2n o.trapf * 4 + o.pri)
    ++ leBytes 1 (b2n o.slot.isSome * 8 + o.slot.getD 0) ++ leBytes 1 0
    ++ leBytes 4 (ws.getD 0 0#32).toNat ++ leBytes 4 (ws.getD 1 0#32).toNat ++ leBytes 8 snap
    ++ leBytes 8 o.xv.toNat ++ leBytes 8 o.yv.toNat ++ leBytes 8 o.zv.toNat ++ leBytes 8 csr ++ leBytes 8 0
    ++ leBytes 32 o.hA.toNat ++ leBytes 32 o.hB.toNat ++ leBytes 32 o.hC.toNat ++ List.replicate 96 0#8

/-- Loop levels as saved: count, then two levels. -/
def loopBytes (ls : List LoopLevel) : List Byte :=
  padTo 56 (leBytes 8 ls.length ++ ls.flatMap (fun l =>
    leBytes 8 l.start.toNat ++ leBytes 8 l.stop.toNat ++ leBytes 8 l.remaining.toNat))

/-- The d, and the literal, of a waiting PREEMPT. -/
def pointOf (c : Ctx) : Nat × BitVec 48 :=
  match c.wait with
  | some { instr := .preempt d _ live, .. } => (d.toNat, live)
  | _ => (0, 0#48)

/-- The dispatch state as saved (R348). -/
def dispBytes : Option Disp → List Byte
  | none => List.replicate 32 0#8
  | some p =>
    leBytes 1 (b2n p.running) ++ leBytes 1 p.dreg.toNat ++ leBytes 1 (b2n p.late) ++ leBytes 1 p.loops ++ leBytes 4 0
      ++ leBytes 8 p.ret.toNat ++ leBytes 8 p.count ++ leBytes 8 p.dl.toNat

/-- A context block as runs of bytes (R348): of the registers and handles the live ones alone. -/
def ctxRuns (a : Nat) (c : Ctx) : List (Nat × List Byte) :=
  let (d, live) := pointOf c
  let head := leBytes 8 (c.pc + 12#64).toNat ++ leBytes 1 c.acc ++ leBytes 1 d ++ leBytes 6 0 ++ leBytes 8 live.toNat
    ++ leBytes 8 c.xstatus.toNat ++ leBytes 8 c.xcause.toNat ++ leBytes 8 c.xval.toNat ++ leBytes 8 c.xpc.toNat
    ++ leBytes 8 c.xvec.toNat ++ leBytes 8 c.xscratch.toNat
    ++ leBytes 8 c.qctl.toNat ++ leBytes 8 c.specctl.toNat ++ leBytes 8 c.drainmax.toNat ++ leBytes 8 c.fewait.toNat
    ++ leBytes 8 c.retrymax.toNat ++ leBytes 8 c.fpflags.toNat ++ leBytes 8 0
  let regs := ((List.range 32).filter (fun i => i != 0 && live.getLsbD i)).map (fun i =>
    (a + 120 + 8 * i, leBytes 8 (c.reg (BitVec.ofNat 5 i)).toNat))
  let hregs := ((List.range 16).filter (fun i => live.getLsbD (32 + i))).map (fun i =>
    (a + 384 + 32 * i, leBytes 32 (c.hreg (BitVec.ofNat 4 i)).toNat))
  let tail := loopBytes c.loops ++ loopBytes c.savedLoops
    ++ leBytes 8 (c.savedRep.elim 0 (fun r => r.block.toNat)) ++ leBytes 4 (c.savedRep.elim 0 RepState.iter)
    ++ leBytes 4 (c.savedRep.elim 0 RepState.count)
    ++ padTo 72 (leBytes 8 c.hstack.length ++ c.hstack.reverse.flatMap (fun v => leBytes 8 v.toNat))
    ++ dispBytes c.disp
  joinRuns ((a, head) :: regs ++ hregs ++ [(a + 896, padTo 1152 tail)])

/-- The queued operations attached to a core's contexts, in issue order (R147). -/
def recOps (s : State) (core lid : Nat) : List Op :=
  s.ops.filter (fun o => o.homeCore == core && o.launch == lid && o.st == .queued && o.holds && o.attached)

/-- The header of a save area (R347). -/
def areaHeader (s : State) (core nops nrange mask : Nat) : List Byte :=
  let c := s.core core
  leBytes 4 0x4B575356 ++ leBytes 2 1 ++ leBytes 2 mask ++ leBytes 1 nops ++ leBytes 1 c.rq.length
    ++ leBytes 1 c.mbox.length ++ leBytes 1 nrange ++ leBytes 2 core ++ leBytes 2 0 ++ leBytes 4 c.stepcnt.toNat
    ++ leBytes 4 c.ph.toNat ++ leBytes 8 s.time.toNat ++ leBytes 8 c.vshare.toNat ++ leBytes 8 c.rcbase.toNat
    ++ leBytes 8 c.rcsize.toNat ++ leBytes 8 c.evq.toNat

/-- The home of an address of a core's own windows. -/
def ownHome (core va : Nat) : Nat :=
  if inTcm va then tcmHome core (va % 2 ^ 32) else spmHome (clusterOfCore core) (va % 2 ^ 32)

/-- Byte `b` of the full-empty bits of `cnt` granules from a home on, one for each from bit 0 (R347). -/
def fullByte (s : State) (h cnt b : Nat) : Byte :=
  BitVec.ofNat 8 ((List.range 8).foldl (fun m t =>
    if decide (8 * b + t < cnt) && s.isFull (h + 16 * (8 * b + t)) then m + 2 ^ t else m) 0)

/-- What a piece of a save area holds when it is written. -/
def SaveSrc.read (s : State) : SaveSrc → List Byte
  | .bytes bs => bs
  | .home h n => memRead h n s.mem
  | .full h cnt off n => (List.range n).map (fun i => fullByte s h cnt (off + i))

/-- Whether `n` bytes at `a` hold the whole 64-byte unit of an address (R75). -/
def fullUnit (a n va : Nat) : Bool := decide (a ≤ va / 64 * 64) && decide (va / 64 * 64 + 64 ≤ a + n)

/-- The pieces of bytes at a physical address, granule by granule. -/
def bytePieces (a : Nat) (bs : List Byte) : List SavePiece :=
  (cutGranules (bs.length / 16 + 2) a bs).map (fun p => { addr := p.1, src := .bytes p.2, unit := fullUnit a bs.length p.1 })

/-- The pieces of the data of ranges, each followed by its full-empty bits, padded to 64 bytes (R347). -/
def rangePieces (core a : Nat) (rs : List (Nat × Nat)) : List SavePiece :=
  let srcs := rs.flatMap (fun r =>
    let h := ownHome core r.1
    (List.range (r.2 / 16)).map (fun i => SaveSrc.home (h + 16 * i) 16) ++
      (List.range ((rangeSize r.2 - r.2) / 16)).map (fun i => SaveSrc.full h (r.2 / 16) (16 * i) 16))
  srcs.zipIdx.map (fun p => { addr := a + 16 * p.2, src := p.1, unit := fullUnit a (16 * srcs.length) (a + 16 * p.2) })

/-- The pieces of one core's save area (R347), with the range list as it was read. -/
def areaPieces (s : State) (cl lid core base : Nat) (lst : List Byte) (first : Bool) : List SavePiece :=
  let rs := rangesOf s core lst
  let ks := (liveCtxs s cl lid).filter (fun k => coreOf k == core)
  let ops := recOps s core lid
  let mask := ks.foldl (fun m k => m + 2 ^ numOf k) 0
  let c := s.core core
  bytePieces base (areaHeader s core ops.length rs.length mask ++ joinBytes c)
    ++ (if first then bytePieces (base + 256) (ringsBytes (ownRings s cl lid)) else [])
    ++ bytePieces (base + 1280) (mboxBytes c.mbox)
    ++ bytePieces (base + 2048) (rqBytes c.rq)
    ++ bytePieces (base + 8192) (padTo 16384 (ops.flatMap (recBytes s)))
    ++ ks.flatMap (fun k => (ctxRuns (base + 24576 + 2048 * numOf k) (s.ctx k)).flatMap (fun r => bytePieces r.1 r.2))
    ++ bytePieces (base + 47104) lst
    ++ rangePieces core (base + 49152) rs

/-- The lowest-ranked of some cores. -/
def lowestRank (s : State) (cs : List Nat) : Option Nat :=
  cs.foldl (fun b c =>
    match b with
    | none => some c
    | some x => if (s.core c).rank < (s.core x).rank then some c else some x) none

/-- The pieces of a launch's share of a cluster, core by core; the rings stand in the area of the lowest-ranked
(R347). -/
def sharePieces (s : State) (cl : Nat) (r : PreReq) (lists : Tbl (List Byte)) : List SavePiece :=
  let cs := shareCores s cl r.launch
  let low := lowestRank s cs
  cs.zipIdx.flatMap (fun p =>
    areaPieces s cl r.launch p.1 (r.savebase + p.2 * r.stride) (tget lists p.1 (List.replicate 64 0#8)) (low == some p.1))

/-- The gather of a cluster counts from the earliest context that still waits at the point (R346). -/
def regather (s : State) (cl lid : Nat) : State :=
  let since := (liveCtxs s cl lid).filterMap (fun k => if atPoint s k then (s.ctx k).wait.map WaitRec.since else none)
  s.modCluster cl (fun c => { c with gather := match since with
    | [] => none
    | t :: r => some (r.foldl min t) })

/-- A range list that cannot be taken: its context traps on its PREEMPT, or its launch is job-fatal (R345, R75);
the request stays pending. With cause 0 its read is on its way. -/
def listBad (s : State) (cl lid k c a : Nat) : State :=
  if c = 0 then s
  else if c = 0x48 then poisonLaunch s (coreOf k)
  else regather (takeTrap (saveClear s cl) k 3 c (dw a)) cl lid

/-- The range lists of a share have been read: the save begins, or the point is declined (R347). -/
def beginSave (s : State) (cl : Nat) (r : PreReq) (lists : Tbl (List Byte)) : State :=
  if (ownRings s cl r.launch).any (fun p => decide (64 < p.2.nfil + p.2.nclm)) then endPoint s cl r.launch 2#2
  else if lists.any (fun p => !rangesFit (rangesOf s p.1 p.2) r.stride) then
    preStatus ((endPoint s cl r.launch 2#2).modCluster cl (fun c => { c with preq := none })) r.launch cl 3
  else
    (saveClear s cl).modCluster cl (fun c =>
      { c with preq := none, saving := some { req := r, late := none, pieces := sharePieces s cl r lists } })

/-- POINT_TAKEN: every live context waits at a point (R346). The store buffers empty as a release; once
the work has drained, inside the bound, the range lists are read and the save begins, or the point is
declined (R347). -/
def execPointTaken (cl : Nat) (s : State) : Out :=
  match (s.cluster cl).preq, (s.cluster cl).gather, (s.cluster cl).saving with
  | some r, some t, none =>
    let lim := drainLimit s cl r.launch
    if !gathered s cl r.launch || (lim != 0 && decide (t + lim < s.cycle)) then .next s
    else
      let s := (liveCtxs s cl r.launch).foldl releaseModule s
      if !drained s cl r.launch then .next s
      else
        match readLists cl r.launch (shareCores s cl r.launch) s with
        | (.error (k, c, a), s) => .next (listBad s cl r.launch k c a)
        | (.ok lists, s) => .next (beginSave s cl r lists)
  | _, _, _ => .next s

/-- POINT_DECLINED: the bound has passed before the gather or the drain has ended: every waiting context
goes on DECLINED, and the request stays pending (R344, R346). -/
def execPointDeclined (cl : Nat) (s : State) : Out :=
  match (s.cluster cl).preq, (s.cluster cl).gather, (s.cluster cl).saving with
  | some r, some t, none =>
    let lim := drainLimit s cl r.launch
    if lim = 0 ∨ s.cycle ≤ t + lim then .next s else .next (endPoint s cl r.launch 2#2)
  | _, _, _ => .next s

/-- The save engine writes the next piece of a cluster's save areas (R262, R347). -/
def saveStep (cl : Nat) (s : State) : State :=
  match (s.cluster cl).saving with
  | none => s
  | some v =>
    match v.pieces with
    | [] => s
    | p :: r =>
      (perform s (cl / 8) 0 p.addr (p.src.read s) [] none p.unit).modCluster cl (fun c =>
        { c with saving := some { v with pieces := r } })

/-- The cores of a launch's share leave it: what the save area does not hold stays with the cluster
(R146, R147, R347). They pass to the claimant (R343, R351). -/
def switchOut (s : State) (cl : Nat) (r : PreReq) (claim : Nat) : State :=
  let cs := shareCores s cl r.launch
  let p : Suspended :=
    { launch := r.launch, claim := claim, savebase := r.savebase, stride := r.stride, cores := cs.map (fun c => (c, s.core c)),
      ctxs := (liveCtxs s cl r.launch).map (fun k => (k, s.ctx k)), rings := ownRings s cl r.launch }
  let s := s.modCluster cl (fun c =>
    { c with suspended := c.suspended ++ [p], rings := c.rings.filter (fun x => x.2.owner != r.launch),
             gather := none, saving := none })
  cs.foldl (fun s c =>
    (List.range 11).foldl (fun s n => s.modCtx (c * 16 + n) Ctx.exited) (s.modCore c freeCore)) s

/-- SAVE_COMPLETE: once the save areas are written, the cluster is switched out, and the request ends SAVED,
or SUPERSEDED with the later one SAVED (R347, R351). -/
def execSaveComplete (cl : Nat) (s : State) : Out :=
  match (s.cluster cl).saving with
  | none => .next s
  | some v =>
    if !v.pieces.isEmpty then .next s
    else
      let r := v.req
      let s := switchOut s cl r (v.late.getD r).claim
      match v.late with
      | none => .next (preStatus s r.launch cl 0)
      | some l => .next (preStatus (preStatus s r.launch cl 1) l.launch cl 0)

/-! ## The restore (R350) -/

/-- Bytes of a save area at a physical address. -/
def areaNum (s : State) (a n : Nat) : Nat := leNat (memRead a n s.mem)

/-- The ranges that a saved list names (R345, R347). -/
def savedRanges (s : State) (base : Nat) : List (Nat × Nat) :=
  (((List.range (min 4 (areaNum s (base + 11) 1))).map (fun i =>
    (areaNum s (base + 47104 + 16 * i) 8, areaNum s (base + 47104 + 16 * i + 8) 4))).filter (fun r =>
      (inTcm r.1 && decide (r.1 % 2 ^ 32 + r.2 ≤ 131072)) || (inSpm r.1 && decide (r.1 % 2 ^ 32 + r.2 ≤ 2097152))))

/-- The ranges are written back with their full-empty bits, from place `a` on. -/
def restoreRanges (core : Nat) : List (Nat × Nat) → Nat → State → State
  | [], _, s => s
  | (va, len) :: r, a, s =>
    let h := ownHome core va
    let bits := leNat (memRead (a + len) (len / 128 + 1) s.mem)
    let s := placeBytes s h (memRead a len s.mem)
    let s := (List.range (len / 16)).foldl (fun s j => s.setFull (h / 16 + j) (nbit bits j)) s
    restoreRanges core r (a + rangeSize len) s

/-- The rings of a saved table, by ring number. -/
def savedRings (s : State) (base lid : Nat) : List (Nat × Ring) :=
  (List.range 32).filterMap (fun n =>
    let a := base + 256 + 32 * n
    let slots := areaNum s (a + 8) 2
    if slots = 0 then none
    else
      let ridx := areaNum s (a + 12) 2
      let dmg := areaNum s (a + 24) 8
      some (n, { owner := lid, base := dw (areaNum s a 8), slots := slots, slotsz := areaNum s (a + 10) 2, ridx := ridx,
                 nfil := areaNum s (a + 14) 2, nclm := areaNum s (a + 16) 2, nrsv := 0,
                 damaged := ((List.range 64).filter (fun j => nbit dmg j)).map (fun j => ridx + j), filled := [] }))

/-- The saved loop levels at a place. -/
def savedLoopsAt (s : State) (a : Nat) : List LoopLevel :=
  (List.range (min 2 (areaNum s a 8))).map (fun i =>
    { start := dw (areaNum s (a + 8 + 24 * i) 8), stop := dw (areaNum s (a + 16 + 24 * i) 8),
      remaining := dw (areaNum s (a + 24 + 24 * i) 8) })

/-- The saved dispatch state; what the area does not hold is as the cluster kept it. -/
def savedDisp (s : State) (a : Nat) (old : Option Disp) : Option Disp :=
  old.map (fun p =>
    { p with
      running := areaNum s a 1 == 1
      dreg := BitVec.ofNat 5 (areaNum s (a + 1) 1)
      late := areaNum s (a + 2) 1 == 1
      loops := areaNum s (a + 3) 1
      ret := dw (areaNum s (a + 8) 8)
      count := areaNum s (a + 16) 8
      dl := BitVec.ofNat 48 (areaNum s (a + 24) 8) })

/-- A context from its block (R348, R350): registers not named live read as zero, handles as NONE; it
resumes after its PREEMPT, which retires with RESUMED and the loop-back test (R183). -/
def savedCtx (s : State) (a : Nat) (old : Ctx) : Ctx :=
  let n (o : Nat) : DWord := dw (areaNum s (a + o) 8)
  let c : Ctx :=
    { Ctx.fresh with
      mode := .running
      pc := n 0
      acc := areaNum s (a + 8) 1
      xstatus := n 24
      xcause := n 32
      xval := n 40
      xpc := n 48
      xvec := n 56
      xscratch := n 64
      qctl := n 72
      specctl := n 80
      drainmax := n 88
      fewait := n 96
      retrymax := n 104
      fpflags := n 112
      loops := savedLoopsAt s (a + 896)
      savedLoops := savedLoopsAt s (a + 952)
      savedRep := old.savedRep.map (fun r =>
        { r with block := n 1008, iter := areaNum s (a + 1016) 4, count := areaNum s (a + 1020) 4 })
      hstack := ((List.range (min 8 (areaNum s (a + 1024) 8))).map (fun i => n (1032 + 8 * i))).reverse
      disp := savedDisp s (a + 1096) old.disp }
  let live := n 16
  let c := (List.range 31).foldl (fun c i =>
    if live.getLsbD (i + 1) then c.setReg (BitVec.ofNat 5 (i + 1)) (n (128 + 8 * i)) else c) c
  let c := (List.range 16).foldl (fun c i =>
    if live.getLsbD (32 + i) then c.setHreg (BitVec.ofNat 4 i) (BitVec.ofNat 256 (areaNum s (a + 384 + 32 * i) 32)) else c) c
  let (ls, p) := loopBack (c.pc - 12#64) c.loops c.pc
  { c.setReg (BitVec.ofNat 5 (areaNum s (a + 9) 1)) 1#64 with loops := ls, pc := p }

/-- The per-core state of an area; what it does not hold is as the cluster kept it. -/
def savedCore (s : State) (base : Nat) (old : Core) (helpers : Tbl Nat) : Core :=
  { old with
    stepcnt := BitVec.ofNat 32 (areaNum s (base + 16) 4)
    ph := BitVec.ofNat 2 (areaNum s (base + 20) 4)
    vshare := dw (areaNum s (base + 32) 8)
    rcbase := dw (areaNum s (base + 40) 8)
    rcsize := dw (areaNum s (base + 48) 8)
    evq := dw (areaNum s (base + 56) 8)
    helpers := helpers
    joins := (List.range 10).filterMap (fun j =>
      let v := areaNum s (base + 64 + 8 * j) 8
      if nbit v 63 then some (j + 1, BitVec.ofNat 32 v) else none)
    mbox := (List.range (min 8 (areaNum s (base + 10) 1))).map (fun j =>
      { bytes := memRead (base + 1280 + 72 * j) 64 s.mem, sender := areaNum s (base + 1280 + 72 * j + 64) 2 })
    rq := (List.range (min 64 (areaNum s (base + 9) 1))).map (fun j =>
      let a := base + 2048 + 48 * j
      let o := old.rq[j]?
      { hdr := dw (areaNum s a 8), arg := dw (areaNum s (a + 8) 8), dl := BitVec.ofNat 48 (areaNum s (a + 16) 6),
        dlWord := (o.bind (fun x => x.tile.map (fun _ => x.dlWord))).getD (dw (areaNum s (a + 16) 8)), relWord := dw (areaNum s (a + 24) 8), rank := areaNum s (a + 32) 2,
        acc := o.elim 8 Rtn.acc, entry := o.elim 0 Rtn.entry, tile := o.bind Rtn.tile }) }

/-- The handles that an instruction names, in the order of R88: which of hA, hB and hC (0 to 2), whether it is a
destination, and its types. -/
def handleUses : Instr → List (Nat × Bool × List Nat)
  | .copy _ _ _ _ _ _ => [(0, false, allTypes), (2, true, allTypes)]
  | .copym _ _ _ _ => [(0, false, [1, 3]), (2, true, [1, 3])]
  | .pack _ _ _ _ => [(0, false, [1]), (2, true, [1])]
  | .unpack _ _ _ _ => [(0, false, [1]), (2, true, [1])]
  | .scadd _ _ _ _ => [(0, false, [1]), (1, false, [1])]
  | .mma _ _ _ _ _ => [(0, false, [1, 2, 3, 4, 5]), (1, false, [1, 2, 3]), (2, true, [1])]
  | .mmag _ _ _ _ _ _ _ _ => [(0, false, [1, 3]), (1, false, [1, 3]), (2, true, [1])]
  | .qntQ4uni _ _ _ => [(0, false, [1, 2]), (2, true, [3])]
  | .qntQ4e2m1 _ _ _ => [(0, false, [1, 2]), (2, true, [3])]
  | .qntQ4pow _ _ _ => [(0, false, [1, 2]), (2, true, [3])]
  | .qntQ4hyb _ _ _ => [(0, false, [1, 2]), (2, true, [3])]
  | .qntQ4auto _ _ _ => [(0, false, [1, 2]), (2, true, [3])]
  | .dqnt _ _ _ => [(0, false, [2, 3]), (2, true, [1])]
  | .qchk _ _ => [(0, false, [3])]
  | .winit _ _ _ => [(2, true, [7])]
  | .wprobe _ _ _ _ => [(0, false, [1, 2]), (1, true, [1]), (2, true, [7])]
  | .wcommit _ _ _ _ _ _ => [(0, false, [1, 2]), (2, true, [7])]
  | .wpick _ _ _ _ => [(0, false, [1])]
  | .wrd _ _ _ _ => [(0, true, [1]), (1, true, [1]), (2, true, [7])]
  | .allred _ _ _ _ _ _ => [(0, false, [1]), (2, true, [1])]
  | .redscat _ _ _ _ _ _ => [(0, false, [1]), (2, true, [1])]
  | .allgath _ _ _ _ _ => [(0, false, [1]), (2, true, [1])]
  | .bcast _ _ _ _ _ _ => [(0, false, [1]), (2, true, [1])]
  | .alltoall _ _ _ _ _ => [(0, false, [1]), (2, true, [1])]
  | _ => []

/-- The first handle of an operation that fails R88 for its use. -/
def badImage (o : Op) : Option Nat :=
  ((handleUses o.instr).find? (fun u => hReason ([o.hA, o.hB, o.hC].getD u.1 0#256) u.2.1 u.2.2 != 0)).map Prod.fst

/-- The handles of an operation have been taken from a record at `a`: one that fails R88 ends it FAULTED with
cause 0x43, at the handle's image (R89). -/
def checkImages (a : Nat) (o : Op) : Op :=
  match badImage o with
  | none => o
  | some k => decideEnd { st := .faulted, cause := 0x43, addr := a + 64 + 32 * k, member := 0xFFFF, progress := 0 } o

/-- A record returns to its engine queue, with RESTORED set (R147, R349, R350), and its handles are checked
(R89). -/
def restoreRec (lid core a : Nat) (s : State) : State :=
  let t := areaNum s a 4
  match s.ops.find? (fun o => o.holds && o.launch == lid && o.homeCore == core && o.st == .queued && o.token.toNat == t) with
  | none => s
  | some o =>
    let fl := areaNum s (a + 6) 1
    let snap := areaNum s (a + 16) 8
    let ids := (s.ops.filter (fun p => p.holds && p.launch == lid && p.core == o.core && !p.st.final && nbit snap p.idx)).map Op.id
    let ins := (decodeList [BitVec.ofNat 32 (areaNum s (a + 8) 4), BitVec.ofNat 32 (areaNum s (a + 12) 4)]).getD o.instr
    s.modOp o.id (fun o => checkImages a
      { o with
        standing := .attached (core * 16 + areaNum s (a + 4) 1 % 16)
        pri := areaNum s (a + 5) 1 % 4
        trapf := nbit (areaNum s (a + 5) 1) 2
        slot := if nbit fl 3 then some (fl % 8) else none
        instr := if opClass ins = opClass o.instr then ins else o.instr
        waits := ids
        snap := if o.snap.isEmpty then [] else ids
        xv := dw (areaNum s (a + 24) 8)
        yv := dw (areaNum s (a + 32) 8)
        zv := dw (areaNum s (a + 40) 8)
        csr := if opClass o.instr = 3 ∨ opClass o.instr = 6 then dw (areaNum s (a + 48) 8) else o.csr
        hA := BitVec.ofNat 256 (areaNum s (a + 64) 32)
        hB := BitVec.ofNat 256 (areaNum s (a + 96) 32)
        hC := BitVec.ofNat 256 (areaNum s (a + 128) 32)
        restored := true })

/-- One core is rebuilt from its area (R350 steps 2 to 6). -/
def restoreCore (l : Launch) (p : Suspended) (img : List Byte) (s : State) (x : (Nat × Core) × Nat) : State :=
  let core := x.1.1
  let base := p.savebase + x.2 * p.stride
  let mask := areaNum s (base + 6) 2
  let s := zeroTcm s l.pasid l.hdr.tcm core
  let s := placeBytes s (tcmHome core (131072 - l.image)) img
  let s := restoreRanges core (savedRanges s base) (base + 49152) s
  let ks := (List.range 11).filter (fun n => nbit mask n)
  let hs := (ks.filter (fun n => n != 0)).map (fun n => (n, areaNum s (base + 24576 + 2048 * n + 8) 1))
  let s := s.setCore core (savedCore s base x.1.2 hs)
  let s := ks.foldl (fun s n =>
    let old := (p.ctxs.find? (fun c => c.1 == core * 16 + n)).elim Ctx.fresh Prod.snd
    s.setCtx (core * 16 + n) (savedCtx s (base + 24576 + 2048 * n) old)) s
  (List.range (min 64 (areaNum s (base + 8) 1))).foldl (fun s j => restoreRec l.id core (base + 8192 + 256 * j) s) s

/-- Whether the cores of a switched-out share are free, with the cluster's PASID rule (R343, R106). -/
def shareFree (s : State) (cl : Nat) (l : Launch) (p : Suspended) : Bool :=
  p.cores.all (fun c => (s.core c.1).launch.isNone) &&
    ([0, 1, 2, 3, 4, 5, 6, 7] : List Nat).all (fun j =>
      (s.core (cl * 8 + j)).launch.isNone || (s.core (cl * 8 + j)).pasid == l.pasid)

/-- Whether a save area of a share holds a poisoned unit (R75). -/
def areaPoisoned (s : State) (p : Suspended) : Bool :=
  p.cores.zipIdx.any (fun x =>
    let base := p.savebase + x.2 * p.stride
    poisoned s base (49152 + ((savedRanges s base).map (fun r => rangeSize r.2)).sum))

/-- RESTORE_REQUEST: the share of a launch returns to its cores, once they are free, with the image read
again from HBM; each context resumes with RESUMED and an acquire (R350). -/
def execRestoreRequest (cl lid : Nat) (s : State) : Out :=
  if 8 * s.ndies ≤ cl then .fault .noSuchUnit
  else
    match s.launch? lid, (s.cluster cl).suspended.find? (fun p => p.launch == lid) with
    | some l, some p =>
      if !shareFree s cl l p then .next s
      else if areaPoisoned s p then
        .next ((s.markFatal lid { cause := 0x48, core := (p.cores.head?).elim 0 Prod.fst, frec := [] }).report
          (.uncorrectable 0 (p.savebase / 64)))
      else
        match ioBytes s (.save cl) l.pasid l.hdrVa.toNat l.image with
        | (.later, s) => .next s
        | (.fault a, s) => .next ((ioClear s (.save cl)).report (.fault l.key l.ringIdx a))
        | (.got img, s) =>
          let s := zeroSpm (ioClear s (.save cl)) l.pasid l.hdr.spm cl
          let low := (p.cores.zipIdx.foldl (fun b x =>
            match b with
            | none => some (x.1.2.rank, x.2)
            | some (r, i) => if x.1.2.rank < r then some (x.1.2.rank, x.2) else some (r, i)) none).elim 0 Prod.snd
          let rings := savedRings s (p.savebase + low * p.stride) lid
          let s := p.cores.zipIdx.foldl (restoreCore l p img) s
          let s := s.modCluster cl (fun c =>
            { c with suspended := c.suspended.filter (fun x => x.launch != lid),
                     rings := rings.foldl (fun t r => tset r.1 r.2 t) c.rings })
          .next (preStatus (refreshAll s (cl / 8)) lid cl 5)
    | _, _ => .next s

end Sys2Proof.Machine
end

