-- ==== Sys2Proof/Machine/Token.lean ====
section
/-! DEFINITION. The token instructions (spec/06 R148 to R157). -/

namespace Sys2Proof.Machine
open Sys2Proof

/-- CODE STALE (R149). -/
def codeStale : DWord := 5#64
/-- CODE NOTOWN (R149). -/
def codeNotown : DWord := 6#64

/-- The operation s[a] names for the context that issues, or the code that is its result: stale,
or not owned where ownership is needed (R131, R142, R149). -/
def ownTok (s : State) (tok : DWord) : Except DWord Op :=
  match tokenOp s s.mine.launch tok with
  | none => .error codeStale
  | some o => if mineOp s o then .ok o else .error codeNotown

/-- What WAITT has: the code of a token that is stale or not owned, which is tested once, when it issues
(R150); afterwards the operation that it waits for. -/
def waittOp (s : State) (tok : DWord) : Except DWord Op :=
  match s.me.wait with
  | some { what := .token id, .. } =>
    match s.op? id with
    | some o => .ok o
    | none => .error codeStale
  | _ => ownTok s tok

/-- WAITT (R150). -/
def execWaitt (d a : SReg) (s : State) : Out :=
  run (.waitt d a) s (fun s =>
    let i : Instr := .waitt d a
    match waittOp s (s.reg a) with
    | .error c => done i d c s
    | .ok o =>
      if !o.st.final then (if s.me.wait.isSome then .next s else .next (waitFor i (.token o.id) 0 s))
      else
        let r := opResult o
        let tok := s.reg a
        let s := acquireMe s
        if o.st = .faulted ∧ o.trapf = true then trap i 0x10 tok s
        else done i d r (if o.st = .done then freeOp s o else s))

/-- TSTAT (R151). -/
def execTstat (d a : SReg) (s : State) : Out :=
  run (.tstat d a) s (fun s =>
    match tokenOp s s.mine.launch (s.reg a) with
    | none => done (.tstat d a) d codeStale s
    | some o => done (.tstat d a) d (opResult o) s)

/-- The effect of CANCEL on an operation (R152): a queued one ends at once, a running one at its
next boundary, counted from the writes its engine has already taken up. -/
def cancelOp (s : State) (o : Op) : State :=
  match o.st with
  | .queued =>
    finalise s o.id { st := .cancelled, cause := 0x45, addr := 0, member := 0xFFFF, progress := 0 }
  | .running => s.modOp o.id (fun p => { p with cancel := true, cancelAt := if p.cancel then p.cancelAt else p.prog })
  | _ => s

/-- CANCEL (R152). -/
def execCancel (d a : SReg) (s : State) : Out :=
  run (.cancel d a) s (fun s =>
    match ownTok s (s.reg a) with
    | .error c => done (.cancel d a) d c s
    | .ok o => done (.cancel d a) d (opResult o) (cancelOp s o))

/-- DETACH (R153, R148, R290). -/
def execDetach (d a b : SReg) (s : State) : Out :=
  run (.detach d a b) s (fun s =>
    let i : Instr := .detach d a b
    let v := s.reg b
    if 3 < v.toNat then trap i 0x0A v s
    else
      match slotGroup s.mine v.toNat with
      | none => trap i 0x0A v s
      | some g =>
        match tokenOp s s.mine.launch (s.reg a) with
        | none => done i d codeStale s
        | some o =>
          let r := opResult o
          if mineOp s o then
            if o.st.final then done i d r s
            else
              let c := match s.launchOf s.myCore with
                | some l => adopterCore l g
                | none => s.myCore
              done i d r (s.modOp o.id (fun p => { p with det := true, standing := .adopter c }))
          else if o.attached || o.pasid != s.mine.pasid then done i d codeNotown s
          else done i d r s)

/-- ADOPT (R154). -/
def execAdopt (d a : SReg) (s : State) : Out :=
  run (.adopt d a) s (fun s =>
    let i : Instr := .adopt d a
    match tokenOp s s.mine.launch (s.reg a) with
    | none => done i d codeStale s
    | some o =>
      match o.standing with
      | .adopter _ =>
        if o.pasid != s.mine.pasid then done i d codeNotown s
        else
          let r := if o.st.final then (opResult o &&& ~~~0xFF#64) ||| 7#64 else opResult o
          done i d r (s.modOp o.id (fun p =>
            { p with standing := .attached s.cur, orphan := false, det := false,
                     inSlot := p.inSlot && p.ctx == s.cur }))
      | .attached _ => done i d codeNotown s
      | .posting _ => done i d codeNotown s)

/-- TPRI (R155, R148). -/
def execTpri (d a b : SReg) (s : State) : Out :=
  run (.tpri d a b) s (fun s =>
    let i : Instr := .tpri d a b
    let v := s.reg b
    if 3 < v.toNat then trap i 0x0A v s
    else
      match ownTok s (s.reg a) with
      | .error c => done i d c s
      | .ok o =>
        done i d (opResult o)
          (if o.st = .queued then s.modOp o.id (fun p => { p with pri := v.toNat }) else s))

/-- TFREC (R156). -/
def execTfrec (d a b : SReg) (s : State) : Out :=
  run (.tfrec d a b) s (fun s =>
    let i : Instr := .tfrec d a b
    let va := s.reg b
    if va.toNat % 32 ≠ 0 then trap i 0x03 va s
    else
      match ownTok s (s.reg a) with
      | .error c => done i d c s
      | .ok o =>
        store i va (faultRec o) 8 32 false false s (fun s =>
          done i d (opResult o) (if o.st.final then freeOp s o else s)))

/-- What WAITS keeps of a member of its snapshot. -/
def snapMem (o : Op) : SnapMem :=
  { id := o.id, slot := o.slot.getD 0, tok := if o.vec then none else some o.token,
    trapf := o.trapf, st := none }

/-- The result bits of a member (R157). -/
def snapBits (m : SnapMem) : Nat :=
  if m.tok.isNone then 0
  else if m.st = some 3#3 then 2 ^ m.slot
  else if m.st = some 4#3 then 2 ^ (8 + m.slot)
  else 0

/-- The result of WAITS (R157). -/
def waitsResult (ms : List SnapMem) : DWord := dw (ms.foldl (fun r m => r ||| snapBits m) 0)

/-- A member of a snapshot that is DONE is freed, if the context that issues owns it (R136). -/
def freeMem (s : State) (m : SnapMem) : State :=
  if m.st = some 2#3 then
    match s.op? m.id with
    | some o => if mineOp s o then freeOp s o else s
    | none => s
  else s

/-- The members a WAITS waits for: those found when it was issued. -/
def waitsSnap (s : State) (mask : Nat) : List SnapMem :=
  match s.me.wait with
  | some { what := .slots ms, .. } => ms
  | _ => (snapshot s s.cur mask).map snapMem

/-- WAITS (R157, R148). -/
def execWaits (d a : SReg) (s : State) : Out :=
  run (.waits d a) s (fun s =>
    let i : Instr := .waits d a
    let v := s.reg a
    if v.toNat / 256 ≠ 0 then trap i 0x0A v s
    else
      let ms := waitsSnap s v.toNat
      if ms.any (fun m => m.st.isNone) then
        (if s.me.wait.isSome then .next s else .next (waitFor i (.slots ms) 0 s))
      else
        let s := acquireMe s
        match ms.find? (fun m => m.st == some 3#3 && m.trapf) with
        | some { tok := some t, .. } => trap i 0x10 t s
        | _ => done i d (waitsResult ms) (ms.foldl freeMem s))

end Sys2Proof.Machine
end

