-- ==== Sys2Proof/Machine/Dispatch.lean ====
section
/-! DEFINITION. The dispatch: one arm for each row of the opcode table. -/

namespace Sys2Proof.Machine
open Sys2Proof

def exec (i : Instr) (s : State) : Host.Outcome State Fault Refusal :=
  match i with
  | .add w d a b => Sys2Proof.Machine.execAdd w d a b s
  | .sub w d a b => Sys2Proof.Machine.execSub w d a b s
  | .and d a b => Sys2Proof.Machine.execAnd d a b s
  | .or d a b => Sys2Proof.Machine.execOr d a b s
  | .xor d a b => Sys2Proof.Machine.execXor d a b s
  | .andn d a b => Sys2Proof.Machine.execAndn d a b s
  | .sll w d a b => Sys2Proof.Machine.execSll w d a b s
  | .srl w d a b => Sys2Proof.Machine.execSrl w d a b s
  | .sra w d a b => Sys2Proof.Machine.execSra w d a b s
  | .rol w d a b => Sys2Proof.Machine.execRol w d a b s
  | .slt d a b => Sys2Proof.Machine.execSlt d a b s
  | .sltu d a b => Sys2Proof.Machine.execSltu d a b s
  | .min d a b => Sys2Proof.Machine.execMin d a b s
  | .max d a b => Sys2Proof.Machine.execMax d a b s
  | .minu d a b => Sys2Proof.Machine.execMinu d a b s
  | .maxu d a b => Sys2Proof.Machine.execMaxu d a b s
  | .mul w d a b => Sys2Proof.Machine.execMul w d a b s
  | .mulh d a b => Sys2Proof.Machine.execMulh d a b s
  | .mulhu d a b => Sys2Proof.Machine.execMulhu d a b s
  | .div w d a b => Sys2Proof.Machine.execDiv w d a b s
  | .divu w d a b => Sys2Proof.Machine.execDivu w d a b s
  | .rem w d a b => Sys2Proof.Machine.execRem w d a b s
  | .remu w d a b => Sys2Proof.Machine.execRemu w d a b s
  | .shadd k d a b => Sys2Proof.Machine.execShadd k d a b s
  | .sel d a b => Sys2Proof.Machine.execSel d a b s
  | .clz w d a => Sys2Proof.Machine.execClz w d a s
  | .ctz w d a => Sys2Proof.Machine.execCtz w d a s
  | .popc w d a => Sys2Proof.Machine.execPopc w d a s
  | .brev w d a => Sys2Proof.Machine.execBrev w d a s
  | .bswap w d a => Sys2Proof.Machine.execBswap w d a s
  | .sext d a b => Sys2Proof.Machine.execSext d a b s
  | .zext d a b => Sys2Proof.Machine.execZext d a b s
  | .ext d a b => Sys2Proof.Machine.execExt d a b s
  | .ins d a b => Sys2Proof.Machine.execIns d a b s
  | .addi d a imm => Sys2Proof.Machine.execAddi d a imm s
  | .andi d a imm => Sys2Proof.Machine.execAndi d a imm s
  | .ori d a imm => Sys2Proof.Machine.execOri d a imm s
  | .xori d a imm => Sys2Proof.Machine.execXori d a imm s
  | .slti d a imm => Sys2Proof.Machine.execSlti d a imm s
  | .sltiu d a imm => Sys2Proof.Machine.execSltiu d a imm s
  | .slli d a n => Sys2Proof.Machine.execSlli d a n s
  | .srli d a n => Sys2Proof.Machine.execSrli d a n s
  | .srai d a n => Sys2Proof.Machine.execSrai d a n s
  | .roli d a n => Sys2Proof.Machine.execRoli d a n s
  | .fadd r f d a b => Sys2Proof.Machine.execFadd r f d a b s
  | .fsub r f d a b => Sys2Proof.Machine.execFsub r f d a b s
  | .fmul r f d a b => Sys2Proof.Machine.execFmul r f d a b s
  | .fdiv r f d a b => Sys2Proof.Machine.execFdiv r f d a b s
  | .fsqrt r f d a => Sys2Proof.Machine.execFsqrt r f d a s
  | .fmin f d a b => Sys2Proof.Machine.execFmin f d a b s
  | .fmax f d a b => Sys2Proof.Machine.execFmax f d a b s
  | .fma r f d a b => Sys2Proof.Machine.execFma r f d a b s
  | .fnma r f d a b => Sys2Proof.Machine.execFnma r f d a b s
  | .feq f d a b => Sys2Proof.Machine.execFeq f d a b s
  | .flt f d a b => Sys2Proof.Machine.execFlt f d a b s
  | .fle f d a b => Sys2Proof.Machine.execFle f d a b s
  | .fclass f d a => Sys2Proof.Machine.execFclass f d a s
  | .fcvt r k d a => Sys2Proof.Machine.execFcvt r k d a s
  | .fsgnJ f d a b => Sys2Proof.Machine.execFsgnJ f d a b s
  | .fsgnJn f d a b => Sys2Proof.Machine.execFsgnJn f d a b s
  | .fsgnJx f d a b => Sys2Proof.Machine.execFsgnJx f d a b s
  | .ld o z h b a t => Sys2Proof.Machine.execLd o z h b a t s
  | .ldFe o z h b a t => Sys2Proof.Machine.execLdFe o z h b a t s
  | .ldFec o z h b a t => Sys2Proof.Machine.execLdFec o z h b a t s
  | .st o z h b a t => Sys2Proof.Machine.execSt o z h b a t s
  | .stFes o z h b a t => Sys2Proof.Machine.execStFes o z h b a t s
  | .stFee o z h b a t => Sys2Proof.Machine.execStFee o z h b a t s
  | .ldi off z o a t => Sys2Proof.Machine.execLdi off z o a t s
  | .sti off z o a t => Sys2Proof.Machine.execSti off z o a t s
  | .pref off a => Sys2Proof.Machine.execPref off a s
  | .amoAdd scope o w b a d => Sys2Proof.Machine.execAmoAdd scope o w b a d s
  | .amoAnd scope o w b a d => Sys2Proof.Machine.execAmoAnd scope o w b a d s
  | .amoOr scope o w b a d => Sys2Proof.Machine.execAmoOr scope o w b a d s
  | .amoXor scope o w b a d => Sys2Proof.Machine.execAmoXor scope o w b a d s
  | .amoMin scope o w b a d => Sys2Proof.Machine.execAmoMin scope o w b a d s
  | .amoMax scope o w b a d => Sys2Proof.Machine.execAmoMax scope o w b a d s
  | .amoMinu scope o w b a d => Sys2Proof.Machine.execAmoMinu scope o w b a d s
  | .amoMaxu scope o w b a d => Sys2Proof.Machine.execAmoMaxu scope o w b a d s
  | .amoSwap scope o w b a d => Sys2Proof.Machine.execAmoSwap scope o w b a d s
  | .cas scope o w b a d => Sys2Proof.Machine.execCas scope o w b a d s
  | .fence scope => Sys2Proof.Machine.execFence scope s
  | .beq off b a => Sys2Proof.Machine.execBeq off b a s
  | .bne off b a => Sys2Proof.Machine.execBne off b a s
  | .blt off b a => Sys2Proof.Machine.execBlt off b a s
  | .bge off b a => Sys2Proof.Machine.execBge off b a s
  | .bltu off b a => Sys2Proof.Machine.execBltu off b a s
  | .bgeu off b a => Sys2Proof.Machine.execBgeu off b a s
  | .jal off d => Sys2Proof.Machine.execJal off d s
  | .jalr imm a d => Sys2Proof.Machine.execJalr imm a d s
  | .loop imm a => Sys2Proof.Machine.execLoop imm a s
  | .rep ss hs c n => Sys2Proof.Machine.execRep ss hs c n s
  | .callh a d => Sys2Proof.Machine.execCallh a d s
  | .reth a => Sys2Proof.Machine.execReth a s
  | .csrr c d => Sys2Proof.Machine.execCsrr c d s
  | .csrw c a d => Sys2Proof.Machine.execCsrw c a d s
  | .csrs c a d => Sys2Proof.Machine.execCsrs c a d s
  | .csrc c a d => Sys2Proof.Machine.execCsrc c a d s
  | .trap imm => Sys2Proof.Machine.execTrap imm s
  | .eret => Sys2Proof.Machine.execEret s
  | .brk imm => Sys2Proof.Machine.execBrk imm s
  | .hld imm r hd => Sys2Proof.Machine.execHld imm r hd s
  | .hst imm r ha => Sys2Proof.Machine.execHst imm r ha s
  | .hget w r ha => Sys2Proof.Machine.execHget w r ha s
  | .hset w r ha hd => Sys2Proof.Machine.execHset w r ha hd s
  | .hmov ha hd => Sys2Proof.Machine.execHmov ha hd s
  | .hadv w r ha hd => Sys2Proof.Machine.execHadv w r ha hd s
  | .hchk u r ha => Sys2Proof.Machine.execHchk u r ha s
  | .start d a b => Sys2Proof.Machine.execStart d a b s
  | .hexit a => Sys2Proof.Machine.execHexit a s
  | .hjoin d a b => Sys2Proof.Machine.execHjoin d a b s
  | .hstat d a => Sys2Proof.Machine.execHstat d a s
  | .bara g b => Sys2Proof.Machine.execBara g b s
  | .barw d g => Sys2Proof.Machine.execBarw d g s
  | .bar d g b => Sys2Proof.Machine.execBar d g b s
  | .exch d => Sys2Proof.Machine.execExch d s
  | .step d => Sys2Proof.Machine.execStep d s
  | .msend a b => Sys2Proof.Machine.execMsend a b s
  | .mrecv d a => Sys2Proof.Machine.execMrecv d a s
  | .messageArrival core id => Sys2Proof.Machine.execMessageArrival core id s
  | .msendRetry core id => Sys2Proof.Machine.execMsendRetry core id s
  | .enq d a b => Sys2Proof.Machine.execEnq d a b s
  | .rdone d => Sys2Proof.Machine.execRdone d s
  | .grab d a => Sys2Proof.Machine.execGrab d a s
  | .preempt d a live => Sys2Proof.Machine.execPreempt d a live s
  | .sleepto a => Sys2Proof.Machine.execSleepto a s
  | .waitt d a => Sys2Proof.Machine.execWaitt d a s
  | .tstat d a => Sys2Proof.Machine.execTstat d a s
  | .cancel d a => Sys2Proof.Machine.execCancel d a s
  | .detach d a b => Sys2Proof.Machine.execDetach d a b s
  | .adopt d a => Sys2Proof.Machine.execAdopt d a s
  | .tpri d a b => Sys2Proof.Machine.execTpri d a b s
  | .tfrec d a b => Sys2Proof.Machine.execTfrec d a b s
  | .waits d a => Sys2Proof.Machine.execWaits d a s
  | .rginit d h => Sys2Proof.Machine.execRginit d h s
  | .rgwait d a => Sys2Proof.Machine.execRgwait d a s
  | .rgrel a => Sys2Proof.Machine.execRgrel a s
  | .rgstat d a => Sys2Proof.Machine.execRgstat d a s
  | .reserveSlot id => Sys2Proof.Machine.execReserveSlot id s
  | .fillSlot id => Sys2Proof.Machine.execFillSlot id s
  | .claimHead id => Sys2Proof.Machine.execClaimHead id s
  | .hacq d a => Sys2Proof.Machine.execHacq d a s
  | .hrel d a => Sys2Proof.Machine.execHrel d a s
  | .hinfo d a => Sys2Proof.Machine.execHinfo d a s
  | .qsub d a b => Sys2Proof.Machine.execQsub d a b s
  | .qstat d a => Sys2Proof.Machine.execQstat d a s
  | .bind d a h => Sys2Proof.Machine.execBind d a h s
  | .unbind d a => Sys2Proof.Machine.execUnbind d a s
  | .copy o hC hA sX sY sZ => Sys2Proof.Machine.execCopy o hC hA sX sY sZ s
  | .copym o hC hA sX => Sys2Proof.Machine.execCopym o hC hA sX s
  | .pack o hC hA sX => Sys2Proof.Machine.execPack o hC hA sX s
  | .unpack o hC hA sX => Sys2Proof.Machine.execUnpack o hC hA sX s
  | .scadd o hA hB sX => Sys2Proof.Machine.execScadd o hA hB sX s
  | .bflush o sX => Sys2Proof.Machine.execBflush o sX s
  | .mma ovw o hC hA hB => Sys2Proof.Machine.execMma ovw o hC hA hB s
  | .mmag ovw o hC hA hB sX sY sZ => Sys2Proof.Machine.execMmag ovw o hC hA hB sX sY sZ s
  | .vadd r o hC hA hB => Sys2Proof.Machine.execVadd r o hC hA hB s
  | .vsub r o hC hA hB => Sys2Proof.Machine.execVsub r o hC hA hB s
  | .vmul r o hC hA hB => Sys2Proof.Machine.execVmul r o hC hA hB s
  | .vfma r o hC hA hB => Sys2Proof.Machine.execVfma r o hC hA hB s
  | .vmax r o hC hA hB => Sys2Proof.Machine.execVmax r o hC hA hB s
  | .vmin r o hC hA hB => Sys2Proof.Machine.execVmin r o hC hA hB s
  | .vabs r o hC hA => Sys2Proof.Machine.execVabs r o hC hA s
  | .vneg r o hC hA => Sys2Proof.Machine.execVneg r o hC hA s
  | .vexp r o hC hA => Sys2Proof.Machine.execVexp r o hC hA s
  | .vlog r o hC hA => Sys2Proof.Machine.execVlog r o hC hA s
  | .vrcp r o hC hA => Sys2Proof.Machine.execVrcp r o hC hA s
  | .vrsq r o hC hA => Sys2Proof.Machine.execVrsq r o hC hA s
  | .vtanh r o hC hA => Sys2Proof.Machine.execVtanh r o hC hA s
  | .vcmp r o hC hA hB sX => Sys2Proof.Machine.execVcmp r o hC hA hB sX s
  | .vsel r o hC hA hB => Sys2Proof.Machine.execVsel r o hC hA hB s
  | .vcvt r o hC hA => Sys2Proof.Machine.execVcvt r o hC hA s
  | .vscl r o hC hA sX => Sys2Proof.Machine.execVscl r o hC hA sX s
  | .vreds r o hC hA => Sys2Proof.Machine.execVreds r o hC hA s
  | .vredm r o hC hA => Sys2Proof.Machine.execVredm r o hC hA s
  | .vscan r o hC hA => Sys2Proof.Machine.execVscan r o hC hA s
  | .stripDispatch cl => Sys2Proof.Machine.execStripDispatch cl s
  | .qntQ4uni o hC hA => Sys2Proof.Machine.execQntQ4uni o hC hA s
  | .qntQ4e2m1 o hC hA => Sys2Proof.Machine.execQntQ4e2m1 o hC hA s
  | .qntQ4pow o hC hA => Sys2Proof.Machine.execQntQ4pow o hC hA s
  | .qntQ4hyb o hC hA => Sys2Proof.Machine.execQntQ4hyb o hC hA s
  | .qntQ4auto o hC hA => Sys2Proof.Machine.execQntQ4auto o hC hA s
  | .dqnt o hC hA => Sys2Proof.Machine.execDqnt o hC hA s
  | .qchk o hA => Sys2Proof.Machine.execQchk o hA s
  | .winit o hC sX => Sys2Proof.Machine.execWinit o hC sX s
  | .wprobe o hC hA hB => Sys2Proof.Machine.execWprobe o hC hA hB s
  | .wcommit o hC hA sX sY sZ => Sys2Proof.Machine.execWcommit o hC hA sX sY sZ s
  | .wpick o hA sY sZ => Sys2Proof.Machine.execWpick o hA sY sZ s
  | .wrd o hC hA hB => Sys2Proof.Machine.execWrd o hC hA hB s
  | .allred red o hC hA sX sZ => Sys2Proof.Machine.execAllred red o hC hA sX sZ s
  | .redscat red o hC hA sX sZ => Sys2Proof.Machine.execRedscat red o hC hA sX sZ s
  | .allgath o hC hA sX sZ => Sys2Proof.Machine.execAllgath o hC hA sX sZ s
  | .bcast o hC hA sX sY sZ => Sys2Proof.Machine.execBcast o hC hA sX sY sZ s
  | .alltoall o hC hA sX sZ => Sys2Proof.Machine.execAlltoall o hC hA sX sZ s
  | .collectiveTimeout id => Sys2Proof.Machine.execCollectiveTimeout id s
  | .abort src => Sys2Proof.Machine.execAbort src s
  | .spec o sX sY sZ => Sys2Proof.Machine.execSpec o sX sY sZ s
  | .engineStart e => Sys2Proof.Machine.execEngineStart e s
  | .engineStep id k => Sys2Proof.Machine.execEngineStep id k s
  | .operationCompletion id => Sys2Proof.Machine.execOperationCompletion id s
  | .drain core ctx => Sys2Proof.Machine.execDrain core ctx s
  | .perform src dst => Sys2Proof.Machine.execPerform src dst s
  | .refresh die g => Sys2Proof.Machine.execRefresh die g s
  | .pageWalk core pasid va => Sys2Proof.Machine.execPageWalk core pasid va s
  | .kick v => Sys2Proof.Machine.execKick v s
  | .kickstatRead => Sys2Proof.Machine.execKickstatRead s
  | .lookupAnswer id => Sys2Proof.Machine.execLookupAnswer id s
  | .qcbChange c => Sys2Proof.Machine.execQcbChange c s
  | .nop => Sys2Proof.Machine.execNop s
  | .launch => Sys2Proof.Machine.execLaunch s
  | .gangRelease id => Sys2Proof.Machine.execGangRelease id s
  | .controlContextStart core => Sys2Proof.Machine.execControlContextStart core s
  | .launchComplete id => Sys2Proof.Machine.execLaunchComplete id s
  | .records => Sys2Proof.Machine.execRecords s
  | .expandRecord id => Sys2Proof.Machine.execExpandRecord id s
  | .recordsComplete id => Sys2Proof.Machine.execRecordsComplete id s
  | .fencePacket => Sys2Proof.Machine.execFencePacket s
  | .signal => Sys2Proof.Machine.execSignal s
  | .serviceDrain => Sys2Proof.Machine.execServiceDrain s
  | .serviceDrainComplete => Sys2Proof.Machine.execServiceDrainComplete s
  | .invalidatePage v => Sys2Proof.Machine.execInvalidatePage v s
  | .invalidatePasid v => Sys2Proof.Machine.execInvalidatePasid v s
  | .invalidateAll v => Sys2Proof.Machine.execInvalidateAll v s
  | .invalidationComplete => Sys2Proof.Machine.execInvalidationComplete s
  | .registerWrite off n v => Sys2Proof.Machine.execRegisterWrite off n v s
  | .bar2Read x n tag => Sys2Proof.Machine.execBar2Read x n tag s
  | .bar2Write x bs tag => Sys2Proof.Machine.execBar2Write x bs tag s
  | .pcieCompletion id r => Sys2Proof.Machine.execPcieCompletion id r s
  | .completionTimeout id => Sys2Proof.Machine.execCompletionTimeout id s
  | .attest r => Sys2Proof.Machine.execAttest r s
  | .challenge r => Sys2Proof.Machine.execChallenge r s
  | .latchkey r => Sys2Proof.Machine.execLatchkey r s
  | .leaseStart r => Sys2Proof.Machine.execLeaseStart r s
  | .stage r => Sys2Proof.Machine.execStage r s
  | .handover r => Sys2Proof.Machine.execHandover r s
  | .record r => Sys2Proof.Machine.execRecord r s
  | .reclaim r => Sys2Proof.Machine.execReclaim r s
  | .reclaimRegisterWrite v => Sys2Proof.Machine.execReclaimRegisterWrite v s
  | .mbxUnknown code r => Sys2Proof.Machine.execMbxUnknown code r s
  | .firmwareCommand code r act => Sys2Proof.Machine.execFirmwareCommand code r act s
  | .yield => Sys2Proof.Machine.execYield s
  | .handoverTimeout => Sys2Proof.Machine.execHandoverTimeout s
  | .dbgStop core => Sys2Proof.Machine.execDbgStop core s
  | .dbgGo core => Sys2Proof.Machine.execDbgGo core s
  | .functionLevelReset => Sys2Proof.Machine.execFunctionLevelReset s
  | .powerOn => Sys2Proof.Machine.execPowerOn s
  | .timeset v => Sys2Proof.Machine.execTimeset v s
  | .timeTrim ppm => Sys2Proof.Machine.execTimeTrim ppm s
  | .poolOwnerSet die pasid => Sys2Proof.Machine.execPoolOwnerSet die pasid s
  | .preemptRequest cl lid claim prio base stride => Sys2Proof.Machine.execPreemptRequest cl lid claim prio base stride s
  | .pointTaken cl => Sys2Proof.Machine.execPointTaken cl s
  | .pointDeclined cl => Sys2Proof.Machine.execPointDeclined cl s
  | .restoreRequest cl lid => Sys2Proof.Machine.execRestoreRequest cl lid s
  | .jobFatalDiscard id => Sys2Proof.Machine.execJobFatalDiscard id s
  | .leaderFailover id => Sys2Proof.Machine.execLeaderFailover id s
  | .data bs => Sys2Proof.Machine.execData bs s
  | .ack bs => Sys2Proof.Machine.execAck bs s
  | .nak bs => Sys2Proof.Machine.execNak bs s
  | .probe bs => Sys2Proof.Machine.execProbe bs s
  | .replayTimeout peer cls => Sys2Proof.Machine.execReplayTimeout peer cls s
  | .feTimeout core ctx => Sys2Proof.Machine.execFeTimeout core ctx s
  | .uncorrectableError u => Sys2Proof.Machine.execUncorrectableError u s
  | .flitReplay link => Sys2Proof.Machine.execFlitReplay link s
  | .linkFence link used => Sys2Proof.Machine.execLinkFence link used s
  | .powerCap island rate => Sys2Proof.Machine.execPowerCap island rate s
  | .thermalThrottle island => Sys2Proof.Machine.execThermalThrottle island s
  | .thermalShutdown => Sys2Proof.Machine.execThermalShutdown s
  | .badpkt => Sys2Proof.Machine.execBadpkt s
  | .sleeptoWake core ctx => Sys2Proof.Machine.execSleeptoWake core ctx s
  | .releaseTimeReached core => Sys2Proof.Machine.execReleaseTimeReached core s
  | .saveComplete cl => Sys2Proof.Machine.execSaveComplete cl s
  | .reclaimComplete => Sys2Proof.Machine.execReclaimComplete s
  | .mbxCommandComplete => Sys2Proof.Machine.execMbxCommandComplete s
  | .powerLoss => Sys2Proof.Machine.execPowerLoss s
  | .correctedError u => Sys2Proof.Machine.execCorrectedError u s
  | .ptpEventFrame port sent => Sys2Proof.Machine.execPtpEventFrame port sent s

end Sys2Proof.Machine
end

