-- ==== Sys2Proof/Machine/Party.lean ====
section
/-! DEFINITION. What the module's parties, the host and the outside do that is no row of the opcode table
(spec/03 R69 to R71, spec/04 R100, spec/06 R144, spec/11 R275, spec/15 R354 to R367, R383). -/

namespace Sys2Proof.Machine
open Sys2Proof

/-- A port goes bad or comes back, for the frames that go out from then on (R361). -/
def portSet (n : Nat) (bad : Bool) (s : State) : State :=
  { s with badPorts := if bad then sins n s.badPorts else sdel n s.badPorts }

/-- One act of a party (R262). -/
def runAct (a : Act) (s : State) : State :=
  match a with
  | .service v => svcStep v s
  | .barAnswer id => barAnswer id s
  | .bar0Read off n => bar0Read off n s
  | .atomicOp => atomicOp s
  | .pasidCap on => { s with pasidCap := on }
  | .post => servePost s
  | .trace c => serveTrace c s
  | .save cl => saveStep cl s
  | .apply id => stepApply id s
  | .farAnswer id bs => farAnswer id bs s
  | .farServe r p va n => farServe r p va n s
  | .farGo id => farGo id s
  | .port n bad => portSet n bad s
  | .vector v => fwVector v s
  | .island n mhz mv => islandSet n mhz mv s
  | .mac m addr => fwMac m addr s
  | .policy => policyStep s
  | .operatorKey key => fuseOperator key s
  | .retire => fuseRetire s
  | .policyDebug d => policyDebug d s
  | .inject p d => injectError p d s
  | .fuseView => fuseView s
  | .pcieError => pcieError s
  | .badUnit c n => unitFails c n s

end Sys2Proof.Machine
end

