-- ==== Sys2Proof/Machine/Sched.lean ====
section
/-! DEFINITION. Which instruction the context that issues executes next (spec/02 R21, R22, R42,
spec/07 R185, spec/09 R230, spec/14 R340), time, and the placing of an instruction word. -/

namespace Sys2Proof.Machine
open Sys2Proof

/-- Whether the context that issues may issue: running, on a powered module out of reset, its
core not stopped (R300, R377) and its launch not job-fatal (R341). -/
def canIssue (s : State) : Bool :=
  s.power && s.released && s.me.mode == .running && !s.mine.dbgctl.getLsbD 1 &&
    !(s.launchOf s.myCore).any (fun l => l.fatal.isSome)

/-- A field of REP's scalar window, s16 to s23, rotated (R185). -/
def rotS (n : Nat) (r : SReg) : SReg :=
  if 16 ≤ r.toNat ∧ r.toNat ≤ 23 then BitVec.ofNat 5 (16 + (r.toNat - 16 + n) % 8) else r

/-- A field of REP's handle window, h8 to h15, rotated (R185). -/
def rotH (n : Nat) (r : HReg) : HReg :=
  if 8 ≤ r.toNat then BitVec.ofNat 4 (8 + (r.toNat - 8 + n) % 8) else r

/-- The instruction of words that have been fetched, or the illegal-instruction trap (R41). -/
def decoded (s : State) (ws : List Word) (f : Instr → Instr) : Except State (Instr × State) :=
  match decodeList ws with
  | none => .error (takeTrap s s.cur ws.length 0x01 (wordsVal ws))
  | some i =>
    if (f i).wf then .ok (f i, s) else .error (takeTrap s s.cur ws.length 0x01 (wordsVal ws))

/-- The length that ILEN takes when the fetch of the instruction at `va` fails at `fa` (R22, R335): from the
first word, or, when that word itself cannot be fetched, a free value from 1 to 3 (log 6). -/
def faultLen (s : State) (k va fa : Nat) : Nat × State :=
  match (if fa = va then (.error 0, s) else fetchWord s k va) with
  | (.ok w, s) => (wordCount w, s)
  | (.error _, s) =>
    let (n, s) := s.free
    (1 + n % 3, s)

/-- The next instruction of the context that issues: the one it waits in, the next of the
repetition buffer with its fields rotated, or the one at its pc; otherwise the state in which it
has trapped (R22, R41), met an uncorrectable error (R75), or waits for its words or its handler's (R56, R64,
R69, R340). -/
def nextInstr (s : State) : Except State (Instr × State) :=
  match s.me.trapping, s.me.wait with
  | some (len, cause, val), _ => .error (takeTrap s s.cur len cause val)
  | none, some w => .ok (w.instr, s)
  | none, none =>
    match s.me.rep with
    | some r => decoded s (r.words.getD r.idx []) (fun i => i.mapRegs (rotS (r.iter * r.ss)) (rotH (r.iter * r.hs)))
    | none =>
      match fetchInstr s s.cur s.me.pc.toNat with
      | (.ok ws, s) => decoded (ioClear s (.fetch s.cur)) ws id
      | (.error (c, fa), s) =>
        if c = 0 then .error s
        else if c = 0x48 then .error (poisonStop s)
        else
          let (n, s) := faultLen s s.cur s.me.pc.toNat fa
          .error (takeTrap (ioClear s (.fetch s.cur)) s.cur n c (dw fa))

/-- Time passes (log 7): cycles of the main clock, and nanoseconds of the reference clock, which TIME counts
at a rate that the trim changes by as many parts per million (R366). -/
def tick (cycles ns : Nat) (s : State) : State :=
  let n := s.timeFrac + ns * (1000000 + s.trim).toNat
  { s with cycle := s.cycle + cycles, time := s.time + dw (n / 1000000), timeFrac := n % 1000000 }

/-- The state with an instruction of `nbits` bits placed where the context that issues fetches
next: the start of its private TCM window, with the context running (log 12). -/
def placeWord (s : State) (nbits w : Nat) : State :=
  let s := { s with power := true, released := true, agenda := [] }
  let s := s.modCore s.myCore (fun x => { x with dbgctl := x.dbgctl &&& ~~~2#64 })
  let s := match s.mine.launch with
    | none => s
    | some l => s.modLaunch l (fun x => { x with fatal := none })
  let s := s.modMe (fun c =>
    { c with mode := .running, wait := none, trapping := none, rep := none, pc := 0xFFF00000000000#64,
             fetchOld := [] })
  { s with mem := memWrite (tcmHome s.myCore 0) (tableBytes nbits w) s.mem }

end Sys2Proof.Machine
end

