-- ==== Sys2Proof/Machine/Background.lean ====
section
/-! DEFINITION. What happens by itself when no agenda says otherwise: one round of the module's own
parties, and the next context in turn (spec/11 R262: every party acts in time; log 1). -/

namespace Sys2Proof.Machine
open Sys2Proof

/-- An event's state, if it has one. -/
def stateOf (o : Out) (s : State) : State :=
  match o with
  | .next t => t
  | _ => s

/-- An event tried on a state. -/
def tryOn (f : State → Out) (s : State) : State := stateOf (f s) s

/-- The engine of an operation of a class, for a unit. -/
def engineOf (cls u : Nat) : EngineId :=
  match cls with
  | 0 => .matrix u
  | 1 => .copy u
  | 2 => .eddy u
  | 3 => .quant u
  | 4 => .weir u
  | 5 => .coll u
  | _ => .spec u

/-- One operation's start, ring steps, next unit and end, whichever its conditions allow. -/
def opRound (s : State) (o : Op) : State :=
  let s :=
    if o.st.final then s
    else if o.vec then tryOn (execStripDispatch (clusterOfCore o.core)) s
    else
      let c := opClass o.instr
      tryOn (execEngineStart (engineOf c (unitOf s o))) s
  let s := tryOn (execClaimHead o.id) (tryOn (execReserveSlot o.id) s)
  let s := (List.range (max 1 o.scr.length)).foldl (fun s k =>
    if o.vec || k == 0 then tryOn (execEngineStep o.id k) s else s) s
  let s := tryOn (execFillSlot o.id) s
  let s := tryOn (execCollectiveTimeout o.id) s
  tryOn (execOperationCompletion o.id) s

/-- A context's store buffer and wait. -/
def ctxRound (s : State) (k : Nat) : State :=
  let c := coreOf k
  let n := numOf k
  let s := tryOn (execDrain c n) s
  match (s.ctx k).wait with
  | none => s
  | some _ => tryOn (execFeTimeout c n) (tryOn (execSleeptoWake c n) s)

/-- A core's control context, dispatcher and messages. -/
def coreRound (s : State) (c : Nat) : State :=
  let s := tryOn (execReleaseTimeReached c) (tryOn (execControlContextStart c) s)
  (s.core c).retry.foldl (fun s e =>
    tryOn (execMessageArrival c e.id) (tryOn (execMsendRetry c e.id) s)) s

/-- A cluster's pre-emption point and its save, some pieces in a round (R346, R347). -/
def clusterRound (s : State) (cl : Nat) : State :=
  let s := tryOn (execPointDeclined cl) (tryOn (execPointTaken cl) s)
  let n := ((s.cluster cl).saving.elim [] SaveSt.pieces).length
  tryOn (execSaveComplete cl) ((List.range (min n 64)).foldl (fun s _ => saveStep cl s) s)

/-- The walks in flight on a die end (R64). -/
def walkRound (s : State) (d : Nat) : State :=
  (s.die d).walks.foldl (fun s w => tryOn (execPageWalk w.core w.pasid w.va) s) s

/-- The service cores and appliers, the host port's own ends, the posts and the aborts that go on their
way (R68, R100, R144, R259, R275, R276), and the trace records that wait (R378). -/
def portRound (s : State) : State :=
  let s := ([0, 1, 2, 3] : List Nat).foldl (fun s v => svcStep v s) s
  let s := s.barReads.foldl (fun s b => barAnswer b.id s) s
  let s := s.applies.foldl (fun s a => stepApply a.id s) s
  let s := s.traces.foldl (fun s r => serveTrace r.core s) s
  let s := s.farIn.foldl (fun s q => farGo q.id s) s
  let s := (List.range s.aborts.length).foldl (fun s n =>
    if (s.aborts[n]?).any (fun a => !a.sent) then tryOn (execAbort (.here n)) s else s) s
  let s := tryOn execServiceDrainComplete (servePost s)
  tryOn execInvalidationComplete s

/-- Utonauz's and the policy core's turn (R364, R365, R371, R374). -/
def policyRound (s : State) : State :=
  let s := tryOn execMbxCommandComplete s
  let s := tryOn execReclaimComplete (tryOn execHandoverTimeout s)
  policyStep s

/-- The Headgate's and the policy core's turn. -/
def gateRound (s : State) : State :=
  let s := s.held.foldl (fun s h => tryOn (execLookupAnswer h.id) s) s
  let s := tryOn execNop s
  let s := tryOn execLaunch s
  let s := tryOn execRecords s
  let s := tryOn execFencePacket s
  let s := tryOn execBadpkt (tryOn execSignal s)
  let s := s.expands.foldl (fun s e =>
    tryOn (execRecordsComplete e.id) (tryOn (execExpandRecord e.id) s)) s
  s.launches.foldl (fun s l =>
    tryOn (execJobFatalDiscard l.id) (tryOn (execLaunchComplete l.id) (tryOn (execGangRelease l.id) s))) s

/-- Time that passes in a round: `n` cycles of the main clock, and TIME with them at 1.8 GHz (R352). -/
def pass (n : Nat) (s : State) : State :=
  tick n ((s.cycle + n) * 5 / 9 - s.cycle * 5 / 9) s

/-- Whether some context has an instruction to issue that does not wait. -/
def someBusy (s : State) : Bool :=
  s.ctxs.any (fun p => canIssue { s with cur := p.1 } && p.2.wait.isNone)

/-- One round of everything but the contexts' own instructions; then time passes, faster while every
context waits. The engines have their turn in one of 16 rounds, or in each while every context waits. -/
def background (s : State) : State :=
  let busy := someBusy s
  let s := if !busy || s.cycle % 16 == 0 then s.ops.foldl opRound s else s
  let s := s.ctxs.foldl (fun s p => ctxRound s p.1) s
  let s := s.cores.foldl (fun s p => coreRound s p.1) s
  let s := s.clusters.foldl (fun s p => clusterRound s p.1) s
  let s := s.dies.foldl (fun s p => walkRound s p.1) s
  let s := policyRound (portRound s)
  let s := match s.outq with
    | [] => s
    | e :: _ => tryOn (execPerform e.src e.dst) s
  pass (if busy then 1 else 64) (gateRound s)

/-- The contexts that may issue, in the order of their turns. -/
def runnable (s : State) : List Nat :=
  (s.ctxs.map Prod.fst).filter (fun k => canIssue { s with cur := k })

/-- Whether nothing but the current context's instructions has anything to do: it may issue and waits
for nothing, no launch runs, and no other context, operation, write or request is under way. The policy
core's own instructions, which reach its own memory alone, are left aside (log 44). -/
def quiet (s : State) : Bool :=
  canIssue s && s.me.wait.isNone && s.launches.isEmpty && s.ops.isEmpty && s.outq.isEmpty &&
    s.applies.isEmpty && s.farIn.isEmpty && s.svcq.isEmpty && s.barReads.isEmpty && s.posts.isEmpty && s.traces.isEmpty && s.aborts.isEmpty &&
    s.mbxCmd.isNone && !s.svcBusy && s.inval.isNone && !reclaiming s && s.hand != .quiescing && s.hand != .switching &&
    s.dies.all (fun d => d.2.walks.isEmpty && d.2.walkq.isEmpty) &&
    s.ctxs.all (fun p => p.1 == s.cur || (p.2.mode != .running && p.2.sbuf.isEmpty))

/-- The state in which the next instruction issues when no agenda says otherwise: unless all is quiet,
the next context is in turn, after a round of the background when the turns begin again. -/
def nextUp (s : State) : State :=
  if quiet s then s
  else
    match (runnable s).find? (fun k => decide (s.cur < k)) with
    | some k => { s with cur := k }
    | none =>
      let s := background s
      match runnable s with
      | k :: _ => { s with cur := k }
      | [] => s

/-- The state with an instruction placed as `placeWord` does, its context next to issue. -/
def placeNext (s : State) (nbits w : Nat) : State :=
  let s := placeWord s nbits w
  if quiet s then s else { s with agenda := [{ who := .issue s.myCore (numOf s.cur), keep := [] }] }

end Sys2Proof.Machine
end

