-- ==== Sys2Proof/Machine/Step.lean ====
section
/-! DEFINITION. The step of the module: the next move of the agenda, or the current context. -/

namespace Sys2Proof.Machine
open Sys2Proof

/-- The context that issues executes its next instruction; one that may not issue does nothing. -/
def issue (s : State) : Host.Outcome State Fault Refusal :=
  if !canIssue s then .next s
  else
    match nextInstr s with
    | .error s => .next s
    | .ok (i, s) => exec i s

/-- One move (R262). A move that names a core or context the module does not have is a fault. -/
def moveStep (m : Move) (s : State) : Host.Outcome State Fault Refusal :=
  match m.who with
  | .issue core ctx =>
    if core < s.ndies * 64 ∧ ctx ≤ 10 then issue { s with cur := core * 16 + ctx }
    else .fault .noSuchUnit
  | .event e => if e.isEvent then exec e s else .next s
  | .act a => .next (runAct a s)
  | .tick cycles ns => .next (tick cycles ns s)

/-- One step: the first move of the agenda; with none, the context in turn issues once the background
has had its round (log 1). -/
def step (s : State) : Host.Outcome State Fault Refusal :=
  match s.agenda with
  | m :: r => moveStep m { s with agenda := r, keep := m.keep }
  | [] => issue (nextUp { s with keep := [] })

/-- The state with an instruction stored where `step` fetches its next one. -/
def State.withFetchWord (s : State) (nbits w : Nat) : State := placeNext s nbits w

end Sys2Proof.Machine
end

