-- ==== Sys2Proof/Safety.lean ====
section
/-! DEFINITION. What the claims call a good state and a good step. -/

namespace Sys2Proof.Machine
open Sys2Proof

/-- The invariant every step keeps: memory in its canonical form. -/
abbrev State.Inv (s : State) : Prop := memWf s.mem = true

/-- A step that completes: neither a fault nor a refusal. -/
def Completes (o : Host.Outcome State Fault Refusal) : Prop := ∃ t, o = .next t

/-- The context that issues may execute `i` as far as the checks of R42 before its own operand
checks go: it names accessible registers, and is no instruction that a REP block forbids. -/
abbrev Ready (i : Instr) (s : State) : Prop :=
  badReg s.me.acc i = none ∧ (i.noRep = false ∨ s.me.rep = none)

end Sys2Proof.Machine
end

