-- ==== Sys2Proof/Certificates/Slice0/Obligations.lean ====
section
/-! DEFINITION. The statements for the provers, each an `Obligations.<Name>`, and the small
definitions they are written in: what the rules of spec/ say an instruction or an event does, in
terms of `exec` and `step`. -/

namespace Sys2Proof.Claims
open Sys2Proof Sys2Proof.Machine

/-! ## Frames -/

/-- Nothing outside the context that issues has changed, but that the holder of its core's
repetition buffer may have: every other context, core and field of the state. -/
def OnlyMe (s t : State) : Prop :=
  ({ t with ctxs := s.ctxs, cores := s.cores } : State) = s ∧
  (∀ k, k ≠ s.cur → t.ctx k = s.ctx k) ∧
  ∀ c, ({ t.core c with repHolder := (s.core c).repHolder } : Core) = s.core c

/-- Of the context that issues, only scalar registers and the flow of control (pc, loop levels, REP,
its wait) may have changed. -/
def FlowAndRegs (s t : State) : Prop :=
  ({ t.me with regs := s.me.regs, pc := s.me.pc, loops := s.me.loops, rep := s.me.rep, wait := s.me.wait } : Ctx)
    = s.me

/-- Every byte of memory reads as before, as every die's view of it does. -/
def SameMemory (s t : State) : Prop :=
  (∀ a, memGet a t.mem = memGet a s.mem) ∧ ∀ die a, viewByte t die a = viewByte s die a

end Sys2Proof.Claims

section
open Sys2Proof Sys2Proof.Machine Sys2Proof.Claims
/-! ## Reset, encoding and the step -/

/-- The module right after power is applied: the registers of BAR0 at the reset values that their maps give
(R67, R70, R276, R356, R365, R373, R415), TIME 0, no kick, no invalidation in progress, no mailbox command, no
reclaim, no launch and no context, and memory that reads 0 (R366, R375; that it does so before the scrub of the
boot is log 25). The fields without a reset value in the spec are not named. A context at creation (R19, R109,
R171, R197, R302, R334, R344): every scalar and every handle register zero, no trap in progress, XSTATUS 0, and
FPFLAGS, QCTL, SPECCTL, DRAINMAX, FEWAIT and RETRYMAX at the reset value of their maps. -/
def Obligations.ResetValues : Prop :=
  (State.reset.time = 0#64 ∧ State.reset.inval = none ∧ State.reset.kicks = [] ∧ State.reset.mbxCmd = none ∧
  (∀ off, off ∈ ([0x08, 0x10, 0x18, 0x20, 0x28, 0x40, 0x48, 0x10008, 0x20000] : List Nat) →
    bar0Get State.reset off = 0) ∧
  (∀ n, n < 32 → bar0Get State.reset (0x1000 + 16 * n) = 0 ∧ bar0Get State.reset (0x1008 + 16 * n) = 0) ∧
  State.reset.reclaimState = 0#3 ∧ State.reset.launches = [] ∧ (∀ a, memGet a State.reset.mem = 0#8) ∧
  (∀ k, (State.reset.ctx k).mode = .absent)) ∧
  ((∀ r, Ctx.fresh.reg r = 0#64) ∧ (∀ r, Ctx.fresh.hreg r = 0#256) ∧ Ctx.fresh.it = false ∧
  Ctx.fresh.xstatus = 0#64 ∧ Ctx.fresh.fpflags = 0#64 ∧ Ctx.fresh.qctl = 2#64 ∧
  Ctx.fresh.specctl = 0x0000400000100000#64 ∧ Ctx.fresh.drainmax = 0x64#64 ∧ Ctx.fresh.fewait = 0x00100000#64 ∧
  Ctx.fresh.retrymax = 0x40#64 ∧ Ctx.fresh.loops = [] ∧ Ctx.fresh.rep = none ∧ Ctx.fresh.sbuf = [] ∧
  Ctx.fresh.wait = none)

end

namespace Sys2Proof.Claims
open Sys2Proof Sys2Proof.Machine

/-! ## Results of the scalar instructions, written from R160 to R165 -/

/-- Bits [31:0] with bit 31 copied into [63:32] (R161). -/
def low32 (x : DWord) : DWord := (x.setWidth 32).signExtend 64

/-- A value, or for a W form its low half sign-extended (R161). -/
def wide (w : Bool) (x : DWord) : DWord := if w then low32 x else x

/-- The bits that a W form reads (R161). -/
def reads (w : Bool) (x : DWord) : DWord := if w then x &&& 0xFFFFFFFF#64 else x

/-- The shift amount: y[5:0], or y[4:0] in a W form. -/
def amount (w : Bool) (y : DWord) : Nat := if w then y.toNat % 32 else y.toNat % 64

/-- A rotation to the left within 64 bits, or within 32. -/
def rotated (w : Bool) (x : DWord) (n : Nat) : DWord :=
  if w then low32 (((x &&& 0xFFFFFFFF#64) <<< n) ||| ((x &&& 0xFFFFFFFF#64) >>> (32 - n)))
  else (x <<< n) ||| (x >>> (64 - n))

/-- 1 for a relation that holds, else 0. -/
def bit (p : Prop) [Decidable p] : DWord := if p then 1#64 else 0#64

/-- What R160, R161, R164 and R165 make of an integer or immediate instruction: the destination and
the value, from the operands x = s[a] and y. -/
def intResult (s : State) : Instr → Option (SReg × DWord)
  | .add w d a b => some (d, wide w (s.reg a + s.opB b))
  | .sub w d a b => some (d, wide w (s.reg a - s.opB b))
  | .and d a b => some (d, s.reg a &&& s.opB b)
  | .or d a b => some (d, s.reg a ||| s.opB b)
  | .xor d a b => some (d, s.reg a ^^^ s.opB b)
  | .andn d a b => some (d, s.reg a &&& ~~~s.opB b)
  | .sll w d a b => some (d, wide w (s.reg a <<< amount w (s.opB b)))
  | .srl w d a b => some (d, wide w (reads w (s.reg a) >>> amount w (s.opB b)))
  | .sra w d a b => some (d, wide w ((wide w (s.reg a)).sshiftRight (amount w (s.opB b))))
  | .rol w d a b => some (d, rotated w (s.reg a) (amount w (s.opB b)))
  | .slt d a b => some (d, bit ((s.reg a).toInt < (s.opB b).toInt))
  | .sltu d a b => some (d, bit ((s.reg a).toNat < (s.opB b).toNat))
  | .min d a b => some (d, if (s.reg a).toInt ≤ (s.opB b).toInt then s.reg a else s.opB b)
  | .max d a b => some (d, if (s.reg a).toInt ≤ (s.opB b).toInt then s.opB b else s.reg a)
  | .minu d a b => some (d, if (s.reg a).toNat ≤ (s.opB b).toNat then s.reg a else s.opB b)
  | .maxu d a b => some (d, if (s.reg a).toNat ≤ (s.opB b).toNat then s.opB b else s.reg a)
  | .mul w d a b => some (d, wide w (s.reg a * s.opB b))
  | .mulh d a b => some (d, BitVec.ofInt 64 ((s.reg a).toInt * (s.opB b).toInt / 2 ^ 64))
  | .mulhu d a b => some (d, BitVec.ofNat 64 ((s.reg a).toNat * (s.opB b).toNat / 2 ^ 64))
  | .shadd k d a b => some (d, s.reg a <<< (k.toNat + 1) + s.opB b)
  | .sel d a b => some (d, if s.reg d ≠ 0#64 then s.reg a else s.opB b)
  | .addi d a imm => some (d, s.reg a + imm.signExtend 64)
  | .andi d a imm => some (d, s.reg a &&& imm.signExtend 64)
  | .ori d a imm => some (d, s.reg a ||| imm.signExtend 64)
  | .xori d a imm => some (d, s.reg a ^^^ imm.signExtend 64)
  | .slti d a imm => some (d, bit ((s.reg a).toInt < imm.toInt))
  | .sltiu d a imm => some (d, bit ((s.reg a).toNat < (imm.signExtend 64).toNat))
  | .slli d a n => some (d, s.reg a <<< n.toNat)
  | .srli d a n => some (d, s.reg a >>> n.toNat)
  | .srai d a n => some (d, (s.reg a).sshiftRight n.toNat)
  | .roli d a n => some (d, rotated false (s.reg a) n.toNat)
  | _ => none

/-- What R160 to R162 make of a division: the destination, the divisor that is read, and the quotient
or remainder of the operands read as the form reads them. -/
def divResult (s : State) : Instr → Option (SReg × DWord × DWord)
  | .div w d a b =>
    some (d, reads w (s.opB b), wide w (BitVec.ofInt 64 ((wide w (s.reg a)).toInt.tdiv (wide w (s.opB b)).toInt)))
  | .divu w d a b =>
    some (d, reads w (s.opB b), wide w (BitVec.ofNat 64 ((reads w (s.reg a)).toNat / (reads w (s.opB b)).toNat)))
  | .rem w d a b =>
    some (d, reads w (s.opB b), wide w (BitVec.ofInt 64 ((wide w (s.reg a)).toInt.tmod (wide w (s.opB b)).toInt)))
  | .remu w d a b =>
    some (d, reads w (s.opB b), wide w (BitVec.ofNat 64 ((reads w (s.reg a)).toNat % (reads w (s.opB b)).toNat)))
  | _ => none

/-- The register s[a] of a division. -/
def dividend (s : State) : Instr → DWord
  | .div _ _ a _ => s.reg a
  | .divu _ _ a _ => s.reg a
  | .rem _ _ a _ => s.reg a
  | .remu _ _ a _ => s.reg a
  | _ => 0#64

/-- The bits that a count reads, and how many they are (R163). -/
def countBits (w : Bool) : Nat := if w then 32 else 64

end Sys2Proof.Claims

section
open Sys2Proof Sys2Proof.Machine Sys2Proof.Claims

/-- R160, R161, R164 and R165: an integer or immediate instruction whose checks pass writes the value of
the rule to its destination and retires. -/
def Obligations.IntegerResults : Prop :=
  ∀ (i : Instr) (s : State) (d : SReg) (v : DWord), intResult s i = some (d, v) → Ready i s →
    exec i s = .next (retire i (s.setReg d v))

/-- R160 to R162: a division by a divisor that is not zero, as the form reads it, writes the quotient
toward zero or the remainder with the dividend's sign, and retires; a zero divisor, in either width,
raises trap 0x07 with XVAL = s[a]. -/
def Obligations.DivisionResults : Prop :=
  ∀ (i : Instr) (s : State) (d : SReg) (y v : DWord), divResult s i = some (d, y, v) → Ready i s →
    (y ≠ 0#64 → exec i s = .next (retire i (s.setReg d v))) ∧
    (y = 0#64 → exec i s = .next (takeTrap s s.cur i.len 0x07 (dividend s i)))

/-- R163: the counts and reversals. CLZ writes the n for which the n highest of the bits read are zero and the
next one, if there is one, is set; CTZ the same from the lowest bit; POPC how many of the bits are set.
BREV writes x with bit i moved to bit 63 − i, BSWAP with byte i moved to byte 7 − i; the W forms reverse
x[31:0] and sign-extend the result. R163: the extensions and fields, bit by bit. SEXT and ZEXT keep the
low n = y bits of x, all of x from 64 on, and 0 for n = 0; EXT takes l bits from place p; INS puts l bits
of x at place p of s[d]. -/
def Obligations.BitOperations : Prop :=
  (∀ (w : Bool) (d a : SReg) (s : State),
    (Ready (.clz w d a) s → ∃ n, n ≤ countBits w ∧
      (∀ j, j < n → (s.reg a).getLsbD (countBits w - 1 - j) = false) ∧
      (n < countBits w → (s.reg a).getLsbD (countBits w - 1 - n) = true) ∧
      exec (.clz w d a) s = .next (retire (.clz w d a) (s.setReg d (BitVec.ofNat 64 n)))) ∧
    (Ready (.ctz w d a) s → ∃ n, n ≤ countBits w ∧ (∀ j, j < n → (s.reg a).getLsbD j = false) ∧
      (n < countBits w → (s.reg a).getLsbD n = true) ∧
      exec (.ctz w d a) s = .next (retire (.ctz w d a) (s.setReg d (BitVec.ofNat 64 n)))) ∧
    (Ready (.popc w d a) s →
      exec (.popc w d a) s = .next (retire (.popc w d a) (s.setReg d (BitVec.ofNat 64
        ((List.range (countBits w)).countP (fun j => (s.reg a).getLsbD j)))))) ∧
    (Ready (.brev w d a) s → ∃ r : DWord,
      (∀ j, j < countBits w → r.getLsbD j = (s.reg a).getLsbD (countBits w - 1 - j)) ∧
      exec (.brev w d a) s = .next (retire (.brev w d a) (s.setReg d (wide w r)))) ∧
    (Ready (.bswap w d a) s → ∃ r : DWord,
      (∀ j, j < countBits w → r.getLsbD j =
        (s.reg a).getLsbD (8 * (countBits w / 8 - 1 - j / 8) + j % 8)) ∧
      exec (.bswap w d a) s = .next (retire (.bswap w d a) (s.setReg d (wide w r))))) ∧
  (∀ (d a : SReg) (b : Operand) (s : State),
    let x := s.reg a
    let y := s.opB b
    let n := y.toNat
    let p := y.toNat % 64
    let l := min (y.toNat / 256 % 128) 64
    (Ready (.sext d a b) s → ∃ r : DWord, (n = 0 → r = 0#64) ∧
      (∀ j, j < 64 → 0 < n → r.getLsbD j = x.getLsbD (min j (min n 64 - 1))) ∧
      exec (.sext d a b) s = .next (retire (.sext d a b) (s.setReg d r))) ∧
    (Ready (.zext d a b) s → ∃ r : DWord, (∀ j, j < 64 → r.getLsbD j = (decide (j < n) && x.getLsbD j)) ∧
      exec (.zext d a b) s = .next (retire (.zext d a b) (s.setReg d r))) ∧
    (Ready (.ext d a b) s → ∃ r : DWord,
      (∀ j, j < 64 → r.getLsbD j = (decide (j < l) && x.getLsbD (p + j))) ∧
      exec (.ext d a b) s = .next (retire (.ext d a b) (s.setReg d r))) ∧
    (Ready (.ins d a b) s → ∃ r : DWord,
      (∀ j, j < 64 → r.getLsbD j = if p ≤ j ∧ j < p + l then x.getLsbD (j - p) else (s.reg d).getLsbD j) ∧
      exec (.ins d a b) s = .next (retire (.ins d a b) (s.setReg d r))))

end

namespace Sys2Proof.Claims
open Sys2Proof Sys2Proof.Machine

/-! ## Floating point -/

/-- What the operation of R168 to R170 gives for a floating-point instruction: the destination, the
bits written and the flags raised, from the operands as the format reads them (R166). -/
def floatResult (s : State) : Instr → Option (SReg × Nat × FpFlags)
  | .fadd r f d a b => some (d, (fpFmt f).add r.toNat (fpBits f (s.reg a)) (fpBits f (s.opB b)))
  | .fsub r f d a b => some (d, (fpFmt f).sub r.toNat (fpBits f (s.reg a)) (fpBits f (s.opB b)))
  | .fmul r f d a b => some (d, (fpFmt f).mul r.toNat (fpBits f (s.reg a)) (fpBits f (s.opB b)))
  | .fdiv r f d a b => some (d, (fpFmt f).div r.toNat (fpBits f (s.reg a)) (fpBits f (s.opB b)))
  | .fsqrt r f d a => some (d, (fpFmt f).sqrt r.toNat (fpBits f (s.reg a)))
  | .fmin f d a b => some (d, (fpFmt f).minmax false (fpBits f (s.reg a)) (fpBits f (s.opB b)))
  | .fmax f d a b => some (d, (fpFmt f).minmax true (fpBits f (s.reg a)) (fpBits f (s.opB b)))
  | .fma r f d a b =>
    some (d, (fpFmt f).fma r.toNat false (fpBits f (s.reg a)) (fpBits f (s.opB b)) (fpBits f (s.reg d)))
  | .fnma r f d a b =>
    some (d, (fpFmt f).fma r.toNat true (fpBits f (s.reg a)) (fpBits f (s.opB b)) (fpBits f (s.reg d)))
  | .feq f d a b => some (d, cmpNum ((fpFmt f).feq (fpBits f (s.reg a)) (fpBits f (s.opB b))))
  | .flt f d a b => some (d, cmpNum ((fpFmt f).flt (fpBits f (s.reg a)) (fpBits f (s.opB b))))
  | .fle f d a b => some (d, cmpNum ((fpFmt f).fle (fpBits f (s.reg a)) (fpBits f (s.opB b))))
  | .fclass f d a => some (d, 2 ^ (fpFmt f).fclass (fpBits f (s.reg a)), 0)
  | .fcvt r k d a => some (d, cvt k.toNat r.toNat (s.reg a))
  | _ => none

/-- The sign bit's place in a format. -/
def signAt (f : Bool) : Nat := if f then 31 else 63

/-- The sign that FSGN gives (R168): of y, its inverse, or the two signs' exclusive or. -/
def signRule : Instr → Option (Bool × SReg × SReg × Operand × (Bool → Bool → Bool))
  | .fsgnJ f d a b => some (f, d, a, b, fun _ y => y)
  | .fsgnJn f d a b => some (f, d, a, b, fun _ y => !y)
  | .fsgnJx f d a b => some (f, d, a, b, fun x y => x != y)
  | _ => none

/-- The state with the flags of an operation added to FPFLAGS (R171). -/
def withFlags (s : State) (fl : FpFlags) : State :=
  s.modMe (fun c => { c with fpflags := c.fpflags ||| BitVec.ofNat 64 fl })

/-- The destination of an instruction that writes one scalar register and nothing else but the flow
of control, and, for floating point, the flags. -/
def regDest (s : State) (i : Instr) : Option SReg :=
  match intResult s i with
  | some (d, _) => some d
  | none =>
  match divResult s i with
  | some (d, y, _) => if y = 0#64 then none else some d
  | none =>
  match floatResult s i with
  | some (d, _) => some d
  | none =>
  match signRule i with
  | some (_, d, _) => some d
  | none =>
  match i with
  | .clz _ d _ => some d
  | .ctz _ d _ => some d
  | .popc _ d _ => some d
  | .brev _ d _ => some d
  | .bswap _ d _ => some d
  | .sext d _ _ => some d
  | .zext d _ _ => some d
  | .ext d _ _ => some d
  | .ins d _ _ => some d
  | _ => none

/-- The branches: their offset, the registers compared, and the relation (R181). -/
def branchRule : Instr → Option (BitVec 11 × SReg × SReg × (DWord → DWord → Bool))
  | .beq off b a => some (off, a, b, fun x y => decide (x = y))
  | .bne off b a => some (off, a, b, fun x y => decide (x ≠ y))
  | .blt off b a => some (off, a, b, fun x y => decide (x.toInt < y.toInt))
  | .bge off b a => some (off, a, b, fun x y => decide (y.toInt ≤ x.toInt))
  | .bltu off b a => some (off, a, b, fun x y => decide (x.toNat < y.toNat))
  | .bgeu off b a => some (off, a, b, fun x y => decide (y.toNat ≤ x.toNat))
  | _ => none

/-- Whether an address lies in the body of a loop level (R183). -/
abbrev Inside (l : LoopLevel) (a : DWord) : Prop := l.start.toNat ≤ a.toNat ∧ a.toNat < l.stop.toNat

/-- The levels after a transfer from `pc` to `target` that leaves bodies (R184): from the innermost on, each
level whose body holds `pc` and not `target` ends, up to the first that does not. -/
def LevelsLeft (pc target : DWord) (old new : List LoopLevel) : Prop :=
  ∃ n, n ≤ old.length ∧ new = old.drop n ∧
    (∀ j l, j < n → old[j]? = some l → Inside l pc ∧ ¬ Inside l target) ∧
    ∀ l, old[n]? = some l → Inside l pc → Inside l target

/-- The value a CSR instruction writes, from the old value and s[a]; `none` for CSRR (R187). -/
def csrRule (s : State) : Instr → Option (BitVec 12 × SReg × (DWord → Option DWord))
  | .csrr c d => some (c, d, fun _ => none)
  | .csrw c a d => some (c, d, fun _ => some (s.reg a))
  | .csrs c a d => some (c, d, fun old => some (old ||| s.reg a))
  | .csrc c a d => some (c, d, fun old => some (old &&& ~~~s.reg a))
  | _ => none

end Sys2Proof.Claims

section
open Sys2Proof Sys2Proof.Machine Sys2Proof.Claims

/-- R168 to R171: a floating-point instruction whose checks pass writes what its operation gives and ORs the
flags it raises into FPFLAGS; no floating-point condition traps. R168: FSGN writes x with its sign bit
replaced by the rule of its variant, every other bit of the format as it was, zeros above an f32, and
raises no flag. -/
def Obligations.FloatResults : Prop :=
  (∀ (i : Instr) (s : State) (d : SReg) (r : Nat × FpFlags), floatResult s i = some (d, r) → Ready i s →
    exec i s = .next (retire i ((withFlags s r.2).setReg d (BitVec.ofNat 64 r.1)))) ∧
  (∀ (i : Instr) (s : State) (f : Bool) (d a : SReg) (b : Operand) (g : Bool → Bool → Bool),
    signRule i = some (f, d, a, b, g) → Ready i s →
    ∃ v : DWord, exec i s = .next (retire i (s.setReg d v)) ∧
      v.getLsbD (signAt f) = g ((s.reg a).getLsbD (signAt f)) ((s.opB b).getLsbD (signAt f)) ∧
      ∀ j, j ≠ signAt f → v.getLsbD j = (decide (j < signAt f) && (s.reg a).getLsbD j))

/-- R193: a value that a format holds, put into that format, is itself in every mode and raises no
flag: every finite value and both infinities of f64, f32, bf16 and f16, subnormals and zeros kept. -/
def Obligations.FormatsKeepTheirValues : Prop :=
  ∀ f ∈ [f64, f32, bf16, f16], ∀ w mode, w < 2 ^ (1 + f.eb + f.mb) → mode < 4 →
    (f.num w).isNan = false → f.put mode (f.num w) = (w, 0)

/-- R158, R171: the frame of the integer, bit and floating-point instructions. With its checks passed
(and a divisor that is not zero), such an instruction completes; nothing outside its context changes; of
its context only the destination register, the flow of control and, for floating point, the flags that
it adds to FPFLAGS; every handle register and every byte of memory is as before. -/
def Obligations.RegisterInstructionFrame : Prop :=
  ∀ (i : Instr) (s : State) (d : SReg), regDest s i = some d → Ready i s →
    ∃ t, exec i s = .next t ∧ OnlyMe s t ∧ SameMemory s t ∧
      (∀ r, r ≠ d → t.reg r = s.reg r) ∧ (∀ r, t.hreg r = s.hreg r) ∧
      ({ t.me with regs := s.me.regs, pc := s.me.pc, loops := s.me.loops, rep := s.me.rep, wait := s.me.wait,
                   fpflags := s.me.fpflags } : Ctx) = s.me ∧
      s.me.fpflags &&& t.me.fpflags = s.me.fpflags ∧
      (floatResult s i = none → t.me.fpflags = s.me.fpflags)

/-- R183, R184 and R21: how an instruction that is no taken transfer goes on, outside a REP. Without a
loop level the pc moves past its words. When the next address is the end of the innermost level, the
level loops back with one iteration less, or, at its last one, is popped and the next level is tested.
When the next address lies beyond the end of a body that holds the instruction, that level is popped. -/
def Obligations.RetiringMovesThePc : Prop :=
  ∀ (i : Instr) (s : State), s.me.rep = none →
    (s.me.loops = [] →
      retire i s = s.modMe (fun c => { c with pc := c.pc + BitVec.ofNat 64 (4 * i.len), wait := none })) ∧
    (∀ l r, s.me.loops = l :: r → s.me.pc + BitVec.ofNat 64 (4 * i.len) = l.stop →
      (l.remaining ≠ 1#64 → retire i s = s.modMe (fun c =>
        { c with pc := l.start, loops := { l with remaining := l.remaining - 1#64 } :: r, wait := none })) ∧
      (l.remaining = 1#64 → (retire i s).me = (retire i (s.modMe (fun c => { c with loops := r }))).me)) ∧
    (∀ l r, s.me.loops = l :: r → s.me.pc + BitVec.ofNat 64 (4 * i.len) ≠ l.stop →
      (l.start.toNat ≤ s.me.pc.toNat ∧ s.me.pc.toNat < l.stop.toNat ∧
          l.stop.toNat < (s.me.pc + BitVec.ofNat 64 (4 * i.len)).toNat →
        (retire i s).me = (retire i (s.modMe (fun c => { c with loops := r }))).me) ∧
      (¬ (l.start.toNat ≤ s.me.pc.toNat ∧ s.me.pc.toNat < l.stop.toNat ∧
          l.stop.toNat < (s.me.pc + BitVec.ofNat 64 (4 * i.len)).toNat) →
        retire i s = s.modMe (fun c => { c with pc := c.pc + BitVec.ofNat 64 (4 * i.len), wait := none })))

/-- R181, R184: a conditional branch. When its condition holds the pc becomes pc + sext(off11) × 4 and
the levels that it leaves end, the innermost first and each by the same test; otherwise it retires. -/
def Obligations.BranchResults : Prop :=
  ∀ (i : Instr) (s : State) (off : BitVec 11) (a b : SReg) (c : DWord → DWord → Bool),
    branchRule i = some (off, a, b, c) → Ready i s →
    (c (s.reg a) (s.reg b) = false → exec i s = .next (retire i s)) ∧
    (c (s.reg a) (s.reg b) = true → ∃ ls, exec i s = .next (s.modMe (fun x =>
        { x with pc := x.pc + off.signExtend 64 * 4#64, loops := ls, wait := none })) ∧
      LevelsLeft s.me.pc (s.me.pc + off.signExtend 64 * 4#64) s.me.loops ls)

/-- R182, R24, R184: JAL writes pc + 4 to s[d] and jumps to pc + sext(off20) × 4; JALR computes s[a] +
sext(imm15) before it writes the link, jumps there, and traps with cause 0x03 and XVAL the target when that is
no multiple of 4, the pc as it was. With a link every loop level stays; with d = s0 no link is written, and
the levels that the jump leaves end, each by the same test. (CALLH and RETH: see CodeHandles.) -/
def Obligations.JumpResults : Prop :=
  (∀ (off : BitVec 20) (d : SReg) (s : State), Ready (.jal off d) s →
    ∃ t, exec (.jal off d) s = .next t ∧ t.me.pc = s.me.pc + off.signExtend 64 * 4#64 ∧
      (d ≠ 0#5 → t.reg d = s.me.pc + 4#64 ∧ t.me.loops = s.me.loops) ∧
      (d = 0#5 → LevelsLeft s.me.pc t.me.pc s.me.loops t.me.loops) ∧
      (∀ r, r ≠ d → t.reg r = s.reg r) ∧ OnlyMe s t ∧ FlowAndRegs s t ∧ SameMemory s t) ∧
  (∀ (imm : BitVec 15) (a d : SReg) (s : State), Ready (.jalr imm a d) s →
    ((s.reg a + imm.signExtend 64).toNat % 4 = 0 →
      ∃ t, exec (.jalr imm a d) s = .next t ∧ t.me.pc = s.reg a + imm.signExtend 64 ∧
        (d ≠ 0#5 → t.reg d = s.me.pc + 4#64 ∧ t.me.loops = s.me.loops) ∧
        (d = 0#5 → LevelsLeft s.me.pc t.me.pc s.me.loops t.me.loops) ∧
        (∀ r, r ≠ d → t.reg r = s.reg r) ∧ OnlyMe s t ∧ FlowAndRegs s t ∧ SameMemory s t) ∧
    ((s.reg a + imm.signExtend 64).toNat % 4 ≠ 0 →
      exec (.jalr imm a d) s = .next (takeTrap s s.cur 1 0x03 (s.reg a + imm.signExtend 64))))

/-- R183: LOOP. A count of 0 skips the body as sequential flow; otherwise, with fewer than two levels
and a body inside the enclosing one, a level is pushed and the pc goes to its start; with two levels, or
a body that ends after the enclosing one that holds the LOOP, it traps as illegal. -/
def Obligations.LoopInstruction : Prop :=
  ∀ (imm : BitVec 15) (a : SReg) (s : State), Ready (.loop imm a) s →
    let start := s.me.pc + 4#64
    let stop := start + BitVec.ofNat 64 (4 * imm.toNat)
    let nested := ∃ l, s.me.loops = [l] ∧ l.start.toNat ≤ s.me.pc.toNat ∧ s.me.pc.toNat < l.stop.toNat ∧
      l.stop.toNat < stop.toNat
    (s.reg a = 0#64 → s.me.loops = [] →
      exec (.loop imm a) s = .next (s.modMe (fun c => { c with pc := stop, wait := none }))) ∧
    (s.reg a ≠ 0#64 → s.me.loops.length < 2 → ¬ nested →
      exec (.loop imm a) s = .next (s.modMe (fun c =>
        { c with loops := { start := start, stop := stop, remaining := s.reg a } :: c.loops, pc := start }))) ∧
    (s.reg a ≠ 0#64 → 2 ≤ s.me.loops.length ∨ nested → exec (.loop imm a) s = illegal (.loop imm a) s)

/-- R185, R230: REP. With a count that is not 0, a scalar stride that needs no register above the
accessible count, the repetition buffer free and every word of the block fetched, the buffer holds the
n instructions after the REP, at iteration 0 of c, and the pc goes to the first. Inside a REP, an
instruction of the block hands on to the next one; the last one of an iteration to the first, with the
next iteration, as long as one is left. -/
def Obligations.RepInstruction : Prop :=
  (∀ (ss hs : BitVec 4) (c : SReg) (n : BitVec 5) (s s' : State) (ws : List (List Word)),
    Ready (.rep ss hs c n) s → ss.toNat % 8 = 0 ∨ 24 ≤ s.me.acc → s.reg c ≠ 0#64 →
    s.mine.repHolder = none ∨ s.mine.repHolder = some s.cur →
    fetchBlock s s.cur n.toNat (s.me.pc + 4#64).toNat = (.ok ws, s') →
    ∃ t, exec (.rep ss hs c n) s = .next t ∧ t.me.pc = s.me.pc + 4#64 ∧
      t.me.rep = some { block := s.me.pc + 4#64, words := ws, idx := 0, iter := 0, count := (s.reg c).toNat,
                        hs := hs.toNat, ss := ss.toNat } ∧
      t.mine.repHolder = some s.cur) ∧
  (∀ (i : Instr) (s : State) (r : RepState), s.me.rep = some r →
    (r.idx + 1 < r.words.length → retire i s = s.modMe (fun c =>
      { c with pc := c.pc + BitVec.ofNat 64 (4 * i.len), rep := some { r with idx := r.idx + 1 }, wait := none })) ∧
    (r.words.length ≤ r.idx + 1 → r.iter + 1 < r.count → retire i s = s.modMe (fun c =>
      { c with pc := r.block, rep := some { r with idx := 0, iter := r.iter + 1 }, wait := none })) ∧
    (r.words.length ≤ r.idx + 1 → r.count ≤ r.iter + 1 → (retire i s).me.rep = none))

/-- R335: taking a trap, when XVEC is usable and the handler's first instruction can be fetched: XCAUSE, XVAL,
XPC and ILEN name the trap, loop levels and REP are set aside with SAV telling whether there were any, IT
is 1, the pc is XVEC, and no register changes. R189: TRAP raises cause 0x0D with XVAL = imm15, BRK cause
0x0C. -/
def Obligations.TrapEntry : Prop :=
  (∀ (s s' : State) (k len cause : Nat) (val : DWord) (ws : List Word),
    1 ≤ len → len ≤ 3 → cause < 256 → (s.ctx k).it = false → (s.ctx k).xvec ≠ 0#64 →
    (s.ctx k).xvec.toNat % 4 = 0 → fetchInstr s k (s.ctx k).xvec.toNat = (.ok ws, s') →
    let c := s.ctx k
    let t := (takeTrap s k len cause val).ctx k
    t.xcause = BitVec.ofNat 64 cause ∧ t.xval = val ∧ t.xpc = c.pc ∧ t.pc = c.xvec ∧
    (t.xstatus.toNat / 2 ^ 14 = len ∧ t.it = true ∧ (t.sav = true ↔ c.loops ≠ [] ∨ c.rep ≠ none)) ∧
    t.savedLoops = c.loops ∧ t.savedRep = c.rep ∧ t.loops = [] ∧ t.rep = none ∧
    t.regs = c.regs ∧ t.hregs = c.hregs ∧ t.xvec = c.xvec ∧ t.xscratch = c.xscratch ∧ t.sbuf = c.sbuf) ∧
  (∀ (imm : BitVec 15) (s : State),
    (Ready (.trap imm) s → exec (.trap imm) s = .next (takeTrap s s.cur 1 0x0D (imm.setWidth 64))) ∧
    (Ready (.brk imm) s → exec (.brk imm) s = .next (takeTrap s s.cur 1 0x0C (imm.setWidth 64))))

/-- R336, R340: a trap while IT = 1, or with XVEC 0 or no multiple of 4, freezes the context; no trap
CSR, loop level or register changes. Where both grounds hold, IT = 1 names the causes (DEDUCED, log 26). -/
def Obligations.TrapFreezes : Prop :=
  ∀ (s : State) (k len cause : Nat) (val : DWord),
    (s.ctx k).it = true ∨ (s.ctx k).xvec = 0#64 ∨ (s.ctx k).xvec.toNat % 4 ≠ 0 →
    let c := s.ctx k
    let t := (takeTrap s k len cause val).ctx k
    t = { c with mode := .frozen, frec := t.frec, wait := none, trapping := none } ∧ t.frec.length = 56 ∧
    leNat (t.frec.take 2) = coreOf k % 65536 ∧
    (c.it = true → (t.frec.drop 4).take 2 = leBytes 2 (c.xcause.toNat % 65536) ∧
      (t.frec.drop 6).take 2 = leBytes 2 cause ∧ (t.frec.drop 48).take 8 = leBytes 8 c.pc.toNat) ∧
    (c.it = false → (t.frec.drop 4).take 2 = leBytes 2 cause ∧ (t.frec.drop 6).take 2 = leBytes 2 0 ∧
      (t.frec.drop 16).take 8 = leBytes 8 c.pc.toNat)

/-- R190, R337: ERET with IT = 1 and no REP set aside: IT becomes 0, the pc XPC, and with SAV = 1 the loop
levels are as they were set aside; with SAV = 0 the handler's own stay (DEDUCED, log 29); with IT = 0 it is an
illegal instruction. R186, R337: ERET with a REP set aside goes on as XPC says. At the first word of the block's
instruction j it resumes there, in the recorded iteration, and at the address after the block it ends that
iteration: the next one begins, if one is left, and else the REP is over. A return after which the REP goes on,
at either address, waits while another context holds the repetition buffer. At an address that is none of the
block's and not the one after it, the repetition is abandoned. -/
def Obligations.ReturnFromTrap : Prop :=
  (∀ s : State, Ready .eret s →
    (s.me.it = true → s.me.sav = false ∨ s.me.savedRep = none →
      ∃ t, exec .eret s = .next t ∧ t.me.it = false ∧ t.me.pc = s.me.xpc ∧
        t.me.xstatus = s.me.xstatus &&& ~~~1#64 ∧
        t.me.loops = (if s.me.sav then s.me.savedLoops else s.me.loops) ∧
        (∀ r, t.reg r = s.reg r) ∧ (∀ r, t.hreg r = s.hreg r) ∧ OnlyMe s t ∧ SameMemory s t) ∧
    (s.me.it = false → exec .eret s = illegal .eret s)) ∧
  (∀ (s : State) (r : RepState), Ready .eret s → s.me.it = true → s.me.sav = true → s.me.savedRep = some r →
    let at_ := fun j => r.block + BitVec.ofNat 64 (4 * ((r.words.take j).map List.length).sum)
    let free := s.mine.repHolder = none ∨ s.mine.repHolder = some s.cur
    (∀ j, j < r.words.length → s.me.xpc = at_ j → (∀ k, k < j → at_ k ≠ at_ j) →
      (free → ∃ t, exec .eret s = .next t ∧ t.me.pc = s.me.xpc ∧ t.me.rep = some { r with idx := j } ∧
        t.me.loops = s.me.savedLoops ∧ t.mine.repHolder = some s.cur) ∧
      (¬ free → exec .eret s = .next s)) ∧
    (s.me.xpc = at_ r.words.length → (∀ k, k < r.words.length → at_ k ≠ at_ r.words.length) →
      r.iter + 1 < r.count →
      (free → ∃ t, exec .eret s = .next t ∧ t.me.pc = r.block ∧
        t.me.rep = some { r with idx := 0, iter := r.iter + 1 } ∧ t.me.loops = s.me.savedLoops ∧
        t.mine.repHolder = some s.cur) ∧
      (¬ free → exec .eret s = .next s)) ∧
    (s.me.xpc = at_ r.words.length → (∀ k, k < r.words.length → at_ k ≠ at_ r.words.length) →
      r.count ≤ r.iter + 1 → s.me.savedLoops = [] →
      ∃ t, exec .eret s = .next t ∧ t.me.pc = s.me.xpc ∧ t.me.rep = none ∧ t.me.loops = []) ∧
    ((∀ j, j ≤ r.words.length → s.me.xpc ≠ at_ j) →
      ∃ t, exec .eret s = .next t ∧ t.me.pc = s.me.xpc ∧ t.me.rep = none ∧ t.me.loops = s.me.savedLoops))

/-- R187: a CSR instruction writes the old value to s[d], and a write changes the CSR's writable fields to
those of the new value and no other field. R45, R376: outside TEST, an access to DBGCTL or a trace CSR
while the latchkey has not opened its feature raises the privilege trap (0x11) with XVAL the CSR number. -/
def Obligations.CsrInstructions : Prop :=
  (∀ (i : Instr) (s : State) (c : BitVec 12) (d : SReg) (f : DWord → Option DWord),
    csrRule s i = some (c, d, f) → i.wf = true → Ready i s →
    (csrFeature c.toNat).all (featureOpen s) = true →
    ∃ t, exec i s = .next t ∧ (d ≠ 0#5 → t.reg d = csrRead s s.cur c.toNat) ∧
      (∀ r, r ≠ d → t.reg r = s.reg r) ∧ (∀ r, t.hreg r = s.hreg r) ∧ SameMemory s t ∧
      (∀ v, f (csrRead s s.cur c.toNat) = some v → c.toNat ≠ 0x400 →
        csrRead t s.cur c.toNat =
          (csrRead s s.cur c.toNat &&& ~~~csrMask c.toNat) ||| (v &&& csrMask c.toNat)) ∧
      (f (csrRead s s.cur c.toNat) = none → csrRead t s.cur c.toNat = csrRead s s.cur c.toNat) ∧
      (∀ n, n ≠ c.toNat → csrRead t s.cur n = csrRead s s.cur n)) ∧
  (∀ (i : Instr) (s : State) (c : BitVec 12) (d : SReg) (f : DWord → Option DWord),
    csrRule s i = some (c, d, f) → Ready i s → 0x400 ≤ c.toNat → c.toNat ≤ 0x403 →
    s.fuses.life ≠ .test → s.features.getLsbD (if c.toNat = 0x400 then 1 else 0) = false →
    exec i s = .next (takeTrap s s.cur 1 0x11 (c.setWidth 64)))

end

namespace Sys2Proof.Claims
open Sys2Proof Sys2Proof.Machine

/-! ## Memory instructions -/

/-- The plain loads: whether they acquire, their size code, destination and address (R172, R173). -/
def loadRule (s : State) : Instr → Option (Bool × BitVec 3 × SReg × DWord)
  | .ld o z h b a t => some (o, z, t, s.reg a + s.reg b <<< h.toNat)
  | .ldi off z o a t => some (o, z, t, s.reg a + off.signExtend 64 * BitVec.ofNat 64 (2 ^ (z.toNat % 4)))
  | _ => none

/-- The stores that enter the store buffer: whether they release and whether they set the full-empty bit,
the size, the register stored and the address (R107, R172, R173). -/
def storeRule (s : State) : Instr → Option (Bool × Bool × Nat × SReg × DWord)
  | .st o z h b a t => some (o, false, 2 ^ z.toNat, t, s.reg a + s.reg b <<< h.toNat)
  | .sti off z o a t =>
    some (o, false, 2 ^ z.toNat, t, s.reg a + off.signExtend 64 * BitVec.ofNat 64 (2 ^ z.toNat))
  | .stFes o z h b a t => some (o, true, 2 ^ z.toNat, t, s.reg a + s.reg b <<< h.toNat)
  | _ => none

/-- The checks of a store: those of R72, and for a qualified one those of R108. -/
def storePlace (s : State) (full : Bool) (va : DWord) (n : Nat) : Except Nat (Nat × Option Chk) × State :=
  if full then fePlace s s.cur .store va n
  else
    match scalarPlace s s.cur .store va n n with
    | (.error c, s) => (.error c, s)
    | (.ok (.home h chk), s) => (.ok (h, chk), s)
    | (.ok (.pcie h _), s) => (.ok (h, none), s)
    | (.ok _, s) => (.error 0x04, s)

/-- A loaded value by size code (R32): codes 0 to 2 extend the sign, 3 is all eight bytes, 4 to 6 extend
with zeros. -/
def loaded (z : BitVec 3) (bs : List Byte) : DWord :=
  if z = 0#3 then (BitVec.ofNat 8 (leNat bs)).signExtend 64
  else if z = 1#3 then (BitVec.ofNat 16 (leNat bs)).signExtend 64
  else if z = 2#3 then (BitVec.ofNat 32 (leNat bs)).signExtend 64
  else BitVec.ofNat 64 (leNat bs)

/-- The atomic operations of R178: scope, ord, W, the registers, and f of the old value and s[b] in n bits. -/
def amoRule : Instr → Option (BitVec 3 × BitVec 2 × Bool × SReg × SReg × SReg ×
    ((n : Nat) → BitVec n → BitVec n → BitVec n))
  | .amoAdd c o w b a d => some (c, o, w, b, a, d, fun _ x y => x + y)
  | .amoAnd c o w b a d => some (c, o, w, b, a, d, fun _ x y => x &&& y)
  | .amoOr c o w b a d => some (c, o, w, b, a, d, fun _ x y => x ||| y)
  | .amoXor c o w b a d => some (c, o, w, b, a, d, fun _ x y => x ^^^ y)
  | .amoMin c o w b a d => some (c, o, w, b, a, d, fun _ x y => if x.toInt ≤ y.toInt then x else y)
  | .amoMax c o w b a d => some (c, o, w, b, a, d, fun _ x y => if x.toInt ≤ y.toInt then y else x)
  | .amoMinu c o w b a d => some (c, o, w, b, a, d, fun _ x y => if x.toNat ≤ y.toNat then x else y)
  | .amoMaxu c o w b a d => some (c, o, w, b, a, d, fun _ x y => if x.toNat ≤ y.toNat then y else x)
  | .amoSwap c o w b a d => some (c, o, w, b, a, d, fun _ _ y => y)
  | _ => none

/-- An address that cannot be used: the trap of its cause with XVAL the address; for an uncorrectable error
(code 0x48, R75) a job-fatal launch; while a walk or a line read is outstanding (code 0, R64, R96) the
instruction waits. -/
def failed (s : State) (len c : Nat) (va : DWord) : Host.Outcome State Fault Refusal :=
  .next (if c = 0 then s else if c = 0x48 then poisonLaunch s s.myCore else takeTrap s s.cur len c va)

/-- A wait of an instruction that an answer has reached. -/
def arrived (i : Instr) (w : WaitFor) : WaitRec := { what := w, since := 0, limit := 0, arrival := 0, instr := i }

/-- The old value in s[d], sign-extended from its n bytes (R178). -/
def oldValue (w : Bool) (old : Nat) : DWord :=
  if w then (BitVec.ofNat 32 old).signExtend 64 else BitVec.ofNat 64 old

/-- The state in which an atomic access acts at its home: the store buffer empty, the die's entries for
that home performed (R266). -/
def atHome (s : State) (h : Nat) : State := performQueue (drainAll s s.cur) s.myDie (homeDie h)

/-- With a release at module or system scope, everything older of the die performed as well (R267). -/
def released (o : BitVec 2) (scope : BitVec 3) (s : State) : State :=
  if o.getLsbD 1 && decide (4 ≤ scope.toNat) then releaseModule s s.cur else s

/-- With an acquire, its effect at the instruction's scope (R267). -/
def acquired (o : BitVec 2) (scope : BitVec 3) (s : State) : State :=
  if o.getLsbD 0 then acquire s s.myDie scope.toNat else s

/-- The field that HADV moves (R94), -/
def advField (w : BitVec 2) (h : HWord) : Int :=
  if w = 0#2 then hOrow h else if w = 1#2 then hOcol h else hBase h

/-- the bits it takes, -/
def advBits (w : BitVec 2) : Nat × Nat := if w = 0#2 then (128, 160) else if w = 1#2 then (160, 192) else (0, 56)

/-- the types it serves, -/
abbrev advType (w : BitVec 2) (t : Nat) : Prop :=
  if w = 2#2 then t = 1 ∨ t = 3 ∨ t = 4 ∨ t = 5 ∨ t = 6 else t = 1 ∨ t = 3

/-- and the values it may take. -/
abbrev advFits (w : BitVec 2) (h : HWord) (n : Int) : Prop :=
  0 ≤ n ∧ n < 2 ^ ((advBits w).2 - (advBits w).1) ∧ (w = 1#2 → hType h = 3 → n % 32 = 0) ∧
    (w = 2#2 → hType h = 6 → n / 2 ^ 32 = (hBase h : Int) / 2 ^ 32)

/-- The context that issues keeps everything but the flow of control and its store buffer and the old
bytes its fetch still sees (R176). -/
def KeepsContext (s t : State) : Prop :=
  ({ t.me with pc := s.me.pc, loops := s.me.loops, rep := s.me.rep, wait := s.me.wait, sbuf := s.me.sbuf,
               fetchOld := s.me.fetchOld } : Ctx) = s.me

end Sys2Proof.Claims

section
open Sys2Proof Sys2Proof.Machine Sys2Proof.Claims

/-- R72: the order of the checks of a scalar address. Bits [63:56] come first (access fault), then the
alignment (misaligned), then the compute phase (phase violation): the first that fails decides, with no
effect on anything. R54, R72: where an aligned scalar access of n bytes in the window area goes. The
private TCM window denotes the issuing core's TCM up to 128 KiB, the own SPM window its cluster's SPM up
to 2 MiB; the bytes beyond are access faults; the far windows are access faults for a core. -/
def Obligations.AddressChecks : Prop :=
  (∀ (s : State) (a : Access) (va : DWord) (n : Nat), 0 < n →
    (va.toNat / 2 ^ 56 ≠ 0 → scalarPlace s s.cur a va n n = (.error 0x04, s)) ∧
    (va.toNat / 2 ^ 56 = 0 → va.toNat % n ≠ 0 → scalarPlace s s.cur a va n n = (.error 0x03, s)) ∧
    (va.toNat / 2 ^ 56 = 0 → va.toNat % n = 0 → s.mine.ph = 1#2 → va.toNat / 2 ^ 32 ≠ 0xFFF000 →
      va.toNat / 2 ^ 32 ≠ 0xFFF100 → scalarPlace s s.cur a va n n = (.error 0x06, s))) ∧
  (∀ (s : State) (a : Access) (off n : Nat), 0 < n → off < 2 ^ 32 → off % n = 0 → n ∣ 2 ^ 32 →
    (scalarPlace s s.cur a (BitVec.ofNat 64 (0xFFF00000000000 + off)) n n =
      if off + n ≤ 131072 then (.ok (.home (tcmHome s.myCore off) none), s) else (.error 0x04, s)) ∧
    (scalarPlace s s.cur a (BitVec.ofNat 64 (0xFFF10000000000 + off)) n n =
      if off + n ≤ 2097152 then (.ok (.home (spmHome (s.myCore / 8) off) none), s) else (.error 0x04, s)) ∧
    (∀ w, w < 256 → (s.mine.ph ≠ 1#2) →
      scalarPlace s s.cur a (BitVec.ofNat 64 (0xFFA00000000000 + w * 2 ^ 32 + off)) n n = (.error 0x04, s)))

/-- R172 to R175, R263: LD and LDI. At a home that is not poisoned the load takes its bytes as R263 says,
writes them with the extension of R32 to s[t], acquires with ord = 01, and retires; through a sluice window
the bytes are the window's, once all the loads of its line have been made (R96); a read of a host or peer page
sends the request behind the context's older stores and waits (R69), and the bytes that come end it; an access
that fails the checks of R72 traps with XVAL the address; a poisoned unit is job-fatal and no trap (R75); a
miss in the TLBs waits for its walk (R64). -/
def Obligations.LoadResults : Prop :=
  ∀ (i : Instr) (s s1 : State) (o : Bool) (z : BitVec 3) (t : SReg) (va : DWord),
    loadRule s i = some (o, z, t, va) → Ready i s → s.me.wait = none →
    let n := 2 ^ (z.toNat % 4)
    (∀ h chk, scalarPlace s s.cur .load va n n = (.ok (.home h chk), s1) → poisoned s1 h n = false →
      let r := loadHome s1 s1.cur h n
      exec i s = .next (retire i ((if o then refreshAll r.2 r.2.myDie else r.2).setReg t (loaded z r.1)))) ∧
    (∀ d w off s2, scalarPlace s s.cur .load va n n = (.ok (.sluice d w off), s1) →
      (∀ bs, sluiceRead s1 (.core s1.myCore) (.ctx s.cur) s1.mine.pasid d w off n = (.ok bs, s2) → bs.length = n →
        exec i s = .next (retire i ((if o then refreshAll s2 s2.myDie else s2).setReg t (loaded z bs)))) ∧
      ∀ x, sluiceRead s1 (.core s1.myCore) (.ctx s.cur) s1.mine.pasid d w off n = (.error x, s2) →
        exec i s = failed s2 1 x.trapCause va) ∧
    (∀ h p, scalarPlace s s.cur .load va n n = (.ok (.pcie h p), s1) →
      (∃ u q, exec i s = .next u ∧ u.pcieReads = s1.pcieReads ++ [q] ∧ q.owner = .ctx s.cur ∧ q.addr = h ∧
        q.size = n ∧ q.pasid = s.mine.pasid ∧ u.me.sbuf = [] ∧ KeepsContext s u) ∧
      ∀ id bs, bs.length = n →
        let waiting := s.modMe (fun c => { c with wait := some (arrived i (.pcie id bs false)) })
        scalarPlace waiting waiting.cur .load va n n = (.ok (.pcie h p), waiting) →
        exec i waiting = .next (retire i
          ((if o then refreshAll waiting waiting.myDie else waiting).setReg t (loaded z bs)))) ∧
    (∀ h chk, scalarPlace s s.cur .load va n n = (.ok (.home h chk), s1) → poisoned s1 h n = true →
      exec i s = .next (poisonLaunch s1 s1.myCore)) ∧
    (∀ c, scalarPlace s s.cur .load va n n = (.error c, s1) → exec i s = failed s1 1 c va)

/-- R172 to R175, R107, R262: ST, STI and ST_FES. When the checks give a home, the store enters the store
buffer as its youngest entry, with the low bytes of s[t] (a full buffer of 16 lets its oldest entry leave
first) and the context keeps everything else; while the buffer has room, memory reads as before. A failed
check traps with XVAL the address. R262, R263: a context sees its own store. After a store of n bytes to
the core's own TCM, a plain load of the same size from there by the same context gives those bytes,
whatever the buffer held before. -/
def Obligations.StoreResults : Prop :=
  (∀ (i : Instr) (s s1 : State) (o full : Bool) (n : Nat) (t : SReg) (va : DWord),
    storeRule s i = some (o, full, n, t, va) → Ready i s → s.me.sbuf.length ≤ 16 →
    (∀ h chk, storePlace s full va n = (.ok (h, chk), s1) →
      ∃ u e, exec i s = .next u ∧ e.home = h ∧ e.bytes = leBytes n (s.reg t).toNat ∧ e.full = full ∧
        e.rel = o ∧ e.chk = chk ∧ KeepsContext s u ∧
        u.me.sbuf = (if s.me.sbuf.length < 16 then s.me.sbuf else s.me.sbuf.tail) ++ [e] ∧
        (s.me.sbuf.length < 16 → SameMemory s u)) ∧
    (∀ c, storePlace s full va n = (.error c, s1) → exec i s = failed s1 1 c va)) ∧
  (∀ (s s1 s2 : State) (off : BitVec 10) (z : BitVec 2) (a t u : SReg), u ≠ 0#5 →
    Ready (.sti off z false a t) s → s.me.sbuf.length ≤ 16 →
    exec (.sti off z false a t) s = .next s1 → Ready (.ldi off (0#1 ++ z) false a u) s1 →
    (∃ k, s.reg a + off.signExtend 64 * BitVec.ofNat 64 (2 ^ z.toNat) = BitVec.ofNat 64 (0xFFF00000000000 + k) ∧
      k + 2 ^ z.toNat ≤ 131072 ∧ k % 2 ^ z.toNat = 0 ∧
      poisoned s1 (tcmHome s.myCore k) (2 ^ z.toNat) = false) →
    exec (.ldi off (0#1 ++ z) false a u) s1 = .next s2 →
    s2.reg u = loaded (0#1 ++ z) (leBytes (2 ^ z.toNat) (s.reg t).toNat))

/-- R107, R108: LD_FE and LD_FEC. Once the store buffer and the die's older entries for the home are
performed, an access whose granule is full and behind no earlier wait takes its bytes at the home, .fec
clears the bit, and it retires; otherwise, with the wrong bit or behind an earlier wait, it begins to wait under
FEWAIT or goes on waiting, and a wait that has lasted longer traps with cause 0x08 (R109). R107, R108: ST_FEE. Once the older stores
are performed (with ord a release first), an access whose granule is empty and behind no earlier wait
writes its bytes at the home and sets the bit in one action, and retires: the bytes read back, every other
byte of memory is as it was, and the bit is set; otherwise it waits in the same way. -/
def Obligations.FullEmptyAccesses : Prop :=
  (∀ (o clear : Bool) (z : BitVec 3) (h : BitVec 2) (b a t : SReg) (s s1 : State) (home : Nat) (chk : Option Chk),
    let i : Instr := if clear then .ldFec o z h b a t else .ldFe o z h b a t
    let n := 2 ^ (z.toNat % 4)
    Ready i s → fePlace s s.cur .load (s.reg a + s.reg b <<< h.toNat) n = (.ok (home, chk), s1) →
    let u := atHome s1 home
    (waitOver u = true → exec i s = .next (takeTrap u u.cur 1 0x08 (s.reg a + s.reg b <<< h.toNat))) ∧
    (waitOver u = false → chkOk u u.mine.pasid chk = true → u.isFull home = true →
      feBehind u (home / 16) false = false → poisoned u home n = false →
      let v := loaded z (memRead home n u.mem)
      let u' := if clear then u.setFull (home / 16) false else u
      exec i s = .next (retire i ((if o then refreshAll u' u'.myDie else u').setReg t v))) ∧
    (waitOver u = false → chkOk u u.mine.pasid chk = true →
      u.isFull home = false ∨ feBehind u (home / 16) false = true →
      (s.me.wait = none → exec i s = .next (waitFor i (.granule home) (s.me.fewait.toNat % 2 ^ 32) u)) ∧
      (s.me.wait ≠ none → exec i s = .next u))) ∧
  (∀ (o : Bool) (z h : BitVec 2) (b a t : SReg) (s s1 : State) (home : Nat) (chk : Option Chk),
    let i : Instr := .stFee o z h b a t
    let n := 2 ^ z.toNat
    Ready i s → fePlace s s.cur .store (s.reg a + s.reg b <<< h.toNat) n = (.ok (home, chk), s1) →
    let u := if o then releaseModule s1 s1.cur else atHome s1 home
    (waitOver u = true → exec i s = .next (takeTrap u u.cur 1 0x08 (s.reg a + s.reg b <<< h.toNat))) ∧
    (waitOver u = false → memWf u.mem = true → chkOk u u.mine.pasid chk = true → isHome home = true →
    (u.isFull home = false → feBehind u (home / 16) true = false →
      ∃ v, exec i s = .next v ∧ memRead home n v.mem = leBytes n (s.reg t).toNat ∧
        (∀ x, x < home ∨ home + n ≤ x → memGet x v.mem = memGet x u.mem) ∧ v.isFull home = true ∧
        (∀ r, v.reg r = s.reg r)) ∧
    (u.isFull home = true ∨ feBehind u (home / 16) true = true →
      (s.me.wait = none → exec i s = .next (waitFor i (.granule home) (s.me.fewait.toNat % 2 ^ 32) u)) ∧
      (s.me.wait ≠ none → exec i s = .next u))))

/-- R178, R179, R266, R267: an AMO. At a home on the core's own die, after the older stores of the context
(and, for a module-scope release, of the die) have left, the n bytes become f(old, s[b]); the old value goes
sign-extended to s[d], then the acquire takes its effect; every other byte of memory is as before. An AMO
whose home is on another die enters Q(D→E) behind the older stores, as its youngest entry, and the context
waits; the entry acts when it is performed, and the answer ends the instruction in the same way. -/
def Obligations.AtomicResults : Prop :=
  ∀ (i : Instr) (scope : BitVec 3) (o : BitVec 2) (w : Bool) (b a d : SReg)
    (f : (n : Nat) → BitVec n → BitVec n → BitVec n), amoRule i = some (scope, o, w, b, a, d, f) →
    let n := if w then 4 else 8
    let stored := fun (old : Nat) (y : DWord) => leBytes n
      (if w then (f 32 (BitVec.ofNat 32 old) (y.setWidth 32)).toNat else (f 64 (BitVec.ofNat 64 old) y).toNat)
    (∀ (s s1 : State) (home : Nat) (chk : Option Chk), Ready i s → s.me.wait = none →
      scalarPlace s s.cur .amo (s.reg a) n n = (.ok (.home home chk), s1) →
      let u := drainAll s1 s1.cur
      let u' := released o scope u
      let old := leNat (memRead home n u'.mem)
      (homeDie home = s.myDie → chkOk u u.mine.pasid chk = true → poisoned u home n = false →
        memWf u'.mem = true → chkOk u' u'.mine.pasid chk = true → isHome home = true →
        ∃ v, exec i s = .next (retire i ((acquired o scope v).setReg d (oldValue w old))) ∧
          memRead home n v.mem = stored old (s.reg b) ∧
          (∀ x, x < home ∨ home + n ≤ x → memGet x v.mem = memGet x u'.mem) ∧
          (∀ r, v.reg r = s.reg r) ∧ (∀ r, v.hreg r = s.hreg r)) ∧
      (homeDie home ≠ s.myDie →
        ∃ v e, exec i s = .next v ∧ v.outq = u'.outq ++ [e] ∧ e.src = s.myDie ∧ e.dst = homeDie home ∧
          e.home = home ∧ e.amo = some (.scalar s.cur i (s.reg b) (s.reg d) false) ∧ v.mem = u'.mem ∧
          v.me.wait.map WaitRec.what = some (.atomic none) ∧ KeepsContext s v)) ∧
    (∀ (s : State) (e : QEntry) (k : Nat) (y c : DWord) (rel : Bool) (r : WaitRec),
      e.amo = some (.scalar k i y c rel) → chkOk s e.pasid e.chk = true → poisoned s e.home n = false →
      memWf s.mem = true → isHome e.home = true → (s.ctx k).wait = some r → r.what = .atomic none →
      let old := leNat (memRead e.home n s.mem)
      let t := performEntry s e
      memRead e.home n t.mem = stored old y ∧
        (∀ x, x < e.home ∨ e.home + n ≤ x → memGet x t.mem = memGet x s.mem) ∧
        (t.ctx k).wait = some { r with what := .atomic (some (some old)) }) ∧
    (∀ (s : State) (r : WaitRec) (old : Nat), Ready i s → s.me.wait = some r →
      r.what = .atomic (some (some old)) →
      exec i s = .next (retire i ((acquired o scope s).setReg d (oldValue w old))))

/-- R178, R180, R267: CAS, at a home on the core's own die. When the n bytes equal s[d], s[b] is stored as an
AMO stores, after the release; otherwise nothing is stored and there is no release; either way the old value
goes sign-extended to s[d], and the acquire takes its effect. At a home on another die it acts when its entry
of Q(D→E) is performed: what is stored, and the answer, are the same. If it is a release and about to store,
the older entries of its die's other queues are performed before it there; if it stores nothing, no other
entry is (DEDUCED from R180 and R267, log 26). -/
def Obligations.CompareAndSwap : Prop :=
  ∀ (scope : BitVec 3) (o : BitVec 2) (w : Bool) (b a d : SReg),
    let i : Instr := .cas scope o w b a d
    let n := if w then 4 else 8
    let low := fun x : DWord => if w then x.toNat % 2 ^ 32 else x.toNat
    (∀ (s s1 : State) (home : Nat) (chk : Option Chk), Ready i s → s.me.wait = none →
      scalarPlace s s.cur .amo (s.reg a) n n = (.ok (.home home chk), s1) →
      let u := drainAll s1 s1.cur
      let old := leNat (memRead home n u.mem)
      let u' := released o scope u
      (homeDie home = s.myDie → chkOk u u.mine.pasid chk = true → poisoned u home n = false →
        (old ≠ low (s.reg d) → ∃ v, SameMemory u v ∧ v.outq = u.outq ∧ (∀ r, v.reg r = s.reg r) ∧
          exec i s = .next (retire i ((acquired o scope v).setReg d (oldValue w old)))) ∧
        (old = low (s.reg d) → leNat (memRead home n u'.mem) = low (s.reg d) → memWf u'.mem = true →
          chkOk u' u'.mine.pasid chk = true → isHome home = true →
          ∃ v, exec i s = .next (retire i ((acquired o scope v).setReg d (oldValue w old))) ∧
            memRead home n v.mem = leBytes n (low (s.reg b)) ∧
            (∀ x, x < home ∨ home + n ≤ x → memGet x v.mem = memGet x u'.mem) ∧ (∀ r, v.reg r = s.reg r))) ∧
      (homeDie home ≠ s.myDie → ∃ v e, exec i s = .next v ∧ v.outq = u.outq ++ [e] ∧ v.mem = u.mem ∧ e.home = home ∧
        e.src = s.myDie ∧ e.dst = homeDie home ∧
        e.amo = some (.scalar s.cur i (s.reg b) (s.reg d) (o.getLsbD 1 && decide (4 ≤ scope.toNat))) ∧
        v.me.wait.map WaitRec.what = some (.atomic none))) ∧
    (∀ (s : State) (e : QEntry) (q r : List QEntry) (k : Nat) (y c : DWord) (rel : Bool),
      s.outq = q ++ e :: r → (∀ x ∈ q, ¬ (x.src = e.src ∧ x.dst = e.dst)) → (∀ x ∈ s.outq, x.joined = false) →
      e.amo = some (.scalar k i y c rel) → chkOk s e.pasid e.chk = true → poisoned s e.home n = false →
      let old := leNat (memRead e.home n s.mem)
      ∃ t, exec (.perform e.src e.dst) s = .next t ∧
        (rel = true → old = low c → ∀ x ∈ t.outq, x.src = e.src → x ∈ r) ∧
        (rel = false ∨ old ≠ low c → t.outq = q ++ r) ∧ (old ≠ low c → t.mem = s.mem)) ∧
    (∀ (s : State) (e : QEntry) (k : Nat) (y c : DWord) (rel : Bool) (r : WaitRec),
      e.amo = some (.scalar k i y c rel) → chkOk s e.pasid e.chk = true → poisoned s e.home n = false →
      memWf s.mem = true → isHome e.home = true → (s.ctx k).wait = some r → r.what = .atomic none →
      let old := leNat (memRead e.home n s.mem)
      let t := performEntry s e
      memRead e.home n t.mem = (if old = low c then leBytes n (low y) else memRead e.home n s.mem) ∧
        (∀ x, x < e.home ∨ e.home + n ≤ x → memGet x t.mem = memGet x s.mem) ∧
        (t.ctx k).wait = some { r with what := .atomic (some (some old)) }) ∧
    (∀ (s : State) (r : WaitRec) (old : Nat), Ready i s → s.me.wait = some r →
      r.what = .atomic (some (some old)) →
      exec i s = .next (retire i ((acquired o scope s).setReg d (oldValue w old))))

/-- R268, R176: FENCE of any scope empties the store buffer and lets the context's fetch see its stores; at
module scope the die's outbound queues hold nothing older and no view of the die holds an old copy; at
system scope the service cores' accepted writes are performed too. No register changes. R177: PREF
completes on any address, without a trap, and has no effect that a program sees: no register, no other
context and no byte of memory changes. -/
def Obligations.FencesAndPrefetch : Prop :=
  (∀ (scope : BitVec 3) (s : State), Ready (.fence scope) s → scope.toNat ≤ 5 →
    ∃ t, exec (.fence scope) s = .next t ∧ t.me.sbuf = [] ∧ t.me.fetchOld = [] ∧ KeepsContext s t ∧
      (4 ≤ scope.toNat → (∀ e ∈ t.outq, e.src ≠ s.myDie) ∧ ∀ v ∈ t.views, v.die ≠ s.myDie) ∧
      (scope.toNat = 5 → t.svcq = [])) ∧
  (∀ (off : BitVec 10) (a : SReg) (s : State), Ready (.pref off a) s →
    ∃ t, exec (.pref off a) s = .next t ∧ KeepsContext s t ∧ t.me.sbuf = s.me.sbuf ∧ SameMemory s t ∧
      (∀ k, k ≠ s.cur → t.ctx k = s.ctx k) ∧ t.full = s.full ∧
      (s.me.rep = none → s.me.loops = [] → t.me.pc = s.me.pc + 4#64))

/-- R3, R107, R262: performing a write at a home of the module, whose window check holds: the bytes read
back, every other byte is as before, the granules it fills are full and no other bit changes. -/
def Obligations.PerformedWrite : Prop :=
  ∀ (s : State) (src pasid h : Nat) (bs : List Byte) (fill : List Nat) (chk : Option Chk) (unit : Bool),
    memWf s.mem = true → chkOk s pasid chk = true → isHome h = true →
    let t := perform s src pasid h bs fill chk unit
    memRead h bs.length t.mem = bs ∧ (∀ x, x < h ∨ h + bs.length ≤ x → memGet x t.mem = memGet x s.mem) ∧
    memWf t.mem = true ∧ (∀ g ∈ fill, smem g t.full = true) ∧
    (∀ g, g ∉ fill → smem g t.full = smem g s.full)

/-- R93: HGET reads a word of a handle register, HSET writes one into a copy of another, HMOV copies; HCHK
gives the reason of R88 and changes no handle. No memory is accessed. R93: HLD reads the 32 bytes at s[s]
+ sext(imm8) × 32 into the handle register, word 0 lowest, as four 8-byte loads in word order, one a step;
HST stores the register there as four 8-byte stores in word order; both trap when the address fails a
check, with XVAL the address. -/
def Obligations.HandleWords : Prop :=
  (∀ (w : BitVec 2) (u : Bool) (r : SReg) (ha hd : HReg) (s : State),
    (Ready (.hget w r ha) s →
      exec (.hget w r ha) s = .next (retire (.hget w r ha) (s.setReg r ((s.hreg ha).extractLsb' (64 * w.toNat) 64)))) ∧
    (Ready (.hset w r ha hd) s → ∃ v : HWord,
      exec (.hset w r ha hd) s = .next (retire (.hset w r ha hd) (s.setHreg hd v)) ∧
      (∀ k, k < 4 → v.extractLsb' (64 * k) 64 =
        if k = w.toNat then s.reg r else (s.hreg ha).extractLsb' (64 * k) 64)) ∧
    (Ready (.hmov ha hd) s →
      exec (.hmov ha hd) s = .next (retire (.hmov ha hd) (s.setHreg hd (s.hreg ha)))) ∧
    (Ready (.hchk u r ha) s →
      exec (.hchk u r ha) s = .next (retire (.hchk u r ha) (s.setReg r (BitVec.ofNat 64 (hReason (s.hreg ha) u allTypes)))) ∧
      (8 ≤ hType (s.hreg ha) → hReason (s.hreg ha) u allTypes = 1) ∧
      (hType (s.hreg ha) = 0 → hReason (s.hreg ha) u allTypes = 2) ∧ hReason (s.hreg ha) u allTypes ≤ 10)) ∧
  (∀ (imm : BitVec 8) (r : SReg) (q : HReg) (s s1 : State),
    let va := s.reg r + imm.signExtend 64 * 32#64
    (Ready (.hld imm r q) s →
      (∀ h chk, scalarPlace s s.cur .load va 32 32 = (.ok (.home h chk), s1) →
        let got := wordsGot s
        let l := loadHome s1 s1.cur (h + got.length) 8
        poisoned s1 (h + got.length) 8 = false →
        (got.length < 24 → ∃ t, exec (.hld imm r q) s = .next t ∧ wordsGot t = got ++ l.1 ∧
          KeepsContext s t) ∧
        (got.length = 24 → exec (.hld imm r q) s =
          .next (retire (.hld imm r q) (l.2.setHreg q (BitVec.ofNat 256 (leNat (got ++ l.1))))))) ∧
      (∀ c, scalarPlace s s.cur .load va 32 32 = (.error c, s1) → exec (.hld imm r q) s = failed s1 1 c va)) ∧
    (Ready (.hst imm r q) s →
      (∀ p h, scalarPlace s s.cur .store va 32 32 = (.ok p, s1) →
        ((∃ chk, p = .home h chk) ∨ ∃ peer, p = .pcie h peer) → s.me.sbuf.length ≤ 12 →
        ∃ t es, exec (.hst imm r q) s = .next t ∧ t.me.sbuf = s.me.sbuf ++ es ∧ es.length = 4 ∧
          (∀ j, j < 4 → (es.map BufEntry.home)[j]? = some (h + 8 * j)) ∧
          (es.flatMap BufEntry.bytes) = leBytes 32 (s.hreg q).toNat ∧ KeepsContext s t ∧ SameMemory s t) ∧
      (∀ c, scalarPlace s s.cur .store va 32 32 = (.error c, s1) → exec (.hst imm r q) s = failed s1 1 c va)))

/-- R94: HADV moves OROW (W = 0) or OCOL (W = 1) of a DENSE or QTILE view, or BASE (W = 2) of a DENSE,
QTILE, BLKSP, CMPSP or WINDOW handle, by s[s] as a signed number and changes no other bit. It traps as
BADH with reason 9 on another type, and as SHAPE with XVAL = s[s] when the sum leaves the field, when a
QTILE's OCOL is no multiple of 32, or when a WINDOW's BASE leaves its window. -/
def Obligations.HandleAdvance : Prop :=
  ∀ (w : BitVec 2) (r : SReg) (ha hd : HReg) (s : State), w ≠ 3#2 → Ready (.hadv w r ha hd) s →
    let v := s.hreg ha
    let n := advField w v + (s.reg r).toInt
    (¬ advType w (hType v) →
      exec (.hadv w r ha hd) s = .next (takeTrap s s.cur 1 0x09 (BitVec.ofNat 64 (ha.toNat * 256 + 9)))) ∧
    (advType w (hType v) → ¬ advFits w v n →
      exec (.hadv w r ha hd) s = .next (takeTrap s s.cur 1 0x0A (s.reg r))) ∧
    (advType w (hType v) → advFits w v n →
      ∃ v', exec (.hadv w r ha hd) s = .next (retire (.hadv w r ha hd) (s.setHreg hd v')) ∧
        advField w v' = n ∧ ∀ j, j < (advBits w).1 ∨ (advBits w).2 ≤ j → v'.getLsbD j = v.getLsbD j)

end

namespace Sys2Proof.Claims
open Sys2Proof Sys2Proof.Machine

/-! ## Encoding -/

/-- Words the manual works out, with the instructions they stand for. -/
def workedWords : List (List Word × Instr) := [
  ([0x00402301#32, 0xFFFFFFFD#32], .add false 6#5 2#5 (.lit32 0xFFFFFFFD#32)),
  ([0x09883281#32], .div false 5#5 3#5 (.reg 4#5)),
  ([0x054A1963#32, 0x00000029#32], .mma false
    { wait := 0x05#8, sT := 9#5, trapf := false, rel := false, det := false, pri := 2#2, slot := some 1#3 } 4#4 2#4 3#4),
  ([0x01530160#32, 0x18A4008A#32], .copy
    { wait := 0x01#8, sT := 10#5, trapf := false, rel := true, det := false, pri := 0#2, slot := some 2#3 }
    6#4 2#4 4#5 5#5 6#5),
  ([0x02020128#32], .csrr 0x101#12 2#5),
  ([0x0698320A#32], .fcvt 0#2 12#5 4#5 3#5),
  ([0x00087293#32], .sti 0#10 1#2 false 7#5 5#5),
  ([0x01000A32#32], .bar 20#5 0#2 0#5),
  ([0x00800AB2#32], .barw 21#5 0#2),
  ([0x010501B0#32], .hld 1#8 10#5 3#4),
  ([0x0000C734#32], .waitt 14#5 12#5),
  ([0x0320C7B4#32], .tfrec 15#5 12#5 16#5),
  ([0x00109023#32], .loop 8#15 9#5),
  ([0x02562230#32], .hadv 2#2 12#5 4#4 4#4),
  ([0x0010B583#32], .addi 11#5 11#5 8#15),
  ([0x0380DA34#32], .waits 20#5 13#5),
  ([0x00338D37#32], .qsub 26#5 24#5 25#5),
  ([0x00800E33#32], .rdone 28#5),
  ([0x00D3BE12#32], .ldi 3#10 2#3 true 27#5 28#5),
  ([0x2B905401#32], .shadd 2#2 8#5 5#5 (.reg 8#5)),
  ([0x800CA014#32], .amoAdd 4#3 0#2 false 6#5 10#5 0#5),
  ([0x00080017#32], .fence 4#3),
  ([0x0403A1E7#32, 0x00000208#32], .wprobe
    { wait := 0x04#8, sT := 0#5, trapf := false, rel := false, det := false, pri := 0#2, slot := some 0#3 } 7#4 3#4 4#4),
  ([0x00621964#32, 0x34000280#32], .mmag true
    { wait := 0#8, sT := 12#5, trapf := false, rel := true, det := false, pri := 0#2, slot := none }
    4#4 2#4 3#4 0#5 0#5 13#5)]

/-- The values of OP that R41 leaves without an instruction. -/
abbrev opUnassigned (op : Nat) : Prop :=
  op = 0 ∨ (0x0B ≤ op ∧ op ≤ 0x0F) ∨ (0x18 ≤ op ∧ op ≤ 0x1F) ∨ op = 0x27 ∨ (0x2C ≤ op ∧ op ≤ 0x2F) ∨
    (0x39 ≤ op ∧ op ≤ 0x5F) ∨ 0x6A ≤ op

/-! ## The step -/

/-- The state in which the next instruction issues when the step is not another move: the agenda's
context, or, with no agenda, the one in turn (log 1). -/
def issuing (s : State) : Option State :=
  match s.agenda with
  | [] => some (nextUp { s with keep := [] })
  | m :: r =>
    match m.who with
    | .issue core ctx =>
      if core < s.ndies * 64 ∧ ctx ≤ 10 then some { s with agenda := r, keep := m.keep, cur := core * 16 + ctx }
      else none
    | .event _ => none
    | .act _ => none
    | .tick _ _ => none

end Sys2Proof.Claims

section
open Sys2Proof Sys2Proof.Machine Sys2Proof.Claims

/-- Words worked in the manual from R25 to R28, R36 to R40, R93 and R244 decode to the instructions they stand
for. R41, R30: words that are no instruction are refused, whatever their other bits: every OP that is not
assigned (the all-zero word among them), and, of form E, bit 31 of word 1 set, a SLOT without SETS, and a
vector instruction with an sT or with DET. -/
def Obligations.WordsDecode : Prop :=
  (∀ p ∈ workedWords, decodeList p.1 = some p.2) ∧
  (∀ w0 w1 w2 : Word,
    (opUnassigned (w0.toNat % 128) → decodeList [w0, w1, w2] = none) ∧
    (0x60 ≤ w0.toNat % 128 → w1.getLsbD 31 = true → decodeList [w0, w1, w2] = none) ∧
    (0x60 ≤ w0.toNat % 128 → w1.getLsbD 3 = false → w1.toNat % 8 ≠ 0 → decodeList [w0, w1, w2] = none) ∧
    (w0.toNat % 128 = 0x65 → w0.extractLsb' 19 5 ≠ 0#5 ∨ w1.getLsbD 6 = true → decodeList [w0, w1, w2] = none))

/-- R25 to R40: decoding and encoding agree. Every well-formed instruction of the instruction set, with
every operand at every value its encoding admits, decodes from its own words to itself. -/
def Obligations.DecodeOfEncode : Prop :=
  ∀ i : Instr, i.isEvent = false → i.wf = true → decodeList (encode i) = some i

/-- The invariant holds at reset: memory is in its canonical form. -/
def Obligations.ResetHasCanonicalMemory : Prop := State.reset.Inv

/-- Every step keeps the invariant: from any state whose memory is in its canonical form, an
instruction, an event, a tick, or a round of the background leads to one whose memory is. -/
def Obligations.StepKeepsCanonicalMemory : Prop := ∀ s t : State, s.Inv → step s = .next t → t.Inv

/-- R21, R22, R41, R185: a step runs the decoded instruction. The context that is next to issue, if it may,
takes the trap that it could not take yet, or executes the instruction it waits in, or of the repetition
buffer with its fields rotated, or the one its fetched words decode to; words that decode to none raise the
illegal-instruction trap with XVAL the words. A context that may not issue leaves the state as it is. A move
for an event executes that event, one for an act of a party performs that act, and a tick only lets time pass,
TIME at the rate that the trim gives it (R366). Which context is in turn without an agenda is the model's
choice (log 1). -/
def Obligations.StepRunsTheDecodedInstruction : Prop :=
  (∀ s s1 : State, issuing s = some s1 →
    (canIssue s1 = false → step s = .next s1) ∧
    (∀ len cause val, canIssue s1 = true → s1.me.trapping = some (len, cause, val) →
      step s = .next (takeTrap s1 s1.cur len cause val)) ∧
    (canIssue s1 = true → s1.me.trapping = none →
      (∀ w, s1.me.wait = some w → step s = exec w.instr s1) ∧
      (∀ r i, s1.me.wait = none → s1.me.rep = some r → decodeList (r.words.getD r.idx []) = some i →
        (i.mapRegs (rotS (r.iter * r.ss)) (rotH (r.iter * r.hs))).wf = true →
        step s = exec (i.mapRegs (rotS (r.iter * r.ss)) (rotH (r.iter * r.hs))) s1) ∧
      (∀ ws i s2, s1.me.wait = none → s1.me.rep = none → fetchInstr s1 s1.cur s1.me.pc.toNat = (.ok ws, s2) →
        decodeList ws = some i → i.wf = true → step s = exec i (ioClear s2 (.fetch s2.cur))) ∧
      (∀ ws s2, s1.me.wait = none → s1.me.rep = none → fetchInstr s1 s1.cur s1.me.pc.toNat = (.ok ws, s2) →
        decodeList ws = none →
        step s = .next (takeTrap (ioClear s2 (.fetch s2.cur)) s2.cur ws.length 0x01 (wordsVal ws))))) ∧
  (∀ (s : State) (m : Move) (r : List Move) (e : Instr), s.agenda = m :: r → m.who = .event e →
    e.isEvent = true → step s = exec e { s with agenda := r, keep := m.keep }) ∧
  (∀ (s : State) (m : Move) (r : List Move) (c n : Nat), s.agenda = m :: r → m.who = .tick c n →
    let passed := s.timeFrac + n * (1000000 + s.trim).toNat
    step s = .next { s with agenda := r, keep := m.keep, cycle := s.cycle + c, timeFrac := passed % 1000000,
                            time := s.time + BitVec.ofNat 64 (passed / 1000000) }) ∧
  (∀ (s : State) (m : Move) (r : List Move) (a : Act), s.agenda = m :: r → m.who = .act a →
    step s = .next (runAct a { s with agenda := r, keep := m.keep }))

/-- R20, R42, R186: the checks before every instruction's own. An instruction that names a scalar register
at or above the accessible count raises the illegal-register trap with XVAL its number and does nothing
else; one that a REP block forbids raises the illegal-instruction trap there, before that check. -/
def Obligations.ChecksBeforeEveryInstruction : Prop :=
  ∀ (i : Instr) (s : State), i.isEvent = false →
    (i.noRep = true → s.me.rep ≠ none → exec i s = illegal i s) ∧
    (i.noRep = false ∨ s.me.rep = none → ∀ r, badReg s.me.acc i = some r →
      exec i s = .next (takeTrap s s.cur i.len 0x02 (r.zeroExtend 64)))

end

namespace Sys2Proof.Claims
open Sys2Proof Sys2Proof.Machine

/-! ## Tokens and acceptance -/

/-- The result of R149 for an operation: CAUSE in [31:16] of one that is FAULTED or CANCELLED, the code of
its state in [7:0]. -/
def resultCode (o : Op) : DWord :=
  BitVec.ofNat 64 ((if o.st = .faulted ∨ o.st = .cancelled then o.cause else 0) * 65536 + o.st.code)

/-- The engine instructions with a token: their order fields and the first check of their entry that
fails, as a trap's cause and value (R114 to R118, R100, R101, R217, R220, R238, R245, R255, R318). -/
def childRule (s : State) : Instr → Option (EOrd × Option (Nat × DWord))
  | .copy o hC hA sX sY sZ => some (o, copyChk hC hA sX sY sZ s)
  | .copym o hC hA sX => some (o, copymChk hC hA sX s)
  | .pack o hC hA sX => some (o, packChk true hC hA sX s)
  | .unpack o hC hA sX => some (o, packChk false hC hA sX s)
  | .scadd o hA hB sX =>
    some (o, (scaddChk hA hB s).map (fun p => if p.1 = 0x06 then (0x06, s.reg sX) else p))
  | .bflush o sX => some (o, if s.mine.ph = 1#2 then some (0x06, s.reg sX) else none)
  | .mma _ o hC hA hB => some (o, mmaChk hC hA hB s)
  | .mmag _ o hC hA hB sX _ _ => some (o, mmagChk hC hA hB sX s)
  | .qntQ4uni o hC hA => some (o, qntChk hC hA s)
  | .qntQ4e2m1 o hC hA => some (o, qntChk hC hA s)
  | .qntQ4pow o hC hA => some (o, qntChk hC hA s)
  | .qntQ4hyb o hC hA => some (o, qntChk hC hA s)
  | .qntQ4auto o hC hA => some (o, qntChk hC hA s)
  | .dqnt o hC hA => some (o, dqntChk hC hA s)
  | .qchk o hA => some (o, qchkChk hA s)
  | .winit o hC sX => some (o, winitChk hC sX s)
  | .wprobe o hC hA hB => some (o, wprobeChk hC hA hB s)
  | .wcommit o hC hA sX _ _ => some (o, wcommitChk hC hA sX s)
  | .wpick o hA _ sZ => some (o, wpickChk hA sZ s)
  | .wrd o hC hA hB => some (o, wrdChk hC hA hB s)
  | .allred r o hC hA sX sZ => some (o, collChk (.allred r.toNat) hC hA sX sZ none s)
  | .redscat r o hC hA sX sZ => some (o, collChk (.redscat r.toNat) hC hA sX sZ none s)
  | .allgath o hC hA sX sZ => some (o, collChk .allgath hC hA sX sZ none s)
  | .bcast o hC hA sX sY sZ => some (o, collChk .bcast hC hA sX sZ (some sY) s)
  | .alltoall o hC hA sX sZ => some (o, collChk .alltoall hC hA sX sZ none s)
  | .spec o sX sY sZ => some (o, specChk sX sY sZ s)
  | _ => none

/-- The operands an engine instruction takes at acceptance (R248, R349): handles A, B and C and scalars
X, Y and Z; zero where it has none. -/
def operandsOf (s : State) : Instr → HWord × HWord × HWord × DWord × DWord × DWord
  | .copy _ hC hA sX sY sZ => (s.hreg hA, 0#256, s.hreg hC, s.reg sX, s.reg sY, s.reg sZ)
  | .copym _ hC hA sX => (s.hreg hA, 0#256, s.hreg hC, s.reg sX, 0#64, 0#64)
  | .pack _ hC hA sX => (s.hreg hA, 0#256, s.hreg hC, s.reg sX, 0#64, 0#64)
  | .unpack _ hC hA sX => (s.hreg hA, 0#256, s.hreg hC, s.reg sX, 0#64, 0#64)
  | .scadd _ hA hB sX => (s.hreg hA, s.hreg hB, 0#256, s.reg sX, 0#64, 0#64)
  | .bflush _ sX => (0#256, 0#256, 0#256, s.reg sX, 0#64, 0#64)
  | .mma _ _ hC hA hB => (s.hreg hA, s.hreg hB, s.hreg hC, 0#64, 0#64, 0#64)
  | .mmag _ _ hC hA hB sX sY sZ => (s.hreg hA, s.hreg hB, s.hreg hC, s.reg sX, s.reg sY, s.reg sZ)
  | .qntQ4uni _ hC hA => (s.hreg hA, 0#256, s.hreg hC, 0#64, 0#64, 0#64)
  | .qntQ4e2m1 _ hC hA => (s.hreg hA, 0#256, s.hreg hC, 0#64, 0#64, 0#64)
  | .qntQ4pow _ hC hA => (s.hreg hA, 0#256, s.hreg hC, 0#64, 0#64, 0#64)
  | .qntQ4hyb _ hC hA => (s.hreg hA, 0#256, s.hreg hC, 0#64, 0#64, 0#64)
  | .qntQ4auto _ hC hA => (s.hreg hA, 0#256, s.hreg hC, 0#64, 0#64, 0#64)
  | .dqnt _ hC hA => (s.hreg hA, 0#256, s.hreg hC, 0#64, 0#64, 0#64)
  | .qchk _ hA => (s.hreg hA, 0#256, 0#256, 0#64, 0#64, 0#64)
  | .winit _ hC sX => (0#256, 0#256, s.hreg hC, s.reg sX, 0#64, 0#64)
  | .wprobe _ hC hA hB => (s.hreg hA, s.hreg hB, s.hreg hC, 0#64, 0#64, 0#64)
  | .wcommit _ hC hA sX sY sZ => (s.hreg hA, 0#256, s.hreg hC, s.reg sX, s.reg sY, s.reg sZ)
  | .wpick _ hA sY sZ => (s.hreg hA, 0#256, 0#256, 0#64, s.reg sY, s.reg sZ)
  | .wrd _ hC hA hB => (s.hreg hA, s.hreg hB, s.hreg hC, 0#64, 0#64, 0#64)
  | .allred _ _ hC hA sX sZ => (s.hreg hA, 0#256, s.hreg hC, s.reg sX, 0#64, s.reg sZ)
  | .redscat _ _ hC hA sX sZ => (s.hreg hA, 0#256, s.hreg hC, s.reg sX, 0#64, s.reg sZ)
  | .allgath _ hC hA sX sZ => (s.hreg hA, 0#256, s.hreg hC, s.reg sX, 0#64, s.reg sZ)
  | .bcast _ hC hA sX sY sZ => (s.hreg hA, 0#256, s.hreg hC, s.reg sX, s.reg sY, s.reg sZ)
  | .alltoall _ hC hA sX sZ => (s.hreg hA, 0#256, s.hreg hC, s.reg sX, 0#64, s.reg sZ)
  | .spec _ sX sY sZ => (0#256, 0#256, 0#256, s.reg sX, s.reg sY, s.reg sZ)
  | .vadd _ _ hC hA hB => (s.hreg hA, s.hreg hB, s.hreg hC, 0#64, 0#64, 0#64)
  | .vsub _ _ hC hA hB => (s.hreg hA, s.hreg hB, s.hreg hC, 0#64, 0#64, 0#64)
  | .vmul _ _ hC hA hB => (s.hreg hA, s.hreg hB, s.hreg hC, 0#64, 0#64, 0#64)
  | .vfma _ _ hC hA hB => (s.hreg hA, s.hreg hB, s.hreg hC, 0#64, 0#64, 0#64)
  | .vmax _ _ hC hA hB => (s.hreg hA, s.hreg hB, s.hreg hC, 0#64, 0#64, 0#64)
  | .vmin _ _ hC hA hB => (s.hreg hA, s.hreg hB, s.hreg hC, 0#64, 0#64, 0#64)
  | .vcmp _ _ hC hA hB sX => (s.hreg hA, s.hreg hB, s.hreg hC, s.reg sX, 0#64, 0#64)
  | .vsel _ _ hC hA hB => (s.hreg hA, s.hreg hB, s.hreg hC, 0#64, 0#64, 0#64)
  | .vabs _ _ hC hA => (s.hreg hA, 0#256, s.hreg hC, 0#64, 0#64, 0#64)
  | .vneg _ _ hC hA => (s.hreg hA, 0#256, s.hreg hC, 0#64, 0#64, 0#64)
  | .vexp _ _ hC hA => (s.hreg hA, 0#256, s.hreg hC, 0#64, 0#64, 0#64)
  | .vlog _ _ hC hA => (s.hreg hA, 0#256, s.hreg hC, 0#64, 0#64, 0#64)
  | .vrcp _ _ hC hA => (s.hreg hA, 0#256, s.hreg hC, 0#64, 0#64, 0#64)
  | .vrsq _ _ hC hA => (s.hreg hA, 0#256, s.hreg hC, 0#64, 0#64, 0#64)
  | .vtanh _ _ hC hA => (s.hreg hA, 0#256, s.hreg hC, 0#64, 0#64, 0#64)
  | .vcvt _ _ hC hA => (s.hreg hA, 0#256, s.hreg hC, 0#64, 0#64, 0#64)
  | .vscl _ _ hC hA sX => (s.hreg hA, 0#256, s.hreg hC, s.reg sX, 0#64, 0#64)
  | .vreds _ _ hC hA => (s.hreg hA, 0#256, s.hreg hC, 0#64, 0#64, 0#64)
  | .vredm _ _ hC hA => (s.hreg hA, 0#256, s.hreg hC, 0#64, 0#64, 0#64)
  | .vscan _ _ hC hA => (s.hreg hA, 0#256, s.hreg hC, 0#64, 0#64, 0#64)
  | _ => (0#256, 0#256, 0#256, 0#64, 0#64, 0#64)

/-- The vector instructions: their order fields, A, B (`none` with one source) and C, whether the shape
rule is that of a row reduction, the format rule, and the check of VCMP's scalar (R232 to R235). -/
def vecRule (s : State) : Instr → Option (VOrd × HReg × Option HReg × HReg × Bool ×
    (HWord → HWord → HWord → Option HReg) × Option (Nat × DWord))
  | .vadd _ o hC hA hB => some (o, hA, some hB, hC, false, fmtSame fmtArith hC hA hB, none)
  | .vsub _ o hC hA hB => some (o, hA, some hB, hC, false, fmtSame fmtArith hC hA hB, none)
  | .vmul _ o hC hA hB => some (o, hA, some hB, hC, false, fmtSame fmtArith hC hA hB, none)
  | .vfma _ o hC hA hB => some (o, hA, some hB, hC, false, fmtSame fmtFloat hC hA hB, none)
  | .vmax _ o hC hA hB => some (o, hA, some hB, hC, false, fmtSame fmtArith hC hA hB, none)
  | .vmin _ o hC hA hB => some (o, hA, some hB, hC, false, fmtSame fmtArith hC hA hB, none)
  | .vabs _ o hC hA => some (o, hA, none, hC, false, fmtSame fmtArith hC hA hA, none)
  | .vneg _ o hC hA => some (o, hA, none, hC, false, fmtSame fmtArith hC hA hA, none)
  | .vexp _ o hC hA => some (o, hA, none, hC, false, fmtSame fmtFloat hC hA hA, none)
  | .vlog _ o hC hA => some (o, hA, none, hC, false, fmtSame fmtFloat hC hA hA, none)
  | .vrcp _ o hC hA => some (o, hA, none, hC, false, fmtSame fmtFloat hC hA hA, none)
  | .vrsq _ o hC hA => some (o, hA, none, hC, false, fmtSame fmtFloat hC hA hA, none)
  | .vtanh _ o hC hA => some (o, hA, none, hC, false, fmtSame fmtFloat hC hA hA, none)
  | .vcmp _ o hC hA hB sX => some (o, hA, some hB, hC, false, fmtCmp hA hB,
      if (s.reg sX).toNat / 4 = 0 then none else some (0x0A, s.reg sX))
  | .vsel _ o hC hA hB => some (o, hA, some hB, hC, false, fmtSel hC, none)
  | .vcvt _ o hC hA => some (o, hA, none, hC, false, fun _ _ _ => none, none)
  | .vscl _ o hC hA _ => some (o, hA, none, hC, false, fmtSame fmtArith hC hA hA, none)
  | .vreds _ o hC hA => some (o, hA, none, hC, true, fmtWiden hC hA, none)
  | .vredm _ o hC hA => some (o, hA, none, hC, true, fmtSame fmtArith hC hA hA, none)
  | .vscan _ o hC hA => some (o, hA, none, hC, false, fmtWiden hC hA, none)
  | _ => none

/-- An operation as it is accepted by the context that issues: queued, attached to its issuer, with its
operands, its order fields and its snapshot of the slots it waits on (R133, R139). -/
def AcceptedBy (s : State) (i : Instr) (wait : BitVec 8) (pri : BitVec 2) (trapf rel : Bool)
    (slot : Option (BitVec 3)) (p : Op) : Prop :=
  p.instr = i ∧ p.core = s.myCore ∧ p.ctx = s.cur ∧ p.st = .queued ∧ p.cancel = false ∧ p.prog = 0 ∧
  (p.hA, p.hB, p.hC, p.xv, p.yv, p.zv) = operandsOf s i ∧
  p.pri = pri.toNat ∧ p.trapf = trapf ∧ p.rel = rel ∧ p.slot = slot.map BitVec.toNat ∧ p.inSlot = slot.isSome ∧
  p.waits = (snapshot s s.cur wait.toNat).map Op.id ∧ p.pasid = s.mine.pasid

/-- Nothing but the flow of control, one scalar register and the core's table of counts differs in the
contexts; every handle register and every byte of memory is as before. -/
def AcceptFrame (s t : State) (d : SReg) : Prop :=
  (∀ r, r ≠ d → t.reg r = s.reg r) ∧ FlowAndRegs s t ∧ SameMemory s t ∧
  (∀ k, k ≠ s.cur → t.ctx k = s.ctx k) ∧ t.full = s.full ∧ t.outq = s.outq ∧ t.launches = s.launches

end Sys2Proof.Claims

section
open Sys2Proof Sys2Proof.Machine Sys2Proof.Claims

/-- R42, R130, R133, R135, R139, R143: acceptance. An engine instruction whose entry's checks pass takes a
free entry of the core's token table and joins the queue with its operands; its token goes to sT and it
retires. DET = 1 stands it to the adopter of the group in g0, and traps without one, before an entry is
sought. A check that fails traps; while no entry is free, issue stalls. Which of the free entries is taken is
left open (log 6), and XVAL of a phase violation of SCADD and BFLUSH is log 23. The context's own older stores
to the ring table are performed first (R263, R266). -/
def Obligations.EngineAcceptance : Prop :=
  ∀ (i : Instr) (s0 : State) (o : EOrd) (chk : Option (Nat × DWord)),
    let s := settleRings s0
    childRule s i = some (o, chk) → Ready i s0 →
    (∀ r, s.reg r = s0.reg r) ∧ (∀ r, s.hreg r = s0.hreg r) ∧
    (∀ c v, chk = some (c, v) → exec i s0 = .next (takeTrap s s.cur i.len c v)) ∧
    (chk = none → o.det = true → slotGroup s.mine 0 = none →
      exec i s0 = .next (takeTrap s s.cur i.len 0x0A 0#64)) ∧
    (chk = none → (o.det = true → slotGroup s.mine 0 ≠ none) → freeEntries s s.myCore = [] →
      exec i s0 = .next s) ∧
    (∀ g l x, chk = none → freeEntries s s.myCore ≠ [] →
      (o.det = true → slotGroup s.mine 0 = some g ∧ s.launchOf s.myCore = some l ∧ l.group? g = some x) →
      ∃ t p, exec i s0 = .next t ∧ t.ops = s.ops ++ [p] ∧ p.vec = false ∧
        AcceptedBy s i o.wait o.pri o.trapf o.rel o.slot p ∧
        p.idx ∈ freeEntries s s.myCore ∧ p.gen = entryGen s s.myCore p.idx ∧ p.det = o.det ∧
        p.standing = (if o.det then .adopter (rankCore l x.adopter) else .attached s.cur) ∧
        (o.sT ≠ 0#5 → t.reg o.sT = BitVec.ofNat 64 (s.myCore * 2 ^ 20 + p.gen * 256 + p.idx)) ∧
        AcceptFrame s t o.sT)

/-- R225, R232: a vector instruction whose checks pass enters its core's queue of 16 with its operands and
retires; it has no token and writes no register. A check that fails traps; while the queue is full, issue
stalls. -/
def Obligations.VectorAcceptance : Prop :=
  ∀ (i : Instr) (s : State) (o : VOrd) (hA hC : HReg) (hB : Option HReg) (red : Bool)
    (fmt : HWord → HWord → HWord → Option HReg) (extra : Option (Nat × DWord)),
    vecRule s i = some (o, hA, hB, hC, red, fmt, extra) → Ready i s →
    let chk := vecChk hC hA hB red fmt (fun _ => extra) s
    (∀ c v, chk = some (c, v) → exec i s = .next (takeTrap s s.cur i.len c v)) ∧
    (chk = none → 16 ≤ (vecQueue s s.myCore).length → exec i s = .next s) ∧
    (chk = none → (vecQueue s s.myCore).length < 16 →
      ∃ t p, exec i s = .next t ∧ t.ops = s.ops ++ [p] ∧ p.vec = true ∧
        AcceptedBy s i o.wait o.pri o.trapf o.rel o.slot p ∧ p.standing = .attached s.cur ∧
        AcceptFrame s t 0#5)

/-- R131, R149 to R152, R155, R267: TSTAT, WAITT, CANCEL and TPRI on a token that names an operation. TSTAT
writes its state. Of an operation that the context owns, WAITT, which tests the token once, waits for the end,
acquires, frees it when DONE and writes the result, or raises the child trap (0x10) with XVAL the token when
it FAULTED with TRAPF; CANCEL ends a queued one CANCELLED with cause 0x45 and marks a running one; TPRI sets
the priority of a queued one. -/
def Obligations.TokenInstructions : Prop :=
  ∀ (s : State) (d a : SReg) (o : Op), tokenOp s s.mine.launch (s.reg a) = some o → s.op? o.id = some o →
    (Ready (.tstat d a) s →
      exec (.tstat d a) s = .next (retire (.tstat d a) (s.setReg d (resultCode o)))) ∧
    (o.standing = .attached s.cur →
      (Ready (.waitt d a) s → (∀ w id, s.me.wait = some w → w.what = .token id → id = o.id) →
        (o.st.final = false → s.me.wait = none → exec (.waitt d a) s = .next (waitFor (.waitt d a) (.token o.id) 0 s)) ∧
        (o.st.final = true → ¬ (o.st = .faulted ∧ o.trapf = true) →
          let u := refreshAll s s.myDie
          exec (.waitt d a) s = .next (retire (.waitt d a)
            ((if o.st = .done then freeOp u o else u).setReg d (resultCode o)))) ∧
        (o.st = .faulted → o.trapf = true → exec (.waitt d a) s =
          .next (takeTrap (refreshAll s s.myDie) s.cur 1 0x10 (s.reg a)))) ∧
      (Ready (.cancel d a) s →
        (o.st = .queued → ∃ t p, exec (.cancel d a) s = .next t ∧ t.op? o.id = some p ∧ p.st = .cancelled ∧
          p.cause = 0x45 ∧ p.prog = 0 ∧ (d ≠ 0#5 → t.reg d = resultCode o)) ∧
        (o.st = .running → ∃ t p, exec (.cancel d a) s = .next t ∧ t.op? o.id = some p ∧ p.st = .running ∧
          p.cancel = true ∧ (d ≠ 0#5 → t.reg d = resultCode o)) ∧
        (o.st.final = true →
          exec (.cancel d a) s = .next (retire (.cancel d a) (s.setReg d (resultCode o))))) ∧
      (∀ b, Ready (.tpri d a b) s → (s.reg b).toNat ≤ 3 → o.st = .queued →
        exec (.tpri d a b) s = .next (retire (.tpri d a b)
          ((s.modOp o.id (fun p => { p with pri := (s.reg b).toNat })).setReg d (resultCode o)))))

/-- R136, R143, R153, R154, R156, R157: the other token instructions. DETACH stands an operation that is not
final to the adopter of the group in the slot; ADOPT makes the context the owner of a detached one of its
PASID; TFREC stores the 32 bytes of the fault record and frees a final one; WAITS, once every operation of
its snapshot is final, acquires, writes in bit i whether one of slot i FAULTED and in bit 8 + i whether one
was CANCELLED, and frees the DONE ones. -/
def Obligations.TokenTransfers : Prop :=
  ∀ (s : State) (d a b : SReg) (o : Op), tokenOp s s.mine.launch (s.reg a) = some o →
    (∀ g l x, Ready (.detach d a b) s → (s.reg b).toNat ≤ 3 → slotGroup s.mine (s.reg b).toNat = some g →
      s.launchOf s.myCore = some l → l.group? g = some x → o.standing = .attached s.cur → o.st.final = false →
      exec (.detach d a b) s = .next (retire (.detach d a b)
        ((s.modOp o.id (fun p => { p with det := true, standing := .adopter (rankCore l x.adopter) })).setReg d
          (resultCode o)))) ∧
    (∀ c, Ready (.adopt d a) s → o.standing = .adopter c → o.pasid = s.mine.pasid →
      exec (.adopt d a) s = .next (retire (.adopt d a)
        ((s.modOp o.id (fun p => { p with standing := .attached s.cur, orphan := false, det := false,
                                          inSlot := p.inSlot && p.ctx == s.cur })).setReg d
          (if o.st.final then resultCode o - BitVec.ofNat 64 o.st.code + 7#64 else resultCode o)))) ∧
    (∀ h chk s1, Ready (.tfrec d a b) s → (s.reg b).toNat % 32 = 0 → o.standing = .attached s.cur →
      scalarPlace s s.cur .store (s.reg b) 32 32 = (.ok (.home h chk), s1) → s.me.sbuf.length ≤ 12 →
      ∃ t es, exec (.tfrec d a b) s = .next t ∧ t.me.sbuf = s.me.sbuf ++ es ∧
        es.flatMap BufEntry.bytes = faultRec o ∧ es.map BufEntry.home = [h, h + 8, h + 16, h + 24] ∧
        (d ≠ 0#5 → t.reg d = resultCode o) ∧ (∀ r, r ≠ d → t.reg r = s.reg r) ∧
        (o.st.final = true → t.op? o.id = none) ∧ (o.st.final = false → t.ops = s.ops)) ∧
    (∀ (ms : List SnapMem) (w : WaitRec), Ready (.waits d a) s → (s.reg a).toNat < 256 →
      s.me.wait = some w → w.what = .slots ms → (∀ m ∈ ms, m.st ≠ none ∧ m.slot < 8) →
      (∀ m ∈ ms, m.st = some 3#3 → m.trapf = false) →
      ∃ v, exec (.waits d a) s = .next (retire (.waits d a)
          ((ms.foldl freeMem (refreshAll s s.myDie)).setReg d v)) ∧
        ∀ j, j < 64 → v.getLsbD j = ms.any (fun m => m.tok.isSome &&
          ((m.st == some 3#3 && m.slot == j) || (m.st == some 4#3 && m.slot + 8 == j)))) ∧
    (Ready (.waits d a) s → s.reg a = 0#64 → s.me.wait = none →
      exec (.waits d a) s = .next (retire (.waits d a) ((refreshAll s s.myDie).setReg d 0#64)))

end

namespace Sys2Proof.Claims
open Sys2Proof Sys2Proof.Machine

/-! ## Contexts, barriers, messages, tasks -/

/-- The last of the 8-byte loads of an instruction that reads `n` bytes at `va` in order, one a step: all
the bytes, and the state after it, when the address is that of memory of the module and no byte is poisoned
(R72, R263, R274). -/
def Loads (s : State) (va : DWord) (n : Nat) (bs : List Byte) (u : State) : Prop :=
  ∃ h chk s1, scalarPlace s s.cur .load va n n = (.ok (.home h chk), s1) ∧ (wordsGot s).length + 8 = n ∧
    poisoned s1 (h + (wordsGot s).length) 8 = false ∧
    bs = wordsGot s ++ (loadHome s1 s1.cur (h + (wordsGot s).length) 8).1 ∧
    u = clearWait (loadHome s1 s1.cur (h + (wordsGot s).length) 8).2

/-- One of the loads before the last: the 8 bytes it takes. -/
def Loading (s : State) (va : DWord) (n : Nat) (word : List Byte) : Prop :=
  ∃ h chk s1, scalarPlace s s.cur .load va n n = (.ok (.home h chk), s1) ∧ (wordsGot s).length + 8 < n ∧
    poisoned s1 (h + (wordsGot s).length) 8 = false ∧
    word = (loadHome s1 s1.cur (h + (wordsGot s).length) 8).1

/-- Such a load keeps its bytes for the next step, and the context everything else. -/
def LoadsOn (i : Instr) (s : State) (word : List Byte) : Prop :=
  ∃ t, exec i s = .next t ∧ wordsGot t = wordsGot s ++ word ∧ KeepsContext s t

/-- The group in a slot of the core that issues, of its launch and not across modules (R290, R296). -/
abbrev InGroup (s : State) (slot gn : Nat) (l : Launch) (x : Group) : Prop :=
  slotGroup s.mine slot = some gn ∧ s.launchOf s.myCore = some l ∧ l.group? gn = some x ∧ x.xmod = false

/-- A group of a launch by number. -/
def groupOf (s : State) (lid gn : Nat) : Option Group := (s.launch? lid).bind (fun l => l.group? gn)

/-- What BARW writes for barrier `k` (R297): k modulo 65,536 in [47:32], the rank and the status of the
kept result below it. -/
def barrierValue (x : Group) (k : Nat) : DWord :=
  match x.results.find? (fun e => e.1 == k) with
  | some (_, r, st) => BitVec.ofNat 64 (k % 65536 * 2 ^ 32 + r * 65536 + st.toNat)
  | none => BitVec.ofNat 64 (k % 65536 * 2 ^ 32)

/-- The barriers that a member waits for and that are already complete: W < C (R296). -/
abbrev Reached (s : State) (x : Group) : Prop := tget x.waited s.mine.rank 0 < x.completed

/-- What is left of a grant of the range unit and how long it is (R310). -/
def grantOf (c : RangeCtr) : Nat :=
  min (min (max c.minchunk ((c.stop - c.next + (2 * c.part - 1)) / (2 * c.part))) (c.stop - c.next)) (2 ^ 24 - 1)

end Sys2Proof.Claims

section
open Sys2Proof Sys2Proof.Machine Sys2Proof.Claims

/-- R47, R48, R292, R293: START. A valid routine header gives a helper under the lowest free number, if the
core has register granules left: running at s[a] + ENTRY with s1 = s[b], every other register zero, the
rounded register count, the issuer's XVEC and settings; its number goes to [15:8] of s[d]. Status 1 says the
header is not valid, 2 that no number is free, 3 that too few granules are. The header's 64 bytes are eight
loads, one a step. -/
def Obligations.StartOfHelpers : Prop :=
  (∀ (d a b : SReg) (s : State) (w : List Byte), Ready (.start d a b) s → Loading s (s.reg a) 64 w →
    LoadsOn (.start d a b) s w) ∧
  ∀ (d a b : SReg) (s u : State) (bs : List Byte), Ready (.start d a b) s → Loads s (s.reg a) 64 bs u →
    (routineHeader bs (launchMode s) = none →
      exec (.start d a b) s = .next (retire (.start d a b) (u.setReg d 1#64))) ∧
    (∀ h, routineHeader bs (launchMode s) = some h →
      (freeHelper s.mine = none → exec (.start d a b) s = .next (retire (.start d a b) (u.setReg d 2#64))) ∧
      (∀ k, freeHelper s.mine = some k → s.cur ≠ s.myCore * 16 + k →
        let acc := (h.regs + 7) / 8 * 8
        (24 < usedGranules s.mine + acc / 8 →
          exec (.start d a b) s = .next (retire (.start d a b) (u.setReg d 3#64))) ∧
        (usedGranules s.mine + acc / 8 ≤ 24 → ∃ t, exec (.start d a b) s = .next t ∧
          (d ≠ 0#5 → t.reg d = BitVec.ofNat 64 (k * 256)) ∧ tfind k t.mine.helpers = some acc ∧
          let c := t.ctx (s.myCore * 16 + k)
          c.mode = .running ∧ c.pc = s.reg a + BitVec.ofNat 64 h.entry ∧ c.acc = acc ∧ c.reg 1#5 = s.reg b ∧
          (∀ r, r ≠ 1#5 → c.reg r = 0#64) ∧ (∀ r, c.hreg r = 0#256) ∧ c.xvec = s.me.xvec ∧ c.qctl = s.me.qctl ∧
          c.specctl = s.me.specctl ∧ c.drainmax = s.me.drainmax ∧ c.fewait = s.me.fewait ∧
          c.retrymax = s.me.retrymax ∧ c.loops = [] ∧ c.rep = none ∧ c.it = false)))

/-- R141, R145, R294, R295: HEXIT, HJOIN and HSTAT. A helper's HEXIT ends its context, leaves a join record
with s[a][31:0] and hands its operations on; that of the control context waits for the helpers and then ends
the rank. Either waits first while a pin of its handle stack waits for a page walk (R64, R331). HJOIN takes a join record and writes its code; for a live helper it waits, or in mode 1 writes
2^32; without a record it writes 2 × 2^32. HSTAT writes state, register count and free granules; the count of a
helper that has exited and is not joined is the one it had (DEDUCED, log 16). Registers stand as they were when
their context exited (log 2). -/
def Obligations.ContextExitAndJoin : Prop :=
  ∀ (d a b : SReg) (s : State),
    (Ready (.hexit a) s → numOf s.cur ≠ 0 ∨ s.mine.helpers = [] →
      (unpinAbove false (drainAll s s.cur) s.cur 0).1 = false →
      exec (.hexit a) s = .next (unpinAbove false (drainAll s s.cur) s.cur 0).2) ∧
    (Ready (.hexit a) s → numOf s.cur ≠ 0 → (unpinAbove false (drainAll s s.cur) s.cur 0).1 = true →
      ∃ t, exec (.hexit a) s = .next t ∧ t.me = s.me.exited ∧
      tfind (numOf s.cur) t.mine.joins = some ((s.reg a).setWidth 32) ∧ t.mine.helpers = terase (numOf s.cur) s.mine.helpers ∧
      ∀ o ∈ t.ops, o.holds = true → some o.launch = s.mine.launch → o.standing ≠ .attached s.cur) ∧
    (Ready (.hexit a) s → numOf s.cur = 0 → s.mine.helpers ≠ [] → s.me.wait = none →
      exec (.hexit a) s = .next (waitFor (.hexit a) .exit 0 s)) ∧
    (Ready (.hexit a) s → numOf s.cur = 0 → s.mine.helpers = [] →
      (unpinAbove false (drainAll s s.cur) s.cur 0).1 = true → ∃ t, exec (.hexit a) s = .next t ∧
      t.me = s.me.exited ∧ t.mine.ctlExited = true ∧ t.mine.rq = [] ∧ t.mine.mbox = []) ∧
    (Ready (.hjoin d a b) s → 1 ≤ (s.reg a).toNat → (s.reg a).toNat ≤ 10 → (s.reg b).toNat ≤ 1 →
      let k := (s.reg a).toNat
      (tfind k s.mine.helpers ≠ none → s.reg b = 1#64 →
        exec (.hjoin d a b) s = .next (retire (.hjoin d a b) (s.setReg d (BitVec.ofNat 64 (2 ^ 32))))) ∧
      (tfind k s.mine.helpers ≠ none → s.reg b = 0#64 → s.me.wait = none →
        exec (.hjoin d a b) s = .next (waitFor (.hjoin d a b) (.join k) 0 s)) ∧
      (tfind k s.mine.helpers = none → tfind k s.mine.joins = none →
        exec (.hjoin d a b) s = .next (retire (.hjoin d a b) (s.setReg d (BitVec.ofNat 64 (2 * 2 ^ 32))))) ∧
      (∀ code, tfind k s.mine.helpers = none → tfind k s.mine.joins = some code → joinBehind s k = false →
        ∃ t, exec (.hjoin d a b) s = .next t ∧ (d ≠ 0#5 → t.reg d = code.setWidth 64) ∧
          t.mine.joins = terase k s.mine.joins ∧ (∀ r, r ≠ d → t.reg r = s.reg r) ∧ SameMemory s t)) ∧
    (Ready (.hstat d a) s → 1 ≤ (s.reg a).toNat → (s.reg a).toNat ≤ 10 →
      exec (.hstat d a) s = .next (retire (.hstat d a) (s.setReg d (BitVec.ofNat 64
        ((24 - usedGranules s.mine) * 65536 + ((tfind (s.reg a).toNat s.mine.helpers).getD
            (tget s.mine.joinAcc (s.reg a).toNat 0)) * 256 +
          helperState s s.myCore (s.reg a).toNat)))))

/-- R266, R296, R297: BARA, BARW and BAR on the group in a slot. BARA releases, makes the member's next
arrival, and the barrier completes with the last member's. BARW writes the value of barrier W once W < C,
counts it and acquires, and waits before; W is the count at the moment the wait is served, also of a context
that waits already (DEDUCED, log 17). BAR releases and arrives, and then waits or goes on as BARW does. More
than 16 arrivals ahead wait. -/
def Obligations.Barriers : Prop :=
  ∀ (d b : SReg) (g : BitVec 2) (s : State) (gn : Nat) (l : Launch) (x : Group), InGroup s g.toNat gn l x →
    (Ready (.bara g b) s → x.ahead s.mine.rank < 16 → ∃ t y, exec (.bara g b) s = .next t ∧
      groupOf t l.id gn = some y ∧ tget y.arrived s.mine.rank 0 = tget x.arrived s.mine.rank 0 + 1 ∧
      (∀ r, r ≠ s.mine.rank → tget y.arrived r 0 = tget x.arrived r 0) ∧
      y.completed = (if ∀ r ∈ x.members, x.completed < tget x.arrived r 0 + (if r = s.mine.rank then 1 else 0)
        then x.completed + 1 else x.completed) ∧ t.me.sbuf = [] ∧ (∀ e ∈ t.outq, e.src ≠ s.myDie) ∧
      (∀ r, t.reg r = s.reg r)) ∧
    (Ready (.bara g b) s → 16 ≤ x.ahead s.mine.rank → s.me.wait = none →
      exec (.bara g b) s = .next (waitFor (.bara g b) .arrival 0 s)) ∧
    (Ready (.barw d g) s → Reached s x → ∃ t y, exec (.barw d g) s = .next t ∧
      (d ≠ 0#5 → t.reg d = barrierValue x (tget x.waited s.mine.rank 0)) ∧ (∀ r, r ≠ d → t.reg r = s.reg r) ∧
      groupOf t l.id gn = some y ∧ tget y.waited s.mine.rank 0 = tget x.waited s.mine.rank 0 + 1 ∧
      (s.mine.trcctl = 0#64 → ∀ v ∈ t.views, v.die ≠ s.myDie)) ∧
    (Ready (.barw d g) s → ¬ Reached s x → s.me.wait = none →
      exec (.barw d g) s = .next (waitFor (.barw d g) (.barrier gn) 0 s)) ∧
    (Ready (.bar d g b) s → s.me.wait = none → x.ahead s.mine.rank < 16 → ∃ t y, exec (.bar d g b) s = .next t ∧
      groupOf t l.id gn = some y ∧ tget y.arrived s.mine.rank 0 = tget x.arrived s.mine.rank 0 + 1 ∧
      t.me.sbuf = [] ∧ (s.mine.trcctl = 0#64 → ∀ e ∈ t.outq, e.src ≠ s.myDie) ∧
      (tget y.waited s.mine.rank 0 = tget x.waited s.mine.rank 0 →
        t.me.wait.map WaitRec.what = some (.barrier gn) ∧ t.me.pc = s.me.pc ∧ ∀ r, t.reg r = s.reg r) ∧
      (tget y.waited s.mine.rank 0 ≠ tget x.waited s.mine.rank 0 →
        tget x.waited s.mine.rank 0 < y.completed ∧ t.me.wait = none ∧
        tget y.waited s.mine.rank 0 = tget x.waited s.mine.rank 0 + 1)) ∧
    (∀ w, Ready (.bar d g b) s → s.me.wait = some w → w.what = .barrier gn → ¬ Reached s x →
      exec (.bar d g b) s = .next s) ∧
    (∀ w, Ready (.bar d g b) s → s.me.wait = some w → w.what = .barrier gn → Reached s x →
      ∃ t y, exec (.bar d g b) s = .next t ∧ (d ≠ 0#5 → t.reg d = barrierValue x (tget x.waited s.mine.rank 0)) ∧
        groupOf t l.id gn = some y ∧ tget y.waited s.mine.rank 0 = tget x.waited s.mine.rank 0 + 1 ∧
        (s.mine.trcctl = 0#64 → ∀ v ∈ t.views, v.die ≠ s.myDie))

/-- R299, R300: EXCH and STEP. Outside the control context they trap (0x11); they wait while a helper is live,
and trap then in the wrong phase as phase violations with XVAL PH. Once the barrier of group 255 is reached,
with no debug stop asked for, EXCH of a BSP launch writes the barrier's value and begins the exchange phase,
and STEP begins the next compute phase and counts the superstep; outside BSP STEP needs no barrier and writes
0. -/
def Obligations.Supersteps : Prop :=
  ∀ (d : SReg) (s : State), Ready (.exch d) s → Ready (.step d) s →
    (numOf s.cur ≠ 0 → exec (.exch d) s = .next (takeTrap s s.cur 1 0x11 0#64) ∧
      exec (.step d) s = .next (takeTrap s s.cur 1 0x11 0#64)) ∧
    (numOf s.cur = 0 → s.mine.helpers ≠ [] → s.me.wait = none →
      exec (.exch d) s = .next (waitFor (.exch d) .helpers 0 s) ∧
      exec (.step d) s = .next (waitFor (.step d) .helpers 0 s)) ∧
    (numOf s.cur = 0 → s.mine.helpers = [] → launchMode s = 1 → (s.mine.ph ≠ 1#2 →
        exec (.exch d) s = .next (takeTrap s s.cur 1 0x06 (s.mine.ph.setWidth 64))) ∧
      (s.mine.ph ≠ 2#2 → exec (.step d) s = .next (takeTrap s s.cur 1 0x06 (s.mine.ph.setWidth 64)))) ∧
    (numOf s.cur = 0 → launchMode s ≠ 1 → s.mine.ph = 0#2 → s.mine.helpers = [] → s.mine.dbgctl.getLsbD 0 = false →
      ∃ t, exec (.step d) s = .next t ∧ (d ≠ 0#5 → t.reg d = 0#64) ∧ t.mine.stepcnt = s.mine.stepcnt + 1#32 ∧
        t.mine.ph = 0#2) ∧
    (∀ l x w, numOf s.cur = 0 → s.mine.helpers = [] → s.mine.dbgctl.getLsbD 0 = false →
      s.launchOf s.myCore = some l → l.group? 255 = some x → s.me.wait = some w → w.what = .barrier 255 → Reached s x →
      (launchMode s = 1 → s.mine.ph = 1#2 → ∃ t, exec (.exch d) s = .next t ∧ t.mine.ph = 2#2 ∧
        t.mine.stepcnt = s.mine.stepcnt ∧ (d ≠ 0#5 → t.reg d = barrierValue x (tget x.waited s.mine.rank 0))) ∧
      (launchMode s ≠ 1 → s.mine.ph = 0#2 → ∃ t, exec (.exch d) s = .next t ∧ t.mine.ph = 0#2 ∧
        (d ≠ 0#5 → t.reg d = barrierValue x (tget x.waited s.mine.rank 0))) ∧
      (launchMode s = 1 → s.mine.ph = 2#2 → exchangeWork s s.myCore = false → ∃ t, exec (.step d) s = .next t ∧
        t.mine.ph = 1#2 ∧ t.mine.stepcnt = s.mine.stepcnt + 1#32 ∧
        (d ≠ 0#5 → t.reg d = barrierValue x (tget x.waited s.mine.rank 0))))

/-- R301, R302, R342: messages. MSEND reads 64 bytes as a release, in eight loads, enters the retry buffer and
waits; it retires once the receiver has accepted and traps (0x0E) with XVAL the rank on a final refusal. A
message that reaches an interface with room is appended to the mailbox and its sender told; one that meets a
full mailbox, a handler (IT = 1), a frozen context or a cluster that is being saved or switched out for its
launch (its save: log 38) is sent again
after a back-off that doubles up to 65,536 cycles, until RETRYMAX attempts have been made; one to an exited
rank, or to a core without the launch, is refused for good. MRECV takes the oldest message and writes how many
are left and its sender; a wait longer than FEWAIT traps with 0x08 (R109). -/
def Obligations.Messages : Prop :=
  (∀ (a b : SReg) (s : State), Ready (.msend a b) s →
    (∀ h chk s1 w l, s.me.wait = none → s.launchOf s.myCore = some l → (s.reg a).toNat < s.mine.nranks →
      s.mine.ph ≠ 1#2 ∨ rankCore l (s.reg a).toNat = s.myCore → s.mine.retry.length < 16 →
      scalarPlace s s.cur .load (s.reg b) 64 64 = (.ok (.home h chk), s1) →
      Loading (releaseModule s1 s1.cur) (s.reg b) 64 w →
      ∃ t, exec (.msend a b) s = .next t ∧ wordsGot t = w ∧ t.me.sbuf = [] ∧
        (∀ e ∈ t.outq, e.src ≠ s.myDie) ∧ KeepsContext s t) ∧
    (∀ h chk s1 bs u l, s.launchOf s.myCore = some l → (s.reg a).toNat < s.mine.nranks →
      s.mine.ph ≠ 1#2 ∨ rankCore l (s.reg a).toNat = s.myCore → s.mine.retry.length < 16 →
      scalarPlace s s.cur .load (s.reg b) 64 64 = (.ok (.home h chk), s1) →
      Loads s1 (s.reg b) 64 bs u →
      ∃ t e, exec (.msend a b) s = .next t ∧ t.mine.retry = s.mine.retry ++ [e] ∧ e.bytes = bs ∧
        e.dst = rankCore l (s.reg a).toNat ∧ e.sender = s.mine.rank ∧ e.due = none ∧ e.tries = 0 ∧
        t.me.wait.map WaitRec.what = some (.msend e.id none) ∧ (∀ r, t.reg r = s.reg r)) ∧
    (∀ w id, s.me.wait = some w → w.what = .msend id (some true) → exec (.msend a b) s = .next (retire (.msend a b) s)) ∧
    (∀ w id, s.me.wait = some w → w.what = .msend id (some false) →
      exec (.msend a b) s = .next (takeTrap s s.cur 1 0x0E (s.reg a)))) ∧
  (∀ (d a : SReg) (s s1 s2 : State) (m : Msg) (r : List Msg) (h h' : Nat) (chk chk' : Option Chk),
    Ready (.mrecv d a) s → waitOver s = false →
    scalarPlace s s.cur .store (s.reg a) 64 64 = (.ok (.home h chk), s1) →
    let u := refreshAll (s1.modCore s1.myCore (fun c => { c with mbox := r })) s1.myDie
    scalarPlace u u.cur .store (s.reg a) 64 64 = (.ok (.home h' chk'), s2) →
    s.mine.mbox = m :: r → m.bytes.length = 64 → s.me.sbuf.length ≤ 8 →
    ∃ t es, exec (.mrecv d a) s = .next t ∧ t.mine.mbox = r ∧ (∀ q, q ≠ d → t.reg q = s.reg q) ∧ t.me.sbuf = s.me.sbuf ++ es ∧
      es.flatMap BufEntry.bytes = m.bytes ∧ (d ≠ 0#5 → t.reg d = BitVec.ofNat 64 (r.length * 65536 + m.sender))) ∧
  (∀ (d a : SReg) (s s1 : State) (h : Nat) (chk : Option Chk), Ready (.mrecv d a) s →
    scalarPlace s s.cur .store (s.reg a) 64 64 = (.ok (.home h chk), s1) →
    (waitOver s = true → exec (.mrecv d a) s = .next (takeTrap s1 s1.cur 1 0x08 (s.reg a))) ∧
    (s.mine.mbox = [] → s.me.wait = none →
      exec (.mrecv d a) s = .next (waitFor (.mrecv d a) .mailbox (s.me.fewait.toNat % 2 ^ 32) s1))) ∧
  (∀ (core id l : Nat) (s : State) (e : Retry), (s.core core).retry.find? (fun e => e.id == id) = some e →
    e.due = none → msgBehind (s.core core) e = false → (s.core core).launch = some l →
    let here := (s.core e.dst).launch = some l
    let away := fun p : Suspended => (s.core e.dst).launch ≠ some l ∧
      (s.cluster (clusterOfCore e.dst)).suspended.find? (fun x => x.launch == l) = some p
    let exited := fun p : Suspended => ∃ x ∈ p.cores, x.1 = e.dst ∧ x.2.ctlExited = true
    (here → beingSaved s l e.dst = false → (s.core e.dst).ctlExited = false → (s.core e.dst).mbox.length < 8 →
      (s.ctx (e.dst * 16)).it = false →
      (s.ctx (e.dst * 16)).mode ≠ .frozen →
      ∃ t, exec (.messageArrival core id) s = .next t ∧
        (t.core e.dst).mbox = (s.core e.dst).mbox ++ [{ bytes := e.bytes, sender := e.sender }] ∧
        (∀ x ∈ (t.core core).retry, x.id ≠ id) ∧
        ∀ w, (s.ctx e.ctx).wait = some w → w.what = .msend id none →
          (t.ctx e.ctx).wait = some { w with what := .msend id (some true) }) ∧
    ((here ∧ (s.core e.dst).ctlExited = true) ∨ (∃ p, away p ∧ exited p) ∨
        ((s.core e.dst).launch ≠ some l ∧
          (s.cluster (clusterOfCore e.dst)).suspended.find? (fun x => x.launch == l) = none) →
      ∃ t, exec (.messageArrival core id) s = .next t ∧
      (∀ x ∈ (t.core core).retry, x.id ≠ id) ∧
      ∀ w, (s.ctx e.ctx).wait = some w → w.what = .msend id none →
        (t.ctx e.ctx).wait = some { w with what := .msend id (some false) }) ∧
    ((here ∧ (s.core e.dst).ctlExited = false ∧ (beingSaved s l e.dst = true ∨ 8 ≤ (s.core e.dst).mbox.length ∨
          (s.ctx (e.dst * 16)).it = true ∨ (s.ctx (e.dst * 16)).mode = .frozen)) ∨ (∃ p, away p ∧ ¬ exited p) →
      ((s.ctx e.ctx).retrymax.toNat % 65536 = 0 ∨ e.tries + 1 < (s.ctx e.ctx).retrymax.toNat % 65536 →
        ∃ t, exec (.messageArrival core id) s = .next t ∧ (t.core e.dst).mbox = (s.core e.dst).mbox ∧
          (t.core core).retry.find? (fun e => e.id == id) = some { e with
            tries := e.tries + 1, backoff := min (e.backoff * 2) 65536, due := some (s.cycle + e.backoff) }) ∧
      ((s.ctx e.ctx).retrymax.toNat % 65536 ≠ 0 → (s.ctx e.ctx).retrymax.toNat % 65536 ≤ e.tries + 1 →
        ∃ t, exec (.messageArrival core id) s = .next t ∧ (t.core e.dst).mbox = (s.core e.dst).mbox ∧
          (∀ x ∈ (t.core core).retry, x.id ≠ id) ∧
          ∀ w, (s.ctx e.ctx).wait = some w → w.what = .msend id none →
            (t.ctx e.ctx).wait = some { w with what := .msend id (some false) }))) ∧
  (∀ (core id n : Nat) (s : State) (e : Retry), (s.core core).retry.find? (fun e => e.id == id) = some e →
    e.due = some n → n ≤ s.cycle → ∃ t, exec (.msendRetry core id) s = .next t ∧
      (t.core core).retry.find? (fun e => e.id == id) = some { e with due := none })

end

namespace Sys2Proof.Claims
open Sys2Proof Sys2Proof.Machine

/-! ## Rings, code handles and queues -/

/-- The entry of the table at `h` has been written (R314), and no other byte, store buffer or queue has
changed. -/
def EntryPut (s u : State) (h : Nat) (e : PEnt) : Prop :=
  memRead h 32 u.mem = PEnt.bytes e ∧ (∀ x, x < h ∨ h + 32 ≤ x → memGet x u.mem = memGet x s.mem) ∧
  u.me.sbuf = s.me.sbuf ∧ u.outq = s.outq

/-- A ring after its oldest filled slot has been claimed (R121): where an operation waits for release_head, the
oldest claimed slot is released at once. -/
def afterClaim (s : State) (cl n : Nat) (r : Ring) : Ring :=
  if releasers s cl n = [] then { r with nfil := r.nfil - 1, nclm := r.nclm + 1 }
  else { r with nfil := r.nfil - 1, ridx := r.ridx + 1, damaged := sdel r.ridx r.damaged }

/-- The memory a table entry of the residual pool takes (R314). -/
def entryAtHome (s : State) (h : Nat) : PEnt := PEnt.ofBytes (memRead h 32 s.mem)

/-- The table of queue control blocks does not meet [a, a + n). -/
abbrev offTable (s : State) (a n : Nat) : Prop := a + n ≤ s.qtbase.toNat ∨ s.qtbase.toNat + 64 * 4096 ≤ a

end Sys2Proof.Claims

section
open Sys2Proof Sys2Proof.Machine Sys2Proof.Claims

/-- R303 to R305: ENQ, RDONE and RELEASE_TIME_REACHED. ENQ appends the descriptor at s[a], read as four loads,
to the routine queue of rank s[b], if a group holds both, with the issuer's rank and the entry and registers
of its header, and writes 0; without such a group it writes 3, for a reserved bit of the descriptor 2. RDONE
without a routine left writes how many have run and goes on behind itself; otherwise the dispatcher takes
the released entry with the smallest deadline, the earliest of equals, and enters it with its argument in
s1, its deadline word in s2 and its sender in s3. -/
def Obligations.RoutineDispatch : Prop :=
  (∀ (d a b : SReg) (s : State) (w : List Byte), Ready (.enq d a b) s → Loading s (s.reg a) 32 w →
    LoadsOn (.enq d a b) s w) ∧
  (∀ (d a b : SReg) (s u : State) (bs : List Byte) (l : Launch), Ready (.enq d a b) s → Loads s (s.reg a) 32 bs u →
    s.launchOf s.myCore = some l → (s.reg b).toNat < s.mine.nranks →
    let shared := l.groups.any (fun g => g.members.contains s.mine.rank && g.members.contains (s.reg b).toNat)
    (shared = false → exec (.enq d a b) s = .next (retire (.enq d a b) (u.setReg d 3#64))) ∧
    (shared = true → leNat ((bs.drop 16).take 8) % 2 ^ 64 / 2 ^ 48 ≠ 0 ∨
        leNat ((bs.drop 24).take 8) % 2 ^ 64 / 2 ^ 48 % 2 ^ 15 ≠ 0 →
      exec (.enq d a b) s = .next (retire (.enq d a b) (u.setReg d 2#64)))) ∧
  (∀ (d a b : SReg) (s u u2 : State) (bs : List Byte) (l : Launch) (h : Nat) (c : Option Chk) (x : Header),
    Ready (.enq d a b) s → Loads s (s.reg a) 32 bs u →
    s.launchOf s.myCore = some l → (s.reg b).toNat < s.mine.nranks →
    let t := rankCore l (s.reg b).toNat
    let hdr := BitVec.ofNat 64 (leNat (bs.take 8))
    (s.core t).launch = some l.id → beingSaved s l.id t = false →
    l.groups.any (fun g => g.members.contains s.mine.rank && g.members.contains (s.reg b).toNat) = true →
    leNat ((bs.drop 16).take 8) % 2 ^ 64 / 2 ^ 48 = 0 → leNat ((bs.drop 24).take 8) % 2 ^ 64 / 2 ^ 48 % 2 ^ 15 = 0 →
    (s.core t).ctlExited = false → hdr.toNat % 64 = 0 → (s.core t).rq.length < 64 →
    locate u (.core t) t (s.core t).pasid .load hdr.toNat 64 = (.ok (.home h c), u2) → poisoned u2 h 64 = false →
    routineHeader (viewRead u2 (dieOfCore t) h 64) l.hdr.mode = some x →
    ∃ v e, exec (.enq d a b) s = .next v ∧ (d ≠ 0#5 → v.reg d = 0#64) ∧ (v.core t).rq = (s.core t).rq ++ [e] ∧
      e.hdr = hdr ∧ e.arg = BitVec.ofNat 64 (leNat ((bs.drop 8).take 8)) ∧
      e.dlWord = BitVec.ofNat 64 (leNat ((bs.drop 16).take 8)) ∧ e.rank = s.mine.rank ∧
      e.acc = (x.regs + 7) / 8 * 8 ∧ e.entry = x.entry) ∧
  (∀ (d : SReg) (s : State), Ready (.rdone d) s →
    (numOf s.cur ≠ 0 → exec (.rdone d) s = .next (takeTrap s s.cur 1 0x11 0#64)) ∧
    (numOf s.cur = 0 → s.me.disp = none → s.mine.rq = [] → ∃ t, exec (.rdone d) s = .next t ∧
      (d ≠ 0#5 → t.reg d = 0#64) ∧ t.me.pc = s.me.pc + 4#64 ∧ t.me.disp = none) ∧
    (∀ p, numOf s.cur = 0 → s.me.disp = some p → p.running = true → s.mine.rq = [] → p.late = false → p.tile = none →
      (((s.time.setWidth 48) - p.dl).toInt ≤ 0) → s.me.hstack.length ≤ p.places →
      ∃ t, exec (.rdone d) s = .next t ∧ (p.dreg ≠ 0#5 → t.reg p.dreg = BitVec.ofNat 64 (p.count + 1)) ∧
        t.me.pc = p.ret ∧ t.me.disp = none ∧ t.me.acc = 32) ∧
    (∀ e r, numOf s.cur = 0 → s.me.disp = none → chosen s.time s.mine.rq = some (e, r) →
      ∃ t p, exec (.rdone d) s = .next t ∧ t.me.pc = e.hdr + BitVec.ofNat 64 e.entry ∧ t.reg 1#5 = e.arg ∧
        t.reg 2#5 = e.dlWord ∧ t.reg 3#5 = BitVec.ofNat 64 e.rank ∧ t.me.acc = e.acc ∧ t.mine.rq = r ∧
        t.me.disp = some p ∧ p.running = true ∧ p.ret = s.me.pc + 4#64 ∧ p.dreg = d)) ∧
  (∀ (time : DWord) (q r : List Rtn) (e : Rtn), chosen time q = some (e, r) →
    e.released time = true ∧ ∃ q1 q2, q = q1 ++ e :: q2 ∧ r = q1 ++ q2 ∧
      (∀ x ∈ q1, x.released time = true → (e.dl - time.setWidth 48).toInt < (x.dl - time.setWidth 48).toInt) ∧
      ∀ x ∈ q2, x.released time = true → (e.dl - time.setWidth 48).toInt ≤ (x.dl - time.setWidth 48).toInt) ∧
  (∀ (core : Nat) (s : State) (w : WaitRec) (p : Disp) (e : Rtn) (r : List Rtn),
    (s.ctx (core * 16)).wait = some w → w.what = .dispatch → (s.ctx (core * 16)).disp = some p →
    chosen s.time (s.core core).rq = some (e, r) →
    ∃ t, exec (.releaseTimeReached core) s = .next t ∧ (t.ctx (core * 16)).wait = none ∧
      (t.ctx (core * 16)).pc = e.hdr + BitVec.ofNat 64 e.entry ∧ (t.core core).rq = r)

/-- R306, R310, R311, R345, R346: SLEEPTO, SLEEPTO_WAKE, GRAB and PREEMPT. SLEEPTO retires once TIME is not
before s[a] as a signed 48-bit difference, and waits before; the wake retires it. GRAB takes the next grant
of a range counter and writes its start and length. PREEMPT writes NONE when no request is for the launch or
inside a handler, waits at the point otherwise, and then writes the point's result. -/
def Obligations.TimeRangesAndPoints : Prop :=
  (∀ (a : SReg) (s : State), Ready (.sleepto a) s →
    (0 ≤ ((s.time.setWidth 48) - ((s.reg a).setWidth 48)).toInt →
      exec (.sleepto a) s = .next (retire (.sleepto a) s)) ∧
    (((s.time.setWidth 48) - ((s.reg a).setWidth 48)).toInt < 0 → s.me.wait = none →
      exec (.sleepto a) s = .next (waitFor (.sleepto a) .time 0 s))) ∧
  (∀ (core ctx : Nat) (a : SReg) (s : State) (w : WaitRec),
    let k := core * 16 + ctx
    (s.ctx k).wait = some w → w.what = .time → w.instr = .sleepto a →
    0 ≤ ((s.time.setWidth 48) - (((s.ctx k).reg a).setWidth 48)).toInt → (s.ctx k).loops = [] → (s.ctx k).rep = none →
    ∃ t, exec (.sleeptoWake core ctx) s = .next t ∧ (t.ctx k).wait = none ∧ (t.ctx k).pc = (s.ctx k).pc + 4#64 ∧
      t.cur = s.cur) ∧
  (∀ (d a : SReg) (s : State) (l : Launch) (c : RangeCtr), Ready (.grab d a) s → (s.reg a).toNat ≤ 15 →
    s.launchOf s.myCore = some l → (s.die l.leader).healthy = true → l.ranges[(s.reg a).toNat]? = some c →
    ∃ t m, exec (.grab d a) s = .next t ∧
      (d ≠ 0#5 → t.reg d = BitVec.ofNat 64 (c.next * 2 ^ 24 + grantOf c)) ∧ t.launch? l.id = some m ∧
      m.ranges[(s.reg a).toNat]? = some { c with next := c.next + grantOf c } ∧
      ∀ j, j ≠ (s.reg a).toNat → m.ranges[j]? = l.ranges[j]?) ∧
  (∀ (d a : SReg) (live : BitVec 48) (s : State), Ready (.preempt d a live) s →
    (∀ i, i < 32 → i ≠ 0 → live.getLsbD i = true → i < s.me.acc) → (s.reg a).toNat % 64 = 0 →
    let asked := ∃ p, (s.cluster (clusterOfCore s.myCore)).preq = some p ∧ s.mine.launch = some p.launch
    (s.me.wait = none → ¬ asked ∨ s.me.it = true →
      exec (.preempt d a live) s = .next (retire (.preempt d a live) (s.setReg d 0#64))) ∧
    (s.me.wait = none → asked → s.me.it = false → ∃ t, exec (.preempt d a live) s = .next t ∧
      t.me.wait.map WaitRec.what = some (.point none) ∧
      (t.cluster (clusterOfCore s.myCore)).gather = some ((s.cluster (clusterOfCore s.myCore)).gather.getD s.cycle)) ∧
    (∀ w r, s.me.wait = some w → w.what = .point (some r) → exec (.preempt d a live) s =
      .next (retire (.preempt d a live) ((if r = 1#2 then refreshAll s s.myDie else s).setReg d (r.setWidth 64)))))

/-- R119 to R123, R125 to R128, R266: rings. RGINIT makes an empty ring of the handle's base, slots and slot
size: a plain store to the ring table, which acts when it leaves the store buffer and which the context's own
ring instructions see. RGWAIT claims the oldest filled slot as an acquire and writes its address, with the
damage mark in bit 63, and waits while none is filled; RGREL releases the oldest claimed slot after its
stores; RGSTAT writes the counts. An engine's step reserves a free slot, fills it in order, or claims the
oldest filled one. An operation that must release a slot of a ring with none claimed waits, and the next claim
serves the one that has waited longest. -/
def Obligations.Rings : Prop :=
  (∀ (d : SReg) (h : HReg) (s0 : State), Ready (.rginit d h) s0 → hReason (s0.hreg h) true [2] = 0 →
    let v := s0.hreg h
    let s := settleRing s0 s0.cur (hRnum v)
    ring? s s.myCluster (hRnum v) = none → s.me.sbuf.length < 16 →
    ∃ t e r, exec (.rginit d h) s0 = .next t ∧ (d ≠ 0#5 → t.reg d = 0#64) ∧ t.me.sbuf = s.me.sbuf ++ [e] ∧
      e.ring = some (hRnum v, r) ∧ r.base = BitVec.ofNat 64 (hBase v) ∧ r.owner = s.mine.launch.getD 0 ∧
      r.slots = hSlots v ∧ r.slotsz = hSlotsz v ∧ r.nfil = 0 ∧ r.nclm = 0 ∧ r.nrsv = 0 ∧ r.ridx = 0) ∧
  (∀ (k n : Nat) (s : State) (e : BufEntry) (es : List BufEntry) (r : Ring), (s.ctx k).sbuf = e :: es →
    e.ring = some (n, r) → ring? (drainHead s k) (clusterOfCore (coreOf k)) n = some r ∧
      ((drainHead s k).ctx k).sbuf = es ∧ SameMemory s (drainHead s k)) ∧
  (∀ (d a : SReg) (s0 : State) (r : Ring), (s0.reg a).toNat ≤ 31 →
    let s := settleRing s0 s0.cur (s0.reg a).toNat
    ring? s s.myCluster (s.reg a).toNat = some r → some r.owner = s.mine.launch →
    (Ready (.rgwait d a) s0 → s0.me.wait = none → 0 < r.nfil → claimBehind s s.myCluster (s.reg a).toNat s.stamp = false →
      ∃ t, exec (.rgwait d a) s0 = .next t ∧ (d ≠ 0#5 → t.reg d = BitVec.ofNat 64
          (r.base.toNat + (r.ridx + r.nclm) % r.slots * r.slotsz * 64 +
            (if smem (r.ridx + r.nclm) r.damaged then 2 ^ 63 else 0))) ∧
        ring? t s.myCluster (s.reg a).toNat = some (afterClaim s s.myCluster (s.reg a).toNat r) ∧
        ∀ v ∈ t.views, v.die ≠ s.myDie) ∧
    (Ready (.rgwait d a) s0 → waitOver s0 = true →
      exec (.rgwait d a) s0 = .next (takeTrap s s.cur 1 0x08 (s0.reg a))) ∧
    (Ready (.rgwait d a) s0 → s0.me.wait = none → r.nfil = 0 → exec (.rgwait d a) s0 =
      .next (waitFor (.rgwait d a) (.ring (s.reg a).toNat) (s.me.fewait.toNat % 2 ^ 32) s)) ∧
    (Ready (.rgrel a) s0 → ring? (drainAll s0 s0.cur) s.myCluster (s.reg a).toNat = some r → 0 < r.nclm →
      ∃ t, exec (.rgrel a) s0 = .next t ∧ t.me.sbuf = [] ∧ ring? t s.myCluster (s.reg a).toNat =
        some { r with nclm := r.nclm - 1, ridx := r.ridx + 1, damaged := sdel r.ridx r.damaged }) ∧
    (Ready (.rgstat d a) s0 → exec (.rgstat d a) s0 = .next (retire (.rgstat d a) (s.setReg d (BitVec.ofNat 64
      (r.nrsv * 2 ^ 48 + r.nfil * 2 ^ 32 + r.nclm * 65536 + r.ridx % r.slots)))))) ∧
  (∀ (id n : Nat) (s : State) (o : Op) (r : Ring), s.op? id = some o → ring? s (clusterOfCore o.core) n = some r →
    (o.want = some (0, n) → r.nclm + r.nfil + r.nrsv < r.slots → askedBehind s o = false →
      ∃ t p, exec (.reserveSlot id) s = .next t ∧
        ring? t (clusterOfCore o.core) n = some { r with nrsv := r.nrsv + 1 } ∧ t.op? id = some p ∧ p.want = none ∧
        p.slotC = some (r.ridx + r.nclm + r.nfil + r.nrsv)) ∧
    (o.want = some (1, n) → o.slotC = some (r.ridx + r.nclm + r.nfil) → 0 < r.nrsv → r.filled = [] →
      ∃ t p, exec (.fillSlot id) s = .next t ∧
        ring? t (clusterOfCore o.core) n = some { r with nrsv := r.nrsv - 1, nfil := r.nfil + 1 } ∧
        t.op? id = some p ∧ p.want = none ∧ p.slotC = none ∧ ∀ e ∈ t.outq, e.src ≠ dieOfCore o.core) ∧
    (∀ act, o.want = some (act, n) → act = 2 ∨ act = 3 → 0 < r.nfil → claimBehind s (clusterOfCore o.core) n o.seq = false →
      smem (r.ridx + r.nclm) r.damaged = false →
      ∃ t p, exec (.claimHead id) s = .next t ∧
        ring? t (clusterOfCore o.core) n = some (afterClaim s (clusterOfCore o.core) n r) ∧
        (∀ x, s.op? x.id = some x → x ∈ releasers s (clusterOfCore o.core) n →
          (∀ y ∈ releasers s (clusterOfCore o.core) n, y ≠ x → x.seq < y.seq) → t.op? x.id = some (released x)) ∧
        t.op? id = some p ∧ p.want = none ∧
        (if act = 2 then p.slotA = some (r.ridx + r.nclm) else p.slotB = some (r.ridx + r.nclm))))

/-- R184, R315 to R317, R329 to R332: code handles. CALLH pins a LIVE entry: its PINS is one more, before the
older stores leave; it keeps the handle on the context's stack of eight, jumps to the entry's base and links, or
with d = s0 ends the loop levels it leaves. RETH releases the pin of the handle it takes off the stack: PINS is
one less (an entry that is RETIRING is freed with its last pin, R317), or the policy core is told that the pool
cannot be used; it ends the levels it leaves and jumps to its target, once no page walk is waited for (R64). HACQ adds a reference and writes the count, HREL takes one away, HINFO writes length, pins, kind and
state. -/
def Obligations.CodeHandles : Prop :=
  ∀ (d a : SReg) (s : State),
    (∀ p h e s1 s2, Ready (.callh a d) s → chOk (s.reg a) = true → s.me.hstack.length < 8 → myPool s = (.ok p, s1) →
      chIdx (s.reg a) < p.nent → poolEntry s1 (coreActor s1 s1.myCore) p (chIdx (s.reg a)) = (.ok (h, e), s2) →
      e.gen = chGen (s.reg a) → e.state = 1 →
      ∃ t, exec (.callh a d) s = .next t ∧ t.me.pc = BitVec.ofNat 64 e.base ∧ t.me.hstack = s.reg a :: s.me.hstack ∧
        (memWf s2.mem = true → isHome h = true → ∃ u, EntryPut s2 u h { e with pins := e.pins + 1 } ∧
          t.mem = (drainAll u u.cur).mem) ∧
        (d ≠ 0#5 → t.reg d = s.me.pc + 4#64 ∧ t.me.loops = s.me.loops) ∧
        (d = 0#5 → LevelsLeft s.me.pc t.me.pc s.me.loops t.me.loops) ∧ (∀ r, r ≠ d → t.reg r = s.reg r) ∧
        t.me.sbuf = [] ∧ t.me.fetchOld = [] ∧ ∀ v ∈ t.views, v.die ≠ s.myDie) ∧
    (∀ v r, Ready (.reth a) s → (s.reg a).toNat % 4 = 0 → s.me.hstack = v :: r →
      ((unpin false s s.cur v).1 = false → exec (.reth a) s = .next (unpin false s s.cur v).2) ∧
      ((unpin false s s.cur v).1 = true →
        ∃ t, exec (.reth a) s = .next t ∧ t.me.pc = s.reg a ∧ t.me.hstack = r ∧ (∀ r, t.reg r = s.reg r) ∧
          LevelsLeft s.me.pc (s.reg a) s.me.loops t.me.loops) ∧
      (∀ p h e s1 s2, myPool s = (.ok p, s1) → chIdx v < p.nent →
        poolEntry s1 (coreActor s s.myCore) p (chIdx v) = (.ok (h, e), s2) → 0 < e.pins →
        (e.state ≠ 2 ∨ 1 < e.pins) → memWf s2.mem = true → isHome h = true →
        ∃ t, exec (.reth a) s = .next t ∧ t.me.pc = s.reg a ∧ t.me.hstack = r ∧ (∀ r, t.reg r = s.reg r) ∧
          LevelsLeft s.me.pc (s.reg a) s.me.loops t.me.loops ∧ EntryPut s2 t h { e with pins := e.pins - 1 }) ∧
      (∀ e s1, myPool s = (.error e, s1) → e ≠ .later → e ≠ .poison →
        ∃ t, exec (.reth a) s = .next t ∧ t.me.pc = s.reg a ∧ t.me.hstack = r ∧ (∀ r, t.reg r = s.reg r) ∧
          t.mem = s1.mem ∧ t.reports = s1.reports ++ [.unusable v s.mine.rcbase])) ∧
    (Ready (.reth a) s → (s.reg a).toNat % 4 ≠ 0 → exec (.reth a) s = .next (takeTrap s s.cur 1 0x03 (s.reg a))) ∧
    (Ready (.reth a) s → (s.reg a).toNat % 4 = 0 → s.me.hstack = [] →
      exec (.reth a) s = .next (takeTrap s s.cur 1 0x0A 0#64)) ∧
    (∀ p h e u, Ready (.hacq d a) s → handleEntry (releaseModule s s.cur) (s.reg a) = (.ok (p, h, e), u) →
      e.state = 1 → e.refs < 2 ^ 32 - 1 → memWf u.mem = true → isHome h = true →
      ∃ t, exec (.hacq d a) s = .next t ∧ (d ≠ 0#5 → t.reg d = BitVec.ofNat 64 ((e.refs + 1) * 256)) ∧
        memRead h 32 t.mem = PEnt.bytes { e with refs := e.refs + 1 }) ∧
    (∀ p h e u, Ready (.hrel d a) s → handleEntry (releaseModule s s.cur) (s.reg a) = (.ok (p, h, e), u) →
      e.state = 1 → 1 < e.refs → memWf u.mem = true → isHome h = true →
      (poolEntry u (coreActor u u.myCore) p (chIdx (s.reg a))).1 = .ok (h, e) →
      ∃ t, exec (.hrel d a) s = .next t ∧ (d ≠ 0#5 → t.reg d = BitVec.ofNat 64 ((e.refs - 1) * 256)) ∧
        memRead h 32 t.mem = PEnt.bytes { e with refs := e.refs - 1 }) ∧
    (∀ p h e u, Ready (.hinfo d a) s → handleEntry s (s.reg a) = (.ok (p, h, e), u) →
      exec (.hinfo d a) s = .next (retire (.hinfo d a) (u.setReg d (BitVec.ofNat 64
        (e.length * 2 ^ 32 + min e.pins 65535 * 65536 + e.kind % 2 * 1024 + e.state * 256)))))

/-- R95, R97, R278, R281, R309: QSUB, QSTAT, BIND and UNBIND. QSUB of a packet to an ACTIVE queue with room
moves its TAIL by one and writes 0; to a full one it writes 4 and to a parked one 6; its 64 bytes are eight
loads, one a step. QSTAT writes STATE and how many packets stand in the ring; of a poisoned bucket that a
lookup meets the policy core is told (R75). BIND gives a free sluice window of the die to the two handles;
UNBIND takes it back, once the line reads that the window has accepted have been served, and tells whether a
read was out of bounds. -/
def Obligations.QueueAndWindowInstructions : Prop :=
  (∀ (d a b : SReg) (s : State) (w : List Byte), Ready (.qsub d a b) s → operandKey s (s.reg b) ≠ none →
    (s.me.wait = none ∨ ∃ r, s.me.wait = some r ∧ r.what = .words (wordsGot s)) → Loading s (s.reg a) 64 w →
    LoadsOn (.qsub d a b) s w) ∧
  (∀ (d a b : SReg) (s u : State) (bs : List Byte) (key n : Nat), Ready (.qsub d a b) s →
    operandKey s (s.reg b) = some key → Loads s (s.reg a) 64 bs u → qbucket u key = some n →
    let q := bucketQcb u n
    (∀ h, q.state ≠ 1 → (q.tail + 65536 - q.head) % 65536 ≠ q.size →
      ioStore u (keyPasid key) (q.ring + 64 * (q.tail % q.size)) = some h → isHome h = true → offTable u h 64 →
      bs.length = 64 → memWf u.mem = true → isHome (bucketAddr u n + 22) = true →
      ∃ t, exec (.qsub d a b) s = .next t ∧ (d ≠ 0#5 → t.reg d = 0#64) ∧
        memRead (bucketAddr u n + 22) 2 t.mem = leBytes 2 (q.tail + 1)) ∧
    (q.state ≠ 1 → (q.tail + 65536 - q.head) % 65536 = q.size →
      exec (.qsub d a b) s = .next (retire (.qsub d a b) ((tellLookup u key).setReg d 4#64))) ∧
    (q.state = 1 → heldCount u < 64 → ∃ t h, exec (.qsub d a b) s = .next t ∧ (d ≠ 0#5 → t.reg d = 6#64) ∧
      t.held = u.held ++ [h] ∧ h.key = key ∧ h.packet = bs)) ∧
  (∀ (d a : SReg) (s : State) (key n : Nat), Ready (.qstat d a) s → s.me.wait = none →
    operandKey s (s.reg a) = some key → qbucket s key = some n →
    exec (.qstat d a) s = .next (retire (.qstat d a) ((tellLookup s key).setReg d (BitVec.ofNat 64 ((bucketQcb s n).state * 2 ^ 40 +
      ((bucketQcb s n).tail + 65536 - (bucketQcb s n).head) % 65536))))) ∧
  (∀ (d a : SReg) (h : HReg) (s : State), Ready (.bind d a h) s → bindReason (s.hreg h) (hFmt (s.hreg h) == 8) = 0 →
    bindReason (s.hreg (h + 1#4)) ([2, 4, 8].contains (esize (hFmt (s.hreg (h + 1#4))))) = 0 →
    (63 < (s.reg a).toNat → exec (.bind d a h) s = .next (retire (.bind d a h) (s.setReg d 2#64))) ∧
    ((s.reg a).toNat ≤ 63 → tfind (s.reg a).toNat (s.die s.myDie).windows = none →
      ∃ t w, exec (.bind d a h) s = .next t ∧ (d ≠ 0#5 → t.reg d = 0#64) ∧
        tfind (s.reg a).toNat (t.die s.myDie).windows = some w ∧ w.index = s.hreg h ∧ w.base = s.hreg (h + 1#4) ∧
        w.pasid = s.mine.pasid ∧ w.oob = false) ∧
    ((s.reg a).toNat ≤ 63 → tfind (s.reg a).toNat (s.die s.myDie).windows ≠ none →
      exec (.bind d a h) s = .next (retire (.bind d a h) (s.setReg d 1#64)))) ∧
  (∀ (d a : SReg) (s : State) (w : Window), Ready (.unbind d a) s →
    tfind (s.reg a).toNat (s.die s.myDie).windows = some w → w.pasid = s.mine.pasid →
    ((∀ l ∈ w.lines, lineOpen s l = false) →
      ∃ t, exec (.unbind d a) s = .next t ∧ (d ≠ 0#5 → t.reg d = if w.oob then 1#64 else 0#64) ∧
        (t.die s.myDie).windows = terase (s.reg a).toNat (s.die s.myDie).windows) ∧
    ((∃ l ∈ w.lines, lineOpen s l = true) → exec (.unbind d a) s = .next s))

end

namespace Sys2Proof.Claims
open Sys2Proof Sys2Proof.Machine

/-! ## Engines and the ordering machine, by themselves -/

/-- The end that an abort of a match gives its members (R259): FAULTED with cause 0x46 and the culprit. A
release_head that a member waits for is still due (R121). -/
def abortEnd (o : Op) (culprit : Nat) : Op :=
  { o with fin := some { st := .faulted, cause := 0x46, addr := 0, member := culprit, progress := o.prog },
           want := o.want.filter (fun a => decide (4 ≤ a.1)) }

/-- Whether an operation is a member of a match that has no end yet. -/
abbrev Open (o : Op) (launch group matchNo : Nat) : Prop :=
  opClass o.instr = 5 ∧ o.launch = launch ∧ o.group = group ∧ o.matchNo = matchNo ∧ o.st.final = false ∧ o.fin = none

end Sys2Proof.Claims

section
open Sys2Proof Sys2Proof.Machine Sys2Proof.Claims

/-- R138, R227, R266, R270: what starts. An engine with a place starts the head it has chosen: of the
highest priority with a ready head, the first list from the pointer on; the start refreshes the views of the
die, with REL the issuer's store buffer empties first, and the pointer moves past the list. The vector unit
gives a free lane group the next strip of the first core from its pointer on that has one, which keeps its
turn until its VSHARE weight is used up. -/
def Obligations.EngineStarts : Prop :=
  (∀ (e : EngineId) (s : State) (p : Nat) (l : List Op) (o : Op), engExists s e = true →
    placeFree s (engCls e) (engNum e) = true → topHeads s (engCls e) (engNum e) = some (p, l) →
    firstFrom (tget (rrOf s (engCls e) (engNum e)) p 0) l = some o → s.op? o.id = some o →
    ∃ t q, exec (.engineStart e) s = .next t ∧ t.op? o.id = some q ∧ q.st = .running ∧ q.place = true ∧
      tget (rrOf t (engCls e) (engNum e)) p 0 = listKey o + 1 ∧ (∀ v ∈ t.views, v.die ≠ q.die) ∧
      (o.rel = true → o.parent = none → (t.ctx o.ctx).sbuf = [] ∧ ∀ x ∈ t.outq, x.src ≠ dieOfCore (coreOf o.ctx)) ∧
      (o.rel = false → ∀ id, id ≠ o.id → t.op? id = s.op? id)) ∧
  (∀ (s : State) (cls u p : Nat) (l : List Op), topHeads s cls u = some (p, l) →
    p ≤ 3 ∧ l = readyHeads s cls u p ∧ l ≠ [] ∧ ∀ r, p < r → r ≤ 3 → readyHeads s cls u r = []) ∧
  (∀ (n : Nat) (l : List Op) (o : Op), firstFrom n l = some o → o ∈ l ∧
    ((n ≤ listKey o ∧ ∀ x ∈ l, n ≤ listKey x → listKey o ≤ listKey x) ∨
      ((∀ x ∈ l, listKey x < n) ∧ ∀ x ∈ l, listKey o ≤ listKey x))) ∧
  (∀ (cl j : Nat) (s : State) (o : Op), cl < 8 * s.ndies → lanesBusy s cl < 8 → (s.cluster cl).cvuPtr < 8 → j < 8 →
    let at_ (i : Nat) : Nat := ((s.cluster cl).cvuPtr + i) % 8
    let left := tget (s.cluster cl).cvuDef (at_ j) 0
    let weight := max ((s.core (cl * 8 + at_ j)).vshare.toNat % 16) 1
    (∀ i, i < j → dispatchable s (cl * 8 + at_ i) = none) → dispatchable s (cl * 8 + at_ j) = some o →
    s.op? o.id = some o →
    ∃ t q, exec (.stripDispatch cl) s = .next t ∧ t.op? o.id = some q ∧ q.st = .running ∧
      q.pos = [o.pos.getD 0 0 + 1] ∧ q.scr = o.scr ++ [o.pos.getD 0 0] ∧
      tget (t.cluster cl).cvuDef (at_ j) 0 = (if left = 0 then weight else left) - 1 ∧
      (t.cluster cl).cvuPtr = if (if left = 0 then weight else left) = 1 then (at_ j + 1) % 8 else at_ j)

/-- R134, R136, R152, R258, R259, R269: what engines do while they run and when they end. A step of a running
operation takes up its next write, which is performed at a home of its own die and queued for another, and
counts it in PROGRESS; a matrix unit and a collective take up those into one granule together (the step is the
model's, log 27). A cancelled copy ends at the 64-byte boundary of its PROGRESS. An operation whose end is
decided and whose writes are done releases the slots it has claimed, waiting for a claimed one, and becomes
final with that end and the TIME, its record kept, or freed where it was silent and DONE; a final one whose
record is to be posted is freed; of a job-fatal launch none becomes final or is posted. A collective's
timeout, counted from its start (log 33), ends it with 0x47 and the lowest missing member; an abort ends every
open member of the match with 0x46 and the culprit, and one that is issued later too, of the launches that live
when it comes (log 33, log 45); an ABORT of class 0 ends the operation whose frame it answers with 0x41, and
what that frame and its later ones carry is no progress of it (log 37). -/
def Obligations.EngineSteps : Prop :=
  (∀ (id k : Nat) (s : State) (o : Op) (w : EngWrite) (r : List EngWrite), s.op? id = some o → o.st = .running →
    o.vec = false → o.cancel = false → o.pend = w :: r → r.takeWhile (mates o w) = [] → w.home < 2 ^ 60 →
    (homeDie w.home = o.die → chkOk s o.pasid w.chk = true) →
    ∃ t q, exec (.engineStep id k) s = .next t ∧ t.op? id = some q ∧ q.pend = r ∧ q.prog = o.prog + w.cnt ∧
      (homeDie w.home ≠ o.die → t.mem = s.mem ∧ ∃ e, t.outq = s.outq ++ [e] ∧ e.src = o.die ∧
        e.dst = homeDie w.home ∧ e.home = w.home ∧ e.bytes = w.bytes) ∧
      (homeDie w.home = o.die → isHome w.home = true → memWf s.mem = true →
        t.outq = s.outq ∧ memRead w.home w.bytes.length t.mem = w.bytes)) ∧
  (∀ (id k : Nat) (s : State) (o : Op) (w : EngWrite) (r : List EngWrite), s.op? id = some o → o.st = .running →
    o.vec = false → o.cancel = false → o.pend = w :: r →
    let now := w :: r.takeWhile (mates o w)
    (∀ x ∈ now, x.home < 2 ^ 60 ∧ homeDie x.home ≠ o.die) →
    ∃ t q es, exec (.engineStep id k) s = .next t ∧ t.op? id = some q ∧ q.pend = r.drop (now.length - 1) ∧
      q.prog = o.prog + (now.map EngWrite.cnt).sum ∧ t.mem = s.mem ∧ t.outq = s.outq ++ es ∧
      es.map QEntry.home = now.map EngWrite.home ∧ es.map QEntry.bytes = now.map EngWrite.bytes) ∧
  (∀ (id k : Nat) (s : State) (o : Op), s.op? id = some o → o.st = .running → o.vec = false →
    opClass o.instr = 1 → o.cancel = true → o.pend ≠ [] → (∀ w, o.pend.head? = some w → w.cnt ≠ 0) → hFmt o.hC ≠ 9 → (o.cancelAt + 63) / 64 * 64 ≤ o.prog →
    ∃ t q, exec (.engineStep id k) s = .next t ∧ t.op? id = some q ∧ q.pend = [] ∧ t.mem = s.mem ∧
      q.fin = some { st := .cancelled, cause := 0x45, addr := 0, member := 0xFFFF, progress := o.prog }) ∧
  (∀ (id : Nat) (s : State) (o : Op) (f : Final), s.op? id = some o → o.st.final = false → o.fin = some f →
    f.st.final = true → o.pend = [] → framesOut s id = false → o.parent = none → o.vec = false →
    (performAll s o.die).op? id = some o → o.slotA = none → o.slotB = none →
    launchDead (performAll s o.die) o.launch = false →
    ∃ t, exec (.operationCompletion id) s = .next t ∧
      (f.st = .done → (s.core o.core).trcctl = 0#64 → ∀ x ∈ t.outq, x.src ≠ o.die) ∧
      (if o.noTok = true ∧ f.st = .done ∧ o.attached = true then t.op? id = none
       else ∃ q, t.op? id = some q ∧ q.st = f.st ∧ q.cause = (if f.st = .done then 0 else f.cause) ∧
        q.addr = f.addr ∧ q.member = f.member ∧ q.time = s.time ∧ q.waits = [] ∧ q.inSlot = false ∧
        q.prog = if opClass o.instr = 5 then o.prog else f.progress)) ∧
  (∀ (id n : Nat) (s : State) (o : Op) (r : Ring), s.op? id = some o → o.st.final = false → o.fin.isSome = true →
    o.pend = [] → framesOut s id = false → o.parent = none → (performAll s o.die).op? id = some o →
    launchDead (performAll s o.die) o.launch = false → o.slotA.isSome = true → n = hRnum o.hA →
    o.want ≠ some (4, n) → ring? (performAll s o.die) (clusterOfCore o.core) n = some r →
    ∃ t q, exec (.operationCompletion id) s = .next t ∧ t.op? id = some q ∧ q.st = o.st ∧ q.fin = o.fin ∧
      (0 < r.nclm → q.slotA = none ∧ q.want = none ∧ ring? t (clusterOfCore o.core) n =
        some { r with nclm := r.nclm - 1, ridx := r.ridx + 1, damaged := sdel r.ridx r.damaged }) ∧
      (r.nclm = 0 → q.slotA = o.slotA ∧ q.want = some (4, n) ∧ q.place = false ∧
        ring? t (clusterOfCore o.core) n = some r)) ∧
  (∀ (id : Nat) (s : State) (o : Op), s.op? id = some o → launchDead s o.launch = true →
    (o.st.final = true → exec (.operationCompletion id) s = .next s) ∧
    (o.st.final = false → ∃ t, exec (.operationCompletion id) s = .next t ∧
      ∀ q, t.op? id = some q → q.st = o.st)) ∧
  (∀ (id core : Nat) (s u : State) (o : Op), s.op? id = some o → o.st.final = true → o.postTo = some core →
    launchDead s o.launch = false → postEvent s o.launch core (faultRec o) = some u →
    ∃ t, exec (.operationCompletion id) s = .next t ∧ t.op? id = none) ∧
  (∀ (id m : Nat) (ms : List Nat) (s : State) (o : Op), s.op? id = some o → opClass o.instr = 5 → o.st = .running →
    o.zv.toNat % 2 ^ 32 ≠ 0 → o.since + 1800 * (o.zv.toNat % 2 ^ 32) ≤ s.cycle → missingParts s o = m :: ms →
    o.fin = none → ∃ t q n, exec (.collectiveTimeout id) s = .next t ∧ t.op? id = some q ∧ n ∈ m :: ms ∧
      (∀ x ∈ m :: ms, n ≤ x) ∧
      q.fin = some { st := .faulted, cause := 0x47, addr := 0, member := n, progress := o.prog }) ∧
  (∀ (n : Nat) (s : State) (a : CollAbort), s.aborts[n]? = some a → a.cause = 0x46 → a.frame = none →
    ∃ t, exec (.abort (.here n)) s = .next t ∧ (∀ id o, s.op? id = some o → Open o a.launch a.group a.matchNo →
        t.op? id = some (abortEnd o a.culprit)) ∧
      ∀ id o, s.op? id = some o → (opClass o.instr ≠ 5 ∨ o.launch ≠ a.launch ∨ o.group ≠ a.group ∨
        o.matchNo ≠ a.matchNo ∨ o.st.final = true) → t.op? id = some o) ∧
  (∀ (bs : List Byte) (s : State), frameOk s bs 3 = true → frameNum bs 1 1 ≠ 0 →
    ∃ t, exec (.abort (.frame bs)) s = .next t ∧ (∀ a ∈ s.aborts, a ∈ t.aborts) ∧
      (∀ l ∈ s.launches, l.pasid = frameNum bs 16 4 → ∃ a ∈ t.aborts, a.launch = l.id ∧
        a.frame = some (frameNum bs 16 4, frameNum bs 24 8) ∧ a.culprit = Config.abortCulprit (framePayload bs)) ∧
      ∀ id o, s.op? id = some o → Open o o.launch o.group o.matchNo → o.pasid = frameNum bs 16 4 →
        o.matchId = frameNum bs 24 8 → t.op? id = some (abortEnd o (Config.abortCulprit (framePayload bs)))) ∧
  (∀ (s : State) (o : Op) (n : Nat) (a : CollAbort), s.aborts.find? (abortOf o) = some a →
    collUnit s o n = .fault s a.cause 0 a.culprit o.prog) ∧
  (∀ (bs : List Byte) (s : State) (c : Channel) (f : Frame) (o : Op), frameOk s bs 3 = true → frameNum bs 1 1 = 0 →
    channel? s (frameNum bs 4 2) 0 = some c → c.unacked.find? (fun x => x.seq == frameNum bs 8 4) = some f →
    s.op? f.op = some o → o.st.final = false → o.fin = none →
    ∃ t q, exec (.abort (.frame bs)) s = .next t ∧ t.op? f.op = some q ∧ q.pend = [] ∧
      q.fin = some { st := .faulted, cause := 0x41, addr := f.va, member := 0xFFFF, progress := o.prog -
        (((c.unacked.dropWhile (fun x => x.seq != frameNum bs 8 4)).filter (fun x => x.op == f.op)).map Frame.count).sum })

/-- R64, R68, R109, R262, R267: the ordering machine's own actions. DRAIN lets the head of a store buffer
leave, a release after every entry of its die's queues; PERFORM performs the head of one queue at its home,
and an operation whose write fails the check of R55 there ends FAULTED (R73); REFRESH makes one granule of a
view current; PAGE_WALK begins a walk, or queues it behind 128 in flight, or ends one, whose result is cached
unless an invalidation matched it, when it is kept for an access that waits for it; FE_TIMEOUT traps a wait
past its limit with 0x08. -/
def Obligations.OrderingEvents : Prop :=
  (∀ (core ctx : Nat) (s : State) (e : BufEntry) (r : List BufEntry), core < s.ndies * 64 → ctx ≤ 10 →
    (s.ctx (core * 16 + ctx)).sbuf = e :: r → e.rel = false → e.ring = none →
    ∃ t, exec (.drain core ctx) s = .next t ∧ (t.ctx (core * 16 + ctx)).sbuf = r ∧
      (∀ k, k ≠ core * 16 + ctx → t.ctx k = s.ctx k) ∧
      (homeDie e.home ≠ dieOfCore core → t.mem = s.mem ∧ ∃ x, t.outq = s.outq ++ [x] ∧ x.src = dieOfCore core ∧
        x.dst = homeDie e.home ∧ x.home = e.home ∧ x.bytes = e.bytes) ∧
      (homeDie e.home = dieOfCore core → chkOk s (s.core core).pasid e.chk = true → isHome e.home = true →
        memWf s.mem = true → t.outq = s.outq ∧ memRead e.home e.bytes.length t.mem = e.bytes ∧
        (e.full = true → t.isFull e.home = true))) ∧
  (∀ (core ctx : Nat) (s : State) (e : BufEntry) (r : List BufEntry), core < s.ndies * 64 → ctx ≤ 10 →
    (s.ctx (core * 16 + ctx)).sbuf = e :: r → e.rel = true → e.ring = none →
    ∃ t, exec (.drain core ctx) s = .next t ∧ (t.ctx (core * 16 + ctx)).sbuf = r ∧
      (homeDie e.home ≠ dieOfCore core → ∃ q x, t.outq = q ++ [x] ∧ (∀ y ∈ q, y.src ≠ dieOfCore core) ∧
        x.home = e.home ∧ x.bytes = e.bytes) ∧
      (homeDie e.home = dieOfCore core → ∀ x ∈ t.outq, x.src ≠ dieOfCore core)) ∧
  (∀ (src dst : Nat) (s : State) (e : QEntry) (r : List QEntry),
    takeFirst (fun x : QEntry => x.src == src && x.dst == dst) s.outq = some (e, r) →
    (∀ x, r.find? (fun x => x.src == src && x.dst == dst) = some x → x.joined = false) → e.amo = none →
    ∃ t, exec (.perform src dst) s = .next t ∧
      (chkOk s e.pasid e.chk = false → t.mem = s.mem ∧ t.full = s.full ∧ (e.op = none → t.outq = r) ∧
        ∀ w o, e.op = some w → s.op? w.1 = some o → o.st.final = false → o.fin = none → ∃ q, t.op? w.1 = some q ∧
          q.pend = [] ∧ q.fin = some { st := .faulted, cause := 0x41, addr := w.2.1, member := 0xFFFF,
                                       progress := w.2.2.1 }) ∧
      (chkOk s e.pasid e.chk = true → isHome e.home = false → t.mem = s.mem ∧ t.outq = r ∧
        t.pcieOut = s.pcieOut ++
          [{ addr := e.home, bytes := e.bytes, prefix_ := if s.pasidCap then some e.pasid else none }]) ∧
      (chkOk s e.pasid e.chk = true → isHome e.home = true → memWf s.mem = true →
        t.outq = r ∧ memRead e.home e.bytes.length t.mem = e.bytes)) ∧
  (∀ (die g : Nat) (s : State), ∃ t, exec (.refresh die g) s = .next t ∧ ({ t with views := s.views } : State) = s ∧
    (∀ v, v ∈ t.views ↔ v ∈ s.views ∧ ¬ (v.die = die ∧ v.granule = g))) ∧
  (∀ (core pasid va : Nat) (s : State), core < s.ndies * 64 →
    let d := s.die (dieOfCore core)
    let mine := fun w : WalkEnt => w.pasid == pasid && w.va / 2 ^ 19 == va / 2 ^ 19
    (takeFirst mine d.walks = none → d.walkq.any mine = false → inWindows va = false → va < 2 ^ 56 →
      tlbFind d.tlb pasid va = none →
      ∃ t w, exec (.pageWalk core pasid va) s = .next t ∧ w.pasid = pasid ∧ w.va = va ∧ w.stale = false ∧
        (d.walks.length < 128 → (t.die (dieOfCore core)).walks = d.walks ++ [w]) ∧
        (128 ≤ d.walks.length → (t.die (dieOfCore core)).walks = d.walks ∧
          (t.die (dieOfCore core)).walkq = d.walkq ++ [w])) ∧
    (∀ w r, takeFirst mine d.walks = some (w, r) → ∃ t, exec (.pageWalk core pasid va) s = .next t ∧
      (w.stale = true → (t.die (dieOfCore core)).walks = r ++ d.walkq.take 1 ∧
        (t.die (dieOfCore core)).walkq = d.walkq.drop 1 ∧ t.cores = s.cores ∧ t.clusters = s.clusters ∧
        (t.die (dieOfCore core)).tlb = d.tlb ∧
        (w.want = true → ∃ x ∈ (t.die (dieOfCore w.core)).walked, x.covers w.pasid w.va = true)) ∧
      ∀ e u, w.stale = false →
        translateNow (s.modDie (dieOfCore core) (fun x =>
          { x with walks := r ++ x.walkq.take 1, walkq := x.walkq.drop 1 })) w.level w.pasid w.va = (.ok e, u) →
        t = u)) ∧
  (∀ (core ctx : Nat) (s : State) (w : WaitRec) (v : DWord), core < s.ndies * 64 → ctx ≤ 10 →
    (s.ctx (core * 16 + ctx)).wait = some w → feVal s (core * 16 + ctx) w = some v →
    (w.limit ≠ 0 → w.since + w.limit < s.cycle →
      exec (.feTimeout core ctx) s = .next (takeTrap s (core * 16 + ctx) w.instr.len 0x08 v)) ∧
    (w.limit = 0 ∨ s.cycle ≤ w.since + w.limit → exec (.feTimeout core ctx) s = .next s))

end

namespace Sys2Proof.Claims
open Sys2Proof Sys2Proof.Machine

/-! ## Queues and the host port -/

/-- The key of a queue (R279): PASID, QNUM and GEN from the low bits up. -/
def keyOf (pasid qnum gen : Nat) : Nat := pasid % 2 ^ 20 + qnum % 4096 * 2 ^ 20 + gen % 65536 * 2 ^ 32

/-- Nothing of KICK waits: no kick is unserved and no lookup of one holds the next (R356). -/
abbrev NoKickWaits (s : State) : Prop := s.kicks = [] ∧ ∀ h ∈ s.held, h.blocked = false

/-- KICKSTAT after one more kick is served with a status (R356). -/
def Served (s t : State) (status : BitVec 8) : Prop :=
  t.kickSeq = s.kickSeq + 1#32 ∧ t.kickStatus = status ∧ t.kicks = []

/-- A context waits in a lookup of the policy core, and no answer has come (R279). -/
def AwaitsLookup (s : State) (k id : Nat) : Prop := ∃ w, (s.ctx k).wait = some w ∧ w.what = .lookup id none

/-- A context has the answer of its lookup. -/
def HasAnswer (s : State) (k id : Nat) (v : DWord) : Prop :=
  ∃ w, (s.ctx k).wait = some w ∧ w.what = .lookup id (some v)

/-- The home that a physical aperture gives an offset of BAR2 (R70). -/
def apertureHome (base : DWord) (x : Nat) : Nat := base.toNat / 2 ^ 31 % 2 ^ 25 * 2 ^ 31 + x % 2 ^ 31

/-- An aperture that is enabled and physical, on a module that serves BAR2 (R70). -/
def PhysicalAperture (s : State) (x : Nat) (base : DWord) : Prop :=
  s.power = true ∧ s.stopped = false ∧ s.released = true ∧ (s.reclaimState = 0#3 ∨ s.reclaimState = 4#3) ∧
  s.aptBase.toList[x / 2 ^ 31]? = some base ∧
  ∃ c, s.aptCtl.toList[x / 2 ^ 31]? = some c ∧ c.getLsbD 31 = true ∧ c.getLsbD 30 = false

/-- A context waits in a load of a host or peer page, for the request of a number (R69). -/
def AwaitsBytes (s : State) (k id : Nat) (got : List Byte) (w : WaitRec) : Prop :=
  (s.ctx k).wait = some w ∧ w.what = .pcie id got true

/-- Register writes and reads of BAR0 (R355 to R357, R377, R415). -/
def HostRegisters : Prop :=
  (∀ (n : Nat) (v : DWord) (s : State), s.power = true → s.stopped = false →
    let u := svcFlush s 0
    exec (.registerWrite 0x18 8 v) s =
      .next { u with qtbase := v &&& 0x1FFFFFC0000#64, setUp := sins 0x18 u.setUp } ∧
    exec (.registerWrite 0x20 8 v) s =
      .next { u with pdirbase := v &&& 0x1FFFFFFF000#64, setUp := sins 0x20 u.setUp } ∧
    exec (.registerWrite 0x28 8 v) s = .next { u with
      pdircount := BitVec.ofNat 64 (min (v.toNat % 2 ^ 21) (2 ^ 20)), setUp := sins 0x28 u.setUp } ∧
    exec (.registerWrite 0x40 8 v) s = .next { u with invaddr := v &&& 0xFFFFFFFFF80000#64 } ∧
    (n < 32 → ∃ t, exec (.registerWrite (0x1000 + 16 * n) 8 v) s = .next t ∧
      t.aptBase.toList[n]? = some (v &&& 0xFFFFFF80000000#64) ∧ ({ t with aptBase := u.aptBase } : State) = u) ∧
    (n < 32 → ∃ t, exec (.registerWrite (0x1008 + 16 * n) 8 v) s = .next t ∧
      t.aptCtl.toList[n]? = some ((v.setWidth 32) &&& 0xC00FFFFF#32) ∧ ({ t with aptCtl := u.aptCtl } : State) = u) ∧
    (n < 128 → ∃ t, exec (.registerWrite (0x30000 + 8 * n) 8 v) s = .next t ∧ tget t.msixTab n 0#64 = v ∧
      ({ t with msixTab := u.msixTab, msixPend := u.msixPend, pcieOut := u.pcieOut } : State) = u ∧
      (n % 2 = 1 → n / 2 ∈ u.msixPend → v.toNat.testBit 32 = false → t.pcieOut.length = u.pcieOut.length + 1)) ∧
    (n < s.ndies * 64 → n < 4096 → featureOpen u 1 = true → v.getLsbD 2 = false →
      ∃ t, exec (.registerWrite (0x100000 + 512 * n) 8 v) s = .next t ∧
        (t.core n).dbgctl.getLsbD 0 = v.getLsbD 0 ∧ (t.core n).dbgctl.getLsbD 1 = (u.core n).dbgctl.getLsbD 1) ∧
    (∀ off w, off % 4 = 0 → exec (.registerWrite off 4 w) s = .next (bar0Set u (off / 8 * 8)
      (if off % 8 = 0 then bar0Get u (off / 8 * 8) / 2 ^ 32 * 2 ^ 32 + w.toNat % 2 ^ 32
       else w.toNat % 2 ^ 32 * 2 ^ 32 + bar0Get u (off / 8 * 8) % 2 ^ 32))) ∧
    (∀ off, (n ≠ 4 ∧ n ≠ 8) ∨ off % n ≠ 0 → exec (.registerWrite off n v) s = .next u)) ∧
  (∀ (off n : Nat) (s : State), s.power = true → s.stopped = false →
    let u := svcFlush s 0
    let reads (bs : List Byte) : Prop := runAct (.bar0Read off n) s = { u with bar2Out := u.bar2Out ++ [.data bs] }
    (off / 8 ≠ 1 ∨ NoKickWaits s →
      (n = 8 → off % 8 = 0 → reads (leBytes 8 (bar0Get u off))) ∧
      (n = 4 → off % 4 = 0 → reads (leBytes 4 (bar0Get u (off / 8 * 8) / 2 ^ (8 * (off % 8))))) ∧
      ((n ≠ 4 ∧ n ≠ 8) ∨ off % n ≠ 0 → reads (leBytes n 0))) ∧
    (off / 8 = 1 → ¬ NoKickWaits s → runAct (.bar0Read off n) s = s))

/-- Requests through the apertures of BAR2 (R70, R275, R354). -/
def HostRequests : Prop :=
  (∀ (x : Nat) (tag : Option Nat) (bs : List Byte) (s : State) (base : DWord), PhysicalAperture s x base →
    x % 8 = 0 → bs.length = 8 →
    let h := apertureHome base x
    (h < 2 ^ 41 →
      (∃ t q b, exec (.bar2Read x 8 tag) s = .next t ∧ t.svcq = s.svcq ++ [q] ∧ q.svc = svcOf h ∧ q.home = h ∧
        q.len = 8 ∧ q.read = some b.id ∧ q.part = 0 ∧ q.chk = none ∧ t.barReads = s.barReads ++ [b] ∧ b.parts = 1 ∧
        b.got = [] ∧ b.bad = none ∧ t.bar2Out = s.bar2Out ∧ t.mem = s.mem) ∧
      ∃ t q, exec (.bar2Write x bs tag) s = .next t ∧ t.svcq = s.svcq ++ [q] ∧ q.svc = svcOf h ∧ q.home = h ∧
        q.bytes = bs ∧ q.read = none ∧ q.chk = none ∧ ({ t with svcq := s.svcq } : State) = s) ∧
    (2 ^ 41 ≤ h →
      let told (t : State) : Prop := t.reports = s.reports ++ [.barFault h] ∧ t.msix = s.msix ++ [1] ∧ t.svcq = s.svcq
      (∃ t, exec (.bar2Read x 8 tag) s = .next t ∧ told t ∧ t.bar2Out = s.bar2Out ++ [.abort]) ∧
      ∃ t, exec (.bar2Write x bs tag) s = .next t ∧ told t ∧ t.bar2Out = s.bar2Out)) ∧
  (∀ (x n : Nat) (tag : Option Nat) (bs : List Byte) (s : State), s.power = true → s.stopped = false →
    ((∀ c, s.aptCtl.toList[x / 2 ^ 31]? = some c → c.getLsbD 31 = false) ∨ reclaiming s = true ∨ s.released = false ∨
      (∃ c t, s.aptCtl.toList[x / 2 ^ 31]? = some c ∧ c.getLsbD 30 = true ∧ tag = some t ∧ t ≠ c.toNat % 2 ^ 20)) →
    exec (.bar2Read x n tag) s = .next { aerLog s 20 with bar2Out := s.bar2Out ++ [.unsupported] } ∧
    exec (.bar2Write x bs tag) s = .next (aerLog s 20)) ∧
  (∀ s : State, s.power = true → s.stopped = false →
    runAct .atomicOp s = { aerLog s 20 with bar2Out := s.bar2Out ++ [.unsupported] })

/-- What service cores do (R70, R275): the oldest piece of a core is performed at its home, and a read is
answered when its last piece has come. -/
def ServiceCores : Prop :=
  (∀ (v : Nat) (s : State) (q : SvcReq) (r : List SvcReq), takeFirst (fun x : SvcReq => x.svc == v) s.svcq = some (q, r) →
    chkOk s q.pasid q.chk = true →
    let t := runAct (.service v) s
    t.svcq = r ∧
    (q.read = none → isHome q.home = true → memWf s.mem = true → memRead q.home q.bytes.length t.mem = q.bytes) ∧
    ∀ id b, q.read = some id → poisoned s q.home q.len = false → s.barReads.find? (fun x => x.id == id) = some b →
      t.mem = s.mem ∧ t.barReads.find? (fun x => x.id == id) =
        some { b with got := tset q.part (memRead q.home q.len s.mem) b.got }) ∧
  (∀ (id : Nat) (s : State) (b : BarRead), s.barReads.find? (fun x => x.id == id) = some b →
    let u : State := { s with barReads := s.barReads.filter (fun x => x.id != id) }
    (b.got.length ≠ b.parts → runAct (.barAnswer id) s = s) ∧
    (b.got.length = b.parts → b.bad = none →
      runAct (.barAnswer id) s = { u with bar2Out := s.bar2Out ++ [.data (b.got.flatMap Prod.snd)] }) ∧
    ∀ a, b.got.length = b.parts → b.bad = some a →
      let t := runAct (.barAnswer id) s
      t.bar2Out = s.bar2Out ++ [.abort] ∧ t.reports = s.reports ++ [.barFault a] ∧ t.msix = s.msix ++ [1] ∧
        t.mem = s.mem)

end Sys2Proof.Claims

section
open Sys2Proof Sys2Proof.Machine Sys2Proof.Claims

/-- R278 to R281, R356, R374, R385: KICK, KICKSTAT_READ, LOOKUP_ANSWER and QCB_CHANGE. A kick moves TAIL of
its queue, or is held for a PARKED one, or turned away, and KICKSTAT counts it with its status; one that comes
during a reclaim, or before the host has set up the tables, finds no queue. A lookup's answer reaches the
context that waits, packets of one queue in their order. A created queue has its 64 bytes in a bucket; PARK,
REINSTATE and DESTROY write STATE and the key. -/
def Obligations.QueueEvents : Prop :=
  (∀ (v : DWord) (s : State), s.power = true → s.stopped = false → NoKickWaits s →
    let u := svcDrain s
    let tail := v.toNat / 2 ^ 48
    let key := v.toNat % 2 ^ 48
    (reclaiming s = true ∨ tablesSet s = false → ∃ t, exec (.kick v) s = .next t ∧ Served s t 2#8 ∧ t.mem = u.mem) ∧
    (∀ n, reclaiming s = false → tablesSet s = true → qbucket u key = some n →
      let q := bucketQcb u n
      let ahead := (tail + 65536 - q.head) % 65536
      (q.state = 1 → heldCount s < 64 → ∃ t h, exec (.kick v) s = .next t ∧ Served s t 6#8 ∧
        t.held = s.held ++ [h] ∧ h.key = key ∧ h.tail = tail ∧ h.kind = .kick) ∧
      (q.state = 1 → 64 ≤ heldCount s → ∃ t, exec (.kick v) s = .next t ∧ Served s t 3#8 ∧ t.held = s.held) ∧
      (q.state ≠ 1 → ahead ≤ q.size → (q.tail + 65536 - q.head) % 65536 ≤ ahead → memWf u.mem = true →
        isHome (bucketAddr u n + 22) = true → ∃ t, exec (.kick v) s = .next t ∧ Served s t 0#8 ∧
          memRead (bucketAddr u n + 22) 2 t.mem = leBytes 2 tail) ∧
      (q.state ≠ 1 → q.size < ahead ∨ ahead < (q.tail + 65536 - q.head) % 65536 →
        ∃ t, exec (.kick v) s = .next t ∧ Served s t 5#8 ∧ t.mem = u.mem))) ∧
  (∀ (s : State), s.power = true → s.stopped = false → NoKickWaits s →
    exec .kickstatRead s = .next { s with bar2Out := s.bar2Out ++
      [.data (leBytes 8 (s.kickSeq.toNat * 2 ^ 32 + s.kickStatus.toNat))] }) ∧
  (∀ (s : State), ¬ NoKickWaits s → exec .kickstatRead s = .next s) ∧
  (∀ (id : Nat) (s : State) (h : Held) (r : List Held), s.holder = .firmware →
    takeFirst (fun x : Held => x.id == id && x.asked) s.held = some (h, r) → s.kicks = [] → askedBefore s h = false →
    (∀ k q, h.kind = .qstat → h.src = some k → AwaitsLookup s k h.id → qcb? s h.key = some q →
      ∃ t, exec (.lookupAnswer id) s = .next t ∧ t.held = r ∧
        HasAnswer t k h.id (BitVec.ofNat 64 (q.state * 2 ^ 40 + (q.tail + 65536 - q.head) % 65536))) ∧
    (∀ k, h.src = some k → AwaitsLookup s k h.id → qcb? s h.key = none →
      let live := ∃ p ∈ s.liveGen, p.1 = keyPasid h.key ∧ p.2.1 = keyQnum h.key
      ∃ t code, exec (.lookupAnswer id) s = .next t ∧ t.held = r ∧ (live → code = 1) ∧ (¬ live → code = 2) ∧
        HasAnswer t k h.id (if h.kind = .qstat then BitVec.ofNat 64 (code * 2 ^ 32) else BitVec.ofNat 64 code)) ∧
    (∀ k q, h.kind = .qsub → h.src = some k → AwaitsLookup s k h.id → qcb? s h.key = some q → q.state = 1 →
      heldCount { s with held := r } < 64 → ∃ t x, exec (.lookupAnswer id) s = .next t ∧ t.held = r ++ [x] ∧ x.key = h.key ∧
        x.packet = h.packet ∧ HasAnswer t k h.id 6#64) ∧
    (h.kind = .qsub → h.src = none → h.blocked = false → qcb? s h.key = none →
      exec (.lookupAnswer id) s = .next { s with held := r, reports := s.reports ++ [.dropped h.key h.tail] })) ∧
  (∀ (id : Nat) (s : State) (h : Held) (a b : List Held), s.holder = .firmware → s.held = a ++ h :: b → h.id = id →
    h.asked = true → h.kind ≠ .qstat → (∀ x ∈ a, x.id ≠ id) →
    (∃ x ∈ a, x.key = h.key ∧ x.asked = true ∧ x.kind ≠ .qstat) → exec (.lookupAnswer id) s = .next s) ∧
  (∀ (p q g : Nat) (s : State), s.holder = .firmware →
    let key := keyOf p q g
    (∀ ring size st, createOk s p q g ring size = true →
      (∀ b, freeBucket s key = some b → memWf s.mem = true → isHome (bucketAddr s b) = true →
        ∃ t, exec (.qcbChange (.create p q g ring size st)) s = .next t ∧ t.liveGen = s.liveGen ++ [(p, q, g)] ∧
          memRead (bucketAddr s b) 64 t.mem = leBytes 8 (2 ^ 63 + key) ++ leBytes 8 ring ++ leBytes 4 size ++
            leBytes 4 0 ++ leBytes 8 0 ++ leBytes 8 st ++ leBytes 24 0) ∧
      (freeBucket s key = none → ∃ t o, exec (.qcbChange (.create p q g ring size st)) s = .next t ∧
        t.overflow = s.overflow ++ [o] ∧ o.key = key ∧ o.size = size ∧ o.head = 0 ∧ o.tail = 0 ∧ o.state = 0)) ∧
    (∀ b, qbucket s key = some b → memWf s.mem = true → isHome (bucketAddr s b) = true →
      isHome (bucketAddr s b + 24) = true → (∀ h ∈ s.held, h.key ≠ key) →
      (∃ t, exec (.qcbChange (.park p q g)) s = .next t ∧ memRead (bucketAddr s b + 24) 1 t.mem = [1#8] ∧
        (∀ a, a ≠ bucketAddr s b + 24 → memGet a t.mem = memGet a s.mem)) ∧
      (∃ t, exec (.qcbChange (.reinstate p q g)) s = .next t ∧ memRead (bucketAddr s b + 24) 1 t.mem = [0#8] ∧
        key ∉ t.hgStopped ∧ ∀ a, a ≠ bucketAddr s b + 24 → memGet a t.mem = memGet a s.mem) ∧
      (∃ t, exec (.qcbChange (.destroy p q g)) s = .next t ∧ memRead (bucketAddr s b) 8 t.mem = leBytes 8 (2 ^ 62) ∧
        (keyPasid key, keyQnum key, keyGen key) ∉ t.liveGen ∧ key ∉ t.hgStopped)) ∧
    (∀ o, qbucket s key = none → overflow? s key = some o →
      ∃ t, exec (.qcbChange (.park p q g)) s = .next t ∧ overflow? t key = some { o with state := 1 } ∧ t.mem = s.mem))

/-- R69, R70, R275, R354 to R357, R377, R415: the host port. A register write of 8 bytes changes the RW fields
of the register its map gives and nothing else of BAR0, and a read returns the register. A request through a
physical aperture is accepted by the service core of its home, which performs it in its turn at the home; a
read whose pieces have come is answered with them. A request that no aperture serves, or an AtomicOp, is
unsupported, and a posted write is dropped; one beyond HBM is a Completer Abort that the policy core is told
of. (The bits that AER logs and the layout of the MSI-X table are PRESUMED from PCI Express, log 35.) A
completion gives a waiting load its bytes, and a failed one traps it with 0x04. DBGCTL takes STOP and GO. -/
def Obligations.HostPort : Prop :=
  HostRegisters ∧ HostRequests ∧ ServiceCores ∧
  (∀ (id : Nat) (s : State) (q : PcieRead), s.pcieReads.find? (fun x => x.id == id) = some q →
    let u : State := { s with pcieReads := s.pcieReads.filter (fun x => x.id != q.id) }
    (∀ k got w bs, q.owner = .ctx k → AwaitsBytes s k q.id got w → bs.length = q.size →
      ∃ t x, exec (.pcieCompletion id (some bs)) s = .next t ∧ (t.ctx k).wait = some x ∧
        x.what = .pcie q.id (got ++ bs) false ∧ x.instr = w.instr ∧ t.pcieReads = u.pcieReads) ∧
    (∀ k got w, q.owner = .ctx k → AwaitsBytes s k q.id got w →
      exec (.pcieCompletion id none) s = .next (takeTrap u k w.instr.len 0x04 q.va) ∧
      exec (.completionTimeout id) s = .next (takeTrap (aerLog u 14) k w.instr.len 0x04 q.va)) ∧
    ((∀ k, q.owner ≠ .ctx k) → ownerWaits u q.owner = true →
      (∀ bs : List Byte, bs.length = q.size → exec (.pcieCompletion id (some bs)) s = .next
        { u with ioGot := s.ioGot ++ [{ owner := q.owner, addr := q.addr, bytes := some bs }] }) ∧
      exec (.completionTimeout id) s = .next { aerLog u 14 with
        ioGot := s.ioGot ++ [{ owner := q.owner, addr := q.addr, bytes := none }] })) ∧
  (∀ (core : Nat) (s : State), core < s.ndies * 64 → s.power = true → s.stopped = false →
    (featureOpen s 1 = true →
      (∃ t, exec (.dbgStop core) s = .next t ∧ (t.core core).dbgctl.getLsbD 0 = true ∧
        (t.core core).dbgctl.getLsbD 1 = (s.core core).dbgctl.getLsbD 1 ∧ ∀ c, c ≠ core → t.core c = s.core c) ∧
      (∃ t, exec (.dbgGo core) s = .next t ∧ (t.core core).dbgctl = 0#64 ∧ ∀ c, c ≠ core → t.core c = s.core c)) ∧
    (featureOpen s 1 = false → exec (.dbgStop core) s = .next s ∧ exec (.dbgGo core) s = .next s))

/-- R67, R68, R275, R276: service drains and invalidations. GO of SVCDRAIN raises BUSY; the completion
performs every accepted host write, drops BUSY and counts each GO in DONE. GO of INVCMD of a kind starts an
invalidation of the page, PASID or everything, after a service drain, and the walks in flight will not be
cached; a GO while BUSY is ignored. Once those walks and the reads on the link have ended it completes: no TLB
entry that it matches is left, of switched-out cores too, every store buffer, near engine write and outbound
entry translated under one is performed, and BUSY falls. -/
def Obligations.DrainsAndInvalidations : Prop :=
  (∀ s : State, s.power = true → s.stopped = false → ∃ t, exec .serviceDrain s = .next t ∧ t.svcBusy = true ∧
    t.svcGo = s.svcGo + 1 ∧ t.svcDone = s.svcDone) ∧
  (∀ s : State, s.svcBusy = true → ∃ t, exec .serviceDrainComplete s = .next t ∧ t.svcBusy = false ∧ t.svcq = [] ∧
    t.svcDone = s.svcDone + BitVec.ofNat 32 s.svcGo ∧
    (∀ w, s.svcq = [w] → w.read = none → chkOk s w.pasid w.chk = true → isHome w.home = true → memWf s.mem = true →
      memRead w.home w.bytes.length t.mem = w.bytes)) ∧
  (∀ (v : Word) (s : State), s.power = true → s.stopped = false → v.getLsbD 31 = true →
    (∀ k, k < 3 → v.toNat / 2 ^ 28 % 4 = k → s.inval = none →
      ∃ t i, exec (if k = 0 then .invalidatePage v else if k = 1 then .invalidatePasid v else .invalidateAll v) s = .next t ∧
        t.inval = some i ∧ i.kind = k ∧ i.pasid = v.toNat % 2 ^ 20 ∧
        i.va = (s.invaddr &&& 0xFFFFFFFFF80000#64).toNat ∧ t.invcmd = v &&& 0x300FFFFF#32 ∧ t.svcq = [] ∧
        ∀ d, ∀ w ∈ (t.die d).walks, w.stale = true) ∧
    (s.inval ≠ none → exec (.invalidatePage v) s = .next s ∧ exec (.invalidatePasid v) s = .next s ∧
      exec (.invalidateAll v) s = .next s)) ∧
  (∀ (s : State) (i : Inval), s.inval = some i → (∀ p ∈ s.dies, ∀ w ∈ p.2.walks, w.stale = false) →
    (∀ r ∈ s.pcieReads, i.kind ≠ 2 ∧ r.pasid ≠ i.pasid) →
    ∃ t, exec .invalidationComplete s = .next t ∧ t.inval = none ∧ t.outq = [] ∧ t.svcq = [] ∧
      (∀ c, ∀ p ∈ (t.cluster c).suspended, ∀ x ∈ p.cores, ∀ e ∈ x.2.utlb, i.hits e.pasid e.va e.size = false) ∧
      (∀ c, ∀ e ∈ (t.core c).utlb, i.hits e.pasid e.va e.size = false) ∧
      (∀ c, ∀ e ∈ (t.cluster c).tlb, i.hits e.pasid e.va e.size = false) ∧
      (∀ d, (∀ e ∈ (t.die d).tlb, i.hits e.pasid e.va e.size = false) ∧ ∀ p ∈ (t.die d).ptrs, i.hitsPtr p = false) ∧
      (∀ k, i.kind = 2 ∨ s.pasidOf k = i.pasid → (t.ctx k).sbuf = []) ∧
      (∀ id o, t.op? id = some o → i.kind = 2 ∨ o.pasid = i.pasid → ∀ w ∈ o.pend, 2 ^ 60 ≤ w.home)) ∧
  (∀ (i : Inval) (pasid va size : Nat),
    (i.kind = 0 → (i.hits pasid va size = true ↔ pasid = i.pasid ∧ va / 2 ^ size = i.va / 2 ^ size)) ∧
    (i.kind = 1 → (i.hits pasid va size = true ↔ pasid = i.pasid)) ∧ (2 ≤ i.kind → i.hits pasid va size = true))

end

namespace Sys2Proof.Claims
open Sys2Proof Sys2Proof.Machine

/-! ## The Headgate and launches -/

/-- The head packet in turn is of a kind and can start; `u` is the state after its read (R282). -/
abbrev HeadIs (s : State) (kind : Nat) (h : Head) (u : State) : Prop :=
  s.power = true ∧ s.released = true ∧ reclaiming s = false ∧ pickHead s (roundRobin s) = (some h, u) ∧
  h.fault = none ∧ h.kind = kind

/-- HEAD of the packet's queue stands in bucket `b`, in memory of the module (R278). -/
abbrev HeadStored (u : State) (h : Head) (b : Nat) : Prop :=
  qbucket u h.key = some b ∧ memWf u.mem = true ∧ isHome (bucketAddr u b + 20) = true

/-- HEAD after the packet: one more than before, in the queue's bucket (R278, R282). -/
def HeadMoved (u t : State) (h : Head) (b : Nat) : Prop :=
  t.hgNext = h.place + 1 ∧ memRead (bucketAddr u b + 20) 2 t.mem = leBytes 2 (h.q.head + 1)

/-- Every byte but those of HEAD in bucket `b` reads as before. -/
def OnlyHead (u t : State) (b : Nat) : Prop :=
  ∀ a, a < bucketAddr u b + 20 ∨ bucketAddr u b + 22 ≤ a → memGet a t.mem = memGet a u.mem

/-- What holds of the state once a record of a kind, with AUX and the packet's ring index, has been posted
to the packet's status queue (R284), where the queue's HEAD is still stored as before. -/
def Recorded (u : State) (h : Head) (b kind aux : Nat) (p : State → Prop) : Prop :=
  let v := postStatus u h.key 96 kind 0xFFFF aux (BitVec.ofNat 64 h.q.head) 0#64
  HeadStored v h b → p v

/-- Bytes of a packet as a number. -/
def pkt (h : Head) (o n : Nat) : Nat := leNat ((h.bs.drop o).take n)

/-- The stagger of a core (R382): 32 (r + c) + 16 cluster + 2 core, for the die in row r and column c. -/
def staggerOf (core : Nat) : Nat :=
  32 * (core / 64 / 8 + core / 64 % 8) + 16 * (core / 8 % 8) + 2 * (core % 8)

end Sys2Proof.Claims

section
open Sys2Proof Sys2Proof.Machine Sys2Proof.Claims

/-- R144, R282, R283, R286, R307: packets and posted records. A NOP, a fence whose earlier packets are
complete, and a bad packet, which gets a record, move HEAD by one; SIGNAL stores its value first, or is
refused; a LAUNCH whose rectangle is empty or does not fit is refused for it, whatever else is wrong, and claims
nothing (log 21: R286 gives the refusals no order); a RECORDS packet from QSUB
opens an expansion of its members. A record posted to a queue with room stands in its slot and moves TAIL;
one to a full queue counts in DROPPED. -/
def Obligations.HeadgatePackets : Prop :=
  (∀ (s u : State) (h : Head) (b : Nat), HeadStored u h b →
    (HeadIs s 0 h u → ∃ t, exec .nop s = .next t ∧ HeadMoved u t h b ∧ OnlyHead s t b) ∧
    (HeadIs s 3 h u → ∃ t, exec .fencePacket s = .next t ∧ HeadMoved u t h b ∧ (∀ p ∈ s.packets, p.key ≠ h.key) ∧
      OnlyHead s t b) ∧
    (HeadIs s 9 h u → Recorded u h b 5 0 (fun v => ∃ t, exec .badpkt s = .next t ∧ HeadMoved v t h b ∧ OnlyHead v t b)) ∧
    (HeadIs s 4 h u →
      (∀ a, pkt h 8 8 % 8 = 0 → inWindows (pkt h 8 8) = false → ioStore u (keyPasid h.key) (pkt h 8 8) = some a →
        isHome a = true → u.qtbase.toNat + 2 ^ 18 ≤ a ∨ a + 8 ≤ u.qtbase.toNat → h.bs.length = 64 →
        ∃ t, exec .signal s = .next t ∧ HeadMoved u t h b ∧ memRead a 8 t.mem = (h.bs.drop 16).take 8) ∧
      (pkt h 8 8 % 8 ≠ 0 ∨ inWindows (pkt h 8 8) = true ∨ ioStore u (keyPasid h.key) (pkt h 8 8) = none →
        Recorded u h b 4 4 (fun v => ∃ t, exec .signal s = .next t ∧ HeadMoved v t h b ∧ OnlyHead v t b))) ∧
    (HeadIs s 1 h u → (pkt h 20 2 = 0 ∨ pkt h 22 2 = 0 ∨ s.ndies < pkt h 16 2 + pkt h 20 2 ∨ 64 < pkt h 18 2 + pkt h 22 2) →
      Recorded u h b 4 3 (fun v => ∃ t, exec .launch s = .next t ∧ HeadMoved v t h b ∧ OnlyHead v t b ∧
        t.launches = s.launches ∧ t.cores = s.cores ∧ t.packets = s.packets)) ∧
    (∀ f g l, HeadIs s 2 h u → u.fromQsub.find? (fun x => x.key == h.key && x.ringIdx == h.q.head) = some f →
      recordsBad h.bs = false → u.launch? f.launch = some l → l.group? (pkt h 1 1) = some g → g.xmod = false →
      ∃ t e, exec .records s = .next t ∧ HeadMoved u t h b ∧ t.expands = s.expands ++ [e] ∧ e.key = h.key ∧
        e.launch = f.launch ∧ e.members = g.members ∧ e.nrec = pkt h 4 4 ∧ e.rank = f.rank ∧ e.record = 0 ∧
        e.total = 0 ∧ e.finished = false)) ∧
  (∀ (s s1 s2 : State) (lv : TlbLevel) (launch : Option Nat) (core pasid die base h : Nat) (rec_ : List Byte), base ≠ 0 →
    rec_.length = 32 → (∀ p ∈ s.posts, p.isTo core pasid base = false) →
    queueHome s lv launch core pasid base 64 = (.ok (h, false), s1) → (∀ e ∈ s.outq, e.src ≠ die) →
    memWf s.mem = true → isHome h = true → h % 64 = 0 →
    let get (o : Nat) : Nat := leNat (((viewRead s1 die h 16).drop o).take 4)
    let cap := get 8
    (∃ n, n ≤ 16 ∧ cap = 2 ^ n) →
    (∀ r k, (get 4 + 2 ^ 32 - get 0) % 2 ^ 32 < cap →
      queueHome s1 lv launch core pasid (base + 64 + 32 * (get 4 % cap)) 32 = (.ok (r, k), s2) → isHome r = true →
      r % 32 = 0 → r + 32 ≤ h ∨ h + 64 ≤ r →
      ∃ t, postQueue s lv launch core pasid die base rec_ = (true, t) ∧ memRead r 32 t.mem = rec_ ∧
        viewRead t die (h + 4) 4 = leBytes 4 (get 4 + 1)) ∧
    (cap ≤ (get 4 + 2 ^ 32 - get 0) % 2 ^ 32 → ∃ t, postQueue s lv launch core pasid die base rec_ = (true, t) ∧
      viewRead t die (h + 12) 4 = leBytes 4 (min (get 12 + 1) (2 ^ 32 - 1))))

/-- R106, R146, R285 to R288, R307, R308, R382: a launch's life. A LAUNCH packet that passes its checks
claims its rectangle: each core gets its rank, its image at the top of a zeroed TCM, a control context at
ENTRY with ARG in s1 and the image's address in s2, and ten free helpers. The gang is released, and each
control context starts once its stagger has passed. When every rank has ended and no operation is left, CVAL
goes to CADDR and the rectangle is free. An expansion reads each record once, skips an empty one, sends tiles to
its members in turn, and ends with its counts, DONE last, in two steps (log 27). -/
def Obligations.LaunchLifecycle : Prop :=
  (∀ (s u u1 u2 u3 : State) (h : Head) (b : Nat) (hdr : Header) (img : List Byte) (gs : List Group) (rs : List RangeCtr),
    HeadIs s 1 h u → HeadStored u h b → u.qtbase.toNat + 2 ^ 18 ≤ 2 ^ 41 → rectOk u (packetRect h.bs) = true →
    launchImage u (keyPasid h.key) (pkt h 8 8) = (.ok (hdr, img), u1) →
    launchGroups u1 (keyPasid h.key) (pkt h 8 8) hdr (pkt h 20 2) (pkt h 22 2) = (.ok gs, u2) →
    launchRanges u2 (keyPasid h.key) (pkt h 48 8) (pkt h 20 2 * pkt h 22 2) = (.ok rs, u3) →
    pkt h 2 2 ≤ 16 → pkt h 32 8 % 8 = 0 → pkt h 56 8 % 32 = 0 →
    ∃ t l, exec .launch s = .next t ∧ HeadMoved u t h b ∧ t.launches = s.launches ++ [l] ∧ l.pasid = keyPasid h.key ∧
      l.rows = pkt h 20 2 ∧ l.cols = pkt h 22 2 ∧ l.groups = gs ∧ l.ranges = rs ∧ l.released = none ∧ l.fatal = none ∧
      l.caddr = BitVec.ofNat 64 (pkt h 32 8) ∧ l.cval = BitVec.ofNat 64 (pkt h 40 8) ∧
      ∀ k, k < l.rows * l.cols →
        let core := gridCore (pkt h 16 2 + k / l.cols) (pkt h 18 2 + k % l.cols)
        let top := 131072 - imageLen hdr
        let c := t.ctx (core * 16)
        (t.core core).launch = some l.id ∧ (t.core core).rank = k ∧ (t.core core).nranks = l.rows * l.cols ∧
        (t.core core).pasid = l.pasid ∧ (t.core core).stepcnt = 0#32 ∧
        (t.core core).ph = (if hdr.mode = 1 then 1#2 else 0#2) ∧ (t.core core).rq = [] ∧ (t.core core).mbox = [] ∧
        c.mode = .ready ∧ c.pc = BitVec.ofNat 64 (0xFFF00000000000 + top + hdr.entry) ∧
        c.reg 1#5 = BitVec.ofNat 64 (pkt h 24 8) ∧ c.reg 2#5 = BitVec.ofNat 64 (0xFFF00000000000 + top) ∧
        (∀ r, r ≠ 1#5 → r ≠ 2#5 → c.reg r = 0#64) ∧ (∀ r, c.hreg r = 0#256) ∧
        (∀ n, 1 ≤ n → n ≤ 10 → (t.ctx (core * 16 + n)).mode = .absent) ∧
        memRead (tcmHome core top) img.length t.mem = img ∧
        (∀ a, a < hdr.tcm ∨ ((s.core core).lastPasid ≠ some l.pasid ∧ a < top) → memGet (tcmHome core a) t.mem = 0#8) ∧
        ∀ a, a < hdr.spm → memGet (spmHome (clusterOfCore core) a) t.mem = 0#8) ∧
  (∀ (id : Nat) (s : State) (l : Launch), s.launch? id = some l → l.released = none →
    ∃ t, exec (.gangRelease id) s = .next t ∧ t.launch? id = some { l with released := some s.cycle } ∧
      ({ t with launches := s.launches } : State) = s) ∧
  (∀ (core start : Nat) (s : State) (l : Launch), s.launchOf core = some l → l.released = some start →
    (s.ctx (core * 16)).mode = .ready →
    (start + staggerOf core ≤ s.cycle → ∃ t, exec (.controlContextStart core) s = .next t ∧
      t.ctx (core * 16) = { s.ctx (core * 16) with mode := .running } ∧ ∀ k, k ≠ core * 16 → t.ctx k = s.ctx k) ∧
    (s.cycle < start + staggerOf core → exec (.controlContextStart core) s = .next s)) ∧
  (∀ (id : Nat) (s : State) (l : Launch), s.launch? id = some l →
    let u := (l.dies ++ (List.range 32).map (fun k => 64 + k)).foldl performAll s
    let ended := l.fatal = none ∧ (∀ c ∈ l.cores, (s.core c).launch = some l.id ∧ (s.core c).ctlExited = true) ∧
      (∀ o ∈ s.ops, o.launch ≠ l.id) ∧ (∀ p ∈ s.posts, ownPost l p = false) ∧
      (∀ a ∈ s.applies, a.launch = l.id → a.stuck ≠ none) ∧ ∀ r ∈ s.traces, r.launch ≠ some l.id
    (¬ ended → exec (.launchComplete id) s = .next s) ∧
    (ended → ∃ t, exec (.launchComplete id) s = .next t ∧ t.launch? id = none ∧ (∀ p ∈ t.packets, p.id ≠ l.id) ∧
      (∀ c ∈ l.cores, (t.core c).launch = none) ∧
      (∀ d, ∀ w ∈ (t.die d).windows, w.2.launch ≠ l.id) ∧
      (l.caddr = 0#64 → t.mem = u.mem) ∧
      ∀ a, l.caddr ≠ 0#64 → ioStore u l.pasid l.caddr.toNat = some a → isHome a = true → memWf u.mem = true →
        memRead a 8 t.mem = leBytes 8 l.cval.toNat)) ∧
  (∀ (id : Nat) (s w : State) (e : Expand) (bs : List Byte), s.expands.find? (fun x => x.id == id) = some e →
    e.finished = false → hgOn s = true → e.cur = none →
    ioBytes s (.expand id) (keyPasid e.key) (e.recs.toNat + 32 * e.record + 4) 4 = (.got bs, w) →
    let n := leNat bs
    let goes (t : State) (x : Expand) : Prop := t.expands.find? (fun x => x.id == id) = some x
    let skip : Expand := { e with
      record := e.record + 1, cur := none, tile := 0, finished := decide (e.nrec ≤ e.record + 1), skipped := e.skipped + 1 }
    (n = 0 → ∃ t, exec (.expandRecord id) s = .next t ∧ goes t skip ∧ t.mem = s.mem) ∧
    (∀ hs w2, 0 < n → n ≤ 2 ^ 24 →
      ioBytes w (.expand id) (keyPasid e.key) (e.recs.toNat + 32 * e.record + 24) 8 = (.got hs, w2) →
      ∃ t, exec (.expandRecord id) s = .next t ∧ goes t { e with cur := some (n, leNat hs) } ∧ t.mem = s.mem)) ∧
  (∀ (id n ha : Nat) (u : State) (e : Expand), u.expands.find? (fun x => x.id == id) = some e →
    e.finished = false → hgOn u = true → e.cur = some (n, ha) →
    let goes (t : State) (x : Expand) : Prop := t.expands.find? (fun x => x.id == id) = some x
    (∀ l, u.launch? e.launch = some l →
      let core := rankCore l (e.members.getD (e.total % e.members.length) 0)
      let hdr := BitVec.ofNat 64 ha
      (u.core core).launch = some l.id → (u.core core).ctlExited = false → hdr.toNat % 64 = 0 →
      ∀ home c x v, beingSaved u l.id core = false →
        locate u (.core core) core (u.core core).pasid .load hdr.toNat 64 = (.ok (.home home c), v) →
        poisoned v home 64 = false →
        routineHeader (viewRead v (dieOfCore core) home 64) l.hdr.mode = some x →
        ((u.core core).rq.length < 64 → ∃ t y r, exec (.expandRecord id) u = .next t ∧ goes t y ∧
          y.total = e.total + 1 ∧ y.count = e.count + 1 ∧ y.open_ = e.open_ + 1 ∧
          (if n ≤ 32 * (e.tile + 1) then y.record = e.record + 1 ∧ y.tile = 0 else y.record = e.record ∧ y.tile = e.tile + 1) ∧
          (t.core core).rq = (u.core core).rq ++ [r] ∧ r.hdr = hdr ∧ r.tile = some e.id ∧ r.rank = e.rank ∧
          r.arg = e.recs + BitVec.ofNat 64 (32 * e.record) ∧
          r.dlWord = BitVec.ofNat 64 (e.tile * 64 + min 32 (n - 32 * e.tile))) ∧
        (64 ≤ (u.core core).rq.length → exec (.expandRecord id) u = .next v))) ∧
  (∀ (id a : Nat) (s : State) (e : Expand), s.expands.find? (fun x => x.id == id) = some e → e.finished = true →
    e.open_ = 0 → isHome a = true → memWf s.mem = true →
    (e.wrote = false → ioStore s (keyPasid e.key) e.caddr.toNat = some a →
      ∃ t, exec (.recordsComplete id) s = .next t ∧
        t.expands.find? (fun x => x.id == id) = some { e with wrote := true } ∧ t.packets = s.packets ∧
        memRead a 12 t.mem = leBytes 4 e.count ++ leBytes 4 e.skipped ++ leBytes 4 e.refused ∧
        ∀ x, x < a ∨ a + 12 ≤ x → memGet x t.mem = memGet x s.mem) ∧
    (e.wrote = true → ioStore s (keyPasid e.key) (e.caddr.toNat + 12) = some a →
      ∃ t, exec (.recordsComplete id) s = .next t ∧ (∀ x ∈ t.expands, x.id ≠ id) ∧
        (∀ p ∈ t.packets, p.id ≠ e.pkt) ∧ (∀ x ∈ t.outq, x.src ≠ 96) ∧ memRead a 4 t.mem = leBytes 4 1))

end

namespace Sys2Proof.Claims
open Sys2Proof Sys2Proof.Machine

/-! ## The mailbox, hand-over, reclaim and resets -/

/-- The bytes of a mailbox request (R365): the first of MBXDATA, or the message's, at most 4,096. -/
def reqOf (s : State) : MbxReq → List Byte
  | .bar0 len => bytesAt s.mbxData 0 (min len 4096)
  | .mctp bs => bs.take 4096
where
  /-- `n` bytes from place `a` on, zero beyond the end. -/
  bytesAt (bs : List Byte) (a n : Nat) : List Byte := (List.range n).map (fun i => bs.getD (a + i) 0#8)

/-- The state once a request has been taken: the mailbox is BUSY, and a message stands in MBXDATA (R365). -/
def taken (s : State) : MbxReq → State
  | .bar0 _ => { s with mbxBusy := true, mbxMctp := false }
  | .mctp bs => { s with mbxBusy := true, mbxMctp := true, mbxData := bs.take 4096 }

/-- The state after a request that finds the mailbox BUSY: through BAR0 it is ignored, over MCTP it waits its
turn (R365). -/
def waitsTurn (s : State) (code : Nat) (act : FwAction) : MbxReq → State
  | .bar0 _ => s
  | .mctp bs => { s with mctp := s.mctp ++ [{ code := code, bytes := bs.take 4096, act := act }] }

/-- The mailbox takes a command: the module answers its host, and no command is in progress (R365). -/
abbrev Takes (s : State) : Prop := s.power = true ∧ s.stopped = false ∧ s.mbxBusy = false

/-- No reclaim runs (R373). -/
abbrev NoReclaim (s : State) : Prop := s.reclaimState = 0#3 ∨ s.reclaimState = 4#3

/-- A command is answered: exec gives `t`, with the command's code, result and response waiting to be posted,
and `t` is `v` in all else. -/
def Answers (o : Out) (v : State) (code result : Nat) (response : List Byte) : Prop :=
  o = .next { v with mbxCmd := some { code := code, result := result, response := response } }

/-- `n` bytes of a list from place `a` on, zero beyond its end. -/
def part (bs : List Byte) (a n : Nat) : List Byte := reqOf.bytesAt bs a n

/-- A mailbox command: its code, whether it is done during a reclaim, its request, and what a firmware does
for it (R365, R374). -/
def mailboxCode : Instr → Option (Nat × Bool × MbxReq × FwAction)
  | .attest r => some (0x01, true, r, .none)
  | .challenge r => some (0x02, false, r, .none)
  | .latchkey r => some (0x03, false, r, .none)
  | .leaseStart r => some (0x04, false, r, .none)
  | .stage r => some (0x05, false, r, .none)
  | .handover r => some (0x06, false, r, .none)
  | .record r => some (0x07, true, r, .none)
  | .mbxUnknown c r => if 9 ≤ c ∧ c ≤ 0x3F then some (c, false, r, .none) else none
  | .firmwareCommand c r act => if 0x40 ≤ c ∧ c ≤ 0xFFFF then some (c, false, r, act) else none
  | _ => none

/-- The state after a command's answer is posted (R357, R365): the response stands in MBXDATA, SEQ counts, BUSY
falls, vector 0 is raised, and one that came over MCTP is answered there. -/
def Posted (s v : State) (c : MbxCmd) : Prop :=
  v.mbxBusy = false ∧ v.mbxCmd = none ∧ v.mbxSeq = s.mbxSeq + 1#32 ∧
  v.mbxRlen = BitVec.ofNat 16 c.response.length ∧ v.mbxResult = BitVec.ofNat 8 c.result ∧
  part v.mbxData 0 c.response.length = c.response ∧ v.msix = s.msix ++ [0] ∧ v.mctp = s.mctp ∧
  v.mctpOut = if s.mbxMctp = true then s.mctpOut ++ [c] else s.mctpOut

end Sys2Proof.Claims

section
open Sys2Proof Sys2Proof.Machine Sys2Proof.Claims

/-- R365, R370 to R376: mailbox commands. A BUSY mailbox ignores one through BAR0 and keeps one over MCTP for
its turn, and during a reclaim only ATTEST and RECORD are done. ATTEST answers the report with the request's
nonce, TIME and the open features (in TEST every one), signed with the device identity key; CHALLENGE answers
a fresh nonce and keeps it; LATCHKEY consumes it, and opens features only for a token with this nonce whose
signature verifies; LEASE_START starts a lease that the operator signed; STAGE stages an image that verifies;
HANDOVER starts QUIESCING; RECORD answers the kept record; unknown codes answer UNKNOWN; the firmware gets the
rest. The completion posts the response, counts SEQ, drops BUSY and raises vector 0, and the next command that
waits over MCTP starts. -/
def Obligations.MailboxCommands : Prop :=
  (∀ (i : Instr) (s : State) (code : Nat) (always : Bool) (r : MbxReq) (act : FwAction),
    mailboxCode i = some (code, always, r, act) →
    (s.power = true → s.stopped = false → s.mbxBusy = true → exec i s = .next (waitsTurn s code act r)) ∧
    (Takes s → ¬ NoReclaim s → always = false → Answers (exec i s) (taken s r) code 4 [])) ∧
  (∀ (r : MbxReq) (s : State), Takes s → NoReclaim s →
    let v := taken s r
    let req := reqOf s r
    (∃ resp, Answers (exec (.attest r) s) { v with freeCtr := s.freeCtr + 1 } 0x01 0 resp ∧ resp.length = 288 ∧
      part resp 0 4 = leBytes 4 0x4B574154 ∧ part resp 24 32 = part req 0 32 ∧
      part resp 56 4 = leBytes 4 (if s.fuses.life = .test then 0x70F else s.features.toNat) ∧ part resp 184 8 = leBytes 8 s.time.toNat ∧
      ∃ k, part resp 192 96 = ecdsaSign s.fuses.devKey k (part resp 0 192)) ∧
    (∃ x, Answers (exec (.challenge r) s) { v with freeCtr := s.freeCtr + 1, nonce := some x } 0x02 0 x ∧ x.length = 32) ∧
    (∃ res f, Answers (exec (.latchkey r) s) { v with nonce := none, features := f } 0x03 res [] ∧
      (f ≠ s.features → res = 0 ∧ f = s.features ||| BitVec.ofNat 32 (leNat (part req 56 4)) ∧
        ∃ key x, s.nonce = some x ∧ part req 24 32 = x ∧ part req 8 16 = part s.fuses.devid 0 16 ∧
          ecdsaVerify key (part req 0 64) (part req 64 96) = true ∧
          (key = s.fuses.vendorKey ∨ ∃ l, s.lease = some l ∧ key = l.owner)) ∧
      ((∃ x, s.nonce = some x ∧ part req 24 32 = x) → s.fuses.life = .production → leNat (part req 0 4) = 0x4B574C4B →
        part req 4 4 = leBytes 4 0 → part req 60 4 = leBytes 4 0 → leNat (part req 56 4) / 256 = 0 →
        part req 8 16 = part s.fuses.devid 0 16 →
        ecdsaVerify s.fuses.vendorKey (part req 0 64) (part req 64 96) = true → res = 0)) ∧
    (s.lease = none → part req 0 16 ≠ List.replicate 16 0#8 → leNat (part req 16 1) = 4 →
      part req 113 3 = leBytes 3 0 → part req 120 8 = leBytes 8 0 →
      ecdsaVerify s.fuses.operatorKey (part req 0 128) (part req 128 96) = true →
      let l : Lease := { id := part req 0 16, owner := part req 17 96, minver := leNat (part req 116 4) }
      Answers (exec (.leaseStart r) s) { v with reclaimState := 0#3, lease := some l } 0x04 0 []) ∧
    (s.lease ≠ none → Answers (exec (.leaseStart r) s) v 0x04 3 []) ∧
    (let a := leNat (part req 0 8)
     let b := memRead a 256 s.mem ++ memRead (a + 256) (imgLength (memRead a 256 s.mem)) s.mem
     s.hand = .none → a + 256 + imgLength (memRead a 256 s.mem) ≤ 2 ^ 41 → s.recovery = false →
      imgForm (memRead a 256 s.mem) = true → poisoned s a (256 + imgLength (memRead a 256 s.mem)) = false →
      imgOk s b = true →
      ∃ t, Answers (exec (.stage r) s) t 0x05 0 [] ∧ t.staged = some b ∧ t.hand = .staged ∧
        t.fuses.minVendor = (if imgSigner b = 0 then max s.fuses.minVendor (imgSecver b) else s.fuses.minVendor) ∧
        t.fuses.minOperator = if imgSigner b = 1 then max s.fuses.minOperator (imgSecver b) else s.fuses.minOperator) ∧
    (s.hand ≠ .none → Answers (exec (.stage r) s) v 0x05 3 []) ∧
    (s.hand = .staged → Answers (exec (.handover r) s) { v with hand := .quiescing, handSince := s.time } 0x06 0 []) ∧
    (s.hand ≠ .staged → Answers (exec (.handover r) s) v 0x06 3 []) ∧
    Answers (exec (.record r) s) v 0x07 0 s.record ∧
    (∀ c, 9 ≤ c → c ≤ 0x3F → Answers (exec (.mbxUnknown c r) s) v c 1 []) ∧
    (∀ c act, 0x40 ≤ c → c ≤ 0xFFFF → s.holder = .utonauz → Answers (exec (.firmwareCommand c r act) s) v c 1 []) ∧
    (∀ c p w m rp base, 0x40 ≤ c → c ≤ 0xFFFF → s.holder = .firmware →
      ∃ t res resp x, Answers (exec (.firmwareCommand c r (.farWindow p w m rp base)) s) t c res resp ∧
        resp.length ≤ 4096 ∧ res < 256 ∧ farWin? t p w = some x ∧ x.rmod = m ∧ x.rpasid = rp ∧
        x.base = base / 2 ^ 32 * 2 ^ 32)) ∧
  (∀ (s : State) (c : MbxCmd), s.mbxCmd = some c → ∃ v, Posted s v c ∧
    (s.mctp = [] → exec .mbxCommandComplete s = .next v) ∧
    ∀ (q : MctpReq) (r : List MctpReq) (i : Instr) (always : Bool), s.mctp = q :: r → s.power = true →
      s.stopped = false → q.bytes.length ≤ 4096 → mailboxCode i = some (q.code, always, .mctp q.bytes, q.act) →
      exec .mbxCommandComplete s = exec i { v with mctp := r })

/-- R352, R353, R357, R366 to R371, R373 to R375, R383, R413: hand-over, reclaim, resets, power and TIME. A
switch takes the policy core to Utonauz, then starts the staged image; a reclaim runs through DISCARD, SCRUB
and SIGN to DONE, and leaves no lease, no feature and no byte of memory or of MBXDATA (log 40); a warm reset ends
every launch and keeps memory, the lease and TIME (that it keeps on-chip memory too, and ends a reclaim, is
log 41); power loss leaves the fuses and the boot flash; RETIRED stops at power-on; TIMESET sets TIME, and a pool
that goes to another PASID is zeroed; the firmware raises vectors 3 to 63; the operator's key is written once. -/
def Obligations.ResetsPowerAndTime : Prop :=
  (∀ s : State, NoReclaim s →
    (s.hand = .quiescing → s.holder = .firmware → exec .yield s = .next { s with hand := .switching, holder := .utonauz }) ∧
    (s.hand = .quiescing → s.handSince.toNat + 1000000000 ≤ s.time.toNat →
      exec .handoverTimeout s = .next { s with hand := .switching, holder := .utonauz }) ∧
    (s.hand = .quiescing → s.time.toNat < s.handSince.toNat + 1000000000 → exec .handoverTimeout s = .next s) ∧
    (∀ b, s.hand = .switching → s.staged = some b → ∃ t, exec .yield s = .next t ∧ exec .handoverTimeout s = .next t ∧
      t.current = some b ∧ t.staged = none ∧ t.hand = .none ∧ t.holder = .firmware)) ∧
  (∀ (r : MbxReq) (s : State), Takes s → NoReclaim s → ∃ t, exec (.reclaim r) s = .next t ∧ t.reclaimState = 1#3 ∧
    t.reclaimMbx = true ∧ t.reclaimStart = s.time ∧ t.holder = .utonauz ∧ t.staged = none ∧ t.hand = .none ∧
    t.mbxBusy = true) ∧
  (∀ (v : DWord) (s : State), s.power = true → s.stopped = false → NoReclaim s →
    (v.getLsbD 0 = true → v.toNat / 2 ^ 24 % 256 = 0xC5 → ∃ t, exec (.reclaimRegisterWrite v) s = .next t ∧
      t.reclaimState = 1#3 ∧ t.reclaimStart = s.time ∧ t.holder = .utonauz ∧ t.staged = none) ∧
    (v.getLsbD 0 = false ∨ v.toNat / 2 ^ 24 % 256 ≠ 0xC5 → exec (.reclaimRegisterWrite v) s = .next s)) ∧
  (∀ s : State,
    (s.reclaimState = 1#3 → (∃ c, s.mbxCmd = some c ∧ c.code < 0x40) → exec .reclaimComplete s = .next s) ∧
    (s.reclaimState = 1#3 → (∀ c, s.mbxCmd = some c → 0x40 ≤ c.code) → (∀ p ∈ s.clusters, p.2.saving = none) → ∃ t, exec .reclaimComplete s = .next t ∧
      t.reclaimState = 2#3 ∧ t.channels = []) ∧
    (s.reclaimState = 2#3 → ∃ t, exec .reclaimComplete s = .next t ∧ t.reclaimState = 3#3 ∧ t.mem = [] ∧ t.full = [] ∧
      t.poison = [] ∧ t.ctxs = [] ∧ t.cores = [] ∧ t.launches = [] ∧ t.ops = [] ∧ t.outq = [] ∧ t.mbxData = [] ∧
      t.fuses = s.fuses ∧ t.time = s.time ∧ t.bootImage = s.bootImage) ∧
    (s.reclaimState = 3#3 → s.mctp = [] → ∃ t, exec .reclaimComplete s = .next t ∧ t.reclaimState = 4#3 ∧
      t.reclaimSeq = s.reclaimSeq + 1#32 ∧ t.lease = none ∧ t.stagedOwner = none ∧ t.features = 0#32 ∧ t.nonce = none ∧
      t.record.length = 352 ∧ 2 ∈ t.msix ∧ (s.reclaimMbx = true → t.mbxBusy = false ∧ t.mbxResult = 0#8))) ∧
  (∀ s : State, s.power = true → s.stopped = false →
    ∃ t, exec .functionLevelReset s = .next t ∧
      (s.launches = [] → t.mem = s.mem ∧ t.full = s.full ∧ t.poison = s.poison) ∧ t.launches = [] ∧
      t.mem = (discardAll s).mem ∧ t.lease = s.lease ∧ t.time = s.time ∧ (∀ k, t.ctx k = Ctx.fresh) ∧ t.ops = [] ∧ t.outq = [] ∧
      t.qtbase = 0#64 ∧ t.pdirbase = 0#64 ∧ t.pdircount = 0#64 ∧ t.mbxBusy = false ∧ t.features = 0#32 ∧
      t.reclaimState = 0#3) ∧
  (∀ s : State, ∃ t, exec .powerLoss s = .next t ∧ exec .thermalShutdown s = .next t ∧ t.power = false ∧ t.mem = [] ∧
    t.ctxs = [] ∧ t.lease = none ∧ t.time = 0#64 ∧ t.record = [] ∧ t.fuses = s.fuses ∧ t.bootImage = s.bootImage) ∧
  (∀ s : State, s.power = false →
    (s.fuses.life = .retired → ∃ t, exec .powerOn s = .next t ∧ t.power = true ∧ t.stopped = true ∧ t.released = s.released) ∧
    (s.fuses.life ≠ .retired → ∃ t, exec .powerOn s = .next t ∧ t.power = true ∧ t.mem = [] ∧ t.time = 0#64 ∧
      t.record.length = 352 ∧ t.launches = [] ∧
      (s.lease = none → imgSigner s.bootImage = 1 → imgOk s s.bootImage = true →
        t.holder = .firmware ∧ t.released = true ∧ t.current = some s.bootImage) ∧
      (s.lease = none → imgSigner s.bootImage ≠ 1 ∨ imgOk s s.bootImage = false →
        t.holder = .utonauz ∧ t.released = false ∧ t.recovery = true))) ∧
  (∀ (v : DWord) (s : State), ∃ t, exec (.timeset v) s = .next t ∧ t.time = v ∧
    (s.launches = [] → t = { s with time := v, timeFrac := 0 })) ∧
  (∀ (ppm : Int) (s : State), exec (.timeTrim ppm) s =
    .next (if -200 ≤ ppm ∧ ppm ≤ 200 then { s with trim := ppm } else s)) ∧
  (∀ (die p : Nat) (s : State), die < s.ndies →
    (∃ t, exec (.poolOwnerSet die none) s = .next t ∧ (t.die die).poolOwner = none ∧ t.mem = s.mem) ∧
    ∃ t, exec (.poolOwnerSet die (some p)) s = .next t ∧ (t.die die).poolOwner = some p ∧
      ((s.die die).poolLast = some p → t.mem = s.mem) ∧
      ((s.die die).poolLast ≠ some p → memWf s.mem = true →
        (∀ o, o < 67108864 → memGet (poolHome die o) t.mem = 0#8) ∧
        ∀ a, a < poolHome die 0 ∨ poolHome die 67108864 ≤ a → memGet a t.mem = memGet a s.mem)) ∧
  (∀ (port : Nat) (sent : Bool) (s : State), port < 16 →
    exec (.ptpEventFrame port sent) s = .next { s with ptp := s.ptp ++ [(port, sent, s.time)] }) ∧
  (∀ (v : Nat) (key : List Byte) (s : State),
    (s.holder = .firmware → 3 ≤ v → v ≤ 63 → (runAct (.vector v) s).msix = s.msix ++ [v]) ∧
    (s.holder = .utonauz ∨ v < 3 ∨ 63 < v → runAct (.vector v) s = s) ∧
    (s.fuses.operatorKey = [] →
      runAct (.operatorKey key) s = { s with fuses := { s.fuses with operatorKey := key } }) ∧
    (s.fuses.operatorKey ≠ [] → runAct (.operatorKey key) s = s) ∧
    runAct .retire s = { s with fuses := { s.fuses with life := .retired } })

end

namespace Sys2Proof.Claims
open Sys2Proof Sys2Proof.Machine

/-! ## Pre-emption -/

/-- A final status of a request, as the policy core gets it (R343): 0 SAVED, 1 SUPERSEDED, 2 BUSY,
3 TOOBIG, 4 NOLAUNCH, 5 RESTORED. -/
def statusOf (lid cl code : Nat) : Report := .preempt { launch := lid, cluster := cl, code := code }

/-- A context waits at a point, without its result (R346). -/
def Waits (c : Ctx) : Prop := ∃ w, c.wait = some w ∧ w.what = .point none

/-- A context that waited at a point goes on with a result (R346). -/
def GoesOn (old c : Ctx) (r : BitVec 2) : Prop :=
  ∃ w, old.wait = some w ∧ c = { old with wait := some { w with what := .point (some r) } }

/-- A cluster has a request gathering at a point, and no save (R346). -/
abbrev Gathering (s : State) (cl : Nat) (r : PreReq) (since : Nat) : Prop :=
  (s.cluster cl).preq = some r ∧ (s.cluster cl).gather = some since ∧ (s.cluster cl).saving = none

/-- The bound of a point has passed: it is not 0, and the cycle is beyond it (R344). -/
abbrev BoundPassed (s : State) (cl lid since : Nat) : Prop :=
  drainLimit s cl lid ≠ 0 ∧ since + drainLimit s cl lid < s.cycle

/-- The `n` bytes at an address that the pieces of a save give it, each byte by the first piece that has it. -/
def savedBytes (ps : List SavePiece) (s : State) (a n : Nat) : List (Option Byte) :=
  (List.range n).map (fun i => ps.findSome? (fun p => if p.addr ≤ a + i then (p.src.read s)[a + i - p.addr]? else none))

/-- A context waits at a point since a cycle (R346). -/
def WaitsSince (c : Ctx) (n : Nat) : Prop := ∃ w, c.wait = some w ∧ w.what = .point none ∧ w.since = n

end Sys2Proof.Claims

section
open Sys2Proof Sys2Proof.Machine Sys2Proof.Claims

/-- R343 to R348, R350, R351: pre-emption. A request becomes pending, replaces one that it outranks, which
ends BUSY, waits behind a save that it outranks, or ends BUSY or NOLAUNCH. At a point every waiting context
is DECLINED once the bound has passed; when all have gathered and their work has drained, the range lists are
read, an entry a step, and the save begins, unless a range list traps, with the bound then counted from the
contexts that still wait, a ring holds too much or an area is too small. The save writes each core's area, a
piece a step (log 38), and then frees the cores and ends SAVED; the restore rebuilds them from their areas and
ends RESTORED: a register that the PREEMPT has named live as it was saved, and every other one but its d as
zero. -/
def Obligations.Preemption : Prop :=
  (∀ (cl lid claim prio base stride : Nat) (s : State), cl < 8 * s.ndies → prio ≤ 7 → base % 4096 = 0 →
    stride % 4096 = 0 → base + (shareCores s cl lid).length * stride ≤ 2 ^ 41 →
    let run := exec (.preemptRequest cl lid claim prio base stride) s
    let r : PreReq := { launch := lid, claim := claim, prio := prio, savebase := base, stride := stride }
    let held := ∃ j n, j < 8 ∧ n ≤ 10 ∧ (s.core (cl * 8 + j)).launch = some lid ∧
      (s.ctx ((cl * 8 + j) * 16 + n)).mode ≠ .absent
    let ends (l code : Nat) (t : State) : Prop := t.reports = s.reports ++ [statusOf l cl code]
    (¬ held → run = .next { s with reports := s.reports ++ [statusOf lid cl 4] }) ∧
    (held → (s.cluster cl).saving = none → (s.cluster cl).preq = none →
      ∃ t, run = .next t ∧ t.cluster cl = { s.cluster cl with preq := some r } ∧ t.reports = s.reports) ∧
    (∀ p, held → (s.cluster cl).saving = none → (s.cluster cl).preq = some p →
      (prio ≤ p.prio → run = .next { s with reports := s.reports ++ [statusOf lid cl 2] }) ∧
      (p.prio < prio → ∃ t, run = .next t ∧ (t.cluster cl).preq = some r ∧ ends p.launch 2 t)) ∧
    (∀ v, held → (s.cluster cl).saving = some v →
      (prio ≤ v.req.prio → run = .next { s with reports := s.reports ++ [statusOf lid cl 2] }) ∧
      (v.req.prio < prio → v.late = none → ∃ t, run = .next t ∧ (t.cluster cl).preq = (s.cluster cl).preq ∧
        (t.cluster cl).saving = some { v with late := some r } ∧ t.reports = s.reports) ∧
      (∀ l, v.req.prio < prio → v.late = some l → prio ≤ l.prio → run =
        .next { s with reports := s.reports ++ [statusOf lid cl 2] }) ∧
      (∀ l, v.req.prio < prio → v.late = some l → l.prio < prio → ∃ t, run = .next t ∧
        (t.cluster cl).saving = some { v with late := some r } ∧ ends l.launch 2 t))) ∧
  (∀ (cl since : Nat) (s : State) (r : PreReq), Gathering s cl r since →
    (BoundPassed s cl r.launch since → ∃ t, exec (.pointDeclined cl) s = .next t ∧
      (t.cluster cl).preq = some r ∧ (t.cluster cl).gather = none ∧
      (∀ k ∈ liveCtxs s cl r.launch, Waits (s.ctx k) → GoesOn (s.ctx k) (t.ctx k) 2#2) ∧
      ∀ k, k ∉ liveCtxs s cl r.launch → t.ctx k = s.ctx k) ∧
    (¬ BoundPassed s cl r.launch since → exec (.pointDeclined cl) s = .next s)) ∧
  (∀ (cl since : Nat) (s : State) (r : PreReq), Gathering s cl r since → ¬ BoundPassed s cl r.launch since →
    liveCtxs s cl r.launch ≠ [] → (∀ k ∈ liveCtxs s cl r.launch, Waits (s.ctx k)) →
    let u := (liveCtxs s cl r.launch).foldl releaseModule s
    drained u cl r.launch = true →
    (∀ k c a v, readLists cl r.launch (shareCores u cl r.launch) u = (.error (k, c, a), v) →
      (c = 0 → exec (.pointTaken cl) s = .next v) ∧
      (c = 0x48 → exec (.pointTaken cl) s = .next (poisonLaunch v (coreOf k))) ∧
      (c ≠ 0 → c ≠ 0x48 →
        let w := takeTrap (saveClear v cl) k 3 c (BitVec.ofNat 64 a)
        ∃ t, exec (.pointTaken cl) s = .next t ∧ t.ctxs = w.ctxs ∧ t.mem = w.mem ∧
          (t.cluster cl).preq = (w.cluster cl).preq ∧ (t.cluster cl).saving = (w.cluster cl).saving ∧
          ∀ g, (t.cluster cl).gather = some g ↔ (∃ j ∈ liveCtxs w cl r.launch, WaitsSince (w.ctx j) g) ∧
            ∀ j ∈ liveCtxs w cl r.launch, ∀ m, WaitsSince (w.ctx j) m → g ≤ m)) ∧
    (∀ lists v, readLists cl r.launch (shareCores u cl r.launch) u = (.ok lists, v) →
      let small := ∀ p ∈ (v.cluster cl).rings, p.2.owner = r.launch → p.2.nfil + p.2.nclm ≤ 64
      let fits := ∀ p ∈ lists,
        49152 + ((rangesOf v p.1 p.2).map (fun x => x.2 + (x.2 / 16 + 511) / 512 * 64)).sum ≤ r.stride
      (¬ small → ∃ t, exec (.pointTaken cl) s = .next t ∧ (t.cluster cl).preq = some r ∧
        (t.cluster cl).saving = none ∧ ∀ k ∈ liveCtxs v cl r.launch, GoesOn (v.ctx k) (t.ctx k) 2#2) ∧
      (small → ¬ fits → ∃ t, exec (.pointTaken cl) s = .next t ∧ (t.cluster cl).preq = none ∧
        (t.cluster cl).saving = none ∧ t.reports = v.reports ++ [statusOf r.launch cl 3] ∧
        ∀ k ∈ liveCtxs v cl r.launch, GoesOn (v.ctx k) (t.ctx k) 2#2) ∧
      (small → fits → ∃ t, exec (.pointTaken cl) s = .next t ∧
        t.cluster cl = { v.cluster cl with
          preq := none, saving := some { req := r, late := none, pieces := sharePieces v cl r lists } } ∧
        ∀ k, t.ctx k = v.ctx k))) ∧
  (∀ (cl lid core : Nat) (s : State),
    (listCtx s cl lid core = none → readLists cl lid [core] s = (.ok [(core, List.replicate 64 0#8)], s)) ∧
    ∀ k a (e : Nat → List Byte), listCtx s cl lid core = some (k, a) →
      (∀ i, i < 4 → (e i).length = 16 ∧ listEntry s cl core (a + 16 * i) = (.ok (e i), s)) →
      let bs := e 0 ++ e 1 ++ e 2 ++ e 3
      (∀ rs, rangeList s core 4 bs = .ok rs → readLists cl lid [core] s = (.ok [(core, bs)], s)) ∧
      ∀ c, rangeList s core 4 bs = .error c → ∃ i, i < 4 ∧ readLists cl lid [core] s = (.error (k, c, a + 16 * i), s)) ∧
  (∀ (cl core a h : Nat) (c : Option Chk) (s v : State),
    locate s (.core core) core (s.core core).pasid .load a 16 = (.ok (.home h c), v) →
    (∀ p, v.ioGot.find? (fun p => p.owner == .save cl && p.addr == h) = some p →
      listEntry s cl core a = (.ok (p.bytes.getD []), v)) ∧
    (v.ioGot.find? (fun p => p.owner == .save cl && p.addr == h) = none → poisoned v h 16 = false →
      listEntry s cl core a = (.error 0, { v with
        ioGot := v.ioGot ++ [{ owner := .save cl, addr := h, bytes := some (viewRead v (dieOfCore core) h 16) }] }))) ∧
  (∀ (cl core : Nat) (s : State) (r : PreReq) (lists : Tbl (List Byte)), shareCores s cl r.launch = [core] →
    let at_ (o n : Nat) : List (Option Byte) := savedBytes (sharePieces s cl r lists) s (r.savebase + o) n
    at_ 0 6 = (leBytes 4 0x4B575356 ++ leBytes 2 1).map some ∧
    at_ 16 4 = (leBytes 4 (s.core core).stepcnt.toNat).map some ∧ at_ 24 8 = (leBytes 8 s.time.toNat).map some ∧
    ∀ k ∈ liveCtxs s cl r.launch,
      at_ (24576 + 2048 * (k % 16)) 8 = (leBytes 8 ((s.ctx k).pc + 12#64).toNat).map some ∧
      at_ (24576 + 2048 * (k % 16) + 24) 8 = (leBytes 8 (s.ctx k).xstatus.toNat).map some) ∧
  (∀ (cl : Nat) (s : State) (v : SaveSt) (p : SavePiece) (ps : List SavePiece), (s.cluster cl).saving = some v →
    v.pieces = p :: ps →
    exec (.saveComplete cl) s = .next s ∧
    (isHome p.addr = true → memWf s.mem = true →
      let t := runAct (.save cl) s
      (t.cluster cl).saving = some { v with pieces := ps } ∧ t.ctxs = s.ctxs ∧
        memRead p.addr (p.src.read s).length t.mem = p.src.read s ∧
        ∀ x, x < p.addr ∨ p.addr + (p.src.read s).length ≤ x → memGet x t.mem = memGet x s.mem)) ∧
  (∀ (cl core : Nat) (s : State) (v : SaveSt), (s.cluster cl).saving = some v → v.pieces = [] →
    shareCores s cl v.req.launch = [core] →
    ∃ t p, exec (.saveComplete cl) s = .next t ∧ (t.core core).launch = none ∧ (t.cluster cl).saving = none ∧
      (t.cluster cl).suspended = (s.cluster cl).suspended ++ [p] ∧ p.launch = v.req.launch ∧
      p.savebase = v.req.savebase ∧ (∀ n, n ≤ 10 → (t.ctx (core * 16 + n)).mode = .absent) ∧
      (t.reports = s.reports ++ match v.late with
        | none => [statusOf v.req.launch cl 0]
        | some l => [statusOf v.req.launch cl 1, statusOf l.launch cl 0]) ∧ t.mem = s.mem) ∧
  (∀ (cl lid core : Nat) (s u : State) (l : Launch) (p : Suspended) (old : Core) (img : List Byte),
    cl < 8 * s.ndies → s.launch? lid = some l → (s.cluster cl).suspended.find? (fun x => x.launch == lid) = some p →
    shareFree s cl l p = true → ioBytes s (.save cl) l.pasid l.hdrVa.toNat l.image = (.got img, u) → p.cores = [(core, old)] →
    p.savebase + 2 ^ 20 ≤ 2 ^ 41 → areaPoisoned s p = false → memWf s.mem = true →
    let at_ (o n : Nat) : Nat := leNat (memRead (p.savebase + o) n s.mem)
    ∃ t, exec (.restoreRequest cl lid) s = .next t ∧ t.reports = s.reports ++ [statusOf lid cl 5] ∧
      (∀ x ∈ (t.cluster cl).suspended, x.launch ≠ lid) ∧ (t.core core).launch = old.launch ∧
      (t.core core).rank = old.rank ∧ (t.core core).stepcnt = BitVec.ofNat 32 (at_ 16 4) ∧
      (t.core core).ph = BitVec.ofNat 2 (at_ 20 4) ∧ (t.core core).vshare = BitVec.ofNat 64 (at_ 32 8) ∧
      (t.core core).evq = BitVec.ofNat 64 (at_ 56 8) ∧
      ∀ n, n ≤ 10 → (at_ 6 2).testBit n = true →
        let b := 24576 + 2048 * n
        let c := t.ctx (core * 16 + n)
        let d := BitVec.ofNat 5 (at_ (b + 9) 1)
        c.mode = .running ∧ c.acc = at_ (b + 8) 1 ∧ c.xstatus = BitVec.ofNat 64 (at_ (b + 24) 8) ∧ c.wait = none ∧
        (d ≠ 0#5 → c.reg d = 1#64) ∧
        (∀ i, 1 ≤ i → i ≤ 31 → BitVec.ofNat 5 i ≠ d → c.reg (BitVec.ofNat 5 i) =
          if (at_ (b + 16) 8).testBit i then BitVec.ofNat 64 (at_ (b + 128 + 8 * (i - 1)) 8) else 0#64) ∧
        (at_ (b + 896) 8 = 0 → c.pc = BitVec.ofNat 64 (at_ b 8)))

end

namespace Sys2Proof.Claims
open Sys2Proof Sys2Proof.Machine

/-! ## Errors and the transport -/

/-- A launch is job-fatal with a reason, if it was not before (R341). -/
def BecomesFatal (s t : State) (id : Nat) (f : Fatal) : Prop :=
  ∀ l, s.launch? id = some l → t.launch? id = some (if l.fatal.isSome then l else { l with fatal := some f })

/-- What a whole frame of a kind says (R360). -/
abbrev Whole (s : State) (bs : List Byte) (kind src cls seq ack pasid : Nat) : Prop :=
  frameOk s bs kind = true ∧ frameNum bs 4 2 = src ∧ frameNum bs 1 1 = cls ∧ frameNum bs 8 4 = seq ∧
  frameNum bs 12 4 = ack ∧ frameNum bs 16 4 = pasid

/-- One frame of a kind goes out to a module, by the MAC address that the firmware's table gives it and
EtherType 0x88B5 (R359, R360). -/
def SendsOne (s t : State) (dst kind : Nat) : Prop :=
  ∃ e, t.ethOut = s.ethOut ++ [e] ∧ e.dstmod = dst ∧ leNat (e.bytes.take 1) = 16 + kind ∧
    ∀ m, tfind dst s.macs = some m → m.length = 6 →
      e.head.take 6 = m ∧ e.head.length = 14 ∧ e.head.drop 12 = [0x88#8, 0xB5#8]

/-- The channel's frames that an acknowledgement of everything below `n` leaves (R361). -/
def leftAfter (c : Channel) (n : Nat) : List Frame :=
  c.unacked.filter (fun f => decide (2 ^ 31 ≤ (n + 2 ^ 32 - f.seq - 1) % 2 ^ 32))

end Sys2Proof.Claims

section
open Sys2Proof Sys2Proof.Machine Sys2Proof.Claims

/-- R311, R341, R357, R380, R383: errors. A job-fatal launch is discarded, its cores freed, its queue parked
and the report raised, unless a save of it is in progress or a reclaim discards it, and once the pins of its
handle stacks wait for no page walk (R64, R331); a failed leader's candidate takes over, or the
launch is job-fatal; an uncorrectable error poisons its unit of HBM, drops a cached entry, or makes the launch
that met it job-fatal, and is reported; corrected errors and replays only count; the launches that a link
carries are job-fatal once it is fenced, and no later error of it changes anything; a cap lowers only a
cluster island's frequency and a throttle halves an island's, the firmware sets it with the voltage, and
nothing else changes. Which number an island has, and which core stands for an error of no core's own, are the
model's choice (log 36); that a number without an island is a fault, log 42; that a launch whose leader fails
without a candidate has cause 0x48, and that the move names the link's launches, log 41. -/
def Obligations.ErrorEvents : Prop :=
  (∀ (id : Nat) (s : State) (l : Launch) (f : Fatal), s.launch? id = some l → l.fatal = some f →
    let saving := ∃ p ∈ s.clusters, ∃ v, p.2.saving = some v ∧ v.req.launch = id
    (saving ∨ reclaiming s = true → exec (.jobFatalDiscard id) s = .next s) ∧
    (¬ saving → reclaiming s = false → (unpinLaunch false s l).1 = false →
      exec (.jobFatalDiscard id) s = .next (unpinLaunch false s l).2) ∧
    (¬ saving → reclaiming s = false → (unpinLaunch false s l).1 = true → ∃ t, exec (.jobFatalDiscard id) s = .next t ∧ t.launch? id = none ∧
      (∀ c ∈ l.cores, (t.core c).launch ≠ some l.id) ∧ (∀ o ∈ t.ops, o.launch ≠ l.id) ∧
      (∀ p ∈ t.packets, p.id ≠ l.id) ∧ t.msix = s.msix ++ [1] ∧
      .discard l.key l.ringIdx f.cause f.core f.frec ∈ t.reports)) ∧
  (∀ (id : Nat) (s : State) (l : Launch), s.launch? id = some l →
    ((s.die l.leader).healthy = true → exec (.leaderFailover id) s = .next s) ∧
    ((s.die l.leader).healthy = false → l.candidate = none → ∃ t, exec (.leaderFailover id) s = .next t ∧
      BecomesFatal s t id { cause := 0x48, core := l.cores.headD 0, frec := [] }) ∧
    (∀ c, (s.die l.leader).healthy = false → l.candidate = some c → ∃ t m, exec (.leaderFailover id) s = .next t ∧
      t.launch? id = some m ∧ m.leader = c ∧ m.ranges = l.ranges ∧
      ∀ d, m.candidate = some d → d ≠ c ∧ (s.die d).healthy = true)) ∧
  (∀ (s : State) (n core h met k : Nat) (o : Op),
    let told (kind unit : Nat) (u : State) : Out := .next { u with reports := u.reports ++ [.uncorrectable kind unit] }
    let fatal : Fatal := { cause := 0x48, core := core, frec := [] }
    (∃ t, exec (.uncorrectableError (.hbm n)) s = .next t ∧ (n, 0) ∈ t.poison ∧
      t.reports = s.reports ++ [.uncorrectable 0 n] ∧ ∀ m, m ≠ n → ∀ g, (m, g) ∈ t.poison ↔ (m, g) ∈ s.poison) ∧
    (∀ l, (s.core core).launch = some l → ∃ t1 t2 t3, BecomesFatal s t1 l fatal ∧ BecomesFatal s t2 l fatal ∧
      BecomesFatal s t3 l fatal ∧ exec (.uncorrectableError (.table core)) s = told 1 core t1 ∧
      exec (.uncorrectableError (.register core k)) s = told 2 core t2 ∧
      exec (.uncorrectableError (.matrix core)) s = told 2 core t3) ∧
    (∃ t, BecomesFatal s t met fatal ∧ exec (.uncorrectableError (.sram h met core)) s = told 1 h t) ∧
    (s.op? k = some o → ∃ t, BecomesFatal s t o.launch { fatal with core := o.core } ∧
      exec (.uncorrectableError (.staging k)) s = told 2 k t) ∧
    (∃ t, exec (.uncorrectableError (.coreTlb core k)) s = .next t ∧
      (t.core core).utlb = (s.core core).utlb.take k ++ (s.core core).utlb.drop (k + 1) ∧ t.launches = s.launches) ∧
    (∃ t, exec (.uncorrectableError (.clusterTlb n k)) s = .next t ∧
      (t.cluster n).tlb = (s.cluster n).tlb.take k ++ (s.cluster n).tlb.drop (k + 1) ∧ t.launches = s.launches) ∧
    (∃ t, exec (.uncorrectableError (.dieTlb n k)) s = .next t ∧
      (t.die n).tlb = (s.die n).tlb.take k ++ (s.die n).tlb.drop (k + 1) ∧ t.launches = s.launches) ∧
    (∃ t, exec (.uncorrectableError (.walker n k)) s = .next t ∧
      (t.die n).ptrs = (s.die n).ptrs.take k ++ (s.die n).ptrs.drop (k + 1) ∧ t.launches = s.launches) ∧
    (∃ t, exec (.uncorrectableError (.dispatcher n)) s = .next t ∧ (t.die n).healthy = false ∧ t.launches = s.launches) ∧
    exec (.uncorrectableError .policy) s = told 1 0 s) ∧
  (∀ (u : ErrUnit) (link : Nat) (s : State), exec (.correctedError u) s = .next { s with corrected := s.corrected + 1 } ∧
    exec (.flitReplay link) s = .next { s with replays := s.replays + 1 }) ∧
  (∀ (link : Nat) (used : List Nat) (s : State),
    (link ∈ s.fenced → exec (.linkFence link used) s = .next s) ∧
    (link ∉ s.fenced → ∃ t, exec (.linkFence link used) s = .next t ∧
      smem link t.fenced = true ∧ t.reports = s.reports ++ [.uncorrectable 4 link] ∧
      (∀ id ∈ used, ∀ l, s.launch? id = some l →
        BecomesFatal s t id { cause := 0x48, core := l.cores.headD 0, frec := [] }) ∧
      ∀ id, id ∉ used → t.launch? id = s.launch? id)) ∧
  (∀ (island rate mv : Nat) (s : State),
    let now := tget s.islands island (1800, Config.islandVolt island)
    let fused := s.ndies * 10 ≤ island ∧ island < 640 ∧ island % 10 ≠ 9
    (1024 ≤ island ∨ fused →
      exec (.powerCap island rate) s = .fault .noSuchUnit ∧ exec (.thermalThrottle island) s = .fault .noSuchUnit) ∧
    (island < 1024 → ¬ fused →
      (island < 640 → island % 10 < 8 →
        exec (.powerCap island rate) s = .next { s with islands := tset island (min rate now.1, now.2) s.islands }) ∧
      (640 ≤ island ∨ 8 ≤ island % 10 → exec (.powerCap island rate) s = .next s) ∧
      exec (.thermalThrottle island) s = .next { s with islands := tset island (now.1 / 2, now.2) s.islands } ∧
      (s.holder = .firmware →
        runAct (.island island rate mv) s = { s with islands := tset island (rate, mv) s.islands })))

/-- R359 to R361, R363: the transport. A whole frame whose SEQ is expected is accepted, acknowledged and
delivered, class 0 into memory and class 1 to the collective of its match; another SEQ gets a NAK and changes
nothing else; one whose granule faults gets an ABORT (log 37); a frame that is not whole is dropped. ACK and
NAK acknowledge everything below ACKSEQ; NAK and the replay timeout send the rest again, and after 32 resends
without progress the channel fails and is reported. A PROBE changes nothing (log 41). A frame goes to the MAC
address of the firmware's table, and a read through a far window is served at its home and answered (R71; its
messages are the model's, log 30); one of a poisoned unit gets no data, and the policy core is told (R75). -/
def Obligations.TransportEvents : Prop :=
  (∀ (bs : List Byte) (s : State) (src cls seq ack pasid : Nat), Whole s bs 0 src cls seq ack pasid →
    s.power = true → s.released = true →
    let c := theChannel s src cls
    (seq ≠ c.expect → ∃ t, exec (.data bs) s = .next t ∧ SendsOne s t src 2 ∧ t.mem = s.mem ∧ t.collData = s.collData ∧
      (theChannel t src cls).expect = c.expect) ∧
    (seq = c.expect → cls = 1 → ∃ t, exec (.data bs) s = .next t ∧ SendsOne s t src 1 ∧
      (theChannel t src cls).expect = (seq + 1) % 2 ^ 32 ∧ t.collData = s.collData ++
        [{ pasid := pasid, match_ := frameNum bs 24 8, rmod := src, payload := framePayload bs }]) ∧
    (∀ h k, seq = c.expect → cls = 0 → frameNum bs 20 2 = 16 → frameNum bs 24 8 % 16 = 0 →
      (remotePlace s pasid (frameNum bs 24 8) 16).1 = some (h, k) → isHome h = true →
      memWf s.mem = true → ∃ t, exec (.data bs) s = .next t ∧ SendsOne s t src 1 ∧
        (theChannel t src cls).expect = (seq + 1) % 2 ^ 32 ∧ memRead h 16 t.mem = framePayload bs) ∧
    (seq = c.expect → cls = 0 → frameNum bs 20 2 = 16 → frameNum bs 24 8 % 16 = 0 →
      (remotePlace s pasid (frameNum bs 24 8) 16).1 = none →
      ∃ t, exec (.data bs) s = .next t ∧ SendsOne s t src 3 ∧ t.mem = s.mem)) ∧
  (∀ (bs : List Byte) (s : State), (frameOk s bs 0 = false → exec (.data bs) s = .next s) ∧
    (frameOk s bs 1 = false → exec (.ack bs) s = .next s) ∧ (frameOk s bs 2 = false → exec (.nak bs) s = .next s) ∧
    exec (.probe bs) s = .next s) ∧
  (∀ (bs : List Byte) (s : State) (src cls seq ack pasid : Nat) (c : Channel), s.power = true →
    channel? s src cls = some c → c.failed = false →
    (Whole s bs 1 src cls seq ack pasid → ∃ t d, exec (.ack bs) s = .next t ∧ channel? t src cls = some d ∧
      d.unacked = leftAfter c ack ∧ d.nextSeq = c.nextSeq ∧ t.ethOut = s.ethOut) ∧
    (Whole s bs 2 src cls seq ack pasid → leftAfter c ack ≠ [] →
      ((leftAfter c ack).length < c.unacked.length ∨ c.resends < 32) → ∃ t d, exec (.nak bs) s = .next t ∧
        channel? t src cls = some d ∧ d.unacked = leftAfter c ack ∧ d.failed = false ∧
        t.ethOut.length = s.ethOut.length + (leftAfter c ack).length) ∧
    (Whole s bs 2 src cls seq ack pasid → leftAfter c ack = c.unacked → c.unacked ≠ [] → 32 ≤ c.resends →
      ∃ t d, exec (.nak bs) s = .next t ∧ channel? t src cls = some d ∧ d.failed = true ∧
        t.reports = s.reports ++ [.channel src cls])) ∧
  (∀ (peer cls : Nat) (s : State) (c : Channel), channel? s peer cls = some c → c.failed = false → c.unacked ≠ [] →
    (s.cycle < c.since + 18000 → exec (.replayTimeout peer cls) s = .next s) ∧
    (c.since + 18000 ≤ s.cycle → c.resends < 32 → ∃ t d, exec (.replayTimeout peer cls) s = .next t ∧
      channel? t peer cls = some d ∧ d.unacked = c.unacked ∧ d.resends = c.resends + 1 ∧ d.since = s.cycle ∧
      t.ethOut.length = s.ethOut.length + c.unacked.length) ∧
    (c.since + 18000 ≤ s.cycle → 32 ≤ c.resends → ∃ t d, exec (.replayTimeout peer cls) s = .next t ∧
      channel? t peer cls = some d ∧ d.failed = true ∧ t.reports = s.reports ++ [.channel peer cls])) ∧
  (∀ (m n : Nat) (a : List Byte) (s : State),
    (s.holder = .firmware → m < 8192 → a.length = 6 → runAct (.mac m a) s = { s with macs := tset m a s.macs }) ∧
    (∀ p, p ∈ (runAct (.port n true) s).badPorts ↔ p = n ∨ p ∈ s.badPorts)) ∧
  (∀ (rmod pasid va len h : Nat) (k : Option Chk) (s v : State), inTcm va = false → inSpm va = false →
    va % 16 + len ≤ 16 → s.power = true → s.released = true → (∀ q ∈ s.farIn, q.id ≠ s.nextId) →
    locateNow s .io 0 pasid .load va len = (.ok (.home h k), v) →
    let t := runAct (.farServe rmod pasid va len) s
    t.mem = s.mem ∧ t.outq = s.outq ∧
      (poisoned s h len = false →
        t.farOut = s.farOut ++ [{ rmod := rmod, bytes := some (memRead h len s.mem) }] ∧ t.reports = s.reports) ∧
      (poisoned s h len = true → t.farOut = s.farOut ++ [{ rmod := rmod, bytes := none }] ∧
        t.reports = s.reports ++ [.poisoned pasid va])) ∧
  (∀ (id : Nat) (bs : List Byte) (s : State) (r : FarRead), s.farReads.find? (fun x => x.id == id) = some r →
    bs.length = r.len → runAct (.farAnswer id (some bs)) s =
      { s with farReads := s.farReads.filter (fun x => x.id != id),
               ioGot := s.ioGot ++ [{ owner := .op r.op, addr := r.addr, bytes := some bs }] })

end

namespace Sys2Proof.Claims
open Sys2Proof Sys2Proof.Machine

/-! ## What programs cannot change -/

/-- The trust and host state: fuses, lease, latchkey, firmware and the policy core, mailbox, reclaim and its
record, the queue table and page directory bases, invalidations, apertures, MSI-X table, TIME, power, and the
tables of the transport. -/
def SameTrust (s t : State) : Prop :=
  t.fuses = s.fuses ∧ t.lease = s.lease ∧ t.features = s.features ∧ t.nonce = s.nonce ∧ t.bootImage = s.bootImage ∧
  t.staged = s.staged ∧ t.stagedOwner = s.stagedOwner ∧ t.current = s.current ∧ t.holder = s.holder ∧ t.hand = s.hand ∧
  t.policyTcm = s.policyTcm ∧ t.policyRegs = s.policyRegs ∧ t.policyPc = s.policyPc ∧ t.mbxMctp = s.mbxMctp ∧
  t.mctp = s.mctp ∧ t.mctpOut = s.mctpOut ∧ t.msixTab = s.msixTab ∧ t.aer = s.aer ∧ t.macs = s.macs ∧
  t.badPorts = s.badPorts ∧ t.trim = s.trim ∧ t.timeFrac = s.timeFrac ∧ t.pasidCap = s.pasidCap ∧ t.record = s.record ∧ t.reclaimState = s.reclaimState ∧ t.mbxBusy = s.mbxBusy ∧
  t.mbxCmd = s.mbxCmd ∧ t.mbxData = s.mbxData ∧ t.qtbase = s.qtbase ∧ t.pdirbase = s.pdirbase ∧
  t.pdircount = s.pdircount ∧ t.inval = s.inval ∧ t.invcmd = s.invcmd ∧ t.invaddr = s.invaddr ∧ t.aptBase = s.aptBase ∧
  t.aptCtl = s.aptCtl ∧ t.time = s.time ∧ t.cycle = s.cycle ∧ t.power = s.power ∧ t.released = s.released ∧
  t.stopped = s.stopped ∧ t.setUp = s.setUp ∧ t.policyHalted = s.policyHalted ∧ t.badUnits = s.badUnits ∧
  t.farWin = s.farWin ∧ t.xgroups = s.xgroups ∧ t.modnum = s.modnum ∧ t.islands = s.islands

end Sys2Proof.Claims

section
open Sys2Proof Sys2Proof.Machine Sys2Proof.Claims

/-- R364, R367, R370, R376, R415: no instruction of a program changes what belongs to the host, the firmware
and the fuses: whatever a context executes, the trust and host state is as before. -/
def Obligations.ProgramsCannotChangeTrust : Prop :=
  ∀ (i : Instr) (s t : State), i.isEvent = false → exec i s = .next t → SameTrust s t

end
end

