-- ==== Sys2Proof/Laws/Dispatch.lean ====
section
/-! SUPPORT. The arm of each constructor, as an equation. -/

namespace Sys2Proof.Machine
open Sys2Proof

theorem exec_add (w : Bool) (d : SReg) (a : SReg) (b : Operand) (s : State) :
    exec (.add w d a b) s = execAdd w d a b s := rfl
theorem exec_sub (w : Bool) (d : SReg) (a : SReg) (b : Operand) (s : State) :
    exec (.sub w d a b) s = execSub w d a b s := rfl
theorem exec_and (d : SReg) (a : SReg) (b : Operand) (s : State) :
    exec (.and d a b) s = execAnd d a b s := rfl
theorem exec_or (d : SReg) (a : SReg) (b : Operand) (s : State) :
    exec (.or d a b) s = execOr d a b s := rfl
theorem exec_xor (d : SReg) (a : SReg) (b : Operand) (s : State) :
    exec (.xor d a b) s = execXor d a b s := rfl
theorem exec_andn (d : SReg) (a : SReg) (b : Operand) (s : State) :
    exec (.andn d a b) s = execAndn d a b s := rfl
theorem exec_sll (w : Bool) (d : SReg) (a : SReg) (b : Operand) (s : State) :
    exec (.sll w d a b) s = execSll w d a b s := rfl
theorem exec_srl (w : Bool) (d : SReg) (a : SReg) (b : Operand) (s : State) :
    exec (.srl w d a b) s = execSrl w d a b s := rfl
theorem exec_sra (w : Bool) (d : SReg) (a : SReg) (b : Operand) (s : State) :
    exec (.sra w d a b) s = execSra w d a b s := rfl
theorem exec_rol (w : Bool) (d : SReg) (a : SReg) (b : Operand) (s : State) :
    exec (.rol w d a b) s = execRol w d a b s := rfl
theorem exec_slt (d : SReg) (a : SReg) (b : Operand) (s : State) :
    exec (.slt d a b) s = execSlt d a b s := rfl
theorem exec_sltu (d : SReg) (a : SReg) (b : Operand) (s : State) :
    exec (.sltu d a b) s = execSltu d a b s := rfl
theorem exec_min (d : SReg) (a : SReg) (b : Operand) (s : State) :
    exec (.min d a b) s = execMin d a b s := rfl
theorem exec_max (d : SReg) (a : SReg) (b : Operand) (s : State) :
    exec (.max d a b) s = execMax d a b s := rfl
theorem exec_minu (d : SReg) (a : SReg) (b : Operand) (s : State) :
    exec (.minu d a b) s = execMinu d a b s := rfl
theorem exec_maxu (d : SReg) (a : SReg) (b : Operand) (s : State) :
    exec (.maxu d a b) s = execMaxu d a b s := rfl
theorem exec_mul (w : Bool) (d : SReg) (a : SReg) (b : Operand) (s : State) :
    exec (.mul w d a b) s = execMul w d a b s := rfl
theorem exec_mulh (d : SReg) (a : SReg) (b : Operand) (s : State) :
    exec (.mulh d a b) s = execMulh d a b s := rfl
theorem exec_mulhu (d : SReg) (a : SReg) (b : Operand) (s : State) :
    exec (.mulhu d a b) s = execMulhu d a b s := rfl
theorem exec_div (w : Bool) (d : SReg) (a : SReg) (b : Operand) (s : State) :
    exec (.div w d a b) s = execDiv w d a b s := rfl
theorem exec_divu (w : Bool) (d : SReg) (a : SReg) (b : Operand) (s : State) :
    exec (.divu w d a b) s = execDivu w d a b s := rfl
theorem exec_rem (w : Bool) (d : SReg) (a : SReg) (b : Operand) (s : State) :
    exec (.rem w d a b) s = execRem w d a b s := rfl
theorem exec_remu (w : Bool) (d : SReg) (a : SReg) (b : Operand) (s : State) :
    exec (.remu w d a b) s = execRemu w d a b s := rfl
theorem exec_shadd (k : BitVec 2) (d : SReg) (a : SReg) (b : Operand) (s : State) :
    exec (.shadd k d a b) s = execShadd k d a b s := rfl
theorem exec_sel (d : SReg) (a : SReg) (b : Operand) (s : State) :
    exec (.sel d a b) s = execSel d a b s := rfl
theorem exec_clz (w : Bool) (d : SReg) (a : SReg) (s : State) :
    exec (.clz w d a) s = execClz w d a s := rfl
theorem exec_ctz (w : Bool) (d : SReg) (a : SReg) (s : State) :
    exec (.ctz w d a) s = execCtz w d a s := rfl
theorem exec_popc (w : Bool) (d : SReg) (a : SReg) (s : State) :
    exec (.popc w d a) s = execPopc w d a s := rfl
theorem exec_brev (w : Bool) (d : SReg) (a : SReg) (s : State) :
    exec (.brev w d a) s = execBrev w d a s := rfl
theorem exec_bswap (w : Bool) (d : SReg) (a : SReg) (s : State) :
    exec (.bswap w d a) s = execBswap w d a s := rfl
theorem exec_sext (d : SReg) (a : SReg) (b : Operand) (s : State) :
    exec (.sext d a b) s = execSext d a b s := rfl
theorem exec_zext (d : SReg) (a : SReg) (b : Operand) (s : State) :
    exec (.zext d a b) s = execZext d a b s := rfl
theorem exec_ext (d : SReg) (a : SReg) (b : Operand) (s : State) :
    exec (.ext d a b) s = execExt d a b s := rfl
theorem exec_ins (d : SReg) (a : SReg) (b : Operand) (s : State) :
    exec (.ins d a b) s = execIns d a b s := rfl
theorem exec_addi (d : SReg) (a : SReg) (imm : BitVec 15) (s : State) :
    exec (.addi d a imm) s = execAddi d a imm s := rfl
theorem exec_andi (d : SReg) (a : SReg) (imm : BitVec 15) (s : State) :
    exec (.andi d a imm) s = execAndi d a imm s := rfl
theorem exec_ori (d : SReg) (a : SReg) (imm : BitVec 15) (s : State) :
    exec (.ori d a imm) s = execOri d a imm s := rfl
theorem exec_xori (d : SReg) (a : SReg) (imm : BitVec 15) (s : State) :
    exec (.xori d a imm) s = execXori d a imm s := rfl
theorem exec_slti (d : SReg) (a : SReg) (imm : BitVec 15) (s : State) :
    exec (.slti d a imm) s = execSlti d a imm s := rfl
theorem exec_sltiu (d : SReg) (a : SReg) (imm : BitVec 15) (s : State) :
    exec (.sltiu d a imm) s = execSltiu d a imm s := rfl
theorem exec_slli (d : SReg) (a : SReg) (n : BitVec 6) (s : State) :
    exec (.slli d a n) s = execSlli d a n s := rfl
theorem exec_srli (d : SReg) (a : SReg) (n : BitVec 6) (s : State) :
    exec (.srli d a n) s = execSrli d a n s := rfl
theorem exec_srai (d : SReg) (a : SReg) (n : BitVec 6) (s : State) :
    exec (.srai d a n) s = execSrai d a n s := rfl
theorem exec_roli (d : SReg) (a : SReg) (n : BitVec 6) (s : State) :
    exec (.roli d a n) s = execRoli d a n s := rfl
theorem exec_fadd (r : BitVec 2) (f : Bool) (d : SReg) (a : SReg) (b : Operand) (s : State) :
    exec (.fadd r f d a b) s = execFadd r f d a b s := rfl
theorem exec_fsub (r : BitVec 2) (f : Bool) (d : SReg) (a : SReg) (b : Operand) (s : State) :
    exec (.fsub r f d a b) s = execFsub r f d a b s := rfl
theorem exec_fmul (r : BitVec 2) (f : Bool) (d : SReg) (a : SReg) (b : Operand) (s : State) :
    exec (.fmul r f d a b) s = execFmul r f d a b s := rfl
theorem exec_fdiv (r : BitVec 2) (f : Bool) (d : SReg) (a : SReg) (b : Operand) (s : State) :
    exec (.fdiv r f d a b) s = execFdiv r f d a b s := rfl
theorem exec_fsqrt (r : BitVec 2) (f : Bool) (d : SReg) (a : SReg) (s : State) :
    exec (.fsqrt r f d a) s = execFsqrt r f d a s := rfl
theorem exec_fmin (f : Bool) (d : SReg) (a : SReg) (b : Operand) (s : State) :
    exec (.fmin f d a b) s = execFmin f d a b s := rfl
theorem exec_fmax (f : Bool) (d : SReg) (a : SReg) (b : Operand) (s : State) :
    exec (.fmax f d a b) s = execFmax f d a b s := rfl
theorem exec_fma (r : BitVec 2) (f : Bool) (d : SReg) (a : SReg) (b : Operand) (s : State) :
    exec (.fma r f d a b) s = execFma r f d a b s := rfl
theorem exec_fnma (r : BitVec 2) (f : Bool) (d : SReg) (a : SReg) (b : Operand) (s : State) :
    exec (.fnma r f d a b) s = execFnma r f d a b s := rfl
theorem exec_feq (f : Bool) (d : SReg) (a : SReg) (b : Operand) (s : State) :
    exec (.feq f d a b) s = execFeq f d a b s := rfl
theorem exec_flt (f : Bool) (d : SReg) (a : SReg) (b : Operand) (s : State) :
    exec (.flt f d a b) s = execFlt f d a b s := rfl
theorem exec_fle (f : Bool) (d : SReg) (a : SReg) (b : Operand) (s : State) :
    exec (.fle f d a b) s = execFle f d a b s := rfl
theorem exec_fclass (f : Bool) (d : SReg) (a : SReg) (s : State) :
    exec (.fclass f d a) s = execFclass f d a s := rfl
theorem exec_fcvt (r : BitVec 2) (k : BitVec 5) (d : SReg) (a : SReg) (s : State) :
    exec (.fcvt r k d a) s = execFcvt r k d a s := rfl
theorem exec_fsgnJ (f : Bool) (d : SReg) (a : SReg) (b : Operand) (s : State) :
    exec (.fsgnJ f d a b) s = execFsgnJ f d a b s := rfl
theorem exec_fsgnJn (f : Bool) (d : SReg) (a : SReg) (b : Operand) (s : State) :
    exec (.fsgnJn f d a b) s = execFsgnJn f d a b s := rfl
theorem exec_fsgnJx (f : Bool) (d : SReg) (a : SReg) (b : Operand) (s : State) :
    exec (.fsgnJx f d a b) s = execFsgnJx f d a b s := rfl
theorem exec_ld (o : Bool) (z : BitVec 3) (h : BitVec 2) (b : SReg) (a : SReg) (t : SReg) (s : State) :
    exec (.ld o z h b a t) s = execLd o z h b a t s := rfl
theorem exec_ldFe (o : Bool) (z : BitVec 3) (h : BitVec 2) (b : SReg) (a : SReg) (t : SReg) (s : State) :
    exec (.ldFe o z h b a t) s = execLdFe o z h b a t s := rfl
theorem exec_ldFec (o : Bool) (z : BitVec 3) (h : BitVec 2) (b : SReg) (a : SReg) (t : SReg) (s : State) :
    exec (.ldFec o z h b a t) s = execLdFec o z h b a t s := rfl
theorem exec_st (o : Bool) (z : BitVec 2) (h : BitVec 2) (b : SReg) (a : SReg) (t : SReg) (s : State) :
    exec (.st o z h b a t) s = execSt o z h b a t s := rfl
theorem exec_stFes (o : Bool) (z : BitVec 2) (h : BitVec 2) (b : SReg) (a : SReg) (t : SReg) (s : State) :
    exec (.stFes o z h b a t) s = execStFes o z h b a t s := rfl
theorem exec_stFee (o : Bool) (z : BitVec 2) (h : BitVec 2) (b : SReg) (a : SReg) (t : SReg) (s : State) :
    exec (.stFee o z h b a t) s = execStFee o z h b a t s := rfl
theorem exec_ldi (off : BitVec 10) (z : BitVec 3) (o : Bool) (a : SReg) (t : SReg) (s : State) :
    exec (.ldi off z o a t) s = execLdi off z o a t s := rfl
theorem exec_sti (off : BitVec 10) (z : BitVec 2) (o : Bool) (a : SReg) (t : SReg) (s : State) :
    exec (.sti off z o a t) s = execSti off z o a t s := rfl
theorem exec_pref (off : BitVec 10) (a : SReg) (s : State) :
    exec (.pref off a) s = execPref off a s := rfl
theorem exec_amoAdd (scope : BitVec 3) (o : BitVec 2) (w : Bool) (b : SReg) (a : SReg) (d : SReg) (s : State) :
    exec (.amoAdd scope o w b a d) s = execAmoAdd scope o w b a d s := rfl
theorem exec_amoAnd (scope : BitVec 3) (o : BitVec 2) (w : Bool) (b : SReg) (a : SReg) (d : SReg) (s : State) :
    exec (.amoAnd scope o w b a d) s = execAmoAnd scope o w b a d s := rfl
theorem exec_amoOr (scope : BitVec 3) (o : BitVec 2) (w : Bool) (b : SReg) (a : SReg) (d : SReg) (s : State) :
    exec (.amoOr scope o w b a d) s = execAmoOr scope o w b a d s := rfl
theorem exec_amoXor (scope : BitVec 3) (o : BitVec 2) (w : Bool) (b : SReg) (a : SReg) (d : SReg) (s : State) :
    exec (.amoXor scope o w b a d) s = execAmoXor scope o w b a d s := rfl
theorem exec_amoMin (scope : BitVec 3) (o : BitVec 2) (w : Bool) (b : SReg) (a : SReg) (d : SReg) (s : State) :
    exec (.amoMin scope o w b a d) s = execAmoMin scope o w b a d s := rfl
theorem exec_amoMax (scope : BitVec 3) (o : BitVec 2) (w : Bool) (b : SReg) (a : SReg) (d : SReg) (s : State) :
    exec (.amoMax scope o w b a d) s = execAmoMax scope o w b a d s := rfl
theorem exec_amoMinu (scope : BitVec 3) (o : BitVec 2) (w : Bool) (b : SReg) (a : SReg) (d : SReg) (s : State) :
    exec (.amoMinu scope o w b a d) s = execAmoMinu scope o w b a d s := rfl
theorem exec_amoMaxu (scope : BitVec 3) (o : BitVec 2) (w : Bool) (b : SReg) (a : SReg) (d : SReg) (s : State) :
    exec (.amoMaxu scope o w b a d) s = execAmoMaxu scope o w b a d s := rfl
theorem exec_amoSwap (scope : BitVec 3) (o : BitVec 2) (w : Bool) (b : SReg) (a : SReg) (d : SReg) (s : State) :
    exec (.amoSwap scope o w b a d) s = execAmoSwap scope o w b a d s := rfl
theorem exec_cas (scope : BitVec 3) (o : BitVec 2) (w : Bool) (b : SReg) (a : SReg) (d : SReg) (s : State) :
    exec (.cas scope o w b a d) s = execCas scope o w b a d s := rfl
theorem exec_fence (scope : BitVec 3) (s : State) :
    exec (.fence scope) s = execFence scope s := rfl
theorem exec_beq (off : BitVec 11) (b : SReg) (a : SReg) (s : State) :
    exec (.beq off b a) s = execBeq off b a s := rfl
theorem exec_bne (off : BitVec 11) (b : SReg) (a : SReg) (s : State) :
    exec (.bne off b a) s = execBne off b a s := rfl
theorem exec_blt (off : BitVec 11) (b : SReg) (a : SReg) (s : State) :
    exec (.blt off b a) s = execBlt off b a s := rfl
theorem exec_bge (off : BitVec 11) (b : SReg) (a : SReg) (s : State) :
    exec (.bge off b a) s = execBge off b a s := rfl
theorem exec_bltu (off : BitVec 11) (b : SReg) (a : SReg) (s : State) :
    exec (.bltu off b a) s = execBltu off b a s := rfl
theorem exec_bgeu (off : BitVec 11) (b : SReg) (a : SReg) (s : State) :
    exec (.bgeu off b a) s = execBgeu off b a s := rfl
theorem exec_jal (off : BitVec 20) (d : SReg) (s : State) :
    exec (.jal off d) s = execJal off d s := rfl
theorem exec_jalr (imm : BitVec 15) (a : SReg) (d : SReg) (s : State) :
    exec (.jalr imm a d) s = execJalr imm a d s := rfl
theorem exec_loop (imm : BitVec 15) (a : SReg) (s : State) :
    exec (.loop imm a) s = execLoop imm a s := rfl
theorem exec_rep (ss : BitVec 4) (hs : BitVec 4) (c : SReg) (n : BitVec 5) (s : State) :
    exec (.rep ss hs c n) s = execRep ss hs c n s := rfl
theorem exec_callh (a : SReg) (d : SReg) (s : State) :
    exec (.callh a d) s = execCallh a d s := rfl
theorem exec_reth (a : SReg) (s : State) :
    exec (.reth a) s = execReth a s := rfl
theorem exec_csrr (c : BitVec 12) (d : SReg) (s : State) :
    exec (.csrr c d) s = execCsrr c d s := rfl
theorem exec_csrw (c : BitVec 12) (a : SReg) (d : SReg) (s : State) :
    exec (.csrw c a d) s = execCsrw c a d s := rfl
theorem exec_csrs (c : BitVec 12) (a : SReg) (d : SReg) (s : State) :
    exec (.csrs c a d) s = execCsrs c a d s := rfl
theorem exec_csrc (c : BitVec 12) (a : SReg) (d : SReg) (s : State) :
    exec (.csrc c a d) s = execCsrc c a d s := rfl
theorem exec_trap (imm : BitVec 15) (s : State) :
    exec (.trap imm) s = execTrap imm s := rfl
theorem exec_eret (s : State) :
    exec .eret s = execEret s := rfl
theorem exec_brk (imm : BitVec 15) (s : State) :
    exec (.brk imm) s = execBrk imm s := rfl
theorem exec_hld (imm : BitVec 8) (q : SReg) (hd : HReg) (s : State) :
    exec (.hld imm q hd) s = execHld imm q hd s := rfl
theorem exec_hst (imm : BitVec 8) (q : SReg) (ha : HReg) (s : State) :
    exec (.hst imm q ha) s = execHst imm q ha s := rfl
theorem exec_hget (w : BitVec 2) (q : SReg) (ha : HReg) (s : State) :
    exec (.hget w q ha) s = execHget w q ha s := rfl
theorem exec_hset (w : BitVec 2) (q : SReg) (ha : HReg) (hd : HReg) (s : State) :
    exec (.hset w q ha hd) s = execHset w q ha hd s := rfl
theorem exec_hmov (ha : HReg) (hd : HReg) (s : State) :
    exec (.hmov ha hd) s = execHmov ha hd s := rfl
theorem exec_hadv (w : BitVec 2) (q : SReg) (ha : HReg) (hd : HReg) (s : State) :
    exec (.hadv w q ha hd) s = execHadv w q ha hd s := rfl
theorem exec_hchk (u : Bool) (q : SReg) (ha : HReg) (s : State) :
    exec (.hchk u q ha) s = execHchk u q ha s := rfl
theorem exec_start (d : SReg) (a : SReg) (b : SReg) (s : State) :
    exec (.start d a b) s = execStart d a b s := rfl
theorem exec_hexit (a : SReg) (s : State) :
    exec (.hexit a) s = execHexit a s := rfl
theorem exec_hjoin (d : SReg) (a : SReg) (b : SReg) (s : State) :
    exec (.hjoin d a b) s = execHjoin d a b s := rfl
theorem exec_hstat (d : SReg) (a : SReg) (s : State) :
    exec (.hstat d a) s = execHstat d a s := rfl
theorem exec_bara (g : BitVec 2) (b : SReg) (s : State) :
    exec (.bara g b) s = execBara g b s := rfl
theorem exec_barw (d : SReg) (g : BitVec 2) (s : State) :
    exec (.barw d g) s = execBarw d g s := rfl
theorem exec_bar (d : SReg) (g : BitVec 2) (b : SReg) (s : State) :
    exec (.bar d g b) s = execBar d g b s := rfl
theorem exec_exch (d : SReg) (s : State) :
    exec (.exch d) s = execExch d s := rfl
theorem exec_step (d : SReg) (s : State) :
    exec (.step d) s = execStep d s := rfl
theorem exec_msend (a : SReg) (b : SReg) (s : State) :
    exec (.msend a b) s = execMsend a b s := rfl
theorem exec_mrecv (d : SReg) (a : SReg) (s : State) :
    exec (.mrecv d a) s = execMrecv d a s := rfl
theorem exec_messageArrival (core : Nat) (id : Nat) (s : State) :
    exec (.messageArrival core id) s = execMessageArrival core id s := rfl
theorem exec_msendRetry (core : Nat) (id : Nat) (s : State) :
    exec (.msendRetry core id) s = execMsendRetry core id s := rfl
theorem exec_enq (d : SReg) (a : SReg) (b : SReg) (s : State) :
    exec (.enq d a b) s = execEnq d a b s := rfl
theorem exec_rdone (d : SReg) (s : State) :
    exec (.rdone d) s = execRdone d s := rfl
theorem exec_grab (d : SReg) (a : SReg) (s : State) :
    exec (.grab d a) s = execGrab d a s := rfl
theorem exec_preempt (d : SReg) (a : SReg) (live : BitVec 48) (s : State) :
    exec (.preempt d a live) s = execPreempt d a live s := rfl
theorem exec_sleepto (a : SReg) (s : State) :
    exec (.sleepto a) s = execSleepto a s := rfl
theorem exec_waitt (d : SReg) (a : SReg) (s : State) :
    exec (.waitt d a) s = execWaitt d a s := rfl
theorem exec_tstat (d : SReg) (a : SReg) (s : State) :
    exec (.tstat d a) s = execTstat d a s := rfl
theorem exec_cancel (d : SReg) (a : SReg) (s : State) :
    exec (.cancel d a) s = execCancel d a s := rfl
theorem exec_detach (d : SReg) (a : SReg) (b : SReg) (s : State) :
    exec (.detach d a b) s = execDetach d a b s := rfl
theorem exec_adopt (d : SReg) (a : SReg) (s : State) :
    exec (.adopt d a) s = execAdopt d a s := rfl
theorem exec_tpri (d : SReg) (a : SReg) (b : SReg) (s : State) :
    exec (.tpri d a b) s = execTpri d a b s := rfl
theorem exec_tfrec (d : SReg) (a : SReg) (b : SReg) (s : State) :
    exec (.tfrec d a b) s = execTfrec d a b s := rfl
theorem exec_waits (d : SReg) (a : SReg) (s : State) :
    exec (.waits d a) s = execWaits d a s := rfl
theorem exec_rginit (d : SReg) (h : HReg) (s : State) :
    exec (.rginit d h) s = execRginit d h s := rfl
theorem exec_rgwait (d : SReg) (a : SReg) (s : State) :
    exec (.rgwait d a) s = execRgwait d a s := rfl
theorem exec_rgrel (a : SReg) (s : State) :
    exec (.rgrel a) s = execRgrel a s := rfl
theorem exec_rgstat (d : SReg) (a : SReg) (s : State) :
    exec (.rgstat d a) s = execRgstat d a s := rfl
theorem exec_reserveSlot (id : Nat) (s : State) :
    exec (.reserveSlot id) s = execReserveSlot id s := rfl
theorem exec_fillSlot (id : Nat) (s : State) :
    exec (.fillSlot id) s = execFillSlot id s := rfl
theorem exec_claimHead (id : Nat) (s : State) :
    exec (.claimHead id) s = execClaimHead id s := rfl
theorem exec_hacq (d : SReg) (a : SReg) (s : State) :
    exec (.hacq d a) s = execHacq d a s := rfl
theorem exec_hrel (d : SReg) (a : SReg) (s : State) :
    exec (.hrel d a) s = execHrel d a s := rfl
theorem exec_hinfo (d : SReg) (a : SReg) (s : State) :
    exec (.hinfo d a) s = execHinfo d a s := rfl
theorem exec_qsub (d : SReg) (a : SReg) (b : SReg) (s : State) :
    exec (.qsub d a b) s = execQsub d a b s := rfl
theorem exec_qstat (d : SReg) (a : SReg) (s : State) :
    exec (.qstat d a) s = execQstat d a s := rfl
theorem exec_bind (d : SReg) (a : SReg) (h : HReg) (s : State) :
    exec (.bind d a h) s = execBind d a h s := rfl
theorem exec_unbind (d : SReg) (a : SReg) (s : State) :
    exec (.unbind d a) s = execUnbind d a s := rfl
theorem exec_copy (o : EOrd) (hC : HReg) (hA : HReg) (sX : SReg) (sY : SReg) (sZ : SReg) (s : State) :
    exec (.copy o hC hA sX sY sZ) s = execCopy o hC hA sX sY sZ s := rfl
theorem exec_copym (o : EOrd) (hC : HReg) (hA : HReg) (sX : SReg) (s : State) :
    exec (.copym o hC hA sX) s = execCopym o hC hA sX s := rfl
theorem exec_pack (o : EOrd) (hC : HReg) (hA : HReg) (sX : SReg) (s : State) :
    exec (.pack o hC hA sX) s = execPack o hC hA sX s := rfl
theorem exec_unpack (o : EOrd) (hC : HReg) (hA : HReg) (sX : SReg) (s : State) :
    exec (.unpack o hC hA sX) s = execUnpack o hC hA sX s := rfl
theorem exec_scadd (o : EOrd) (hA : HReg) (hB : HReg) (sX : SReg) (s : State) :
    exec (.scadd o hA hB sX) s = execScadd o hA hB sX s := rfl
theorem exec_bflush (o : EOrd) (sX : SReg) (s : State) :
    exec (.bflush o sX) s = execBflush o sX s := rfl
theorem exec_mma (ovw : Bool) (o : EOrd) (hC : HReg) (hA : HReg) (hB : HReg) (s : State) :
    exec (.mma ovw o hC hA hB) s = execMma ovw o hC hA hB s := rfl
theorem exec_mmag (ovw : Bool) (o : EOrd) (hC : HReg) (hA : HReg) (hB : HReg) (sX : SReg) (sY : SReg) (sZ : SReg) (s : State) :
    exec (.mmag ovw o hC hA hB sX sY sZ) s = execMmag ovw o hC hA hB sX sY sZ s := rfl
theorem exec_vadd (r : BitVec 2) (o : VOrd) (hC : HReg) (hA : HReg) (hB : HReg) (s : State) :
    exec (.vadd r o hC hA hB) s = execVadd r o hC hA hB s := rfl
theorem exec_vsub (r : BitVec 2) (o : VOrd) (hC : HReg) (hA : HReg) (hB : HReg) (s : State) :
    exec (.vsub r o hC hA hB) s = execVsub r o hC hA hB s := rfl
theorem exec_vmul (r : BitVec 2) (o : VOrd) (hC : HReg) (hA : HReg) (hB : HReg) (s : State) :
    exec (.vmul r o hC hA hB) s = execVmul r o hC hA hB s := rfl
theorem exec_vfma (r : BitVec 2) (o : VOrd) (hC : HReg) (hA : HReg) (hB : HReg) (s : State) :
    exec (.vfma r o hC hA hB) s = execVfma r o hC hA hB s := rfl
theorem exec_vmax (r : BitVec 2) (o : VOrd) (hC : HReg) (hA : HReg) (hB : HReg) (s : State) :
    exec (.vmax r o hC hA hB) s = execVmax r o hC hA hB s := rfl
theorem exec_vmin (r : BitVec 2) (o : VOrd) (hC : HReg) (hA : HReg) (hB : HReg) (s : State) :
    exec (.vmin r o hC hA hB) s = execVmin r o hC hA hB s := rfl
theorem exec_vabs (r : BitVec 2) (o : VOrd) (hC : HReg) (hA : HReg) (s : State) :
    exec (.vabs r o hC hA) s = execVabs r o hC hA s := rfl
theorem exec_vneg (r : BitVec 2) (o : VOrd) (hC : HReg) (hA : HReg) (s : State) :
    exec (.vneg r o hC hA) s = execVneg r o hC hA s := rfl
theorem exec_vexp (r : BitVec 2) (o : VOrd) (hC : HReg) (hA : HReg) (s : State) :
    exec (.vexp r o hC hA) s = execVexp r o hC hA s := rfl
theorem exec_vlog (r : BitVec 2) (o : VOrd) (hC : HReg) (hA : HReg) (s : State) :
    exec (.vlog r o hC hA) s = execVlog r o hC hA s := rfl
theorem exec_vrcp (r : BitVec 2) (o : VOrd) (hC : HReg) (hA : HReg) (s : State) :
    exec (.vrcp r o hC hA) s = execVrcp r o hC hA s := rfl
theorem exec_vrsq (r : BitVec 2) (o : VOrd) (hC : HReg) (hA : HReg) (s : State) :
    exec (.vrsq r o hC hA) s = execVrsq r o hC hA s := rfl
theorem exec_vtanh (r : BitVec 2) (o : VOrd) (hC : HReg) (hA : HReg) (s : State) :
    exec (.vtanh r o hC hA) s = execVtanh r o hC hA s := rfl
theorem exec_vcmp (r : BitVec 2) (o : VOrd) (hC : HReg) (hA : HReg) (hB : HReg) (sX : SReg) (s : State) :
    exec (.vcmp r o hC hA hB sX) s = execVcmp r o hC hA hB sX s := rfl
theorem exec_vsel (r : BitVec 2) (o : VOrd) (hC : HReg) (hA : HReg) (hB : HReg) (s : State) :
    exec (.vsel r o hC hA hB) s = execVsel r o hC hA hB s := rfl
theorem exec_vcvt (r : BitVec 2) (o : VOrd) (hC : HReg) (hA : HReg) (s : State) :
    exec (.vcvt r o hC hA) s = execVcvt r o hC hA s := rfl
theorem exec_vscl (r : BitVec 2) (o : VOrd) (hC : HReg) (hA : HReg) (sX : SReg) (s : State) :
    exec (.vscl r o hC hA sX) s = execVscl r o hC hA sX s := rfl
theorem exec_vreds (r : BitVec 2) (o : VOrd) (hC : HReg) (hA : HReg) (s : State) :
    exec (.vreds r o hC hA) s = execVreds r o hC hA s := rfl
theorem exec_vredm (r : BitVec 2) (o : VOrd) (hC : HReg) (hA : HReg) (s : State) :
    exec (.vredm r o hC hA) s = execVredm r o hC hA s := rfl
theorem exec_vscan (r : BitVec 2) (o : VOrd) (hC : HReg) (hA : HReg) (s : State) :
    exec (.vscan r o hC hA) s = execVscan r o hC hA s := rfl
theorem exec_stripDispatch (cl : Nat) (s : State) :
    exec (.stripDispatch cl) s = execStripDispatch cl s := rfl
theorem exec_qntQ4uni (o : EOrd) (hC : HReg) (hA : HReg) (s : State) :
    exec (.qntQ4uni o hC hA) s = execQntQ4uni o hC hA s := rfl
theorem exec_qntQ4e2m1 (o : EOrd) (hC : HReg) (hA : HReg) (s : State) :
    exec (.qntQ4e2m1 o hC hA) s = execQntQ4e2m1 o hC hA s := rfl
theorem exec_qntQ4pow (o : EOrd) (hC : HReg) (hA : HReg) (s : State) :
    exec (.qntQ4pow o hC hA) s = execQntQ4pow o hC hA s := rfl
theorem exec_qntQ4hyb (o : EOrd) (hC : HReg) (hA : HReg) (s : State) :
    exec (.qntQ4hyb o hC hA) s = execQntQ4hyb o hC hA s := rfl
theorem exec_qntQ4auto (o : EOrd) (hC : HReg) (hA : HReg) (s : State) :
    exec (.qntQ4auto o hC hA) s = execQntQ4auto o hC hA s := rfl
theorem exec_dqnt (o : EOrd) (hC : HReg) (hA : HReg) (s : State) :
    exec (.dqnt o hC hA) s = execDqnt o hC hA s := rfl
theorem exec_qchk (o : EOrd) (hA : HReg) (s : State) :
    exec (.qchk o hA) s = execQchk o hA s := rfl
theorem exec_winit (o : EOrd) (hC : HReg) (sX : SReg) (s : State) :
    exec (.winit o hC sX) s = execWinit o hC sX s := rfl
theorem exec_wprobe (o : EOrd) (hC : HReg) (hA : HReg) (hB : HReg) (s : State) :
    exec (.wprobe o hC hA hB) s = execWprobe o hC hA hB s := rfl
theorem exec_wcommit (o : EOrd) (hC : HReg) (hA : HReg) (sX : SReg) (sY : SReg) (sZ : SReg) (s : State) :
    exec (.wcommit o hC hA sX sY sZ) s = execWcommit o hC hA sX sY sZ s := rfl
theorem exec_wpick (o : EOrd) (hA : HReg) (sY : SReg) (sZ : SReg) (s : State) :
    exec (.wpick o hA sY sZ) s = execWpick o hA sY sZ s := rfl
theorem exec_wrd (o : EOrd) (hC : HReg) (hA : HReg) (hB : HReg) (s : State) :
    exec (.wrd o hC hA hB) s = execWrd o hC hA hB s := rfl
theorem exec_allred (red : BitVec 3) (o : EOrd) (hC : HReg) (hA : HReg) (sX : SReg) (sZ : SReg) (s : State) :
    exec (.allred red o hC hA sX sZ) s = execAllred red o hC hA sX sZ s := rfl
theorem exec_redscat (red : BitVec 3) (o : EOrd) (hC : HReg) (hA : HReg) (sX : SReg) (sZ : SReg) (s : State) :
    exec (.redscat red o hC hA sX sZ) s = execRedscat red o hC hA sX sZ s := rfl
theorem exec_allgath (o : EOrd) (hC : HReg) (hA : HReg) (sX : SReg) (sZ : SReg) (s : State) :
    exec (.allgath o hC hA sX sZ) s = execAllgath o hC hA sX sZ s := rfl
theorem exec_bcast (o : EOrd) (hC : HReg) (hA : HReg) (sX : SReg) (sY : SReg) (sZ : SReg) (s : State) :
    exec (.bcast o hC hA sX sY sZ) s = execBcast o hC hA sX sY sZ s := rfl
theorem exec_alltoall (o : EOrd) (hC : HReg) (hA : HReg) (sX : SReg) (sZ : SReg) (s : State) :
    exec (.alltoall o hC hA sX sZ) s = execAlltoall o hC hA sX sZ s := rfl
theorem exec_collectiveTimeout (id : Nat) (s : State) :
    exec (.collectiveTimeout id) s = execCollectiveTimeout id s := rfl
theorem exec_abort (src : AbortSrc) (s : State) :
    exec (.abort src) s = execAbort src s := rfl
theorem exec_spec (o : EOrd) (sX : SReg) (sY : SReg) (sZ : SReg) (s : State) :
    exec (.spec o sX sY sZ) s = execSpec o sX sY sZ s := rfl
theorem exec_engineStart (e : EngineId) (s : State) :
    exec (.engineStart e) s = execEngineStart e s := rfl
theorem exec_engineStep (id : Nat) (k : Nat) (s : State) :
    exec (.engineStep id k) s = execEngineStep id k s := rfl
theorem exec_operationCompletion (id : Nat) (s : State) :
    exec (.operationCompletion id) s = execOperationCompletion id s := rfl
theorem exec_drain (core : Nat) (ctx : Nat) (s : State) :
    exec (.drain core ctx) s = execDrain core ctx s := rfl
theorem exec_perform (src : Nat) (dst : Nat) (s : State) :
    exec (.perform src dst) s = execPerform src dst s := rfl
theorem exec_refresh (die : Nat) (g : Nat) (s : State) :
    exec (.refresh die g) s = execRefresh die g s := rfl
theorem exec_pageWalk (core : Nat) (pasid : Nat) (va : Nat) (s : State) :
    exec (.pageWalk core pasid va) s = execPageWalk core pasid va s := rfl
theorem exec_kick (v : DWord) (s : State) :
    exec (.kick v) s = execKick v s := rfl
theorem exec_kickstatRead (s : State) :
    exec .kickstatRead s = execKickstatRead s := rfl
theorem exec_lookupAnswer (id : Nat) (s : State) :
    exec (.lookupAnswer id) s = execLookupAnswer id s := rfl
theorem exec_qcbChange (c : QueueChange) (s : State) :
    exec (.qcbChange c) s = execQcbChange c s := rfl
theorem exec_nop (s : State) :
    exec .nop s = execNop s := rfl
theorem exec_launch (s : State) :
    exec .launch s = execLaunch s := rfl
theorem exec_gangRelease (id : Nat) (s : State) :
    exec (.gangRelease id) s = execGangRelease id s := rfl
theorem exec_controlContextStart (core : Nat) (s : State) :
    exec (.controlContextStart core) s = execControlContextStart core s := rfl
theorem exec_launchComplete (id : Nat) (s : State) :
    exec (.launchComplete id) s = execLaunchComplete id s := rfl
theorem exec_records (s : State) :
    exec .records s = execRecords s := rfl
theorem exec_expandRecord (id : Nat) (s : State) :
    exec (.expandRecord id) s = execExpandRecord id s := rfl
theorem exec_recordsComplete (id : Nat) (s : State) :
    exec (.recordsComplete id) s = execRecordsComplete id s := rfl
theorem exec_fencePacket (s : State) :
    exec .fencePacket s = execFencePacket s := rfl
theorem exec_signal (s : State) :
    exec .signal s = execSignal s := rfl
theorem exec_serviceDrain (s : State) :
    exec .serviceDrain s = execServiceDrain s := rfl
theorem exec_serviceDrainComplete (s : State) :
    exec .serviceDrainComplete s = execServiceDrainComplete s := rfl
theorem exec_invalidatePage (v : Word) (s : State) :
    exec (.invalidatePage v) s = execInvalidatePage v s := rfl
theorem exec_invalidatePasid (v : Word) (s : State) :
    exec (.invalidatePasid v) s = execInvalidatePasid v s := rfl
theorem exec_invalidateAll (v : Word) (s : State) :
    exec (.invalidateAll v) s = execInvalidateAll v s := rfl
theorem exec_invalidationComplete (s : State) :
    exec .invalidationComplete s = execInvalidationComplete s := rfl
theorem exec_registerWrite (off : Nat) (n : Nat) (v : DWord) (s : State) :
    exec (.registerWrite off n v) s = execRegisterWrite off n v s := rfl
theorem exec_bar2Read (x : Nat) (n : Nat) (tag : Option Nat) (s : State) :
    exec (.bar2Read x n tag) s = execBar2Read x n tag s := rfl
theorem exec_bar2Write (x : Nat) (bs : List Byte) (tag : Option Nat) (s : State) :
    exec (.bar2Write x bs tag) s = execBar2Write x bs tag s := rfl
theorem exec_pcieCompletion (id : Nat) (r : Option (List Byte)) (s : State) :
    exec (.pcieCompletion id r) s = execPcieCompletion id r s := rfl
theorem exec_completionTimeout (id : Nat) (s : State) :
    exec (.completionTimeout id) s = execCompletionTimeout id s := rfl
theorem exec_attest (r : MbxReq) (s : State) :
    exec (.attest r) s = execAttest r s := rfl
theorem exec_challenge (r : MbxReq) (s : State) :
    exec (.challenge r) s = execChallenge r s := rfl
theorem exec_latchkey (r : MbxReq) (s : State) :
    exec (.latchkey r) s = execLatchkey r s := rfl
theorem exec_leaseStart (r : MbxReq) (s : State) :
    exec (.leaseStart r) s = execLeaseStart r s := rfl
theorem exec_stage (r : MbxReq) (s : State) :
    exec (.stage r) s = execStage r s := rfl
theorem exec_handover (r : MbxReq) (s : State) :
    exec (.handover r) s = execHandover r s := rfl
theorem exec_record (r : MbxReq) (s : State) :
    exec (.record r) s = execRecord r s := rfl
theorem exec_reclaim (r : MbxReq) (s : State) :
    exec (.reclaim r) s = execReclaim r s := rfl
theorem exec_reclaimRegisterWrite (v : DWord) (s : State) :
    exec (.reclaimRegisterWrite v) s = execReclaimRegisterWrite v s := rfl
theorem exec_mbxUnknown (code : Nat) (r : MbxReq) (s : State) :
    exec (.mbxUnknown code r) s = execMbxUnknown code r s := rfl
theorem exec_firmwareCommand (code : Nat) (r : MbxReq) (act : FwAction) (s : State) :
    exec (.firmwareCommand code r act) s = execFirmwareCommand code r act s := rfl
theorem exec_yield (s : State) :
    exec .yield s = execYield s := rfl
theorem exec_handoverTimeout (s : State) :
    exec .handoverTimeout s = execHandoverTimeout s := rfl
theorem exec_dbgStop (core : Nat) (s : State) :
    exec (.dbgStop core) s = execDbgStop core s := rfl
theorem exec_dbgGo (core : Nat) (s : State) :
    exec (.dbgGo core) s = execDbgGo core s := rfl
theorem exec_functionLevelReset (s : State) :
    exec .functionLevelReset s = execFunctionLevelReset s := rfl
theorem exec_powerOn (s : State) :
    exec .powerOn s = execPowerOn s := rfl
theorem exec_timeset (v : DWord) (s : State) :
    exec (.timeset v) s = execTimeset v s := rfl
theorem exec_timeTrim (ppm : Int) (s : State) :
    exec (.timeTrim ppm) s = execTimeTrim ppm s := rfl
theorem exec_poolOwnerSet (die : Nat) (pasid : Option Nat) (s : State) :
    exec (.poolOwnerSet die pasid) s = execPoolOwnerSet die pasid s := rfl
theorem exec_preemptRequest (cl : Nat) (lid : Nat) (claim : Nat) (prio : Nat) (base : Nat) (stride : Nat) (s : State) :
    exec (.preemptRequest cl lid claim prio base stride) s = execPreemptRequest cl lid claim prio base stride s := rfl
theorem exec_pointTaken (cl : Nat) (s : State) :
    exec (.pointTaken cl) s = execPointTaken cl s := rfl
theorem exec_pointDeclined (cl : Nat) (s : State) :
    exec (.pointDeclined cl) s = execPointDeclined cl s := rfl
theorem exec_restoreRequest (cl : Nat) (lid : Nat) (s : State) :
    exec (.restoreRequest cl lid) s = execRestoreRequest cl lid s := rfl
theorem exec_jobFatalDiscard (id : Nat) (s : State) :
    exec (.jobFatalDiscard id) s = execJobFatalDiscard id s := rfl
theorem exec_leaderFailover (id : Nat) (s : State) :
    exec (.leaderFailover id) s = execLeaderFailover id s := rfl
theorem exec_data (bs : List Byte) (s : State) :
    exec (.data bs) s = execData bs s := rfl
theorem exec_ack (bs : List Byte) (s : State) :
    exec (.ack bs) s = execAck bs s := rfl
theorem exec_nak (bs : List Byte) (s : State) :
    exec (.nak bs) s = execNak bs s := rfl
theorem exec_probe (bs : List Byte) (s : State) :
    exec (.probe bs) s = execProbe bs s := rfl
theorem exec_replayTimeout (peer : Nat) (cls : Nat) (s : State) :
    exec (.replayTimeout peer cls) s = execReplayTimeout peer cls s := rfl
theorem exec_feTimeout (core : Nat) (ctx : Nat) (s : State) :
    exec (.feTimeout core ctx) s = execFeTimeout core ctx s := rfl
theorem exec_uncorrectableError (u : ErrUnit) (s : State) :
    exec (.uncorrectableError u) s = execUncorrectableError u s := rfl
theorem exec_flitReplay (link : Nat) (s : State) :
    exec (.flitReplay link) s = execFlitReplay link s := rfl
theorem exec_linkFence (link : Nat) (used : List Nat) (s : State) :
    exec (.linkFence link used) s = execLinkFence link used s := rfl
theorem exec_powerCap (island : Nat) (rate : Nat) (s : State) :
    exec (.powerCap island rate) s = execPowerCap island rate s := rfl
theorem exec_thermalThrottle (island : Nat) (s : State) :
    exec (.thermalThrottle island) s = execThermalThrottle island s := rfl
theorem exec_thermalShutdown (s : State) :
    exec .thermalShutdown s = execThermalShutdown s := rfl
theorem exec_badpkt (s : State) :
    exec .badpkt s = execBadpkt s := rfl
theorem exec_sleeptoWake (core : Nat) (ctx : Nat) (s : State) :
    exec (.sleeptoWake core ctx) s = execSleeptoWake core ctx s := rfl
theorem exec_releaseTimeReached (core : Nat) (s : State) :
    exec (.releaseTimeReached core) s = execReleaseTimeReached core s := rfl
theorem exec_saveComplete (cl : Nat) (s : State) :
    exec (.saveComplete cl) s = execSaveComplete cl s := rfl
theorem exec_reclaimComplete (s : State) :
    exec .reclaimComplete s = execReclaimComplete s := rfl
theorem exec_mbxCommandComplete (s : State) :
    exec .mbxCommandComplete s = execMbxCommandComplete s := rfl
theorem exec_powerLoss (s : State) :
    exec .powerLoss s = execPowerLoss s := rfl
theorem exec_correctedError (u : ErrUnit) (s : State) :
    exec (.correctedError u) s = execCorrectedError u s := rfl
theorem exec_ptpEventFrame (port : Nat) (sent : Bool) (s : State) :
    exec (.ptpEventFrame port sent) s = execPtpEventFrame port sent s := rfl

end Sys2Proof.Machine
end

