-- ==== Sys2Proof/Laws/Encoding.lean ====
section
/-! SUPPORT. Bit fields of packed words: what a field of an appended word is, and the step from the
opcode map to the decoder. -/

namespace Sys2Proof

/-- A field that lies in the lower part of an appended word. -/
theorem fld_append_low {m n : Nat} (x : BitVec m) (y : BitVec n) (lo k : Nat) (h : lo + k ≤ n) :
    fld (x ++ y) lo k = fld y lo k := by
  unfold fld
  ext i hi
  simp [BitVec.getElem_extractLsb', BitVec.getLsbD_append]
  intro h'; omega

/-- A field that lies in the upper part of an appended word. -/
theorem fld_append_high {m n : Nat} (x : BitVec m) (y : BitVec n) (lo k : Nat) (h : n ≤ lo) :
    fld (x ++ y) lo k = fld x (lo - n) k := by
  unfold fld
  ext i hi
  have h1 : ¬ (lo + i < n) := by omega
  simp [BitVec.getElem_extractLsb', BitVec.getLsbD_append, h1, show lo + i - n = lo - n + i by omega]

/-- The field that is the whole word. -/
theorem fld_all {m : Nat} (x : BitVec m) : fld x 0 m = x := by unfold fld; simp

/-- A field of a field. -/
theorem fld_fld {m n lo k a : Nat} (w : BitVec m) (h : a + k ≤ n) :
    fld (fld w lo n) a k = fld w (lo + a) k := by
  unfold fld
  ext i hi
  simp [BitVec.getElem_extractLsb', show a + i < n by omega, Nat.add_assoc]

/-- A field of a number. -/
theorem fld_ofNat {m : Nat} (v lo n : Nat) :
    fld (BitVec.ofNat m v) lo n = BitVec.ofNat n (v % 2 ^ m / 2 ^ lo) := by
  unfold fld
  apply BitVec.eq_of_toNat_eq
  simp [BitVec.extractLsb'_toNat, Nat.shiftRight_eq_div_pow]

/-- The one bit of a truth value. -/
theorem w1_eq (b : Bool) : (w1 b == 1#1) = b := by cases b <;> rfl

/-- Two neighbouring fields make the field that holds both. -/
theorem fld_pair {m : Nat} (w : BitVec m) (lo a b : Nat) :
    (fld w (lo + b) a ++ fld w lo b : BitVec (a + b)) = fld w lo (a + b) := by
  unfold fld
  ext i hi
  simp only [BitVec.getElem_append, BitVec.getElem_extractLsb']
  split
  · rfl
  · rw [show lo + b + (i - b) = lo + i by omega]

/-- The two words of a 64-bit literal make it again (R27). -/
theorem lit64_pair (v : BitVec 64) : (fld v 32 32 ++ fld v 0 32 : BitVec 64) = v :=
  (fld_pair v 0 32 32).trans (fld_all v)

/-- The two words of a 48-bit literal make it again (R345). -/
theorem lit48_pair (v : BitVec 48) : (fld v 32 16 ++ fld v 0 32 : BitVec 48) = v :=
  (fld_pair v 0 16 32).trans (fld_all v)

/-- The decoder answers what the opcode map reads, where that is well formed. -/
theorem decode_of_raw {x y z : Word} {i : Instr} (h : decodeRaw x y z = some i) (hw : i.wf = true) :
    decode x y z = some i := by simp only [decode, h, hw, if_true]

/-- As `decode_of_raw`, of one word. -/
theorem decodeList_one {x : Word} {i : Instr} (h : decodeRaw x 0#32 0#32 = some i) (hw : i.wf = true) :
    decodeList [x] = some i := decode_of_raw h hw

/-- As `decode_of_raw`, of two words. -/
theorem decodeList_two {x y : Word} {i : Instr} (h : decodeRaw x y 0#32 = some i) (hw : i.wf = true) :
    decodeList [x, y] = some i := decode_of_raw h hw

/-- As `decode_of_raw`, of three words. -/
theorem decodeList_three {x y z : Word} {i : Instr} (h : decodeRaw x y z = some i) (hw : i.wf = true) :
    decodeList [x, y, z] = some i := decode_of_raw h hw

/-- The fields of packed words, for the simplifier. -/
theorem fields :
    (∀ (m n : Nat) (x : BitVec m) (y : BitVec n) (lo k : Nat), lo + k ≤ n →
      fld (x ++ y) lo k = fld y lo k) ∧
    (∀ (m n : Nat) (x : BitVec m) (y : BitVec n) (lo k : Nat), n ≤ lo →
      fld (x ++ y) lo k = fld x (lo - n) k) ∧
    (∀ (m : Nat) (x : BitVec m), fld x 0 m = x) ∧
    (∀ m v lo n : Nat, fld (BitVec.ofNat m v) lo n = BitVec.ofNat n (v % 2 ^ m / 2 ^ lo)) ∧
    (∀ b : Bool, (w1 b == 1#1) = b) ∧
    (∀ v : BitVec 64, (fld v 32 32 ++ fld v 0 32 : BitVec 64) = v) ∧
    (∀ v : BitVec 48, (fld v 32 16 ++ fld v 0 32 : BitVec 48) = v) :=
  ⟨fun _ _ => fld_append_low, fun _ _ => fld_append_high, fun _ => fld_all, fun _ => fld_ofNat, w1_eq,
    lit64_pair, lit48_pair⟩

/-! ## Form E -/

/-- The fields of word 0 of form E (R28). -/
theorem fieldsE0 (wait : BitVec 8) (sT : BitVec 5) (hC hB hA : BitVec 4) (op : BitVec 7) :
    fld (packE0 wait sT hC hB hA op) 24 8 = wait ∧ fld (packE0 wait sT hC hB hA op) 19 5 = sT ∧
    fld (packE0 wait sT hC hB hA op) 15 4 = hC ∧ fld (packE0 wait sT hC hB hA op) 11 4 = hB ∧
    fld (packE0 wait sT hC hB hA op) 7 4 = hA ∧ fld (packE0 wait sT hC hB hA op) 0 7 = op ∧
    fld (packE0 wait sT hC hB hA op) 5 2 = fld op 5 2 := by
  refine ⟨?_, ?_, ?_, ?_, ?_, ?_, ?_⟩ <;>
    simp (disch := decide) only [packE0, fields, Nat.sub_self, Nat.reduceSub]

/-- The fields of word 1 of form E (R28). -/
theorem fieldsE1 (z : BitVec 1) (sZ sY sX : BitVec 5) (fn7 : BitVec 7) (trapf rel det : BitVec 1)
    (pri : BitVec 2) (sets : BitVec 1) (slot : BitVec 3) :
    fld (packE1 z sZ sY sX fn7 trapf rel det pri sets slot) 31 1 = z ∧
    fld (packE1 z sZ sY sX fn7 trapf rel det pri sets slot) 26 5 = sZ ∧
    fld (packE1 z sZ sY sX fn7 trapf rel det pri sets slot) 21 5 = sY ∧
    fld (packE1 z sZ sY sX fn7 trapf rel det pri sets slot) 16 5 = sX ∧
    fld (packE1 z sZ sY sX fn7 trapf rel det pri sets slot) 9 7 = fn7 ∧
    fld (packE1 z sZ sY sX fn7 trapf rel det pri sets slot) 15 1 = fld fn7 6 1 ∧
    fld (packE1 z sZ sY sX fn7 trapf rel det pri sets slot) 8 1 = trapf ∧
    fld (packE1 z sZ sY sX fn7 trapf rel det pri sets slot) 7 1 = rel ∧
    fld (packE1 z sZ sY sX fn7 trapf rel det pri sets slot) 6 1 = det ∧
    fld (packE1 z sZ sY sX fn7 trapf rel det pri sets slot) 4 2 = pri ∧
    fld (packE1 z sZ sY sX fn7 trapf rel det pri sets slot) 3 1 = sets ∧
    fld (packE1 z sZ sY sX fn7 trapf rel det pri sets slot) 0 3 = slot := by
  refine ⟨?_, ?_, ?_, ?_, ?_, ?_, ?_, ?_, ?_, ?_, ?_, ?_⟩ <;>
    simp (disch := decide) only [packE1, fields, Nat.sub_self, Nat.reduceSub]

/-- The order fields that a child operation's words carry are read back (R28, R29). -/
theorem eordOf_pack (o : EOrd) (hC hB hA : BitVec 4) (op : BitVec 7) (sZ sY sX : BitVec 5) (fn7 : BitVec 7) :
    eordOf (packE0 o.wait o.sT hC hB hA op)
      (packE1 0#1 sZ sY sX fn7 (w1 o.trapf) (w1 o.rel) (w1 o.det) o.pri (setsOf o.slot) (slotOf o.slot))
    = some o := by
  obtain ⟨wait, sT, trapf, rel, det, pri, slot⟩ := o
  cases slot <;> simp [eordOf, slotRead, fW, fieldsE0, fieldsE1, w1_eq, setsOf, slotOf]

/-- The order fields that a vector instruction's words carry are read back (R30). -/
theorem vordOf_pack (o : VOrd) (hC hB hA : BitVec 4) (op : BitVec 7) (sZ sY sX : BitVec 5) (fn7 : BitVec 7) :
    vordOf (packE0 o.wait 0#5 hC hB hA op)
      (packE1 0#1 sZ sY sX fn7 (w1 o.trapf) (w1 o.rel) 0#1 o.pri (setsOf o.slot) (slotOf o.slot))
    = some o := by
  obtain ⟨wait, trapf, rel, pri, slot⟩ := o
  cases slot <;> simp [vordOf, slotRead, fW, fieldsE0, fieldsE1, w1_eq, setsOf, slotOf]

/-- The opcode map at the words of form E (R35). -/
theorem decodeRaw_packE (wait : BitVec 8) (sT : BitVec 5) (hC hB hA : BitVec 4) (op : BitVec 7) (y z : Word)
    (h : fld op 5 2 = 3#2) :
    decodeRaw (packE0 wait sT hC hB hA op) y z = decodeEng op (packE0 wait sT hC hB hA op) y := by
  simp [decodeRaw, fieldsE0, h]

/-! ## Form R -/

/-- The fields of form R (R25). -/
theorem fieldsR (fn : BitVec 9) (k : BitVec 1) (b a d : BitVec 5) (op : BitVec 7) :
    fld (packR fn k b a d op) 0 7 = op ∧ fld (packR fn k b a d op) 5 2 = fld op 5 2 ∧
    fld (packR fn k b a d op) 7 5 = d ∧ fld (packR fn k b a d op) 12 5 = a ∧
    fld (packR fn k b a d op) 17 5 = b ∧ fld (packR fn k b a d op) 22 1 = k ∧
    fld (packR fn k b a d op) 12 2 = fld a 0 2 ∧ fld (packR fn k b a d op) 14 3 = fld a 2 3 ∧
    fld (packR fn k b a d op) 17 4 = fld b 0 4 ∧ fld (packR fn k b a d op) 21 1 = fld b 4 1 ∧
    fld (packR fn k b a d op) 23 9 = fn ∧
    ∀ lo n, 23 ≤ lo → fld (packR fn k b a d op) lo n = fld fn (lo - 23) n := by
  refine ⟨?_, ?_, ?_, ?_, ?_, ?_, ?_, ?_, ?_, ?_, ?_, fun lo n h => ?high⟩
  case high =>
    unfold packR
    rw [fld_append_high _ _ _ _ (by omega), fld_append_high _ _ _ _ (by omega),
      fld_append_high _ _ _ _ (by omega), fld_append_high _ _ _ _ (by omega),
      fld_append_high _ _ _ _ (by omega)]
    congr 1
  all_goals simp (disch := decide) only [packR, fields, Nat.sub_self, Nat.reduceSub]

/-- OP 0x01 with any operand b: one word, or a literal's words after it (R27). -/
theorem decodeList_int {fn : BitVec 9} {b : Operand} {a d : BitVec 5} {i : Instr}
    (h : ∀ k r, decodeInt (packR fn k r a d 1#7) b = some i) (hw : i.wf = true) :
    decodeList (encR fn b a d 1#7) = some i := by
  have raw (k r) (y z : Word) : decodeRaw (packR fn k r a d 1#7) y z
      = (operandOf (packR fn k r a d 1#7) y z).bind (decodeInt (packR fn k r a d 1#7)) := by
    simp [decodeRaw, fieldsR, fld_ofNat]
  cases b with
  | reg r => exact decodeList_one ((raw ..).trans (by simp [operandOf, fK, fB, fieldsR, h])) hw
  | lit32 v => exact decodeList_two ((raw ..).trans (by simp [operandOf, fK, fB, fieldsR, h])) hw
  | lit64 v =>
    exact decodeList_three ((raw ..).trans (by simp [operandOf, fK, fB, fieldsR, h, lit64_pair])) hw

/-- OP 0x02 with any operand b: one word, or a literal's words after it (R27). -/
theorem decodeList_bit {fn : BitVec 9} {b : Operand} {a d : BitVec 5} {i : Instr}
    (h : ∀ k r, decodeBit (packR fn k r a d 2#7) b = some i) (hw : i.wf = true) :
    decodeList (encR fn b a d 2#7) = some i := by
  have raw (k r) (y z : Word) : decodeRaw (packR fn k r a d 2#7) y z
      = (operandOf (packR fn k r a d 2#7) y z).bind (decodeBit (packR fn k r a d 2#7)) := by
    simp [decodeRaw, fieldsR, fld_ofNat]
  cases b with
  | reg r => exact decodeList_one ((raw ..).trans (by simp [operandOf, fK, fB, fieldsR, h])) hw
  | lit32 v => exact decodeList_two ((raw ..).trans (by simp [operandOf, fK, fB, fieldsR, h])) hw
  | lit64 v =>
    exact decodeList_three ((raw ..).trans (by simp [operandOf, fK, fB, fieldsR, h, lit64_pair])) hw

/-- OP 0x0A with any operand b: one word, or a literal's words after it (R27). -/
theorem decodeList_fp {fn : BitVec 9} {b : Operand} {a d : BitVec 5} {i : Instr}
    (h : ∀ k r, decodeFp (packR fn k r a d 10#7) b = some i) (hw : i.wf = true) :
    decodeList (encR fn b a d 10#7) = some i := by
  have raw (k r) (y z : Word) : decodeRaw (packR fn k r a d 10#7) y z
      = (operandOf (packR fn k r a d 10#7) y z).bind (decodeFp (packR fn k r a d 10#7)) := by
    simp [decodeRaw, fieldsR, fld_ofNat]
  cases b with
  | reg r => exact decodeList_one ((raw ..).trans (by simp [operandOf, fK, fB, fieldsR, h])) hw
  | lit32 v => exact decodeList_two ((raw ..).trans (by simp [operandOf, fK, fB, fieldsR, h])) hw
  | lit64 v =>
    exact decodeList_three ((raw ..).trans (by simp [operandOf, fK, fB, fieldsR, h, lit64_pair])) hw

end Sys2Proof
end

