-- ==== Sys2Proof/Laws/Frames.lean ====
section
/-! SUPPORT. Frames: what `frameBytes` builds is whole, and its fields read back. -/

namespace Sys2Proof.Machine
open Sys2Proof

@[simp] theorem leBytes_length (n w : Nat) : (leBytes n w).length = n := by
  unfold leBytes
  induction n generalizing w with
  | zero => rfl
  | succ k ih => simp [leBytes.bytesOf, ih]

@[simp] theorem leNat_leBytes (n w : Nat) : leNat (leBytes n w) = w % 256 ^ n := by
  unfold leBytes
  induction n generalizing w with
  | zero => simp [leBytes.bytesOf, leNat, Nat.mod_one]
  | succ k ih =>
    have h : w % 256 + 256 * (w / 256 % 256 ^ k) = w % 256 ^ (k + 1) := by
      rw [Nat.pow_succ, Nat.mul_comm (256 ^ k) 256, Nat.mod_mul]
    simpa [leBytes.bytesOf, leNat, ih] using h

theorem frameNum_skip (a r : List Byte) (o n : Nat) (h : a.length ≤ o) : frameNum (a ++ r) o n = frameNum r (o - a.length) n := by
  simp [frameNum, List.drop_append, List.drop_eq_nil_of_le h]

theorem frameNum_here (b c : List Byte) (n : Nat) (h : b.length = n) : frameNum (b ++ c) 0 n = leNat b := by
  subst h; simp [frameNum]

theorem frameNum_front (b c : List Byte) (o n : Nat) (h : o + n ≤ b.length) : frameNum (b ++ c) o n = frameNum b o n := by
  simp [frameNum, List.drop_append, List.take_append, Nat.sub_eq_zero_of_le (show o ≤ b.length by omega),
    Nat.sub_eq_zero_of_le (show n ≤ b.length - o by omega)]

/-- A list with the fields of a frame, and its CRC behind, is whole (R360). -/
theorem frameOk_append (s : State) (kind : Nat) (b : List Byte) (hlen : 32 ≤ b.length) (h20 : frameNum b 20 2 = b.length - 32)
    (h0 : frameNum b 0 1 = 16 + kind) (h1 : frameNum b 1 1 < 2) (h2 : frameNum b 2 2 = 0)
    (h6 : frameNum b 6 2 = s.modnum.toNat) (h4 : frameNum b 4 2 < 8192) (h18 : frameNum b 18 2 / 16 = 0)
    (h22 : frameNum b 22 2 = 0) (hl : b.length - 32 ≤ 1024) (hm : (b.length - 32) % 16 = 0) :
    frameOk s (b ++ leBytes 4 (crc32c b).toNat) kind = true := by
  have hf := fun o n h => frameNum_front b (leBytes 4 (crc32c b).toNat) o n h
  have ht : 32 + (b.length - 32) = b.length := by omega
  have hx := (crc32c b).isLt
  have hc : frameNum (b ++ leBytes 4 (crc32c b).toNat) b.length 4 = (crc32c b).toNat := by
    rw [frameNum_skip _ _ _ _ (Nat.le_refl _), Nat.sub_self]
    have := frameNum_here (leBytes 4 (crc32c b).toNat) [] 4 (by simp)
    rw [List.append_nil] at this
    rw [this, leNat_leBytes]; omega
  unfold frameOk
  simp only [hf 20 2 (by omega), hf 0 1 (by omega), hf 1 1 (by omega), hf 2 2 (by omega), hf 6 2 (by omega), hf 4 2 (by omega),
    hf 18 2 (by omega), hf 22 2 (by omega), h20, h0, h2, h6, h18, h22, ht, hc, List.take_left', List.length_append, leBytes_length]
  simp [h1, h4, hl, hm]
  omega

/-- What `frameBytes` builds is whole (R360). -/
theorem frameOk_frameBytes (s : State) (kind cls src seq ack pasid addr : Nat) (payload : List Byte)
    (hk : kind < 240) (hc : cls < 2) (hs : src < 8192) (hp : pasid < 2 ^ 20)
    (hl : payload.length ≤ 1024) (hm : payload.length % 16 = 0) :
    frameOk s (frameBytes kind cls src s.modnum.toNat seq ack pasid addr payload) kind = true := by
  have hd := s.modnum.isLt
  have ha : pasid / 65536 < 16 := by omega
  have hpas : ∀ r : List Byte, frameNum (leBytes 4 pasid ++ r) 2 2 = pasid / 65536 := by
    intro r
    rw [frameNum_front _ _ _ _ (by simp)]
    simp only [frameNum, leBytes, leBytes.bytesOf, List.drop, List.take, leNat, BitVec.toNat_ofNat]
    omega
  unfold frameBytes
  apply frameOk_append
  all_goals simp only [List.append_assoc]
  all_goals first
    | (simp [frameNum_skip, frameNum_here, hpas]; done)
    | (simp [frameNum_skip, frameNum_here, hpas]; omega)

/-- CLASS, PASID and ADDR of what `frameBytes` builds (R360). -/
theorem frameNum_frameBytes (kind cls src dst seq ack pasid addr : Nat) (payload : List Byte) :
    let bs := frameBytes kind cls src dst seq ack pasid addr payload
    frameNum bs 1 1 = cls % 256 ∧ frameNum bs 16 4 = pasid % 2 ^ 32 ∧ frameNum bs 24 8 = addr % 2 ^ 64 := by
  simp only [frameBytes, List.append_assoc]
  and_intros <;> simp [frameNum_skip, frameNum_here]

end Sys2Proof.Machine
end

