-- ==== Sys2Proof/Laws/Table.lean ====
section
/-! SUPPORT. Laws of the tables, of the ascending lists and of memory: reading what was written,
everything else unchanged, and the canonical form kept by every operation. -/

namespace Sys2Proof.Machine
open Sys2Proof

/-! ## Tables -/

/-- The entry that was set. -/
theorem tfind_tset_same {α : Type} (k : Nat) (v : α) (t : Tbl α) : tfind k (tset k v t) = some v := by
  induction t with
  | nil => simp [tset, tfind]
  | cons p r ih =>
    obtain ⟨j, w⟩ := p
    by_cases h : j = k
    · simp [tset, tfind, h]
    · by_cases h' : k < j
      · simp [tset, tfind, h, h']
      · simp [tset, tfind, h, h', ih]

/-- Every other entry stays. -/
theorem tfind_tset_other {α : Type} {j k : Nat} (h : j ≠ k) (v : α) (t : Tbl α) :
    tfind j (tset k v t) = tfind j t := by
  induction t with
  | nil =>
    by_cases hl : j < k <;> simp [tset, tfind, Ne.symm h, hl]
  | cons p r ih =>
    obtain ⟨i, w⟩ := p
    by_cases h1 : i = k
    · by_cases hl : j < k <;> simp [tset, tfind, h1, Ne.symm h, hl]
    · by_cases h2 : k < i
      · by_cases hl : j < k
        · simp [tset, tfind, h1, h2, Ne.symm h, hl, show ¬ i = j by omega, show j < i by omega]
        · simp [tset, tfind, h1, h2, Ne.symm h, hl]
      · simp [tset, tfind, h1, h2, ih]

/-- The value that was set. -/
@[simp] theorem tget_tset_same {α : Type} (k : Nat) (v d : α) (t : Tbl α) : tget (tset k v t) k d = v := by
  simp [tget, tfind_tset_same]

/-- Every other value stays. -/
theorem tget_tset_other {α : Type} {j k : Nat} (h : j ≠ k) (v d : α) (t : Tbl α) :
    tget (tset k v t) j d = tget t j d := by
  simp [tget, tfind_tset_other h]

/-! ## Ascending lists of numbers -/

/-- A number that was added is there. -/
theorem smem_sins_same (k : Nat) (l : List Nat) : smem k (sins k l) = true := by
  induction l with
  | nil => simp [sins, smem]
  | cons j r ih =>
    by_cases h : j = k
    · simp [sins, smem, h]
    · by_cases h' : k < j
      · simp [sins, smem, h, h']
      · simp [sins, smem, h, h', ih]

/-- Adding a number leaves the others as they are. -/
theorem smem_sins_other {j k : Nat} (h : j ≠ k) (l : List Nat) : smem j (sins k l) = smem j l := by
  induction l with
  | nil => by_cases hl : j < k <;> simp [sins, smem, Ne.symm h, hl]
  | cons i r ih =>
    by_cases h1 : i = k
    · simp [sins, h1]
    · by_cases h2 : k < i
      · by_cases hl : j < k
        · simp [sins, smem, h1, h2, Ne.symm h, hl, show ¬ i = j by omega, show j < i by omega]
        · simp [sins, smem, h1, h2, Ne.symm h, hl]
      · simp [sins, smem, h1, h2, ih]

/-! ## Memory: what a byte reads as -/

/-- In a list whose addresses start at `lo`, a lower address reads as the default. -/
theorem memGet_low {a lo : Nat} {m : List Host.Cell} (h : memSorted lo m = true) (ha : a < lo) :
    memGet a m = memDefault := by
  cases m with
  | nil => rfl
  | cons p r =>
    obtain ⟨k, v⟩ := p
    simp only [memSorted, Bool.and_eq_true, decide_eq_true_eq] at h
    simp [memGet, show ¬ k = a by omega, show a < k by omega]

/-- A lower bound of the addresses may be lowered. -/
theorem memSorted_mono {lo lo' : Nat} {m : List Host.Cell} (hl : lo' ≤ lo) (h : memSorted lo m = true) :
    memSorted lo' m = true := by
  cases m with
  | nil => rfl
  | cons p r =>
    obtain ⟨k, v⟩ := p
    simp only [memSorted, Bool.and_eq_true, decide_eq_true_eq] at h ⊢
    exact ⟨⟨by omega, h.1.2⟩, h.2⟩

/-- The byte that was listed. -/
theorem memGet_memPut_same (a : Nat) (b : Byte) (m : List Host.Cell) : memGet a (memPut a b m) = b := by
  induction m with
  | nil => simp [memPut, memGet]
  | cons p r ih =>
    obtain ⟨k, v⟩ := p
    by_cases h : k = a
    · simp [memPut, memGet, h]
    · by_cases h' : a < k
      · simp [memPut, memGet, h, h']
      · simp [memPut, memGet, h, h', ih]

/-- Listing a byte leaves every other address as it reads. -/
theorem memGet_memPut_other {a c : Nat} (hc : c ≠ a) (b : Byte) (m : List Host.Cell) :
    memGet c (memPut a b m) = memGet c m := by
  induction m with
  | nil => by_cases hl : c < a <;> simp [memPut, memGet, Ne.symm hc, hl]
  | cons p r ih =>
    obtain ⟨k, v⟩ := p
    by_cases h1 : k = a
    · by_cases hl : c < a <;> simp [memPut, memGet, h1, Ne.symm hc, hl]
    · by_cases h2 : a < k
      · by_cases hl : c < a
        · simp [memPut, memGet, h1, h2, Ne.symm hc, hl, show ¬ k = c by omega, show c < k by omega]
        · simp [memPut, memGet, h1, h2, Ne.symm hc, hl]
      · simp [memPut, memGet, h1, h2, ih]

/-- An address whose listing is removed reads as the default. -/
theorem memGet_memClear_same {lo : Nat} (a : Nat) {m : List Host.Cell} (h : memSorted lo m = true) :
    memGet a (memClear a m) = memDefault := by
  induction m generalizing lo with
  | nil => rfl
  | cons p r ih =>
    obtain ⟨k, v⟩ := p
    simp only [memSorted, Bool.and_eq_true, decide_eq_true_eq] at h
    by_cases h1 : k = a
    · simpa [memClear, h1] using memGet_low h.2 (by omega)
    · by_cases h2 : a < k
      · simp [memClear, memGet, h1, h2]
      · simpa [memClear, memGet, h1, h2] using ih h.2

/-- Removing a listing leaves every other address as it reads. -/
theorem memGet_memClear_other {lo a c : Nat} (hc : c ≠ a) {m : List Host.Cell} (h : memSorted lo m = true) :
    memGet c (memClear a m) = memGet c m := by
  induction m generalizing lo with
  | nil => rfl
  | cons p r ih =>
    obtain ⟨k, v⟩ := p
    simp only [memSorted, Bool.and_eq_true, decide_eq_true_eq] at h
    by_cases h1 : k = a
    · subst h1
      by_cases hl : c < k
      · simp [memClear, memGet, Ne.symm hc, hl, memGet_low h.2 (show c < k + 1 by omega)]
      · simp [memClear, memGet, Ne.symm hc, hl]
    · by_cases h2 : a < k
      · simp [memClear, h1, h2]
      · simp [memClear, memGet, h1, h2, ih h.2]

/-- A byte that was written reads back. -/
theorem memGet_memSet_same {m : List Host.Cell} (hm : memWf m = true) (a : Nat) (b : Byte) :
    memGet a (memSet a b m) = b := by
  unfold memSet
  split
  · next h => rw [h]; exact memGet_memClear_same a hm
  · exact memGet_memPut_same a b m

/-- A write leaves every other address as it reads. -/
theorem memGet_memSet_other {m : List Host.Cell} (hm : memWf m = true) {a c : Nat} (hc : c ≠ a) (b : Byte) :
    memGet c (memSet a b m) = memGet c m := by
  unfold memSet
  split
  · exact memGet_memClear_other hc hm
  · exact memGet_memPut_other hc b m

/-! ## Memory: the canonical form -/

/-- Removing a listing keeps the form. -/
theorem memSorted_memClear {lo : Nat} (a : Nat) {m : List Host.Cell} (h : memSorted lo m = true) :
    memSorted lo (memClear a m) = true := by
  induction m generalizing lo with
  | nil => rfl
  | cons p r ih =>
    obtain ⟨k, v⟩ := p
    have h' := h
    simp only [memSorted, Bool.and_eq_true, decide_eq_true_eq] at h
    by_cases h1 : k = a
    · simpa [memClear, h1] using memSorted_mono (show lo ≤ k + 1 by omega) h.2
    · by_cases h2 : a < k
      · simpa [memClear, h1, h2] using h'
      · simp only [memClear, h1, h2, if_false, memSorted, Bool.and_eq_true, decide_eq_true_eq]
        exact ⟨h.1, ih h.2⟩

/-- Listing a byte that is not the default keeps the form. -/
theorem memSorted_memPut {lo a : Nat} {b : Byte} (hb : b ≠ memDefault) {m : List Host.Cell}
    (ha : lo ≤ a) (h : memSorted lo m = true) : memSorted lo (memPut a b m) = true := by
  induction m generalizing lo with
  | nil => simp [memPut, memSorted, ha, hb]
  | cons p r ih =>
    obtain ⟨k, v⟩ := p
    simp only [memSorted, Bool.and_eq_true, decide_eq_true_eq] at h
    by_cases h1 : k = a
    · subst h1
      simp [memPut, memSorted, hb, h.2, ha]
    · by_cases h2 : a < k
      · simp [memPut, memSorted, h1, h2, ha, hb, h.2, h.1.2, show a + 1 ≤ k by omega]
      · simp only [memPut, h1, h2, if_false, memSorted, Bool.and_eq_true, decide_eq_true_eq]
        exact ⟨h.1, ih (by omega) h.2⟩

/-- A write of one byte keeps the form. -/
theorem memWf_memSet {m : List Host.Cell} (h : memWf m = true) (a : Nat) (b : Byte) :
    memWf (memSet a b m) = true := by
  unfold memSet
  split
  · exact memSorted_memClear a h
  · next hb => exact memSorted_memPut hb (Nat.zero_le a) h

/-- A write of bytes keeps the form. -/
theorem memWf_memWrite {m : List Host.Cell} (h : memWf m = true) (a : Nat) (bs : List Byte) :
    memWf (memWrite a bs m) = true := by
  induction bs generalizing a m with
  | nil => exact h
  | cons b bs ih => exact ih (memWf_memSet h a b) (a + 1)

/-- Zeroing a range keeps the form. -/
theorem memSorted_memZero {lo : Nat} (a n : Nat) {m : List Host.Cell} (h : memSorted lo m = true) :
    memSorted lo (memZero a n m) = true := by
  induction m generalizing lo with
  | nil => rfl
  | cons p r ih =>
    obtain ⟨k, v⟩ := p
    simp only [memSorted, Bool.and_eq_true, decide_eq_true_eq] at h
    by_cases h1 : a ≤ k ∧ k < a + n
    · simpa [memZero, h1] using memSorted_mono (show lo ≤ k + 1 by omega) (ih h.2)
    · simp only [memZero, h1, if_false, memSorted, Bool.and_eq_true, decide_eq_true_eq]
      exact ⟨h.1, ih h.2⟩

/-- Zeroing a range keeps the form. -/
theorem memWf_memZero {m : List Host.Cell} (h : memWf m = true) (a n : Nat) :
    memWf (memZero a n m) = true := memSorted_memZero a n h

/-- An empty memory has the form. -/
theorem memWf_nil : memWf [] = true := rfl

/-! ## Memory: ranges -/

/-- A write of bytes leaves the addresses outside its range as they read. -/
theorem memGet_memWrite_out {m : List Host.Cell} (hm : memWf m = true) {a c : Nat} {bs : List Byte}
    (h : c < a ∨ a + bs.length ≤ c) : memGet c (memWrite a bs m) = memGet c m := by
  induction bs generalizing a m with
  | nil => rfl
  | cons b bs ih =>
    simp only [List.length_cons] at h
    rw [memWrite, ih (memWf_memSet hm a b) (by omega), memGet_memSet_other hm (by omega)]

/-- A write of bytes is what its range reads as. -/
theorem memGet_memWrite_in {m : List Host.Cell} (hm : memWf m = true) {a i : Nat} {bs : List Byte}
    (h : i < bs.length) : memGet (a + i) (memWrite a bs m) = bs[i] := by
  induction bs generalizing a i m with
  | nil => simp at h
  | cons b bs ih =>
    cases i with
    | zero =>
      simp only [memWrite, Nat.add_zero, List.getElem_cons_zero]
      rw [memGet_memWrite_out (memWf_memSet hm a b) (by omega), memGet_memSet_same hm]
    | succ i =>
      simp only [List.length_cons] at h
      simp only [memWrite, List.getElem_cons_succ]
      rw [show a + (i + 1) = a + 1 + i by omega]
      exact ih (memWf_memSet hm a b) (by omega)

/-- A read right after a write of as many bytes gives what was written. -/
theorem memRead_memWrite {m : List Host.Cell} (hm : memWf m = true) (a : Nat) (bs : List Byte) :
    memRead a bs.length (memWrite a bs m) = bs := by
  induction bs generalizing a m with
  | nil => rfl
  | cons b bs ih =>
    simp only [List.length_cons, memRead, memWrite]
    rw [ih (memWf_memSet hm a b), memGet_memWrite_out (memWf_memSet hm a b) (by omega),
      memGet_memSet_same hm]

/-- The length of a read. -/
@[simp] theorem memRead_length (a n : Nat) (m : List Host.Cell) : (memRead a n m).length = n := by
  induction n generalizing a with
  | zero => rfl
  | succ n ih => simp [memRead, ih]

end Sys2Proof.Machine
end

