-- ==== Sys2Proof/Laws/State.lean ====
section
/-! SUPPORT. What each update of the state does to each field, and what a context, core, cluster or die
reads as after one. -/

namespace Sys2Proof.Machine
open Sys2Proof

/-- Every field after `setCtx`. -/
@[simp] theorem State.setCtx_fields (s : State) (k : Nat) (c : Ctx) :
    (s.setCtx k c).mem = s.mem ∧ (s.setCtx k c).full = s.full ∧ (s.setCtx k c).poison = s.poison ∧
    (s.setCtx k c).ctxs = tset k c s.ctxs ∧ (s.setCtx k c).cores = s.cores ∧
    (s.setCtx k c).clusters = s.clusters ∧ (s.setCtx k c).dies = s.dies ∧ (s.setCtx k c).eddyRr = s.eddyRr ∧
    (s.setCtx k c).outq = s.outq ∧ (s.setCtx k c).views = s.views ∧ (s.setCtx k c).ops = s.ops ∧
    (s.setCtx k c).applies = s.applies ∧ (s.setCtx k c).launches = s.launches ∧
    (s.setCtx k c).packets = s.packets ∧ (s.setCtx k c).held = s.held ∧ (s.setCtx k c).hgNext = s.hgNext ∧
    (s.setCtx k c).hgStopped = s.hgStopped ∧ (s.setCtx k c).fromQsub = s.fromQsub ∧
    (s.setCtx k c).overflow = s.overflow ∧ (s.setCtx k c).liveGen = s.liveGen ∧
    (s.setCtx k c).expands = s.expands ∧ (s.setCtx k c).kickSeq = s.kickSeq ∧
    (s.setCtx k c).kickStatus = s.kickStatus ∧ (s.setCtx k c).kicks = s.kicks ∧
    (s.setCtx k c).svcBusy = s.svcBusy ∧ (s.setCtx k c).svcDone = s.svcDone ∧
    (s.setCtx k c).svcGo = s.svcGo ∧ (s.setCtx k c).svcq = s.svcq ∧ (s.setCtx k c).barReads = s.barReads ∧
    (s.setCtx k c).posts = s.posts ∧ (s.setCtx k c).traces = s.traces ∧ (s.setCtx k c).qtbase = s.qtbase ∧
    (s.setCtx k c).pdirbase = s.pdirbase ∧ (s.setCtx k c).pdircount = s.pdircount ∧
    (s.setCtx k c).setUp = s.setUp ∧ (s.setCtx k c).invaddr = s.invaddr ∧ (s.setCtx k c).invcmd = s.invcmd ∧
    (s.setCtx k c).inval = s.inval ∧ (s.setCtx k c).aptBase = s.aptBase ∧ (s.setCtx k c).aptCtl = s.aptCtl ∧
    (s.setCtx k c).mbxBusy = s.mbxBusy ∧ (s.setCtx k c).mbxSeq = s.mbxSeq ∧
    (s.setCtx k c).mbxRlen = s.mbxRlen ∧ (s.setCtx k c).mbxResult = s.mbxResult ∧
    (s.setCtx k c).mbxData = s.mbxData ∧ (s.setCtx k c).mbxCmd = s.mbxCmd ∧
    (s.setCtx k c).mbxMctp = s.mbxMctp ∧ (s.setCtx k c).mctp = s.mctp ∧ (s.setCtx k c).mctpOut = s.mctpOut ∧
    (s.setCtx k c).reclaimState = s.reclaimState ∧ (s.setCtx k c).reclaimSeq = s.reclaimSeq ∧
    (s.setCtx k c).reclaimMbx = s.reclaimMbx ∧ (s.setCtx k c).reclaimStart = s.reclaimStart ∧
    (s.setCtx k c).record = s.record ∧ (s.setCtx k c).msix = s.msix ∧ (s.setCtx k c).msixTab = s.msixTab ∧
    (s.setCtx k c).msixPend = s.msixPend ∧ (s.setCtx k c).aer = s.aer ∧
    (s.setCtx k c).pcieReads = s.pcieReads ∧ (s.setCtx k c).ioGot = s.ioGot ∧
    (s.setCtx k c).pasidCap = s.pasidCap ∧ (s.setCtx k c).pcieOut = s.pcieOut ∧
    (s.setCtx k c).bar2Out = s.bar2Out ∧ (s.setCtx k c).time = s.time ∧
    (s.setCtx k c).timeFrac = s.timeFrac ∧ (s.setCtx k c).cycle = s.cycle ∧ (s.setCtx k c).trim = s.trim ∧
    (s.setCtx k c).fuses = s.fuses ∧ (s.setCtx k c).lease = s.lease ∧
    (s.setCtx k c).bootImage = s.bootImage ∧ (s.setCtx k c).stagedOwner = s.stagedOwner ∧
    (s.setCtx k c).staged = s.staged ∧ (s.setCtx k c).hand = s.hand ∧
    (s.setCtx k c).handSince = s.handSince ∧ (s.setCtx k c).holder = s.holder ∧
    (s.setCtx k c).current = s.current ∧ (s.setCtx k c).policyTcm = s.policyTcm ∧
    (s.setCtx k c).policyRegs = s.policyRegs ∧ (s.setCtx k c).policyPc = s.policyPc ∧
    (s.setCtx k c).policyHalted = s.policyHalted ∧ (s.setCtx k c).dbgOut = s.dbgOut ∧
    (s.setCtx k c).nonce = s.nonce ∧ (s.setCtx k c).features = s.features ∧ (s.setCtx k c).power = s.power ∧
    (s.setCtx k c).released = s.released ∧ (s.setCtx k c).recovery = s.recovery ∧
    (s.setCtx k c).stopped = s.stopped ∧ (s.setCtx k c).channels = s.channels ∧
    (s.setCtx k c).farWin = s.farWin ∧ (s.setCtx k c).farReads = s.farReads ∧
    (s.setCtx k c).farIn = s.farIn ∧ (s.setCtx k c).farOut = s.farOut ∧ (s.setCtx k c).xgroups = s.xgroups ∧
    (s.setCtx k c).collData = s.collData ∧ (s.setCtx k c).aborts = s.aborts ∧
    (s.setCtx k c).collTerms = s.collTerms ∧ (s.setCtx k c).modnum = s.modnum ∧
    (s.setCtx k c).macs = s.macs ∧ (s.setCtx k c).ethOut = s.ethOut ∧ (s.setCtx k c).badPorts = s.badPorts ∧
    (s.setCtx k c).islands = s.islands ∧ (s.setCtx k c).fenced = s.fenced ∧
    (s.setCtx k c).badUnits = s.badUnits ∧ (s.setCtx k c).corrected = s.corrected ∧
    (s.setCtx k c).replays = s.replays ∧ (s.setCtx k c).ptp = s.ptp ∧ (s.setCtx k c).reports = s.reports ∧
    (s.setCtx k c).cur = s.cur ∧ (s.setCtx k c).agenda = s.agenda ∧ (s.setCtx k c).keep = s.keep ∧
    (s.setCtx k c).rdKey = s.rdKey ∧ (s.setCtx k c).rdAt = s.rdAt ∧ (s.setCtx k c).freeCtr = s.freeCtr ∧
    (s.setCtx k c).nextId = s.nextId ∧ (s.setCtx k c).stamp = s.stamp :=
  ⟨rfl, rfl, rfl, rfl, rfl, rfl, rfl, rfl, rfl, rfl, rfl, rfl, rfl, rfl, rfl, rfl, rfl, rfl, rfl, rfl, rfl,
    rfl, rfl, rfl, rfl, rfl, rfl, rfl, rfl, rfl, rfl, rfl, rfl, rfl, rfl, rfl, rfl, rfl, rfl, rfl, rfl, rfl,
    rfl, rfl, rfl, rfl, rfl, rfl, rfl, rfl, rfl, rfl, rfl, rfl, rfl, rfl, rfl, rfl, rfl, rfl, rfl, rfl, rfl,
    rfl, rfl, rfl, rfl, rfl, rfl, rfl, rfl, rfl, rfl, rfl, rfl, rfl, rfl, rfl, rfl, rfl, rfl, rfl, rfl, rfl,
    rfl, rfl, rfl, rfl, rfl, rfl, rfl, rfl, rfl, rfl, rfl, rfl, rfl, rfl, rfl, rfl, rfl, rfl, rfl, rfl, rfl,
    rfl, rfl, rfl, rfl, rfl, rfl, rfl, rfl, rfl, rfl⟩

/-- Every field after `modCtx`. -/
@[simp] theorem State.modCtx_fields (s : State) (k : Nat) (f : Ctx → Ctx) :
    (s.modCtx k f).mem = s.mem ∧ (s.modCtx k f).full = s.full ∧ (s.modCtx k f).poison = s.poison ∧
    (s.modCtx k f).ctxs = tset k (f (s.ctx k)) s.ctxs ∧ (s.modCtx k f).cores = s.cores ∧
    (s.modCtx k f).clusters = s.clusters ∧ (s.modCtx k f).dies = s.dies ∧ (s.modCtx k f).eddyRr = s.eddyRr ∧
    (s.modCtx k f).outq = s.outq ∧ (s.modCtx k f).views = s.views ∧ (s.modCtx k f).ops = s.ops ∧
    (s.modCtx k f).applies = s.applies ∧ (s.modCtx k f).launches = s.launches ∧
    (s.modCtx k f).packets = s.packets ∧ (s.modCtx k f).held = s.held ∧ (s.modCtx k f).hgNext = s.hgNext ∧
    (s.modCtx k f).hgStopped = s.hgStopped ∧ (s.modCtx k f).fromQsub = s.fromQsub ∧
    (s.modCtx k f).overflow = s.overflow ∧ (s.modCtx k f).liveGen = s.liveGen ∧
    (s.modCtx k f).expands = s.expands ∧ (s.modCtx k f).kickSeq = s.kickSeq ∧
    (s.modCtx k f).kickStatus = s.kickStatus ∧ (s.modCtx k f).kicks = s.kicks ∧
    (s.modCtx k f).svcBusy = s.svcBusy ∧ (s.modCtx k f).svcDone = s.svcDone ∧
    (s.modCtx k f).svcGo = s.svcGo ∧ (s.modCtx k f).svcq = s.svcq ∧ (s.modCtx k f).barReads = s.barReads ∧
    (s.modCtx k f).posts = s.posts ∧ (s.modCtx k f).traces = s.traces ∧ (s.modCtx k f).qtbase = s.qtbase ∧
    (s.modCtx k f).pdirbase = s.pdirbase ∧ (s.modCtx k f).pdircount = s.pdircount ∧
    (s.modCtx k f).setUp = s.setUp ∧ (s.modCtx k f).invaddr = s.invaddr ∧ (s.modCtx k f).invcmd = s.invcmd ∧
    (s.modCtx k f).inval = s.inval ∧ (s.modCtx k f).aptBase = s.aptBase ∧ (s.modCtx k f).aptCtl = s.aptCtl ∧
    (s.modCtx k f).mbxBusy = s.mbxBusy ∧ (s.modCtx k f).mbxSeq = s.mbxSeq ∧
    (s.modCtx k f).mbxRlen = s.mbxRlen ∧ (s.modCtx k f).mbxResult = s.mbxResult ∧
    (s.modCtx k f).mbxData = s.mbxData ∧ (s.modCtx k f).mbxCmd = s.mbxCmd ∧
    (s.modCtx k f).mbxMctp = s.mbxMctp ∧ (s.modCtx k f).mctp = s.mctp ∧ (s.modCtx k f).mctpOut = s.mctpOut ∧
    (s.modCtx k f).reclaimState = s.reclaimState ∧ (s.modCtx k f).reclaimSeq = s.reclaimSeq ∧
    (s.modCtx k f).reclaimMbx = s.reclaimMbx ∧ (s.modCtx k f).reclaimStart = s.reclaimStart ∧
    (s.modCtx k f).record = s.record ∧ (s.modCtx k f).msix = s.msix ∧ (s.modCtx k f).msixTab = s.msixTab ∧
    (s.modCtx k f).msixPend = s.msixPend ∧ (s.modCtx k f).aer = s.aer ∧
    (s.modCtx k f).pcieReads = s.pcieReads ∧ (s.modCtx k f).ioGot = s.ioGot ∧
    (s.modCtx k f).pasidCap = s.pasidCap ∧ (s.modCtx k f).pcieOut = s.pcieOut ∧
    (s.modCtx k f).bar2Out = s.bar2Out ∧ (s.modCtx k f).time = s.time ∧
    (s.modCtx k f).timeFrac = s.timeFrac ∧ (s.modCtx k f).cycle = s.cycle ∧ (s.modCtx k f).trim = s.trim ∧
    (s.modCtx k f).fuses = s.fuses ∧ (s.modCtx k f).lease = s.lease ∧
    (s.modCtx k f).bootImage = s.bootImage ∧ (s.modCtx k f).stagedOwner = s.stagedOwner ∧
    (s.modCtx k f).staged = s.staged ∧ (s.modCtx k f).hand = s.hand ∧
    (s.modCtx k f).handSince = s.handSince ∧ (s.modCtx k f).holder = s.holder ∧
    (s.modCtx k f).current = s.current ∧ (s.modCtx k f).policyTcm = s.policyTcm ∧
    (s.modCtx k f).policyRegs = s.policyRegs ∧ (s.modCtx k f).policyPc = s.policyPc ∧
    (s.modCtx k f).policyHalted = s.policyHalted ∧ (s.modCtx k f).dbgOut = s.dbgOut ∧
    (s.modCtx k f).nonce = s.nonce ∧ (s.modCtx k f).features = s.features ∧ (s.modCtx k f).power = s.power ∧
    (s.modCtx k f).released = s.released ∧ (s.modCtx k f).recovery = s.recovery ∧
    (s.modCtx k f).stopped = s.stopped ∧ (s.modCtx k f).channels = s.channels ∧
    (s.modCtx k f).farWin = s.farWin ∧ (s.modCtx k f).farReads = s.farReads ∧
    (s.modCtx k f).farIn = s.farIn ∧ (s.modCtx k f).farOut = s.farOut ∧ (s.modCtx k f).xgroups = s.xgroups ∧
    (s.modCtx k f).collData = s.collData ∧ (s.modCtx k f).aborts = s.aborts ∧
    (s.modCtx k f).collTerms = s.collTerms ∧ (s.modCtx k f).modnum = s.modnum ∧
    (s.modCtx k f).macs = s.macs ∧ (s.modCtx k f).ethOut = s.ethOut ∧ (s.modCtx k f).badPorts = s.badPorts ∧
    (s.modCtx k f).islands = s.islands ∧ (s.modCtx k f).fenced = s.fenced ∧
    (s.modCtx k f).badUnits = s.badUnits ∧ (s.modCtx k f).corrected = s.corrected ∧
    (s.modCtx k f).replays = s.replays ∧ (s.modCtx k f).ptp = s.ptp ∧ (s.modCtx k f).reports = s.reports ∧
    (s.modCtx k f).cur = s.cur ∧ (s.modCtx k f).agenda = s.agenda ∧ (s.modCtx k f).keep = s.keep ∧
    (s.modCtx k f).rdKey = s.rdKey ∧ (s.modCtx k f).rdAt = s.rdAt ∧ (s.modCtx k f).freeCtr = s.freeCtr ∧
    (s.modCtx k f).nextId = s.nextId ∧ (s.modCtx k f).stamp = s.stamp :=
  ⟨rfl, rfl, rfl, rfl, rfl, rfl, rfl, rfl, rfl, rfl, rfl, rfl, rfl, rfl, rfl, rfl, rfl, rfl, rfl, rfl, rfl,
    rfl, rfl, rfl, rfl, rfl, rfl, rfl, rfl, rfl, rfl, rfl, rfl, rfl, rfl, rfl, rfl, rfl, rfl, rfl, rfl, rfl,
    rfl, rfl, rfl, rfl, rfl, rfl, rfl, rfl, rfl, rfl, rfl, rfl, rfl, rfl, rfl, rfl, rfl, rfl, rfl, rfl, rfl,
    rfl, rfl, rfl, rfl, rfl, rfl, rfl, rfl, rfl, rfl, rfl, rfl, rfl, rfl, rfl, rfl, rfl, rfl, rfl, rfl, rfl,
    rfl, rfl, rfl, rfl, rfl, rfl, rfl, rfl, rfl, rfl, rfl, rfl, rfl, rfl, rfl, rfl, rfl, rfl, rfl, rfl, rfl,
    rfl, rfl, rfl, rfl, rfl, rfl, rfl, rfl, rfl, rfl⟩

/-- Every field after `modMe`. -/
@[simp] theorem State.modMe_fields (s : State) (f : Ctx → Ctx) :
    (s.modMe f).mem = s.mem ∧ (s.modMe f).full = s.full ∧ (s.modMe f).poison = s.poison ∧
    (s.modMe f).ctxs = tset s.cur (f s.me) s.ctxs ∧ (s.modMe f).cores = s.cores ∧
    (s.modMe f).clusters = s.clusters ∧ (s.modMe f).dies = s.dies ∧ (s.modMe f).eddyRr = s.eddyRr ∧
    (s.modMe f).outq = s.outq ∧ (s.modMe f).views = s.views ∧ (s.modMe f).ops = s.ops ∧
    (s.modMe f).applies = s.applies ∧ (s.modMe f).launches = s.launches ∧ (s.modMe f).packets = s.packets ∧
    (s.modMe f).held = s.held ∧ (s.modMe f).hgNext = s.hgNext ∧ (s.modMe f).hgStopped = s.hgStopped ∧
    (s.modMe f).fromQsub = s.fromQsub ∧ (s.modMe f).overflow = s.overflow ∧
    (s.modMe f).liveGen = s.liveGen ∧ (s.modMe f).expands = s.expands ∧ (s.modMe f).kickSeq = s.kickSeq ∧
    (s.modMe f).kickStatus = s.kickStatus ∧ (s.modMe f).kicks = s.kicks ∧ (s.modMe f).svcBusy = s.svcBusy ∧
    (s.modMe f).svcDone = s.svcDone ∧ (s.modMe f).svcGo = s.svcGo ∧ (s.modMe f).svcq = s.svcq ∧
    (s.modMe f).barReads = s.barReads ∧ (s.modMe f).posts = s.posts ∧ (s.modMe f).traces = s.traces ∧
    (s.modMe f).qtbase = s.qtbase ∧ (s.modMe f).pdirbase = s.pdirbase ∧
    (s.modMe f).pdircount = s.pdircount ∧ (s.modMe f).setUp = s.setUp ∧ (s.modMe f).invaddr = s.invaddr ∧
    (s.modMe f).invcmd = s.invcmd ∧ (s.modMe f).inval = s.inval ∧ (s.modMe f).aptBase = s.aptBase ∧
    (s.modMe f).aptCtl = s.aptCtl ∧ (s.modMe f).mbxBusy = s.mbxBusy ∧ (s.modMe f).mbxSeq = s.mbxSeq ∧
    (s.modMe f).mbxRlen = s.mbxRlen ∧ (s.modMe f).mbxResult = s.mbxResult ∧
    (s.modMe f).mbxData = s.mbxData ∧ (s.modMe f).mbxCmd = s.mbxCmd ∧ (s.modMe f).mbxMctp = s.mbxMctp ∧
    (s.modMe f).mctp = s.mctp ∧ (s.modMe f).mctpOut = s.mctpOut ∧
    (s.modMe f).reclaimState = s.reclaimState ∧ (s.modMe f).reclaimSeq = s.reclaimSeq ∧
    (s.modMe f).reclaimMbx = s.reclaimMbx ∧ (s.modMe f).reclaimStart = s.reclaimStart ∧
    (s.modMe f).record = s.record ∧ (s.modMe f).msix = s.msix ∧ (s.modMe f).msixTab = s.msixTab ∧
    (s.modMe f).msixPend = s.msixPend ∧ (s.modMe f).aer = s.aer ∧ (s.modMe f).pcieReads = s.pcieReads ∧
    (s.modMe f).ioGot = s.ioGot ∧ (s.modMe f).pasidCap = s.pasidCap ∧ (s.modMe f).pcieOut = s.pcieOut ∧
    (s.modMe f).bar2Out = s.bar2Out ∧ (s.modMe f).time = s.time ∧ (s.modMe f).timeFrac = s.timeFrac ∧
    (s.modMe f).cycle = s.cycle ∧ (s.modMe f).trim = s.trim ∧ (s.modMe f).fuses = s.fuses ∧
    (s.modMe f).lease = s.lease ∧ (s.modMe f).bootImage = s.bootImage ∧
    (s.modMe f).stagedOwner = s.stagedOwner ∧ (s.modMe f).staged = s.staged ∧ (s.modMe f).hand = s.hand ∧
    (s.modMe f).handSince = s.handSince ∧ (s.modMe f).holder = s.holder ∧ (s.modMe f).current = s.current ∧
    (s.modMe f).policyTcm = s.policyTcm ∧ (s.modMe f).policyRegs = s.policyRegs ∧
    (s.modMe f).policyPc = s.policyPc ∧ (s.modMe f).policyHalted = s.policyHalted ∧
    (s.modMe f).dbgOut = s.dbgOut ∧ (s.modMe f).nonce = s.nonce ∧ (s.modMe f).features = s.features ∧
    (s.modMe f).power = s.power ∧ (s.modMe f).released = s.released ∧ (s.modMe f).recovery = s.recovery ∧
    (s.modMe f).stopped = s.stopped ∧ (s.modMe f).channels = s.channels ∧ (s.modMe f).farWin = s.farWin ∧
    (s.modMe f).farReads = s.farReads ∧ (s.modMe f).farIn = s.farIn ∧ (s.modMe f).farOut = s.farOut ∧
    (s.modMe f).xgroups = s.xgroups ∧ (s.modMe f).collData = s.collData ∧ (s.modMe f).aborts = s.aborts ∧
    (s.modMe f).collTerms = s.collTerms ∧ (s.modMe f).modnum = s.modnum ∧ (s.modMe f).macs = s.macs ∧
    (s.modMe f).ethOut = s.ethOut ∧ (s.modMe f).badPorts = s.badPorts ∧ (s.modMe f).islands = s.islands ∧
    (s.modMe f).fenced = s.fenced ∧ (s.modMe f).badUnits = s.badUnits ∧
    (s.modMe f).corrected = s.corrected ∧ (s.modMe f).replays = s.replays ∧ (s.modMe f).ptp = s.ptp ∧
    (s.modMe f).reports = s.reports ∧ (s.modMe f).cur = s.cur ∧ (s.modMe f).agenda = s.agenda ∧
    (s.modMe f).keep = s.keep ∧ (s.modMe f).rdKey = s.rdKey ∧ (s.modMe f).rdAt = s.rdAt ∧
    (s.modMe f).freeCtr = s.freeCtr ∧ (s.modMe f).nextId = s.nextId ∧ (s.modMe f).stamp = s.stamp :=
  ⟨rfl, rfl, rfl, rfl, rfl, rfl, rfl, rfl, rfl, rfl, rfl, rfl, rfl, rfl, rfl, rfl, rfl, rfl, rfl, rfl, rfl,
    rfl, rfl, rfl, rfl, rfl, rfl, rfl, rfl, rfl, rfl, rfl, rfl, rfl, rfl, rfl, rfl, rfl, rfl, rfl, rfl, rfl,
    rfl, rfl, rfl, rfl, rfl, rfl, rfl, rfl, rfl, rfl, rfl, rfl, rfl, rfl, rfl, rfl, rfl, rfl, rfl, rfl, rfl,
    rfl, rfl, rfl, rfl, rfl, rfl, rfl, rfl, rfl, rfl, rfl, rfl, rfl, rfl, rfl, rfl, rfl, rfl, rfl, rfl, rfl,
    rfl, rfl, rfl, rfl, rfl, rfl, rfl, rfl, rfl, rfl, rfl, rfl, rfl, rfl, rfl, rfl, rfl, rfl, rfl, rfl, rfl,
    rfl, rfl, rfl, rfl, rfl, rfl, rfl, rfl, rfl, rfl⟩

/-- Every field after `setReg`. -/
@[simp] theorem State.setReg_fields (s : State) (r : SReg) (v : DWord) :
    (s.setReg r v).mem = s.mem ∧ (s.setReg r v).full = s.full ∧ (s.setReg r v).poison = s.poison ∧
    (s.setReg r v).ctxs = tset s.cur (s.me.setReg r v) s.ctxs ∧ (s.setReg r v).cores = s.cores ∧
    (s.setReg r v).clusters = s.clusters ∧ (s.setReg r v).dies = s.dies ∧ (s.setReg r v).eddyRr = s.eddyRr ∧
    (s.setReg r v).outq = s.outq ∧ (s.setReg r v).views = s.views ∧ (s.setReg r v).ops = s.ops ∧
    (s.setReg r v).applies = s.applies ∧ (s.setReg r v).launches = s.launches ∧
    (s.setReg r v).packets = s.packets ∧ (s.setReg r v).held = s.held ∧ (s.setReg r v).hgNext = s.hgNext ∧
    (s.setReg r v).hgStopped = s.hgStopped ∧ (s.setReg r v).fromQsub = s.fromQsub ∧
    (s.setReg r v).overflow = s.overflow ∧ (s.setReg r v).liveGen = s.liveGen ∧
    (s.setReg r v).expands = s.expands ∧ (s.setReg r v).kickSeq = s.kickSeq ∧
    (s.setReg r v).kickStatus = s.kickStatus ∧ (s.setReg r v).kicks = s.kicks ∧
    (s.setReg r v).svcBusy = s.svcBusy ∧ (s.setReg r v).svcDone = s.svcDone ∧
    (s.setReg r v).svcGo = s.svcGo ∧ (s.setReg r v).svcq = s.svcq ∧ (s.setReg r v).barReads = s.barReads ∧
    (s.setReg r v).posts = s.posts ∧ (s.setReg r v).traces = s.traces ∧ (s.setReg r v).qtbase = s.qtbase ∧
    (s.setReg r v).pdirbase = s.pdirbase ∧ (s.setReg r v).pdircount = s.pdircount ∧
    (s.setReg r v).setUp = s.setUp ∧ (s.setReg r v).invaddr = s.invaddr ∧ (s.setReg r v).invcmd = s.invcmd ∧
    (s.setReg r v).inval = s.inval ∧ (s.setReg r v).aptBase = s.aptBase ∧ (s.setReg r v).aptCtl = s.aptCtl ∧
    (s.setReg r v).mbxBusy = s.mbxBusy ∧ (s.setReg r v).mbxSeq = s.mbxSeq ∧
    (s.setReg r v).mbxRlen = s.mbxRlen ∧ (s.setReg r v).mbxResult = s.mbxResult ∧
    (s.setReg r v).mbxData = s.mbxData ∧ (s.setReg r v).mbxCmd = s.mbxCmd ∧
    (s.setReg r v).mbxMctp = s.mbxMctp ∧ (s.setReg r v).mctp = s.mctp ∧ (s.setReg r v).mctpOut = s.mctpOut ∧
    (s.setReg r v).reclaimState = s.reclaimState ∧ (s.setReg r v).reclaimSeq = s.reclaimSeq ∧
    (s.setReg r v).reclaimMbx = s.reclaimMbx ∧ (s.setReg r v).reclaimStart = s.reclaimStart ∧
    (s.setReg r v).record = s.record ∧ (s.setReg r v).msix = s.msix ∧ (s.setReg r v).msixTab = s.msixTab ∧
    (s.setReg r v).msixPend = s.msixPend ∧ (s.setReg r v).aer = s.aer ∧
    (s.setReg r v).pcieReads = s.pcieReads ∧ (s.setReg r v).ioGot = s.ioGot ∧
    (s.setReg r v).pasidCap = s.pasidCap ∧ (s.setReg r v).pcieOut = s.pcieOut ∧
    (s.setReg r v).bar2Out = s.bar2Out ∧ (s.setReg r v).time = s.time ∧
    (s.setReg r v).timeFrac = s.timeFrac ∧ (s.setReg r v).cycle = s.cycle ∧ (s.setReg r v).trim = s.trim ∧
    (s.setReg r v).fuses = s.fuses ∧ (s.setReg r v).lease = s.lease ∧
    (s.setReg r v).bootImage = s.bootImage ∧ (s.setReg r v).stagedOwner = s.stagedOwner ∧
    (s.setReg r v).staged = s.staged ∧ (s.setReg r v).hand = s.hand ∧
    (s.setReg r v).handSince = s.handSince ∧ (s.setReg r v).holder = s.holder ∧
    (s.setReg r v).current = s.current ∧ (s.setReg r v).policyTcm = s.policyTcm ∧
    (s.setReg r v).policyRegs = s.policyRegs ∧ (s.setReg r v).policyPc = s.policyPc ∧
    (s.setReg r v).policyHalted = s.policyHalted ∧ (s.setReg r v).dbgOut = s.dbgOut ∧
    (s.setReg r v).nonce = s.nonce ∧ (s.setReg r v).features = s.features ∧ (s.setReg r v).power = s.power ∧
    (s.setReg r v).released = s.released ∧ (s.setReg r v).recovery = s.recovery ∧
    (s.setReg r v).stopped = s.stopped ∧ (s.setReg r v).channels = s.channels ∧
    (s.setReg r v).farWin = s.farWin ∧ (s.setReg r v).farReads = s.farReads ∧
    (s.setReg r v).farIn = s.farIn ∧ (s.setReg r v).farOut = s.farOut ∧ (s.setReg r v).xgroups = s.xgroups ∧
    (s.setReg r v).collData = s.collData ∧ (s.setReg r v).aborts = s.aborts ∧
    (s.setReg r v).collTerms = s.collTerms ∧ (s.setReg r v).modnum = s.modnum ∧
    (s.setReg r v).macs = s.macs ∧ (s.setReg r v).ethOut = s.ethOut ∧ (s.setReg r v).badPorts = s.badPorts ∧
    (s.setReg r v).islands = s.islands ∧ (s.setReg r v).fenced = s.fenced ∧
    (s.setReg r v).badUnits = s.badUnits ∧ (s.setReg r v).corrected = s.corrected ∧
    (s.setReg r v).replays = s.replays ∧ (s.setReg r v).ptp = s.ptp ∧ (s.setReg r v).reports = s.reports ∧
    (s.setReg r v).cur = s.cur ∧ (s.setReg r v).agenda = s.agenda ∧ (s.setReg r v).keep = s.keep ∧
    (s.setReg r v).rdKey = s.rdKey ∧ (s.setReg r v).rdAt = s.rdAt ∧ (s.setReg r v).freeCtr = s.freeCtr ∧
    (s.setReg r v).nextId = s.nextId ∧ (s.setReg r v).stamp = s.stamp :=
  ⟨rfl, rfl, rfl, rfl, rfl, rfl, rfl, rfl, rfl, rfl, rfl, rfl, rfl, rfl, rfl, rfl, rfl, rfl, rfl, rfl, rfl,
    rfl, rfl, rfl, rfl, rfl, rfl, rfl, rfl, rfl, rfl, rfl, rfl, rfl, rfl, rfl, rfl, rfl, rfl, rfl, rfl, rfl,
    rfl, rfl, rfl, rfl, rfl, rfl, rfl, rfl, rfl, rfl, rfl, rfl, rfl, rfl, rfl, rfl, rfl, rfl, rfl, rfl, rfl,
    rfl, rfl, rfl, rfl, rfl, rfl, rfl, rfl, rfl, rfl, rfl, rfl, rfl, rfl, rfl, rfl, rfl, rfl, rfl, rfl, rfl,
    rfl, rfl, rfl, rfl, rfl, rfl, rfl, rfl, rfl, rfl, rfl, rfl, rfl, rfl, rfl, rfl, rfl, rfl, rfl, rfl, rfl,
    rfl, rfl, rfl, rfl, rfl, rfl, rfl, rfl, rfl, rfl⟩

/-- Every field after `setHreg`. -/
@[simp] theorem State.setHreg_fields (s : State) (r : HReg) (v : HWord) :
    (s.setHreg r v).mem = s.mem ∧ (s.setHreg r v).full = s.full ∧ (s.setHreg r v).poison = s.poison ∧
    (s.setHreg r v).ctxs = tset s.cur (s.me.setHreg r v) s.ctxs ∧ (s.setHreg r v).cores = s.cores ∧
    (s.setHreg r v).clusters = s.clusters ∧ (s.setHreg r v).dies = s.dies ∧
    (s.setHreg r v).eddyRr = s.eddyRr ∧ (s.setHreg r v).outq = s.outq ∧ (s.setHreg r v).views = s.views ∧
    (s.setHreg r v).ops = s.ops ∧ (s.setHreg r v).applies = s.applies ∧
    (s.setHreg r v).launches = s.launches ∧ (s.setHreg r v).packets = s.packets ∧
    (s.setHreg r v).held = s.held ∧ (s.setHreg r v).hgNext = s.hgNext ∧
    (s.setHreg r v).hgStopped = s.hgStopped ∧ (s.setHreg r v).fromQsub = s.fromQsub ∧
    (s.setHreg r v).overflow = s.overflow ∧ (s.setHreg r v).liveGen = s.liveGen ∧
    (s.setHreg r v).expands = s.expands ∧ (s.setHreg r v).kickSeq = s.kickSeq ∧
    (s.setHreg r v).kickStatus = s.kickStatus ∧ (s.setHreg r v).kicks = s.kicks ∧
    (s.setHreg r v).svcBusy = s.svcBusy ∧ (s.setHreg r v).svcDone = s.svcDone ∧
    (s.setHreg r v).svcGo = s.svcGo ∧ (s.setHreg r v).svcq = s.svcq ∧
    (s.setHreg r v).barReads = s.barReads ∧ (s.setHreg r v).posts = s.posts ∧
    (s.setHreg r v).traces = s.traces ∧ (s.setHreg r v).qtbase = s.qtbase ∧
    (s.setHreg r v).pdirbase = s.pdirbase ∧ (s.setHreg r v).pdircount = s.pdircount ∧
    (s.setHreg r v).setUp = s.setUp ∧ (s.setHreg r v).invaddr = s.invaddr ∧
    (s.setHreg r v).invcmd = s.invcmd ∧ (s.setHreg r v).inval = s.inval ∧
    (s.setHreg r v).aptBase = s.aptBase ∧ (s.setHreg r v).aptCtl = s.aptCtl ∧
    (s.setHreg r v).mbxBusy = s.mbxBusy ∧ (s.setHreg r v).mbxSeq = s.mbxSeq ∧
    (s.setHreg r v).mbxRlen = s.mbxRlen ∧ (s.setHreg r v).mbxResult = s.mbxResult ∧
    (s.setHreg r v).mbxData = s.mbxData ∧ (s.setHreg r v).mbxCmd = s.mbxCmd ∧
    (s.setHreg r v).mbxMctp = s.mbxMctp ∧ (s.setHreg r v).mctp = s.mctp ∧
    (s.setHreg r v).mctpOut = s.mctpOut ∧ (s.setHreg r v).reclaimState = s.reclaimState ∧
    (s.setHreg r v).reclaimSeq = s.reclaimSeq ∧ (s.setHreg r v).reclaimMbx = s.reclaimMbx ∧
    (s.setHreg r v).reclaimStart = s.reclaimStart ∧ (s.setHreg r v).record = s.record ∧
    (s.setHreg r v).msix = s.msix ∧ (s.setHreg r v).msixTab = s.msixTab ∧
    (s.setHreg r v).msixPend = s.msixPend ∧ (s.setHreg r v).aer = s.aer ∧
    (s.setHreg r v).pcieReads = s.pcieReads ∧ (s.setHreg r v).ioGot = s.ioGot ∧
    (s.setHreg r v).pasidCap = s.pasidCap ∧ (s.setHreg r v).pcieOut = s.pcieOut ∧
    (s.setHreg r v).bar2Out = s.bar2Out ∧ (s.setHreg r v).time = s.time ∧
    (s.setHreg r v).timeFrac = s.timeFrac ∧ (s.setHreg r v).cycle = s.cycle ∧
    (s.setHreg r v).trim = s.trim ∧ (s.setHreg r v).fuses = s.fuses ∧ (s.setHreg r v).lease = s.lease ∧
    (s.setHreg r v).bootImage = s.bootImage ∧ (s.setHreg r v).stagedOwner = s.stagedOwner ∧
    (s.setHreg r v).staged = s.staged ∧ (s.setHreg r v).hand = s.hand ∧
    (s.setHreg r v).handSince = s.handSince ∧ (s.setHreg r v).holder = s.holder ∧
    (s.setHreg r v).current = s.current ∧ (s.setHreg r v).policyTcm = s.policyTcm ∧
    (s.setHreg r v).policyRegs = s.policyRegs ∧ (s.setHreg r v).policyPc = s.policyPc ∧
    (s.setHreg r v).policyHalted = s.policyHalted ∧ (s.setHreg r v).dbgOut = s.dbgOut ∧
    (s.setHreg r v).nonce = s.nonce ∧ (s.setHreg r v).features = s.features ∧
    (s.setHreg r v).power = s.power ∧ (s.setHreg r v).released = s.released ∧
    (s.setHreg r v).recovery = s.recovery ∧ (s.setHreg r v).stopped = s.stopped ∧
    (s.setHreg r v).channels = s.channels ∧ (s.setHreg r v).farWin = s.farWin ∧
    (s.setHreg r v).farReads = s.farReads ∧ (s.setHreg r v).farIn = s.farIn ∧
    (s.setHreg r v).farOut = s.farOut ∧ (s.setHreg r v).xgroups = s.xgroups ∧
    (s.setHreg r v).collData = s.collData ∧ (s.setHreg r v).aborts = s.aborts ∧
    (s.setHreg r v).collTerms = s.collTerms ∧ (s.setHreg r v).modnum = s.modnum ∧
    (s.setHreg r v).macs = s.macs ∧ (s.setHreg r v).ethOut = s.ethOut ∧
    (s.setHreg r v).badPorts = s.badPorts ∧ (s.setHreg r v).islands = s.islands ∧
    (s.setHreg r v).fenced = s.fenced ∧ (s.setHreg r v).badUnits = s.badUnits ∧
    (s.setHreg r v).corrected = s.corrected ∧ (s.setHreg r v).replays = s.replays ∧
    (s.setHreg r v).ptp = s.ptp ∧ (s.setHreg r v).reports = s.reports ∧ (s.setHreg r v).cur = s.cur ∧
    (s.setHreg r v).agenda = s.agenda ∧ (s.setHreg r v).keep = s.keep ∧ (s.setHreg r v).rdKey = s.rdKey ∧
    (s.setHreg r v).rdAt = s.rdAt ∧ (s.setHreg r v).freeCtr = s.freeCtr ∧
    (s.setHreg r v).nextId = s.nextId ∧ (s.setHreg r v).stamp = s.stamp :=
  ⟨rfl, rfl, rfl, rfl, rfl, rfl, rfl, rfl, rfl, rfl, rfl, rfl, rfl, rfl, rfl, rfl, rfl, rfl, rfl, rfl, rfl,
    rfl, rfl, rfl, rfl, rfl, rfl, rfl, rfl, rfl, rfl, rfl, rfl, rfl, rfl, rfl, rfl, rfl, rfl, rfl, rfl, rfl,
    rfl, rfl, rfl, rfl, rfl, rfl, rfl, rfl, rfl, rfl, rfl, rfl, rfl, rfl, rfl, rfl, rfl, rfl, rfl, rfl, rfl,
    rfl, rfl, rfl, rfl, rfl, rfl, rfl, rfl, rfl, rfl, rfl, rfl, rfl, rfl, rfl, rfl, rfl, rfl, rfl, rfl, rfl,
    rfl, rfl, rfl, rfl, rfl, rfl, rfl, rfl, rfl, rfl, rfl, rfl, rfl, rfl, rfl, rfl, rfl, rfl, rfl, rfl, rfl,
    rfl, rfl, rfl, rfl, rfl, rfl, rfl, rfl, rfl, rfl⟩

/-- Every field after `setCore`. -/
@[simp] theorem State.setCore_fields (s : State) (c : Nat) (x : Core) :
    (s.setCore c x).mem = s.mem ∧ (s.setCore c x).full = s.full ∧ (s.setCore c x).poison = s.poison ∧
    (s.setCore c x).ctxs = s.ctxs ∧ (s.setCore c x).cores = tset c x s.cores ∧
    (s.setCore c x).clusters = s.clusters ∧ (s.setCore c x).dies = s.dies ∧
    (s.setCore c x).eddyRr = s.eddyRr ∧ (s.setCore c x).outq = s.outq ∧ (s.setCore c x).views = s.views ∧
    (s.setCore c x).ops = s.ops ∧ (s.setCore c x).applies = s.applies ∧
    (s.setCore c x).launches = s.launches ∧ (s.setCore c x).packets = s.packets ∧
    (s.setCore c x).held = s.held ∧ (s.setCore c x).hgNext = s.hgNext ∧
    (s.setCore c x).hgStopped = s.hgStopped ∧ (s.setCore c x).fromQsub = s.fromQsub ∧
    (s.setCore c x).overflow = s.overflow ∧ (s.setCore c x).liveGen = s.liveGen ∧
    (s.setCore c x).expands = s.expands ∧ (s.setCore c x).kickSeq = s.kickSeq ∧
    (s.setCore c x).kickStatus = s.kickStatus ∧ (s.setCore c x).kicks = s.kicks ∧
    (s.setCore c x).svcBusy = s.svcBusy ∧ (s.setCore c x).svcDone = s.svcDone ∧
    (s.setCore c x).svcGo = s.svcGo ∧ (s.setCore c x).svcq = s.svcq ∧
    (s.setCore c x).barReads = s.barReads ∧ (s.setCore c x).posts = s.posts ∧
    (s.setCore c x).traces = s.traces ∧ (s.setCore c x).qtbase = s.qtbase ∧
    (s.setCore c x).pdirbase = s.pdirbase ∧ (s.setCore c x).pdircount = s.pdircount ∧
    (s.setCore c x).setUp = s.setUp ∧ (s.setCore c x).invaddr = s.invaddr ∧
    (s.setCore c x).invcmd = s.invcmd ∧ (s.setCore c x).inval = s.inval ∧
    (s.setCore c x).aptBase = s.aptBase ∧ (s.setCore c x).aptCtl = s.aptCtl ∧
    (s.setCore c x).mbxBusy = s.mbxBusy ∧ (s.setCore c x).mbxSeq = s.mbxSeq ∧
    (s.setCore c x).mbxRlen = s.mbxRlen ∧ (s.setCore c x).mbxResult = s.mbxResult ∧
    (s.setCore c x).mbxData = s.mbxData ∧ (s.setCore c x).mbxCmd = s.mbxCmd ∧
    (s.setCore c x).mbxMctp = s.mbxMctp ∧ (s.setCore c x).mctp = s.mctp ∧
    (s.setCore c x).mctpOut = s.mctpOut ∧ (s.setCore c x).reclaimState = s.reclaimState ∧
    (s.setCore c x).reclaimSeq = s.reclaimSeq ∧ (s.setCore c x).reclaimMbx = s.reclaimMbx ∧
    (s.setCore c x).reclaimStart = s.reclaimStart ∧ (s.setCore c x).record = s.record ∧
    (s.setCore c x).msix = s.msix ∧ (s.setCore c x).msixTab = s.msixTab ∧
    (s.setCore c x).msixPend = s.msixPend ∧ (s.setCore c x).aer = s.aer ∧
    (s.setCore c x).pcieReads = s.pcieReads ∧ (s.setCore c x).ioGot = s.ioGot ∧
    (s.setCore c x).pasidCap = s.pasidCap ∧ (s.setCore c x).pcieOut = s.pcieOut ∧
    (s.setCore c x).bar2Out = s.bar2Out ∧ (s.setCore c x).time = s.time ∧
    (s.setCore c x).timeFrac = s.timeFrac ∧ (s.setCore c x).cycle = s.cycle ∧
    (s.setCore c x).trim = s.trim ∧ (s.setCore c x).fuses = s.fuses ∧ (s.setCore c x).lease = s.lease ∧
    (s.setCore c x).bootImage = s.bootImage ∧ (s.setCore c x).stagedOwner = s.stagedOwner ∧
    (s.setCore c x).staged = s.staged ∧ (s.setCore c x).hand = s.hand ∧
    (s.setCore c x).handSince = s.handSince ∧ (s.setCore c x).holder = s.holder ∧
    (s.setCore c x).current = s.current ∧ (s.setCore c x).policyTcm = s.policyTcm ∧
    (s.setCore c x).policyRegs = s.policyRegs ∧ (s.setCore c x).policyPc = s.policyPc ∧
    (s.setCore c x).policyHalted = s.policyHalted ∧ (s.setCore c x).dbgOut = s.dbgOut ∧
    (s.setCore c x).nonce = s.nonce ∧ (s.setCore c x).features = s.features ∧
    (s.setCore c x).power = s.power ∧ (s.setCore c x).released = s.released ∧
    (s.setCore c x).recovery = s.recovery ∧ (s.setCore c x).stopped = s.stopped ∧
    (s.setCore c x).channels = s.channels ∧ (s.setCore c x).farWin = s.farWin ∧
    (s.setCore c x).farReads = s.farReads ∧ (s.setCore c x).farIn = s.farIn ∧
    (s.setCore c x).farOut = s.farOut ∧ (s.setCore c x).xgroups = s.xgroups ∧
    (s.setCore c x).collData = s.collData ∧ (s.setCore c x).aborts = s.aborts ∧
    (s.setCore c x).collTerms = s.collTerms ∧ (s.setCore c x).modnum = s.modnum ∧
    (s.setCore c x).macs = s.macs ∧ (s.setCore c x).ethOut = s.ethOut ∧
    (s.setCore c x).badPorts = s.badPorts ∧ (s.setCore c x).islands = s.islands ∧
    (s.setCore c x).fenced = s.fenced ∧ (s.setCore c x).badUnits = s.badUnits ∧
    (s.setCore c x).corrected = s.corrected ∧ (s.setCore c x).replays = s.replays ∧
    (s.setCore c x).ptp = s.ptp ∧ (s.setCore c x).reports = s.reports ∧ (s.setCore c x).cur = s.cur ∧
    (s.setCore c x).agenda = s.agenda ∧ (s.setCore c x).keep = s.keep ∧ (s.setCore c x).rdKey = s.rdKey ∧
    (s.setCore c x).rdAt = s.rdAt ∧ (s.setCore c x).freeCtr = s.freeCtr ∧
    (s.setCore c x).nextId = s.nextId ∧ (s.setCore c x).stamp = s.stamp :=
  ⟨rfl, rfl, rfl, rfl, rfl, rfl, rfl, rfl, rfl, rfl, rfl, rfl, rfl, rfl, rfl, rfl, rfl, rfl, rfl, rfl, rfl,
    rfl, rfl, rfl, rfl, rfl, rfl, rfl, rfl, rfl, rfl, rfl, rfl, rfl, rfl, rfl, rfl, rfl, rfl, rfl, rfl, rfl,
    rfl, rfl, rfl, rfl, rfl, rfl, rfl, rfl, rfl, rfl, rfl, rfl, rfl, rfl, rfl, rfl, rfl, rfl, rfl, rfl, rfl,
    rfl, rfl, rfl, rfl, rfl, rfl, rfl, rfl, rfl, rfl, rfl, rfl, rfl, rfl, rfl, rfl, rfl, rfl, rfl, rfl, rfl,
    rfl, rfl, rfl, rfl, rfl, rfl, rfl, rfl, rfl, rfl, rfl, rfl, rfl, rfl, rfl, rfl, rfl, rfl, rfl, rfl, rfl,
    rfl, rfl, rfl, rfl, rfl, rfl, rfl, rfl, rfl, rfl⟩

/-- Every field after `modCore`. -/
@[simp] theorem State.modCore_fields (s : State) (c : Nat) (f : Core → Core) :
    (s.modCore c f).mem = s.mem ∧ (s.modCore c f).full = s.full ∧ (s.modCore c f).poison = s.poison ∧
    (s.modCore c f).ctxs = s.ctxs ∧ (s.modCore c f).cores = tset c (f (s.core c)) s.cores ∧
    (s.modCore c f).clusters = s.clusters ∧ (s.modCore c f).dies = s.dies ∧
    (s.modCore c f).eddyRr = s.eddyRr ∧ (s.modCore c f).outq = s.outq ∧ (s.modCore c f).views = s.views ∧
    (s.modCore c f).ops = s.ops ∧ (s.modCore c f).applies = s.applies ∧
    (s.modCore c f).launches = s.launches ∧ (s.modCore c f).packets = s.packets ∧
    (s.modCore c f).held = s.held ∧ (s.modCore c f).hgNext = s.hgNext ∧
    (s.modCore c f).hgStopped = s.hgStopped ∧ (s.modCore c f).fromQsub = s.fromQsub ∧
    (s.modCore c f).overflow = s.overflow ∧ (s.modCore c f).liveGen = s.liveGen ∧
    (s.modCore c f).expands = s.expands ∧ (s.modCore c f).kickSeq = s.kickSeq ∧
    (s.modCore c f).kickStatus = s.kickStatus ∧ (s.modCore c f).kicks = s.kicks ∧
    (s.modCore c f).svcBusy = s.svcBusy ∧ (s.modCore c f).svcDone = s.svcDone ∧
    (s.modCore c f).svcGo = s.svcGo ∧ (s.modCore c f).svcq = s.svcq ∧
    (s.modCore c f).barReads = s.barReads ∧ (s.modCore c f).posts = s.posts ∧
    (s.modCore c f).traces = s.traces ∧ (s.modCore c f).qtbase = s.qtbase ∧
    (s.modCore c f).pdirbase = s.pdirbase ∧ (s.modCore c f).pdircount = s.pdircount ∧
    (s.modCore c f).setUp = s.setUp ∧ (s.modCore c f).invaddr = s.invaddr ∧
    (s.modCore c f).invcmd = s.invcmd ∧ (s.modCore c f).inval = s.inval ∧
    (s.modCore c f).aptBase = s.aptBase ∧ (s.modCore c f).aptCtl = s.aptCtl ∧
    (s.modCore c f).mbxBusy = s.mbxBusy ∧ (s.modCore c f).mbxSeq = s.mbxSeq ∧
    (s.modCore c f).mbxRlen = s.mbxRlen ∧ (s.modCore c f).mbxResult = s.mbxResult ∧
    (s.modCore c f).mbxData = s.mbxData ∧ (s.modCore c f).mbxCmd = s.mbxCmd ∧
    (s.modCore c f).mbxMctp = s.mbxMctp ∧ (s.modCore c f).mctp = s.mctp ∧
    (s.modCore c f).mctpOut = s.mctpOut ∧ (s.modCore c f).reclaimState = s.reclaimState ∧
    (s.modCore c f).reclaimSeq = s.reclaimSeq ∧ (s.modCore c f).reclaimMbx = s.reclaimMbx ∧
    (s.modCore c f).reclaimStart = s.reclaimStart ∧ (s.modCore c f).record = s.record ∧
    (s.modCore c f).msix = s.msix ∧ (s.modCore c f).msixTab = s.msixTab ∧
    (s.modCore c f).msixPend = s.msixPend ∧ (s.modCore c f).aer = s.aer ∧
    (s.modCore c f).pcieReads = s.pcieReads ∧ (s.modCore c f).ioGot = s.ioGot ∧
    (s.modCore c f).pasidCap = s.pasidCap ∧ (s.modCore c f).pcieOut = s.pcieOut ∧
    (s.modCore c f).bar2Out = s.bar2Out ∧ (s.modCore c f).time = s.time ∧
    (s.modCore c f).timeFrac = s.timeFrac ∧ (s.modCore c f).cycle = s.cycle ∧
    (s.modCore c f).trim = s.trim ∧ (s.modCore c f).fuses = s.fuses ∧ (s.modCore c f).lease = s.lease ∧
    (s.modCore c f).bootImage = s.bootImage ∧ (s.modCore c f).stagedOwner = s.stagedOwner ∧
    (s.modCore c f).staged = s.staged ∧ (s.modCore c f).hand = s.hand ∧
    (s.modCore c f).handSince = s.handSince ∧ (s.modCore c f).holder = s.holder ∧
    (s.modCore c f).current = s.current ∧ (s.modCore c f).policyTcm = s.policyTcm ∧
    (s.modCore c f).policyRegs = s.policyRegs ∧ (s.modCore c f).policyPc = s.policyPc ∧
    (s.modCore c f).policyHalted = s.policyHalted ∧ (s.modCore c f).dbgOut = s.dbgOut ∧
    (s.modCore c f).nonce = s.nonce ∧ (s.modCore c f).features = s.features ∧
    (s.modCore c f).power = s.power ∧ (s.modCore c f).released = s.released ∧
    (s.modCore c f).recovery = s.recovery ∧ (s.modCore c f).stopped = s.stopped ∧
    (s.modCore c f).channels = s.channels ∧ (s.modCore c f).farWin = s.farWin ∧
    (s.modCore c f).farReads = s.farReads ∧ (s.modCore c f).farIn = s.farIn ∧
    (s.modCore c f).farOut = s.farOut ∧ (s.modCore c f).xgroups = s.xgroups ∧
    (s.modCore c f).collData = s.collData ∧ (s.modCore c f).aborts = s.aborts ∧
    (s.modCore c f).collTerms = s.collTerms ∧ (s.modCore c f).modnum = s.modnum ∧
    (s.modCore c f).macs = s.macs ∧ (s.modCore c f).ethOut = s.ethOut ∧
    (s.modCore c f).badPorts = s.badPorts ∧ (s.modCore c f).islands = s.islands ∧
    (s.modCore c f).fenced = s.fenced ∧ (s.modCore c f).badUnits = s.badUnits ∧
    (s.modCore c f).corrected = s.corrected ∧ (s.modCore c f).replays = s.replays ∧
    (s.modCore c f).ptp = s.ptp ∧ (s.modCore c f).reports = s.reports ∧ (s.modCore c f).cur = s.cur ∧
    (s.modCore c f).agenda = s.agenda ∧ (s.modCore c f).keep = s.keep ∧ (s.modCore c f).rdKey = s.rdKey ∧
    (s.modCore c f).rdAt = s.rdAt ∧ (s.modCore c f).freeCtr = s.freeCtr ∧
    (s.modCore c f).nextId = s.nextId ∧ (s.modCore c f).stamp = s.stamp :=
  ⟨rfl, rfl, rfl, rfl, rfl, rfl, rfl, rfl, rfl, rfl, rfl, rfl, rfl, rfl, rfl, rfl, rfl, rfl, rfl, rfl, rfl,
    rfl, rfl, rfl, rfl, rfl, rfl, rfl, rfl, rfl, rfl, rfl, rfl, rfl, rfl, rfl, rfl, rfl, rfl, rfl, rfl, rfl,
    rfl, rfl, rfl, rfl, rfl, rfl, rfl, rfl, rfl, rfl, rfl, rfl, rfl, rfl, rfl, rfl, rfl, rfl, rfl, rfl, rfl,
    rfl, rfl, rfl, rfl, rfl, rfl, rfl, rfl, rfl, rfl, rfl, rfl, rfl, rfl, rfl, rfl, rfl, rfl, rfl, rfl, rfl,
    rfl, rfl, rfl, rfl, rfl, rfl, rfl, rfl, rfl, rfl, rfl, rfl, rfl, rfl, rfl, rfl, rfl, rfl, rfl, rfl, rfl,
    rfl, rfl, rfl, rfl, rfl, rfl, rfl, rfl, rfl, rfl⟩

/-- Every field after `modCluster`. -/
@[simp] theorem State.modCluster_fields (s : State) (c : Nat) (f : Cluster → Cluster) :
    (s.modCluster c f).mem = s.mem ∧ (s.modCluster c f).full = s.full ∧
    (s.modCluster c f).poison = s.poison ∧ (s.modCluster c f).ctxs = s.ctxs ∧
    (s.modCluster c f).cores = s.cores ∧ (s.modCluster c f).clusters = tset c (f (s.cluster c)) s.clusters ∧
    (s.modCluster c f).dies = s.dies ∧ (s.modCluster c f).eddyRr = s.eddyRr ∧
    (s.modCluster c f).outq = s.outq ∧ (s.modCluster c f).views = s.views ∧ (s.modCluster c f).ops = s.ops ∧
    (s.modCluster c f).applies = s.applies ∧ (s.modCluster c f).launches = s.launches ∧
    (s.modCluster c f).packets = s.packets ∧ (s.modCluster c f).held = s.held ∧
    (s.modCluster c f).hgNext = s.hgNext ∧ (s.modCluster c f).hgStopped = s.hgStopped ∧
    (s.modCluster c f).fromQsub = s.fromQsub ∧ (s.modCluster c f).overflow = s.overflow ∧
    (s.modCluster c f).liveGen = s.liveGen ∧ (s.modCluster c f).expands = s.expands ∧
    (s.modCluster c f).kickSeq = s.kickSeq ∧ (s.modCluster c f).kickStatus = s.kickStatus ∧
    (s.modCluster c f).kicks = s.kicks ∧ (s.modCluster c f).svcBusy = s.svcBusy ∧
    (s.modCluster c f).svcDone = s.svcDone ∧ (s.modCluster c f).svcGo = s.svcGo ∧
    (s.modCluster c f).svcq = s.svcq ∧ (s.modCluster c f).barReads = s.barReads ∧
    (s.modCluster c f).posts = s.posts ∧ (s.modCluster c f).traces = s.traces ∧
    (s.modCluster c f).qtbase = s.qtbase ∧ (s.modCluster c f).pdirbase = s.pdirbase ∧
    (s.modCluster c f).pdircount = s.pdircount ∧ (s.modCluster c f).setUp = s.setUp ∧
    (s.modCluster c f).invaddr = s.invaddr ∧ (s.modCluster c f).invcmd = s.invcmd ∧
    (s.modCluster c f).inval = s.inval ∧ (s.modCluster c f).aptBase = s.aptBase ∧
    (s.modCluster c f).aptCtl = s.aptCtl ∧ (s.modCluster c f).mbxBusy = s.mbxBusy ∧
    (s.modCluster c f).mbxSeq = s.mbxSeq ∧ (s.modCluster c f).mbxRlen = s.mbxRlen ∧
    (s.modCluster c f).mbxResult = s.mbxResult ∧ (s.modCluster c f).mbxData = s.mbxData ∧
    (s.modCluster c f).mbxCmd = s.mbxCmd ∧ (s.modCluster c f).mbxMctp = s.mbxMctp ∧
    (s.modCluster c f).mctp = s.mctp ∧ (s.modCluster c f).mctpOut = s.mctpOut ∧
    (s.modCluster c f).reclaimState = s.reclaimState ∧ (s.modCluster c f).reclaimSeq = s.reclaimSeq ∧
    (s.modCluster c f).reclaimMbx = s.reclaimMbx ∧ (s.modCluster c f).reclaimStart = s.reclaimStart ∧
    (s.modCluster c f).record = s.record ∧ (s.modCluster c f).msix = s.msix ∧
    (s.modCluster c f).msixTab = s.msixTab ∧ (s.modCluster c f).msixPend = s.msixPend ∧
    (s.modCluster c f).aer = s.aer ∧ (s.modCluster c f).pcieReads = s.pcieReads ∧
    (s.modCluster c f).ioGot = s.ioGot ∧ (s.modCluster c f).pasidCap = s.pasidCap ∧
    (s.modCluster c f).pcieOut = s.pcieOut ∧ (s.modCluster c f).bar2Out = s.bar2Out ∧
    (s.modCluster c f).time = s.time ∧ (s.modCluster c f).timeFrac = s.timeFrac ∧
    (s.modCluster c f).cycle = s.cycle ∧ (s.modCluster c f).trim = s.trim ∧
    (s.modCluster c f).fuses = s.fuses ∧ (s.modCluster c f).lease = s.lease ∧
    (s.modCluster c f).bootImage = s.bootImage ∧ (s.modCluster c f).stagedOwner = s.stagedOwner ∧
    (s.modCluster c f).staged = s.staged ∧ (s.modCluster c f).hand = s.hand ∧
    (s.modCluster c f).handSince = s.handSince ∧ (s.modCluster c f).holder = s.holder ∧
    (s.modCluster c f).current = s.current ∧ (s.modCluster c f).policyTcm = s.policyTcm ∧
    (s.modCluster c f).policyRegs = s.policyRegs ∧ (s.modCluster c f).policyPc = s.policyPc ∧
    (s.modCluster c f).policyHalted = s.policyHalted ∧ (s.modCluster c f).dbgOut = s.dbgOut ∧
    (s.modCluster c f).nonce = s.nonce ∧ (s.modCluster c f).features = s.features ∧
    (s.modCluster c f).power = s.power ∧ (s.modCluster c f).released = s.released ∧
    (s.modCluster c f).recovery = s.recovery ∧ (s.modCluster c f).stopped = s.stopped ∧
    (s.modCluster c f).channels = s.channels ∧ (s.modCluster c f).farWin = s.farWin ∧
    (s.modCluster c f).farReads = s.farReads ∧ (s.modCluster c f).farIn = s.farIn ∧
    (s.modCluster c f).farOut = s.farOut ∧ (s.modCluster c f).xgroups = s.xgroups ∧
    (s.modCluster c f).collData = s.collData ∧ (s.modCluster c f).aborts = s.aborts ∧
    (s.modCluster c f).collTerms = s.collTerms ∧ (s.modCluster c f).modnum = s.modnum ∧
    (s.modCluster c f).macs = s.macs ∧ (s.modCluster c f).ethOut = s.ethOut ∧
    (s.modCluster c f).badPorts = s.badPorts ∧ (s.modCluster c f).islands = s.islands ∧
    (s.modCluster c f).fenced = s.fenced ∧ (s.modCluster c f).badUnits = s.badUnits ∧
    (s.modCluster c f).corrected = s.corrected ∧ (s.modCluster c f).replays = s.replays ∧
    (s.modCluster c f).ptp = s.ptp ∧ (s.modCluster c f).reports = s.reports ∧
    (s.modCluster c f).cur = s.cur ∧ (s.modCluster c f).agenda = s.agenda ∧
    (s.modCluster c f).keep = s.keep ∧ (s.modCluster c f).rdKey = s.rdKey ∧
    (s.modCluster c f).rdAt = s.rdAt ∧ (s.modCluster c f).freeCtr = s.freeCtr ∧
    (s.modCluster c f).nextId = s.nextId ∧ (s.modCluster c f).stamp = s.stamp :=
  ⟨rfl, rfl, rfl, rfl, rfl, rfl, rfl, rfl, rfl, rfl, rfl, rfl, rfl, rfl, rfl, rfl, rfl, rfl, rfl, rfl, rfl,
    rfl, rfl, rfl, rfl, rfl, rfl, rfl, rfl, rfl, rfl, rfl, rfl, rfl, rfl, rfl, rfl, rfl, rfl, rfl, rfl, rfl,
    rfl, rfl, rfl, rfl, rfl, rfl, rfl, rfl, rfl, rfl, rfl, rfl, rfl, rfl, rfl, rfl, rfl, rfl, rfl, rfl, rfl,
    rfl, rfl, rfl, rfl, rfl, rfl, rfl, rfl, rfl, rfl, rfl, rfl, rfl, rfl, rfl, rfl, rfl, rfl, rfl, rfl, rfl,
    rfl, rfl, rfl, rfl, rfl, rfl, rfl, rfl, rfl, rfl, rfl, rfl, rfl, rfl, rfl, rfl, rfl, rfl, rfl, rfl, rfl,
    rfl, rfl, rfl, rfl, rfl, rfl, rfl, rfl, rfl, rfl⟩

/-- Every field after `modDie`. -/
@[simp] theorem State.modDie_fields (s : State) (d : Nat) (f : Die → Die) :
    (s.modDie d f).mem = s.mem ∧ (s.modDie d f).full = s.full ∧ (s.modDie d f).poison = s.poison ∧
    (s.modDie d f).ctxs = s.ctxs ∧ (s.modDie d f).cores = s.cores ∧ (s.modDie d f).clusters = s.clusters ∧
    (s.modDie d f).dies = tset d (f (s.die d)) s.dies ∧ (s.modDie d f).eddyRr = s.eddyRr ∧
    (s.modDie d f).outq = s.outq ∧ (s.modDie d f).views = s.views ∧ (s.modDie d f).ops = s.ops ∧
    (s.modDie d f).applies = s.applies ∧ (s.modDie d f).launches = s.launches ∧
    (s.modDie d f).packets = s.packets ∧ (s.modDie d f).held = s.held ∧ (s.modDie d f).hgNext = s.hgNext ∧
    (s.modDie d f).hgStopped = s.hgStopped ∧ (s.modDie d f).fromQsub = s.fromQsub ∧
    (s.modDie d f).overflow = s.overflow ∧ (s.modDie d f).liveGen = s.liveGen ∧
    (s.modDie d f).expands = s.expands ∧ (s.modDie d f).kickSeq = s.kickSeq ∧
    (s.modDie d f).kickStatus = s.kickStatus ∧ (s.modDie d f).kicks = s.kicks ∧
    (s.modDie d f).svcBusy = s.svcBusy ∧ (s.modDie d f).svcDone = s.svcDone ∧
    (s.modDie d f).svcGo = s.svcGo ∧ (s.modDie d f).svcq = s.svcq ∧ (s.modDie d f).barReads = s.barReads ∧
    (s.modDie d f).posts = s.posts ∧ (s.modDie d f).traces = s.traces ∧ (s.modDie d f).qtbase = s.qtbase ∧
    (s.modDie d f).pdirbase = s.pdirbase ∧ (s.modDie d f).pdircount = s.pdircount ∧
    (s.modDie d f).setUp = s.setUp ∧ (s.modDie d f).invaddr = s.invaddr ∧ (s.modDie d f).invcmd = s.invcmd ∧
    (s.modDie d f).inval = s.inval ∧ (s.modDie d f).aptBase = s.aptBase ∧ (s.modDie d f).aptCtl = s.aptCtl ∧
    (s.modDie d f).mbxBusy = s.mbxBusy ∧ (s.modDie d f).mbxSeq = s.mbxSeq ∧
    (s.modDie d f).mbxRlen = s.mbxRlen ∧ (s.modDie d f).mbxResult = s.mbxResult ∧
    (s.modDie d f).mbxData = s.mbxData ∧ (s.modDie d f).mbxCmd = s.mbxCmd ∧
    (s.modDie d f).mbxMctp = s.mbxMctp ∧ (s.modDie d f).mctp = s.mctp ∧ (s.modDie d f).mctpOut = s.mctpOut ∧
    (s.modDie d f).reclaimState = s.reclaimState ∧ (s.modDie d f).reclaimSeq = s.reclaimSeq ∧
    (s.modDie d f).reclaimMbx = s.reclaimMbx ∧ (s.modDie d f).reclaimStart = s.reclaimStart ∧
    (s.modDie d f).record = s.record ∧ (s.modDie d f).msix = s.msix ∧ (s.modDie d f).msixTab = s.msixTab ∧
    (s.modDie d f).msixPend = s.msixPend ∧ (s.modDie d f).aer = s.aer ∧
    (s.modDie d f).pcieReads = s.pcieReads ∧ (s.modDie d f).ioGot = s.ioGot ∧
    (s.modDie d f).pasidCap = s.pasidCap ∧ (s.modDie d f).pcieOut = s.pcieOut ∧
    (s.modDie d f).bar2Out = s.bar2Out ∧ (s.modDie d f).time = s.time ∧
    (s.modDie d f).timeFrac = s.timeFrac ∧ (s.modDie d f).cycle = s.cycle ∧ (s.modDie d f).trim = s.trim ∧
    (s.modDie d f).fuses = s.fuses ∧ (s.modDie d f).lease = s.lease ∧
    (s.modDie d f).bootImage = s.bootImage ∧ (s.modDie d f).stagedOwner = s.stagedOwner ∧
    (s.modDie d f).staged = s.staged ∧ (s.modDie d f).hand = s.hand ∧
    (s.modDie d f).handSince = s.handSince ∧ (s.modDie d f).holder = s.holder ∧
    (s.modDie d f).current = s.current ∧ (s.modDie d f).policyTcm = s.policyTcm ∧
    (s.modDie d f).policyRegs = s.policyRegs ∧ (s.modDie d f).policyPc = s.policyPc ∧
    (s.modDie d f).policyHalted = s.policyHalted ∧ (s.modDie d f).dbgOut = s.dbgOut ∧
    (s.modDie d f).nonce = s.nonce ∧ (s.modDie d f).features = s.features ∧ (s.modDie d f).power = s.power ∧
    (s.modDie d f).released = s.released ∧ (s.modDie d f).recovery = s.recovery ∧
    (s.modDie d f).stopped = s.stopped ∧ (s.modDie d f).channels = s.channels ∧
    (s.modDie d f).farWin = s.farWin ∧ (s.modDie d f).farReads = s.farReads ∧
    (s.modDie d f).farIn = s.farIn ∧ (s.modDie d f).farOut = s.farOut ∧ (s.modDie d f).xgroups = s.xgroups ∧
    (s.modDie d f).collData = s.collData ∧ (s.modDie d f).aborts = s.aborts ∧
    (s.modDie d f).collTerms = s.collTerms ∧ (s.modDie d f).modnum = s.modnum ∧
    (s.modDie d f).macs = s.macs ∧ (s.modDie d f).ethOut = s.ethOut ∧ (s.modDie d f).badPorts = s.badPorts ∧
    (s.modDie d f).islands = s.islands ∧ (s.modDie d f).fenced = s.fenced ∧
    (s.modDie d f).badUnits = s.badUnits ∧ (s.modDie d f).corrected = s.corrected ∧
    (s.modDie d f).replays = s.replays ∧ (s.modDie d f).ptp = s.ptp ∧ (s.modDie d f).reports = s.reports ∧
    (s.modDie d f).cur = s.cur ∧ (s.modDie d f).agenda = s.agenda ∧ (s.modDie d f).keep = s.keep ∧
    (s.modDie d f).rdKey = s.rdKey ∧ (s.modDie d f).rdAt = s.rdAt ∧ (s.modDie d f).freeCtr = s.freeCtr ∧
    (s.modDie d f).nextId = s.nextId ∧ (s.modDie d f).stamp = s.stamp :=
  ⟨rfl, rfl, rfl, rfl, rfl, rfl, rfl, rfl, rfl, rfl, rfl, rfl, rfl, rfl, rfl, rfl, rfl, rfl, rfl, rfl, rfl,
    rfl, rfl, rfl, rfl, rfl, rfl, rfl, rfl, rfl, rfl, rfl, rfl, rfl, rfl, rfl, rfl, rfl, rfl, rfl, rfl, rfl,
    rfl, rfl, rfl, rfl, rfl, rfl, rfl, rfl, rfl, rfl, rfl, rfl, rfl, rfl, rfl, rfl, rfl, rfl, rfl, rfl, rfl,
    rfl, rfl, rfl, rfl, rfl, rfl, rfl, rfl, rfl, rfl, rfl, rfl, rfl, rfl, rfl, rfl, rfl, rfl, rfl, rfl, rfl,
    rfl, rfl, rfl, rfl, rfl, rfl, rfl, rfl, rfl, rfl, rfl, rfl, rfl, rfl, rfl, rfl, rfl, rfl, rfl, rfl, rfl,
    rfl, rfl, rfl, rfl, rfl, rfl, rfl, rfl, rfl, rfl⟩

/-- Every field after `modLaunch`. -/
@[simp] theorem State.modLaunch_fields (s : State) (id : Nat) (f : Launch → Launch) :
    (s.modLaunch id f).mem = s.mem ∧ (s.modLaunch id f).full = s.full ∧
    (s.modLaunch id f).poison = s.poison ∧ (s.modLaunch id f).ctxs = s.ctxs ∧
    (s.modLaunch id f).cores = s.cores ∧ (s.modLaunch id f).clusters = s.clusters ∧
    (s.modLaunch id f).dies = s.dies ∧ (s.modLaunch id f).eddyRr = s.eddyRr ∧
    (s.modLaunch id f).outq = s.outq ∧ (s.modLaunch id f).views = s.views ∧ (s.modLaunch id f).ops = s.ops ∧
    (s.modLaunch id f).applies = s.applies ∧
    (s.modLaunch id f).launches = updFirst (fun l => l.id == id) f s.launches ∧
    (s.modLaunch id f).packets = s.packets ∧ (s.modLaunch id f).held = s.held ∧
    (s.modLaunch id f).hgNext = s.hgNext ∧ (s.modLaunch id f).hgStopped = s.hgStopped ∧
    (s.modLaunch id f).fromQsub = s.fromQsub ∧ (s.modLaunch id f).overflow = s.overflow ∧
    (s.modLaunch id f).liveGen = s.liveGen ∧ (s.modLaunch id f).expands = s.expands ∧
    (s.modLaunch id f).kickSeq = s.kickSeq ∧ (s.modLaunch id f).kickStatus = s.kickStatus ∧
    (s.modLaunch id f).kicks = s.kicks ∧ (s.modLaunch id f).svcBusy = s.svcBusy ∧
    (s.modLaunch id f).svcDone = s.svcDone ∧ (s.modLaunch id f).svcGo = s.svcGo ∧
    (s.modLaunch id f).svcq = s.svcq ∧ (s.modLaunch id f).barReads = s.barReads ∧
    (s.modLaunch id f).posts = s.posts ∧ (s.modLaunch id f).traces = s.traces ∧
    (s.modLaunch id f).qtbase = s.qtbase ∧ (s.modLaunch id f).pdirbase = s.pdirbase ∧
    (s.modLaunch id f).pdircount = s.pdircount ∧ (s.modLaunch id f).setUp = s.setUp ∧
    (s.modLaunch id f).invaddr = s.invaddr ∧ (s.modLaunch id f).invcmd = s.invcmd ∧
    (s.modLaunch id f).inval = s.inval ∧ (s.modLaunch id f).aptBase = s.aptBase ∧
    (s.modLaunch id f).aptCtl = s.aptCtl ∧ (s.modLaunch id f).mbxBusy = s.mbxBusy ∧
    (s.modLaunch id f).mbxSeq = s.mbxSeq ∧ (s.modLaunch id f).mbxRlen = s.mbxRlen ∧
    (s.modLaunch id f).mbxResult = s.mbxResult ∧ (s.modLaunch id f).mbxData = s.mbxData ∧
    (s.modLaunch id f).mbxCmd = s.mbxCmd ∧ (s.modLaunch id f).mbxMctp = s.mbxMctp ∧
    (s.modLaunch id f).mctp = s.mctp ∧ (s.modLaunch id f).mctpOut = s.mctpOut ∧
    (s.modLaunch id f).reclaimState = s.reclaimState ∧ (s.modLaunch id f).reclaimSeq = s.reclaimSeq ∧
    (s.modLaunch id f).reclaimMbx = s.reclaimMbx ∧ (s.modLaunch id f).reclaimStart = s.reclaimStart ∧
    (s.modLaunch id f).record = s.record ∧ (s.modLaunch id f).msix = s.msix ∧
    (s.modLaunch id f).msixTab = s.msixTab ∧ (s.modLaunch id f).msixPend = s.msixPend ∧
    (s.modLaunch id f).aer = s.aer ∧ (s.modLaunch id f).pcieReads = s.pcieReads ∧
    (s.modLaunch id f).ioGot = s.ioGot ∧ (s.modLaunch id f).pasidCap = s.pasidCap ∧
    (s.modLaunch id f).pcieOut = s.pcieOut ∧ (s.modLaunch id f).bar2Out = s.bar2Out ∧
    (s.modLaunch id f).time = s.time ∧ (s.modLaunch id f).timeFrac = s.timeFrac ∧
    (s.modLaunch id f).cycle = s.cycle ∧ (s.modLaunch id f).trim = s.trim ∧
    (s.modLaunch id f).fuses = s.fuses ∧ (s.modLaunch id f).lease = s.lease ∧
    (s.modLaunch id f).bootImage = s.bootImage ∧ (s.modLaunch id f).stagedOwner = s.stagedOwner ∧
    (s.modLaunch id f).staged = s.staged ∧ (s.modLaunch id f).hand = s.hand ∧
    (s.modLaunch id f).handSince = s.handSince ∧ (s.modLaunch id f).holder = s.holder ∧
    (s.modLaunch id f).current = s.current ∧ (s.modLaunch id f).policyTcm = s.policyTcm ∧
    (s.modLaunch id f).policyRegs = s.policyRegs ∧ (s.modLaunch id f).policyPc = s.policyPc ∧
    (s.modLaunch id f).policyHalted = s.policyHalted ∧ (s.modLaunch id f).dbgOut = s.dbgOut ∧
    (s.modLaunch id f).nonce = s.nonce ∧ (s.modLaunch id f).features = s.features ∧
    (s.modLaunch id f).power = s.power ∧ (s.modLaunch id f).released = s.released ∧
    (s.modLaunch id f).recovery = s.recovery ∧ (s.modLaunch id f).stopped = s.stopped ∧
    (s.modLaunch id f).channels = s.channels ∧ (s.modLaunch id f).farWin = s.farWin ∧
    (s.modLaunch id f).farReads = s.farReads ∧ (s.modLaunch id f).farIn = s.farIn ∧
    (s.modLaunch id f).farOut = s.farOut ∧ (s.modLaunch id f).xgroups = s.xgroups ∧
    (s.modLaunch id f).collData = s.collData ∧ (s.modLaunch id f).aborts = s.aborts ∧
    (s.modLaunch id f).collTerms = s.collTerms ∧ (s.modLaunch id f).modnum = s.modnum ∧
    (s.modLaunch id f).macs = s.macs ∧ (s.modLaunch id f).ethOut = s.ethOut ∧
    (s.modLaunch id f).badPorts = s.badPorts ∧ (s.modLaunch id f).islands = s.islands ∧
    (s.modLaunch id f).fenced = s.fenced ∧ (s.modLaunch id f).badUnits = s.badUnits ∧
    (s.modLaunch id f).corrected = s.corrected ∧ (s.modLaunch id f).replays = s.replays ∧
    (s.modLaunch id f).ptp = s.ptp ∧ (s.modLaunch id f).reports = s.reports ∧
    (s.modLaunch id f).cur = s.cur ∧ (s.modLaunch id f).agenda = s.agenda ∧
    (s.modLaunch id f).keep = s.keep ∧ (s.modLaunch id f).rdKey = s.rdKey ∧
    (s.modLaunch id f).rdAt = s.rdAt ∧ (s.modLaunch id f).freeCtr = s.freeCtr ∧
    (s.modLaunch id f).nextId = s.nextId ∧ (s.modLaunch id f).stamp = s.stamp :=
  ⟨rfl, rfl, rfl, rfl, rfl, rfl, rfl, rfl, rfl, rfl, rfl, rfl, rfl, rfl, rfl, rfl, rfl, rfl, rfl, rfl, rfl,
    rfl, rfl, rfl, rfl, rfl, rfl, rfl, rfl, rfl, rfl, rfl, rfl, rfl, rfl, rfl, rfl, rfl, rfl, rfl, rfl, rfl,
    rfl, rfl, rfl, rfl, rfl, rfl, rfl, rfl, rfl, rfl, rfl, rfl, rfl, rfl, rfl, rfl, rfl, rfl, rfl, rfl, rfl,
    rfl, rfl, rfl, rfl, rfl, rfl, rfl, rfl, rfl, rfl, rfl, rfl, rfl, rfl, rfl, rfl, rfl, rfl, rfl, rfl, rfl,
    rfl, rfl, rfl, rfl, rfl, rfl, rfl, rfl, rfl, rfl, rfl, rfl, rfl, rfl, rfl, rfl, rfl, rfl, rfl, rfl, rfl,
    rfl, rfl, rfl, rfl, rfl, rfl, rfl, rfl, rfl, rfl⟩

/-- Every field after `modOp`. -/
@[simp] theorem State.modOp_fields (s : State) (id : Nat) (f : Op → Op) :
    (s.modOp id f).mem = s.mem ∧ (s.modOp id f).full = s.full ∧ (s.modOp id f).poison = s.poison ∧
    (s.modOp id f).ctxs = s.ctxs ∧ (s.modOp id f).cores = s.cores ∧ (s.modOp id f).clusters = s.clusters ∧
    (s.modOp id f).dies = s.dies ∧ (s.modOp id f).eddyRr = s.eddyRr ∧ (s.modOp id f).outq = s.outq ∧
    (s.modOp id f).views = s.views ∧ (s.modOp id f).ops = updFirst (fun o => o.id == id) f s.ops ∧
    (s.modOp id f).applies = s.applies ∧ (s.modOp id f).launches = s.launches ∧
    (s.modOp id f).packets = s.packets ∧ (s.modOp id f).held = s.held ∧ (s.modOp id f).hgNext = s.hgNext ∧
    (s.modOp id f).hgStopped = s.hgStopped ∧ (s.modOp id f).fromQsub = s.fromQsub ∧
    (s.modOp id f).overflow = s.overflow ∧ (s.modOp id f).liveGen = s.liveGen ∧
    (s.modOp id f).expands = s.expands ∧ (s.modOp id f).kickSeq = s.kickSeq ∧
    (s.modOp id f).kickStatus = s.kickStatus ∧ (s.modOp id f).kicks = s.kicks ∧
    (s.modOp id f).svcBusy = s.svcBusy ∧ (s.modOp id f).svcDone = s.svcDone ∧
    (s.modOp id f).svcGo = s.svcGo ∧ (s.modOp id f).svcq = s.svcq ∧ (s.modOp id f).barReads = s.barReads ∧
    (s.modOp id f).posts = s.posts ∧ (s.modOp id f).traces = s.traces ∧ (s.modOp id f).qtbase = s.qtbase ∧
    (s.modOp id f).pdirbase = s.pdirbase ∧ (s.modOp id f).pdircount = s.pdircount ∧
    (s.modOp id f).setUp = s.setUp ∧ (s.modOp id f).invaddr = s.invaddr ∧ (s.modOp id f).invcmd = s.invcmd ∧
    (s.modOp id f).inval = s.inval ∧ (s.modOp id f).aptBase = s.aptBase ∧ (s.modOp id f).aptCtl = s.aptCtl ∧
    (s.modOp id f).mbxBusy = s.mbxBusy ∧ (s.modOp id f).mbxSeq = s.mbxSeq ∧
    (s.modOp id f).mbxRlen = s.mbxRlen ∧ (s.modOp id f).mbxResult = s.mbxResult ∧
    (s.modOp id f).mbxData = s.mbxData ∧ (s.modOp id f).mbxCmd = s.mbxCmd ∧
    (s.modOp id f).mbxMctp = s.mbxMctp ∧ (s.modOp id f).mctp = s.mctp ∧ (s.modOp id f).mctpOut = s.mctpOut ∧
    (s.modOp id f).reclaimState = s.reclaimState ∧ (s.modOp id f).reclaimSeq = s.reclaimSeq ∧
    (s.modOp id f).reclaimMbx = s.reclaimMbx ∧ (s.modOp id f).reclaimStart = s.reclaimStart ∧
    (s.modOp id f).record = s.record ∧ (s.modOp id f).msix = s.msix ∧ (s.modOp id f).msixTab = s.msixTab ∧
    (s.modOp id f).msixPend = s.msixPend ∧ (s.modOp id f).aer = s.aer ∧
    (s.modOp id f).pcieReads = s.pcieReads ∧ (s.modOp id f).ioGot = s.ioGot ∧
    (s.modOp id f).pasidCap = s.pasidCap ∧ (s.modOp id f).pcieOut = s.pcieOut ∧
    (s.modOp id f).bar2Out = s.bar2Out ∧ (s.modOp id f).time = s.time ∧
    (s.modOp id f).timeFrac = s.timeFrac ∧ (s.modOp id f).cycle = s.cycle ∧ (s.modOp id f).trim = s.trim ∧
    (s.modOp id f).fuses = s.fuses ∧ (s.modOp id f).lease = s.lease ∧
    (s.modOp id f).bootImage = s.bootImage ∧ (s.modOp id f).stagedOwner = s.stagedOwner ∧
    (s.modOp id f).staged = s.staged ∧ (s.modOp id f).hand = s.hand ∧
    (s.modOp id f).handSince = s.handSince ∧ (s.modOp id f).holder = s.holder ∧
    (s.modOp id f).current = s.current ∧ (s.modOp id f).policyTcm = s.policyTcm ∧
    (s.modOp id f).policyRegs = s.policyRegs ∧ (s.modOp id f).policyPc = s.policyPc ∧
    (s.modOp id f).policyHalted = s.policyHalted ∧ (s.modOp id f).dbgOut = s.dbgOut ∧
    (s.modOp id f).nonce = s.nonce ∧ (s.modOp id f).features = s.features ∧ (s.modOp id f).power = s.power ∧
    (s.modOp id f).released = s.released ∧ (s.modOp id f).recovery = s.recovery ∧
    (s.modOp id f).stopped = s.stopped ∧ (s.modOp id f).channels = s.channels ∧
    (s.modOp id f).farWin = s.farWin ∧ (s.modOp id f).farReads = s.farReads ∧
    (s.modOp id f).farIn = s.farIn ∧ (s.modOp id f).farOut = s.farOut ∧ (s.modOp id f).xgroups = s.xgroups ∧
    (s.modOp id f).collData = s.collData ∧ (s.modOp id f).aborts = s.aborts ∧
    (s.modOp id f).collTerms = s.collTerms ∧ (s.modOp id f).modnum = s.modnum ∧
    (s.modOp id f).macs = s.macs ∧ (s.modOp id f).ethOut = s.ethOut ∧ (s.modOp id f).badPorts = s.badPorts ∧
    (s.modOp id f).islands = s.islands ∧ (s.modOp id f).fenced = s.fenced ∧
    (s.modOp id f).badUnits = s.badUnits ∧ (s.modOp id f).corrected = s.corrected ∧
    (s.modOp id f).replays = s.replays ∧ (s.modOp id f).ptp = s.ptp ∧ (s.modOp id f).reports = s.reports ∧
    (s.modOp id f).cur = s.cur ∧ (s.modOp id f).agenda = s.agenda ∧ (s.modOp id f).keep = s.keep ∧
    (s.modOp id f).rdKey = s.rdKey ∧ (s.modOp id f).rdAt = s.rdAt ∧ (s.modOp id f).freeCtr = s.freeCtr ∧
    (s.modOp id f).nextId = s.nextId ∧ (s.modOp id f).stamp = s.stamp :=
  ⟨rfl, rfl, rfl, rfl, rfl, rfl, rfl, rfl, rfl, rfl, rfl, rfl, rfl, rfl, rfl, rfl, rfl, rfl, rfl, rfl, rfl,
    rfl, rfl, rfl, rfl, rfl, rfl, rfl, rfl, rfl, rfl, rfl, rfl, rfl, rfl, rfl, rfl, rfl, rfl, rfl, rfl, rfl,
    rfl, rfl, rfl, rfl, rfl, rfl, rfl, rfl, rfl, rfl, rfl, rfl, rfl, rfl, rfl, rfl, rfl, rfl, rfl, rfl, rfl,
    rfl, rfl, rfl, rfl, rfl, rfl, rfl, rfl, rfl, rfl, rfl, rfl, rfl, rfl, rfl, rfl, rfl, rfl, rfl, rfl, rfl,
    rfl, rfl, rfl, rfl, rfl, rfl, rfl, rfl, rfl, rfl, rfl, rfl, rfl, rfl, rfl, rfl, rfl, rfl, rfl, rfl, rfl,
    rfl, rfl, rfl, rfl, rfl, rfl, rfl, rfl, rfl, rfl⟩

/-- Every field after `setFull`. -/
@[simp] theorem State.setFull_fields (s : State) (g : Nat) (b : Bool) :
    (s.setFull g b).mem = s.mem ∧ (s.setFull g b).full = (if b then sins g s.full else sdel g s.full) ∧
    (s.setFull g b).poison = s.poison ∧ (s.setFull g b).ctxs = s.ctxs ∧ (s.setFull g b).cores = s.cores ∧
    (s.setFull g b).clusters = s.clusters ∧ (s.setFull g b).dies = s.dies ∧
    (s.setFull g b).eddyRr = s.eddyRr ∧ (s.setFull g b).outq = s.outq ∧ (s.setFull g b).views = s.views ∧
    (s.setFull g b).ops = s.ops ∧ (s.setFull g b).applies = s.applies ∧
    (s.setFull g b).launches = s.launches ∧ (s.setFull g b).packets = s.packets ∧
    (s.setFull g b).held = s.held ∧ (s.setFull g b).hgNext = s.hgNext ∧
    (s.setFull g b).hgStopped = s.hgStopped ∧ (s.setFull g b).fromQsub = s.fromQsub ∧
    (s.setFull g b).overflow = s.overflow ∧ (s.setFull g b).liveGen = s.liveGen ∧
    (s.setFull g b).expands = s.expands ∧ (s.setFull g b).kickSeq = s.kickSeq ∧
    (s.setFull g b).kickStatus = s.kickStatus ∧ (s.setFull g b).kicks = s.kicks ∧
    (s.setFull g b).svcBusy = s.svcBusy ∧ (s.setFull g b).svcDone = s.svcDone ∧
    (s.setFull g b).svcGo = s.svcGo ∧ (s.setFull g b).svcq = s.svcq ∧
    (s.setFull g b).barReads = s.barReads ∧ (s.setFull g b).posts = s.posts ∧
    (s.setFull g b).traces = s.traces ∧ (s.setFull g b).qtbase = s.qtbase ∧
    (s.setFull g b).pdirbase = s.pdirbase ∧ (s.setFull g b).pdircount = s.pdircount ∧
    (s.setFull g b).setUp = s.setUp ∧ (s.setFull g b).invaddr = s.invaddr ∧
    (s.setFull g b).invcmd = s.invcmd ∧ (s.setFull g b).inval = s.inval ∧
    (s.setFull g b).aptBase = s.aptBase ∧ (s.setFull g b).aptCtl = s.aptCtl ∧
    (s.setFull g b).mbxBusy = s.mbxBusy ∧ (s.setFull g b).mbxSeq = s.mbxSeq ∧
    (s.setFull g b).mbxRlen = s.mbxRlen ∧ (s.setFull g b).mbxResult = s.mbxResult ∧
    (s.setFull g b).mbxData = s.mbxData ∧ (s.setFull g b).mbxCmd = s.mbxCmd ∧
    (s.setFull g b).mbxMctp = s.mbxMctp ∧ (s.setFull g b).mctp = s.mctp ∧
    (s.setFull g b).mctpOut = s.mctpOut ∧ (s.setFull g b).reclaimState = s.reclaimState ∧
    (s.setFull g b).reclaimSeq = s.reclaimSeq ∧ (s.setFull g b).reclaimMbx = s.reclaimMbx ∧
    (s.setFull g b).reclaimStart = s.reclaimStart ∧ (s.setFull g b).record = s.record ∧
    (s.setFull g b).msix = s.msix ∧ (s.setFull g b).msixTab = s.msixTab ∧
    (s.setFull g b).msixPend = s.msixPend ∧ (s.setFull g b).aer = s.aer ∧
    (s.setFull g b).pcieReads = s.pcieReads ∧ (s.setFull g b).ioGot = s.ioGot ∧
    (s.setFull g b).pasidCap = s.pasidCap ∧ (s.setFull g b).pcieOut = s.pcieOut ∧
    (s.setFull g b).bar2Out = s.bar2Out ∧ (s.setFull g b).time = s.time ∧
    (s.setFull g b).timeFrac = s.timeFrac ∧ (s.setFull g b).cycle = s.cycle ∧
    (s.setFull g b).trim = s.trim ∧ (s.setFull g b).fuses = s.fuses ∧ (s.setFull g b).lease = s.lease ∧
    (s.setFull g b).bootImage = s.bootImage ∧ (s.setFull g b).stagedOwner = s.stagedOwner ∧
    (s.setFull g b).staged = s.staged ∧ (s.setFull g b).hand = s.hand ∧
    (s.setFull g b).handSince = s.handSince ∧ (s.setFull g b).holder = s.holder ∧
    (s.setFull g b).current = s.current ∧ (s.setFull g b).policyTcm = s.policyTcm ∧
    (s.setFull g b).policyRegs = s.policyRegs ∧ (s.setFull g b).policyPc = s.policyPc ∧
    (s.setFull g b).policyHalted = s.policyHalted ∧ (s.setFull g b).dbgOut = s.dbgOut ∧
    (s.setFull g b).nonce = s.nonce ∧ (s.setFull g b).features = s.features ∧
    (s.setFull g b).power = s.power ∧ (s.setFull g b).released = s.released ∧
    (s.setFull g b).recovery = s.recovery ∧ (s.setFull g b).stopped = s.stopped ∧
    (s.setFull g b).channels = s.channels ∧ (s.setFull g b).farWin = s.farWin ∧
    (s.setFull g b).farReads = s.farReads ∧ (s.setFull g b).farIn = s.farIn ∧
    (s.setFull g b).farOut = s.farOut ∧ (s.setFull g b).xgroups = s.xgroups ∧
    (s.setFull g b).collData = s.collData ∧ (s.setFull g b).aborts = s.aborts ∧
    (s.setFull g b).collTerms = s.collTerms ∧ (s.setFull g b).modnum = s.modnum ∧
    (s.setFull g b).macs = s.macs ∧ (s.setFull g b).ethOut = s.ethOut ∧
    (s.setFull g b).badPorts = s.badPorts ∧ (s.setFull g b).islands = s.islands ∧
    (s.setFull g b).fenced = s.fenced ∧ (s.setFull g b).badUnits = s.badUnits ∧
    (s.setFull g b).corrected = s.corrected ∧ (s.setFull g b).replays = s.replays ∧
    (s.setFull g b).ptp = s.ptp ∧ (s.setFull g b).reports = s.reports ∧ (s.setFull g b).cur = s.cur ∧
    (s.setFull g b).agenda = s.agenda ∧ (s.setFull g b).keep = s.keep ∧ (s.setFull g b).rdKey = s.rdKey ∧
    (s.setFull g b).rdAt = s.rdAt ∧ (s.setFull g b).freeCtr = s.freeCtr ∧
    (s.setFull g b).nextId = s.nextId ∧ (s.setFull g b).stamp = s.stamp :=
  ⟨rfl, rfl, rfl, rfl, rfl, rfl, rfl, rfl, rfl, rfl, rfl, rfl, rfl, rfl, rfl, rfl, rfl, rfl, rfl, rfl, rfl,
    rfl, rfl, rfl, rfl, rfl, rfl, rfl, rfl, rfl, rfl, rfl, rfl, rfl, rfl, rfl, rfl, rfl, rfl, rfl, rfl, rfl,
    rfl, rfl, rfl, rfl, rfl, rfl, rfl, rfl, rfl, rfl, rfl, rfl, rfl, rfl, rfl, rfl, rfl, rfl, rfl, rfl, rfl,
    rfl, rfl, rfl, rfl, rfl, rfl, rfl, rfl, rfl, rfl, rfl, rfl, rfl, rfl, rfl, rfl, rfl, rfl, rfl, rfl, rfl,
    rfl, rfl, rfl, rfl, rfl, rfl, rfl, rfl, rfl, rfl, rfl, rfl, rfl, rfl, rfl, rfl, rfl, rfl, rfl, rfl, rfl,
    rfl, rfl, rfl, rfl, rfl, rfl, rfl, rfl, rfl, rfl⟩

/-- Every field after `report`. -/
@[simp] theorem State.report_fields (s : State) (r : Report) :
    (s.report r).mem = s.mem ∧ (s.report r).full = s.full ∧ (s.report r).poison = s.poison ∧
    (s.report r).ctxs = s.ctxs ∧ (s.report r).cores = s.cores ∧ (s.report r).clusters = s.clusters ∧
    (s.report r).dies = s.dies ∧ (s.report r).eddyRr = s.eddyRr ∧ (s.report r).outq = s.outq ∧
    (s.report r).views = s.views ∧ (s.report r).ops = s.ops ∧ (s.report r).applies = s.applies ∧
    (s.report r).launches = s.launches ∧ (s.report r).packets = s.packets ∧ (s.report r).held = s.held ∧
    (s.report r).hgNext = s.hgNext ∧ (s.report r).hgStopped = s.hgStopped ∧
    (s.report r).fromQsub = s.fromQsub ∧ (s.report r).overflow = s.overflow ∧
    (s.report r).liveGen = s.liveGen ∧ (s.report r).expands = s.expands ∧ (s.report r).kickSeq = s.kickSeq ∧
    (s.report r).kickStatus = s.kickStatus ∧ (s.report r).kicks = s.kicks ∧
    (s.report r).svcBusy = s.svcBusy ∧ (s.report r).svcDone = s.svcDone ∧ (s.report r).svcGo = s.svcGo ∧
    (s.report r).svcq = s.svcq ∧ (s.report r).barReads = s.barReads ∧ (s.report r).posts = s.posts ∧
    (s.report r).traces = s.traces ∧ (s.report r).qtbase = s.qtbase ∧ (s.report r).pdirbase = s.pdirbase ∧
    (s.report r).pdircount = s.pdircount ∧ (s.report r).setUp = s.setUp ∧ (s.report r).invaddr = s.invaddr ∧
    (s.report r).invcmd = s.invcmd ∧ (s.report r).inval = s.inval ∧ (s.report r).aptBase = s.aptBase ∧
    (s.report r).aptCtl = s.aptCtl ∧ (s.report r).mbxBusy = s.mbxBusy ∧ (s.report r).mbxSeq = s.mbxSeq ∧
    (s.report r).mbxRlen = s.mbxRlen ∧ (s.report r).mbxResult = s.mbxResult ∧
    (s.report r).mbxData = s.mbxData ∧ (s.report r).mbxCmd = s.mbxCmd ∧ (s.report r).mbxMctp = s.mbxMctp ∧
    (s.report r).mctp = s.mctp ∧ (s.report r).mctpOut = s.mctpOut ∧
    (s.report r).reclaimState = s.reclaimState ∧ (s.report r).reclaimSeq = s.reclaimSeq ∧
    (s.report r).reclaimMbx = s.reclaimMbx ∧ (s.report r).reclaimStart = s.reclaimStart ∧
    (s.report r).record = s.record ∧ (s.report r).msix = s.msix ∧ (s.report r).msixTab = s.msixTab ∧
    (s.report r).msixPend = s.msixPend ∧ (s.report r).aer = s.aer ∧ (s.report r).pcieReads = s.pcieReads ∧
    (s.report r).ioGot = s.ioGot ∧ (s.report r).pasidCap = s.pasidCap ∧ (s.report r).pcieOut = s.pcieOut ∧
    (s.report r).bar2Out = s.bar2Out ∧ (s.report r).time = s.time ∧ (s.report r).timeFrac = s.timeFrac ∧
    (s.report r).cycle = s.cycle ∧ (s.report r).trim = s.trim ∧ (s.report r).fuses = s.fuses ∧
    (s.report r).lease = s.lease ∧ (s.report r).bootImage = s.bootImage ∧
    (s.report r).stagedOwner = s.stagedOwner ∧ (s.report r).staged = s.staged ∧ (s.report r).hand = s.hand ∧
    (s.report r).handSince = s.handSince ∧ (s.report r).holder = s.holder ∧
    (s.report r).current = s.current ∧ (s.report r).policyTcm = s.policyTcm ∧
    (s.report r).policyRegs = s.policyRegs ∧ (s.report r).policyPc = s.policyPc ∧
    (s.report r).policyHalted = s.policyHalted ∧ (s.report r).dbgOut = s.dbgOut ∧
    (s.report r).nonce = s.nonce ∧ (s.report r).features = s.features ∧ (s.report r).power = s.power ∧
    (s.report r).released = s.released ∧ (s.report r).recovery = s.recovery ∧
    (s.report r).stopped = s.stopped ∧ (s.report r).channels = s.channels ∧ (s.report r).farWin = s.farWin ∧
    (s.report r).farReads = s.farReads ∧ (s.report r).farIn = s.farIn ∧ (s.report r).farOut = s.farOut ∧
    (s.report r).xgroups = s.xgroups ∧ (s.report r).collData = s.collData ∧ (s.report r).aborts = s.aborts ∧
    (s.report r).collTerms = s.collTerms ∧ (s.report r).modnum = s.modnum ∧ (s.report r).macs = s.macs ∧
    (s.report r).ethOut = s.ethOut ∧ (s.report r).badPorts = s.badPorts ∧ (s.report r).islands = s.islands ∧
    (s.report r).fenced = s.fenced ∧ (s.report r).badUnits = s.badUnits ∧
    (s.report r).corrected = s.corrected ∧ (s.report r).replays = s.replays ∧ (s.report r).ptp = s.ptp ∧
    (s.report r).reports = s.reports ++ [r] ∧ (s.report r).cur = s.cur ∧ (s.report r).agenda = s.agenda ∧
    (s.report r).keep = s.keep ∧ (s.report r).rdKey = s.rdKey ∧ (s.report r).rdAt = s.rdAt ∧
    (s.report r).freeCtr = s.freeCtr ∧ (s.report r).nextId = s.nextId ∧ (s.report r).stamp = s.stamp :=
  ⟨rfl, rfl, rfl, rfl, rfl, rfl, rfl, rfl, rfl, rfl, rfl, rfl, rfl, rfl, rfl, rfl, rfl, rfl, rfl, rfl, rfl,
    rfl, rfl, rfl, rfl, rfl, rfl, rfl, rfl, rfl, rfl, rfl, rfl, rfl, rfl, rfl, rfl, rfl, rfl, rfl, rfl, rfl,
    rfl, rfl, rfl, rfl, rfl, rfl, rfl, rfl, rfl, rfl, rfl, rfl, rfl, rfl, rfl, rfl, rfl, rfl, rfl, rfl, rfl,
    rfl, rfl, rfl, rfl, rfl, rfl, rfl, rfl, rfl, rfl, rfl, rfl, rfl, rfl, rfl, rfl, rfl, rfl, rfl, rfl, rfl,
    rfl, rfl, rfl, rfl, rfl, rfl, rfl, rfl, rfl, rfl, rfl, rfl, rfl, rfl, rfl, rfl, rfl, rfl, rfl, rfl, rfl,
    rfl, rfl, rfl, rfl, rfl, rfl, rfl, rfl, rfl, rfl⟩

/-- Every field of a context after `setHreg`. -/
@[simp] theorem Ctx.setHreg_fields (c : Ctx) (r : HReg) (v : HWord) :
    (c.setHreg r v).mode = c.mode ∧ (c.setHreg r v).regs = c.regs ∧
    (c.setHreg r v).hregs = c.hregs.set r.toNat v r.isLt ∧ (c.setHreg r v).pc = c.pc ∧
    (c.setHreg r v).acc = c.acc ∧ (c.setHreg r v).xstatus = c.xstatus ∧ (c.setHreg r v).xcause = c.xcause ∧
    (c.setHreg r v).xval = c.xval ∧ (c.setHreg r v).xpc = c.xpc ∧ (c.setHreg r v).xvec = c.xvec ∧
    (c.setHreg r v).xscratch = c.xscratch ∧ (c.setHreg r v).qctl = c.qctl ∧
    (c.setHreg r v).specctl = c.specctl ∧ (c.setHreg r v).drainmax = c.drainmax ∧
    (c.setHreg r v).fewait = c.fewait ∧ (c.setHreg r v).retrymax = c.retrymax ∧
    (c.setHreg r v).fpflags = c.fpflags ∧ (c.setHreg r v).loops = c.loops ∧ (c.setHreg r v).rep = c.rep ∧
    (c.setHreg r v).savedLoops = c.savedLoops ∧ (c.setHreg r v).savedRep = c.savedRep ∧
    (c.setHreg r v).hstack = c.hstack ∧ (c.setHreg r v).sbuf = c.sbuf ∧
    (c.setHreg r v).fetchOld = c.fetchOld ∧ (c.setHreg r v).disp = c.disp ∧ (c.setHreg r v).wait = c.wait ∧
    (c.setHreg r v).trapping = c.trapping ∧ (c.setHreg r v).frec = c.frec :=
  ⟨rfl, rfl, rfl, rfl, rfl, rfl, rfl, rfl, rfl, rfl, rfl, rfl, rfl, rfl, rfl, rfl, rfl, rfl, rfl, rfl, rfl,
    rfl, rfl, rfl, rfl, rfl, rfl, rfl⟩

/-- Every field of a context but its scalar registers after `setReg`. -/
@[simp] theorem Ctx.setReg_fields (c : Ctx) (r : SReg) (v : DWord) :
    (c.setReg r v).mode = c.mode ∧ (c.setReg r v).hregs = c.hregs ∧ (c.setReg r v).pc = c.pc ∧
    (c.setReg r v).acc = c.acc ∧ (c.setReg r v).xstatus = c.xstatus ∧ (c.setReg r v).xcause = c.xcause ∧
    (c.setReg r v).xval = c.xval ∧ (c.setReg r v).xpc = c.xpc ∧ (c.setReg r v).xvec = c.xvec ∧
    (c.setReg r v).xscratch = c.xscratch ∧ (c.setReg r v).qctl = c.qctl ∧
    (c.setReg r v).specctl = c.specctl ∧ (c.setReg r v).drainmax = c.drainmax ∧
    (c.setReg r v).fewait = c.fewait ∧ (c.setReg r v).retrymax = c.retrymax ∧
    (c.setReg r v).fpflags = c.fpflags ∧ (c.setReg r v).loops = c.loops ∧ (c.setReg r v).rep = c.rep ∧
    (c.setReg r v).savedLoops = c.savedLoops ∧ (c.setReg r v).savedRep = c.savedRep ∧
    (c.setReg r v).hstack = c.hstack ∧ (c.setReg r v).sbuf = c.sbuf ∧ (c.setReg r v).fetchOld = c.fetchOld ∧
    (c.setReg r v).disp = c.disp ∧ (c.setReg r v).wait = c.wait ∧ (c.setReg r v).trapping = c.trapping ∧
    (c.setReg r v).frec = c.frec :=
  by unfold Ctx.setReg; split <;> simp

/-! ## Registers (R18) -/

/-- s0 reads as zero. -/
@[simp] theorem Ctx.reg_zero (c : Ctx) : c.reg 0#5 = 0#64 := rfl

/-- A register that was written reads back, but s0. -/
theorem Ctx.reg_setReg_same (c : Ctx) {r : SReg} (h : r ≠ 0#5) (v : DWord) : (c.setReg r v).reg r = v := by
  simp [Ctx.reg, Ctx.setReg, h]

/-- A write leaves every other register. -/
theorem Ctx.reg_setReg_other (c : Ctx) {r q : SReg} (h : q ≠ r) (v : DWord) :
    (c.setReg r v).reg q = c.reg q := by
  unfold Ctx.reg Ctx.setReg
  split
  · rfl
  · split
    · rfl
    · exact Vector.getElem_set_ne r.isLt q.isLt (fun e => h (BitVec.eq_of_toNat_eq e.symm))

/-- A write to s0 is discarded. -/
@[simp] theorem Ctx.setReg_zero (c : Ctx) (v : DWord) : c.setReg 0#5 v = c := rfl

/-- Handle registers stand apart from scalar ones. -/
@[simp] theorem Ctx.hreg_setReg (c : Ctx) (r : SReg) (v : DWord) (q : HReg) :
    (c.setReg r v).hreg q = c.hreg q := by simp [Ctx.hreg]

/-- Scalar registers stand apart from handle ones. -/
@[simp] theorem Ctx.reg_setHreg (c : Ctx) (r : HReg) (v : HWord) (q : SReg) :
    (c.setHreg r v).reg q = c.reg q := rfl

/-- A handle register that was written reads back. -/
@[simp] theorem Ctx.hreg_setHreg_same (c : Ctx) (r : HReg) (v : HWord) : (c.setHreg r v).hreg r = v := by
  simp [Ctx.hreg]

/-- A write leaves every other handle register. -/
theorem Ctx.hreg_setHreg_other (c : Ctx) {r q : HReg} (h : q ≠ r) (v : HWord) :
    (c.setHreg r v).hreg q = c.hreg q :=
  Vector.getElem_set_ne r.isLt q.isLt (fun e => h (BitVec.eq_of_toNat_eq e.symm))

/-! ## What a context or core reads as -/

/-- The context that was set. -/
@[simp] theorem State.ctx_setCtx_same (s : State) (k : Nat) (c : Ctx) : (s.setCtx k c).ctx k = c := by
  simp [State.ctx]

/-- Every other context stays. -/
theorem State.ctx_setCtx_other (s : State) {j k : Nat} (h : j ≠ k) (c : Ctx) :
    (s.setCtx k c).ctx j = s.ctx j := by
  simp [State.ctx, tget_tset_other h]

/-- The context that was changed. -/
@[simp] theorem State.ctx_modCtx_same (s : State) (k : Nat) (f : Ctx → Ctx) :
    (s.modCtx k f).ctx k = f (s.ctx k) := s.ctx_setCtx_same k _

/-- Every other context stays. -/
theorem State.ctx_modCtx_other (s : State) {j k : Nat} (h : j ≠ k) (f : Ctx → Ctx) :
    (s.modCtx k f).ctx j = s.ctx j := s.ctx_setCtx_other h _

/-- The context that issues, after a change of it. -/
@[simp] theorem State.me_modMe (s : State) (f : Ctx → Ctx) : (s.modMe f).me = f s.me :=
  s.ctx_modCtx_same s.cur f

/-- Every other context stays. -/
theorem State.ctx_modMe_other (s : State) {j : Nat} (h : j ≠ s.cur) (f : Ctx → Ctx) :
    (s.modMe f).ctx j = s.ctx j := s.ctx_modCtx_other h f

/-- The context that issues, after a write of a scalar register. -/
@[simp] theorem State.me_setReg (s : State) (r : SReg) (v : DWord) : (s.setReg r v).me = s.me.setReg r v :=
  s.me_modMe _

/-- The context that issues, after a write of a handle register. -/
@[simp] theorem State.me_setHreg (s : State) (r : HReg) (v : HWord) :
    (s.setHreg r v).me = s.me.setHreg r v := s.me_modMe _

/-- The core that was changed. -/
@[simp] theorem State.core_modCore_same (s : State) (c : Nat) (f : Core → Core) :
    (s.modCore c f).core c = f (s.core c) := by simp [State.core]

/-- Every other core stays. -/
theorem State.core_modCore_other (s : State) {j c : Nat} (h : j ≠ c) (f : Core → Core) :
    (s.modCore c f).core j = s.core j := by simp [State.core, tget_tset_other h]

/-- The cluster that was changed. -/
@[simp] theorem State.cluster_modCluster_same (s : State) (c : Nat) (f : Cluster → Cluster) :
    (s.modCluster c f).cluster c = f (s.cluster c) := by simp [State.cluster]

/-- Every other cluster stays. -/
theorem State.cluster_modCluster_other (s : State) {j c : Nat} (h : j ≠ c) (f : Cluster → Cluster) :
    (s.modCluster c f).cluster j = s.cluster j := by simp [State.cluster, tget_tset_other h]

/-- The die that was changed. -/
@[simp] theorem State.die_modDie_same (s : State) (d : Nat) (f : Die → Die) :
    (s.modDie d f).die d = f (s.die d) := by simp [State.die]

/-- Every other die stays. -/
theorem State.die_modDie_other (s : State) {j d : Nat} (h : j ≠ d) (f : Die → Die) :
    (s.modDie d f).die j = s.die j := by simp [State.die, tget_tset_other h]

end Sys2Proof.Machine
end

