-- ==== Sys2Proof/Laws/Memory.lean ====
section
/-! SUPPORT. What the operations of Memory.lean can do: they keep the canonical form of memory, and those
that perform nothing leave memory as it is. -/

namespace Sys2Proof.Machine
open Sys2Proof

/-! ## A fold keeps what each of its steps keeps -/

/-- A fold over a list keeps a property of the state that every step keeps. -/
theorem foldl_keeps {α β : Type} {P : α → Prop} {f : α → β → α} (h : ∀ a b, P a → P (f a b)) (l : List β) :
    ∀ a, P a → P (l.foldl f a) := by
  induction l with
  | nil => exact fun _ ha => ha
  | cons b r ih => exact fun a ha => ih _ (h a b ha)

/-! ## Performing (R262) -/

/-- Keeping an old copy changes no memory. -/
@[simp] theorem keepOld_mem (s : State) (die g : Nat) : (keepOld s die g).mem = s.mem := by
  unfold keepOld; split <;> rfl

/-- Keeping an old copy changes nothing but the views. -/
theorem keepOld_frame (s : State) (die g : Nat) : ({ keepOld s die g with views := s.views } : State) = s := by
  unfold keepOld; split <;> rfl

/-- A performed write leaves memory as it is, or writes its bytes at its home. -/
theorem perform_mem (s : State) (src pasid h : Nat) (bs : List Byte) (fill : List Nat) (chk : Option Chk)
    (unit : Bool) : (perform s src pasid h bs fill chk unit).mem =
      if chkOk s pasid chk = true ∧ isHome h = true then memWrite h bs s.mem else s.mem := by
  have hk : ∀ (p : State → Nat → Bool) (l : List Nat) (u : State),
      (l.foldl (fun s g => (s.keep.filter (p s)).foldl (fun s d => keepOld s d g) s) u).mem = u.mem := by
    intro p l u
    refine foldl_keeps (P := fun t : State => t.mem = u.mem) (fun a g ha => ?_) l u rfl
    exact foldl_keeps (P := fun t : State => t.mem = u.mem) (fun b d hb => by rw [keepOld_mem, hb]) _ a ha
  unfold perform
  by_cases h1 : chkOk s pasid chk = true <;> by_cases h2 : isHome h = true
  · simp only [h1, h2, Bool.not_true, Bool.false_eq_true, if_false, and_self, if_true]
    rw [hk (fun _ d => d != src && d != homeDie h && decide (d < 64))]
  · simp [h1, h2]
  · simp [h1]
  · simp [h1]

/-- A performed write keeps the canonical form. -/
theorem perform_wf {s : State} (hs : memWf s.mem = true) (src pasid h : Nat) (bs : List Byte) (fill : List Nat)
    (chk : Option Chk) (unit : Bool) : memWf (perform s src pasid h bs fill chk unit).mem = true := by
  rw [perform_mem]; split
  · exact memWf_memWrite hs h bs
  · exact hs

/-- A performed write leaves the outbound queues as they are. -/
theorem perform_outq (s : State) (src pasid h : Nat) (bs : List Byte) (fill : List Nat) (chk : Option Chk)
    (unit : Bool) : (perform s src pasid h bs fill chk unit).outq = s.outq := by
  have hk : ∀ (p : State → Nat → Bool) (l : List Nat) (u : State),
      (l.foldl (fun s g => (s.keep.filter (p s)).foldl (fun s d => keepOld s d g) s) u).outq = u.outq := by
    intro p l u
    refine foldl_keeps (P := fun t : State => t.outq = u.outq) (fun a g ha => ?_) l u rfl
    refine foldl_keeps (P := fun t : State => t.outq = u.outq) (fun b d hb => ?_) _ a ha
    rw [← hb]; unfold keepOld; split <;> rfl
  unfold perform
  split
  · rfl
  · split
    · rfl
    · exact hk (fun _ d => d != src && d != homeDie h && decide (d < 64)) _ _

/-- A failed write leaves memory as it is. -/
@[simp] theorem failWrite_mem (s : State) (w : Nat × Nat × Nat × Nat) : (failWrite s w).mem = s.mem := rfl

/-- A launch marked job-fatal leaves memory as it is. -/
@[simp] theorem markFatal_mem (s : State) (id : Nat) (f : Fatal) : (s.markFatal id f).mem = s.mem := rfl
/-- A launch marked job-fatal leaves the outbound queues as they are. -/
@[simp] theorem markFatal_outq (s : State) (id : Nat) (f : Fatal) : (s.markFatal id f).outq = s.outq := rfl

/-- A launch that meets an uncorrectable error is all that changes. -/
theorem poisonLaunch_same (s : State) (core : Nat) :
    (poisonLaunch s core).mem = s.mem ∧ (poisonLaunch s core).outq = s.outq := by
  unfold poisonLaunch; split
  · exact ⟨rfl, rfl⟩
  · exact ⟨rfl, rfl⟩

/-- An atomic access at its home keeps the canonical form. -/
theorem amoAct_wf {s : State} (hs : memWf s.mem = true) (src pasid h : Nat) (chk : Option Chk) (i : Instr)
    (y cmp : DWord) : memWf (amoAct s src pasid h chk i y cmp).2.mem = true := by
  unfold amoAct; dsimp only; split
  · exact hs
  · exact perform_wf hs ..

/-- An atomic access at its home leaves the outbound queues as they are. -/
theorem amoAct_outq (s : State) (src pasid h : Nat) (chk : Option Chk) (i : Instr) (y cmp : DWord) :
    (amoAct s src pasid h chk i y cmp).2.outq = s.outq := by
  unfold amoAct; dsimp only; split
  · rfl
  · exact perform_outq ..

/-- An atomic access that leaves its queue keeps the canonical form. -/
theorem performAmo_wf {s : State} (hs : memWf s.mem = true) (e : QEntry) (q : AmoReq) :
    memWf (performAmo s e q).mem = true := by
  cases q with
  | scalar k i y cmp =>
    simp only [performAmo]; split
    · exact hs
    · split
      · rw [(poisonLaunch_same s _).1]; exact hs
      · exact amoAct_wf hs ..
  | eddy launch core fmt v =>
    simp only [performAmo]; split
    · exact hs
    · exact perform_wf hs ..

/-- Performing a queue entry keeps the canonical form. -/
theorem performEntry_wf {s : State} (hs : memWf s.mem = true) (e : QEntry) : memWf (performEntry s e).mem = true := by
  unfold performEntry; split
  · exact performAmo_wf hs ..
  · split
    · exact perform_wf hs ..
    · split
      · exact perform_wf hs ..
      · exact hs

/-- Performing a queue entry puts nothing into the outbound queues. -/
theorem performEntry_outq (s : State) (e : QEntry) : (performEntry s e).outq.Sublist s.outq := by
  have amo : ∀ q, (performAmo s e q).outq = s.outq := by
    intro q
    cases q with
    | scalar k i y cmp =>
      simp only [performAmo]; split
      · rfl
      · split
        · exact (poisonLaunch_same s _).2
        · exact amoAct_outq ..
    | eddy launch core fmt v =>
      simp only [performAmo]; split
      · rfl
      · exact perform_outq ..
  unfold performEntry; split
  · simp only [amo, List.Sublist.refl]
  · split
    · simp only [perform_outq, List.Sublist.refl]
    · split
      · simp only [perform_outq, List.Sublist.refl]
      · exact List.filter_sublist

/-- What `takeFirst` takes is in the list, and what it leaves is a sublist with one match fewer. -/
theorem takeFirst_some {α : Type} {p : α → Bool} : ∀ {l : List α} {x : α} {r : List α}, takeFirst p l = some (x, r) →
    r.Sublist l ∧ (l.filter p).length = (r.filter p).length + 1 := by
  intro l
  induction l with
  | nil => intro x r h; simp [takeFirst] at h
  | cons y l ih =>
    intro x r h
    simp only [takeFirst] at h
    split at h
    · rename_i hy
      obtain ⟨rfl, rfl⟩ := Prod.mk.inj (Option.some.inj h)
      exact ⟨List.sublist_cons_self .., by simp [hy]⟩
    · rename_i hy
      cases ht : takeFirst p l with
      | none => simp [ht] at h
      | some q =>
        simp only [ht, Option.some.injEq, Prod.mk.injEq] at h
        obtain ⟨h1, h2⟩ := ih (x := q.1) (r := q.2) ht
        rw [← h.2]
        exact ⟨h1.cons_cons y, by simp [hy, h2]⟩

/-- Where `takeFirst` finds nothing, nothing matches. -/
theorem takeFirst_none {α : Type} {p : α → Bool} : ∀ {l : List α}, takeFirst p l = none → ∀ x ∈ l, p x = false := by
  intro l
  induction l with
  | nil => intro _ x hx; simp at hx
  | cons y l ih =>
    intro h x hx
    simp only [takeFirst] at h
    split at h
    · simp at h
    · rename_i hy
      cases ht : takeFirst p l with
      | some q => simp [ht] at h
      | none =>
        rcases List.mem_cons.mp hx with rfl | hx
        · simpa using hy
        · exact ih ht x hx

/-- Performing the joined pieces of a granule keeps the canonical form. -/
theorem performJoined_wf (p : QEntry → Bool) (n : Nat) : ∀ {s : State}, memWf s.mem = true →
    memWf (performJoined p n s).mem = true := by
  induction n with
  | zero => exact fun hs => hs
  | succ n ih =>
    intro s hs
    simp only [performJoined]; split
    · exact hs
    · rename_i e r _
      split
      · exact ih (performEntry_wf (s := { s with outq := r }) hs e)
      · exact hs

/-- Performing the joined pieces of a granule puts nothing into the outbound queues. -/
theorem performJoined_outq (p : QEntry → Bool) (n : Nat) : ∀ (s : State),
    (performJoined p n s).outq.Sublist s.outq := by
  induction n with
  | zero => exact fun s => List.Sublist.refl _
  | succ n ih =>
    intro s
    simp only [performJoined]; split
    · exact List.Sublist.refl _
    · rename_i e r ht
      split
      · exact (ih _).trans ((performEntry_outq { s with outq := r } e).trans (takeFirst_some ht).1)
      · exact List.Sublist.refl _

/-- Performing the oldest entry of a choice keeps the canonical form. -/
theorem performFirst_wf {s : State} (hs : memWf s.mem = true) (p : QEntry → Bool) :
    memWf (performFirst p s).mem = true := by
  unfold performFirst; split
  · exact hs
  · rename_i e r _; exact performJoined_wf p _ (performEntry_wf (s := { s with outq := r }) hs e)

/-- Performing some entries keeps the canonical form. -/
theorem performSome_wf (p : QEntry → Bool) (n : Nat) : ∀ {s : State}, memWf s.mem = true →
    memWf (performSome p n s).mem = true := by
  induction n with
  | zero => exact fun hs => hs
  | succ n ih => exact fun hs => ih (performFirst_wf hs p)

/-- After as many entries as match have been performed, none that matches is left. -/
theorem performSome_outq (p : QEntry → Bool) (n : Nat) : ∀ (s : State), (s.outq.filter p).length ≤ n →
    ∀ e ∈ (performSome p n s).outq, p e = false := by
  induction n with
  | zero =>
    intro s h e he
    have h0 : s.outq.filter p = [] := List.eq_nil_of_length_eq_zero (by omega)
    cases hp : p e with
    | false => rfl
    | true =>
      have : e ∈ s.outq.filter p := List.mem_filter.mpr ⟨he, hp⟩
      rw [h0] at this; simp at this
  | succ n ih =>
    intro s h
    refine ih (performFirst p s) ?_
    unfold performFirst
    cases ht : takeFirst p s.outq with
    | none =>
      have : s.outq.filter p = [] := List.filter_eq_nil_iff.mpr (fun x hx => by simp [takeFirst_none ht x hx])
      simp [this]
    | some q =>
      obtain ⟨-, h2⟩ := takeFirst_some (x := q.1) (r := q.2) ht
      have := (((performJoined_outq p q.2.length _).trans (performEntry_outq { s with outq := q.2 } q.1)).filter p).length_le
      show ((performJoined p q.2.length (performEntry { s with outq := q.2 } q.1)).outq.filter p).length ≤ n
      simp only at this
      omega

/-- Performing everything of a die keeps the canonical form. -/
theorem performAll_wf {s : State} (hs : memWf s.mem = true) (die : Nat) : memWf (performAll s die).mem = true :=
  performSome_wf _ _ hs

/-- Performing the head of a queue keeps the canonical form. -/
theorem performHead_wf {s : State} (hs : memWf s.mem = true) (src dst : Nat) :
    memWf (performHead s src dst).mem = true := by
  unfold performHead; dsimp only; split
  · exact performFirst_wf (performSome_wf _ _ hs) _
  · exact performFirst_wf hs _

/-- Performing the heads of a queue keeps the canonical form. -/
theorem performHeads_wf (src dst n : Nat) : ∀ {s : State}, memWf s.mem = true →
    memWf (performHeads src dst n s).mem = true := by
  induction n with
  | zero => exact fun hs => hs
  | succ n ih => exact fun hs => ih (performHead_wf hs src dst)

/-- Performing one queue keeps the canonical form. -/
theorem performQueue_wf {s : State} (hs : memWf s.mem = true) (src dst : Nat) :
    memWf (performQueue s src dst).mem = true := performHeads_wf src dst _ hs

/-- An access that is issued keeps the canonical form. -/
theorem issueEntry_wf {s : State} (hs : memWf s.mem = true) (e : QEntry) : memWf (issueEntry s e).mem = true := by
  unfold issueEntry; split
  · exact performEntry_wf hs e
  · exact hs

/-- Issuing a write keeps the canonical form. -/
theorem issueWrite_wf {s : State} (hs : memWf s.mem = true) (src pasid h : Nat) (bs : List Byte) (fill : List Nat)
    (chk : Option Chk) (unit : Bool) : memWf (issueWrite s src pasid h bs fill chk unit).mem = true :=
  issueEntry_wf hs _

/-! ## Store buffers (R262) -/

/-- An entry that leaves keeps the canonical form. -/
theorem leave_wf {s : State} (hs : memWf s.mem = true) (k : Nat) (e : BufEntry) : memWf (leave k s e).mem = true := by
  unfold leave; dsimp only; split
  · exact hs
  · apply issueEntry_wf; split
    · exact performAll_wf hs _
    · exact hs

/-- The head of a buffer that leaves keeps the canonical form. -/
theorem drainHead_wf {s : State} (hs : memWf s.mem = true) (k : Nat) : memWf (drainHead s k).mem = true := by
  unfold drainHead; split
  · exact hs
  · exact leave_wf (s := State.modCtx s k _) hs k _

/-- The first entries of a buffer that leave keep the canonical form. -/
theorem drainN_wf (k n : Nat) : ∀ {s : State}, memWf s.mem = true → memWf (drainN s k n).mem = true := by
  induction n with
  | zero => exact fun hs => hs
  | succ n ih => exact fun hs => ih (drainHead_wf hs k)

/-- A buffer that empties keeps the canonical form. -/
theorem drainAll_wf {s : State} (hs : memWf s.mem = true) (k : Nat) : memWf (drainAll s k).mem = true :=
  drainN_wf k _ hs

/-- A release keeps the canonical form. -/
theorem releaseModule_wf {s : State} (hs : memWf s.mem = true) (k : Nat) : memWf (releaseModule s k).mem = true :=
  performAll_wf (drainAll_wf hs k) _

/-- The bytes that a fetch keeps change no memory. -/
@[simp] theorem fetchKeep_mem (s : State) (k h n : Nat) : (fetchKeep s k h n).mem = s.mem := by
  unfold fetchKeep; split <;> rfl

/-- A store that enters a buffer keeps the canonical form. -/
theorem enterBuf_wf {s : State} (hs : memWf s.mem = true) (k : Nat) (e : BufEntry) :
    memWf (enterBuf s k e).mem = true := by
  show memWf (fetchKeep (if 16 ≤ (s.ctx k).sbuf.length then drainHead s k else s) k e.home e.bytes.length).mem = true
  rw [fetchKeep_mem]; split
  · exact drainHead_wf hs k
  · exact hs

/-- A store that enters a buffer with room leaves memory as it is. -/
theorem enterBuf_mem {s : State} {k : Nat} (h : (s.ctx k).sbuf.length < 16) (e : BufEntry) :
    (enterBuf s k e).mem = s.mem := by
  show (fetchKeep (if 16 ≤ (s.ctx k).sbuf.length then drainHead s k else s) k e.home e.bytes.length).mem = s.mem
  rw [fetchKeep_mem, if_neg (by omega)]

/-! ## Refreshes, service drains, acquires (R267, R275) -/

/-- A refresh leaves memory as it is. -/
@[simp] theorem refreshAll_mem (s : State) (die : Nat) : (refreshAll s die).mem = s.mem := rfl
/-- A refresh of one granule leaves memory as it is. -/
@[simp] theorem refreshOne_mem (s : State) (die g : Nat) : (refreshOne s die g).mem = s.mem := rfl
/-- After a refresh of a die no view of it holds an old copy. -/
theorem refreshAll_views (s : State) (die : Nat) : ∀ v ∈ (refreshAll s die).views, v.die ≠ die := by
  intro v hv; simp only [refreshAll, List.mem_filter, bne_iff_ne, ne_eq] at hv; exact hv.2

/-- After everything of a die is performed its queues are empty. -/
theorem performAll_outq (s : State) (die : Nat) : ∀ e ∈ (performAll s die).outq, e.src ≠ die := by
  intro e he
  have h := performSome_outq (fun e => e.src == die) s.outq.length s (List.length_filter_le ..) e he
  simpa using h

/-- A fault event leaves memory as it is. -/
theorem barFault_mem (s : State) (a : Nat) : (barFault s a).mem = s.mem := by
  unfold barFault raise; dsimp only; split <;> rfl

/-- A piece that a service core performs keeps the canonical form. -/
theorem svcPerform_wf {s : State} (hs : memWf s.mem = true) (r : SvcReq) : memWf (svcPerform s r).mem = true := by
  unfold svcPerform; split
  · split
    · rw [barFault_mem]; exact hs
    · exact perform_wf hs ..
  · split
    · exact hs
    · split
      · exact hs
      · exact hs

/-- The pieces that service cores perform keep the canonical form. -/
theorem svcSome_wf (p : SvcReq → Bool) (n : Nat) : ∀ {s : State}, memWf s.mem = true → memWf (svcSome p n s).mem = true := by
  induction n with
  | zero => exact fun hs => hs
  | succ n ih =>
    intro s hs
    refine ih (s := svcFirst p s) ?_
    unfold svcFirst; split
    · exact hs
    · rename_i x r _; exact svcPerform_wf (s := { s with svcq := r }) hs x

/-- A service drain keeps the canonical form. -/
theorem svcDrain_wf {s : State} (hs : memWf s.mem = true) : memWf (svcDrain s).mem = true := svcSome_wf _ _ hs

/-- An acquire keeps the canonical form. -/
theorem acquire_wf {s : State} (hs : memWf s.mem = true) (die scope : Nat) :
    memWf (acquire s die scope).mem = true := by
  unfold acquire; split
  · exact hs
  · split
    · exact hs
    · exact svcDrain_wf hs

/-- A load from a home keeps the canonical form. -/
theorem loadHome_wf {s : State} (hs : memWf s.mem = true) (k a n : Nat) : memWf (loadHome s k a n).2.mem = true := by
  unfold loadHome; dsimp only; split
  · exact drainN_wf k _ hs
  · exact drainN_wf k _ hs

end Sys2Proof.Machine
end

