-- ==== Sys2Proof/Laws/Ops.lean ====
section
/-! SUPPORT. What the shared operations of Ops.lean can do: the checks of R42, retiring, and taking an
exception. -/

namespace Sys2Proof.Machine
open Sys2Proof

/-! ## The checks of R42 -/

/-- With the checks passed, an instruction does what its meaning says. -/
theorem run_ready {i : Instr} {s : State} (h : Ready i s) (body : State → Out) : run i s body = body s := by
  obtain ⟨h1, h2⟩ := h
  rcases h2 with h2 | h2 <;> simp [run, h1, h2]

/-- An instruction that a REP block forbids traps there (R186). -/
theorem run_noRep {i : Instr} {s : State} (hi : i.noRep = true) (hr : s.me.rep.isSome = true)
    (body : State → Out) : run i s body = illegal i s := by simp [run, hi, hr]

/-- A register at or above the accessible count traps (R20). -/
theorem run_badReg {i : Instr} {s : State} {r : SReg} (h1 : badReg s.me.acc i = some r)
    (h2 : i.noRep = false ∨ s.me.rep = none) (body : State → Out) :
    run i s body = trap i 0x02 (r.zeroExtend 64) s := by
  rcases h2 with h2 | h2 <;> simp [run, h1, h2]

/-! ## Retiring (R183 to R185) -/

/-- Of a context, retiring changes the flow of control only. -/
theorem retireCtx_frame (c : Ctx) (len : Nat) :
    ({ retireCtx c len with pc := c.pc, loops := c.loops, rep := c.rep, wait := c.wait } : Ctx) = c := by
  unfold retireCtx; dsimp only; split
  · cases c; rfl
  · split
    · cases c; rfl
    · split <;> (cases c; rfl)

/-- Giving up the repetition buffer changes no context. -/
@[simp] theorem releaseRep_ctx (s : State) (k j : Nat) : (releaseRep s k).ctx j = s.ctx j := rfl

/-- Retiring leaves memory as it is. -/
@[simp] theorem retire_mem (i : Instr) (s : State) : (retire i s).mem = s.mem := by
  unfold retire; dsimp only; split <;> rfl

/-- Retiring changes contexts and cores only. -/
theorem retire_frame (i : Instr) (s : State) :
    ({ retire i s with ctxs := s.ctxs, cores := s.cores } : State) = s := by
  unfold retire; dsimp only; split <;> rfl

/-- The context that issues, once it has retired. -/
theorem retire_me (i : Instr) (s : State) : (retire i s).me = retireCtx s.me i.len := by
  unfold retire; dsimp only; split
  · show (State.modMe s (fun c => retireCtx c i.len)).me = _
    simp
  · simp

/-! ## Waiting and jumping -/

/-- A wait leaves memory as it is. -/
@[simp] theorem waitFor_mem (i : Instr) (w : WaitFor) (n : Nat) (s : State) : (waitFor i w n s).mem = s.mem := rfl
/-- What a wait has found out leaves memory as it is. -/
@[simp] theorem setWhat_mem (w : WaitFor) (s : State) : (setWhat w s).mem = s.mem := rfl
/-- The end of a wait leaves memory as it is. -/
@[simp] theorem clearWait_mem (s : State) : (clearWait s).mem = s.mem := rfl
/-- A jump leaves memory as it is. -/
@[simp] theorem jumpTo_mem (b : Bool) (t : DWord) (s : State) : (jumpTo b t s).mem = s.mem := rfl

end Sys2Proof.Machine
end

