-- ==== Sys2Proof/Laws/PerInstr.lean ====
section
/-! SUPPORT. Decoding undoes encoding, one lemma for each constructor (spec/02 R21 to R41). -/

namespace Sys2Proof.Laws
open Sys2Proof

/-- A well-formed instruction is what its own words decode to; an event has no words. -/
def RoundTrip.Statement (i : Instr) : Prop :=
  i.isEvent = false → i.wf = true → decodeList (encode i) = some i

theorem RoundTrip.add (w : Bool) (d : SReg) (a : SReg) (b : Operand) : RoundTrip.Statement (.add w d a b) := by
  intro _ hw
  refine decodeList_int (fun k r => ?_) hw
  simp (disch := decide) only [decodeInt, guardI, fD, fA, fW, fieldsR, fields,
    Nat.sub_self, Nat.reduceSub, BitVec.reduceBEq, beq_self_eq_true, Bool.false_eq_true, reduceIte]
theorem RoundTrip.sub (w : Bool) (d : SReg) (a : SReg) (b : Operand) : RoundTrip.Statement (.sub w d a b) := by
  intro _ hw
  refine decodeList_int (fun k r => ?_) hw
  simp (disch := decide) only [decodeInt, guardI, fD, fA, fW, fieldsR, fields,
    Nat.sub_self, Nat.reduceSub, BitVec.reduceBEq, beq_self_eq_true, Bool.false_eq_true, reduceIte]
theorem RoundTrip.and (d : SReg) (a : SReg) (b : Operand) : RoundTrip.Statement (.and d a b) := by
  intro _ hw
  refine decodeList_int (fun k r => ?_) hw
  simp (disch := decide) only [decodeInt, guardI, fD, fA, fW, fieldsR, fields,
    Nat.sub_self, Nat.reduceSub, BitVec.reduceBEq, beq_self_eq_true, Bool.and_true, Bool.not_false, Bool.false_eq_true, reduceIte]
theorem RoundTrip.or (d : SReg) (a : SReg) (b : Operand) : RoundTrip.Statement (.or d a b) := by
  intro _ hw
  refine decodeList_int (fun k r => ?_) hw
  simp (disch := decide) only [decodeInt, guardI, fD, fA, fW, fieldsR, fields,
    Nat.sub_self, Nat.reduceSub, BitVec.reduceBEq, beq_self_eq_true, Bool.and_true, Bool.not_false, Bool.false_eq_true, reduceIte]
theorem RoundTrip.xor (d : SReg) (a : SReg) (b : Operand) : RoundTrip.Statement (.xor d a b) := by
  intro _ hw
  refine decodeList_int (fun k r => ?_) hw
  simp (disch := decide) only [decodeInt, guardI, fD, fA, fW, fieldsR, fields,
    Nat.sub_self, Nat.reduceSub, BitVec.reduceBEq, beq_self_eq_true, Bool.and_true, Bool.not_false, Bool.false_eq_true, reduceIte]
theorem RoundTrip.andn (d : SReg) (a : SReg) (b : Operand) : RoundTrip.Statement (.andn d a b) := by
  intro _ hw
  refine decodeList_int (fun k r => ?_) hw
  simp (disch := decide) only [decodeInt, guardI, fD, fA, fW, fieldsR, fields,
    Nat.sub_self, Nat.reduceSub, BitVec.reduceBEq, beq_self_eq_true, Bool.and_true, Bool.not_false, Bool.false_eq_true, reduceIte]
theorem RoundTrip.sll (w : Bool) (d : SReg) (a : SReg) (b : Operand) : RoundTrip.Statement (.sll w d a b) := by
  intro _ hw
  refine decodeList_int (fun k r => ?_) hw
  simp (disch := decide) only [decodeInt, guardI, fD, fA, fW, fieldsR, fields,
    Nat.sub_self, Nat.reduceSub, BitVec.reduceBEq, beq_self_eq_true, Bool.false_eq_true, reduceIte]
theorem RoundTrip.srl (w : Bool) (d : SReg) (a : SReg) (b : Operand) : RoundTrip.Statement (.srl w d a b) := by
  intro _ hw
  refine decodeList_int (fun k r => ?_) hw
  simp (disch := decide) only [decodeInt, guardI, fD, fA, fW, fieldsR, fields,
    Nat.sub_self, Nat.reduceSub, BitVec.reduceBEq, beq_self_eq_true, Bool.false_eq_true, reduceIte]
theorem RoundTrip.sra (w : Bool) (d : SReg) (a : SReg) (b : Operand) : RoundTrip.Statement (.sra w d a b) := by
  intro _ hw
  refine decodeList_int (fun k r => ?_) hw
  simp (disch := decide) only [decodeInt, guardI, fD, fA, fW, fieldsR, fields,
    Nat.sub_self, Nat.reduceSub, BitVec.reduceBEq, beq_self_eq_true, Bool.false_eq_true, reduceIte]
theorem RoundTrip.rol (w : Bool) (d : SReg) (a : SReg) (b : Operand) : RoundTrip.Statement (.rol w d a b) := by
  intro _ hw
  refine decodeList_int (fun k r => ?_) hw
  simp (disch := decide) only [decodeInt, guardI, fD, fA, fW, fieldsR, fields,
    Nat.sub_self, Nat.reduceSub, BitVec.reduceBEq, beq_self_eq_true, Bool.false_eq_true, reduceIte]
theorem RoundTrip.slt (d : SReg) (a : SReg) (b : Operand) : RoundTrip.Statement (.slt d a b) := by
  intro _ hw
  refine decodeList_int (fun k r => ?_) hw
  simp (disch := decide) only [decodeInt, guardI, fD, fA, fW, fieldsR, fields,
    Nat.sub_self, Nat.reduceSub, BitVec.reduceBEq, beq_self_eq_true, Bool.and_true, Bool.not_false, Bool.false_eq_true, reduceIte]
theorem RoundTrip.sltu (d : SReg) (a : SReg) (b : Operand) : RoundTrip.Statement (.sltu d a b) := by
  intro _ hw
  refine decodeList_int (fun k r => ?_) hw
  simp (disch := decide) only [decodeInt, guardI, fD, fA, fW, fieldsR, fields,
    Nat.sub_self, Nat.reduceSub, BitVec.reduceBEq, beq_self_eq_true, Bool.and_true, Bool.not_false, Bool.false_eq_true, reduceIte]
theorem RoundTrip.min (d : SReg) (a : SReg) (b : Operand) : RoundTrip.Statement (.min d a b) := by
  intro _ hw
  refine decodeList_int (fun k r => ?_) hw
  simp (disch := decide) only [decodeInt, guardI, fD, fA, fW, fieldsR, fields,
    Nat.sub_self, Nat.reduceSub, BitVec.reduceBEq, beq_self_eq_true, Bool.and_true, Bool.not_false, Bool.false_eq_true, reduceIte]
theorem RoundTrip.max (d : SReg) (a : SReg) (b : Operand) : RoundTrip.Statement (.max d a b) := by
  intro _ hw
  refine decodeList_int (fun k r => ?_) hw
  simp (disch := decide) only [decodeInt, guardI, fD, fA, fW, fieldsR, fields,
    Nat.sub_self, Nat.reduceSub, BitVec.reduceBEq, beq_self_eq_true, Bool.and_true, Bool.not_false, Bool.false_eq_true, reduceIte]
theorem RoundTrip.minu (d : SReg) (a : SReg) (b : Operand) : RoundTrip.Statement (.minu d a b) := by
  intro _ hw
  refine decodeList_int (fun k r => ?_) hw
  simp (disch := decide) only [decodeInt, guardI, fD, fA, fW, fieldsR, fields,
    Nat.sub_self, Nat.reduceSub, BitVec.reduceBEq, beq_self_eq_true, Bool.and_true, Bool.not_false, Bool.false_eq_true, reduceIte]
theorem RoundTrip.maxu (d : SReg) (a : SReg) (b : Operand) : RoundTrip.Statement (.maxu d a b) := by
  intro _ hw
  refine decodeList_int (fun k r => ?_) hw
  simp (disch := decide) only [decodeInt, guardI, fD, fA, fW, fieldsR, fields,
    Nat.sub_self, Nat.reduceSub, BitVec.reduceBEq, beq_self_eq_true, Bool.and_true, Bool.not_false, Bool.false_eq_true, reduceIte]
theorem RoundTrip.mul (w : Bool) (d : SReg) (a : SReg) (b : Operand) : RoundTrip.Statement (.mul w d a b) := by
  intro _ hw
  refine decodeList_int (fun k r => ?_) hw
  simp (disch := decide) only [decodeInt, guardI, fD, fA, fW, fieldsR, fields,
    Nat.sub_self, Nat.reduceSub, BitVec.reduceBEq, beq_self_eq_true, Bool.false_eq_true, reduceIte]
theorem RoundTrip.mulh (d : SReg) (a : SReg) (b : Operand) : RoundTrip.Statement (.mulh d a b) := by
  intro _ hw
  refine decodeList_int (fun k r => ?_) hw
  simp (disch := decide) only [decodeInt, guardI, fD, fA, fW, fieldsR, fields,
    Nat.sub_self, Nat.reduceSub, BitVec.reduceBEq, beq_self_eq_true, Bool.and_true, Bool.not_false, Bool.false_eq_true, reduceIte]
theorem RoundTrip.mulhu (d : SReg) (a : SReg) (b : Operand) : RoundTrip.Statement (.mulhu d a b) := by
  intro _ hw
  refine decodeList_int (fun k r => ?_) hw
  simp (disch := decide) only [decodeInt, guardI, fD, fA, fW, fieldsR, fields,
    Nat.sub_self, Nat.reduceSub, BitVec.reduceBEq, beq_self_eq_true, Bool.and_true, Bool.not_false, Bool.false_eq_true, reduceIte]
theorem RoundTrip.div (w : Bool) (d : SReg) (a : SReg) (b : Operand) : RoundTrip.Statement (.div w d a b) := by
  intro _ hw
  refine decodeList_int (fun k r => ?_) hw
  simp (disch := decide) only [decodeInt, guardI, fD, fA, fW, fieldsR, fields,
    Nat.sub_self, Nat.reduceSub, BitVec.reduceBEq, beq_self_eq_true, Bool.false_eq_true, reduceIte]
theorem RoundTrip.divu (w : Bool) (d : SReg) (a : SReg) (b : Operand) : RoundTrip.Statement (.divu w d a b) := by
  intro _ hw
  refine decodeList_int (fun k r => ?_) hw
  simp (disch := decide) only [decodeInt, guardI, fD, fA, fW, fieldsR, fields,
    Nat.sub_self, Nat.reduceSub, BitVec.reduceBEq, beq_self_eq_true, Bool.false_eq_true, reduceIte]
theorem RoundTrip.rem (w : Bool) (d : SReg) (a : SReg) (b : Operand) : RoundTrip.Statement (.rem w d a b) := by
  intro _ hw
  refine decodeList_int (fun k r => ?_) hw
  simp (disch := decide) only [decodeInt, guardI, fD, fA, fW, fieldsR, fields,
    Nat.sub_self, Nat.reduceSub, BitVec.reduceBEq, beq_self_eq_true, Bool.false_eq_true, reduceIte]
theorem RoundTrip.remu (w : Bool) (d : SReg) (a : SReg) (b : Operand) : RoundTrip.Statement (.remu w d a b) := by
  intro _ hw
  refine decodeList_int (fun k r => ?_) hw
  simp (disch := decide) only [decodeInt, guardI, fD, fA, fW, fieldsR, fields,
    Nat.sub_self, Nat.reduceSub, BitVec.reduceBEq, beq_self_eq_true, Bool.false_eq_true, reduceIte]
theorem RoundTrip.shadd (k : BitVec 2) (d : SReg) (a : SReg) (b : Operand) : RoundTrip.Statement (.shadd k d a b) := by
  intro _ hw
  refine decodeList_int (fun k r => ?_) hw
  simp (disch := decide) only [decodeInt, guardI, fD, fA, fW, fieldsR, fields,
    Nat.sub_self, Nat.reduceSub, BitVec.reduceBEq, Bool.not_false, Bool.false_eq_true, reduceIte]
theorem RoundTrip.sel (d : SReg) (a : SReg) (b : Operand) : RoundTrip.Statement (.sel d a b) := by
  intro _ hw
  refine decodeList_int (fun k r => ?_) hw
  simp (disch := decide) only [decodeInt, guardI, fD, fA, fW, fieldsR, fields,
    Nat.sub_self, Nat.reduceSub, BitVec.reduceBEq, beq_self_eq_true, Bool.and_true, Bool.not_false, Bool.false_eq_true, reduceIte]
theorem RoundTrip.clz (w : Bool) (d : SReg) (a : SReg) : RoundTrip.Statement (.clz w d a) := by
  intro _ hw
  refine decodeList_one ?_ hw
  simp (disch := decide) only [decodeRaw, decodeBit, guardI, operandOf, Option.bind_some, fD, fA, fB, fK, fW, fieldsR, fields,
    Nat.sub_self, Nat.reduceSub, Nat.reducePow, Nat.reduceMod, Nat.reduceDiv, BitVec.reduceBEq, beq_self_eq_true, Bool.and_true, bne_self_eq_false, Bool.false_eq_true, reduceIte]
theorem RoundTrip.ctz (w : Bool) (d : SReg) (a : SReg) : RoundTrip.Statement (.ctz w d a) := by
  intro _ hw
  refine decodeList_one ?_ hw
  simp (disch := decide) only [decodeRaw, decodeBit, guardI, operandOf, Option.bind_some, fD, fA, fB, fK, fW, fieldsR, fields,
    Nat.sub_self, Nat.reduceSub, Nat.reducePow, Nat.reduceMod, Nat.reduceDiv, BitVec.reduceBEq, beq_self_eq_true, Bool.and_true, bne_self_eq_false, Bool.false_eq_true, reduceIte]
theorem RoundTrip.popc (w : Bool) (d : SReg) (a : SReg) : RoundTrip.Statement (.popc w d a) := by
  intro _ hw
  refine decodeList_one ?_ hw
  simp (disch := decide) only [decodeRaw, decodeBit, guardI, operandOf, Option.bind_some, fD, fA, fB, fK, fW, fieldsR, fields,
    Nat.sub_self, Nat.reduceSub, Nat.reducePow, Nat.reduceMod, Nat.reduceDiv, BitVec.reduceBEq, beq_self_eq_true, Bool.and_true, bne_self_eq_false, Bool.false_eq_true, reduceIte]
theorem RoundTrip.brev (w : Bool) (d : SReg) (a : SReg) : RoundTrip.Statement (.brev w d a) := by
  intro _ hw
  refine decodeList_one ?_ hw
  simp (disch := decide) only [decodeRaw, decodeBit, guardI, operandOf, Option.bind_some, fD, fA, fB, fK, fW, fieldsR, fields,
    Nat.sub_self, Nat.reduceSub, Nat.reducePow, Nat.reduceMod, Nat.reduceDiv, BitVec.reduceBEq, beq_self_eq_true, Bool.and_true, bne_self_eq_false, Bool.false_eq_true, reduceIte]
theorem RoundTrip.bswap (w : Bool) (d : SReg) (a : SReg) : RoundTrip.Statement (.bswap w d a) := by
  intro _ hw
  refine decodeList_one ?_ hw
  simp (disch := decide) only [decodeRaw, decodeBit, guardI, operandOf, Option.bind_some, fD, fA, fB, fK, fW, fieldsR, fields,
    Nat.sub_self, Nat.reduceSub, Nat.reducePow, Nat.reduceMod, Nat.reduceDiv, BitVec.reduceBEq, beq_self_eq_true, Bool.and_true, bne_self_eq_false, Bool.false_eq_true, reduceIte]
theorem RoundTrip.sext (d : SReg) (a : SReg) (b : Operand) : RoundTrip.Statement (.sext d a b) := by
  intro _ hw
  refine decodeList_bit (fun k r => ?_) hw
  simp (disch := decide) only [decodeBit, guardI, fD, fA, fW, fieldsR, fields,
    Nat.sub_self, Nat.reduceSub, Nat.reducePow, Nat.reduceMod, Nat.reduceDiv, BitVec.reduceBEq, Bool.not_false, bne_self_eq_false, Bool.false_eq_true, reduceIte]
theorem RoundTrip.zext (d : SReg) (a : SReg) (b : Operand) : RoundTrip.Statement (.zext d a b) := by
  intro _ hw
  refine decodeList_bit (fun k r => ?_) hw
  simp (disch := decide) only [decodeBit, guardI, fD, fA, fW, fieldsR, fields,
    Nat.sub_self, Nat.reduceSub, Nat.reducePow, Nat.reduceMod, Nat.reduceDiv, BitVec.reduceBEq, Bool.not_false, bne_self_eq_false, Bool.false_eq_true, reduceIte]
theorem RoundTrip.ext (d : SReg) (a : SReg) (b : Operand) : RoundTrip.Statement (.ext d a b) := by
  intro _ hw
  refine decodeList_bit (fun k r => ?_) hw
  simp (disch := decide) only [decodeBit, guardI, fD, fA, fW, fieldsR, fields,
    Nat.sub_self, Nat.reduceSub, Nat.reducePow, Nat.reduceMod, Nat.reduceDiv, BitVec.reduceBEq, Bool.not_false, bne_self_eq_false, Bool.false_eq_true, reduceIte]
theorem RoundTrip.ins (d : SReg) (a : SReg) (b : Operand) : RoundTrip.Statement (.ins d a b) := by
  intro _ hw
  refine decodeList_bit (fun k r => ?_) hw
  simp (disch := decide) only [decodeBit, guardI, fD, fA, fW, fieldsR, fields,
    Nat.sub_self, Nat.reduceSub, Nat.reducePow, Nat.reduceMod, Nat.reduceDiv, BitVec.reduceBEq, Bool.not_false, bne_self_eq_false, Bool.false_eq_true, reduceIte]
theorem RoundTrip.addi (d : SReg) (a : SReg) (imm : BitVec 15) : RoundTrip.Statement (.addi d a imm) := by
  intro _ hw
  refine decodeList_one ?_ hw
  simp (disch := decide) only [decodeRaw, guardI, packI, fD, fA, fImm, fields,
      Nat.sub_self, Nat.reduceSub, Nat.reducePow, Nat.reduceMod, Nat.reduceDiv, BitVec.reduceBEq, Bool.false_eq_true, reduceIte]
theorem RoundTrip.andi (d : SReg) (a : SReg) (imm : BitVec 15) : RoundTrip.Statement (.andi d a imm) := by
  intro _ hw
  refine decodeList_one ?_ hw
  simp (disch := decide) only [decodeRaw, guardI, packI, fD, fA, fImm, fields,
      Nat.sub_self, Nat.reduceSub, Nat.reducePow, Nat.reduceMod, Nat.reduceDiv, BitVec.reduceBEq, Bool.false_eq_true, reduceIte]
theorem RoundTrip.ori (d : SReg) (a : SReg) (imm : BitVec 15) : RoundTrip.Statement (.ori d a imm) := by
  intro _ hw
  refine decodeList_one ?_ hw
  simp (disch := decide) only [decodeRaw, guardI, packI, fD, fA, fImm, fields,
      Nat.sub_self, Nat.reduceSub, Nat.reducePow, Nat.reduceMod, Nat.reduceDiv, BitVec.reduceBEq, Bool.false_eq_true, reduceIte]
theorem RoundTrip.xori (d : SReg) (a : SReg) (imm : BitVec 15) : RoundTrip.Statement (.xori d a imm) := by
  intro _ hw
  refine decodeList_one ?_ hw
  simp (disch := decide) only [decodeRaw, guardI, packI, fD, fA, fImm, fields,
      Nat.sub_self, Nat.reduceSub, Nat.reducePow, Nat.reduceMod, Nat.reduceDiv, BitVec.reduceBEq, Bool.false_eq_true, reduceIte]
theorem RoundTrip.slti (d : SReg) (a : SReg) (imm : BitVec 15) : RoundTrip.Statement (.slti d a imm) := by
  intro _ hw
  refine decodeList_one ?_ hw
  simp (disch := decide) only [decodeRaw, guardI, packI, fD, fA, fImm, fields,
      Nat.sub_self, Nat.reduceSub, Nat.reducePow, Nat.reduceMod, Nat.reduceDiv, BitVec.reduceBEq, Bool.false_eq_true, reduceIte]
theorem RoundTrip.sltiu (d : SReg) (a : SReg) (imm : BitVec 15) : RoundTrip.Statement (.sltiu d a imm) := by
  intro _ hw
  refine decodeList_one ?_ hw
  simp (disch := decide) only [decodeRaw, guardI, packI, fD, fA, fImm, fields,
      Nat.sub_self, Nat.reduceSub, Nat.reducePow, Nat.reduceMod, Nat.reduceDiv, BitVec.reduceBEq, Bool.false_eq_true, reduceIte]
theorem RoundTrip.slli (d : SReg) (a : SReg) (n : BitVec 6) : RoundTrip.Statement (.slli d a n) := by
  intro _ hw
  refine decodeList_one ?_ hw
  simp (disch := decide) only [decodeRaw, decodeShI, packI, fD, fA, fields,
      Nat.sub_self, Nat.reduceSub, Nat.reducePow, Nat.reduceMod, Nat.reduceDiv, BitVec.reduceBEq, bne_self_eq_false, Bool.false_eq_true, reduceIte]
theorem RoundTrip.srli (d : SReg) (a : SReg) (n : BitVec 6) : RoundTrip.Statement (.srli d a n) := by
  intro _ hw
  refine decodeList_one ?_ hw
  simp (disch := decide) only [decodeRaw, decodeShI, packI, fD, fA, fields,
      Nat.sub_self, Nat.reduceSub, Nat.reducePow, Nat.reduceMod, Nat.reduceDiv, BitVec.reduceBEq, bne_self_eq_false, Bool.false_eq_true, reduceIte]
theorem RoundTrip.srai (d : SReg) (a : SReg) (n : BitVec 6) : RoundTrip.Statement (.srai d a n) := by
  intro _ hw
  refine decodeList_one ?_ hw
  simp (disch := decide) only [decodeRaw, decodeShI, packI, fD, fA, fields,
      Nat.sub_self, Nat.reduceSub, Nat.reducePow, Nat.reduceMod, Nat.reduceDiv, BitVec.reduceBEq, bne_self_eq_false, Bool.false_eq_true, reduceIte]
theorem RoundTrip.roli (d : SReg) (a : SReg) (n : BitVec 6) : RoundTrip.Statement (.roli d a n) := by
  intro _ hw
  refine decodeList_one ?_ hw
  simp (disch := decide) only [decodeRaw, decodeShI, packI, fD, fA, fields,
      Nat.sub_self, Nat.reduceSub, Nat.reducePow, Nat.reduceMod, Nat.reduceDiv, BitVec.reduceBEq, bne_self_eq_false, Bool.false_eq_true, reduceIte]
theorem RoundTrip.fadd (r : BitVec 2) (f : Bool) (d : SReg) (a : SReg) (b : Operand) : RoundTrip.Statement (.fadd r f d a b) := by
  intro _ hw
  refine decodeList_fp (fun k r => ?_) hw
  simp (disch := decide) only [decodeFp, guardI, fD, fA, fW, fieldsR, fields,
    Nat.sub_self, Nat.reduceSub, BitVec.reduceBEq, Bool.false_eq_true, reduceIte]
theorem RoundTrip.fsub (r : BitVec 2) (f : Bool) (d : SReg) (a : SReg) (b : Operand) : RoundTrip.Statement (.fsub r f d a b) := by
  intro _ hw
  refine decodeList_fp (fun k r => ?_) hw
  simp (disch := decide) only [decodeFp, guardI, fD, fA, fW, fieldsR, fields,
    Nat.sub_self, Nat.reduceSub, BitVec.reduceBEq, Bool.false_eq_true, reduceIte]
theorem RoundTrip.fmul (r : BitVec 2) (f : Bool) (d : SReg) (a : SReg) (b : Operand) : RoundTrip.Statement (.fmul r f d a b) := by
  intro _ hw
  refine decodeList_fp (fun k r => ?_) hw
  simp (disch := decide) only [decodeFp, guardI, fD, fA, fW, fieldsR, fields,
    Nat.sub_self, Nat.reduceSub, BitVec.reduceBEq, Bool.false_eq_true, reduceIte]
theorem RoundTrip.fdiv (r : BitVec 2) (f : Bool) (d : SReg) (a : SReg) (b : Operand) : RoundTrip.Statement (.fdiv r f d a b) := by
  intro _ hw
  refine decodeList_fp (fun k r => ?_) hw
  simp (disch := decide) only [decodeFp, guardI, fD, fA, fW, fieldsR, fields,
    Nat.sub_self, Nat.reduceSub, BitVec.reduceBEq, Bool.false_eq_true, reduceIte]
theorem RoundTrip.fsqrt (r : BitVec 2) (f : Bool) (d : SReg) (a : SReg) : RoundTrip.Statement (.fsqrt r f d a) := by
  intro _ hw
  refine decodeList_one ?_ hw
  simp (disch := decide) only [decodeRaw, decodeFp, guardI, operandOf, Option.bind_some, fD, fA, fB, fK, fW, fieldsR, fields,
    Nat.sub_self, Nat.reduceSub, Nat.reducePow, Nat.reduceMod, Nat.reduceDiv, BitVec.reduceBEq, beq_self_eq_true, Bool.and_true, Bool.false_eq_true, reduceIte]
theorem RoundTrip.fmin (f : Bool) (d : SReg) (a : SReg) (b : Operand) : RoundTrip.Statement (.fmin f d a b) := by
  intro _ hw
  refine decodeList_fp (fun k r => ?_) hw
  simp (disch := decide) only [decodeFp, guardI, fD, fA, fW, fieldsR, fields,
    Nat.sub_self, Nat.reduceSub, BitVec.reduceBEq, beq_self_eq_true, Bool.false_eq_true, reduceIte]
theorem RoundTrip.fmax (f : Bool) (d : SReg) (a : SReg) (b : Operand) : RoundTrip.Statement (.fmax f d a b) := by
  intro _ hw
  refine decodeList_fp (fun k r => ?_) hw
  simp (disch := decide) only [decodeFp, guardI, fD, fA, fW, fieldsR, fields,
    Nat.sub_self, Nat.reduceSub, BitVec.reduceBEq, beq_self_eq_true, Bool.false_eq_true, reduceIte]
theorem RoundTrip.fma (r : BitVec 2) (f : Bool) (d : SReg) (a : SReg) (b : Operand) : RoundTrip.Statement (.fma r f d a b) := by
  intro _ hw
  refine decodeList_fp (fun k r => ?_) hw
  simp (disch := decide) only [decodeFp, guardI, fD, fA, fW, fieldsR, fields,
    Nat.sub_self, Nat.reduceSub, BitVec.reduceBEq, Bool.false_eq_true, reduceIte]
theorem RoundTrip.fnma (r : BitVec 2) (f : Bool) (d : SReg) (a : SReg) (b : Operand) : RoundTrip.Statement (.fnma r f d a b) := by
  intro _ hw
  refine decodeList_fp (fun k r => ?_) hw
  simp (disch := decide) only [decodeFp, guardI, fD, fA, fW, fieldsR, fields,
    Nat.sub_self, Nat.reduceSub, BitVec.reduceBEq, Bool.false_eq_true, reduceIte]
theorem RoundTrip.feq (f : Bool) (d : SReg) (a : SReg) (b : Operand) : RoundTrip.Statement (.feq f d a b) := by
  intro _ hw
  refine decodeList_fp (fun k r => ?_) hw
  simp (disch := decide) only [decodeFp, guardI, fD, fA, fW, fieldsR, fields,
    Nat.sub_self, Nat.reduceSub, BitVec.reduceBEq, beq_self_eq_true, Bool.false_eq_true, reduceIte]
theorem RoundTrip.flt (f : Bool) (d : SReg) (a : SReg) (b : Operand) : RoundTrip.Statement (.flt f d a b) := by
  intro _ hw
  refine decodeList_fp (fun k r => ?_) hw
  simp (disch := decide) only [decodeFp, guardI, fD, fA, fW, fieldsR, fields,
    Nat.sub_self, Nat.reduceSub, BitVec.reduceBEq, beq_self_eq_true, Bool.false_eq_true, reduceIte]
theorem RoundTrip.fle (f : Bool) (d : SReg) (a : SReg) (b : Operand) : RoundTrip.Statement (.fle f d a b) := by
  intro _ hw
  refine decodeList_fp (fun k r => ?_) hw
  simp (disch := decide) only [decodeFp, guardI, fD, fA, fW, fieldsR, fields,
    Nat.sub_self, Nat.reduceSub, BitVec.reduceBEq, beq_self_eq_true, Bool.false_eq_true, reduceIte]
theorem RoundTrip.fclass (f : Bool) (d : SReg) (a : SReg) : RoundTrip.Statement (.fclass f d a) := by
  intro _ hw
  refine decodeList_one ?_ hw
  simp (disch := decide) only [decodeRaw, decodeFp, guardI, operandOf, Option.bind_some, fD, fA, fB, fK, fW, fieldsR, fields,
    Nat.sub_self, Nat.reduceSub, Nat.reducePow, Nat.reduceMod, Nat.reduceDiv, BitVec.reduceBEq, beq_self_eq_true, Bool.and_true, Bool.false_eq_true, reduceIte]
theorem RoundTrip.fcvt (r : BitVec 2) (k : BitVec 5) (d : SReg) (a : SReg) : RoundTrip.Statement (.fcvt r k d a) := by
  intro _ hw
  refine decodeList_one ?_ hw
  simp (disch := decide) only [decodeRaw, decodeFp, guardI, operandOf, Option.bind_some, fD, fA, fB, fK, fW, fieldsR, fields,
    Nat.sub_self, Nat.reduceSub, Nat.reducePow, Nat.reduceMod, Nat.reduceDiv, BitVec.reduceBEq, beq_self_eq_true, Bool.and_true, Bool.not_false, Bool.false_eq_true, reduceIte]
theorem RoundTrip.fsgnJ (f : Bool) (d : SReg) (a : SReg) (b : Operand) : RoundTrip.Statement (.fsgnJ f d a b) := by
  intro _ hw
  refine decodeList_fp (fun k r => ?_) hw
  simp (disch := decide) only [decodeFp, fD, fA, fW, fieldsR, fields,
    Nat.sub_self, Nat.reduceSub, BitVec.reduceBEq, Bool.false_eq_true, reduceIte]
theorem RoundTrip.fsgnJn (f : Bool) (d : SReg) (a : SReg) (b : Operand) : RoundTrip.Statement (.fsgnJn f d a b) := by
  intro _ hw
  refine decodeList_fp (fun k r => ?_) hw
  simp (disch := decide) only [decodeFp, fD, fA, fW, fieldsR, fields,
    Nat.sub_self, Nat.reduceSub, BitVec.reduceBEq, Bool.false_eq_true, reduceIte]
theorem RoundTrip.fsgnJx (f : Bool) (d : SReg) (a : SReg) (b : Operand) : RoundTrip.Statement (.fsgnJx f d a b) := by
  intro _ hw
  refine decodeList_fp (fun k r => ?_) hw
  simp (disch := decide) only [decodeFp, fD, fA, fW, fieldsR, fields,
    Nat.sub_self, Nat.reduceSub, BitVec.reduceBEq, Bool.false_eq_true, reduceIte]
theorem RoundTrip.ld (o : Bool) (z : BitVec 3) (h : BitVec 2) (b : SReg) (a : SReg) (t : SReg) : RoundTrip.Statement (.ld o z h b a t) := by
  intro _ hw
  refine decodeList_one ?_ hw
  simp (disch := decide) only [decodeRaw, decodeLd, packM, fD, fA, fB, fW, fields,
      Nat.sub_self, Nat.reduceSub, Nat.reducePow, Nat.reduceMod, Nat.reduceDiv, BitVec.reduceBEq, Bool.false_eq_true, reduceIte]
theorem RoundTrip.ldFe (o : Bool) (z : BitVec 3) (h : BitVec 2) (b : SReg) (a : SReg) (t : SReg) : RoundTrip.Statement (.ldFe o z h b a t) := by
  intro _ hw
  refine decodeList_one ?_ hw
  simp (disch := decide) only [decodeRaw, decodeLd, packM, fD, fA, fB, fW, fields,
      Nat.sub_self, Nat.reduceSub, Nat.reducePow, Nat.reduceMod, Nat.reduceDiv, BitVec.reduceBEq, Bool.false_eq_true, reduceIte]
theorem RoundTrip.ldFec (o : Bool) (z : BitVec 3) (h : BitVec 2) (b : SReg) (a : SReg) (t : SReg) : RoundTrip.Statement (.ldFec o z h b a t) := by
  intro _ hw
  refine decodeList_one ?_ hw
  simp (disch := decide) only [decodeRaw, decodeLd, packM, fD, fA, fB, fW, fields,
      Nat.sub_self, Nat.reduceSub, Nat.reducePow, Nat.reduceMod, Nat.reduceDiv, BitVec.reduceBEq, Bool.false_eq_true, reduceIte]
theorem RoundTrip.st (o : Bool) (z : BitVec 2) (h : BitVec 2) (b : SReg) (a : SReg) (t : SReg) : RoundTrip.Statement (.st o z h b a t) := by
  intro _ hw
  refine decodeList_one ?_ hw
  simp (disch := decide) only [decodeRaw, decodeSt, packM, fD, fA, fB, fW, fields,
      Nat.sub_self, Nat.reduceSub, Nat.reducePow, Nat.reduceMod, Nat.reduceDiv, BitVec.reduceBEq, Bool.or_self, Bool.false_eq_true, reduceIte]
theorem RoundTrip.stFes (o : Bool) (z : BitVec 2) (h : BitVec 2) (b : SReg) (a : SReg) (t : SReg) : RoundTrip.Statement (.stFes o z h b a t) := by
  intro _ hw
  refine decodeList_one ?_ hw
  simp (disch := decide) only [decodeRaw, decodeSt, packM, fD, fA, fB, fW, fields,
      Nat.sub_self, Nat.reduceSub, Nat.reducePow, Nat.reduceMod, Nat.reduceDiv, BitVec.reduceBEq, Bool.or_self, Bool.false_eq_true, reduceIte]
theorem RoundTrip.stFee (o : Bool) (z : BitVec 2) (h : BitVec 2) (b : SReg) (a : SReg) (t : SReg) : RoundTrip.Statement (.stFee o z h b a t) := by
  intro _ hw
  refine decodeList_one ?_ hw
  simp (disch := decide) only [decodeRaw, decodeSt, packM, fD, fA, fB, fW, fields,
      Nat.sub_self, Nat.reduceSub, Nat.reducePow, Nat.reduceMod, Nat.reduceDiv, BitVec.reduceBEq, Bool.or_self, Bool.false_eq_true, reduceIte]
theorem RoundTrip.ldi (off : BitVec 10) (z : BitVec 3) (o : Bool) (a : SReg) (t : SReg) : RoundTrip.Statement (.ldi off z o a t) := by
  intro _ hw
  refine decodeList_one ?_ hw
  simp (disch := decide) only [decodeRaw, packMI, fD, fA, fW, fields,
      Nat.sub_self, Nat.reduceSub, Nat.reducePow, Nat.reduceMod, Nat.reduceDiv, BitVec.reduceBEq, Bool.false_eq_true, reduceIte]
theorem RoundTrip.sti (off : BitVec 10) (z : BitVec 2) (o : Bool) (a : SReg) (t : SReg) : RoundTrip.Statement (.sti off z o a t) := by
  intro _ hw
  refine decodeList_one ?_ hw
  simp (disch := decide) only [decodeRaw, packMI, fD, fA, fW, fields,
      Nat.sub_self, Nat.reduceSub, Nat.reducePow, Nat.reduceMod, Nat.reduceDiv, BitVec.reduceBEq, Bool.or_self, Bool.false_eq_true, reduceIte]
theorem RoundTrip.pref (off : BitVec 10) (a : SReg) : RoundTrip.Statement (.pref off a) := by
  intro _ hw
  refine decodeList_one ?_ hw
  have h : fld (off ++ 3#3 ++ 0#2) 0 5 = 12#5 := by
    rw [← fld_pair _ 0 3 2, fld_append_high _ _ _ _ (by decide), fld_append_low _ _ _ _ (by decide),
      fld_append_low _ _ _ _ (by decide)]
    decide
  simp (disch := decide) only [decodeRaw, guardI, packMI, fD, fA, h, fields,
      Nat.sub_self, Nat.reduceSub, Nat.reducePow, Nat.reduceMod, Nat.reduceDiv, BitVec.reduceBEq, beq_self_eq_true, Bool.and_true, Bool.false_eq_true, reduceIte]
theorem RoundTrip.amoAdd (scope : BitVec 3) (o : BitVec 2) (w : Bool) (b : SReg) (a : SReg) (d : SReg) : RoundTrip.Statement (.amoAdd scope o w b a d) := by
  intro _ hw
  refine decodeList_one ?_ hw
  simp (disch := decide) only [decodeRaw, decodeAmo, packA, fD, fA, fB, fW, fields,
      Nat.sub_self, Nat.reduceSub, Nat.reducePow, Nat.reduceMod, Nat.reduceDiv, BitVec.reduceBEq, Bool.false_eq_true, reduceIte]
theorem RoundTrip.amoAnd (scope : BitVec 3) (o : BitVec 2) (w : Bool) (b : SReg) (a : SReg) (d : SReg) : RoundTrip.Statement (.amoAnd scope o w b a d) := by
  intro _ hw
  refine decodeList_one ?_ hw
  simp (disch := decide) only [decodeRaw, decodeAmo, packA, fD, fA, fB, fW, fields,
      Nat.sub_self, Nat.reduceSub, Nat.reducePow, Nat.reduceMod, Nat.reduceDiv, BitVec.reduceBEq, Bool.false_eq_true, reduceIte]
theorem RoundTrip.amoOr (scope : BitVec 3) (o : BitVec 2) (w : Bool) (b : SReg) (a : SReg) (d : SReg) : RoundTrip.Statement (.amoOr scope o w b a d) := by
  intro _ hw
  refine decodeList_one ?_ hw
  simp (disch := decide) only [decodeRaw, decodeAmo, packA, fD, fA, fB, fW, fields,
      Nat.sub_self, Nat.reduceSub, Nat.reducePow, Nat.reduceMod, Nat.reduceDiv, BitVec.reduceBEq, Bool.false_eq_true, reduceIte]
theorem RoundTrip.amoXor (scope : BitVec 3) (o : BitVec 2) (w : Bool) (b : SReg) (a : SReg) (d : SReg) : RoundTrip.Statement (.amoXor scope o w b a d) := by
  intro _ hw
  refine decodeList_one ?_ hw
  simp (disch := decide) only [decodeRaw, decodeAmo, packA, fD, fA, fB, fW, fields,
      Nat.sub_self, Nat.reduceSub, Nat.reducePow, Nat.reduceMod, Nat.reduceDiv, BitVec.reduceBEq, Bool.false_eq_true, reduceIte]
theorem RoundTrip.amoMin (scope : BitVec 3) (o : BitVec 2) (w : Bool) (b : SReg) (a : SReg) (d : SReg) : RoundTrip.Statement (.amoMin scope o w b a d) := by
  intro _ hw
  refine decodeList_one ?_ hw
  simp (disch := decide) only [decodeRaw, decodeAmo, packA, fD, fA, fB, fW, fields,
      Nat.sub_self, Nat.reduceSub, Nat.reducePow, Nat.reduceMod, Nat.reduceDiv, BitVec.reduceBEq, Bool.false_eq_true, reduceIte]
theorem RoundTrip.amoMax (scope : BitVec 3) (o : BitVec 2) (w : Bool) (b : SReg) (a : SReg) (d : SReg) : RoundTrip.Statement (.amoMax scope o w b a d) := by
  intro _ hw
  refine decodeList_one ?_ hw
  simp (disch := decide) only [decodeRaw, decodeAmo, packA, fD, fA, fB, fW, fields,
      Nat.sub_self, Nat.reduceSub, Nat.reducePow, Nat.reduceMod, Nat.reduceDiv, BitVec.reduceBEq, Bool.false_eq_true, reduceIte]
theorem RoundTrip.amoMinu (scope : BitVec 3) (o : BitVec 2) (w : Bool) (b : SReg) (a : SReg) (d : SReg) : RoundTrip.Statement (.amoMinu scope o w b a d) := by
  intro _ hw
  refine decodeList_one ?_ hw
  simp (disch := decide) only [decodeRaw, decodeAmo, packA, fD, fA, fB, fW, fields,
      Nat.sub_self, Nat.reduceSub, Nat.reducePow, Nat.reduceMod, Nat.reduceDiv, BitVec.reduceBEq, Bool.false_eq_true, reduceIte]
theorem RoundTrip.amoMaxu (scope : BitVec 3) (o : BitVec 2) (w : Bool) (b : SReg) (a : SReg) (d : SReg) : RoundTrip.Statement (.amoMaxu scope o w b a d) := by
  intro _ hw
  refine decodeList_one ?_ hw
  simp (disch := decide) only [decodeRaw, decodeAmo, packA, fD, fA, fB, fW, fields,
      Nat.sub_self, Nat.reduceSub, Nat.reducePow, Nat.reduceMod, Nat.reduceDiv, BitVec.reduceBEq, Bool.false_eq_true, reduceIte]
theorem RoundTrip.amoSwap (scope : BitVec 3) (o : BitVec 2) (w : Bool) (b : SReg) (a : SReg) (d : SReg) : RoundTrip.Statement (.amoSwap scope o w b a d) := by
  intro _ hw
  refine decodeList_one ?_ hw
  simp (disch := decide) only [decodeRaw, decodeAmo, packA, fD, fA, fB, fW, fields,
      Nat.sub_self, Nat.reduceSub, Nat.reducePow, Nat.reduceMod, Nat.reduceDiv, BitVec.reduceBEq, Bool.false_eq_true, reduceIte]
theorem RoundTrip.cas (scope : BitVec 3) (o : BitVec 2) (w : Bool) (b : SReg) (a : SReg) (d : SReg) : RoundTrip.Statement (.cas scope o w b a d) := by
  intro _ hw
  refine decodeList_one ?_ hw
  simp (disch := decide) only [decodeRaw, guardI, packA, fD, fA, fB, fW, fields,
      Nat.sub_self, Nat.reduceSub, Nat.reducePow, Nat.reduceMod, Nat.reduceDiv, BitVec.reduceBEq, beq_self_eq_true, Bool.false_eq_true, reduceIte]
theorem RoundTrip.fence (scope : BitVec 3) : RoundTrip.Statement (.fence scope) := by
  intro _ hw
  refine decodeList_one ?_ hw
  simp (disch := decide) only [decodeRaw, guardI, packI, fD, fA, fields,
      Nat.sub_self, Nat.reduceSub, Nat.reducePow, Nat.reduceMod, Nat.reduceDiv, BitVec.reduceBEq, beq_self_eq_true, Bool.and_true, Bool.false_eq_true, reduceIte]
theorem RoundTrip.beq (off : BitVec 11) (b : SReg) (a : SReg) : RoundTrip.Statement (.beq off b a) := by
  intro _ hw
  refine decodeList_one ?_ hw
  simp (disch := decide) only [decodeRaw, decodeB, packB, fields,
      Nat.sub_self, Nat.reduceSub, Nat.reducePow, Nat.reduceMod, Nat.reduceDiv, BitVec.reduceBEq, Bool.false_eq_true, reduceIte]
theorem RoundTrip.bne (off : BitVec 11) (b : SReg) (a : SReg) : RoundTrip.Statement (.bne off b a) := by
  intro _ hw
  refine decodeList_one ?_ hw
  simp (disch := decide) only [decodeRaw, decodeB, packB, fields,
      Nat.sub_self, Nat.reduceSub, Nat.reducePow, Nat.reduceMod, Nat.reduceDiv, BitVec.reduceBEq, Bool.false_eq_true, reduceIte]
theorem RoundTrip.blt (off : BitVec 11) (b : SReg) (a : SReg) : RoundTrip.Statement (.blt off b a) := by
  intro _ hw
  refine decodeList_one ?_ hw
  simp (disch := decide) only [decodeRaw, decodeB, packB, fields,
      Nat.sub_self, Nat.reduceSub, Nat.reducePow, Nat.reduceMod, Nat.reduceDiv, BitVec.reduceBEq, Bool.false_eq_true, reduceIte]
theorem RoundTrip.bge (off : BitVec 11) (b : SReg) (a : SReg) : RoundTrip.Statement (.bge off b a) := by
  intro _ hw
  refine decodeList_one ?_ hw
  simp (disch := decide) only [decodeRaw, decodeB, packB, fields,
      Nat.sub_self, Nat.reduceSub, Nat.reducePow, Nat.reduceMod, Nat.reduceDiv, BitVec.reduceBEq, Bool.false_eq_true, reduceIte]
theorem RoundTrip.bltu (off : BitVec 11) (b : SReg) (a : SReg) : RoundTrip.Statement (.bltu off b a) := by
  intro _ hw
  refine decodeList_one ?_ hw
  simp (disch := decide) only [decodeRaw, decodeB, packB, fields,
      Nat.sub_self, Nat.reduceSub, Nat.reducePow, Nat.reduceMod, Nat.reduceDiv, BitVec.reduceBEq, Bool.false_eq_true, reduceIte]
theorem RoundTrip.bgeu (off : BitVec 11) (b : SReg) (a : SReg) : RoundTrip.Statement (.bgeu off b a) := by
  intro _ hw
  refine decodeList_one ?_ hw
  simp (disch := decide) only [decodeRaw, decodeB, packB, fields,
      Nat.sub_self, Nat.reduceSub, Nat.reducePow, Nat.reduceMod, Nat.reduceDiv, BitVec.reduceBEq, Bool.false_eq_true, reduceIte]
theorem RoundTrip.jal (off : BitVec 20) (d : SReg) : RoundTrip.Statement (.jal off d) := by
  intro _ hw
  refine decodeList_one ?_ hw
  simp (disch := decide) only [decodeRaw, packJ, fD, fields,
      Nat.sub_self, Nat.reduceSub, Nat.reducePow, Nat.reduceMod, Nat.reduceDiv, BitVec.reduceBEq, Bool.false_eq_true, reduceIte]
theorem RoundTrip.jalr (imm : BitVec 15) (a : SReg) (d : SReg) : RoundTrip.Statement (.jalr imm a d) := by
  intro _ hw
  refine decodeList_one ?_ hw
  simp (disch := decide) only [decodeRaw, guardI, packI, fD, fA, fImm, fields,
      Nat.sub_self, Nat.reduceSub, Nat.reducePow, Nat.reduceMod, Nat.reduceDiv, BitVec.reduceBEq, Bool.false_eq_true, reduceIte]
theorem RoundTrip.loop (imm : BitVec 15) (a : SReg) : RoundTrip.Statement (.loop imm a) := by
  intro _ hw
  refine decodeList_one ?_ hw
  simp (disch := decide) only [decodeRaw, guardI, packI, fD, fA, fImm, fields,
      Nat.sub_self, Nat.reduceSub, Nat.reducePow, Nat.reduceMod, Nat.reduceDiv, BitVec.reduceBEq, beq_self_eq_true, Bool.false_eq_true, reduceIte]
theorem RoundTrip.rep (ss : BitVec 4) (hs : BitVec 4) (c : SReg) (n : BitVec 5) : RoundTrip.Statement (.rep ss hs c n) := by
  intro _ hw
  refine decodeList_one ?_ hw
  simp (disch := decide) only [decodeRaw, guardI, packP, fD, fA, fields,
      Nat.sub_self, Nat.reduceSub, Nat.reducePow, Nat.reduceMod, Nat.reduceDiv, BitVec.reduceBEq, beq_self_eq_true, Bool.false_eq_true, reduceIte]
theorem RoundTrip.callh (a : SReg) (d : SReg) : RoundTrip.Statement (.callh a d) := by
  intro _ hw
  refine decodeList_one ?_ hw
  simp (disch := decide) only [decodeRaw, guardI, packI, fD, fA, fImm, fields,
      Nat.sub_self, Nat.reduceSub, Nat.reducePow, Nat.reduceMod, Nat.reduceDiv, BitVec.reduceBEq, beq_self_eq_true, Bool.false_eq_true, reduceIte]
theorem RoundTrip.reth (a : SReg) : RoundTrip.Statement (.reth a) := by
  intro _ hw
  refine decodeList_one ?_ hw
  simp (disch := decide) only [decodeRaw, guardI, packI, fD, fA, fImm, fields,
      Nat.sub_self, Nat.reduceSub, Nat.reducePow, Nat.reduceMod, Nat.reduceDiv, BitVec.reduceBEq, beq_self_eq_true, Bool.and_true, Bool.false_eq_true, reduceIte]
theorem RoundTrip.csrr (c : BitVec 12) (d : SReg) : RoundTrip.Statement (.csrr c d) := by
  intro _ hw
  refine decodeList_one ?_ hw
  simp (disch := decide) only [decodeRaw, decodeC, guardI, packC, fD, fA, fields,
      Nat.sub_self, Nat.reduceSub, Nat.reducePow, Nat.reduceMod, Nat.reduceDiv, BitVec.reduceBEq, beq_self_eq_true, Bool.false_eq_true, reduceIte]
theorem RoundTrip.csrw (c : BitVec 12) (a : SReg) (d : SReg) : RoundTrip.Statement (.csrw c a d) := by
  intro _ hw
  refine decodeList_one ?_ hw
  simp (disch := decide) only [decodeRaw, decodeC, packC, fD, fA, fields,
      Nat.sub_self, Nat.reduceSub, Nat.reducePow, Nat.reduceMod, Nat.reduceDiv, BitVec.reduceBEq, Bool.false_eq_true, reduceIte]
theorem RoundTrip.csrs (c : BitVec 12) (a : SReg) (d : SReg) : RoundTrip.Statement (.csrs c a d) := by
  intro _ hw
  refine decodeList_one ?_ hw
  simp (disch := decide) only [decodeRaw, decodeC, packC, fD, fA, fields,
      Nat.sub_self, Nat.reduceSub, Nat.reducePow, Nat.reduceMod, Nat.reduceDiv, BitVec.reduceBEq, Bool.false_eq_true, reduceIte]
theorem RoundTrip.csrc (c : BitVec 12) (a : SReg) (d : SReg) : RoundTrip.Statement (.csrc c a d) := by
  intro _ hw
  refine decodeList_one ?_ hw
  simp (disch := decide) only [decodeRaw, decodeC, packC, fD, fA, fields,
      Nat.sub_self, Nat.reduceSub, Nat.reducePow, Nat.reduceMod, Nat.reduceDiv, BitVec.reduceBEq, Bool.false_eq_true, reduceIte]
theorem RoundTrip.trap (imm : BitVec 15) : RoundTrip.Statement (.trap imm) := by
  intro _ hw
  refine decodeList_one ?_ hw
  simp (disch := decide) only [decodeRaw, guardI, packI, fD, fA, fImm, fields,
      Nat.sub_self, Nat.reduceSub, Nat.reducePow, Nat.reduceMod, Nat.reduceDiv, BitVec.reduceBEq, beq_self_eq_true, Bool.and_true, Bool.false_eq_true, reduceIte]
theorem RoundTrip.eret : RoundTrip.Statement .eret := by
  intro _ hw
  refine decodeList_one ?_ hw
  simp (disch := decide) only [decodeRaw, guardI, packI, fD, fA, fImm, fields,
      Nat.sub_self, Nat.reduceSub, Nat.reducePow, Nat.reduceMod, Nat.reduceDiv, BitVec.reduceBEq, beq_self_eq_true, Bool.and_true, Bool.false_eq_true, reduceIte]
theorem RoundTrip.brk (imm : BitVec 15) : RoundTrip.Statement (.brk imm) := by
  intro _ hw
  refine decodeList_one ?_ hw
  simp (disch := decide) only [decodeRaw, guardI, packI, fD, fA, fImm, fields,
      Nat.sub_self, Nat.reduceSub, Nat.reducePow, Nat.reduceMod, Nat.reduceDiv, BitVec.reduceBEq, beq_self_eq_true, Bool.and_true, Bool.false_eq_true, reduceIte]
theorem RoundTrip.hld (imm : BitVec 8) (s : SReg) (hd : HReg) : RoundTrip.Statement (.hld imm s hd) := by
  intro _ hw
  refine decodeList_one ?_ hw
  simp (disch := decide) only [decodeRaw, decodeH, guardI, packH, fS, fHa, fHd, fields,
      Nat.sub_self, Nat.reduceSub, Nat.reducePow, Nat.reduceMod, Nat.reduceDiv, BitVec.reduceBEq, beq_self_eq_true, Bool.false_eq_true, reduceIte]
theorem RoundTrip.hst (imm : BitVec 8) (s : SReg) (ha : HReg) : RoundTrip.Statement (.hst imm s ha) := by
  intro _ hw
  refine decodeList_one ?_ hw
  simp (disch := decide) only [decodeRaw, decodeH, guardI, packH, fS, fHa, fHd, fields,
      Nat.sub_self, Nat.reduceSub, Nat.reducePow, Nat.reduceMod, Nat.reduceDiv, BitVec.reduceBEq, beq_self_eq_true, Bool.false_eq_true, reduceIte]
theorem RoundTrip.hget (w : BitVec 2) (s : SReg) (ha : HReg) : RoundTrip.Statement (.hget w s ha) := by
  intro _ hw
  refine decodeList_one ?_ hw
  simp (disch := decide) only [decodeRaw, decodeH, guardI, packH, fS, fHa, fHd, fields,
      Nat.sub_self, Nat.reduceSub, Nat.reducePow, Nat.reduceMod, Nat.reduceDiv, BitVec.reduceBEq, beq_self_eq_true, Bool.and_true, Bool.false_eq_true, reduceIte]
theorem RoundTrip.hset (w : BitVec 2) (s : SReg) (ha : HReg) (hd : HReg) : RoundTrip.Statement (.hset w s ha hd) := by
  intro _ hw
  refine decodeList_one ?_ hw
  simp (disch := decide) only [decodeRaw, decodeH, guardI, packH, fS, fHa, fHd, fields,
      Nat.sub_self, Nat.reduceSub, Nat.reducePow, Nat.reduceMod, Nat.reduceDiv, BitVec.reduceBEq, beq_self_eq_true, Bool.false_eq_true, reduceIte]
theorem RoundTrip.hmov (ha : HReg) (hd : HReg) : RoundTrip.Statement (.hmov ha hd) := by
  intro _ hw
  refine decodeList_one ?_ hw
  simp (disch := decide) only [decodeRaw, decodeH, guardI, packH, fS, fHa, fHd, fields,
      Nat.sub_self, Nat.reduceSub, Nat.reducePow, Nat.reduceMod, Nat.reduceDiv, BitVec.reduceBEq, beq_self_eq_true, Bool.and_true, Bool.false_eq_true, reduceIte]
theorem RoundTrip.hadv (w : BitVec 2) (s : SReg) (ha : HReg) (hd : HReg) : RoundTrip.Statement (.hadv w s ha hd) := by
  intro _ hw
  refine decodeList_one ?_ hw
  simp (disch := decide) only [decodeRaw, decodeH, guardI, packH, fS, fHa, fHd, fields,
      Nat.sub_self, Nat.reduceSub, Nat.reducePow, Nat.reduceMod, Nat.reduceDiv, BitVec.reduceBEq, beq_self_eq_true, Bool.false_eq_true, reduceIte]
theorem RoundTrip.hchk (u : Bool) (s : SReg) (ha : HReg) : RoundTrip.Statement (.hchk u s ha) := by
  intro _ hw
  refine decodeList_one ?_ hw
  simp (disch := decide) only [decodeRaw, decodeH, guardI, packH, fW, fS, fHa, fHd, fields,
      Nat.sub_self, Nat.reduceSub, Nat.reducePow, Nat.reduceMod, Nat.reduceDiv, BitVec.reduceBEq, beq_self_eq_true, Bool.and_true, Bool.false_eq_true, reduceIte]
theorem RoundTrip.start (d : SReg) (a : SReg) (b : SReg) : RoundTrip.Statement (.start d a b) := by
  intro _ hw
  refine decodeList_one ?_ hw
  simp (disch := decide) only [decodeRaw, guardI, decodeSys31, fD, fA, fB, fK, fieldsR, fields,
    Nat.sub_self, Nat.reducePow, Nat.reduceMod, Nat.reduceDiv, BitVec.reduceBEq, beq_self_eq_true, Bool.false_eq_true, reduceIte]
theorem RoundTrip.hexit (a : SReg) : RoundTrip.Statement (.hexit a) := by
  intro _ hw
  refine decodeList_one ?_ hw
  simp (disch := decide) only [decodeRaw, guardI, decodeSys31, fD, fA, fB, fK, fieldsR, fields,
    Nat.sub_self, Nat.reducePow, Nat.reduceMod, Nat.reduceDiv, BitVec.reduceBEq, beq_self_eq_true, Bool.and_true, Bool.false_eq_true, reduceIte]
theorem RoundTrip.hjoin (d : SReg) (a : SReg) (b : SReg) : RoundTrip.Statement (.hjoin d a b) := by
  intro _ hw
  refine decodeList_one ?_ hw
  simp (disch := decide) only [decodeRaw, guardI, decodeSys31, fD, fA, fB, fK, fieldsR, fields,
    Nat.sub_self, Nat.reducePow, Nat.reduceMod, Nat.reduceDiv, BitVec.reduceBEq, beq_self_eq_true, Bool.false_eq_true, reduceIte]
theorem RoundTrip.hstat (d : SReg) (a : SReg) : RoundTrip.Statement (.hstat d a) := by
  intro _ hw
  refine decodeList_one ?_ hw
  simp (disch := decide) only [decodeRaw, guardI, decodeSys31, fD, fA, fB, fK, fieldsR, fields,
    Nat.sub_self, Nat.reducePow, Nat.reduceMod, Nat.reduceDiv, BitVec.reduceBEq, beq_self_eq_true, Bool.and_true, Bool.false_eq_true, reduceIte]
theorem RoundTrip.bara (g : BitVec 2) (b : SReg) : RoundTrip.Statement (.bara g b) := by
  intro _ hw
  refine decodeList_one ?_ hw
  simp (disch := decide) only [decodeRaw, guardI, decodeSys32, fD, fB, fK, fieldsR, fields,
    Nat.sub_self, Nat.reducePow, Nat.reduceMod, Nat.reduceDiv, BitVec.reduceBEq, beq_self_eq_true, Bool.and_true, Bool.false_eq_true, reduceIte]
theorem RoundTrip.barw (d : SReg) (g : BitVec 2) : RoundTrip.Statement (.barw d g) := by
  intro _ hw
  refine decodeList_one ?_ hw
  simp (disch := decide) only [decodeRaw, guardI, decodeSys32, fD, fB, fK, fieldsR, fields,
    Nat.sub_self, Nat.reducePow, Nat.reduceMod, Nat.reduceDiv, BitVec.reduceBEq, beq_self_eq_true, Bool.and_true, Bool.false_eq_true, reduceIte]
theorem RoundTrip.bar (d : SReg) (g : BitVec 2) (b : SReg) : RoundTrip.Statement (.bar d g b) := by
  intro _ hw
  refine decodeList_one ?_ hw
  simp (disch := decide) only [decodeRaw, guardI, decodeSys32, fD, fB, fK, fieldsR, fields,
    Nat.sub_self, Nat.reducePow, Nat.reduceMod, Nat.reduceDiv, BitVec.reduceBEq, beq_self_eq_true, Bool.and_true, Bool.false_eq_true, reduceIte]
theorem RoundTrip.exch (d : SReg) : RoundTrip.Statement (.exch d) := by
  intro _ hw
  refine decodeList_one ?_ hw
  simp (disch := decide) only [decodeRaw, guardI, decodeSys32, fD, fA, fB, fK, fieldsR, fields,
    Nat.sub_self, Nat.reducePow, Nat.reduceMod, Nat.reduceDiv, BitVec.reduceBEq, beq_self_eq_true, Bool.and_true, Bool.false_eq_true, reduceIte]
theorem RoundTrip.step (d : SReg) : RoundTrip.Statement (.step d) := by
  intro _ hw
  refine decodeList_one ?_ hw
  simp (disch := decide) only [decodeRaw, guardI, decodeSys32, fD, fA, fB, fK, fieldsR, fields,
    Nat.sub_self, Nat.reducePow, Nat.reduceMod, Nat.reduceDiv, BitVec.reduceBEq, beq_self_eq_true, Bool.and_true, Bool.false_eq_true, reduceIte]
theorem RoundTrip.msend (a : SReg) (b : SReg) : RoundTrip.Statement (.msend a b) := by
  intro _ hw
  refine decodeList_one ?_ hw
  simp (disch := decide) only [decodeRaw, guardI, decodeSys32, fD, fA, fB, fK, fieldsR, fields,
    Nat.sub_self, Nat.reducePow, Nat.reduceMod, Nat.reduceDiv, BitVec.reduceBEq, beq_self_eq_true, Bool.and_true, Bool.false_eq_true, reduceIte]
theorem RoundTrip.mrecv (d : SReg) (a : SReg) : RoundTrip.Statement (.mrecv d a) := by
  intro _ hw
  refine decodeList_one ?_ hw
  simp (disch := decide) only [decodeRaw, guardI, decodeSys32, fD, fA, fB, fK, fieldsR, fields,
    Nat.sub_self, Nat.reducePow, Nat.reduceMod, Nat.reduceDiv, BitVec.reduceBEq, beq_self_eq_true, Bool.and_true, Bool.false_eq_true, reduceIte]
theorem RoundTrip.messageArrival (core : Nat) (id : Nat) : RoundTrip.Statement (.messageArrival core id) := fun h => nomatch h
theorem RoundTrip.msendRetry (core : Nat) (id : Nat) : RoundTrip.Statement (.msendRetry core id) := fun h => nomatch h
theorem RoundTrip.enq (d : SReg) (a : SReg) (b : SReg) : RoundTrip.Statement (.enq d a b) := by
  intro _ hw
  refine decodeList_one ?_ hw
  simp (disch := decide) only [decodeRaw, guardI, decodeSys33, fD, fA, fB, fK, fieldsR, fields,
    Nat.sub_self, Nat.reducePow, Nat.reduceMod, Nat.reduceDiv, BitVec.reduceBEq, beq_self_eq_true, Bool.false_eq_true, reduceIte]
theorem RoundTrip.rdone (d : SReg) : RoundTrip.Statement (.rdone d) := by
  intro _ hw
  refine decodeList_one ?_ hw
  simp (disch := decide) only [decodeRaw, guardI, decodeSys33, fD, fA, fB, fK, fieldsR, fields,
    Nat.sub_self, Nat.reducePow, Nat.reduceMod, Nat.reduceDiv, BitVec.reduceBEq, beq_self_eq_true, Bool.and_true, Bool.false_eq_true, reduceIte]
theorem RoundTrip.grab (d : SReg) (a : SReg) : RoundTrip.Statement (.grab d a) := by
  intro _ hw
  refine decodeList_one ?_ hw
  simp (disch := decide) only [decodeRaw, guardI, decodeSys33, fD, fA, fB, fK, fieldsR, fields,
    Nat.sub_self, Nat.reducePow, Nat.reduceMod, Nat.reduceDiv, BitVec.reduceBEq, beq_self_eq_true, Bool.and_true, Bool.false_eq_true, reduceIte]
theorem RoundTrip.preempt (d : SReg) (a : SReg) (live : BitVec 48) : RoundTrip.Statement (.preempt d a live) := by
  intro _ hw
  refine decodeList_three ?_ hw
  simp (disch := decide) only [decodeRaw, guardI, decodeSys33, fD, fA, fB, fK, fieldsR, fields,
    Nat.sub_self, Nat.reducePow, Nat.reduceMod, Nat.reduceDiv, BitVec.reduceBEq, beq_self_eq_true, Bool.and_true, Bool.false_eq_true, reduceIte]
theorem RoundTrip.sleepto (a : SReg) : RoundTrip.Statement (.sleepto a) := by
  intro _ hw
  refine decodeList_one ?_ hw
  simp (disch := decide) only [decodeRaw, guardI, decodeSys33, fD, fA, fB, fK, fieldsR, fields,
    Nat.sub_self, Nat.reducePow, Nat.reduceMod, Nat.reduceDiv, BitVec.reduceBEq, beq_self_eq_true, Bool.and_true, Bool.false_eq_true, reduceIte]
theorem RoundTrip.waitt (d : SReg) (a : SReg) : RoundTrip.Statement (.waitt d a) := by
  intro _ hw
  refine decodeList_one ?_ hw
  simp (disch := decide) only [decodeRaw, guardI, decodeSys34, fD, fA, fB, fK, fieldsR, fields,
    Nat.sub_self, Nat.reducePow, Nat.reduceMod, Nat.reduceDiv, BitVec.reduceBEq, beq_self_eq_true, Bool.and_true, Bool.false_eq_true, reduceIte]
theorem RoundTrip.tstat (d : SReg) (a : SReg) : RoundTrip.Statement (.tstat d a) := by
  intro _ hw
  refine decodeList_one ?_ hw
  simp (disch := decide) only [decodeRaw, guardI, decodeSys34, fD, fA, fB, fK, fieldsR, fields,
    Nat.sub_self, Nat.reducePow, Nat.reduceMod, Nat.reduceDiv, BitVec.reduceBEq, beq_self_eq_true, Bool.and_true, Bool.false_eq_true, reduceIte]
theorem RoundTrip.cancel (d : SReg) (a : SReg) : RoundTrip.Statement (.cancel d a) := by
  intro _ hw
  refine decodeList_one ?_ hw
  simp (disch := decide) only [decodeRaw, guardI, decodeSys34, fD, fA, fB, fK, fieldsR, fields,
    Nat.sub_self, Nat.reducePow, Nat.reduceMod, Nat.reduceDiv, BitVec.reduceBEq, beq_self_eq_true, Bool.and_true, Bool.false_eq_true, reduceIte]
theorem RoundTrip.detach (d : SReg) (a : SReg) (b : SReg) : RoundTrip.Statement (.detach d a b) := by
  intro _ hw
  refine decodeList_one ?_ hw
  simp (disch := decide) only [decodeRaw, guardI, decodeSys34, fD, fA, fB, fK, fieldsR, fields,
    Nat.sub_self, Nat.reducePow, Nat.reduceMod, Nat.reduceDiv, BitVec.reduceBEq, beq_self_eq_true, Bool.false_eq_true, reduceIte]
theorem RoundTrip.adopt (d : SReg) (a : SReg) : RoundTrip.Statement (.adopt d a) := by
  intro _ hw
  refine decodeList_one ?_ hw
  simp (disch := decide) only [decodeRaw, guardI, decodeSys34, fD, fA, fB, fK, fieldsR, fields,
    Nat.sub_self, Nat.reducePow, Nat.reduceMod, Nat.reduceDiv, BitVec.reduceBEq, beq_self_eq_true, Bool.and_true, Bool.false_eq_true, reduceIte]
theorem RoundTrip.tpri (d : SReg) (a : SReg) (b : SReg) : RoundTrip.Statement (.tpri d a b) := by
  intro _ hw
  refine decodeList_one ?_ hw
  simp (disch := decide) only [decodeRaw, guardI, decodeSys34, fD, fA, fB, fK, fieldsR, fields,
    Nat.sub_self, Nat.reducePow, Nat.reduceMod, Nat.reduceDiv, BitVec.reduceBEq, beq_self_eq_true, Bool.false_eq_true, reduceIte]
theorem RoundTrip.tfrec (d : SReg) (a : SReg) (b : SReg) : RoundTrip.Statement (.tfrec d a b) := by
  intro _ hw
  refine decodeList_one ?_ hw
  simp (disch := decide) only [decodeRaw, guardI, decodeSys34, fD, fA, fB, fK, fieldsR, fields,
    Nat.sub_self, Nat.reducePow, Nat.reduceMod, Nat.reduceDiv, BitVec.reduceBEq, beq_self_eq_true, Bool.false_eq_true, reduceIte]
theorem RoundTrip.waits (d : SReg) (a : SReg) : RoundTrip.Statement (.waits d a) := by
  intro _ hw
  refine decodeList_one ?_ hw
  simp (disch := decide) only [decodeRaw, guardI, decodeSys34, fD, fA, fB, fK, fieldsR, fields,
    Nat.sub_self, Nat.reducePow, Nat.reduceMod, Nat.reduceDiv, BitVec.reduceBEq, beq_self_eq_true, Bool.and_true, Bool.false_eq_true, reduceIte]
theorem RoundTrip.rginit (d : SReg) (h : HReg) : RoundTrip.Statement (.rginit d h) := by
  intro _ hw
  refine decodeList_one ?_ hw
  simp (disch := decide) only [decodeRaw, guardI, decodeSys35, fD, fA, fK, fieldsR, fields,
    Nat.sub_self, Nat.reducePow, Nat.reduceMod, Nat.reduceDiv, BitVec.reduceBEq, beq_self_eq_true, Bool.and_true, Bool.false_eq_true, reduceIte]
theorem RoundTrip.rgwait (d : SReg) (a : SReg) : RoundTrip.Statement (.rgwait d a) := by
  intro _ hw
  refine decodeList_one ?_ hw
  simp (disch := decide) only [decodeRaw, guardI, decodeSys35, fD, fA, fB, fK, fieldsR, fields,
    Nat.sub_self, Nat.reducePow, Nat.reduceMod, Nat.reduceDiv, BitVec.reduceBEq, beq_self_eq_true, Bool.and_true, Bool.false_eq_true, reduceIte]
theorem RoundTrip.rgrel (a : SReg) : RoundTrip.Statement (.rgrel a) := by
  intro _ hw
  refine decodeList_one ?_ hw
  simp (disch := decide) only [decodeRaw, guardI, decodeSys35, fD, fA, fB, fK, fieldsR, fields,
    Nat.sub_self, Nat.reducePow, Nat.reduceMod, Nat.reduceDiv, BitVec.reduceBEq, beq_self_eq_true, Bool.and_true, Bool.false_eq_true, reduceIte]
theorem RoundTrip.rgstat (d : SReg) (a : SReg) : RoundTrip.Statement (.rgstat d a) := by
  intro _ hw
  refine decodeList_one ?_ hw
  simp (disch := decide) only [decodeRaw, guardI, decodeSys35, fD, fA, fB, fK, fieldsR, fields,
    Nat.sub_self, Nat.reducePow, Nat.reduceMod, Nat.reduceDiv, BitVec.reduceBEq, beq_self_eq_true, Bool.and_true, Bool.false_eq_true, reduceIte]
theorem RoundTrip.reserveSlot (id : Nat) : RoundTrip.Statement (.reserveSlot id) := fun h => nomatch h
theorem RoundTrip.fillSlot (id : Nat) : RoundTrip.Statement (.fillSlot id) := fun h => nomatch h
theorem RoundTrip.claimHead (id : Nat) : RoundTrip.Statement (.claimHead id) := fun h => nomatch h
theorem RoundTrip.hacq (d : SReg) (a : SReg) : RoundTrip.Statement (.hacq d a) := by
  intro _ hw
  refine decodeList_one ?_ hw
  simp (disch := decide) only [decodeRaw, guardI, decodeSys36, fD, fA, fB, fK, fieldsR, fields,
    Nat.sub_self, Nat.reducePow, Nat.reduceMod, Nat.reduceDiv, BitVec.reduceBEq, beq_self_eq_true, Bool.and_true, Bool.false_eq_true, reduceIte]
theorem RoundTrip.hrel (d : SReg) (a : SReg) : RoundTrip.Statement (.hrel d a) := by
  intro _ hw
  refine decodeList_one ?_ hw
  simp (disch := decide) only [decodeRaw, guardI, decodeSys36, fD, fA, fB, fK, fieldsR, fields,
    Nat.sub_self, Nat.reducePow, Nat.reduceMod, Nat.reduceDiv, BitVec.reduceBEq, beq_self_eq_true, Bool.and_true, Bool.false_eq_true, reduceIte]
theorem RoundTrip.hinfo (d : SReg) (a : SReg) : RoundTrip.Statement (.hinfo d a) := by
  intro _ hw
  refine decodeList_one ?_ hw
  simp (disch := decide) only [decodeRaw, guardI, decodeSys36, fD, fA, fB, fK, fieldsR, fields,
    Nat.sub_self, Nat.reducePow, Nat.reduceMod, Nat.reduceDiv, BitVec.reduceBEq, beq_self_eq_true, Bool.and_true, Bool.false_eq_true, reduceIte]
theorem RoundTrip.qsub (d : SReg) (a : SReg) (b : SReg) : RoundTrip.Statement (.qsub d a b) := by
  intro _ hw
  refine decodeList_one ?_ hw
  simp (disch := decide) only [decodeRaw, guardI, decodeSys37, fD, fA, fB, fK, fieldsR, fields,
    Nat.sub_self, Nat.reducePow, Nat.reduceMod, Nat.reduceDiv, BitVec.reduceBEq, beq_self_eq_true, Bool.false_eq_true, reduceIte]
theorem RoundTrip.qstat (d : SReg) (a : SReg) : RoundTrip.Statement (.qstat d a) := by
  intro _ hw
  refine decodeList_one ?_ hw
  simp (disch := decide) only [decodeRaw, guardI, decodeSys37, fD, fA, fB, fK, fieldsR, fields,
    Nat.sub_self, Nat.reducePow, Nat.reduceMod, Nat.reduceDiv, BitVec.reduceBEq, beq_self_eq_true, Bool.and_true, Bool.false_eq_true, reduceIte]
theorem RoundTrip.bind (d : SReg) (a : SReg) (h : HReg) : RoundTrip.Statement (.bind d a h) := by
  intro _ hw
  refine decodeList_one ?_ hw
  simp (disch := decide) only [decodeRaw, guardI, decodeSys38, fD, fA, fK, fieldsR, fields,
    Nat.sub_self, Nat.reducePow, Nat.reduceMod, Nat.reduceDiv, BitVec.reduceBEq, beq_self_eq_true, Bool.and_true, Bool.false_eq_true, reduceIte]
theorem RoundTrip.unbind (d : SReg) (a : SReg) : RoundTrip.Statement (.unbind d a) := by
  intro _ hw
  refine decodeList_one ?_ hw
  simp (disch := decide) only [decodeRaw, guardI, decodeSys38, fD, fA, fB, fK, fieldsR, fields,
    Nat.sub_self, Nat.reducePow, Nat.reduceMod, Nat.reduceDiv, BitVec.reduceBEq, beq_self_eq_true, Bool.and_true, Bool.false_eq_true, reduceIte]
theorem RoundTrip.copy (o : EOrd) (hC : HReg) (hA : HReg) (sX : SReg) (sY : SReg) (sZ : SReg) : RoundTrip.Statement (.copy o hC hA sX sY sZ) := by
  intro _ hw
  refine decodeList_two ((decodeRaw_packE _ _ _ _ _ _ _ _ (by decide)).trans ?_) hw
  simp (disch := decide) only [decodeEng, fW, fieldsE0, fieldsE1, eordOf_pack, decodeEng60, guardI,
      BitVec.reduceBEq, beq_self_eq_true, Bool.false_eq_true, reduceIte]
theorem RoundTrip.copym (o : EOrd) (hC : HReg) (hA : HReg) (sX : SReg) : RoundTrip.Statement (.copym o hC hA sX) := by
  intro _ hw
  refine decodeList_two ((decodeRaw_packE _ _ _ _ _ _ _ _ (by decide)).trans ?_) hw
  simp (disch := decide) only [decodeEng, fW, fieldsE0, fieldsE1, eordOf_pack, decodeEng60, guardI,
      BitVec.reduceBEq, beq_self_eq_true, Bool.and_true, Bool.false_eq_true, reduceIte]
theorem RoundTrip.pack (o : EOrd) (hC : HReg) (hA : HReg) (sX : SReg) : RoundTrip.Statement (.pack o hC hA sX) := by
  intro _ hw
  refine decodeList_two ((decodeRaw_packE _ _ _ _ _ _ _ _ (by decide)).trans ?_) hw
  simp (disch := decide) only [decodeEng, fW, fieldsE0, fieldsE1, eordOf_pack, decodeEng60, guardI,
      BitVec.reduceBEq, beq_self_eq_true, Bool.and_true, Bool.false_eq_true, reduceIte]
theorem RoundTrip.unpack (o : EOrd) (hC : HReg) (hA : HReg) (sX : SReg) : RoundTrip.Statement (.unpack o hC hA sX) := by
  intro _ hw
  refine decodeList_two ((decodeRaw_packE _ _ _ _ _ _ _ _ (by decide)).trans ?_) hw
  simp (disch := decide) only [decodeEng, fW, fieldsE0, fieldsE1, eordOf_pack, decodeEng60, guardI,
      BitVec.reduceBEq, beq_self_eq_true, Bool.and_true, Bool.false_eq_true, reduceIte]
theorem RoundTrip.scadd (o : EOrd) (hA : HReg) (hB : HReg) (sX : SReg) : RoundTrip.Statement (.scadd o hA hB sX) := by
  intro _ hw
  refine decodeList_two ((decodeRaw_packE _ _ _ _ _ _ _ _ (by decide)).trans ?_) hw
  simp (disch := decide) only [decodeEng, fW, fieldsE0, fieldsE1, eordOf_pack, decodeEng61, guardI,
      BitVec.reduceBEq, beq_self_eq_true, Bool.and_true, Bool.false_eq_true, reduceIte]
theorem RoundTrip.bflush (o : EOrd) (sX : SReg) : RoundTrip.Statement (.bflush o sX) := by
  intro _ hw
  refine decodeList_two ((decodeRaw_packE _ _ _ _ _ _ _ _ (by decide)).trans ?_) hw
  simp (disch := decide) only [decodeEng, fW, fieldsE0, fieldsE1, eordOf_pack, decodeEng62, guardI,
      BitVec.reduceBEq, beq_self_eq_true, Bool.and_true, Bool.false_eq_true, reduceIte]
theorem RoundTrip.mma (ovw : Bool) (o : EOrd) (hC : HReg) (hA : HReg) (hB : HReg) : RoundTrip.Statement (.mma ovw o hC hA hB) := by
  intro _ hw
  refine decodeList_two ((decodeRaw_packE _ _ _ _ _ _ _ _ (by decide)).trans ?_) hw
  simp (disch := decide) only [decodeEng, fW, fieldsE0, fieldsE1, eordOf_pack, decodeEng63, guardI,
      fields, Nat.sub_self, BitVec.reduceBEq, beq_self_eq_true, Bool.and_true, bne_self_eq_false, Bool.false_eq_true, reduceIte]
theorem RoundTrip.mmag (ovw : Bool) (o : EOrd) (hC : HReg) (hA : HReg) (hB : HReg) (sX : SReg) (sY : SReg) (sZ : SReg) : RoundTrip.Statement (.mmag ovw o hC hA hB sX sY sZ) := by
  intro _ hw
  refine decodeList_two ((decodeRaw_packE _ _ _ _ _ _ _ _ (by decide)).trans ?_) hw
  simp (disch := decide) only [decodeEng, fW, fieldsE0, fieldsE1, eordOf_pack, decodeEng64, guardI,
      fields, Nat.sub_self, BitVec.reduceBEq, bne_self_eq_false, Bool.false_eq_true, reduceIte]
theorem RoundTrip.vadd (r : BitVec 2) (o : VOrd) (hC : HReg) (hA : HReg) (hB : HReg) : RoundTrip.Statement (.vadd r o hC hA hB) := by
  intro _ hw
  refine decodeList_two ((decodeRaw_packE _ _ _ _ _ _ _ _ (by decide)).trans ?_) hw
  simp (disch := decide) only [decodeEng, fW, fieldsE0, fieldsE1, vordOf_pack, decodeEng65, guardI,
      fields, Nat.sub_self, BitVec.reduceBEq, beq_self_eq_true, Bool.and_true, Bool.false_eq_true, reduceIte]
theorem RoundTrip.vsub (r : BitVec 2) (o : VOrd) (hC : HReg) (hA : HReg) (hB : HReg) : RoundTrip.Statement (.vsub r o hC hA hB) := by
  intro _ hw
  refine decodeList_two ((decodeRaw_packE _ _ _ _ _ _ _ _ (by decide)).trans ?_) hw
  simp (disch := decide) only [decodeEng, fW, fieldsE0, fieldsE1, vordOf_pack, decodeEng65, guardI,
      fields, Nat.sub_self, BitVec.reduceBEq, beq_self_eq_true, Bool.and_true, Bool.false_eq_true, reduceIte]
theorem RoundTrip.vmul (r : BitVec 2) (o : VOrd) (hC : HReg) (hA : HReg) (hB : HReg) : RoundTrip.Statement (.vmul r o hC hA hB) := by
  intro _ hw
  refine decodeList_two ((decodeRaw_packE _ _ _ _ _ _ _ _ (by decide)).trans ?_) hw
  simp (disch := decide) only [decodeEng, fW, fieldsE0, fieldsE1, vordOf_pack, decodeEng65, guardI,
      fields, Nat.sub_self, BitVec.reduceBEq, beq_self_eq_true, Bool.and_true, Bool.false_eq_true, reduceIte]
theorem RoundTrip.vfma (r : BitVec 2) (o : VOrd) (hC : HReg) (hA : HReg) (hB : HReg) : RoundTrip.Statement (.vfma r o hC hA hB) := by
  intro _ hw
  refine decodeList_two ((decodeRaw_packE _ _ _ _ _ _ _ _ (by decide)).trans ?_) hw
  simp (disch := decide) only [decodeEng, fW, fieldsE0, fieldsE1, vordOf_pack, decodeEng65, guardI,
      fields, Nat.sub_self, BitVec.reduceBEq, beq_self_eq_true, Bool.and_true, Bool.false_eq_true, reduceIte]
theorem RoundTrip.vmax (r : BitVec 2) (o : VOrd) (hC : HReg) (hA : HReg) (hB : HReg) : RoundTrip.Statement (.vmax r o hC hA hB) := by
  intro _ hw
  refine decodeList_two ((decodeRaw_packE _ _ _ _ _ _ _ _ (by decide)).trans ?_) hw
  simp (disch := decide) only [decodeEng, fW, fieldsE0, fieldsE1, vordOf_pack, decodeEng65, guardI,
      fields, Nat.sub_self, BitVec.reduceBEq, beq_self_eq_true, Bool.and_true, Bool.false_eq_true, reduceIte]
theorem RoundTrip.vmin (r : BitVec 2) (o : VOrd) (hC : HReg) (hA : HReg) (hB : HReg) : RoundTrip.Statement (.vmin r o hC hA hB) := by
  intro _ hw
  refine decodeList_two ((decodeRaw_packE _ _ _ _ _ _ _ _ (by decide)).trans ?_) hw
  simp (disch := decide) only [decodeEng, fW, fieldsE0, fieldsE1, vordOf_pack, decodeEng65, guardI,
      fields, Nat.sub_self, BitVec.reduceBEq, beq_self_eq_true, Bool.and_true, Bool.false_eq_true, reduceIte]
theorem RoundTrip.vabs (r : BitVec 2) (o : VOrd) (hC : HReg) (hA : HReg) : RoundTrip.Statement (.vabs r o hC hA) := by
  intro _ hw
  refine decodeList_two ((decodeRaw_packE _ _ _ _ _ _ _ _ (by decide)).trans ?_) hw
  simp (disch := decide) only [decodeEng, fW, fieldsE0, fieldsE1, vordOf_pack, decodeEng65, guardI,
      fields, Nat.sub_self, BitVec.reduceBEq, beq_self_eq_true, Bool.and_true, Bool.false_eq_true, reduceIte]
theorem RoundTrip.vneg (r : BitVec 2) (o : VOrd) (hC : HReg) (hA : HReg) : RoundTrip.Statement (.vneg r o hC hA) := by
  intro _ hw
  refine decodeList_two ((decodeRaw_packE _ _ _ _ _ _ _ _ (by decide)).trans ?_) hw
  simp (disch := decide) only [decodeEng, fW, fieldsE0, fieldsE1, vordOf_pack, decodeEng65, guardI,
      fields, Nat.sub_self, BitVec.reduceBEq, beq_self_eq_true, Bool.and_true, Bool.false_eq_true, reduceIte]
theorem RoundTrip.vexp (r : BitVec 2) (o : VOrd) (hC : HReg) (hA : HReg) : RoundTrip.Statement (.vexp r o hC hA) := by
  intro _ hw
  refine decodeList_two ((decodeRaw_packE _ _ _ _ _ _ _ _ (by decide)).trans ?_) hw
  simp (disch := decide) only [decodeEng, fW, fieldsE0, fieldsE1, vordOf_pack, decodeEng65, guardI,
      fields, Nat.sub_self, BitVec.reduceBEq, beq_self_eq_true, Bool.and_true, Bool.false_eq_true, reduceIte]
theorem RoundTrip.vlog (r : BitVec 2) (o : VOrd) (hC : HReg) (hA : HReg) : RoundTrip.Statement (.vlog r o hC hA) := by
  intro _ hw
  refine decodeList_two ((decodeRaw_packE _ _ _ _ _ _ _ _ (by decide)).trans ?_) hw
  simp (disch := decide) only [decodeEng, fW, fieldsE0, fieldsE1, vordOf_pack, decodeEng65, guardI,
      fields, Nat.sub_self, BitVec.reduceBEq, beq_self_eq_true, Bool.and_true, Bool.false_eq_true, reduceIte]
theorem RoundTrip.vrcp (r : BitVec 2) (o : VOrd) (hC : HReg) (hA : HReg) : RoundTrip.Statement (.vrcp r o hC hA) := by
  intro _ hw
  refine decodeList_two ((decodeRaw_packE _ _ _ _ _ _ _ _ (by decide)).trans ?_) hw
  simp (disch := decide) only [decodeEng, fW, fieldsE0, fieldsE1, vordOf_pack, decodeEng65, guardI,
      fields, Nat.sub_self, BitVec.reduceBEq, beq_self_eq_true, Bool.and_true, Bool.false_eq_true, reduceIte]
theorem RoundTrip.vrsq (r : BitVec 2) (o : VOrd) (hC : HReg) (hA : HReg) : RoundTrip.Statement (.vrsq r o hC hA) := by
  intro _ hw
  refine decodeList_two ((decodeRaw_packE _ _ _ _ _ _ _ _ (by decide)).trans ?_) hw
  simp (disch := decide) only [decodeEng, fW, fieldsE0, fieldsE1, vordOf_pack, decodeEng65, guardI,
      fields, Nat.sub_self, BitVec.reduceBEq, beq_self_eq_true, Bool.and_true, Bool.false_eq_true, reduceIte]
theorem RoundTrip.vtanh (r : BitVec 2) (o : VOrd) (hC : HReg) (hA : HReg) : RoundTrip.Statement (.vtanh r o hC hA) := by
  intro _ hw
  refine decodeList_two ((decodeRaw_packE _ _ _ _ _ _ _ _ (by decide)).trans ?_) hw
  simp (disch := decide) only [decodeEng, fW, fieldsE0, fieldsE1, vordOf_pack, decodeEng65, guardI,
      fields, Nat.sub_self, BitVec.reduceBEq, beq_self_eq_true, Bool.and_true, Bool.false_eq_true, reduceIte]
theorem RoundTrip.vcmp (r : BitVec 2) (o : VOrd) (hC : HReg) (hA : HReg) (hB : HReg) (sX : SReg) : RoundTrip.Statement (.vcmp r o hC hA hB sX) := by
  intro _ hw
  refine decodeList_two ((decodeRaw_packE _ _ _ _ _ _ _ _ (by decide)).trans ?_) hw
  simp (disch := decide) only [decodeEng, fW, fieldsE0, fieldsE1, vordOf_pack, decodeEng65, guardI,
      fields, Nat.sub_self, BitVec.reduceBEq, beq_self_eq_true, Bool.and_true, Bool.false_eq_true, reduceIte]
theorem RoundTrip.vsel (r : BitVec 2) (o : VOrd) (hC : HReg) (hA : HReg) (hB : HReg) : RoundTrip.Statement (.vsel r o hC hA hB) := by
  intro _ hw
  refine decodeList_two ((decodeRaw_packE _ _ _ _ _ _ _ _ (by decide)).trans ?_) hw
  simp (disch := decide) only [decodeEng, fW, fieldsE0, fieldsE1, vordOf_pack, decodeEng65, guardI,
      fields, Nat.sub_self, BitVec.reduceBEq, beq_self_eq_true, Bool.and_true, Bool.false_eq_true, reduceIte]
theorem RoundTrip.vcvt (r : BitVec 2) (o : VOrd) (hC : HReg) (hA : HReg) : RoundTrip.Statement (.vcvt r o hC hA) := by
  intro _ hw
  refine decodeList_two ((decodeRaw_packE _ _ _ _ _ _ _ _ (by decide)).trans ?_) hw
  simp (disch := decide) only [decodeEng, fW, fieldsE0, fieldsE1, vordOf_pack, decodeEng65, guardI,
      fields, Nat.sub_self, BitVec.reduceBEq, beq_self_eq_true, Bool.and_true, Bool.false_eq_true, reduceIte]
theorem RoundTrip.vscl (r : BitVec 2) (o : VOrd) (hC : HReg) (hA : HReg) (sX : SReg) : RoundTrip.Statement (.vscl r o hC hA sX) := by
  intro _ hw
  refine decodeList_two ((decodeRaw_packE _ _ _ _ _ _ _ _ (by decide)).trans ?_) hw
  simp (disch := decide) only [decodeEng, fW, fieldsE0, fieldsE1, vordOf_pack, decodeEng65, guardI,
      fields, Nat.sub_self, BitVec.reduceBEq, beq_self_eq_true, Bool.and_true, Bool.false_eq_true, reduceIte]
theorem RoundTrip.vreds (r : BitVec 2) (o : VOrd) (hC : HReg) (hA : HReg) : RoundTrip.Statement (.vreds r o hC hA) := by
  intro _ hw
  refine decodeList_two ((decodeRaw_packE _ _ _ _ _ _ _ _ (by decide)).trans ?_) hw
  simp (disch := decide) only [decodeEng, fW, fieldsE0, fieldsE1, vordOf_pack, decodeEng65, guardI,
      fields, Nat.sub_self, BitVec.reduceBEq, beq_self_eq_true, Bool.and_true, Bool.false_eq_true, reduceIte]
theorem RoundTrip.vredm (r : BitVec 2) (o : VOrd) (hC : HReg) (hA : HReg) : RoundTrip.Statement (.vredm r o hC hA) := by
  intro _ hw
  refine decodeList_two ((decodeRaw_packE _ _ _ _ _ _ _ _ (by decide)).trans ?_) hw
  simp (disch := decide) only [decodeEng, fW, fieldsE0, fieldsE1, vordOf_pack, decodeEng65, guardI,
      fields, Nat.sub_self, BitVec.reduceBEq, beq_self_eq_true, Bool.and_true, Bool.false_eq_true, reduceIte]
theorem RoundTrip.vscan (r : BitVec 2) (o : VOrd) (hC : HReg) (hA : HReg) : RoundTrip.Statement (.vscan r o hC hA) := by
  intro _ hw
  refine decodeList_two ((decodeRaw_packE _ _ _ _ _ _ _ _ (by decide)).trans ?_) hw
  simp (disch := decide) only [decodeEng, fW, fieldsE0, fieldsE1, vordOf_pack, decodeEng65, guardI,
      fields, Nat.sub_self, BitVec.reduceBEq, beq_self_eq_true, Bool.and_true, Bool.false_eq_true, reduceIte]
theorem RoundTrip.stripDispatch (cl : Nat) : RoundTrip.Statement (.stripDispatch cl) := fun h => nomatch h
theorem RoundTrip.qntQ4uni (o : EOrd) (hC : HReg) (hA : HReg) : RoundTrip.Statement (.qntQ4uni o hC hA) := by
  intro _ hw
  refine decodeList_two ((decodeRaw_packE _ _ _ _ _ _ _ _ (by decide)).trans ?_) hw
  simp (disch := decide) only [decodeEng, fW, fieldsE0, fieldsE1, eordOf_pack, decodeEng66, guardI,
      BitVec.reduceBEq, beq_self_eq_true, Bool.and_true, Bool.false_eq_true, reduceIte]
theorem RoundTrip.qntQ4e2m1 (o : EOrd) (hC : HReg) (hA : HReg) : RoundTrip.Statement (.qntQ4e2m1 o hC hA) := by
  intro _ hw
  refine decodeList_two ((decodeRaw_packE _ _ _ _ _ _ _ _ (by decide)).trans ?_) hw
  simp (disch := decide) only [decodeEng, fW, fieldsE0, fieldsE1, eordOf_pack, decodeEng66, guardI,
      BitVec.reduceBEq, beq_self_eq_true, Bool.and_true, Bool.false_eq_true, reduceIte]
theorem RoundTrip.qntQ4pow (o : EOrd) (hC : HReg) (hA : HReg) : RoundTrip.Statement (.qntQ4pow o hC hA) := by
  intro _ hw
  refine decodeList_two ((decodeRaw_packE _ _ _ _ _ _ _ _ (by decide)).trans ?_) hw
  simp (disch := decide) only [decodeEng, fW, fieldsE0, fieldsE1, eordOf_pack, decodeEng66, guardI,
      BitVec.reduceBEq, beq_self_eq_true, Bool.and_true, Bool.false_eq_true, reduceIte]
theorem RoundTrip.qntQ4hyb (o : EOrd) (hC : HReg) (hA : HReg) : RoundTrip.Statement (.qntQ4hyb o hC hA) := by
  intro _ hw
  refine decodeList_two ((decodeRaw_packE _ _ _ _ _ _ _ _ (by decide)).trans ?_) hw
  simp (disch := decide) only [decodeEng, fW, fieldsE0, fieldsE1, eordOf_pack, decodeEng66, guardI,
      BitVec.reduceBEq, beq_self_eq_true, Bool.and_true, Bool.false_eq_true, reduceIte]
theorem RoundTrip.qntQ4auto (o : EOrd) (hC : HReg) (hA : HReg) : RoundTrip.Statement (.qntQ4auto o hC hA) := by
  intro _ hw
  refine decodeList_two ((decodeRaw_packE _ _ _ _ _ _ _ _ (by decide)).trans ?_) hw
  simp (disch := decide) only [decodeEng, fW, fieldsE0, fieldsE1, eordOf_pack, decodeEng66, guardI,
      BitVec.reduceBEq, beq_self_eq_true, Bool.and_true, Bool.false_eq_true, reduceIte]
theorem RoundTrip.dqnt (o : EOrd) (hC : HReg) (hA : HReg) : RoundTrip.Statement (.dqnt o hC hA) := by
  intro _ hw
  refine decodeList_two ((decodeRaw_packE _ _ _ _ _ _ _ _ (by decide)).trans ?_) hw
  simp (disch := decide) only [decodeEng, fW, fieldsE0, fieldsE1, eordOf_pack, decodeEng66, guardI,
      BitVec.reduceBEq, beq_self_eq_true, Bool.and_true, Bool.false_eq_true, reduceIte]
theorem RoundTrip.qchk (o : EOrd) (hA : HReg) : RoundTrip.Statement (.qchk o hA) := by
  intro _ hw
  refine decodeList_two ((decodeRaw_packE _ _ _ _ _ _ _ _ (by decide)).trans ?_) hw
  simp (disch := decide) only [decodeEng, fW, fieldsE0, fieldsE1, eordOf_pack, decodeEng66, guardI,
      BitVec.reduceBEq, beq_self_eq_true, Bool.and_true, Bool.false_eq_true, reduceIte]
theorem RoundTrip.winit (o : EOrd) (hC : HReg) (sX : SReg) : RoundTrip.Statement (.winit o hC sX) := by
  intro _ hw
  refine decodeList_two ((decodeRaw_packE _ _ _ _ _ _ _ _ (by decide)).trans ?_) hw
  simp (disch := decide) only [decodeEng, fW, fieldsE0, fieldsE1, eordOf_pack, decodeEng67, guardI,
      BitVec.reduceBEq, beq_self_eq_true, Bool.and_true, Bool.false_eq_true, reduceIte]
theorem RoundTrip.wprobe (o : EOrd) (hC : HReg) (hA : HReg) (hB : HReg) : RoundTrip.Statement (.wprobe o hC hA hB) := by
  intro _ hw
  refine decodeList_two ((decodeRaw_packE _ _ _ _ _ _ _ _ (by decide)).trans ?_) hw
  simp (disch := decide) only [decodeEng, fW, fieldsE0, fieldsE1, eordOf_pack, decodeEng67, guardI,
      BitVec.reduceBEq, beq_self_eq_true, Bool.and_true, Bool.false_eq_true, reduceIte]
theorem RoundTrip.wcommit (o : EOrd) (hC : HReg) (hA : HReg) (sX : SReg) (sY : SReg) (sZ : SReg) : RoundTrip.Statement (.wcommit o hC hA sX sY sZ) := by
  intro _ hw
  refine decodeList_two ((decodeRaw_packE _ _ _ _ _ _ _ _ (by decide)).trans ?_) hw
  simp (disch := decide) only [decodeEng, fW, fieldsE0, fieldsE1, eordOf_pack, decodeEng67, guardI,
      BitVec.reduceBEq, beq_self_eq_true, Bool.false_eq_true, reduceIte]
theorem RoundTrip.wpick (o : EOrd) (hA : HReg) (sY : SReg) (sZ : SReg) : RoundTrip.Statement (.wpick o hA sY sZ) := by
  intro _ hw
  refine decodeList_two ((decodeRaw_packE _ _ _ _ _ _ _ _ (by decide)).trans ?_) hw
  simp (disch := decide) only [decodeEng, fW, fieldsE0, fieldsE1, eordOf_pack, decodeEng67, guardI,
      BitVec.reduceBEq, beq_self_eq_true, Bool.and_true, Bool.false_eq_true, reduceIte]
theorem RoundTrip.wrd (o : EOrd) (hC : HReg) (hA : HReg) (hB : HReg) : RoundTrip.Statement (.wrd o hC hA hB) := by
  intro _ hw
  refine decodeList_two ((decodeRaw_packE _ _ _ _ _ _ _ _ (by decide)).trans ?_) hw
  simp (disch := decide) only [decodeEng, fW, fieldsE0, fieldsE1, eordOf_pack, decodeEng67, guardI,
      BitVec.reduceBEq, beq_self_eq_true, Bool.and_true, Bool.false_eq_true, reduceIte]
theorem RoundTrip.allred (red : BitVec 3) (o : EOrd) (hC : HReg) (hA : HReg) (sX : SReg) (sZ : SReg) : RoundTrip.Statement (.allred red o hC hA sX sZ) := by
  intro _ hw
  refine decodeList_two ((decodeRaw_packE _ _ _ _ _ _ _ _ (by decide)).trans ?_) hw
  simp (disch := decide) only [decodeEng, fW, fieldsE0, fieldsE1, eordOf_pack, decodeEng68, guardI,
      fields, Nat.sub_self, Nat.reduceSub, BitVec.reduceBEq, beq_self_eq_true, Bool.and_true, Bool.false_eq_true, reduceIte]
theorem RoundTrip.redscat (red : BitVec 3) (o : EOrd) (hC : HReg) (hA : HReg) (sX : SReg) (sZ : SReg) : RoundTrip.Statement (.redscat red o hC hA sX sZ) := by
  intro _ hw
  refine decodeList_two ((decodeRaw_packE _ _ _ _ _ _ _ _ (by decide)).trans ?_) hw
  simp (disch := decide) only [decodeEng, fW, fieldsE0, fieldsE1, eordOf_pack, decodeEng68, guardI,
      fields, Nat.sub_self, Nat.reduceSub, BitVec.reduceBEq, beq_self_eq_true, Bool.and_true, Bool.false_eq_true, reduceIte]
theorem RoundTrip.allgath (o : EOrd) (hC : HReg) (hA : HReg) (sX : SReg) (sZ : SReg) : RoundTrip.Statement (.allgath o hC hA sX sZ) := by
  intro _ hw
  refine decodeList_two ((decodeRaw_packE _ _ _ _ _ _ _ _ (by decide)).trans ?_) hw
  simp (disch := decide) only [decodeEng, fW, fieldsE0, fieldsE1, eordOf_pack, decodeEng68, guardI,
      fields, Nat.reducePow, Nat.reduceMod, Nat.reduceDiv, BitVec.reduceBEq, beq_self_eq_true, Bool.and_true, bne_self_eq_false, Bool.false_eq_true, reduceIte]
theorem RoundTrip.bcast (o : EOrd) (hC : HReg) (hA : HReg) (sX : SReg) (sY : SReg) (sZ : SReg) : RoundTrip.Statement (.bcast o hC hA sX sY sZ) := by
  intro _ hw
  refine decodeList_two ((decodeRaw_packE _ _ _ _ _ _ _ _ (by decide)).trans ?_) hw
  simp (disch := decide) only [decodeEng, fW, fieldsE0, fieldsE1, eordOf_pack, decodeEng68, guardI,
      fields, Nat.reducePow, Nat.reduceMod, Nat.reduceDiv, BitVec.reduceBEq, beq_self_eq_true, bne_self_eq_false, Bool.false_eq_true, reduceIte]
theorem RoundTrip.alltoall (o : EOrd) (hC : HReg) (hA : HReg) (sX : SReg) (sZ : SReg) : RoundTrip.Statement (.alltoall o hC hA sX sZ) := by
  intro _ hw
  refine decodeList_two ((decodeRaw_packE _ _ _ _ _ _ _ _ (by decide)).trans ?_) hw
  simp (disch := decide) only [decodeEng, fW, fieldsE0, fieldsE1, eordOf_pack, decodeEng68, guardI,
      fields, Nat.reducePow, Nat.reduceMod, Nat.reduceDiv, BitVec.reduceBEq, beq_self_eq_true, Bool.and_true, bne_self_eq_false, Bool.false_eq_true, reduceIte]
theorem RoundTrip.collectiveTimeout (id : Nat) : RoundTrip.Statement (.collectiveTimeout id) := fun h => nomatch h
theorem RoundTrip.abort (src : AbortSrc) : RoundTrip.Statement (.abort src) := fun h => nomatch h
theorem RoundTrip.spec (o : EOrd) (sX : SReg) (sY : SReg) (sZ : SReg) : RoundTrip.Statement (.spec o sX sY sZ) := by
  intro _ hw
  refine decodeList_two ((decodeRaw_packE _ _ _ _ _ _ _ _ (by decide)).trans ?_) hw
  simp (disch := decide) only [decodeEng, fW, fieldsE0, fieldsE1, eordOf_pack, decodeEng69, guardI,
      BitVec.reduceBEq, beq_self_eq_true, Bool.and_true, Bool.false_eq_true, reduceIte]
theorem RoundTrip.engineStart (e : EngineId) : RoundTrip.Statement (.engineStart e) := fun h => nomatch h
theorem RoundTrip.engineStep (id : Nat) (k : Nat) : RoundTrip.Statement (.engineStep id k) := fun h => nomatch h
theorem RoundTrip.operationCompletion (id : Nat) : RoundTrip.Statement (.operationCompletion id) := fun h => nomatch h
theorem RoundTrip.drain (core : Nat) (ctx : Nat) : RoundTrip.Statement (.drain core ctx) := fun h => nomatch h
theorem RoundTrip.perform (src : Nat) (dst : Nat) : RoundTrip.Statement (.perform src dst) := fun h => nomatch h
theorem RoundTrip.refresh (die : Nat) (g : Nat) : RoundTrip.Statement (.refresh die g) := fun h => nomatch h
theorem RoundTrip.pageWalk (core : Nat) (pasid : Nat) (va : Nat) : RoundTrip.Statement (.pageWalk core pasid va) := fun h => nomatch h
theorem RoundTrip.kick (v : DWord) : RoundTrip.Statement (.kick v) := fun h => nomatch h
theorem RoundTrip.kickstatRead : RoundTrip.Statement .kickstatRead := fun h => nomatch h
theorem RoundTrip.lookupAnswer (id : Nat) : RoundTrip.Statement (.lookupAnswer id) := fun h => nomatch h
theorem RoundTrip.qcbChange (c : QueueChange) : RoundTrip.Statement (.qcbChange c) := fun h => nomatch h
theorem RoundTrip.nop : RoundTrip.Statement .nop := fun h => nomatch h
theorem RoundTrip.launch : RoundTrip.Statement .launch := fun h => nomatch h
theorem RoundTrip.gangRelease (id : Nat) : RoundTrip.Statement (.gangRelease id) := fun h => nomatch h
theorem RoundTrip.controlContextStart (core : Nat) : RoundTrip.Statement (.controlContextStart core) := fun h => nomatch h
theorem RoundTrip.launchComplete (id : Nat) : RoundTrip.Statement (.launchComplete id) := fun h => nomatch h
theorem RoundTrip.records : RoundTrip.Statement .records := fun h => nomatch h
theorem RoundTrip.expandRecord (id : Nat) : RoundTrip.Statement (.expandRecord id) := fun h => nomatch h
theorem RoundTrip.recordsComplete (id : Nat) : RoundTrip.Statement (.recordsComplete id) := fun h => nomatch h
theorem RoundTrip.fencePacket : RoundTrip.Statement .fencePacket := fun h => nomatch h
theorem RoundTrip.signal : RoundTrip.Statement .signal := fun h => nomatch h
theorem RoundTrip.serviceDrain : RoundTrip.Statement .serviceDrain := fun h => nomatch h
theorem RoundTrip.serviceDrainComplete : RoundTrip.Statement .serviceDrainComplete := fun h => nomatch h
theorem RoundTrip.invalidatePage (v : Word) : RoundTrip.Statement (.invalidatePage v) := fun h => nomatch h
theorem RoundTrip.invalidatePasid (v : Word) : RoundTrip.Statement (.invalidatePasid v) := fun h => nomatch h
theorem RoundTrip.invalidateAll (v : Word) : RoundTrip.Statement (.invalidateAll v) := fun h => nomatch h
theorem RoundTrip.invalidationComplete : RoundTrip.Statement .invalidationComplete := fun h => nomatch h
theorem RoundTrip.registerWrite (off : Nat) (n : Nat) (v : DWord) : RoundTrip.Statement (.registerWrite off n v) := fun h => nomatch h
theorem RoundTrip.bar2Read (x : Nat) (n : Nat) (tag : Option Nat) : RoundTrip.Statement (.bar2Read x n tag) := fun h => nomatch h
theorem RoundTrip.bar2Write (x : Nat) (bs : List Byte) (tag : Option Nat) : RoundTrip.Statement (.bar2Write x bs tag) := fun h => nomatch h
theorem RoundTrip.pcieCompletion (id : Nat) (r : Option (List Byte)) : RoundTrip.Statement (.pcieCompletion id r) := fun h => nomatch h
theorem RoundTrip.completionTimeout (id : Nat) : RoundTrip.Statement (.completionTimeout id) := fun h => nomatch h
theorem RoundTrip.attest (r : MbxReq) : RoundTrip.Statement (.attest r) := fun h => nomatch h
theorem RoundTrip.challenge (r : MbxReq) : RoundTrip.Statement (.challenge r) := fun h => nomatch h
theorem RoundTrip.latchkey (r : MbxReq) : RoundTrip.Statement (.latchkey r) := fun h => nomatch h
theorem RoundTrip.leaseStart (r : MbxReq) : RoundTrip.Statement (.leaseStart r) := fun h => nomatch h
theorem RoundTrip.stage (r : MbxReq) : RoundTrip.Statement (.stage r) := fun h => nomatch h
theorem RoundTrip.handover (r : MbxReq) : RoundTrip.Statement (.handover r) := fun h => nomatch h
theorem RoundTrip.record (r : MbxReq) : RoundTrip.Statement (.record r) := fun h => nomatch h
theorem RoundTrip.reclaim (r : MbxReq) : RoundTrip.Statement (.reclaim r) := fun h => nomatch h
theorem RoundTrip.reclaimRegisterWrite (v : DWord) : RoundTrip.Statement (.reclaimRegisterWrite v) := fun h => nomatch h
theorem RoundTrip.mbxUnknown (code : Nat) (r : MbxReq) : RoundTrip.Statement (.mbxUnknown code r) := fun h => nomatch h
theorem RoundTrip.firmwareCommand (code : Nat) (r : MbxReq) (act : FwAction) : RoundTrip.Statement (.firmwareCommand code r act) := fun h => nomatch h
theorem RoundTrip.yield : RoundTrip.Statement .yield := fun h => nomatch h
theorem RoundTrip.handoverTimeout : RoundTrip.Statement .handoverTimeout := fun h => nomatch h
theorem RoundTrip.dbgStop (core : Nat) : RoundTrip.Statement (.dbgStop core) := fun h => nomatch h
theorem RoundTrip.dbgGo (core : Nat) : RoundTrip.Statement (.dbgGo core) := fun h => nomatch h
theorem RoundTrip.functionLevelReset : RoundTrip.Statement .functionLevelReset := fun h => nomatch h
theorem RoundTrip.powerOn : RoundTrip.Statement .powerOn := fun h => nomatch h
theorem RoundTrip.timeset (v : DWord) : RoundTrip.Statement (.timeset v) := fun h => nomatch h
theorem RoundTrip.timeTrim (ppm : Int) : RoundTrip.Statement (.timeTrim ppm) := fun h => nomatch h
theorem RoundTrip.poolOwnerSet (die : Nat) (pasid : Option Nat) : RoundTrip.Statement (.poolOwnerSet die pasid) := fun h => nomatch h
theorem RoundTrip.preemptRequest (cl : Nat) (lid : Nat) (claim : Nat) (prio : Nat) (base : Nat) (stride : Nat) : RoundTrip.Statement (.preemptRequest cl lid claim prio base stride) := fun h => nomatch h
theorem RoundTrip.pointTaken (cl : Nat) : RoundTrip.Statement (.pointTaken cl) := fun h => nomatch h
theorem RoundTrip.pointDeclined (cl : Nat) : RoundTrip.Statement (.pointDeclined cl) := fun h => nomatch h
theorem RoundTrip.restoreRequest (cl : Nat) (lid : Nat) : RoundTrip.Statement (.restoreRequest cl lid) := fun h => nomatch h
theorem RoundTrip.jobFatalDiscard (id : Nat) : RoundTrip.Statement (.jobFatalDiscard id) := fun h => nomatch h
theorem RoundTrip.leaderFailover (id : Nat) : RoundTrip.Statement (.leaderFailover id) := fun h => nomatch h
theorem RoundTrip.data (bs : List Byte) : RoundTrip.Statement (.data bs) := fun h => nomatch h
theorem RoundTrip.ack (bs : List Byte) : RoundTrip.Statement (.ack bs) := fun h => nomatch h
theorem RoundTrip.nak (bs : List Byte) : RoundTrip.Statement (.nak bs) := fun h => nomatch h
theorem RoundTrip.probe (bs : List Byte) : RoundTrip.Statement (.probe bs) := fun h => nomatch h
theorem RoundTrip.replayTimeout (peer : Nat) (cls : Nat) : RoundTrip.Statement (.replayTimeout peer cls) := fun h => nomatch h
theorem RoundTrip.feTimeout (core : Nat) (ctx : Nat) : RoundTrip.Statement (.feTimeout core ctx) := fun h => nomatch h
theorem RoundTrip.uncorrectableError (u : ErrUnit) : RoundTrip.Statement (.uncorrectableError u) := fun h => nomatch h
theorem RoundTrip.flitReplay (link : Nat) : RoundTrip.Statement (.flitReplay link) := fun h => nomatch h
theorem RoundTrip.linkFence (link : Nat) (used : List Nat) : RoundTrip.Statement (.linkFence link used) := fun h => nomatch h
theorem RoundTrip.powerCap (island : Nat) (rate : Nat) : RoundTrip.Statement (.powerCap island rate) := fun h => nomatch h
theorem RoundTrip.thermalThrottle (island : Nat) : RoundTrip.Statement (.thermalThrottle island) := fun h => nomatch h
theorem RoundTrip.thermalShutdown : RoundTrip.Statement .thermalShutdown := fun h => nomatch h
theorem RoundTrip.badpkt : RoundTrip.Statement .badpkt := fun h => nomatch h
theorem RoundTrip.sleeptoWake (core : Nat) (ctx : Nat) : RoundTrip.Statement (.sleeptoWake core ctx) := fun h => nomatch h
theorem RoundTrip.releaseTimeReached (core : Nat) : RoundTrip.Statement (.releaseTimeReached core) := fun h => nomatch h
theorem RoundTrip.saveComplete (cl : Nat) : RoundTrip.Statement (.saveComplete cl) := fun h => nomatch h
theorem RoundTrip.reclaimComplete : RoundTrip.Statement .reclaimComplete := fun h => nomatch h
theorem RoundTrip.mbxCommandComplete : RoundTrip.Statement .mbxCommandComplete := fun h => nomatch h
theorem RoundTrip.powerLoss : RoundTrip.Statement .powerLoss := fun h => nomatch h
theorem RoundTrip.correctedError (u : ErrUnit) : RoundTrip.Statement (.correctedError u) := fun h => nomatch h
theorem RoundTrip.ptpEventFrame (port : Nat) (sent : Bool) : RoundTrip.Statement (.ptpEventFrame port sent) := fun h => nomatch h

end Sys2Proof.Laws
end

