-- ==== Sys2Proof/Laws/Values.lean ====
section
/-! SUPPORT. The values of the integer operations in the terms of the statements, and the shared operations
of Integer.lean once their checks pass. -/

namespace Sys2Proof.Machine
open Sys2Proof Sys2Proof.Claims


/-- An integer operation whose checks pass retires with its value. -/
theorem intOp_next {i d a b f s} {v : DWord} (hr : Ready i s) (hv : f (s.reg a) (s.opB b) = v) :
   intOp i d a b f s = .next (retire i (s.setReg d v)) := by rw [intOp, run_ready hr, hv, done]

/-- An immediate operation whose checks pass retires with its value. -/
theorem immOp_next {i d a y f s} {v : DWord} (hr : Ready i s) (hv : f (s.reg a) y = v) :
   immOp i d a y f s = .next (retire i (s.setReg d v)) := by rw [immOp, run_ready hr, hv, done]

/-- The low half of a value, zero-extended. -/
theorem and_low32 (x : DWord) : (x &&& 0xFFFFFFFF#64) = (x.setWidth 32).setWidth 64 := by
  ext i hi
  simp only [BitVec.getElem_and, BitVec.getElem_setWidth, BitVec.getLsbD_setWidth]
  have : (0xFFFFFFFF#64)[i] = decide (i < 32) := by
    have := BitVec.getLsbD_eq_getElem (x := 0xFFFFFFFF#64) hi
    rw [← this, show (0xFFFFFFFF#64) = BitVec.ofNat 64 (2^32-1) from rfl, BitVec.getLsbD_ofNat, Nat.testBit_two_pow_sub_one]
    simp [hi]
  rw [this]; simp [BitVec.getLsbD_eq_getElem hi, Bool.and_comm]

/-- The bits of a sign-extended low half. -/
theorem low32_bit (x : DWord) (i : Nat) : (low32 x).getLsbD i = (decide (i < 64) && x.getLsbD (min i 31)) := by
  unfold low32
  rw [BitVec.getLsbD_signExtend]
  by_cases h : i < 64 <;> simp [h]
  by_cases h2 : i < 32
  · simp [h2, show min i 31 = i by omega, BitVec.getLsbD_eq_getElem h]
  · simp [h2, show min i 31 = 31 by omega, BitVec.msb_eq_getLsbD_last]

/-- Values with the same 64 bits are the same. -/
theorem eq_of_bits {x y : DWord} (h : ∀ i, i < 64 → x.getLsbD i = y.getLsbD i) : x = y := by
  apply BitVec.eq_of_getLsbD_eq; intro i hi; exact h i hi

/-- A low half, sign-extended. -/
theorem signExtend_low32 {n : BitVec 32} {x : DWord} (h : n = x.setWidth 32) : n.signExtend 64 = low32 x := by rw [h, low32]

/-- ADD and ADD.W as R160 and R161 give them. -/
theorem wide2_add (w : Bool) (x y : DWord) : wide2 w opAdd x y = wide w (x + y) := by
  cases w
  · simp only [wide2, wide, opAdd, Bool.false_eq_true, if_false]
  · simp only [wide2, wide, opAdd, if_true]; exact signExtend_low32 (BitVec.setWidth_add x y (by omega)).symm

/-- SUB and SUB.W as R160 and R161 give them. -/
theorem wide2_sub (w : Bool) (x y : DWord) : wide2 w opSub x y = wide w (x - y) := by
  cases w
  · simp only [wide2, wide, opSub, Bool.false_eq_true, if_false]
  · simp only [wide2, wide, opSub, if_true]; apply signExtend_low32
    apply BitVec.eq_of_toNat_eq; simp only [BitVec.toNat_sub, BitVec.toNat_setWidth]; omega

/-- MUL and MUL.W as R160 and R161 give them. -/
theorem wide2_mul (w : Bool) (x y : DWord) : wide2 w opMul x y = wide w (x * y) := by
  cases w
  · simp only [wide2, wide, opMul, Bool.false_eq_true, if_false]
  · simp only [wide2, wide, opMul, if_true]; exact signExtend_low32 (BitVec.setWidth_mul x y (by omega)).symm

/-- The amount of a W shift. -/
theorem mod32_low (y : DWord) : (y.setWidth 32).toNat % 32 = y.toNat % 32 := by
  rw [BitVec.toNat_setWidth]; omega

/-- SLL and SLL.W as R160 and R161 give them. -/
theorem wide2_sll (w : Bool) (x y : DWord) : wide2 w opSll x y = wide w (x <<< amount w y) := by
  cases w
  · simp only [wide2, wide, opSll, amount, Bool.false_eq_true, if_false]
  · simp only [wide2, wide, opSll, amount, if_true, mod32_low]; apply signExtend_low32
    ext i hi; simp only [BitVec.getElem_shiftLeft, BitVec.getElem_setWidth,
      BitVec.getLsbD_setWidth, BitVec.getLsbD_shiftLeft]
    by_cases h : i < y.toNat % 32
    · simp [h]
    · simp [h, show i < 64 by omega, show i - y.toNat % 32 < 32 by omega]

/-- SRL and SRL.W as R160 and R161 give them. -/
theorem wide2_srl (w : Bool) (x y : DWord) : wide2 w opSrl x y = wide w (reads w x >>> amount w y) := by
  cases w
  · simp only [wide2, wide, opSrl, amount, reads, Bool.false_eq_true, if_false]
  · simp only [wide2, wide, opSrl, amount, reads, if_true, mod32_low, and_low32]; apply signExtend_low32
    ext i hi; simp only [BitVec.getElem_ushiftRight, BitVec.getElem_setWidth, BitVec.getLsbD_setWidth, BitVec.getLsbD_ushiftRight]
    have : y.toNat % 32 + i < 64 := by omega
    simp [this]

/-- SRA and SRA.W as R160 and R161 give them. -/
theorem wide2_sra (w : Bool) (x y : DWord) : wide2 w opSra x y = wide w ((wide w x).sshiftRight (amount w y)) := by
  cases w
  · simp only [wide2, wide, opSra, amount, Bool.false_eq_true, if_false]
  · simp only [wide2, wide, opSra, amount, if_true, mod32_low]; apply signExtend_low32
    apply BitVec.eq_of_getLsbD_eq; intro i hi
    simp only [BitVec.getLsbD_sshiftRight, BitVec.getLsbD_setWidth, low32_bit]
    have e : (low32 x).msb = x.getLsbD 31 := by rw [BitVec.msb_eq_getLsbD_last, low32_bit]; simp
    have e2 : (x.setWidth 32).msb = x.getLsbD 31 := by rw [BitVec.msb_eq_getLsbD_last]; simp
    rw [e, e2]
    have h64 : i < 64 := by omega
    simp only [hi, h64, show ¬ 32 ≤ i by omega, show ¬ 64 ≤ i by omega, decide_true, decide_false, Bool.not_false, Bool.true_and]
    by_cases h : y.toNat % 32 + i < 32
    · simp [h, show y.toNat % 32 + i < 64 by omega, show min (y.toNat % 32 + i) 31 = y.toNat % 32 + i by omega]
    · simp [h, show y.toNat % 32 + i < 64 by omega, show min (y.toNat % 32 + i) 31 = 31 by omega]

/-- ROL and ROL.W as R160 and R161 give them. -/
theorem wide2_rol (w : Bool) (x y : DWord) : wide2 w opRol x y = rotated w x (amount w y) := by
  cases w
  · simp only [wide2, opRol, amount, rotated, Bool.false_eq_true, if_false, BitVec.rotateLeft, BitVec.rotateLeftAux, Nat.mod_mod]
  · simp only [wide2, opRol, amount, rotated, if_true, mod32_low, and_low32]; apply signExtend_low32
    simp only [BitVec.rotateLeft, BitVec.rotateLeftAux, Nat.mod_mod]
    apply BitVec.eq_of_getLsbD_eq; intro i hi
    simp only [BitVec.getLsbD_or, BitVec.getLsbD_shiftLeft, BitVec.getLsbD_ushiftRight, BitVec.getLsbD_setWidth]
    have h64 : i < 64 := by omega
    simp only [hi, h64, decide_true, Bool.true_and]
    by_cases h : 32 - y.toNat % 32 + i < 32
    · simp [h, show 32 - y.toNat % 32 + i < 64 by omega, show i - y.toNat % 32 < 32 by omega, show i - y.toNat % 32 < 64 by omega]
    · simp [h, show i - y.toNat % 32 < 32 by omega, show i - y.toNat % 32 < 64 by omega]

/-- A compare writes 1 or 0. -/
theorem flag_eq_bit (p : Prop) [Decidable p] (b : Bool) (h : b = decide p) : flag b = bit p := by
  subst h; by_cases hp : p <;> simp [flag, bit, hp]

/-- MIN as R160 gives it. -/
theorem opMin_eq (x y : DWord) : opMin 64 x y = if x.toInt ≤ y.toInt then x else y := by
  unfold opMin; rw [BitVec.slt_eq_decide]
  by_cases h : x.toInt ≤ y.toInt
  · simp [h, show ¬ y.toInt < x.toInt by omega]
  · simp [h, show y.toInt < x.toInt by omega]

/-- MAX as R160 gives it. -/
theorem opMax_eq (x y : DWord) : opMax 64 x y = if x.toInt ≤ y.toInt then y else x := by
  unfold opMax; rw [BitVec.slt_eq_decide]
  by_cases h : x.toInt ≤ y.toInt
  · by_cases h2 : x.toInt < y.toInt
    · simp [h, h2]
    · simp [h, h2, BitVec.eq_of_toInt_eq (show x.toInt = y.toInt by omega)]
  · simp [h, show ¬ x.toInt < y.toInt by omega]

/-- MINU as R160 gives it. -/
theorem opMinu_eq (x y : DWord) : opMinu 64 x y = if x.toNat ≤ y.toNat then x else y := by
  unfold opMinu; rw [BitVec.ult_eq_decide]
  by_cases h : x.toNat ≤ y.toNat
  · simp [h, show ¬ y.toNat < x.toNat by omega]
  · simp [h, show y.toNat < x.toNat by omega]

/-- MAXU as R160 gives it. -/
theorem opMaxu_eq (x y : DWord) : opMaxu 64 x y = if x.toNat ≤ y.toNat then y else x := by
  unfold opMaxu; rw [BitVec.ult_eq_decide]
  by_cases h : x.toNat ≤ y.toNat
  · by_cases h2 : x.toNat < y.toNat
    · simp [h, h2]
    · simp [h, h2, BitVec.eq_of_toNat_eq (show x.toNat = y.toNat by omega)]
  · simp [h, show ¬ x.toNat < y.toNat by omega]

/-- An immediate amount. -/
theorem toNat_amount (n : BitVec 6) : (n.setWidth 64).toNat % 64 = n.toNat := by rw [BitVec.toNat_setWidth]; omega

/-- A division by a divisor that is not zero, as the form reads it, retires with its value. -/
theorem divOp_next {i w d a b f s} {v : DWord} (hr : Ready i s) (hz : reads w (s.opB b) ≠ 0#64)
    (hv : wide2 w f (s.reg a) (s.opB b) = v) :
   divOp i w d a b f s = .next (retire i (s.setReg d v)) := by
  rw [divOp, run_ready hr]
  have : ¬ (if w then (s.opB b).setWidth 32 = 0#32 else s.opB b = 0#64) := by
    cases w
    · simpa [reads] using hz
    · simp only [if_true]; intro h; apply hz; simp only [reads, if_true, and_low32, h]; rfl
  simp only [if_neg this, hv, done]

/-- A low half as a signed number. -/
theorem toInt_low32 (x : DWord) : (low32 x).toInt = (x.setWidth 32).toInt := by
  rw [low32, BitVec.toInt_signExtend_of_le (by decide)]

end Sys2Proof.Machine
end

