-- ==== Sys2Proof/Laws/Xlate.lean ====
section
/-! SUPPORT. What translation, fetch and taking an exception do to memory: a translation fills caches and
changes nothing else; a trap changes memory through its trace record only. -/

namespace Sys2Proof.Machine
open Sys2Proof

/-! ## Translation (R60 to R65) fills caches only -/

/-- A die's translation changes its caches only. -/
theorem fillDie_frame (s : State) (d p va : Nat) : ({ (fillDie s d p va).2 with dies := s.dies } : State) = s := by
  unfold fillDie; split
  · rfl
  · split <;> rfl

/-- A cluster's translation changes caches only. -/
theorem fillCluster_frame (s : State) (c p va : Nat) :
    ({ (fillCluster s c p va).2 with dies := s.dies, clusters := s.clusters } : State) = s := by
  unfold fillCluster; split
  · rfl
  · have h := fillDie_frame s (c / 8) p va
    split <;> (rename_i e; rw [e] at h; exact congrArg (fun t : State => ({ t with clusters := s.clusters } : State)) h)

/-- A core's translation changes caches only. -/
theorem fillCore_frame (s : State) (c p va : Nat) :
    ({ (fillCore s c p va).2 with dies := s.dies, clusters := s.clusters, cores := s.cores } : State) = s := by
  unfold fillCore; split
  · rfl
  · have h := fillCluster_frame s (clusterOfCore c) p va
    split <;> (rename_i e; rw [e] at h; exact congrArg (fun t : State => ({ t with cores := s.cores } : State)) h)

/-- A translation in one action leaves memory as it is. -/
@[simp] theorem translateNow_mem (s : State) (lv : TlbLevel) (p va : Nat) : (translateNow s lv p va).2.mem = s.mem := by
  cases lv with
  | core c => have h := congrArg State.mem (fillCore_frame s c p va); exact h
  | cluster c => have h := congrArg State.mem (fillCluster_frame s c p va); exact h
  | die d => have h := congrArg State.mem (fillDie_frame s d p va); exact h
  | io => rfl

/-- A miss leaves memory as it is. -/
@[simp] theorem missed_mem (s : State) (lv : TlbLevel) (p va : Nat) : (missed s lv p va).2.mem = s.mem := by
  unfold missed; dsimp only; split
  · rfl
  · split
    · rfl
    · exact translateNow_mem ..

/-- A translation leaves memory as it is. -/
@[simp] theorem translate_mem (now : Bool) (s : State) (lv : TlbLevel) (p va : Nat) :
    (translate now s lv p va).2.mem = s.mem := by
  unfold translate; split
  · exact translateNow_mem ..
  · exact missed_mem ..

/-- Finding a page's place leaves memory as it is. -/
@[simp] theorem pagedBy_mem (now : Bool) (s : State) (lv : TlbLevel) (p : Nat) (a : Access) (va : Nat) :
    (pagedBy now s lv p a va).2.mem = s.mem := by
  have h := translate_mem now s lv p va
  unfold pagedBy; split
  · rfl
  · split
    · rename_i e; rw [e] at h; exact h
    · rename_i e; rw [e] at h; split <;> exact h

/-- Finding an address's place leaves memory as it is. -/
@[simp] theorem locateBy_mem (now : Bool) (s : State) (lv : TlbLevel) (c p : Nat) (a : Access) (va n : Nat) :
    (locateBy now s lv c p a va n).2.mem = s.mem := by
  unfold locateBy; split
  · rfl
  · split
    · split
      · rfl
      · split <;> rfl
      · split <;> rfl
      · rfl
    · exact pagedBy_mem ..

/-- The checks of a scalar access leave memory as it is. -/
@[simp] theorem scalarPlace_mem (s : State) (k : Nat) (a : Access) (va : DWord) (n m : Nat) :
    (scalarPlace s k a va n m).2.mem = s.mem := by
  unfold scalarPlace; dsimp only
  split
  · rfl
  · split
    · rfl
    · split
      · rfl
      · have h : (locate s (.core (coreOf k)) (coreOf k) (s.pasidOf k) a va.toNat n).2.mem = s.mem := locateBy_mem ..
        split <;> (rename_i e; rw [e] at h; exact h)

/-! ## Fetch (R22, R56) -/

/-- Finding a fetched word's home leaves memory as it is. -/
@[simp] theorem fetchHome_mem (s : State) (k va : Nat) : (fetchHome s k va).2.mem = s.mem := by
  unfold fetchHome; dsimp only
  split
  · rfl
  · split
    · rfl
    · split
      · rfl
      · split
        · split <;> rfl
        · have h : (paged s (.core (coreOf k)) (s.pasidOf k) .fetch va).2.mem = s.mem := pagedBy_mem ..
          split <;> (rename_i e; rw [e] at h; exact h)

/-- A request to a host or peer page leaves memory as it is. -/
@[simp] theorem ioPcie_mem (s : State) (o : IoOwner) (pasid h n va : Nat) : (ioPcie s o pasid h n va).2.mem = s.mem := by
  unfold ioPcie; split
  · rfl
  · split <;> rfl

/-- A fetched word leaves memory as it is. -/
@[simp] theorem fetchWord_mem (s : State) (k va : Nat) : (fetchWord s k va).2.mem = s.mem := by
  have h := fetchHome_mem s k va
  unfold fetchWord
  split <;> (rename_i e; rw [e] at h)
  · exact h
  · split <;> exact h
  · rename_i a _ t
    have g := ioPcie_mem t (.fetch k) (t.pasidOf k) a 4 va
    split <;> (rename_i e2; rw [e2] at g; exact g.trans h)
  · exact h

/-- More fetched words leave memory as it is. -/
@[simp] theorem fetchMore_mem (k n : Nat) : ∀ (s : State) (va : Nat), (fetchMore s k n va).2.mem = s.mem := by
  induction n with
  | zero => exact fun _ _ => rfl
  | succ n ih =>
    intro s va
    have h := fetchWord_mem s k (va % 2 ^ 64)
    unfold fetchMore
    split
    · rename_i e; rw [e] at h; exact h
    · rename_i t e; rw [e] at h
      have h2 := ih t (va + 4)
      split <;> (rename_i e2; rw [e2] at h2; exact h2.trans h)

/-- A fetched instruction leaves memory as it is. -/
@[simp] theorem fetchInstr_mem (s : State) (k va : Nat) : (fetchInstr s k va).2.mem = s.mem := by
  have h := fetchWord_mem s k va
  unfold fetchInstr
  split
  · rename_i e; rw [e] at h; exact h
  · rename_i w t e; rw [e] at h
    have h2 := fetchMore_mem k (wordCount w - 1) t (va + 4)
    split <;> (rename_i e2; rw [e2] at h2; exact h2.trans h)

/-! ## Taking an exception (R335, R336) -/

/-- A trace record that is put keeps the canonical form. -/
theorem putTrace_wf {s : State} (hs : memWf s.mem = true) (r : TraceRec) : memWf (putTrace s r).2.mem = true := by
  have hp : ∀ (t : State) (q : Except XErr Place),
      paged s (.core r.core) r.pasid .store ((s.core r.core).trcbase.toNat / 4096 % 2 ^ 44 * 4096 +
        32 * ((s.core r.core).trchead.toNat % 2 ^ 32 % (128 * 2 ^ ((s.core r.core).trcbase.toNat % 16)))) = (q, t) →
      memWf t.mem = true := by
    intro t q e
    have h := congrArg (fun q => q.2.mem) e
    simp only [pagedBy_mem] at h
    exact h ▸ hs
  unfold putTrace; dsimp only
  split
  · exact hs
  · split
    · rename_i e; exact issueWrite_wf (issueWrite_wf (hp _ _ e) ..) ..
    · rename_i e; exact issueWrite_wf (issueWrite_wf (hp _ _ e) ..) ..
    · rename_i e; have h := hp _ _ e; exact h
    · rename_i e; have h := hp _ _ e; cases r.launch <;> exact h
    · rename_i e; have h := hp _ _ e; exact h

/-- A trace record keeps the canonical form. -/
theorem trace_wf {s : State} (hs : memWf s.mem = true) (c kind num : Nat) (a b : DWord) :
    memWf (trace s c kind num a b).mem = true := by
  unfold trace; dsimp only
  split
  · exact hs
  · split
    · rename_i e; split at e
      · cases e
      · exact (congrArg (fun q => memWf q.2.mem) e).symm.trans (putTrace_wf hs _)
    · rename_i e; split at e
      · cases e; exact hs
      · exact (congrArg (fun q => memWf q.2.mem) e).symm.trans (putTrace_wf hs _)

/-- A context that freezes leaves memory as it is. -/
@[simp] theorem freeze_mem (s : State) (k c1 c2 : Nat) (v p f q : DWord) : (freeze s k c1 c2 v p f q).mem = s.mem := by
  unfold freeze; dsimp only; split <;> rfl

/-- The entry of a trap whose handler was fetched keeps the canonical form. -/
theorem enterTrap_wf {s : State} (hs : memWf s.mem = true) (k len cause : Nat) (v : DWord) :
    memWf (takeTrap.enterTrap s k len cause v).mem = true := by
  unfold takeTrap.enterTrap
  exact trace_wf (s := releaseRep _ k) (by show memWf _ = true; exact hs) ..

/-- A trap keeps the canonical form. -/
theorem takeTrap_wf {s : State} (hs : memWf s.mem = true) (k len cause : Nat) (v : DWord) :
    memWf (takeTrap s k len cause v).mem = true := by
  have h := fetchInstr_mem s k (s.ctx k).xvec.toNat
  unfold takeTrap; dsimp only
  split
  · rw [freeze_mem]; exact hs
  · split
    · rw [freeze_mem]; exact hs
    · split
      · rename_i e; rw [e] at h; replace hs := (congrArg (memWf ·) h).trans hs
        split
        · exact hs
        · split
          · rw [(poisonLaunch_same ..).1]; exact hs
          · rw [freeze_mem]; exact hs
      · rename_i s' e; rw [e] at h
        replace hs : memWf s'.mem = true := (congrArg (memWf ·) h).trans hs
        exact enterTrap_wf (s := ioClear s' (.fetch k)) hs ..

end Sys2Proof.Machine
end

