-- ==== Sys2Proof/Tests/Slice0.lean ====
section
/-! SUPPORT. Small tests: ill-formed terms, words of the encoding tables, results of single steps, and
for each statement with hypotheses a state that meets them. -/

namespace Sys2Proof.Tests
open Sys2Proof Sys2Proof.Machine Sys2Proof.Claims

-- The tests are checked one after another: many at a time would hold a thread each.
set_option Elab.async false

/-! ## Decoding: words laid out from the rows of spec/opcode_table.json and, for form E, from R28 and
the tables of R40, each field at a value of its own -/

/-- The order fields of the engine words below. -/
def oe : EOrd := { wait := 0xA5#8, sT := 21#5, trapf := true, rel := false, det := true, pri := 2#2, slot := some 6#3 }

/-- The order fields of the vector words below. -/
def ov : VOrd := { wait := 0xA5#8, trapf := true, rel := false, pri := 2#2, slot := some 6#3 }

/-- Every word list decodes to its instruction. -/
abbrev Decodes (l : List (List Word × Instr)) : Prop := ∀ p ∈ l, decodeList p.1 = some p.2

/-! ## Small states -/

/-- A running control context in the private TCM, with a handler. -/
def ctx0 : Ctx :=
  { Ctx.fresh with mode := .running, pc := 0xFFF00000000000#64, xvec := 0xFFF00000000100#64 }

/-- A header of the smallest kernel. -/
def hdr0 : Header :=
  { regs := 32, mode := 0, early := 0, kind := 1, entry := 64, code := 1, bind := 0, tcm := 4096, spm := 0, gtab := 0,
    gcount := 0 }

/-- A barrier group of two ranks. -/
def group0 : Group :=
  { gnum := 3, xmod := false, adopter := 1, members := [0, 1], arrived := [], waited := [], completed := 0,
    arrivals := [], results := [] }

/-- Group 255, of every rank. -/
def group255 : Group := { group0 with gnum := 255, adopter := 0 }

/-- A launch of two ranks, on cores 0 and 1 of cluster 0. -/
def launch0 : Launch :=
  { id := 1, key := 5, ringIdx := 0, pasid := 5, row0 := 0, col0 := 0, rows := 1, cols := 2, arg := 0#64,
    caddr := 0#64, cval := 0#64, imb := 0#64, imblog := 0, hdrVa := 0#64, hdr := hdr0, image := 128,
    groups := [group0, group255], ranges := [{ next := 0, stop := 100, minchunk := 4, part := 2 }], leader := 0,
    candidate := none, released := some 0, fatal := none }

/-- Core 0 as rank 0 of it, with the group in slot 1. -/
def core0 : Core :=
  { Core.fresh with launch := some 1, rank := 0, nranks := 2, pasid := 5, grpslot := #v[0#64, 0x103#64, 0#64, 0#64] }

/-- The module with power and firmware, and core 0 running. -/
def base : State :=
  { State.reset with power := true, released := true, ctxs := [(0, ctx0)],
                     cores := [(0, core0), (1, { core0 with rank := 1 })], launches := [launch0] }

/-- With the context that issues changed, -/
def withMe (f : Ctx → Ctx) : State := base.modMe f

/-- with its core changed, -/
def withCore (f : Core → Core) : State := base.modCore 0 f

/-- with values in scalar registers, -/
def withRegs (l : List (SReg × DWord)) : State := l.foldl (fun s p => s.setReg p.1 p.2) base

/-- and in handle registers. -/
def withH (s : State) (l : List (HReg × HWord)) : State := l.foldl (fun s p => s.setHreg p.1 p.2) s

/-- A DENSE handle (R80): `r` rows of `c` elements of format `f` at `b`, packed. -/
def dense (f b r c : Nat) : HWord :=
  hMake (BitVec.ofNat 64 (2 ^ 60 + f * 2 ^ 56 + b)) (BitVec.ofNat 64 (r + c * 2 ^ 16 + c * 2 ^ 32)) 0#64 0#64

/-- A RING handle (R83): `n` slots of `k` × 64 bytes at `b`, for one row of `c` f32 elements, ring `r`. -/
def ringH (b c n k r : Nat) : HWord :=
  hMake (BitVec.ofNat 64 (2 * 2 ^ 60 + 2 ^ 56 + b)) (BitVec.ofNat 64 (1 + c * 2 ^ 16 + c * 2 ^ 32))
    (BitVec.ofNat 64 (n + k * 2 ^ 16 + r * 2 ^ 32)) 0#64

/-- The page of 512 KiB at VA 0, readable, writable and executable, at PA 2^20, as a TLB holds it (R60). -/
def page0 : TlbEnt := { pasid := 5, va := 0, size := 19, leaf := 0x10001D#64 }

/-- With that page cached by core 0, its cluster and its die, so that addresses below 2^19 translate. -/
def cached (s : State) : State :=
  ((s.modCore 0 (fun c => { c with utlb := [page0] })).modCluster 0 (fun c => { c with tlb := [page0] })).modDie 0
    (fun d => { d with tlb := [page0] })

/-- The page of 512 KiB at VA 0 as one of the host's. -/
def hostPage : TlbEnt := { page0 with leaf := 0x800000010001D#64 }

/-- With that page cached. -/
def hosted (s : State) : State :=
  ((s.modCore 0 (fun c => { c with utlb := [hostPage] })).modCluster 0 (fun c => { c with tlb := [hostPage] })).modDie 0
    (fun d => { d with tlb := [hostPage] })

/-- A routine header (R46, R293) of `regs` registers, its entry behind it. -/
def routineBytes (regs : Nat) : List Byte :=
  leBytes 4 0x4B574D44 ++ leBytes 2 1 ++ leBytes 1 regs ++ leBytes 5 0 ++ leBytes 4 64 ++ leBytes 4 1 ++ leBytes 44 0

/-- The header as it is read. -/
def routineHdr (regs : Nat) : Header := { hdr0 with regs := regs, kind := 0, tcm := 0 }

/-- With bytes at an address of the private TCM. -/
def withTcm (s : State) (a : Nat) (bs : List Byte) : State := { s with mem := memWrite (tcmHome 0 a) bs s.mem }

/-- With a wait of the context that issues. -/
def waits (w : WaitFor) (i : Instr) (s : State) : State :=
  s.modMe (fun c => { c with wait := some { what := w, since := 0, limit := 0, arrival := 0, instr := i } })

/-- A pair from its first part. -/
theorem pairOf {α β : Type} {p : α × β} {a : α} (h : p.1 = a) : p = (a, p.2) := by cases h; rfl

/-- An answer from what it holds. -/
theorem okOf {ε α : Type} {x : Except ε α} {a : α} (h : x.toOption = some a) : x = .ok a := by
  cases x <;> simp_all [Except.toOption]

/-- An answer and its state, from what each is. -/
theorem answerOf {ε α σ : Type} {p : Except ε α × σ} {a : α} {t : σ} (h : p.1.toOption = some a) (ht : p.2 = t) :
    p = (.ok a, t) := by
  rw [← okOf h, ← ht]

/-- A next state from the kind of the outcome. -/
theorem nextOf {o : Out} (h : (match o with | .next _ => true | _ => false) = true) : ∃ t, o = .next t := by
  cases o <;> simp_all

/-- What an option holds, from a test of it. -/
theorem someOf {α : Type} {x : Option α} {p : α → Prop} [DecidablePred p] (h : x.any (fun a => decide (p a)) = true) :
    ∃ a, x = some a ∧ p a := by
  cases x <;> simp_all

/-- An answer with its state, from what the answer holds. -/
theorem fetched {ε α σ : Type} {p : Except ε α × σ} {a : α} (h : p.1.toOption = some a) : ∃ t, p = (.ok a, t) :=
  ⟨p.2, pairOf (okOf h)⟩

/-- The queue table at PA 0, and the page directory with the tables that map the 512 KiB at VA 0 of PASID 5
to PA 2^20, readable, writable and executable (R59, R60). -/
def mapped : State :=
  { base with
      qtbase := 0#64, pdirbase := 0x40000#64, pdircount := 16#64,
      mem := memWrite 0x40050 (leBytes 8 0x41001) (memWrite 0x41000 (leBytes 8 0x42001) (memWrite 0x42000 (leBytes 8 0x43001)
        (memWrite 0x43000 (leBytes 8 0x44001) (memWrite 0x44000 (leBytes 8 0x10001F) []))))  }

/-- The key of queue 1 of PASID 5. -/
def key0 : Nat := qkey 5 1 0

/-- With that queue (R278): its ring of two packets at VA 0x8000, HEAD 0, TAIL, and its STATE. -/
def queued (s : State) (tail state : Nat) : State :=
  { s with mem := memWrite (bucketAddr s (homeBucket key0)) (leBytes 8 (2 ^ 63 + key0) ++ leBytes 8 0x8000 ++ leBytes 4 2 ++
      leBytes 2 0 ++ leBytes 2 tail ++ leBytes 1 state) s.mem, liveGen := [(5, 1, 0)], setUp := [0x18, 0x20, 0x28] }

/-- Words of the integer (R160 to R162) rows. -/
theorem test_decode_integer1 : Decodes [
  ([0x800CBA81#32], .add true 21#5 11#5 (.reg 6#5)),
  ([0x808CBA81#32], .sub true 21#5 11#5 (.reg 6#5)),
  ([0x010CBA81#32], .and 21#5 11#5 (.reg 6#5)),
  ([0x018CBA81#32], .or 21#5 11#5 (.reg 6#5)),
  ([0x020CBA81#32], .xor 21#5 11#5 (.reg 6#5)),
  ([0x028CBA81#32], .andn 21#5 11#5 (.reg 6#5)),
  ([0x830CBA81#32], .sll true 21#5 11#5 (.reg 6#5)),
  ([0x838CBA81#32], .srl true 21#5 11#5 (.reg 6#5)),
  ([0x840CBA81#32], .sra true 21#5 11#5 (.reg 6#5)),
  ([0x848CBA81#32], .rol true 21#5 11#5 (.reg 6#5)),
  ([0x050CBA81#32], .slt 21#5 11#5 (.reg 6#5)),
  ([0x058CBA81#32], .sltu 21#5 11#5 (.reg 6#5)),
  ([0x060CBA81#32], .min 21#5 11#5 (.reg 6#5))] := by decide

/-- Words of the integer (R160 to R162) rows. -/
theorem test_decode_integer2 : Decodes [
  ([0x068CBA81#32], .max 21#5 11#5 (.reg 6#5)),
  ([0x070CBA81#32], .minu 21#5 11#5 (.reg 6#5)),
  ([0x078CBA81#32], .maxu 21#5 11#5 (.reg 6#5)),
  ([0x880CBA81#32], .mul true 21#5 11#5 (.reg 6#5)),
  ([0x088CBA81#32], .mulh 21#5 11#5 (.reg 6#5)),
  ([0x090CBA81#32], .mulhu 21#5 11#5 (.reg 6#5)),
  ([0x898CBA81#32], .div true 21#5 11#5 (.reg 6#5)),
  ([0x8A0CBA81#32], .divu true 21#5 11#5 (.reg 6#5)),
  ([0x8A8CBA81#32], .rem true 21#5 11#5 (.reg 6#5)),
  ([0x8B0CBA81#32], .remu true 21#5 11#5 (.reg 6#5)),
  ([0x2B8CBA81#32], .shadd 2#2 21#5 11#5 (.reg 6#5)),
  ([0x0C0CBA81#32], .sel 21#5 11#5 (.reg 6#5))] := by decide

/-- Words of the bit (R163) rows. -/
theorem test_decode_bit : Decodes [
  ([0x8000BA82#32], .clz true 21#5 11#5),
  ([0x8080BA82#32], .ctz true 21#5 11#5),
  ([0x8100BA82#32], .popc true 21#5 11#5),
  ([0x8180BA82#32], .brev true 21#5 11#5),
  ([0x8200BA82#32], .bswap true 21#5 11#5),
  ([0x028CBA82#32], .sext 21#5 11#5 (.reg 6#5)),
  ([0x030CBA82#32], .zext 21#5 11#5 (.reg 6#5)),
  ([0x038CBA82#32], .ext 21#5 11#5 (.reg 6#5)),
  ([0x040CBA82#32], .ins 21#5 11#5 (.reg 6#5))] := by decide

/-- Words of the form I (R164) rows. -/
theorem test_decode_immediate : Decodes [
  ([0x8246BA83#32], .addi 21#5 11#5 16675#15),
  ([0x8246BA84#32], .andi 21#5 11#5 16675#15),
  ([0x8246BA85#32], .ori 21#5 11#5 16675#15),
  ([0x8246BA86#32], .xori 21#5 11#5 16675#15),
  ([0x8246BA87#32], .slti 21#5 11#5 16675#15),
  ([0x8246BA88#32], .sltiu 21#5 11#5 16675#15),
  ([0x8246BAA2#32], .jalr 16675#15 11#5 21#5),
  ([0x2246B023#32], .loop 4387#15 11#5),
  ([0x82460029#32], .trap 16675#15),
  ([0x8246002B#32], .brk 16675#15)] := by decide

/-- Words of the immediate shift (R165) rows. -/
theorem test_decode_shift : Decodes [
  ([0x004ABA89#32], .slli 21#5 11#5 37#6),
  ([0x404ABA89#32], .srli 21#5 11#5 37#6),
  ([0x804ABA89#32], .srai 21#5 11#5 37#6),
  ([0xC04ABA89#32], .roli 21#5 11#5 37#6)] := by decide

/-- Words of the floating-point (R166 to R170) rows. -/
theorem test_decode_float1 : Decodes [
  ([0x700CBA8A#32], .fadd 3#2 true 21#5 11#5 (.reg 6#5)),
  ([0x708CBA8A#32], .fsub 3#2 true 21#5 11#5 (.reg 6#5)),
  ([0x710CBA8A#32], .fmul 3#2 true 21#5 11#5 (.reg 6#5)),
  ([0x718CBA8A#32], .fdiv 3#2 true 21#5 11#5 (.reg 6#5)),
  ([0x7200BA8A#32], .fsqrt 3#2 true 21#5 11#5),
  ([0x128CBA8A#32], .fmin true 21#5 11#5 (.reg 6#5)),
  ([0x130CBA8A#32], .fmax true 21#5 11#5 (.reg 6#5)),
  ([0x738CBA8A#32], .fma 3#2 true 21#5 11#5 (.reg 6#5)),
  ([0x740CBA8A#32], .fnma 3#2 true 21#5 11#5 (.reg 6#5)),
  ([0x148CBA8A#32], .feq true 21#5 11#5 (.reg 6#5)),
  ([0x150CBA8A#32], .flt true 21#5 11#5 (.reg 6#5)),
  ([0x158CBA8A#32], .fle true 21#5 11#5 (.reg 6#5)),
  ([0x1600BA8A#32], .fclass true 21#5 11#5)] := by decide

/-- Words of the floating-point (R166 to R170) rows. -/
theorem test_decode_float2 : Decodes [
  ([0x669ABA8A#32], .fcvt 3#2 13#5 21#5 11#5),
  ([0x170CBA8A#32], .fsgnJ true 21#5 11#5 (.reg 6#5)),
  ([0x370CBA8A#32], .fsgnJn true 21#5 11#5 (.reg 6#5)),
  ([0x570CBA8A#32], .fsgnJx true 21#5 11#5 (.reg 6#5))] := by decide

/-- Words of the form M (R172 to R175) rows. -/
theorem test_decode_memory : Decodes [
  ([0x0DCCB990#32], .ld true 5#3 3#2 6#5 11#5 19#5),
  ([0x2DCCB990#32], .ldFe true 5#3 3#2 6#5 11#5 19#5),
  ([0x4DCCB990#32], .ldFec true 5#3 3#2 6#5 11#5 19#5),
  ([0x0ACCB991#32], .st true 2#2 3#2 6#5 11#5 19#5),
  ([0x6ACCB991#32], .stFes true 2#2 3#2 6#5 11#5 19#5),
  ([0x8ACCB991#32], .stFee true 2#2 3#2 6#5 11#5 19#5)] := by decide

/-- Words of the displacement (R172 to R177) rows. -/
theorem test_decode_displacement : Decodes [
  ([0x816AB992#32], .ldi 517#10 5#3 true 11#5 19#5),
  ([0x8152B993#32], .sti 517#10 2#2 true 11#5 19#5),
  ([0x8158B016#32], .pref 517#10 11#5)] := by decide

/-- Words of the atomic (R178) rows. -/
theorem test_decode_atomic : Decodes [
  ([0x940CBA94#32], .amoAdd 4#3 2#2 true 6#5 11#5 21#5),
  ([0x944CBA94#32], .amoAnd 4#3 2#2 true 6#5 11#5 21#5),
  ([0x948CBA94#32], .amoOr 4#3 2#2 true 6#5 11#5 21#5),
  ([0x94CCBA94#32], .amoXor 4#3 2#2 true 6#5 11#5 21#5),
  ([0x950CBA94#32], .amoMin 4#3 2#2 true 6#5 11#5 21#5),
  ([0x954CBA94#32], .amoMax 4#3 2#2 true 6#5 11#5 21#5),
  ([0x958CBA94#32], .amoMinu 4#3 2#2 true 6#5 11#5 21#5),
  ([0x95CCBA94#32], .amoMaxu 4#3 2#2 true 6#5 11#5 21#5),
  ([0x960CBA94#32], .amoSwap 4#3 2#2 true 6#5 11#5 21#5),
  ([0x940CBA95#32], .cas 4#3 2#2 true 6#5 11#5 21#5)] := by decide

/-- Words of the branch (R181) rows. -/
theorem test_decode_branch : Decodes [
  ([0x80A065A0#32], .beq 1029#11 6#5 11#5),
  ([0x80A265A0#32], .bne 1029#11 6#5 11#5),
  ([0x80A465A0#32], .blt 1029#11 6#5 11#5),
  ([0x80A665A0#32], .bge 1029#11 6#5 11#5),
  ([0x80A865A0#32], .bltu 1029#11 6#5 11#5),
  ([0x80AA65A0#32], .bgeu 1029#11 6#5 11#5)] := by decide

/-- Words of the CSR (R187) rows. -/
theorem test_decode_csr : Decodes [
  ([0x02020AA8#32], .csrr 257#12 21#5),
  ([0x240CBAA8#32], .csrw 518#12 11#5 21#5),
  ([0x440CBAA8#32], .csrs 518#12 11#5 21#5),
  ([0x640CBAA8#32], .csrc 518#12 11#5 21#5)] := by decide

/-- Words of the handle (R93, R94) rows. -/
theorem test_decode_handle : Decodes [
  ([0x85068230#32], .hld 133#8 13#5 4#4),
  ([0x8516C830#32], .hst 133#8 13#5 9#4),
  ([0x0226C830#32], .hget 2#2 13#5 9#4),
  ([0x0236CA30#32], .hset 2#2 13#5 9#4 4#4),
  ([0x00404A30#32], .hmov 9#4 4#4),
  ([0x0256CA30#32], .hadv 2#2 13#5 9#4 4#4),
  ([0x0166C830#32], .hchk true 13#5 9#4)] := by decide

/-- Words of the system (R41) rows. -/
theorem test_decode_system1 : Decodes [
  ([0x000CBAB1#32], .start 21#5 11#5 6#5),
  ([0x0080B031#32], .hexit 11#5),
  ([0x010CBAB1#32], .hjoin 21#5 11#5 6#5),
  ([0x0180BAB1#32], .hstat 21#5 11#5),
  ([0x000C3032#32], .bara 3#2 6#5),
  ([0x00803AB2#32], .barw 21#5 3#2),
  ([0x010C3AB2#32], .bar 21#5 3#2 6#5),
  ([0x01800AB2#32], .exch 21#5),
  ([0x02000AB2#32], .step 21#5),
  ([0x028CB032#32], .msend 11#5 6#5),
  ([0x0300BAB2#32], .mrecv 21#5 11#5),
  ([0x000CBAB3#32], .enq 21#5 11#5 6#5),
  ([0x00800AB3#32], .rdone 21#5)] := by decide

/-- Words of the system (R41) rows. -/
theorem test_decode_system2 : Decodes [
  ([0x0100BAB3#32], .grab 21#5 11#5),
  ([0x0200B033#32], .sleepto 11#5),
  ([0x0000BAB4#32], .waitt 21#5 11#5),
  ([0x0080BAB4#32], .tstat 21#5 11#5),
  ([0x0100BAB4#32], .cancel 21#5 11#5),
  ([0x018CBAB4#32], .detach 21#5 11#5 6#5),
  ([0x0200BAB4#32], .adopt 21#5 11#5),
  ([0x028CBAB4#32], .tpri 21#5 11#5 6#5),
  ([0x030CBAB4#32], .tfrec 21#5 11#5 6#5),
  ([0x0380BAB4#32], .waits 21#5 11#5),
  ([0x0080BAB5#32], .rgwait 21#5 11#5),
  ([0x0100B035#32], .rgrel 11#5),
  ([0x0180BAB5#32], .rgstat 21#5 11#5)] := by decide

/-- Words of the system (R41) rows. -/
theorem test_decode_system3 : Decodes [
  ([0x0000BAB6#32], .hacq 21#5 11#5),
  ([0x0080BAB6#32], .hrel 21#5 11#5),
  ([0x0100BAB6#32], .hinfo 21#5 11#5),
  ([0x000CBAB7#32], .qsub 21#5 11#5 6#5),
  ([0x0080BAB7#32], .qstat 21#5 11#5),
  ([0x0080BAB8#32], .unbind 21#5 11#5)] := by decide

/-- Words of the copy engine (R115, R100, R101) rows. -/
theorem test_decode_copy : Decodes [
  ([0xA5A984E0#32, 0x1E4D016E#32], .copy oe 3#4 9#4 13#5 18#5 7#5),
  ([0xA5A984E0#32, 0x000D036E#32], .copym oe 3#4 9#4 13#5),
  ([0xA5A984E0#32, 0x000D056E#32], .pack oe 3#4 9#4 13#5),
  ([0xA5A984E0#32, 0x000D076E#32], .unpack oe 3#4 9#4 13#5)] := by decide

/-- Words of the vector (R233) rows. -/
theorem test_decode_vector1 : Decodes [
  ([0xA501B4E5#32, 0x0000C12E#32], .vadd 3#2 ov 3#4 9#4 6#4),
  ([0xA501B4E5#32, 0x0000C32E#32], .vsub 3#2 ov 3#4 9#4 6#4),
  ([0xA501B4E5#32, 0x0000C52E#32], .vmul 3#2 ov 3#4 9#4 6#4),
  ([0xA501B4E5#32, 0x0000C72E#32], .vfma 3#2 ov 3#4 9#4 6#4),
  ([0xA501B4E5#32, 0x0000C92E#32], .vmax 3#2 ov 3#4 9#4 6#4),
  ([0xA501B4E5#32, 0x0000CB2E#32], .vmin 3#2 ov 3#4 9#4 6#4),
  ([0xA50184E5#32, 0x0000CD2E#32], .vabs 3#2 ov 3#4 9#4),
  ([0xA50184E5#32, 0x0000CF2E#32], .vneg 3#2 ov 3#4 9#4),
  ([0xA50184E5#32, 0x0000D12E#32], .vexp 3#2 ov 3#4 9#4),
  ([0xA50184E5#32, 0x0000D32E#32], .vlog 3#2 ov 3#4 9#4),
  ([0xA50184E5#32, 0x0000D52E#32], .vrcp 3#2 ov 3#4 9#4),
  ([0xA50184E5#32, 0x0000D72E#32], .vrsq 3#2 ov 3#4 9#4),
  ([0xA50184E5#32, 0x0000D92E#32], .vtanh 3#2 ov 3#4 9#4)] := by decide

/-- Words of the vector (R233) rows. -/
theorem test_decode_vector2 : Decodes [
  ([0xA501B4E5#32, 0x000DDB2E#32], .vcmp 3#2 ov 3#4 9#4 6#4 13#5),
  ([0xA501B4E5#32, 0x0000DD2E#32], .vsel 3#2 ov 3#4 9#4 6#4),
  ([0xA50184E5#32, 0x0000DF2E#32], .vcvt 3#2 ov 3#4 9#4),
  ([0xA50184E5#32, 0x000DE12E#32], .vscl 3#2 ov 3#4 9#4 13#5),
  ([0xA50184E5#32, 0x0000E32E#32], .vreds 3#2 ov 3#4 9#4),
  ([0xA50184E5#32, 0x0000E52E#32], .vredm 3#2 ov 3#4 9#4),
  ([0xA50184E5#32, 0x0000E72E#32], .vscan 3#2 ov 3#4 9#4)] := by decide

/-- Words of the quantiser (R238, R245) rows. -/
theorem test_decode_quantiser : Decodes [
  ([0xA5A984E6#32, 0x0000016E#32], .qntQ4uni oe 3#4 9#4),
  ([0xA5A984E6#32, 0x0000096E#32], .qntQ4e2m1 oe 3#4 9#4),
  ([0xA5A984E6#32, 0x0000116E#32], .qntQ4pow oe 3#4 9#4),
  ([0xA5A984E6#32, 0x0000196E#32], .qntQ4hyb oe 3#4 9#4),
  ([0xA5A984E6#32, 0x0000216E#32], .qntQ4auto oe 3#4 9#4),
  ([0xA5A984E6#32, 0x0000036E#32], .dqnt oe 3#4 9#4),
  ([0xA5A804E6#32, 0x0000056E#32], .qchk oe 9#4)] := by decide

/-- Words of the weir (R217) rows. -/
theorem test_decode_weir : Decodes [
  ([0xA5A98067#32, 0x000D016E#32], .winit oe 3#4 13#5),
  ([0xA5A9B4E7#32, 0x0000036E#32], .wprobe oe 3#4 9#4 6#4),
  ([0xA5A984E7#32, 0x1E4D056E#32], .wcommit oe 3#4 9#4 13#5 18#5 7#5),
  ([0xA5A804E7#32, 0x1E40076E#32], .wpick oe 9#4 18#5 7#5),
  ([0xA5A9B4E7#32, 0x0000096E#32], .wrd oe 3#4 9#4 6#4)] := by decide

/-- Words of the collective (R255) rows. -/
theorem test_decode_collective : Decodes [
  ([0xA5A984E8#32, 0x1C0D216E#32], .allred 2#3 oe 3#4 9#4 13#5 7#5),
  ([0xA5A984E8#32, 0x1C0D236E#32], .redscat 2#3 oe 3#4 9#4 13#5 7#5),
  ([0xA5A984E8#32, 0x1C0D056E#32], .allgath oe 3#4 9#4 13#5 7#5),
  ([0xA5A984E8#32, 0x1E4D076E#32], .bcast oe 3#4 9#4 13#5 18#5 7#5),
  ([0xA5A984E8#32, 0x1C0D096E#32], .alltoall oe 3#4 9#4 13#5 7#5)] := by decide

/-- Words of FENCE, JAL, REP, the one-operand transfers, RGINIT, BIND and PREEMPT (R268, R182, R185, R330,
R119, R97, R346). -/
theorem test_decode_transfers : Decodes [
  ([0x00080017#32], .fence 4#3),
  ([0x80123AA1#32], .jal 524579#20 21#5),
  ([0x00A79524#32], .rep 5#4 3#4 25#5 10#5),
  ([0x0000BAA5#32], .callh 11#5 21#5),
  ([0x0000B026#32], .reth 11#5),
  ([0x0000002A#32], .eret ),
  ([0x01C2BAB3#32, 0x40000C02#32, 0x00008201#32], .preempt 21#5 11#5 0x820140000C02#48),
  ([0x000C0AB5#32], .rginit 21#5 6#4),
  ([0x000CBAB8#32], .bind 21#5 11#5 6#4)] := by decide

/-- Words of SCADD, BFLUSH, MMA, MMAG and SPEC (R220, R118, R101, R318). -/
theorem test_decode_engines : Decodes [
  ([0xA5A834E1#32, 0x000D016E#32], .scadd oe 9#4 6#4 13#5),
  ([0xA5A80062#32, 0x000D016E#32], .bflush oe 13#5),
  ([0xA5A9B4E3#32, 0x0000036E#32], .mma true oe 3#4 9#4 6#4),
  ([0xA5A9B4E4#32, 0x1E4D036E#32], .mmag true oe 3#4 9#4 6#4 13#5 18#5 7#5),
  ([0xA5A80069#32, 0x1E4D016E#32], .spec oe 13#5 18#5 7#5)] := by decide

/-- Literal operands (R27): one word sign-extended, two words low word first, and the one-word refusals. -/
theorem test_decode_literals : Decodes [
  ([0x00402301#32, 0xFFFFFFFD#32], .add false 6#5 2#5 (.lit32 0xFFFFFFFD#32)),
  ([0x00422301#32, 0x89ABCDEF#32, 0x01234567#32], .add false 6#5 2#5 (.lit64 0x0123456789ABCDEF#64))] ∧
  decodeList [0x00442301#32, 0#32, 0#32] = none := by decide

/-- A form E word with SETS = 0 names no slot, and every bit of the order fields is read from its own
place (R28): each word differs from the first in one bit. -/
theorem test_decode_order_fields :
  let o : EOrd := { wait := 0#8, sT := 0#5, trapf := false, rel := false, det := false, pri := 0#2, slot := none }
  Decodes [([0x00000062#32, 0#32], .bflush o 0#5), ([0x01000062#32, 0#32], .bflush { o with wait := 1#8 } 0#5),
    ([0x80000062#32, 0#32], .bflush { o with wait := 0x80#8 } 0#5), ([0x00080062#32, 0#32], .bflush { o with sT := 1#5 } 0#5),
    ([0x00000062#32, 0x100#32], .bflush { o with trapf := true } 0#5), ([0x00000062#32, 0x80#32], .bflush { o with rel := true } 0#5),
    ([0x00000062#32, 0x40#32], .bflush { o with det := true } 0#5), ([0x00000062#32, 0x10#32], .bflush { o with pri := 1#2 } 0#5),
    ([0x00000062#32, 8#32], .bflush { o with slot := some 0#3 } 0#5), ([0x00000062#32, 15#32], .bflush { o with slot := some 7#3 } 0#5),
    ([0x00000062#32, 0x10000#32], .bflush o 1#5)] := by decide
/-- The example words that the manual prints beside its assembly (spec/05, spec/06, spec/12, spec/13). -/
theorem test_manual_words1 : Decodes [
  ([0x00120135#32], .rginit 2#5 9#4),
  ([0x008033B5#32], .rgwait 7#5 3#5),
  ([0x01003035#32], .rgrel 3#5),
  ([0x01803435#32], .rgstat 8#5 3#5),
  ([0x00006234#32], .waitt 4#5 6#5),
  ([0x00806234#32], .tstat 4#5 6#5),
  ([0x01006234#32], .cancel 4#5 6#5),
  ([0x018E6234#32], .detach 4#5 6#5 7#5),
  ([0x02006234#32], .adopt 4#5 6#5),
  ([0x028E6234#32], .tpri 4#5 6#5 7#5),
  ([0x030E6234#32], .tfrec 4#5 6#5 7#5),
  ([0x03806234#32], .waits 4#5 6#5),
  ([0x000E62B1#32], .start 5#5 6#5 7#5),
  ([0x00804031#32], .hexit 4#5),
  ([0x01009431#32], .hjoin 8#5 9#5 0#5),
  ([0x01809431#32], .hstat 8#5 9#5),
  ([0x000A1032#32], .bara 1#2 5#5)] := by decide

/-- The example words that the manual prints beside its assembly (spec/05, spec/06, spec/12, spec/13). -/
theorem test_manual_words2 : Decodes [
  ([0x00801332#32], .barw 6#5 1#2),
  ([0x01003332#32], .bar 6#5 3#2 0#5),
  ([0x01800332#32], .exch 6#5),
  ([0x02000332#32], .step 6#5),
  ([0x02883032#32], .msend 3#5 4#5),
  ([0x030083B2#32], .mrecv 7#5 8#5),
  ([0x000E6233#32], .enq 4#5 6#5 7#5),
  ([0x008004B3#32], .rdone 9#5),
  ([0x01003433#32], .grab 8#5 3#5),
  ([0x02005033#32], .sleepto 5#5),
  ([0x000E6237#32], .qsub 4#5 6#5 7#5),
  ([0x00807237#32], .qstat 4#5 7#5),
  ([0x00005FA5#32], .callh 5#5 31#5),
  ([0x0001F026#32], .reth 31#5),
  ([0x00006236#32], .hacq 4#5 6#5),
  ([0x00806236#32], .hrel 4#5 6#5),
  ([0x01006236#32], .hinfo 4#5 6#5)] := by decide

/-! ## Well-formedness: for each check a term that it refuses, beside one at the edge that it takes -/

/-- FCVT conversions are 0 to 17 (R170). -/
theorem test_wf_fcvt : Instr.wf (.fcvt 0#2 18#5 1#5 2#5) = false ∧ Instr.wf (.fcvt 0#2 17#5 1#5 2#5) = true := by decide

/-- Size code 7 of a load is illegal (R32). -/
theorem test_wf_load_sizes :
    Instr.wf (.ld false 7#3 0#2 0#5 1#5 2#5) = false ∧ Instr.wf (.ldFe false 7#3 0#2 0#5 1#5 2#5) = false ∧
    Instr.wf (.ldFec false 7#3 0#2 0#5 1#5 2#5) = false ∧ Instr.wf (.ldi 0#10 7#3 false 1#5 2#5) = false ∧
    Instr.wf (.ldi 0#10 6#3 false 1#5 2#5) = true := by decide

/-- Scopes 6 and 7 are illegal (R38, R268). -/
theorem test_wf_scopes :
    (∀ i ∈ [Instr.amoAdd 6#3 0#2 false 1#5 2#5 3#5, .amoAnd 7#3 0#2 false 1#5 2#5 3#5, .amoOr 6#3 0#2 false 1#5 2#5 3#5,
      .amoXor 6#3 0#2 false 1#5 2#5 3#5, .amoMin 6#3 0#2 false 1#5 2#5 3#5, .amoMax 6#3 0#2 false 1#5 2#5 3#5,
      .amoMinu 6#3 0#2 false 1#5 2#5 3#5, .amoMaxu 6#3 0#2 false 1#5 2#5 3#5, .amoSwap 6#3 0#2 false 1#5 2#5 3#5,
      .cas 6#3 0#2 false 1#5 2#5 3#5, .fence 6#3, .fence 7#3], i.wf = false) ∧
    Instr.wf (.fence 5#3) = true := by decide

/-- LOOP bodies are of 1 to 16,383 words (R35), REP blocks of 1 to 16 instructions (R39). -/
theorem test_wf_bodies :
    Instr.wf (.loop 0#15 1#5) = false ∧ Instr.wf (.loop 16384#15 1#5) = false ∧ Instr.wf (.loop 16383#15 1#5) = true ∧
    Instr.wf (.rep 0#4 0#4 1#5 0#5) = false ∧ Instr.wf (.rep 0#4 0#4 1#5 17#5) = false ∧
    Instr.wf (.rep 0#4 0#4 1#5 16#5) = true := by decide

/-- CSR numbers that are not listed, and writes of read-only ones (R44). -/
theorem test_wf_csrs :
    Instr.wf (.csrr 0x0FF#12 1#5) = false ∧ Instr.wf (.csrw 0x101#12 1#5 2#5) = false ∧
    Instr.wf (.csrs 0x101#12 1#5 2#5) = false ∧ Instr.wf (.csrc 0x101#12 1#5 2#5) = false ∧
    Instr.wf (.csrr 0x101#12 1#5) = true ∧ Instr.wf (.csrw 0x005#12 1#5 2#5) = true := by decide

/-- HADV moves fields 0 to 2 (R94), BIND names an even handle register (R95), collectives reduce with 0 to
2 (R255). -/
theorem test_wf_fields :
    Instr.wf (.hadv 3#2 1#5 2#4 3#4) = false ∧ Instr.wf (.bind 1#5 2#5 5#4) = false ∧
    Instr.wf (.allred 3#3 oe 0#4 0#4 0#5 0#5) = false ∧ Instr.wf (.redscat 3#3 oe 0#4 0#4 0#5 0#5) = false ∧
    Instr.wf (.hadv 2#2 1#5 2#4 3#4) = true ∧ Instr.wf (.bind 1#5 2#5 4#4) = true ∧
    Instr.wf (.allred 2#3 oe 0#4 0#4 0#5 0#5) = true := by decide

/-! ## Scalar instructions: states that meet the hypotheses of the statements, and results -/

/-- IntegerResults: an instruction whose checks pass; the last scalar register of the accessible count. -/
theorem wit_integer : intResult base (.add false 31#5 1#5 (.reg 2#5)) = some (31#5, 0#64) ∧
    Ready (.add false 31#5 1#5 (.reg 2#5)) base := by decide

/-- DivisionResults: a divisor that is not zero, one that is, and one that is zero as a W form reads it. -/
theorem wit_division :
    (divResult (withRegs [(1#5, 7#64), (2#5, 2#64)]) (.div false 3#5 1#5 (.reg 2#5)) = some (3#5, 2#64, 3#64) ∧
      Ready (.div false 3#5 1#5 (.reg 2#5)) (withRegs [(1#5, 7#64), (2#5, 2#64)])) ∧
    (divResult base (.rem false 3#5 1#5 (.reg 2#5)) = some (3#5, 0#64, 0#64) ∧ Ready (.rem false 3#5 1#5 (.reg 2#5)) base) ∧
    (divResult (withRegs [(2#5, 0x100000000#64)]) (.divu true 3#5 1#5 (.reg 2#5))).map (fun p => p.2.1) = some 0#64 := by
  decide

/-- BitOperations. -/
theorem wit_bits : Ready (.clz true 3#5 1#5) base ∧ Ready (.ctz false 3#5 1#5) base ∧ Ready (.popc false 3#5 1#5) base ∧
    Ready (.brev true 3#5 1#5) base ∧ Ready (.bswap true 3#5 1#5) base ∧ Ready (.sext 3#5 1#5 (.reg 2#5)) base ∧
    Ready (.zext 3#5 1#5 (.reg 2#5)) base ∧ Ready (.ext 3#5 1#5 (.reg 2#5)) base ∧ Ready (.ins 3#5 1#5 (.reg 2#5)) base := by
  decide

/-- FloatResults: 1.0 + 1.0 in f64, and FSGN. -/
theorem wit_float :
    (floatResult (withRegs [(1#5, 0x3FF0000000000000#64)]) (.fadd 0#2 false 3#5 1#5 (.reg 1#5))
        = some (3#5, 0x4000000000000000, 0) ∧
      Ready (.fadd 0#2 false 3#5 1#5 (.reg 1#5)) (withRegs [(1#5, 0x3FF0000000000000#64)])) ∧
    (signRule (.fsgnJn true 3#5 1#5 (.reg 2#5))).isSome ∧ Ready (.fsgnJn true 3#5 1#5 (.reg 2#5)) base := by decide

/-- FormatsKeepTheirValues: the largest finite f32 and the infinity of f16 are values of theirs. -/
theorem wit_formats : f32 ∈ [f64, f32, bf16, f16] ∧ 0x7F7FFFFF < 2 ^ (1 + f32.eb + f32.mb) ∧ (f32.num 0x7F7FFFFF).isNan = false ∧
    f16 ∈ [f64, f32, bf16, f16] ∧ 0x7C00 < 2 ^ (1 + f16.eb + f16.mb) ∧ (f16.num 0x7C00).isNan = false := by decide

/-- RegisterInstructionFrame. -/
theorem wit_frame : regDest base (.popc false 3#5 1#5) = some 3#5 ∧ Ready (.popc false 3#5 1#5) base ∧
    regDest (withRegs [(2#5, 2#64)]) (.div false 3#5 1#5 (.reg 2#5)) = some 3#5 ∧
    regDest base (.fcvt 0#2 17#5 4#5 1#5) = some 4#5 := by decide

/-- A loop level whose body is the word at the pc and the one behind it. -/
def level0 : LoopLevel := { start := 0xFFF00000000000#64, stop := 0xFFF00000000008#64, remaining := 2#64 }

/-- RetiringMovesThePc: no level; the end of the innermost level in its last iteration and before it; a
next address beyond the end of a body, and one inside it. -/
theorem wit_retire :
    (base.me.rep = none ∧ base.me.loops = []) ∧
    (let s := withMe (fun c => { c with pc := 0xFFF00000000004#64, loops := [level0] })
     s.me.rep = none ∧ s.me.loops = level0 :: [] ∧ s.me.pc + BitVec.ofNat 64 (4 * Instr.len .eret) = level0.stop ∧
       level0.remaining ≠ 1#64) ∧
    (let l := { level0 with remaining := 1#64 }
     let s := withMe (fun c => { c with pc := 0xFFF00000000004#64, loops := [l] })
     s.me.loops = l :: [] ∧ s.me.pc + BitVec.ofNat 64 (4 * Instr.len .eret) = l.stop ∧ l.remaining = 1#64) ∧
    (let s := withMe (fun c => { c with pc := 0xFFF00000000004#64, loops := [level0] })
     let n := Instr.len (.bflush oe 1#5)
     s.me.pc + BitVec.ofNat 64 (4 * n) ≠ level0.stop ∧ level0.start.toNat ≤ s.me.pc.toNat ∧
       s.me.pc.toNat < level0.stop.toNat ∧ level0.stop.toNat < (s.me.pc + BitVec.ofNat 64 (4 * n)).toNat) ∧
    (let s := withMe (fun c => { c with loops := [level0] })
     s.me.pc + BitVec.ofNat 64 (4 * Instr.len .eret) ≠ level0.stop ∧
       ¬ level0.stop.toNat < (s.me.pc + BitVec.ofNat 64 (4 * Instr.len .eret)).toNat) := by decide

/-- BranchResults: one that is taken out of its level, one that stays in it, one that is not taken. -/
theorem wit_branch :
    (branchRule (.beq 5#11 1#5 2#5)).map (fun p => p.2.2.2 0#64 0#64) = some true ∧
    (branchRule (.bne 5#11 1#5 2#5)).map (fun p => p.2.2.2 0#64 0#64) = some false ∧ Ready (.beq 5#11 1#5 2#5) base ∧
    (let s := withMe (fun c => { c with loops := [level0] })
     level0.start.toNat ≤ s.me.pc.toNat ∧ s.me.pc.toNat < level0.stop.toNat ∧
       ¬ ((s.me.pc + (5#11).signExtend 64 * 4#64).toNat < level0.stop.toNat) ∧
       (s.me.pc + (1#11).signExtend 64 * 4#64).toNat < level0.stop.toNat) := by decide

/-- JumpResults: a target that is aligned and one that is not. -/
theorem wit_jump : Ready (.jal 0x80000#20 1#5) base ∧ Ready (.jalr 8#15 1#5 2#5) base ∧
    (base.reg 1#5 + (8#15).signExtend 64).toNat % 4 = 0 ∧ (base.reg 1#5 + (6#15).signExtend 64).toNat % 4 ≠ 0 := by decide

/-- LoopInstruction: a count of 0; no level; two levels; a body that ends beyond the level that holds it. -/
theorem wit_loop :
    (Ready (.loop 2#15 1#5) base ∧ base.reg 1#5 = 0#64 ∧ base.me.loops = []) ∧
    (let s := withRegs [(1#5, 3#64)]
     Ready (.loop 2#15 1#5) s ∧ s.reg 1#5 ≠ 0#64 ∧ s.me.loops.length < 2) ∧
    (let s := (withRegs [(1#5, 3#64)]).modMe (fun c => { c with loops := [level0, level0] })
     Ready (.loop 2#15 1#5) s ∧ s.reg 1#5 ≠ 0#64 ∧ 2 ≤ s.me.loops.length) ∧
    (let s := (withRegs [(1#5, 3#64)]).modMe (fun c => { c with loops := [level0] })
     s.reg 1#5 ≠ 0#64 ∧ s.me.loops = [level0] ∧ level0.start.toNat ≤ s.me.pc.toNat ∧ s.me.pc.toNat < level0.stop.toNat ∧
       level0.stop.toNat < (s.me.pc + 4#64 + BitVec.ofNat 64 (4 * (2#15).toNat)).toNat) := by decide

/-- RepInstruction: a count, a free buffer and a block in the TCM; inside a block, its last instruction
with an iteration left, and without. -/
theorem wit_rep :
    (let s := withRegs [(1#5, 3#64)]
     Ready (.rep 0#4 1#4 1#5 2#5) s ∧ (0#4).toNat % 8 = 0 ∧ s.reg 1#5 ≠ 0#64 ∧ s.mine.repHolder = none) ∧
    fetchBlock (withRegs [(1#5, 3#64)]) (withRegs [(1#5, 3#64)]).cur (2#5).toNat
      ((withRegs [(1#5, 3#64)]).me.pc + 4#64).toNat = (.ok [[0#32], [0#32]], withRegs [(1#5, 3#64)]) ∧
    (let r : RepState := { block := 0#64, words := [[0#32], [0#32]], idx := 0, iter := 0, count := 2, hs := 0, ss := 0 }
     (withMe (fun c => { c with rep := some r })).me.rep = some r ∧ r.idx + 1 < r.words.length ∧
       ({ r with idx := 1 } : RepState).words.length ≤ 1 + 1 ∧ r.iter + 1 < r.count ∧
       ({ r with iter := 1 } : RepState).count ≤ 1 + 1) := by
  and_intros <;> first | decide | rfl

/-! ## Traps, CSRs and memory instructions -/

/-- TrapEntry: a usable XVEC whose handler can be fetched; the three lengths and the highest cause. -/
theorem wit_trap : 1 ≤ 3 ∧ 255 < 256 ∧ (base.ctx 0).it = false ∧ (base.ctx 0).xvec ≠ 0#64 ∧
    (base.ctx 0).xvec.toNat % 4 = 0 ∧ fetchInstr base 0 (base.ctx 0).xvec.toNat = (.ok [0#32], base) ∧
    Ready (.trap 0x7FFF#15) base ∧ Ready (.brk 0#15) base := by
  and_intros <;> first | decide | rfl

/-- TrapFreezes: a trap in progress; no XVEC; one that is not aligned. -/
theorem wit_freeze : ((withMe (fun c => { c with xstatus := 1#64 })).ctx 0).it = true ∧
    ((withMe (fun c => { c with xvec := 0#64 })).ctx 0).xvec = 0#64 ∧
    ((withMe (fun c => { c with xvec := 2#64 })).ctx 0).xvec.toNat % 4 ≠ 0 := by decide

/-- A REP of two instructions of one and two words. -/
def rep0 : RepState :=
  { block := 0xFFF00000000004#64, words := [[0#32], [0#32, 0#32]], idx := 1, iter := 1, count := 3, hs := 0, ss := 0 }

/-- ReturnFromTrap: a trap in progress with and without saved levels, and none; a saved REP with XPC at an
instruction of its block, and elsewhere. -/
theorem wit_eret :
    (let s := withMe (fun c => { c with xstatus := 1#64 })
     Ready .eret s ∧ s.me.it = true ∧ s.me.sav = false) ∧
    (let s := withMe (fun c => { c with xstatus := 3#64, savedLoops := [level0] })
     s.me.it = true ∧ s.me.sav = true ∧ s.me.savedRep = none) ∧
    (Ready .eret base ∧ base.me.it = false) ∧
    (let s := withMe (fun c => { c with xstatus := 3#64, savedRep := some rep0, xpc := 0xFFF00000000008#64 })
     let at_ := fun j => rep0.block + BitVec.ofNat 64 (4 * ((rep0.words.take j).map List.length).sum)
     Ready .eret s ∧ s.me.it = true ∧ s.me.sav = true ∧ s.me.savedRep = some rep0 ∧ s.mine.repHolder = none ∧
       1 < rep0.words.length ∧ s.me.xpc = at_ 1 ∧ (∀ k < 1, at_ k ≠ at_ 1) ∧ (∀ j < 3, (0#64 : DWord) ≠ at_ j)) := by
  decide

/-- CsrInstructions: a CSR of the context, a write, and a trace CSR without the latchkey, another feature open or
none. -/
theorem wit_csr :
    ((csrRule base (.csrs 0x208#12 1#5 2#5)).map (fun p => (p.1, p.2.1)) = some (0x208#12, 2#5) ∧
      Instr.wf (.csrs 0x208#12 1#5 2#5) = true ∧ Ready (.csrs 0x208#12 1#5 2#5) base ∧
      (csrFeature 0x208).all (featureOpen base) = true ∧
      ((csrRule base (.csrs 0x208#12 1#5 2#5)).bind (fun p => p.2.2 (csrRead base base.cur 0x208))).isSome ∧ (0x208#12).toNat ≠ 0x400) ∧
    ((csrRule base (.csrr 0x403#12 2#5)).map (fun p => (p.1, p.2.1)) = some (0x403#12, 2#5) ∧ Ready (.csrr 0x403#12 2#5) base ∧
      0x400 ≤ (0x403#12).toNat ∧ (0x403#12).toNat ≤ 0x403 ∧ base.fuses.life ≠ .test ∧ base.features.getLsbD 0 = false ∧ (2#32).getLsbD 0 = false ∧ (1#32).getLsbD 1 = false) := by
  decide

/-- AddressChecks: each check as the first that fails, and the edges of the private TCM window, the own SPM
window and a far window. -/
theorem wit_address :
    (2 ^ 56 : DWord).toNat / 2 ^ 56 ≠ 0 ∧ (1#64).toNat / 2 ^ 56 = 0 ∧ (1#64).toNat % 8 ≠ 0 ∧
    (let s := withCore (fun c => { c with ph := 1#2 })
     s.mine.ph = 1#2 ∧ (8#64).toNat % 8 = 0 ∧ (8#64).toNat / 2 ^ 32 ≠ 0xFFF000 ∧ (8#64).toNat / 2 ^ 32 ≠ 0xFFF100) ∧
    (131064 < 2 ^ 32 ∧ 131064 % 8 = 0 ∧ (8 ∣ 2 ^ 32) ∧ 131064 + 8 ≤ 131072 ∧ ¬ 131072 + 8 ≤ 131072) ∧
    (2097144 + 8 ≤ 2097152 ∧ ¬ 2097152 + 8 ≤ 2097152) ∧ (255 < 256 ∧ base.mine.ph ≠ 1#2) := by decide

/-- A sluice window of one f32 of the page at VA 0, chosen by index 0, with reads in progress. -/
def sluiced (lines : List LineRead) : State :=
  (cached base).modDie 0 (fun d => { d with windows :=
    [(0, { pasid := 5, launch := 1, index := dense 8 0x1000 1 1, base := dense 1 0x2000 1 1, core := 0, oob := false,
           lines := lines })] })

/-- A read of it by context 0 whose two loads have been made. -/
def line0 : LineRead :=
  { owner := .ctx 0, off := 0, len := 4, got := [(0x101000, List.replicate 4 0#8), (0x102000, List.replicate 4 0#8)] }

theorem sluice_served : (sluiceRead (sluiced [line0]) (.core 0) (.ctx 0) 5 0 0 0 4).1 = .ok (List.replicate 4 0#8) :=
  okOf (by decide +kernel)

/-- LoadResults: the TCM; a sluice window; an access fault. -/
theorem wit_load :
    (loadRule base (.ldi 2#10 3#3 true 1#5 2#5) = some (true, 3#3, 2#5, 16#64) ∧ Ready (.ldi 2#10 3#3 true 1#5 2#5) base) ∧
    (let s := withRegs [(1#5, 0xFFF0000001FFF8#64)]
     loadRule s (.ld false 3#3 0#2 0#5 1#5 2#5) = some (false, 3#3, 2#5, 0xFFF0000001FFF8#64) ∧
     scalarPlace s s.cur .load 0xFFF0000001FFF8#64 8 8 = (.ok (.home (tcmHome 0 131064) none), s) ∧
     poisoned s (tcmHome 0 131064) 8 = false) ∧
    (let s := sluiced [line0]
     scalarPlace s s.cur .load 0xFFB00000000000#64 4 4 = (.ok (.sluice 0 0 0), s) ∧
       (∃ s2, sluiceRead s (.core s.myCore) (.ctx s.cur) s.mine.pasid 0 0 0 4 = (.ok (List.replicate 4 0#8), s2)) ∧
       (List.replicate 4 0#8).length = 4) ∧
    (sluiceRead (sluiced []) (.core 0) (.ctx 0) 6 0 0 0 4).1 = .error .access ∧
    scalarPlace base base.cur .load 0xFF00000000000000#64 8 8 = (.error 0x04, base) := by
  and_intros <;> first | decide | rfl | exact ⟨_, pairOf sluice_served⟩ | decide +kernel

/-- StoreResults: a buffer with room, and one that is full; a check that fails; a store and a load of the
same bytes at the end of the TCM. -/
theorem wit_store :
    (let s := withRegs [(1#5, 0xFFF0000001FFF0#64)]
     storeRule s (.stFes true 2#2 2#2 0#5 1#5 3#5) = some (true, true, 4, 3#5, 0xFFF0000001FFF0#64) ∧
     Ready (.stFes true 2#2 2#2 0#5 1#5 3#5) s ∧ s.me.sbuf.length ≤ 16 ∧
     storePlace s true 0xFFF0000001FFF0#64 4 = (.ok (tcmHome 0 131056, none), s)) ∧
    (let e : BufEntry := { num := 0, home := 0, bytes := [0#8], full := false, rel := false, chk := none, ring := none }
     (withMe (fun c => { c with sbuf := List.replicate 16 e })).me.sbuf.length = 16) ∧
    storePlace base false 0xFFF00000020000#64 8 = (.error 0x04, base) ∧
    (let s := withRegs [(1#5, 0xFFF00000000000#64)]
     Ready (.sti 511#10 3#2 false 1#5 3#5) s ∧ (∃ s1, exec (.sti 511#10 3#2 false 1#5 3#5) s = .next s1 ∧
       Ready (.ldi 511#10 (0#1 ++ 3#2) false 1#5 4#5) s1 ∧ poisoned s1 (tcmHome s.myCore 4088) 8 = false ∧
       ∃ s2, exec (.ldi 511#10 (0#1 ++ 3#2) false 1#5 4#5) s1 = .next s2) ∧
     s.reg 1#5 + (511#10).signExtend 64 * BitVec.ofNat 64 (2 ^ (3#2).toNat) = BitVec.ofNat 64 (0xFFF00000000000 + 4088) ∧
     4088 + 2 ^ (3#2).toNat ≤ 131072 ∧ 4088 % 2 ^ (3#2).toNat = 0) := by
  and_intros <;> first | decide | rfl | exact ⟨_, rfl, by decide, by decide, _, rfl⟩

/-- FullEmptyAccesses: a granule that is full and one that is empty, for a load and for a store. -/
theorem wit_full_empty :
    (let s := (withRegs [(1#5, 0xFFF00000000010#64)])
     let u := s.setFull (tcmHome 0 16 / 16) true
     Ready (.ldFec false 3#3 0#2 0#5 1#5 2#5) s ∧
     fePlace s s.cur .load 0xFFF00000000010#64 8 = (.ok (tcmHome 0 16, none), s) ∧
     fePlace u u.cur .load 0xFFF00000000010#64 8 = (.ok (tcmHome 0 16, none), u) ∧
     (atHome u (tcmHome 0 16)).isFull (tcmHome 0 16) = true ∧ feBehind (atHome u (tcmHome 0 16)) (tcmHome 0 16 / 16) false = false ∧
     (atHome s (tcmHome 0 16)).isFull (tcmHome 0 16) = false ∧ s.me.wait = none ∧
     Ready (.stFee false 3#2 0#2 0#5 1#5 2#5) s ∧
     fePlace s s.cur .store 0xFFF00000000010#64 8 = (.ok (tcmHome 0 16, none), s) ∧
     memWf (atHome s (tcmHome 0 16)).mem = true ∧ chkOk (atHome s (tcmHome 0 16)) 5 none = true ∧
     isHome (tcmHome 0 16) = true ∧ feBehind (atHome s (tcmHome 0 16)) (tcmHome 0 16 / 16) true = false) := by
  and_intros <;> first | decide | rfl

/-- AtomicResults and CompareAndSwap: an aligned word of the TCM, at the widest scope with both orders; a
comparison that holds and one that does not. -/
theorem wit_atomic :
    (let s := withRegs [(1#5, 0xFFF00000000010#64), (3#5, 1#64)]
     let h := tcmHome 0 16
     (amoRule (.amoAdd 5#3 3#2 true 2#5 1#5 3#5)).isSome ∧ Ready (.amoAdd 5#3 3#2 true 2#5 1#5 3#5) s ∧
     Ready (.cas 5#3 3#2 true 2#5 1#5 3#5) s ∧
     scalarPlace s s.cur .amo (s.reg 1#5) 4 4 = (.ok (.home h none), s) ∧ poisoned s h 4 = false ∧
     memWf (released 3#2 5#3 (atHome s h)).mem = true ∧
     chkOk (released 3#2 5#3 (atHome s h)) 5 none = true ∧ isHome h = true ∧
     leNat (memRead h 4 (atHome s h).mem) ≠ (s.reg 3#5).toNat % 2 ^ 32 ∧
     leNat (memRead h 4 (atHome s h).mem) = (s.reg 4#5).toNat % 2 ^ 32) := by
  and_intros <;> first | decide | rfl

/-- FencesAndPrefetch, at the widest scope. -/
theorem wit_fence : Ready (.fence 5#3) base ∧ (5#3).toNat ≤ 5 ∧ Ready (.pref 512#10 1#5) base ∧ base.me.rep = none ∧
    base.me.loops = [] := by decide

/-- PerformedWrite. -/
theorem wit_perform : memWf base.mem = true ∧ chkOk base 5 (some (.coreAlias 0)) = true ∧ isHome 0 = true := by decide

/-- HandleWords: an aligned place in the TCM, one that is not, and a buffer with room for four stores. -/
theorem wit_handles :
    (let s := withRegs [(1#5, 0xFFF00000000020#64), (2#5, 0xFFF00000000008#64)]
     Ready (.hget 3#2 4#5 1#4) s ∧ Ready (.hset 3#2 4#5 1#4 2#4) s ∧ Ready (.hmov 1#4 2#4) s ∧ Ready (.hchk true 4#5 1#4) s ∧
     Ready (.hld 0#8 1#5 15#4) s ∧ Ready (.hst 0#8 1#5 15#4) s ∧
     scalarPlace s s.cur .load (s.reg 1#5 + (0#8).signExtend 64 * 32#64) 32 32 = (.ok (.home (tcmHome 0 32) none), s) ∧
     scalarPlace s s.cur .store (s.reg 1#5 + (0#8).signExtend 64 * 32#64) 32 32 = (.ok (.home (tcmHome 0 32) none), s) ∧
     poisoned s (tcmHome 0 32) 32 = false ∧ s.me.sbuf.length ≤ 12 ∧
     scalarPlace s s.cur .load (s.reg 2#5 + (0#8).signExtend 64 * 32#64) 32 32 = (.error 0x03, s)) ∧
    hType (BitVec.allOnes 256) = 15 ∧ hType 0#256 = 0 := by
  and_intros <;> first | decide | rfl

/-- HandleAdvance: a type it does not serve; the last value that fits and the first that does not. -/
theorem wit_hadv :
    Ready (.hadv 0#2 1#5 2#4 3#4) base ∧ ¬ advType 0#2 (hType 0#256) ∧
    (let v := dense 1 0x1000 4 4
     advType 0#2 (hType v) ∧ advFits 0#2 v (2 ^ 32 - 1) ∧ ¬ advFits 0#2 v (2 ^ 32) ∧ ¬ advFits 0#2 v (-1) ∧
     advType 2#2 (hType v) ∧ advFits 2#2 v (2 ^ 56 - 1) ∧ ¬ advFits 2#2 v (2 ^ 56)) := by
  and_intros <;> decide

/-! ## Encoding, the step, acceptance and tokens -/

/-- WordsDecode: the edges of the values of OP that are unassigned, and the other words refused. -/
theorem wit_words :
    [0x00, 0x0B, 0x0F, 0x18, 0x1F, 0x27, 0x2C, 0x2F, 0x39, 0x5F, 0x6A, 0x7F].all (fun n => decide (opUnassigned n)) = true ∧
    [0x01, 0x0A, 0x10, 0x17, 0x20, 0x26, 0x28, 0x2B, 0x30, 0x38, 0x60, 0x69].any (fun n => decide (opUnassigned n)) = false ∧
    (0x60 ≤ (0x62#32).toNat % 128 ∧ (0x80000000#32).getLsbD 31 = true ∧ (7#32).getLsbD 3 = false ∧ (7#32).toNat % 8 ≠ 0 ∧
      (0x65#32).toNat % 128 = 0x65 ∧ (0x40#32).getLsbD 6 = true) := by
  and_intros <;> decide

/-- DecodeOfEncode: an instruction of the set that is well formed. -/
theorem wit_encode : Instr.isEvent (.preempt 1#5 2#5 0x820140000C02#48) = false ∧
    Instr.wf (.preempt 1#5 2#5 0x820140000C02#48) = true := by decide

/-- Core 0 with `addi s1, s9, 8` where its next instruction is fetched. -/
def placed : State := base.withFetchWord 32 0x00109083

/-- StepKeepsCanonicalMemory: memory with bytes in it, and a step that completes. -/
theorem wit_invariant : placed.Inv ∧ ∃ t, step placed = .next t := ⟨by decide, nextOf (by decide +kernel)⟩

/-- StepRunsTheDecodedInstruction: a context whose words decode, one whose words do not, one that may not
issue, -/
theorem wit_step_words :
    (∃ s1, issuing placed = some s1 ∧ canIssue s1 = true ∧ s1.me.wait = none ∧ s1.me.rep = none ∧
      (fetchInstr s1 s1.cur s1.me.pc.toNat).1.toOption = some [0x00109083#32]) ∧
    (decodeList [0x00109083#32] = some (.addi 1#5 9#5 8#15) ∧ Instr.wf (.addi 1#5 9#5 8#15) = true) ∧
    (∃ s1, issuing base = some s1 ∧ canIssue s1 = true ∧ s1.me.wait = none ∧ s1.me.rep = none ∧
      (fetchInstr s1 s1.cur s1.me.pc.toNat).1.toOption = some [0#32]) ∧ decodeList [0#32] = none ∧
    (∃ s1, issuing State.reset = some s1 ∧ canIssue s1 = false) :=
  ⟨someOf (by decide +kernel), by decide, someOf (by decide +kernel), by decide, someOf (by decide +kernel)⟩

/-- a context that waits, one inside a REP, an event, an act and a tick. -/
theorem wit_step_moves :
    (let w : WaitRec := { what := .mailbox, since := 0, limit := 0, arrival := 0, instr := .mrecv 1#5 2#5 }
     ∃ s1, issuing (withMe (fun c => { c with wait := some w })) = some s1 ∧ canIssue s1 = true ∧ s1.me.wait = some w) ∧
    (let r := { rep0 with words := [[0x00109083#32]], idx := 0, ss := 1 }
     ∃ s1, issuing (withMe (fun c => { c with rep := some r })) = some s1 ∧ canIssue s1 = true ∧ s1.me.wait = none ∧
       s1.me.rep = some r ∧ decodeList (r.words.getD r.idx []) = some (.addi 1#5 9#5 8#15) ∧
       (Instr.mapRegs (rotS (r.iter * r.ss)) (rotH (r.iter * r.hs)) (.addi 1#5 9#5 8#15)).wf = true) ∧
    (let m : Move := { who := .event .kickstatRead, keep := [] }
     ({ base with agenda := [m] } : State).agenda = m :: [] ∧ m.who = .event .kickstatRead ∧ Instr.isEvent .kickstatRead = true) ∧
    (let m : Move := { who := .act .atomicOp, keep := [] }
     ({ base with agenda := [m] } : State).agenda = m :: [] ∧ m.who = .act .atomicOp) ∧
    (let m : Move := { who := .tick 18 10, keep := [] }
     ({ base with agenda := [m] } : State).agenda = m :: [] ∧ m.who = .tick 18 10) := by
  refine ⟨someOf (by decide +kernel), someOf (by decide +kernel), ?_, ?_, ?_⟩
  · and_intros <;> first | decide | rfl
  · and_intros <;> first | decide | rfl
  · and_intros <;> first | decide | rfl

/-- ChecksBeforeEveryInstruction: a register just above the accessible count, and one inside a REP. -/
theorem wit_checks :
    Instr.isEvent (.add false 8#5 1#5 (.reg 2#5)) = false ∧ Instr.noRep (.add false 8#5 1#5 (.reg 2#5)) = false ∧
    badReg 8 (.add false 8#5 1#5 (.reg 2#5)) = some 8#5 ∧ badReg 8 (.add false 7#5 1#5 (.reg 2#5)) = none ∧
    Instr.noRep (.jal 0#20 1#5) = true ∧ (withMe (fun c => { c with rep := some rep0 })).me.rep ≠ none := by decide

/-- Order fields of an instruction that waits on nothing and joins no slot. -/
def o0 : EOrd := { wait := 0#8, sT := 9#5, trapf := false, rel := false, det := false, pri := 0#2, slot := none }

/-- The operation BFLUSH, as core 0 accepts it first, with token 0x100. -/
def op0 : Op := { newOp base 0 (.bflush o0 1#5) false 0 0 false false false none with gen := 1 }

/-- Handle registers 1 to 3: views of 4 × 4 of the page at VA 0, bf16 twice and f32. -/
def viewed : State := withH (cached base) [(1#4, dense 2 0x1000 4 4), (2#4, dense 2 0x2000 4 4), (3#4, dense 1 0x3000 4 4)]

/-- EngineAcceptance: checks that pass with entries free, with DET and a group in g0, with DET and none, and
no entry free; a check that fails. -/
theorem wit_accept :
    (Ready (.mma false o0 3#4 1#4 2#4) viewed ∧ mmaChk 3#4 1#4 2#4 viewed = none ∧ freeEntries viewed viewed.myCore ≠ []) ∧
    ((childRule base (.bflush oe 1#5)).map (fun p => p.2) = some none ∧ oe.det = true ∧ slotGroup base.mine 0 = none) ∧
    (let s := withCore (fun c => { c with grpslot := #v[0x103#64, 0#64, 0#64, 0#64] })
     slotGroup s.mine 0 = some 3 ∧ s.launchOf s.myCore = some launch0 ∧ launch0.group? 3 = some group0) ∧
    (childRule base (.bflush o0 1#5)).map (fun p => p.2) = some none ∧
    (childRule (withCore (fun c => { c with ph := 1#2 })) (.bflush o0 1#5)).map (fun p => p.2) = some (some (0x06, 0#64)) := by
  and_intros <;> decide

/-- With the 64 entries of core 0's token table in use. -/
def fullTable : State := { base with ops := (List.range 64).map (fun i => { op0 with id := i, idx := i }) }

theorem wit_accept_stall : freeEntries fullTable fullTable.myCore = [] := by decide

/-- VectorAcceptance: views in the SPM; a full queue; a check that fails. -/
theorem wit_vector :
    (let s := withH base [(1#4, dense 1 0xFFF10000000000 4 4), (2#4, dense 1 0xFFF10000001000 4 4), (3#4, dense 1 0xFFF10000002000 4 4)]
     let i : Instr := .vadd 0#2 ov 3#4 1#4 2#4
     (vecRule s i).map (fun p => (p.2.1, p.2.2.1, p.2.2.2.1, p.2.2.2.2.1)) = some (1#4, some 2#4, 3#4, false) ∧ Ready i s ∧
     vecChk 3#4 1#4 (some 2#4) false (fmtSame fmtArith 3#4 1#4 2#4) (fun _ => none) s = none ∧
     (vecQueue s s.myCore).length < 16) ∧
    (let s : State := { base with ops := (List.range 16).map (fun i => { op0 with id := i, vec := true }) }
     16 ≤ (vecQueue s s.myCore).length) ∧
    vecChk 3#4 1#4 (some 2#4) false (fmtSame fmtArith 3#4 1#4 2#4) (fun _ => none) base = some (0x09, 0x102#64) := by
  and_intros <;> decide

/-- With one operation, in a state of its own. -/
def withOp (f : Op → Op) : State := (withRegs [(1#5, 0x100#64)]).modOp 0 f |> fun s => { s with ops := [f op0] }

/-- TokenInstructions: an operation that is queued, running, DONE and FAULTED with TRAPF, of its owner. -/
theorem wit_tokens :
    (∀ x ∈ [OpState.queued, .running, .done, .faulted], tokenOp (withOp (fun o => { o with st := x })) (some 1) 0x100#64
        = some { op0 with st := x } ∧ (withOp (fun o => { o with st := x })).op? op0.id = some { op0 with st := x }) ∧
    op0.standing = .attached base.cur ∧ base.mine.launch = some 1 ∧ (withOp id).reg 1#5 = 0x100#64 ∧
    Ready (.tstat 2#5 1#5) base ∧ Ready (.waitt 2#5 1#5) base ∧ Ready (.cancel 2#5 1#5) base ∧ Ready (.tpri 2#5 1#5 3#5) base ∧
    (base.reg 3#5).toNat ≤ 3 ∧ base.me.wait = none := by
  and_intros <;> decide

/-- TokenTransfers: the group of slot 1; an operation of an adopter; a place for the record; a snapshot whose
members are final; an empty one. -/
theorem wit_transfers :
    (Ready (.detach 2#5 1#5 3#5) (withOp id) ∧ ((withRegs [(3#5, 1#64)]).reg 3#5).toNat ≤ 3 ∧
      slotGroup base.mine 1 = some 3 ∧ base.launchOf base.myCore = some launch0 ∧ launch0.group? 3 = some group0) ∧
    (let s := withOp (fun o => { o with standing := .adopter 1, st := .done })
     tokenOp s s.mine.launch (s.reg 1#5) = some { op0 with standing := .adopter 1, st := .done } ∧ Ready (.adopt 2#5 1#5) s ∧
     op0.pasid = s.mine.pasid) ∧
    (let s := withRegs [(1#5, 0xFFF00000000020#64)]
     (s.reg 1#5).toNat % 32 = 0 ∧ s.me.sbuf.length ≤ 12 ∧
     scalarPlace s s.cur .store (s.reg 1#5) 32 32 = (.ok (.home (tcmHome 0 32) none), s)) ∧
    (let m : SnapMem := { id := 0, slot := 7, tok := some 0x100#64, trapf := false, st := some 3#3 }
     let w : WaitRec := { what := .slots [m], since := 0, limit := 0, arrival := 0, instr := .waits 2#5 1#5 }
     let s := (withRegs [(1#5, 0x80#64)]).modMe (fun c => { c with wait := some w })
     Ready (.waits 2#5 1#5) s ∧ (s.reg 1#5).toNat < 256 ∧ s.me.wait = some w ∧ (m.st ≠ none ∧ m.slot < 8) ∧ m.trapf = false) ∧
    (Ready (.waits 2#5 1#5) base ∧ base.reg 1#5 = 0#64 ∧ base.me.wait = none) := by
  and_intros <;> first | decide | rfl

/-! ## Contexts, barriers, messages and tasks -/

/-- With a routine of 9 registers at offset 64 of the TCM, and its address in s1. -/
def routined : State := withTcm (withRegs [(1#5, 0xFFF00000000040#64)]) 64 (routineBytes 9)

/-- A context in the last of the loads of an instruction, with the bytes before. -/
def lastLoad (bs : List Byte) (i : Instr) (s : State) : State := waits (.words (bs.take (bs.length - 8))) i s

/-- The state after the last load of an instruction. -/
def loadedState (s : State) (va : DWord) (n h : Nat) : State :=
  let u := (scalarPlace s s.cur .load va n n).2
  clearWait (loadHome u u.cur (h + (wordsGot s).length) 8).2

/-- The last load, from what can be evaluated. -/
theorem loadsOf {s : State} {va : DWord} {n h : Nat} {bs : List Byte}
    (hp : (scalarPlace s s.cur .load va n n).1.toOption = some (.home h none)) (hn : (wordsGot s).length + 8 = n)
    (hq : poisoned (scalarPlace s s.cur .load va n n).2 (h + (wordsGot s).length) 8 = false)
    (hb : bs = wordsGot s ++ (loadHome (scalarPlace s s.cur .load va n n).2 (scalarPlace s s.cur .load va n n).2.cur
      (h + (wordsGot s).length) 8).1) : Loads s va n bs (loadedState s va n h) :=
  ⟨h, none, _, pairOf (okOf hp), hn, hq, hb, rfl⟩

/-- StartOfHelpers: the first load and the last; a header that is not valid; a valid one with a number free and
granules to the last one; no number free; too few granules. -/
theorem wit_start :
    (Ready (.start 2#5 1#5 3#5) routined ∧ Loading routined (routined.reg 1#5) 64 ((routineBytes 9).take 8)) ∧
    (let s := lastLoad (routineBytes 9) (.start 2#5 1#5 3#5) routined
     Ready (.start 2#5 1#5 3#5) s ∧ ∃ u, Loads s (s.reg 1#5) 64 (routineBytes 9) u) ∧
    routineHeader (routineBytes 9) (launchMode routined) = some (routineHdr 9) ∧
    (let s := lastLoad (List.replicate 64 0#8) (.start 2#5 1#5 3#5) (withRegs [(1#5, 0xFFF00000000040#64)])
     ∃ u, Loads s (s.reg 1#5) 64 (List.replicate 64 0#8) u) ∧
    routineHeader (List.replicate 64 0#8) (launchMode base) = none ∧
    (freeHelper routined.mine = some 1 ∧ routined.cur ≠ routined.myCore * 16 + 1 ∧
      usedGranules { core0 with helpers := [(1, 176)] } + (9 + 7) / 8 * 8 / 8 = 24 ∧
      24 < usedGranules { core0 with helpers := [(1, 184)] } + (9 + 7) / 8 * 8 / 8) ∧
    freeHelper { core0 with helpers := (List.range 10).map (fun k => (k + 1, 8)) } = none :=
  ⟨⟨by decide, _, _, _, rfl, by decide, by decide, by decide⟩, ⟨by decide, _, _, _, _, rfl, by decide, by decide, by decide, rfl⟩, by decide,
   ⟨_, _, _, _, rfl, by decide, by decide, by decide, rfl⟩, by decide,
    by and_intros <;> decide, by decide⟩

/-- A helper of core 0 is the context that issues. -/
def helperMe : State := { base with cur := 1, ctxs := [(0, ctx0), (1, ctx0)] }

/-- ContextExitAndJoin: a helper; the control context with helpers and without; a live helper, a join record
and neither; the first and the last number. -/
theorem wit_exit_join :
    (Ready (.hexit 1#5) helperMe ∧ numOf helperMe.cur ≠ 0 ∧ (unpinAbove false (drainAll helperMe helperMe.cur) helperMe.cur 0).1 = true) ∧
    (let s := withCore (fun c => { c with helpers := [(1, 8)] })
     Ready (.hexit 1#5) s ∧ numOf s.cur = 0 ∧ s.mine.helpers ≠ [] ∧ s.me.wait = none) ∧
    (Ready (.hexit 1#5) base ∧ numOf base.cur = 0 ∧ base.mine.helpers = [] ∧ (unpinAbove false (drainAll base base.cur) base.cur 0).1 = true) ∧
    (let s := (withRegs [(1#5, 1#64), (2#5, 1#64)]).modCore 0 (fun c => { c with helpers := [(1, 8)] })
     Ready (.hjoin 3#5 1#5 2#5) s ∧ 1 ≤ (s.reg 1#5).toNat ∧ (s.reg 2#5).toNat ≤ 1 ∧ tfind 1 s.mine.helpers ≠ none ∧ s.reg 2#5 = 1#64 ∧
       s.reg 4#5 = 0#64 ∧ s.me.wait = none ∧ Ready (.hstat 3#5 1#5) s) ∧
    (let s := (withRegs [(1#5, 10#64)]).modCore 0 (fun c => { c with joins := [(10, 7#32)] })
     (s.reg 1#5).toNat ≤ 10 ∧ tfind 10 s.mine.helpers = none ∧ tfind 10 s.mine.joins = some 7#32 ∧ joinBehind s 10 = false ∧
       tfind 9 s.mine.joins = none) := by
  and_intros <;> decide

/-- Barriers: a member with arrivals ahead below the limit and at it; a barrier that is complete and one that
is not; a BAR that waits. -/
theorem wit_barrier :
    InGroup base (1#2).toNat 3 launch0 group0 ∧ Ready (.bara 1#2 1#5) base ∧ group0.ahead base.mine.rank < 16 ∧
    16 ≤ Group.ahead { group0 with arrived := [(0, 16)] } base.mine.rank ∧
    ¬ Reached base group0 ∧ Reached base { group0 with completed := 1 } ∧ Ready (.barw 2#5 1#2) base ∧ base.me.wait = none ∧
    (let s := waits (.barrier 3) (.bar 2#5 1#2 1#5) base
     Ready (.bar 2#5 1#2 1#5) s ∧ s.me.wait.map WaitRec.what = some (.barrier 3)) := by
  and_intros <;> decide

/-- A BSP launch whose barrier of group 255 is complete, in a phase, the context waiting for it. -/
def bsp (mode completed : Nat) (ph : BitVec 2) : State :=
  waits (.barrier 255) (.exch 2#5)
    { (withCore (fun c => { c with ph := ph })) with
        launches := [{ launch0 with hdr := { hdr0 with mode := mode },
                                    groups := [group0, { group255 with completed := completed }] }] }

/-- Supersteps: a helper; a wrong phase; STEP outside BSP; the barrier reached in the compute phase, in the
exchange phase with no work left, and outside BSP. -/
theorem wit_superstep :
    (Ready (.exch 2#5) helperMe ∧ Ready (.step 2#5) helperMe ∧ numOf helperMe.cur ≠ 0) ∧
    (let s := bsp 1 1 0#2
     numOf s.cur = 0 ∧ launchMode s = 1 ∧ s.mine.ph ≠ 1#2 ∧ s.mine.ph ≠ 2#2) ∧
    (launchMode base ≠ 1 ∧ base.mine.ph = 0#2 ∧ base.mine.helpers = [] ∧ base.mine.dbgctl.getLsbD 0 = false) ∧
    (let s := bsp 1 1 1#2
     Ready (.exch 2#5) s ∧ Ready (.step 2#5) s ∧ numOf s.cur = 0 ∧ s.mine.helpers = [] ∧ s.mine.dbgctl.getLsbD 0 = false ∧
     launchMode s = 1 ∧ s.mine.ph = 1#2 ∧ s.me.wait.map WaitRec.what = some (.barrier 255) ∧
     ((s.launchOf s.myCore).bind (fun l => l.group? 255)) = some { group255 with completed := 1 } ∧
     Reached s { group255 with completed := 1 }) ∧
    (let s := bsp 1 1 2#2
     launchMode s = 1 ∧ s.mine.ph = 2#2 ∧ exchangeWork s s.myCore = false) ∧
    (let s := bsp 0 1 0#2
     launchMode s ≠ 1 ∧ s.mine.ph = 0#2) := by
  and_intros <;> decide

/-- A message to core 1 in the retry buffer of core 0. -/
def retry0 : Retry :=
  { id := 4, ctx := 0, dst := 1, rank := 1, sender := 0, bytes := List.replicate 64 7#8, tries := 0, backoff := 64, due := none }

/-- Core 0 waits in MSEND with that message, core 1 changed by `f`. -/
def sending (e : Retry) (f : Core → Core) : State :=
  waits (.msend 4 none) (.msend 1#5 2#5) ((withCore (fun c => { c with retry := [e] })).modCore 1 f)

/-- Messages: an MSEND in the first of its loads and in the last, with the last place of the retry buffer; -/
theorem wit_msend :
    (let s := withRegs [(1#5, 1#64), (2#5, 0xFFF00000000040#64)]
     Ready (.msend 1#5 2#5) s ∧ s.me.wait = none ∧ s.launchOf s.myCore = some launch0 ∧ (s.reg 1#5).toNat < s.mine.nranks ∧
     s.mine.ph ≠ 1#2 ∧ s.mine.retry.length < 16 ∧ (List.replicate 15 retry0).length < 16 ∧
     scalarPlace s s.cur .load (s.reg 2#5) 64 64 = (.ok (.home (tcmHome 0 64) none), s) ∧
     Loading (releaseModule s s.cur) (s.reg 2#5) 64 (List.replicate 8 0#8)) ∧
    (let s := lastLoad (List.replicate 64 0#8) (.msend 1#5 2#5) (withRegs [(1#5, 1#64), (2#5, 0xFFF00000000040#64)])
     Ready (.msend 1#5 2#5) s ∧ s.launchOf s.myCore = some launch0 ∧ (s.reg 1#5).toNat < s.mine.nranks ∧
     s.mine.ph ≠ 1#2 ∧ s.mine.retry.length < 16 ∧
     scalarPlace s s.cur .load (s.reg 2#5) 64 64 = (.ok (.home (tcmHome 0 64) none), s) ∧
     ∃ u, Loads s (s.reg 2#5) 64 (List.replicate 64 0#8) u) := by
  and_intros <;> first | decide | rfl |
    exact ⟨_, _, _, rfl, by decide, by decide, by decide⟩ | exact ⟨_, _, _, _, rfl, by decide, by decide, by decide, rfl⟩

/-- an MRECV with a message in the mailbox, one whose wait is past its limit, and one that begins to wait; -/
theorem wit_mrecv :
    (let m : Msg := { bytes := List.replicate 64 7#8, sender := 1 }
     let s := (withRegs [(1#5, 0xFFF00000000040#64)]).modCore 0 (fun c => { c with mbox := [m] })
     Ready (.mrecv 2#5 1#5) s ∧ s.mine.mbox = m :: [] ∧ m.bytes.length = 64 ∧ s.me.sbuf.length ≤ 8 ∧ waitOver s = false ∧
     scalarPlace s s.cur .store (s.reg 1#5) 64 64 = (.ok (.home (tcmHome 0 64) none), s) ∧
     (let u := refreshAll (s.modCore s.myCore (fun c => { c with mbox := [] })) s.myDie
      scalarPlace u u.cur .store (s.reg 1#5) 64 64 = (.ok (.home (tcmHome 0 64) none), u))) ∧
    (let w : WaitRec := { what := .mailbox, since := 0, limit := 100, arrival := 0, instr := .mrecv 2#5 1#5 }
     let s : State := { (withRegs [(1#5, 0xFFF00000000040#64)]).modMe (fun c => { c with wait := some w }) with cycle := 101 }
     Ready (.mrecv 2#5 1#5) s ∧ waitOver s = true ∧
     scalarPlace s s.cur .store (s.reg 1#5) 64 64 = (.ok (.home (tcmHome 0 64) none), s)) ∧
    (let s := withRegs [(1#5, 0xFFF00000000040#64)]
     s.mine.mbox = [] ∧ s.me.wait = none ∧ waitOver s = false) := by
  and_intros <;> first | decide | rfl

/-- the answers of an MSEND; an arrival that is accepted, one at an exited rank, and one at a full mailbox. -/
theorem wit_messages :
    (∀ b ∈ [true, false], (waits (.msend 4 (some b)) (.msend 1#5 2#5) base).me.wait.map WaitRec.what = some (.msend 4 (some b))) ∧
    (let s := sending retry0 id
     (s.core 0).retry.find? (fun e => e.id == 4) = some retry0 ∧ retry0.due = none ∧ msgBehind (s.core 0) retry0 = false ∧
     (s.core 0).launch = some 1 ∧ (s.core retry0.dst).launch = some 1 ∧ (s.core retry0.dst).ctlExited = false ∧
     (s.core retry0.dst).mbox.length < 8 ∧ (s.ctx (retry0.dst * 16)).it = false ∧ (s.ctx (retry0.dst * 16)).mode ≠ .frozen ∧
     (s.ctx retry0.ctx).wait.map WaitRec.what = some (.msend 4 none)) ∧
    ((sending retry0 (fun c => { c with ctlExited := true })).core 1).ctlExited = true ∧
    (let s := sending { retry0 with tries := 62 } (fun c => { c with mbox := List.replicate 8 { bytes := [], sender := 0 } })
     (s.core 1).ctlExited = false ∧ 8 ≤ (s.core 1).mbox.length ∧ 62 + 1 < (s.ctx 0).retrymax.toNat % 65536) ∧
    (let s := sending { retry0 with due := some 0 } id
     (s.core 0).retry.find? (fun e => e.id == 4) = some { retry0 with due := some 0 } ∧ 0 ≤ s.cycle) := by
  and_intros <;> first | decide | rfl

/-- An entry of a routine queue, its deadline 5. -/
def rtn0 : Rtn :=
  { hdr := 0xFFF00000000040#64, arg := 1#64, dl := 5#48, dlWord := 5#64, relWord := 0#64, rank := 1, acc := 16, entry := 64, tile := none }

/-- A routine of the control context that runs. -/
def disp0 : Disp :=
  { ret := 0xFFF00000000004#64, dreg := 2#5, count := 3, running := true, late := false, loops := 0, places := 0, dl := 5#48,
    hdr := 0xFFF00000000040#64, tile := none }

/-- The routine, with a descriptor of it at offset 128 of the TCM, and its address in s4. -/
def tasked : State := withTcm (withRegs [(4#5, 0xFFF00000000080#64)] |> fun s => withTcm s 64 (routineBytes 9)) 128
  (leBytes 8 0xFFF00000000040 ++ leBytes 8 1 ++ leBytes 8 5 ++ leBytes 8 0)

/-- RoutineDispatch: an ENQ in its first load and in its last, to a rank of a common group; a reserved bit; -/
theorem wit_enq :
    (Ready (.enq 2#5 4#5 5#5) tasked ∧ Loading tasked (tasked.reg 4#5) 32 (leBytes 8 0xFFF00000000040)) ∧
    (let bs := leBytes 8 0xFFF00000000040 ++ leBytes 8 1 ++ leBytes 8 5 ++ leBytes 8 0
     let s := lastLoad bs (.enq 2#5 4#5 5#5) tasked
     Ready (.enq 2#5 4#5 5#5) s ∧ s.launchOf s.myCore = some launch0 ∧ (s.reg 5#5).toNat < s.mine.nranks ∧ s.mine.rank = 0 ∧
     (∃ u, Loads s (s.reg 4#5) 32 bs u ∧
       ∃ u2, locate u (.core 0) 0 (s.core 0).pasid .load 0xFFF00000000040 64 = (.ok (.home (tcmHome 0 64) none), u2) ∧
         poisoned u2 (tcmHome 0 64) 64 = false ∧
         routineHeader (viewRead u2 (dieOfCore 0) (tcmHome 0 64) 64) launch0.hdr.mode = some (routineHdr 9)) ∧
     (s.core (rankCore launch0 0)).launch = some launch0.id ∧ (s.core 0).ctlExited = false ∧ (0xFFF00000000040#64).toNat % 64 = 0 ∧
     (s.core 0).rq.length < 64 ∧ beingSaved s launch0.id 0 = false) ∧
    launch0.groups.any (fun g => g.members.contains 0 && g.members.contains 0) = true ∧
    (let bs := leBytes 16 0 ++ leBytes 8 0x1000000000005 ++ leBytes 8 0
     leNat ((bs.drop 16).take 8) % 2 ^ 64 / 2 ^ 48 ≠ 0) := by
  and_intros <;> first | decide | rfl | exact ⟨_, _, _, rfl, by decide +kernel, by decide +kernel, by decide +kernel⟩ |
    exact ⟨_, loadsOf (h := tcmHome 0 128) (by decide +kernel) (by decide +kernel) (by decide +kernel) (by decide +kernel), _, pairOf (okOf (by decide +kernel)),
      by decide +kernel, by decide +kernel⟩

/-- RDONE in a helper, with an empty queue, at the end of a routine that is in time, and with a released entry;
equal deadlines; a dispatcher that waits. -/
theorem wit_dispatch :
    (Ready (.rdone 2#5) helperMe ∧ numOf helperMe.cur ≠ 0) ∧
    (Ready (.rdone 2#5) base ∧ base.me.disp = none ∧ base.mine.rq = []) ∧
    (let s := withMe (fun c => { c with disp := some disp0 })
     numOf s.cur = 0 ∧ s.me.disp = some disp0 ∧ disp0.running = true ∧ disp0.late = false ∧ disp0.tile = none ∧
     ((s.time.setWidth 48) - disp0.dl).toInt ≤ 0 ∧ s.me.hstack.length ≤ disp0.places) ∧
    (let s := withCore (fun c => { c with rq := [{ rtn0 with dl := 6#48 }, rtn0, { rtn0 with arg := 2#64 }] })
     s.me.disp = none ∧ chosen s.time s.mine.rq = some (rtn0, [{ rtn0 with dl := 6#48 }, { rtn0 with arg := 2#64 }])) ∧
    (let s := waits .dispatch (.rdone 2#5) ((withMe (fun c => { c with disp := some { disp0 with running := false } })).modCore 0
        (fun c => { c with rq := [rtn0] }))
     (s.ctx 0).wait.map WaitRec.what = some .dispatch ∧ (s.ctx 0).disp = some { disp0 with running := false } ∧
     chosen s.time (s.core 0).rq = some (rtn0, [])) := by
  and_intros <;> first | decide | rfl

/-- A pre-emption request for the launch. -/
def preq0 : PreReq := { launch := 1, claim := 0, prio := 3, savebase := 0x100000, stride := 4096 }

/-- With it pending at cluster 0. -/
def asked : State := base.modCluster 0 (fun c => { c with preq := some preq0 })

/-- TimeRangesAndPoints: TIME at s[a] and before it; a wait that ends; a range; a point without and with a
request, inside a handler, and with its result. -/
theorem wit_time_points :
    (Ready (.sleepto 1#5) base ∧ 0 ≤ ((base.time.setWidth 48) - ((base.reg 1#5).setWidth 48)).toInt ∧
      (let s := withRegs [(1#5, 1#64)]
       ((s.time.setWidth 48) - ((s.reg 1#5).setWidth 48)).toInt < 0 ∧ s.me.wait = none)) ∧
    (let s := waits .time (.sleepto 1#5) base
     (s.ctx (0 * 16 + 0)).wait.map (fun w => (w.what, w.instr)) = some (.time, .sleepto 1#5) ∧ (s.ctx 0).loops = [] ∧ (s.ctx 0).rep = none) ∧
    (Ready (.grab 2#5 1#5) base ∧ (base.reg 1#5).toNat ≤ 15 ∧ base.launchOf base.myCore = some launch0 ∧
      (base.die launch0.leader).healthy = true ∧ launch0.ranges[(base.reg 1#5).toNat]? = some { next := 0, stop := 100, minchunk := 4, part := 2 }) ∧
    (Ready (.preempt 2#5 1#5 0x800000000002#48) asked ∧ (∀ i, i < 32 → i ≠ 0 → (0x800000000002#48).getLsbD i = true → i < asked.me.acc) ∧
      (asked.reg 1#5).toNat % 64 = 0 ∧ (asked.cluster (clusterOfCore asked.myCore)).preq = some preq0 ∧
      asked.mine.launch = some preq0.launch ∧ asked.me.wait = none ∧ asked.me.it = false) ∧
    ((base.cluster (clusterOfCore base.myCore)).preq = none ∧ (withMe (fun c => { c with xstatus := 1#64 })).me.it = true) ∧
    (waits (.point (some 1#2)) (.preempt 2#5 1#5 0#48) base).me.wait.map WaitRec.what = some (.point (some 1#2)) := by
  and_intros <;> decide

/-! ## Rings, code handles, queues, engines -/

/-- A ring of two slots of 64 bytes, one filled. -/
def ring0 : Ring :=
  { owner := 1, base := 0xFFF10000000000#64, slots := 2, slotsz := 1, ridx := 0, nfil := 1, nclm := 0, nrsv := 0, damaged := [],
    filled := [] }

/-- Cluster 0 with a ring as its ring 31, and that number in s1. -/
def ringed (r : Ring) : State := (withRegs [(1#5, 31#64)]).modCluster 0 (fun c => { c with rings := [(31, r)] })

/-- Rings: a new ring; a filled slot, none, and a claimed one; an engine that asks for a free slot, that is to
fill the oldest one it has, and that claims. -/
theorem wit_rings :
    (let s := withH base [(1#4, ringH 0xFFF10000000000 16 2 1 31)]
     Ready (.rginit 2#5 1#4) s ∧ hReason (s.hreg 1#4) true [2] = 0 ∧ ring? s s.myCluster (hRnum (s.hreg 1#4)) = none) ∧
    (let s := ringed ring0
     (s.reg 1#5).toNat ≤ 31 ∧ ring? s s.myCluster (s.reg 1#5).toNat = some ring0 ∧ some ring0.owner = s.mine.launch ∧
     Ready (.rgwait 2#5 1#5) s ∧ s.me.wait = none ∧ 0 < ring0.nfil ∧ claimBehind s s.myCluster (s.reg 1#5).toNat s.stamp = false ∧
     Ready (.rgrel 1#5) s ∧ Ready (.rgstat 2#5 1#5) s) ∧
    (({ ring0 with nfil := 0 } : Ring).nfil = 0 ∧ 0 < ({ ring0 with nclm := 1 } : Ring).nclm) ∧
    (let o := { op0 with want := some (0, 31) }
     let s : State := { ringed ring0 with ops := [o] }
     s.op? 0 = some o ∧ ring? s (clusterOfCore o.core) 31 = some ring0 ∧ ring0.nclm + ring0.nfil + ring0.nrsv < ring0.slots ∧
     askedBehind s o = false) ∧
    (let o := { op0 with want := some (1, 31), slotC := some 1 }
     let r := { ring0 with nrsv := 1 }
     o.slotC = some (r.ridx + r.nclm + r.nfil) ∧ 0 < r.nrsv ∧ r.filled = []) ∧
    (let o := { op0 with want := some (3, 31), seq := 1 }
     2 ≤ 3 ∧ claimBehind { ringed ring0 with ops := [o] } (clusterOfCore o.core) 31 o.seq = false ∧
     smem (ring0.ridx + ring0.nclm) ring0.damaged = false) := by
  and_intros <;> decide

/-- A LIVE entry of the residual pool. -/
def pent0 : PEnt := { gen := 1, state := 1, kind := 0, pins := 0, refs := 2, length := 64, base := 0x80100, source := 0 }

/-- A residual pool of one entry and one granule in a page of code at VA 0x80000, and its handle in s1. -/
def pooled : State :=
  let page : TlbEnt := { pasid := 5, va := 0x80000, size := 19, leaf := 0x18009D#64 }
  let s := (withRegs [(1#5, chMake 1 0)]).modCore 0 (fun c => { c with rcbase := 0x80000#64, rcsize := 1#64, utlb := [page] })
  { s with mem := memWrite 0x180000 (leBytes 4 0x4B575243 ++ leBytes 4 1 ++ leBytes 4 1) (memWrite 0x180040 pent0.bytes []) }

/-- CodeHandles: a pin of a LIVE entry; a return with a pin, to a target that is not aligned, and without a
pin; the entry of a handle for HACQ, HREL and HINFO. -/
theorem wit_code :
    (let p : Pool := { base := 0x80000, nent := 1, ngran := 1, hdr := 0x180000 }
     Ready (.callh 1#5 2#5) pooled ∧ chOk (pooled.reg 1#5) = true ∧ pooled.me.hstack.length < 8 ∧
     myPool pooled = (.ok p, pooled) ∧ chIdx (pooled.reg 1#5) < p.nent ∧
     poolEntry pooled (coreActor pooled pooled.myCore) p (chIdx (pooled.reg 1#5)) = (.ok (0x180040, pent0), pooled) ∧
     pent0.gen = chGen (pooled.reg 1#5) ∧ pent0.state = 1 ∧
     Ready (.hinfo 2#5 1#5) pooled ∧ handleEntry pooled (pooled.reg 1#5) = (.ok (p, 0x180040, pent0), pooled) ∧
     Ready (.hacq 2#5 1#5) pooled ∧ Ready (.hrel 2#5 1#5) pooled ∧ releaseModule pooled pooled.cur = pooled ∧
     pent0.refs < 2 ^ 32 - 1 ∧ 1 < pent0.refs ∧ memWf pooled.mem = true ∧ isHome 0x180040 = true) ∧
    (let s := (withRegs [(1#5, 0x80100#64), (2#5, 2#64)]).modMe (fun c => { c with hstack := [chMake 1 0] })
     Ready (.reth 1#5) s ∧ (s.reg 1#5).toNat % 4 = 0 ∧ s.me.hstack = chMake 1 0 :: [] ∧ (s.reg 2#5).toNat % 4 ≠ 0) ∧
    (Ready (.reth 1#5) base ∧ (base.reg 1#5).toNat % 4 = 0 ∧ base.me.hstack = []) := by
  and_intros <;> first | decide +kernel | rfl

/-- QueueAndWindowInstructions: a QSUB in its first load and in its last, to a queue with room, -/
theorem wit_qsub :
    (let r := withTcm ((queued mapped 1 0).setReg 2#5 1#64 |> fun s => s.setReg 1#5 0xFFF00000000040#64) 64 []
     Ready (.qsub 3#5 1#5 2#5) r ∧ r.me.wait = none ∧ operandKey r (r.reg 2#5) ≠ none ∧
     Loading r (r.reg 1#5) 64 (List.replicate 8 0#8)) ∧
    (let r := lastLoad (List.replicate 64 0#8) (.qsub 3#5 1#5 2#5)
       (withTcm ((queued mapped 1 0).setReg 2#5 1#64 |> fun s => s.setReg 1#5 0xFFF00000000040#64) 64 [])
     let u := loadedState r (r.reg 1#5) 64 (tcmHome 0 64)
     Ready (.qsub 3#5 1#5 2#5) r ∧ operandKey r (r.reg 2#5) = some key0 ∧
     Loads r (r.reg 1#5) 64 (List.replicate 64 0#8) u ∧ qbucket u key0 = some (homeBucket key0) ∧
     (let q := bucketQcb u (homeBucket key0)
      q.state ≠ 1 ∧ (q.tail + 65536 - q.head) % 65536 ≠ q.size ∧
      ioStore u (keyPasid key0) (q.ring + 64 * (q.tail % q.size)) = some 0x108040) ∧
     isHome 0x108040 = true ∧ offTable u 0x108040 64 ∧ memWf u.mem = true ∧ isHome (bucketAddr u (homeBucket key0) + 22) = true ∧
     Ready (.qstat 3#5 2#5) r) := by
  and_intros <;> first | decide +kernel | exact ⟨_, _, _, rfl, by decide +kernel, by decide +kernel, by decide +kernel⟩ |
    exact loadsOf (by decide +kernel) (by decide +kernel) (by decide +kernel) (by decide +kernel)

/-- to a full one and to a parked one; a window number above 63, a free one and one that is bound. -/
theorem wit_queue_instr :
    (let q := bucketQcb (queued mapped 2 0) (homeBucket key0)
     q.state ≠ 1 ∧ (q.tail + 65536 - q.head) % 65536 = q.size) ∧
    ((bucketQcb (queued mapped 0 1) (homeBucket key0)).state = 1 ∧ heldCount (queued mapped 0 1) < 64) ∧
    (let s := withH (withRegs [(1#5, 64#64), (2#5, 63#64)]) [(2#4, dense 8 0x1000 1 1), (3#4, dense 1 0x2000 1 1)]
     Ready (.bind 3#5 1#5 2#4) s ∧ bindReason (s.hreg 2#4) (hFmt (s.hreg 2#4) == 8) = 0 ∧
     bindReason (s.hreg (2#4 + 1#4)) ([2, 4, 8].contains (esize (hFmt (s.hreg (2#4 + 1#4))))) = 0 ∧
     63 < (s.reg 1#5).toNat ∧ (s.reg 2#5).toNat ≤ 63 ∧ tfind (s.reg 2#5).toNat (s.die s.myDie).windows = none) ∧
    (let s := sluiced [line0]
     let u := sluiced [{ line0 with owner := .op 9 }]
     Ready (.unbind 3#5 1#5) s ∧ (tfind 0 (s.die s.myDie).windows).map (fun w => (w.pasid, w.lines)) = some (s.mine.pasid, [line0]) ∧
       lineOpen s line0 = true ∧ lineOpen u { line0 with owner := .op 9 } = false ∧
       (tfind 0 (u.die u.myDie).windows).map Window.lines = some [{ line0 with owner := .op 9 }]) := by
  and_intros <;> first | decide +kernel | rfl

/-- EngineStarts: a copy engine with one ready operation; the ends of a list's order; a strip. -/
theorem wit_engine_start :
    (let o := { op0 with instr := .copy o0 3#4 1#4 4#5 5#5 6#5, pri := 3, rel := true }
     let s : State := { base with ops := [o] }
     engExists s (.copy 0) = true ∧ placeFree s 1 0 = true ∧ topHeads s 1 0 = some (3, [o]) ∧
     firstFrom (tget (rrOf s 1 0) 3 0) [o] = some o ∧ s.op? o.id = some o ∧ o.parent = none) ∧
    (firstFrom 1 [op0] = some op0 ∧ listKey op0 = 0) ∧
    (let o := { op0 with vec := true, instr := .vneg 0#2 ov 3#4 1#4, pos := [0],
                         hA := dense 1 0xFFF10000000000 4 4, hC := dense 1 0xFFF10000001000 4 4 }
     let s : State := { base with ops := [o] }
     0 < 8 * s.ndies ∧ lanesBusy s 0 < 8 ∧ (s.cluster 0).cvuPtr < 8 ∧ dispatchable s (0 * 8 + ((s.cluster 0).cvuPtr + 0) % 8) = some o ∧
     s.op? o.id = some o) := by
  and_intros <;> decide

/-- A write of a running engine at an address of the TCM. -/
def write0 : EngWrite := { va := 0xFFF00000000040, home := tcmHome 0 64, bytes := [1#8, 2#8], fill := [], chk := none, unit := false, cnt := 1 }

/-- An end that is decided. -/
def fin0 : Final := { st := .faulted, cause := 0x41, addr := 8, member := 0xFFFF, progress := 1 }

/-- A collective of the group of slot 1, running since cycle 0, with a timeout of 1 µs. -/
def coll0 : Op :=
  { op0 with instr := .allgath o0 3#4 1#4 1#5 2#5, st := .running, group := 3, members := [0, 1], zv := 1#64 }

/-- EngineSteps: a step with a write at a home of the die and one elsewhere; an end to be posted, and one to be
freed; a record for the owner's queue; a timeout; an abort here, and one that comes in a frame. -/
theorem wit_engine_step :
    (let o := { op0 with st := .running, pend := [write0] }
     let s : State := { base with ops := [o] }
     s.op? 0 = some o ∧ o.vec = false ∧ o.pend = write0 :: [] ∧ write0.home < 2 ^ 60 ∧ homeDie write0.home = o.die ∧
     chkOk s o.pasid write0.chk = true ∧ isHome write0.home = true ∧ memWf s.mem = true ∧ homeDie (tcmHome 64 0) ≠ o.die) ∧
    (let o := { op0 with st := .running, fin := some fin0 }
     let s : State := { base with ops := [o] }
     s.op? 0 = some o ∧ o.st.final = false ∧ o.fin = some fin0 ∧ fin0.st.final = true ∧ o.pend = [] ∧ framesOut s 0 = false ∧
     o.slotA = none ∧ o.slotB = none ∧ launchDead (performAll s o.die) o.launch = false ∧ o.parent = none ∧ (s.core o.core).trcctl = 0#64 ∧ ({ o with noTok := true } : Op).attached = true) ∧
    (let o := { op0 with st := .done, standing := .posting 0 }
     let s : State := { (withCore (fun c => { c with evq := 0xFFF00000000000#64 })) with ops := [o] }
     s.op? 0 = some o ∧ o.st.final = true ∧ o.postTo = some 0 ∧ (postEvent s o.launch 0 (faultRec o)).isSome) ∧
    (let s : State := { base with ops := [coll0], cycle := 1800 }
     s.op? 0 = some coll0 ∧ opClass coll0.instr = 5 ∧ coll0.zv.toNat % 2 ^ 32 ≠ 0 ∧
     coll0.since + 1800 * (coll0.zv.toNat % 2 ^ 32) ≤ s.cycle ∧ missingParts s coll0 = 0 :: [1] ∧ coll0.fin = none) ∧
    (let a : CollAbort := { launch := 1, group := 3, matchNo := 0, culprit := 1, cause := 0x46, sent := false, frame := none }
     let s : State := { base with ops := [coll0], aborts := [a] }
     s.aborts[0]? = some a ∧ Open coll0 a.launch a.group a.matchNo) := by
  and_intros <;> decide +kernel

/-- A frame of R360 to module 0 from module 7. -/
def frame (kind cls seq ack pasid addr : Nat) (payload : List Byte) : List Byte := frameBytes kind cls 7 0 seq ack pasid addr payload

/-- An unacknowledged frame of operation 0 with SEQ 4. -/
def sent0 : Frame :=
  { seq := 4, pasid := 5, addr := 0, payload := List.replicate 16 1#8, op := 0, va := 0xFFA00000000000, count := 16 }

/-- A channel of class 0 to module 7 with it. -/
def chan0 : Channel :=
  { peer := 7, cls := 0, nextSeq := 5, unacked := [sent0], expect := 9, resends := 0, since := 0, failed := false }

/-- With that channel. -/
def linked (c : Channel) (s : State) : State := { s with channels := [c] }

/-- EngineSteps: an ABORT frame of class 1 that names the match of a collective, -/
theorem wit_abort_match :
    let s : State := { base with ops := [coll0] }
    let bs := frame 3 1 0 0 5 coll0.matchId []
    frameOk s bs 3 = true ∧ frameNum bs 1 1 ≠ 0 ∧ s.ops.find? (fun o => opClass o.instr == 5 && o.pasid == frameNum bs 16 4 &&
      o.matchId == frameNum bs 24 8) = some coll0 := by
  intro s bs
  obtain ⟨h1, h2, h3⟩ := frameNum_frameBytes 3 1 7 0 0 0 5 coll0.matchId []
  have h3' : frameNum bs 24 8 = coll0.matchId := by
    rw [show frameNum bs 24 8 = _ from h3]; exact Nat.mod_eq_of_lt (Config.matchId _ _ _).isLt
  refine ⟨frameOk_frameBytes s 3 1 7 0 0 5 coll0.matchId [] (by decide) (by decide) (by decide) (by decide) (by decide) (by decide),
    by rw [show frameNum bs 1 1 = _ from h1]; decide, ?_⟩
  have hm : (opClass coll0.instr == 5 && coll0.pasid == frameNum bs 16 4 && coll0.matchId == frameNum bs 24 8) = true := by
    rw [h3', show frameNum bs 16 4 = _ from h2, beq_self_eq_true, Bool.and_true]; decide
  exact List.find?_cons_of_pos hm

/-- and one of class 0 that refuses a frame of a running operation. -/
theorem wit_abort_channel :
    let o := { op0 with st := .running }
    let s := linked chan0 { base with ops := [o] }
    let bs := frame 3 0 4 0 5 0 []
    frameOk s bs 3 = true ∧ frameNum bs 1 1 = 0 ∧ channel? s (frameNum bs 4 2) 0 = some chan0 ∧
    chan0.unacked.find? (fun x => x.seq == frameNum bs 8 4) = some sent0 ∧ s.op? sent0.op = some o ∧ o.st.final = false ∧
    o.fin = none := by
  and_intros <;> decide +kernel

/-- A buffered store to the TCM of core 0. -/
def store0 : BufEntry := { num := 0, home := tcmHome 0 64, bytes := [1#8, 2#8], full := false, rel := false, chk := none, ring := none }

/-- A write on its way from die 0 to die 1. -/
def qent0 : QEntry :=
  { src := 0, dst := 1, home := tcmHome 64 0, bytes := [1#8], fill := [], chk := none, pasid := 5, unit := false, fe := false,
    op := none, amo := none, joined := false }

/-- OrderingEvents: a head with and without a release, at a home of the die and elsewhere; a queue's head whose
check holds, one whose check fails, one to a host page; a walk that can begin, one in flight, one that is
stale; a full-empty wait that is over, just not over, and without a limit. -/
theorem wit_ordering :
    (let s := withMe (fun c => { c with sbuf := [store0] })
     0 < s.ndies * 64 ∧ 0 ≤ 10 ∧ (s.ctx (0 * 16 + 0)).sbuf = store0 :: [] ∧ store0.rel = false ∧ homeDie store0.home = dieOfCore 0 ∧
     chkOk s (s.core 0).pasid store0.chk = true ∧ isHome store0.home = true ∧ memWf s.mem = true ∧
     homeDie (tcmHome 64 0) ≠ dieOfCore 0 ∧ ({ store0 with rel := true } : BufEntry).rel = true) ∧
    (let e := qent0
     let s : State := { base with outq := [{ e with dst := 2 }, e] }
     takeFirst (fun x : QEntry => x.src == 0 && x.dst == 1) s.outq = some (e, [{ e with dst := 2 }]) ∧ chkOk s e.pasid e.chk = true ∧
     isHome e.home = true ∧ memWf s.mem = true ∧ chkOk s 6 (some (.coreAlias 0)) = false ∧ isHome (8 * 2 ^ 48) = false) ∧
    (let d := base.die (dieOfCore 0)
     takeFirst (fun w : WalkEnt => w.pasid == 5 && w.va / 2 ^ 19 == 0x1000 / 2 ^ 19) d.walks = none ∧ inWindows 0x1000 = false ∧
     0x1000 < 2 ^ 56 ∧ d.walks.length < 128 ∧ tlbFind d.tlb 5 0x1000 = none) ∧
    (let w : WalkEnt := { pasid := 5, va := 0, core := 0, lv := 0, want := true, stale := false }
     takeFirst (fun w : WalkEnt => w.pasid == 5 && w.va / 2 ^ 19 == 0x1000 / 2 ^ 19) [w] = some (w, []) ∧
     (match (translateNow (mapped.modDie 0 (fun x => { x with walks := [] })) w.level w.pasid w.va).1 with
      | .ok _ => true
      | .error _ => false) = true) ∧
    (let i : Instr := .ldFe false 3#3 0#2 0#5 1#5 2#5
     let w : WaitRec := { what := .granule (tcmHome 0 64), since := 0, limit := 100, arrival := 0, instr := i }
     let s : State := { withMe (fun c => { c with wait := some w }) with cycle := 101 }
     (s.ctx (0 * 16 + 0)).wait = some w ∧ (feVal s (0 * 16 + 0) w).isSome ∧ w.limit ≠ 0 ∧ w.since + w.limit < s.cycle ∧
     ¬ w.since + w.limit < 100) := by
  and_intros <;> decide +kernel

/-! ## The host, the Headgate, firmware, pre-emption, errors and the transport -/

/-- QueueEvents: a kick to an ACTIVE queue that it moves to the last place, one beyond it, one to a parked queue,
and one during a reclaim; a KICKSTAT read with and without a kick that waits; answers of a lookup; queues
that are created in the table and beyond it, changed, and kept in the overflow list. -/
theorem wit_queue_events :
    (let s := queued mapped 1 0
     s.power = true ∧ s.stopped = false ∧ NoKickWaits s ∧ reclaiming s = false ∧ tablesSet s = true ∧
     qbucket (svcDrain s) ((2#64 <<< 48 ||| BitVec.ofNat 64 key0).toNat % 2 ^ 48) = some (homeBucket key0) ∧
     (let q := bucketQcb (svcDrain s) (homeBucket key0)
      q.state ≠ 1 ∧ (2 + 65536 - q.head) % 65536 ≤ q.size ∧ (q.tail + 65536 - q.head) % 65536 ≤ (2 + 65536 - q.head) % 65536 ∧
      q.size < (3 + 65536 - q.head) % 65536) ∧
     memWf (svcDrain s).mem = true ∧ isHome (bucketAddr (svcDrain s) (homeBucket key0) + 22) = true) ∧
    ((bucketQcb (queued mapped 0 1) (homeBucket key0)).state = 1 ∧ heldCount (queued mapped 0 1) < 64) ∧
    reclaiming { queued mapped 0 0 with reclaimState := 1#3 } = true ∧ tablesSet base = false ∧
    ¬ NoKickWaits { base with held := [{ id := 0, kind := .kick, key := 0, tail := 0, packet := [], src := none, blocked := true, asked := true, launch := 0, rank := 0 }] } ∧ base.holder = .utonauz ∧ ({ base with holder := .firmware } : State).holder = .firmware ∧
    (createOk base 5 1 0 0x8000 32768 = true ∧ freeBucket base (keyOf 5 1 0) = some (homeBucket (keyOf 5 1 0)) ∧
      memWf base.mem = true ∧ isHome (bucketAddr base (homeBucket (keyOf 5 1 0))) = true) ∧
    (let s := queued mapped 1 0
     qbucket s (keyOf 5 1 0) = some (homeBucket key0) ∧ isHome (bucketAddr s (homeBucket key0) + 24) = true ∧ s.held = []) := by
  and_intros <;> decide +kernel

/-- A lookup for a context that waits, or for a held packet. -/
def held0 : Held :=
  { id := 9, kind := .qsub, key := key0, tail := 0, packet := List.replicate 64 0#8, src := some 0, blocked := false, asked := true,
    launch := 1, rank := 0 }

/-- QueueEvents: an answer to QSTAT of a queue, to a lookup of a key that is live and one that is not, to QSUB of
a parked queue, and to a held packet of a queue that is gone. -/
theorem wit_lookup :
    (let h := { held0 with kind := .qstat }
     let s := waits (.lookup 9 none) (.qstat 1#5 2#5) { queued mapped 1 0 with held := [h], holder := .firmware }
     s.holder = .firmware ∧ takeFirst (fun x : Held => x.id == 9 && x.asked) s.held = some (h, []) ∧ s.kicks = [] ∧ h.src = some 0 ∧
     AwaitsLookup s 0 h.id ∧ (qcb? s h.key).isSome) ∧
    (let s := waits (.lookup 9 none) (.qsub 1#5 2#5 3#5) { mapped with held := [held0], holder := .firmware, liveGen := [(5, 1, 7)] }
     qcb? s held0.key = none ∧ (∃ p ∈ s.liveGen, p.1 = keyPasid held0.key ∧ p.2.1 = keyQnum held0.key) ∧
     ¬ ∃ p ∈ mapped.liveGen, p.1 = keyPasid held0.key ∧ p.2.1 = keyQnum held0.key) ∧
    (qcb? (queued mapped 0 1) held0.key).map Qcb.state = some 1 ∧ ({ held0 with src := none } : Held).blocked = false := by
  and_intros <;> first | decide +kernel | exact ⟨_, rfl, rfl⟩

/-- An overflow list with the queue, parked or not. -/
theorem wit_overflow :
    let o : Overflow := { key := key0, ring := 0x8000#64, size := 2, head := 0, tail := 0, state := 0, statusq := 0#64 }
    let s : State := { mapped with overflow := [o], holder := .firmware }
    qbucket s (keyOf 5 1 0) = none ∧ overflow? s (keyOf 5 1 0) = some o := by
  and_intros <;> decide +kernel

/-- With aperture 0 set: physical and enabled. -/
def aperture (ctl : Word) : State := { base with aptCtl := Vector.replicate 32 ctl }

/-- HostPort: a host that is served; the edges of the numbers of apertures and vectors; a physical aperture; one
that is off; one that another process tags; a load that waits for bytes; a core whose debug is open. -/
theorem wit_host_port :
    (base.power = true ∧ base.stopped = false ∧ 31 < 32 ∧ 127 < 128 ∧ 0x3C % 4 = 0 ∧ 0x3C % 8 ≠ 0) ∧
    (PhysicalAperture (aperture 0x80000000#32) 0x1000 0#64 ∧ 0x1000 % 8 = 0 ∧ apertureHome 0#64 0x1000 < 2 ^ 41) ∧
    (∀ c, base.aptCtl.toList[0x1000 / 2 ^ 31]? = some c → c.getLsbD 31 = false) ∧
    (let s := aperture 0xC0000005#32
     ∃ c t, s.aptCtl.toList[0x1000 / 2 ^ 31]? = some c ∧ c.getLsbD 30 = true ∧ (some 6 : Option Nat) = some t ∧ t ≠ c.toNat % 2 ^ 20) ∧
    (let q : PcieRead := { id := 3, owner := .ctx 0, addr := 2 ^ 51, size := 8, va := 0x1000#64, pasid := 5, tagged := true }
     let s := waits (.pcie 3 [] true) (.ld false 3#3 0#2 0#5 1#5 2#5) { base with pcieReads := [q] }
     s.pcieReads.find? (fun x => x.id == 3) = some q ∧ q.owner = .ctx 0 ∧ (∃ w, AwaitsBytes s 0 q.id [] w) ∧
     (List.replicate 8 0#8).length = q.size) ∧
    (0 < base.ndies * 64 ∧ featureOpen { base with features := 2#32 } 1 = true ∧ featureOpen base 1 = false) := by
  have h1 : base.aptCtl.toList[0x1000 / 2 ^ 31]? = some 0#32 := by decide
  refine ⟨by and_intros <;> decide, ⟨⟨by decide, by decide, by decide, by decide, by decide, 0x80000000#32, by decide, by decide, by decide⟩,
    by decide, by decide⟩, fun c h => by rw [h1] at h; cases h; decide, ⟨0xC0000005#32, 6, by decide⟩, ?_, by and_intros <;> decide⟩
  and_intros <;> first | decide | exact ⟨_, rfl, rfl⟩

/-- An accepted write of the host. -/
def svc0 : SvcReq :=
  { svc := 0, home := 0x100000, bytes := [1#8], read := none, part := 0, len := 1, va := 0, pasid := 0, chk := none }

/-- DrainsAndInvalidations: a drain in progress with one write; GO of each kind with none in progress, and one in
progress; one whose walks have all drained; what each kind matches, at the edges. -/
theorem wit_drains :
    (let s : State := { base with svcBusy := true, svcGo := 2, svcq := [svc0] }
     s.svcBusy = true ∧ s.svcq = [svc0] ∧ svc0.read = none ∧ chkOk s svc0.pasid svc0.chk = true ∧ isHome 0x100000 = true ∧ memWf s.mem = true) ∧
    ((0x80000005#32).getLsbD 31 = true ∧ (0x80000005#32).toNat / 2 ^ 28 % 4 = 0 ∧ (0x90000005#32).toNat / 2 ^ 28 % 4 = 1 ∧
      (0xA0000005#32).toNat / 2 ^ 28 % 4 = 2 ∧ base.inval = none) ∧
    (let i : Inval := { kind := 0, va := 0x80000, pasid := 5 }
     let s : State := { base with inval := some i }
     s.inval = some i ∧ (∀ p ∈ s.dies, ∀ w ∈ p.2.walks, w.stale = false) ∧ i.hits 5 0xFFFFF 19 = true ∧ i.hits 5 0x7FFFF 19 = false ∧
     i.hits 6 0x80000 19 = false ∧ ({ i with kind := 1 } : Inval).hits 5 0 19 = true ∧ ({ i with kind := 2 } : Inval).hits 6 0 19 = true) := by
  and_intros <;> decide +kernel

/-- With bytes that an owner has read, from a granule on or inside one, in accesses of one granule. -/
def gotten (o : IoOwner) (a : Nat) (bs : List Byte) (s : State) : State :=
  { s with ioGot := s.ioGot ++ (List.range ((bs.length + 15) / 16)).map (fun i =>
      { owner := o, addr := a + 16 * i, bytes := some ((bs.drop (16 * i)).take 16) }) }

/-- The queue's head packet, which the Headgate has read. -/
def heading (p : List Byte) (f : State → State := id) : State :=
  f (gotten .gate 0x108000 p { queued mapped 1 0 with mem := memWrite 0x108000 p (queued mapped 1 0).mem })

/-- That packet as the Headgate takes it. -/
def headOf (s : State) (kind : Nat) (p : List Byte) : Head :=
  { place := homeBucket key0, key := key0, q := bucketQcb s (homeBucket key0), kind := kind, bs := p, fault := none }

/-- The fields of a packet, each `n` bytes, and zeros to 64. -/
def packet (l : List (Nat × Nat)) : List Byte := ((l.flatMap (fun p => leBytes p.1 p.2)) ++ List.replicate 64 0#8).take 64

/-- HeadgatePackets: a NOP, a fence, a bad packet, a SIGNAL whose address is stored to and one whose address is
not, a LAUNCH that does not fit and a RECORDS of QSUB, each the head of its queue. -/
theorem wit_packets :
    (let s := heading (packet [])
     HeadIs s 0 (headOf s 0 (packet [])) s ∧ HeadStored s (headOf s 0 (packet [])) (homeBucket key0)) ∧
    (let p := packet [(1, 3)]
     HeadIs (heading p) 3 (headOf (heading p) 3 p) (heading p)) ∧
    (let p := packet [(1, 5)]
     let s := heading p
     HeadIs s 9 (headOf s 9 p) s ∧
       HeadStored (postStatus s key0 96 5 0xFFFF 0 (BitVec.ofNat 64 (headOf s 9 p).q.head) 0#64) (headOf s 9 p) (homeBucket key0)) ∧
    (let p := packet [(8, 4), (8, 0x9000), (8, 77)]
     let h := headOf (heading p) 4 p
     HeadIs (heading p) 4 h (heading p) ∧ pkt h 8 8 % 8 = 0 ∧ inWindows (pkt h 8 8) = false ∧
     ioStore (heading p) (keyPasid key0) (pkt h 8 8) = some 0x109000 ∧ isHome 0x109000 = true ∧ 2 ^ 18 ≤ 0x109000 ∧ p.length = 64) ∧
    (let p := packet [(8, 4), (8, 0x9004), (8, 77)]
     HeadIs (heading p) 4 (headOf (heading p) 4 p) (heading p) ∧ pkt (headOf (heading p) 4 p) 8 8 % 8 ≠ 0) := by
  and_intros <;> decide +kernel

/-- The same for LAUNCH and RECORDS. -/
theorem wit_packets_launch :
    (let p := packet [(8, 1), (8, 0), (2, 0), (2, 63), (2, 1), (2, 2)]
     HeadIs (heading p) 1 (headOf (heading p) 1 p) (heading p) ∧ 64 < pkt (headOf (heading p) 1 p) 18 2 + pkt (headOf (heading p) 1 p) 22 2) ∧
    (let p := packet [(1, 2), (1, 3), (2, 0), (4, 1), (8, 0x9000), (8, 0), (8, 0xA000)]
     let f : FromQsub := { key := key0, ringIdx := 0, launch := 1, rank := 0 }
     let s := heading p (fun s => { s with fromQsub := [f] })
     let h := headOf s 2 p
     HeadIs s 2 h s ∧ s.fromQsub.find? (fun x => x.key == h.key && x.ringIdx == h.q.head) = some f ∧ recordsBad h.bs = false ∧
     s.launch? f.launch = some launch0 ∧ launch0.group? (pkt h 1 1) = some group0 ∧ group0.xmod = false) := by
  and_intros <;> decide +kernel

/-- HeadgatePackets: a queue of records with room, and a full one, in the page at VA 0. -/
theorem wit_post :
    let s := (cached { base with mem := memWrite 0x100008 (leBytes 4 4) [] })
    let get (s : State) (o : Nat) : Nat := leNat (((viewRead s 0 0x100040 16).drop o).take 4)
    let e (s : State) (tail : Nat) : State := cached { s with mem := memWrite 0x100044 (leBytes 4 tail ++ leBytes 4 4) [] }
    queueHome (e s 3) (.core 0) none 0 5 0x40 64 = (.ok (0x100040, false), e s 3) ∧ (∀ p ∈ (e s 3).posts, p.isTo 0 5 0x40 = false) ∧ (∀ x ∈ (e s 3).outq, x.src ≠ 0) ∧ memWf (e s 3).mem = true ∧
    isHome 0x100040 = true ∧ 0x100040 % 64 = 0 ∧ get (e s 3) 8 = 2 ^ 2 ∧
    (get (e s 3) 4 + 2 ^ 32 - get (e s 3) 0) % 2 ^ 32 < get (e s 3) 8 ∧
    queueHome (e s 3) (.core 0) none 0 5 (0x40 + 64 + 32 * (get (e s 3) 4 % 4)) 32 = (.ok (0x1000E0, false), e s 3) ∧ isHome 0x1000E0 = true ∧
    0x1000E0 % 32 = 0 ∧ 0x100040 + 64 ≤ 0x1000E0 ∧ get (e s 4) 8 ≤ (get (e s 4) 4 + 2 ^ 32 - get (e s 4) 0) % 2 ^ 32 := by
  and_intros <;> first | exact answerOf (by decide +kernel) (by decide +kernel) | decide +kernel

/-- A kernel's header of no group table. -/
def kernelBytes : List Byte :=
  leBytes 4 0x4B574D44 ++ leBytes 2 1 ++ leBytes 1 32 ++ leBytes 1 0 ++ leBytes 2 0 ++ leBytes 2 1 ++ leBytes 4 64 ++ leBytes 4 1 ++
    leBytes 4 0 ++ leBytes 4 4096 ++ leBytes 36 0

/-- A LAUNCH of it on one core, core 1 of cluster 1. -/
def launching : List Byte := packet [(8, 1), (8, 0x4000), (2, 0), (2, 8), (2, 1), (2, 1), (8, 7), (8, 0), (8, 0), (8, 0), (8, 0)]

/-- The queue with that packet, and the header and its image at VA 0x4000, read. -/
def toLaunch : State :=
  heading launching (fun s => gotten .gate 0x104000 (kernelBytes ++ List.replicate 64 0#8) { s with mem := memWrite 0x104000 kernelBytes s.mem })

/-- LaunchLifecycle: a LAUNCH that passes its checks, -/
theorem wit_launch :
    (let h := headOf toLaunch 1 launching
     HeadIs toLaunch 1 h toLaunch ∧ HeadStored toLaunch h (homeBucket key0) ∧ toLaunch.qtbase.toNat + 2 ^ 18 ≤ 2 ^ 41 ∧
     rectOk toLaunch (packetRect h.bs) = true ∧ pkt h 2 2 ≤ 16 ∧ pkt h 32 8 % 8 = 0 ∧ pkt h 56 8 % 32 = 0 ∧ keyPasid h.key = 5 ∧
     pkt h 8 8 = 0x4000 ∧ pkt h 20 2 = 1 ∧ pkt h 22 2 = 1 ∧ pkt h 48 8 = 0) := by
  and_intros <;> decide +kernel

/-- whose image, groups and ranges are read; -/
theorem wit_launch_image :
    (∃ img, launchImage toLaunch 5 0x4000 = (.ok ({ hdr0 with bind := 0 }, img), toLaunch)) ∧
    (∃ gs, launchGroups toLaunch 5 0x4000 hdr0 1 1 = (.ok gs, toLaunch)) ∧ (∃ rs, launchRanges toLaunch 5 0 1 = (.ok rs, toLaunch)) := by
  refine ⟨⟨memRead 0x104000 128 toLaunch.mem, ?_⟩, ⟨addWhole [] 1, ?_⟩, ⟨List.replicate 16 { next := 0, stop := 0, minchunk := 1, part := 1 }, ?_⟩⟩
  · decide +kernel
  · decide +kernel
  · decide +kernel

/-- a gang that is not released; a start at its stagger, and just before; a launch that is over and one that is
not; an expansion with an empty record, with a record of tiles and a queue with room, and one that is finished. -/
theorem wit_lifecycle :
    (let l := { launch0 with released := none }
     ({ base with launches := [l] } : State).launch? 1 = some l ∧ l.released = none) ∧
    (let s : State := { withMe (fun c => { c with mode := .ready }) with cycle := 0 }
     s.launchOf 0 = some launch0 ∧ launch0.released = some 0 ∧ (s.ctx (0 * 16)).mode = .ready ∧ 0 + staggerOf 0 ≤ s.cycle ∧
     s.cycle < 0 + staggerOf 1) ∧
    (let s := (withCore (fun c => { c with ctlExited := true })).modCore 1 (fun c => { c with ctlExited := true })
     s.launch? 1 = some launch0 ∧ launch0.fatal = none ∧ (∀ c ∈ launch0.cores, (s.core c).launch = some launch0.id ∧ (s.core c).ctlExited = true) ∧
     (∀ o ∈ s.ops, o.launch ≠ launch0.id) ∧ (∀ a ∈ s.applies, a.launch = launch0.id → a.stuck ≠ none) ∧
     (∀ r ∈ s.traces, r.launch ≠ some launch0.id) ∧ ¬ (∀ c ∈ launch0.cores, (base.core c).ctlExited = true)) := by
  and_intros <;> decide +kernel

/-- An expansion of one record at VA 0x9000, its counts to go to VA 0xA000. -/
def expand0 : Expand :=
  { id := 6, pkt := 6, key := key0, ringIdx := 0, launch := 1, members := [0, 1], nrec := 1, recs := 0x9000#64, dl := 0#48,
    caddr := 0xA000#64, rank := 0, record := 0, cur := none, tile := 0, count := 0, total := 0, skipped := 0, refused := 0, open_ := 0, finished := false,
    wrote := false }

/-- With a record there that asks for `n` elements and the routine at VA 0x4000, whose fields have been read. -/
def expanding (n : Nat) : State :=
  gotten (.expand 6) 0x109018 (leBytes 8 0x4000) (gotten (.expand 6) 0x109004 (leBytes 4 n)
    { mapped with expands := [expand0],
                  mem := memWrite 0x109004 (leBytes 4 n ++ leBytes 16 0 ++ leBytes 8 0x4000) (memWrite 0x104000 (routineBytes 9) mapped.mem) })

/-- With that record's count and header read. -/
def expanding2 : State := { cached (expanding 33) with expands := [{ expand0 with cur := some (33, 0x4000) }] }

theorem located : (locate expanding2 (.core 0) 0 (expanding2.core 0).pasid .load 0x4000 64).1 = .ok (.home 0x104000 none) :=
  okOf (by decide +kernel)

theorem wit_expand :
    ((expanding 0).expands.find? (fun x => x.id == 6) = some expand0 ∧ expand0.finished = false ∧ hgOn (expanding 0) = true ∧
      expand0.cur = none ∧ ∃ bs, ioBytes (expanding 0) (.expand 6) (keyPasid key0) 0x9004 4 = (.got bs, expanding 0) ∧ leNat bs = 0) ∧
    (let s := expanding 33
     (∃ bs, ioBytes s (.expand 6) (keyPasid key0) 0x9004 4 = (.got bs, s) ∧ leNat bs = 33) ∧
     ∃ hs, ioBytes s (.expand 6) (keyPasid key0) 0x9018 8 = (.got hs, s) ∧ leNat hs = 0x4000) ∧
    (let s := expanding2
     s.expands.find? (fun x => x.id == 6) = some { expand0 with cur := some (33, 0x4000) } ∧ hgOn s = true ∧
     s.launch? 1 = some launch0 ∧ rankCore launch0 (expand0.members.getD 0 0) = 0 ∧ (s.core 0).launch = some 1 ∧ (s.core 0).ctlExited = false ∧
     beingSaved s 1 0 = false ∧
     (∃ v, locate s (.core 0) 0 (s.core 0).pasid .load 0x4000 64 = (.ok (.home 0x104000 none), v) ∧ poisoned v 0x104000 64 = false ∧
       routineHeader (viewRead v (dieOfCore 0) 0x104000 64) launch0.hdr.mode = some (routineHdr 9)) ∧ (s.core 0).rq.length < 64) ∧
    (let e := { expand0 with finished := true }
     e.finished = true ∧ e.open_ = 0 ∧ e.wrote = false ∧ ioStore mapped (keyPasid e.key) e.caddr.toNat = some 0x10A000 ∧ isHome 0x10A000 = true ∧
     ({ e with wrote := true } : Expand).wrote = true ∧ ioStore mapped (keyPasid e.key) (e.caddr.toNat + 12) = some 0x10A00C ∧
     isHome 0x10A00C = true ∧ memWf mapped.mem = true) := by
  refine ⟨⟨by decide +kernel, by decide, by decide +kernel, rfl, leBytes 4 0, by decide +kernel, by decide +kernel⟩,
    ⟨⟨leBytes 4 33, by decide +kernel, by decide +kernel⟩, leBytes 8 0x4000, by decide +kernel, by decide +kernel⟩,
    ⟨by decide +kernel, by decide +kernel, by decide +kernel, by decide +kernel, by decide +kernel, by decide +kernel, by decide +kernel,
     ⟨(locate expanding2 (.core 0) 0 (expanding2.core 0).pasid .load 0x4000 64).2, pairOf located, by decide +kernel, by decide +kernel⟩, by decide +kernel⟩,
    by and_intros <;> decide +kernel⟩

/-- MailboxCommands: a mailbox that is BUSY, one that takes a command, and a reclaim in progress; the codes at the
edges of their ranges; hand-over states; a command in progress. -/
theorem wit_mailbox :
    (mailboxCode (.attest (.bar0 32)) = some (0x01, true, .bar0 32, .none) ∧ ({ base with mbxBusy := true } : State).mbxBusy = true ∧ Takes base ∧
      NoReclaim base ∧ NoReclaim { base with reclaimState := 4#3 } ∧ ¬ NoReclaim { base with reclaimState := 1#3 } ∧
      mailboxCode (.stage (.bar0 8)) = some (0x05, false, .bar0 8, .none)) ∧
    (9 ≤ 9 ∧ 0x3F ≤ 0x3F ∧ 0x40 ≤ 0x40 ∧ 0xFFFF ≤ 0xFFFF) ∧
    (base.lease = none ∧ base.hand = .none ∧ ({ base with hand := .staged } : State).hand = .staged ∧ base.holder = .utonauz ∧
      ({ base with lease := some { id := [], owner := [], minver := 0 } } : State).lease ≠ none) ∧
    ({ base with mbxCmd := some { code := 9, result := 1, response := [] } } : State).mbxCmd = some { code := 9, result := 1, response := [] } := by
  and_intros <;> decide

/-- A signature whose two halves are one number: it verifies under a key made for the message (the hash of the
message as the nonce's point). -/
def sig2 (z : Nat) : List Byte := beBytes 48 z ++ beBytes 48 z

/-- A LEASE_START request with its signature, and the operator's key. -/
def leaseReq : List Byte := leBytes 16 2 ++ leBytes 1 4 ++ List.replicate 111 0#8 ++
  sig2 0x6c7de145e6d4824e7c2ee1d701c59ea538ec382e0a671018d0e920257d2ff3d68d5aa67d0643770824c36c9a3409dc7b

def leaseKey : List Byte := beBytes 96 0x362824685d0a937933cc6bb516f4a5cc44159a815b5e07f7930c285de767bf7a4d4f4227a4fdc5d5f52fa4230d6fd2e670ba77441c9723b76e0c6ec51460e1577e55b16f9ca631a09db701bddb661f6a14e4547d16d1ab63e061fb4ea9903f00

/-- A LATCHKEY token for nonce 1 with its signature, and the vendor's key. -/
def tokenReq : List Byte := leBytes 4 0x4B574C4B ++ leBytes 4 0 ++ List.replicate 16 0#8 ++ leBytes 32 1 ++ leBytes 4 1 ++ leBytes 4 0 ++
  sig2 0x109cdc095add5332cccd98f34f0304ce3cb1adb75e01c5d25aa09c86a4fb6ff8d136b604c8ba9a3be01cfc03a91431ec

def tokenKey : List Byte := beBytes 96 0x40288f7b10e9a182f1e69c89cb27fdf16443446cf3acacb794e9306b9570c7576b593f1851d0b5a5b2cc8fba466153477844cc902bd3be47c5d4ae2d5551e389255c2c5a23f4b40bb5b7b1a8feaa11fdcf9d938d2d886e83e2d62ed8d0c3b46f

/-- MailboxCommands: a LEASE_START that the operator signed and a LATCHKEY token that the vendor signed, in
PRODUCTION with its nonce given, -/
theorem wit_signed :
    (part leaseReq 0 16 ≠ List.replicate 16 0#8 ∧ leNat (part leaseReq 16 1) = 4 ∧ part leaseReq 113 3 = leBytes 3 0 ∧
      part leaseReq 120 8 = leBytes 8 0 ∧ reqOf base (.mctp leaseReq) = leaseReq ∧ base.lease = none) ∧
    (let s : State := { base with nonce := some (leBytes 32 1), fuses := { base.fuses with life := .production, vendorKey := tokenKey } }
     s.nonce = some (leBytes 32 1) ∧ part tokenReq 24 32 = leBytes 32 1 ∧ s.fuses.life = .production ∧ leNat (part tokenReq 0 4) = 0x4B574C4B ∧
     part tokenReq 4 4 = leBytes 4 0 ∧ part tokenReq 60 4 = leBytes 4 0 ∧ leNat (part tokenReq 56 4) / 256 = 0 ∧
     part tokenReq 8 16 = part s.fuses.devid 0 16) := by
  and_intros <;> decide +kernel

theorem wit_lease_signature :
    ecdsaVerify ({ base.fuses with operatorKey := leaseKey } : Fuses).operatorKey (part leaseReq 0 128) (part leaseReq 128 96) = true := by
  decide +kernel

theorem wit_token_signature : ecdsaVerify tokenKey (part tokenReq 0 64) (part tokenReq 64 96) = true := by decide +kernel

/-- An image of one word of a signer, with its signature. -/
def imageOf (signer z : Nat) : List Byte :=
  leBytes 4 0x4B574657 ++ leBytes 2 1 ++ leBytes 1 signer ++ leBytes 1 0 ++ leBytes 4 2 ++ leBytes 4 4 ++ List.replicate 48 0#8 ++
    sig2 z ++ List.replicate 100 0#8

/-- The vendor's image and key, -/
def vendorImage : List Byte :=
  imageOf 0 0x3af1501ec4167b4f2fa9e08483e15c91c344699877e381ccb933bccdb83d2265fc162961a9a7237249d9d3f86910b35a

def imageKey : List Byte := beBytes 96 0x42b2fede24769db1b6b823a1a3e7a6392462a8f5c970faff8d26a20ae58b8ecc5335025bcf0ad3f6081e1ea8daa7314170073769ac4282fd216bb92dbdb20a6c05e1b144f62d4bd152ad2febf8ce934fb68fc643519ba63c4e31e6186475d531

/-- and an operator's. -/
def operatorImage : List Byte :=
  imageOf 1 0x205866f9899691291d9ddcecc47146fd5208204533ea74449b04252531fc7df2fdf0dfda508160c0b456003aed664fca

def operatorKey0 : List Byte := beBytes 96 0x6b0e0f87e5c62d18886f915f6b54398e6811448c2e30d1f79c4875ce3cfe3812e05ab6f7d0252e82b5c72a685f905b8567e3cf31a479b7852616cfdc0ddb66f90c489cc12080eaa5d87e154c37a98cea1eacdefe03fa19e411ceb5c4651dcfa6

/-- The vendor's image at PA 0x200000. -/
def imaged : State :=
  { base with mem := memWrite 0x200000 vendorImage [], fuses := { base.fuses with vendorKey := imageKey } }

/-- a STAGE of the vendor's image, -/
theorem wit_stage :
    imaged.hand = .none ∧ imgLength (memRead 0x200000 256 imaged.mem) = 4 ∧ 0x200000 + 256 + 4 < 2 ^ 41 ∧ imaged.recovery = false ∧
    imgForm (memRead 0x200000 256 imaged.mem) = true ∧ poisoned imaged 0x200000 260 = false ∧
    memRead 0x200000 256 imaged.mem ++ memRead 0x200100 4 imaged.mem = vendorImage ∧ imgSigner vendorImage = 0 ∧
    leNat (part (reqOf imaged (.mctp (leBytes 8 0x200000))) 0 8) = 0x200000 := by
  and_intros <;> decide +kernel

/-- which verifies, as an operator's does in the boot flash (ResetsPowerAndTime). -/
theorem wit_image_signature : imgOk imaged vendorImage = true := by decide +kernel

theorem wit_boot_signature :
    let s : State := { base with power := false, bootImage := operatorImage, fuses := { base.fuses with operatorKey := operatorKey0 } }
    imgSigner s.bootImage = 1 ∧ imgOk s s.bootImage = true ∧ s.lease = none ∧ s.fuses.life ≠ .retired := by
  and_intros <;> decide +kernel

/-- ResetsPowerAndTime: hand-over with the firmware in place, its timeout at its limit and before it, and the
switch; GO of a reclaim and a write that is none; the stages of a reclaim; resets; power-on of a retired and of
another part; a pool that goes to another PASID, and back to the same. -/
theorem wit_resets :
    (NoReclaim base ∧ ({ base with hand := .quiescing, holder := .firmware } : State).hand = .quiescing ∧
      (0#64).toNat + 1000000000 ≤ (1000000000#64).toNat ∧ (999999999#64).toNat < (0#64).toNat + 1000000000 ∧
      ({ base with staged := some [] } : State).staged = some []) ∧
    ((0xC5000001#64).getLsbD 0 = true ∧ (0xC5000001#64).toNat / 2 ^ 24 % 256 = 0xC5 ∧ (0xC5000000#64).getLsbD 0 = false) ∧
    (Takes base ∧ ({ base with reclaimState := 1#3 } : State).reclaimState = 1#3 ∧ (∀ p ∈ base.clusters, p.2.saving = none)) ∧
    (base.power = true ∧ base.stopped = false ∧ ({ base with launches := [] } : State).launches = []) ∧
    (({ State.reset with power := false } : State).power = false ∧ State.reset.fuses.life ≠ .retired ∧ ({ State.reset.fuses with life := .retired } : Fuses).life = .retired ∧
      State.reset.lease = none) ∧
    (0 < base.ndies ∧ (base.die 0).poolLast ≠ some 5 ∧ ((base.modDie 0 (fun d => { d with poolLast := some 5 })).die 0).poolLast = some 5 ∧
      memWf base.mem = true ∧ 15 < 16) := by
  and_intros <;> decide

/-- The request gathers at a point at which both control contexts wait; core 0's list register is s9. -/
def gathered0 (f : Cluster → Cluster) : State :=
  let w : WaitRec := { what := .point none, since := 0, limit := 0, arrival := 0, instr := .preempt 2#5 9#5 0#48 }
  let c : Ctx := { ctx0 with wait := some w, regs := ctx0.regs.set 9 0xFFF00000000200#64 }
  { (base.modCluster 0 (fun x => f { x with preq := some { preq0 with stride := 2 ^ 20 }, gather := some 0 })) with ctxs := [(0, c), (16, c)] }

/-- The outcome of reading the range lists of cores 0 and 1. -/
def listed (s : State) : Except (Nat × Nat × Nat) (Tbl (List Byte)) × State :=
  let u := (liveCtxs s 0 1).foldl releaseModule s
  readLists 0 1 (shareCores u 0 1) u

/-- With the lists at 0x200 of the TCMs of cores 0 and 1 read: some bytes, and zeros. -/
def listRead (bs : List Byte) (s : State) : State :=
  gotten (.save 0) (tcmHome 1 0x200) (List.replicate 64 0#8) (gotten (.save 0) (tcmHome 0 0x200) bs s)

/-- A piece of a save, and a save that has still to write some. -/
def piece0 : SavePiece := { addr := 0x300000, src := .bytes (List.replicate 16 7#8), unit := false }

def save0 (ps : List SavePiece) : SaveSt := { req := preq0, late := none, pieces := ps }

/-- Preemption: requests that meet no launch, none pending, one pending and a save, with priorities on both sides;
a bound that has passed and one that has not; -/
theorem wit_preempt :
    (0 < 8 * base.ndies ∧ 7 ≤ 7 ∧ 0x100000 % 4096 = 0 ∧
      (∃ j n, j < 8 ∧ n ≤ 10 ∧ (base.core (0 * 8 + j)).launch = some 1 ∧ (base.ctx ((0 * 8 + j) * 16 + n)).mode ≠ .absent) ∧
      ¬ (∃ j n, j < 8 ∧ n ≤ 10 ∧ (base.core (8 + j)).launch = some 1 ∧ (base.ctx ((8 + j) * 16 + n)).mode ≠ .absent) ∧
      (base.cluster 0).saving = none ∧ (base.cluster 0).preq = none ∧ (asked.cluster 0).preq = some preq0) ∧
    (let v := save0 [piece0]
     let s := base.modCluster 0 (fun c => { c with saving := some v })
     (s.cluster 0).saving = some v ∧ 3 ≤ v.req.prio ∧ v.req.prio < 4 ∧ v.late = none ∧
     ({ v with late := some preq0 } : SaveSt).late = some preq0) ∧
    (let s := gathered0 id
     Gathering s 0 { preq0 with stride := 2 ^ 20 } 0 ∧ ¬ BoundPassed s 0 1 0 ∧ BoundPassed { s with cycle := 180001 } 0 1 0) := by
  refine ⟨⟨by decide, by decide, by decide, ⟨0, 0, by decide⟩, ?_, by decide, by decide, by decide⟩, by and_intros <;> decide +kernel,
    by and_intros <;> decide +kernel⟩
  rintro ⟨j, n, hj, -, h, -⟩
  have : ∀ j, j < 8 → (base.core (8 + j)).launch ≠ some 1 := by decide
  exact this j hj h

/-- a gathering that is complete, with lists and areas that fit, areas that do not, and a ring that holds too much; -/
theorem wit_point :
    (let s := listRead (List.replicate 64 0#8) (gathered0 id)
     let v := (listed s).2
     liveCtxs s 0 1 = [0, 16] ∧ (∀ k ∈ [0, 16], (s.ctx k).wait.map WaitRec.what = some (.point none)) ∧
     drained ((liveCtxs s 0 1).foldl releaseModule s) 0 1 = true ∧
     (listed s).1.toOption = some [(0, List.replicate 64 0#8), (1, List.replicate 64 0#8)] ∧
     (∀ p ∈ (v.cluster 0).rings, p.2.owner = 1 → p.2.nfil + p.2.nclm ≤ 64) ∧
     49152 + ((rangesOf v 0 (List.replicate 64 0#8)).map (fun x => x.2 + (x.2 / 16 + 511) / 512 * 64)).sum ≤ 2 ^ 20 ∧
     ¬ 49152 + ((rangesOf v 0 (List.replicate 64 0#8)).map (fun x => x.2 + (x.2 / 16 + 511) / 512 * 64)).sum ≤ 49151) ∧
    (let v := (listed (listRead (List.replicate 64 0#8) (gathered0 (fun c => { c with rings := [(31, { ring0 with nfil := 65 })] })))).2
     ∃ p ∈ (v.cluster 0).rings, p.2.owner = 1 ∧ 64 < p.2.nfil + p.2.nclm) := by
  and_intros <;> decide +kernel

/-- With core 0's list at an address. -/
def listAt (a : DWord) (s : State) : State :=
  { s with ctxs := s.ctxs.map (fun p => if p.1 = 0 then (0, { p.2 with regs := p.2.regs.set 9 a }) else p) }

/-- a list whose second entry is not aligned, one in a page of the host's, and a context without a list. -/
theorem wit_lists :
    (let s := listRead (leBytes 8 0xFFF00000000400 ++ leBytes 8 16 ++ leBytes 8 8 ++ leBytes 8 16 ++ List.replicate 32 0#8) (gathered0 id)
     listCtx s 0 1 0 = some (0, 0xFFF00000000200) ∧
     (match (listed s).1 with | .error x => some x | .ok _ => none) = some (0, 3, 0xFFF00000000210)) ∧
    (match (listed (hosted (listAt 0x1000#64 (gathered0 id)))).1 with | .error x => some x | .ok _ => none) = some (0, 0, 0x1000) ∧
    (let s := withTcm (gathered0 id) 0x200 (leBytes 8 0xFFF00000000400 ++ leBytes 8 16)
     (locate s (.core 0) 0 (s.core 0).pasid .load 0xFFF00000000200 64).1.toOption = some (.home (tcmHome 0 0x200) none) ∧
     poisoned s (tcmHome 0 0x200) 64 = false ∧
     s.ioGot.find? (fun p => p.owner == .save 0 && p.addr == tcmHome 0 0x200) = none ∧
     (rangeList s 0 4 (viewRead s (dieOfCore 0) (tcmHome 0 0x200) 64)).toOption = some [(0xFFF00000000400, 16)]) ∧
    (let bs := leBytes 8 0xFFF00000000400 ++ leBytes 8 16 ++ List.replicate 48 0#8
     let s := listRead bs (gathered0 id)
     (∀ i ∈ List.range 4, ((bs.drop (16 * i)).take 16).length = 16 ∧
       (listEntry s 0 0 (0xFFF00000000200 + 16 * i)).1.toOption = some ((bs.drop (16 * i)).take 16) ∧
       (listEntry s 0 0 (0xFFF00000000200 + 16 * i)).2 = s) ∧
     (rangeList s 0 4 bs).toOption = some [(0xFFF00000000400, 16)]) ∧
    (let s := gathered0 id
     let t := s.modCtx 16 (fun c => { c with wait := none, mode := .absent })
     (s.ctx 0).wait.map WaitRec.what = some (.point none) ∧ (s.ctx 0).wait.map WaitRec.since = some 0 ∧ liveCtxs s 0 1 = [0, 16] ∧ liveCtxs t 0 1 = [0]) ∧
    listCtx base 0 1 0 = none := by
  and_intros <;> decide +kernel

/-- Preemption: a save of core 0 alone, with a piece to write and without, and a share that is switched out and can return. -/
theorem wit_save :
    (let s (ps : List SavePiece) := (base.modCore 1 (fun _ => Core.fresh)).modCluster 0 (fun c => { c with saving := some (save0 ps) })
     ((s [piece0]).cluster 0).saving = some (save0 [piece0]) ∧ isHome piece0.addr = true ∧ memWf (s [piece0]).mem = true ∧
     ((s []).cluster 0).saving = some (save0 []) ∧ shareCores (s []) 0 1 = [0] ∧ liveCtxs (s []) 0 1 = [0]) ∧
    (let l := { launch0 with hdrVa := 0x4000#64 }
     let p : Suspended := { launch := 1, claim := 0, savebase := 0x300000, stride := 2 ^ 20, cores := [(0, core0)], ctxs := [], rings := [] }
     let s := gotten (.save 0) 0x104000 (List.replicate 128 0#8)
       ({ mapped with cores := [], launches := [l] }.modCluster 0 (fun c => { c with suspended := [p] }))
     0 < 8 * s.ndies ∧ s.launch? 1 = some l ∧ (s.cluster 0).suspended.find? (fun x => x.launch == 1) = some p ∧ shareFree s 0 l p = true ∧
     ioBytes s (.save 0) l.pasid l.hdrVa.toNat l.image = (.got (List.replicate 128 0#8), s) ∧ p.savebase + 2 ^ 20 ≤ 2 ^ 41 ∧
     areaPoisoned s p = false ∧ memWf s.mem = true) := by
  and_intros <;> decide +kernel

/-- Preemption: contexts of an area, one whose PREEMPT has named s5 live, with d s3, and one that has named none. -/
theorem wit_restored_registers :
    let area (live : Nat) : List Host.Cell := memWrite 0x300006 (leBytes 2 1) (memWrite (0x300000 + 24576 + 9) (leBytes 1 3)
      (memWrite (0x300000 + 24576 + 16) (leBytes 8 live) []))
    let num (m : List Host.Cell) (o n : Nat) : Nat := leNat (memRead (0x300000 + o) n m)
    (num (area 32) 6 2).testBit 0 = true ∧ BitVec.ofNat 5 (num (area 32) (24576 + 9) 1) = 3#5 ∧
    (num (area 32) (24576 + 16) 8).testBit 5 = true ∧ (num (area 0) (24576 + 16) 8).testBit 5 = false ∧ num (area 0) (24576 + 896) 8 = 0 := by
  and_intros <;> decide +kernel

/-- ErrorEvents: a fatal launch whose save is in progress and one whose is not; a leader that is healthy, one that
failed without a candidate and with one; units of launches and operations. -/
theorem wit_errors :
    (let f : Fatal := { cause := 0x48, core := 0, frec := [] }
     let l := { launch0 with fatal := some f }
     let s : State := { base with launches := [l] }
     s.launch? 1 = some l ∧ l.fatal = some f ∧ ¬ (∃ p ∈ s.clusters, p.2.saving ≠ none) ∧
     ((s.modCluster 0 (fun c => { c with saving := some (save0 [piece0]) })).clusters.map (fun p => p.2.saving.map (fun v => v.req.launch)))
       = [some 1]) ∧
    (base.launch? 1 = some launch0 ∧ (base.die launch0.leader).healthy = true ∧ launch0.candidate = none ∧
      ((base.modDie 0 (fun d => { d with healthy := false })).die launch0.leader).healthy = false ∧
      ({ launch0 with candidate := some 1 } : Launch).candidate = some 1) ∧
    ((base.core 0).launch = some 1 ∧ ({ base with ops := [op0] } : State).op? 0 = some op0) := by
  and_intros <;> first | decide | (rintro ⟨p, hp, _⟩; cases hp)

/-- TransportEvents: a DATA frame that is expected and one that is not, of class 1 and of class 0 with a place and
without; frames that are not whole; an acknowledgement of everything and of nothing; the replay timeout at its
limit and before it, with a resend left and without. -/
theorem wit_transport :
    (let s := linked chan0 { mapped with modnum := 0#13 }
     Whole s (frame 0 0 9 0 5 0x2000 (List.replicate 16 1#8)) 0 7 0 9 0 5 ∧ Whole s (frame 0 0 8 0 5 0x2000 (List.replicate 16 1#8)) 0 7 0 8 0 5 ∧
     s.power = true ∧ s.released = true ∧ (theChannel s 7 0).expect = 9 ∧
     frameNum (frame 0 0 9 0 5 0x2000 (List.replicate 16 1#8)) 20 2 = 16 ∧ frameNum (frame 0 0 9 0 5 0x2000 (List.replicate 16 1#8)) 24 8 = 0x2000 ∧
     (remotePlace s 5 0x2000 16).1 = some (0x102000, none) ∧ chkOk s 5 none = true ∧ isHome 0x102000 = true ∧ memWf s.mem = true ∧
     (remotePlace s 5 0xFFF00000000000 16).1 = none ∧ Whole s (frame 0 1 0 0 5 3 []) 0 7 1 0 0 5 ∧ (theChannel s 7 1).expect = 0) ∧
    (frameOk base [] 0 = false ∧ frameOk base [] 1 = false ∧ frameOk base [] 2 = false) ∧
    (let s := linked chan0 base
     Whole s (frame 1 0 0 5 0 0 []) 1 7 0 0 5 0 ∧ channel? s 7 0 = some chan0 ∧ chan0.failed = false ∧ leftAfter chan0 5 = [] ∧
     Whole s (frame 2 0 0 4 0 0 []) 2 7 0 0 4 0 ∧ leftAfter chan0 4 = chan0.unacked ∧ chan0.unacked ≠ [] ∧ chan0.resends < 32) ∧
    (17999 < chan0.since + 18000 ∧ chan0.since + 18000 ≤ 18000 ∧ 32 ≤ ({ chan0 with resends := 32 } : Channel).resends) := by
  and_intros <;> decide +kernel

/-- ProgramsCannotChangeTrust: an instruction of a program that completes. -/
theorem wit_trust : Instr.isEvent (.fence 5#3) = false ∧ ∃ t, exec (.fence 5#3) base = .next t := ⟨by decide, _, rfl⟩

/-! ## More of the clauses: waits, homes on other dies and host pages -/

/-- LoadResults: a page of the host's, before its bytes have come and after; a poisoned unit. -/
theorem wit_load_far :
    (let s := hosted (withRegs [(1#5, 0x1000#64)])
     loadRule s (.ld false 3#3 0#2 0#5 1#5 2#5) = some (false, 3#3, 2#5, 0x1000#64) ∧ Ready (.ld false 3#3 0#2 0#5 1#5 2#5) s ∧
     s.me.wait = none ∧ scalarPlace s s.cur .load 0x1000#64 8 8 = (.ok (.pcie (2 ^ 51 + 0x101000) false), s) ∧
     (let t := s.modMe (fun c => { c with wait := some (arrived (.ld false 3#3 0#2 0#5 1#5 2#5) (.pcie 0 (List.replicate 8 1#8) false)) })
      scalarPlace t t.cur .load 0x1000#64 8 8 = (.ok (.pcie (2 ^ 51 + 0x101000) false), t))) ∧
    (let s : State := { cached (withRegs [(1#5, 0x1000#64)]) with poison := [(0x101000 / 64, 0)] }
     scalarPlace s s.cur .load 0x1000#64 8 8 = (.ok (.home 0x101000 none), s) ∧ poisoned s 0x101000 8 = true) := by
  and_intros <;> first | decide +kernel | rfl

/-- FullEmptyAccesses: a wait that is past its limit, and one that is not. -/
theorem wit_full_empty_wait :
    let w : WaitRec := { what := .granule (tcmHome 0 16), since := 0, limit := 100, arrival := 0, instr := .ldFe false 3#3 0#2 0#5 1#5 2#5 }
    let s : State := { (withRegs [(1#5, 0xFFF00000000010#64)]).modMe (fun c => { c with wait := some w }) with cycle := 101 }
    fePlace s s.cur .load 0xFFF00000000010#64 8 = (.ok (tcmHome 0 16, none), s) ∧ waitOver (atHome s (tcmHome 0 16)) = true ∧
    waitOver (atHome { s with cycle := 100 } (tcmHome 0 16)) = false := by
  and_intros <;> first | decide +kernel | rfl

/-- FullEmptyAccesses: a granule whose bit is right, behind an earlier wait, for a load and for a store, of a context
that waits already and of one that does not. -/
theorem wit_full_empty_behind :
    let a := tcmHome 0 16
    let w (i : Instr) (n : Nat) : WaitRec := { what := .granule a, since := 0, limit := 0, arrival := n, instr := i }
    let ld : Instr := .ldFe false 3#3 0#2 0#5 1#5 2#5
    let st : Instr := .stFee false 3#2 0#2 0#5 1#5 2#5
    let s (i : Instr) : State :=
      { (withRegs [(1#5, 0xFFF00000000010#64)]).setCtx 1 { ctx0 with wait := some (w i 1) } with stamp := 2 }
    let u := (s ld).setFull (a / 16) true
    (atHome u a).isFull a = true ∧ feBehind (atHome u a) (a / 16) false = true ∧ u.me.wait = none ∧
    (atHome (s st) a).isFull a = false ∧ feBehind (atHome (s st) a) (a / 16) true = true ∧
    (let v := u.modMe (fun c => { c with wait := some (w ld 2) })
     feBehind (atHome v a) (a / 16) false = true ∧ v.me.wait ≠ none ∧ waitOver (atHome v a) = false) ∧
    (let v := (s st).modMe (fun c => { c with wait := some (w st 2) })
     feBehind (atHome v a) (a / 16) true = true ∧ v.me.wait ≠ none ∧ waitOver (atHome v a) = false) := by
  and_intros <;> decide

/-- AtomicResults and CompareAndSwap: a home on another die; its entry, in the queue and performed; its answer. -/
theorem wit_atomic_far :
    (let s := cached (withRegs [(1#5, 0x1000#64)])
     Ready (.amoAdd 4#3 3#2 false 2#5 1#5 3#5) s ∧ Ready (.cas 4#3 3#2 false 2#5 1#5 3#5) s ∧ s.me.wait = none ∧
     scalarPlace s s.cur .amo (s.reg 1#5) 8 8 = (.ok (.home 0x101000 none), s) ∧ homeDie 0x101000 ≠ s.myDie) ∧
    (∀ i ∈ [Instr.amoAdd 4#3 3#2 false 2#5 1#5 3#5, .cas 4#3 3#2 false 2#5 1#5 3#5],
     let e := { qent0 with home := 0x101000, amo := some (.scalar 0 i 1#64 0#64 false) }
     let s := waits (.atomic none) i { base with outq := [e] }
     e.amo = some (.scalar 0 i 1#64 0#64 false) ∧ chkOk s e.pasid e.chk = true ∧ poisoned s e.home 8 = false ∧ memWf s.mem = true ∧
     isHome e.home = true ∧ (s.ctx 0).wait = some (arrived i (.atomic none)) ∧
     Ready i (waits (.atomic (some (some 7))) i base) ∧
     (waits (.atomic (some (some 7))) i base).me.wait = some (arrived i (.atomic (some (some 7))))) ∧
    (let e := { qent0 with home := 0x101000, amo := some (.scalar 0 (.cas 4#3 3#2 false 2#5 1#5 3#5) 1#64 0#64 true) }
     let s : State := { base with outq := [{ qent0 with dst := 2 }, e] }
     s.outq = [{ qent0 with dst := 2 }] ++ e :: [] ∧ (∀ x ∈ [{ qent0 with dst := 2 }], ¬ (x.src = e.src ∧ x.dst = e.dst)) ∧
     (∀ x ∈ s.outq, x.joined = false) ∧ chkOk s e.pasid e.chk = true ∧ poisoned s e.home 8 = false ∧
     leNat (memRead e.home 8 s.mem) = 0 ∧ leNat (memRead e.home 8 { s with mem := [(0x101000, 1#8)] }.mem) ≠ 0) := by
  and_intros <;> first | decide +kernel | rfl

/-- HandleWords: an HLD in its first load and in its last, and an HST to a page of the host's. -/
theorem wit_handle_words :
    (let s := withRegs [(1#5, 0xFFF00000000020#64)]
     (wordsGot s).length < 24 ∧ poisoned s (tcmHome 0 32 + (wordsGot s).length) 8 = false) ∧
    (let s := waits (.words (List.replicate 24 0#8)) (.hld 0#8 1#5 15#4) (withRegs [(1#5, 0xFFF00000000020#64)])
     Ready (.hld 0#8 1#5 15#4) s ∧ (wordsGot s).length = 24 ∧ poisoned s (tcmHome 0 32 + (wordsGot s).length) 8 = false ∧
     scalarPlace s s.cur .load (s.reg 1#5 + (0#8).signExtend 64 * 32#64) 32 32 = (.ok (.home (tcmHome 0 32) none), s)) ∧
    (let s := hosted (withRegs [(1#5, 0x1000#64)])
     scalarPlace s s.cur .store (s.reg 1#5 + (0#8).signExtend 64 * 32#64) 32 32 = (.ok (.pcie (2 ^ 51 + 0x101000) false), s)) := by
  and_intros <;> first | decide +kernel | rfl

/-- EngineAcceptance: the stores to the ring table that come first, none here. -/
theorem wit_accept_settled : settleRings viewed = viewed ∧ settleRings base = base ∧ settleRings fullTable = fullTable := by
  and_intros <;> first | decide +kernel | rfl
/-- A buffered store to the ring table that makes ring 31. -/
def ringStore : BufEntry := { store0 with ring := some (31, { ring0 with nfil := 0 }) }

/-- Rings: the store that RGINIT leaves, still in the buffer and as it leaves; waits of RGWAIT past their limit. -/
theorem wit_ring_store :
    (let s := (withRegs [(1#5, 31#64)]).modMe (fun c => { c with sbuf := [ringStore] })
     (s.ctx 0).sbuf = ringStore :: [] ∧ ringStore.ring = some (31, { ring0 with nfil := 0 }) ∧
     ring? s s.myCluster 31 = none ∧
     (let t := settleRing s s.cur 31
      ring? t t.myCluster 31 = some { ring0 with nfil := 0 } ∧ some ring0.owner = t.mine.launch ∧ s.me.wait = none)) ∧
    (let s := (withH base [(1#4, ringH 0xFFF10000000000 16 2 1 31)])
     ring? (settleRing s s.cur 31) s.myCluster 31 = none ∧ (settleRing s s.cur 31).me.sbuf.length < 16) ∧
    (let w : WaitRec := { what := .ring 31, since := 0, limit := 100, arrival := 0, instr := .rgwait 2#5 1#5 }
     let s : State := { (ringed ring0).modMe (fun c => { c with wait := some w }) with cycle := 101 }
     Ready (.rgwait 2#5 1#5) s ∧ waitOver s = true ∧ ring? (settleRing s s.cur 31) s.myCluster 31 = some ring0) ∧
    (let s := ringed { ring0 with nfil := 0, nclm := 1 }
     Ready (.rgrel 1#5) s ∧ ring? (drainAll s s.cur) s.myCluster 31 = some { ring0 with nfil := 0, nclm := 1 }) := by
  and_intros <;> decide +kernel

/-- EngineSteps: two writes of a matrix unit into one granule of another die, and of one granule alone; a copy that
is cancelled, at its boundary; an end with nothing left to perform; an abort that is there before its member. -/
theorem wit_engine_more :
    (let w := { write0 with home := tcmHome 64 64 }
     let x := { w with home := tcmHome 64 72 }
     let o := { op0 with instr := .mma false o0 3#4 1#4 2#4, st := .running, pend := [w, x] }
     let s : State := { base with ops := [o] }
     s.op? 0 = some o ∧ o.vec = false ∧ o.cancel = false ∧ o.pend = w :: [x] ∧ [x].takeWhile (mates o w) = [x] ∧
     (∀ y ∈ [w, x], y.home < 2 ^ 60 ∧ homeDie y.home ≠ o.die)) ∧
    (let o := { op0 with st := .running, pend := [write0, write0] }
     [write0].takeWhile (mates o write0) = []) ∧
    (let o := { op0 with instr := .copy o0 3#4 1#4 4#5 5#5 6#5, st := .running, pend := [write0], cancel := true, cancelAt := 65, prog := 128 }
     let s : State := { base with ops := [o] }
     s.op? 0 = some o ∧ o.vec = false ∧ opClass o.instr = 1 ∧ o.pend ≠ [] ∧ (∀ w, o.pend.head? = some w → w.cnt ≠ 0) ∧ hFmt o.hC ≠ 9 ∧ (o.cancelAt + 63) / 64 * 64 ≤ o.prog) ∧
    (let o := { op0 with st := .running, fin := some fin0 }
     let s : State := { base with ops := [o] }
     (performAll s o.die).op? 0 = some o) ∧
    (let o := { op0 with instr := .copy o0 3#4 1#4 4#5 5#5 6#5, hA := ringH 0xFFF10000000000 16 2 1 31, st := .running, fin := some fin0,
                         slotA := some 0 }
     let s (r : Ring) : State := { ringed r with ops := [o] }
     let r1 := { ring0 with nfil := 0, nclm := 1 }
     (∀ r ∈ [ring0, r1], (s r).op? 0 = some o ∧ (performAll (s r) o.die).op? 0 = some o ∧
       launchDead (performAll (s r) o.die) o.launch = false ∧ ring? (performAll (s r) o.die) (clusterOfCore o.core) 31 = some r) ∧
     hRnum o.hA = 31 ∧ o.want ≠ some (4, 31) ∧ ring0.nclm = 0 ∧ 0 < r1.nclm) ∧
    (let s : State := { base with ops := [op0], launches := [{ launch0 with fatal := some { cause := 0x48, core := 0, frec := [] } }] }
     s.op? 0 = some op0 ∧ launchDead s op0.launch = true ∧ op0.st.final = false ∧ ({ op0 with st := .done } : Op).st.final = true) ∧
    (let a : CollAbort := { launch := 1, group := 3, matchNo := 0, culprit := 1, cause := 0x46, sent := false, frame := none }
     ({ base with aborts := [a] } : State).aborts.find? (abortOf coll0) = some a) := by
  and_intros <;> decide +kernel
/-- OrderingEvents: an entry of an operation whose check fails at its home; a walk that queues behind 128 in flight,
and a stale one that ends with one queued. -/
theorem wit_ordering_more :
    (let e := { qent0 with pasid := 6, chk := some (.coreAlias 0), op := some (0, 0x40, 2, 0) }
     let o := { op0 with st := .running }
     let s : State := { base with outq := [e], ops := [o] }
     takeFirst (fun x : QEntry => x.src == 0 && x.dst == 1) s.outq = some (e, []) ∧ e.amo = none ∧ chkOk s e.pasid e.chk = false ∧
     s.op? 0 = some o ∧ o.st.final = false ∧ o.fin = none) ∧
    (let w : WalkEnt := { pasid := 6, va := 0, core := 0, lv := 0, want := true, stale := true }
     let s := base.modDie 0 (fun d => { d with walks := List.replicate 128 w, walkq := [{ w with pasid := 7 }] })
     let d := s.die (dieOfCore 0)
     takeFirst (fun w : WalkEnt => w.pasid == 5 && w.va / 2 ^ 19 == 0x1000 / 2 ^ 19) d.walks = none ∧
     d.walkq.any (fun w : WalkEnt => w.pasid == 5 && w.va / 2 ^ 19 == 0x1000 / 2 ^ 19) = false ∧ 128 ≤ d.walks.length ∧
     takeFirst (fun w : WalkEnt => w.pasid == 6 && w.va / 2 ^ 19 == 0x1000 / 2 ^ 19) d.walks = some (w, List.replicate 127 w)) := by
  and_intros <;> decide +kernel

/-- HostPort: the edges of the places of BAR0, a vector that waits for its mask, and a core's DBGCTL. -/
theorem wit_host_registers :
    (let s : State := { base with msixPend := [63], features := 2#32 }
     s.power = true ∧ s.stopped = false ∧ NoKickWaits s ∧ 31 < 32 ∧ 127 < 128 ∧ 127 % 2 = 1 ∧ 127 / 2 ∈ (svcFlush s 0).msixPend ∧
     (0#64 : DWord).toNat.testBit 32 = false ∧ 0 < s.ndies * 64 ∧ 0 < 4096 ∧ featureOpen (svcFlush s 0) 1 = true ∧ (3#64).getLsbD 2 = false) ∧
    (0x2C / 8 ≠ 1 ∧ 0x2C % 4 = 0 ∧ 0x2C % 8 ≠ 0 ∧ 8 / 8 = 1 ∧ 12 / 8 = 1) ∧
    ¬ NoKickWaits { base with kicks := [{ tail := 0, key := 0 }] } := by
  and_intros <;> decide

/-- A read of BAR2 whose one piece is asked for, has come, and met a fault. -/
def barRead0 : BarRead := { id := 2, parts := 1, got := [], bad := none }

/-- HostPort: an aperture of the last HBM and one beyond it; requests that no aperture serves; a piece of a write and
one of a read at a service core; a read that is complete, one that is not, and one that met a fault. -/
theorem wit_service :
    (PhysicalAperture { aperture 0x80000000#32 with aptBase := Vector.replicate 32 0x20000000000#64 } 0x1000 0x20000000000#64 ∧
      2 ^ 41 ≤ apertureHome 0x20000000000#64 0x1000) ∧
    (let s : State := { base with svcq := [svc0] }
     takeFirst (fun x : SvcReq => x.svc == 0) s.svcq = some (svc0, []) ∧ chkOk s svc0.pasid svc0.chk = true ∧ svc0.read = none ∧
     isHome svc0.home = true ∧ memWf s.mem = true) ∧
    (let q := { svc0 with read := some 2 }
     let s : State := { base with svcq := [q], barReads := [barRead0] }
     takeFirst (fun x : SvcReq => x.svc == 0) s.svcq = some (q, []) ∧ q.read = some 2 ∧ poisoned s q.home q.len = false ∧
     s.barReads.find? (fun x => x.id == 2) = some barRead0 ∧ barRead0.got.length ≠ barRead0.parts) ∧
    (let b := { barRead0 with got := [(0, [1#8])] }
     let s : State := { base with barReads := [b] }
     s.barReads.find? (fun x => x.id == 2) = some b ∧ b.got.length = b.parts ∧ b.bad = none ∧
     ({ b with bad := some 0x1000 } : BarRead).bad = some 0x1000) ∧
    (reclaiming { base with reclaimState := 1#3 } = true ∧ ({ base with released := false } : State).released = false) := by
  refine ⟨⟨⟨by decide, by decide, by decide, by decide, by decide, 0x80000000#32, by decide, by decide, by decide⟩, by decide⟩, ?_⟩
  and_intros <;> decide +kernel

/-- HostPort: a read of an operation and one of the Headgate, whose owners wait. -/
theorem wit_reads :
    let q : PcieRead := { id := 3, owner := .op 0, addr := 2 ^ 51, size := 8, va := 0x1000#64, pasid := 5, tagged := true }
    let s : State := { base with pcieReads := [q], ops := [{ op0 with st := .running }] }
    s.pcieReads.find? (fun x => x.id == 3) = some q ∧ (∀ k, q.owner ≠ .ctx k) ∧
    ownerWaits { s with pcieReads := s.pcieReads.filter (fun x => x.id != q.id) } q.owner = true ∧ (List.replicate 8 0#8).length = q.size := by
  and_intros <;> first | decide +kernel | exact fun _ h => nomatch h
/-- DrainsAndInvalidations: a read on the link of another PASID, and none. -/
theorem wit_inval_reads :
    let i : Inval := { kind := 1, va := 0, pasid := 6 }
    let q : PcieRead := { id := 3, owner := .ctx 0, addr := 2 ^ 51, size := 8, va := 0x1000#64, pasid := 5, tagged := true }
    let s : State := { base with inval := some i, pcieReads := [q] }
    s.inval = some i ∧ (∀ p ∈ s.dies, ∀ w ∈ p.2.walks, w.stale = false) ∧ (∀ r ∈ s.pcieReads, i.kind ≠ 2 ∧ r.pasid ≠ i.pasid) ∧
    base.pcieReads = [] := by
  and_intros <;> decide +kernel

/-- LaunchLifecycle: a launch that is over, its CVAL to be stored; the Headgate's read of a record, and its target. -/
theorem wit_launch_end :
    (let l := { launch0 with caddr := 0x9000#64 }
     let s : State := { mapped with launches := [l], cores := mapped.cores.map (fun p => (p.1, { p.2 with ctlExited := true })) }
     let u := (l.dies ++ (List.range 32).map (fun k => 64 + k)).foldl performAll s
     s.launch? 1 = some l ∧ l.fatal = none ∧ (∀ c ∈ l.cores, (s.core c).launch = some l.id ∧ (s.core c).ctlExited = true) ∧
     (∀ o ∈ s.ops, o.launch ≠ l.id) ∧ (∀ p ∈ s.posts, ownPost l p = false) ∧
     (∀ a ∈ s.applies, a.launch = l.id → a.stuck ≠ none) ∧ (∀ r ∈ s.traces, r.launch ≠ some l.id) ∧ l.caddr ≠ 0#64 ∧
     ioStore u l.pasid l.caddr.toNat = some 0x109000 ∧ isHome 0x109000 = true ∧ memWf u.mem = true) ∧
    64 ≤ (((expanding 33).modCore 0 (fun c => { c with rq := List.replicate 64 rtn0 })).core 0).rq.length := by
  and_intros <;> decide +kernel

/-- MailboxCommands: a command that waits over MCTP behind one that is done. -/
theorem wit_mctp :
    let q : MctpReq := { code := 7, bytes := [], act := .none }
    let s : State := { base with mbxCmd := some { code := 9, result := 1, response := [] }, mbxBusy := true, mbxMctp := true, mctp := [q] }
    s.mctp = q :: [] ∧ s.power = true ∧ s.stopped = false ∧ q.bytes.length ≤ 4096 ∧
    mailboxCode (.record (.mctp q.bytes)) = some (q.code, true, .mctp q.bytes, q.act) ∧ base.mctp = [] := by
  and_intros <;> decide +kernel

/-- ResetsPowerAndTime: a signing with nothing waiting; the firmware's first and last vector; no operator's key yet. -/
theorem wit_resets_more :
    (({ base with reclaimState := 3#3 } : State).reclaimState = 3#3 ∧ base.mctp = []) ∧
    (({ base with holder := .firmware } : State).holder = .firmware ∧ 3 ≤ 3 ∧ 63 ≤ 63 ∧ base.holder = .utonauz ∧ 2 < 3 ∧ 63 < 64) ∧
    (base.fuses.operatorKey = [] ∧ ({ base.fuses with operatorKey := leaseKey } : Fuses).operatorKey ≠ []) := by
  and_intros <;> decide +kernel

/-- ErrorEvents: the islands of C48 that are fused off and the first that are not; a cluster's, a pool's and a
fabric's; the firmware. -/
theorem wit_islands :
    (∀ n ∈ [480, 638], 48 * 10 ≤ n ∧ n < 640 ∧ n % 10 ≠ 9) ∧ ¬ 639 % 10 ≠ 9 ∧ ¬ 640 < 640 ∧ (479 < 640 ∧ 7 % 10 < 8 ∧ 8 ≤ 8 % 10) ∧
    ¬ base.ndies * 10 ≤ 639 ∧ ({ base with holder := .firmware } : State).holder = .firmware := by
  and_intros <;> decide

/-- TransportEvents: a MAC table with the module; a read that another module makes; the answer to one of this. -/
theorem wit_far :
    (let s : State := { base with macs := [(7, leBytes 6 0x0A0B0C0D0E0F)], holder := .firmware }
     tfind 7 s.macs = some (leBytes 6 0x0A0B0C0D0E0F) ∧ (leBytes 6 0x0A0B0C0D0E0F).length = 6 ∧ s.holder = .firmware ∧ 8191 < 8192) ∧
    (inTcm 0x2008 = false ∧ inSpm 0x2008 = false ∧ 0x2008 % 16 + 8 ≤ 16) ∧
    (let r : FarRead := { id := 2, op := 0, addr := 0xFFA00000001000, rmod := 7, rpasid := 5, raddr := 0x1000, len := 8 }
     ({ base with farReads := [r] } : State).farReads.find? (fun x => x.id == 2) = some r ∧ (List.replicate 8 1#8).length = r.len) := by
  and_intros <;> decide +kernel

/-- BranchResults, JumpResults and CodeHandles: of two levels, a transfer that leaves both, one that leaves only the
inner one, and one that leaves none; a jump without a link. -/
theorem wit_levels :
    let outer : LoopLevel := { start := 0x1000#64, stop := 0x2000#64, remaining := 2#64 }
    let inner : LoopLevel := { start := 0x1100#64, stop := 0x1200#64, remaining := 2#64 }
    (Inside inner 0x1104#64 ∧ Inside outer 0x1104#64 ∧ ¬ Inside inner 0x3000#64 ∧ ¬ Inside outer 0x3000#64) ∧
    (¬ Inside inner 0x1200#64 ∧ Inside outer 0x1200#64 ∧ Inside inner 0x11FC#64) ∧
    LevelsLeft 0x1104#64 0x3000#64 [inner, outer] [] ∧ LevelsLeft 0x1104#64 0x1200#64 [inner, outer] [outer] ∧
    Ready (.jal 3#20 0#5) base ∧ Ready (.jalr 8#15 1#5 0#5) base := by
  intro outer inner
  refine ⟨by decide, by decide, ⟨2, by decide, rfl, ?_, fun l h => by cases h⟩, ⟨1, by decide, rfl, ?_, ?_⟩, by decide, by decide⟩
  · intro j l hj h
    obtain rfl | rfl : j = 0 ∨ j = 1 := by omega
    all_goals cases h; decide
  · intro j l hj h
    obtain rfl : j = 0 := by omega
    cases h; decide
  · intro l h _
    cases h; decide

/-- CodeHandles: a return that gives up the one pin of a LIVE entry; one that waits for a page walk, and one whose
pool cannot be used. -/
theorem wit_unpin :
    let e := { pent0 with pins := 1 }
    let p : Pool := { base := 0x80000, nent := 1, ngran := 1, hdr := 0x180000 }
    let u : State := { pooled with mem := memWrite 0x180040 e.bytes pooled.mem }
    let s := (u.setReg 1#5 0x80100#64).modMe (fun c => { c with hstack := [chMake 1 0] })
    let far := s.modCore 0 (fun c => { c with utlb := [] })
    let unset := s.modCore 0 (fun c => { c with rcsize := 0#64 })
    Ready (.reth 1#5) s ∧ s.me.hstack = chMake 1 0 :: [] ∧ (unpin false s s.cur (chMake 1 0)).1 = true ∧
    myPool s = (.ok p, s) ∧ chIdx (chMake 1 0) < p.nent ∧
    poolEntry s (coreActor s s.myCore) p (chIdx (chMake 1 0)) = (.ok (0x180040, e), s) ∧
    0 < e.pins ∧ e.state ≠ 2 ∧ memWf s.mem = true ∧ isHome 0x180040 = true ∧ ({ e with pins := 2, state := 2 } : PEnt).pins = 2 ∧
    (unpin false far far.cur (chMake 1 0)).1 = false ∧
    (match (myPool unset).1 with | .error x => some x | .ok _ => none) = some .access := by
  and_intros <;> first | decide +kernel | rfl

/-- ContextExitAndJoin and ErrorEvents: a handle stack whose pin waits for a page walk. -/
theorem wit_pin_waits :
    let s := (pooled.modCore 0 (fun c => { c with utlb := [] })).modMe (fun c => { c with hstack := [chMake 1 0] })
    Ready (.hexit 1#5) s ∧ s.mine.helpers = [] ∧ (unpinAbove false (drainAll s s.cur) s.cur 0).1 = false ∧
    (unpinLaunch false s launch0).1 = false ∧ (unpinLaunch false base launch0).1 = true ∧ reclaiming s = false ∧
    reclaiming { base with reclaimState := 1#3 } = true := by
  and_intros <;> decide +kernel

/-- Messages and RoutineDispatch: a cluster that is being saved, for its launch and for another. -/
theorem wit_being_saved :
    let s := base.modCluster 0 (fun c => { c with saving := some (save0 [piece0]) })
    beingSaved base 1 1 = false ∧ beingSaved s 1 1 = true ∧ beingSaved s 2 1 = false := by
  decide

/-- Messages: a receiver in a handler, one that is frozen, one whose cluster is switched out with it at work and
with it exited, and one without the launch. -/
theorem wit_message_waits :
    let p (exited : Bool) : Suspended :=
      { launch := 1, claim := 0, savebase := 0, stride := 2 ^ 20, cores := [(1, { core0 with ctlExited := exited })], ctxs := [], rings := [] }
    let away (ps : List Suspended) : State :=
      (sending retry0 (fun c => { c with launch := none })).modCluster 0 (fun c => { c with suspended := ps })
    ((sending retry0 id).modCtx 16 (fun c => { c with xstatus := 1#64 }) |>.ctx (retry0.dst * 16)).it = true ∧
    ((sending retry0 id).modCtx 16 (fun c => { c with mode := .frozen }) |>.ctx (retry0.dst * 16)).mode = .frozen ∧
    ((away []).core retry0.dst).launch ≠ some 1 ∧
    (∀ x ∈ [false, true], ((away [p x]).cluster (clusterOfCore retry0.dst)).suspended.find? (fun y => y.launch == 1) = some (p x)) ∧
    ((away []).cluster (clusterOfCore retry0.dst)).suspended.find? (fun y => y.launch == 1) = none ∧
    (∀ x ∈ (p false).cores, ¬ (x.1 = retry0.dst ∧ x.2.ctlExited = true)) ∧ (p true).cores = [(retry0.dst, { core0 with ctlExited := true })] := by
  and_intros <;> decide

/-- QueueEvents: a held packet behind another of its queue, and alone. -/
theorem wit_asked_before :
    let h := { held0 with id := 10 }
    let s : State := { base with held := [held0, h], holder := .firmware }
    s.held = [held0] ++ h :: [] ∧ h.asked = true ∧ h.kind ≠ .qstat ∧ (∀ x ∈ [held0], x.id ≠ 10) ∧
    (∃ x ∈ [held0], x.key = h.key ∧ x.asked = true ∧ x.kind ≠ .qstat) ∧ askedBefore s held0 = false := by
  refine ⟨rfl, by decide, by decide, by decide, ⟨held0, by decide⟩, by decide⟩

/-- ErrorEvents: a link that is fenced, and one that is not, which launch 1 uses. -/
theorem wit_fenced :
    3 ∈ ({ base with fenced := [3] } : State).fenced ∧ 3 ∉ base.fenced ∧ base.launch? 1 = some launch0 ∧ (2 : Nat) ∉ [1] := by
  decide

/-- TransportEvents: a read from another module of a unit that is poisoned, and of one that is not. -/
theorem wit_far_read :
    let s := mapped
    let u : State := { s with poison := [(0x102000 / 64, 0)] }
    s.power = true ∧ s.released = true ∧ (∀ q ∈ s.farIn, q.id ≠ s.nextId) ∧ poisoned s 0x102008 8 = false ∧ poisoned u 0x102008 8 = true ∧
    (locateNow s .io 0 5 .load 0x2008 8).1.toOption = some (.home 0x102008 none) ∧
    (locateNow u .io 0 5 .load 0x2008 8).1.toOption = some (.home 0x102008 none) := by
  and_intros <;> decide +kernel

/-- ResetsPowerAndTime: a reclaim that waits for the loader's command, and one that does not wait for the firmware's. -/
theorem wit_reclaim_waits :
    let s (code : Nat) : State := { base with reclaimState := 1#3, mbxCmd := some { code := code, result := 0, response := [] } }
    (∃ c, (s 0x3F).mbxCmd = some c ∧ c.code < 0x40) ∧ (∀ c, (s 0x40).mbxCmd = some c → 0x40 ≤ c.code) := by
  refine ⟨⟨_, rfl, by decide⟩, fun c h => by cases h; decide⟩

/-! ## Results: one step each, the expected values from the manual's worked cases -/

/-- The state after an outcome. -/
def after : Out → State
  | .next t => t
  | .fault _ => base
  | .refused _ => base

/-- R160 to R162: DIV of −7 by 2, DIVU and DIV.W as spec/07 works them. -/
theorem test_divisions :
    (after (exec (.div false 3#5 1#5 (.reg 2#5)) (withRegs [(1#5, -7#64), (2#5, 2#64)]))).reg 3#5 = -3#64 ∧
    (after (exec (.rem false 3#5 1#5 (.reg 2#5)) (withRegs [(1#5, -7#64), (2#5, 2#64)]))).reg 3#5 = -1#64 ∧
    (after (exec (.divu false 3#5 1#5 (.reg 2#5)) (withRegs [(1#5, -7#64), (2#5, 2#64)]))).reg 3#5 = 0x7FFFFFFFFFFFFFFC#64 ∧
    (after (exec (.div true 3#5 1#5 (.reg 2#5)) (withRegs [(1#5, 0x180000000#64), (2#5, -1#64)]))).reg 3#5 = 0xFFFFFFFF80000000#64 := by
  decide

/-- R162: a zero divisor traps with cause 0x07 and XVAL = s[a], and writes nothing. -/
theorem test_divide_by_zero :
    let t := after (exec (.div false 3#5 1#5 (.reg 2#5)) (withRegs [(1#5, 5#64), (3#5, 9#64)]))
    t.me.xcause = 0x07#64 ∧ t.me.xval = 5#64 ∧ t.reg 3#5 = 9#64 ∧ t.me.pc = 0xFFF00000000100#64 ∧ t.me.it = true := by decide

/-- R168: FADD.F32 of 1.0 and 2^−24 in the four modes, with NX. -/
theorem test_fadd_modes :
    (List.range 4).map (fun r =>
      let t := after (exec (.fadd (BitVec.ofNat 2 r) true 3#5 1#5 (.reg 2#5)) (withRegs [(1#5, 0x3F800000#64), (2#5, 0x33800000#64)]))
      (t.reg 3#5, t.me.fpflags)) =
    [(0x3F800000#64, 1#64), (0x3F800000#64, 1#64), (0x3F800000#64, 1#64), (0x3F800001#64, 1#64)] := by decide

/-- R170: FCVT kind 8 of 3.5 under RNE and RTZ, of −1.0e10, and of a quiet NaN. -/
theorem test_fcvt :
    [(0, 0x40600000), (1, 0x40600000), (0, 0xD01502F9), (0, 0x7FC00000)].map (fun p =>
      let t := after (exec (.fcvt (BitVec.ofNat 2 p.1) 8#5 3#5 1#5) (withRegs [(1#5, BitVec.ofNat 64 p.2)]))
      (t.reg 3#5, t.me.fpflags)) =
    [(4#64, 1#64), (3#64, 1#64), (0xFFFFFFFF80000000#64, 0x10#64), (0x7FFFFFFF#64, 0x10#64)] := by decide

/-- R193: conversions of f32 into bf16, e4m3 and e5m2 under RNE. -/
theorem test_conversions :
    [(2, 0x3F808000), (2, 0x3F818000), (4, 0x43960000), (4, 0x43FA0000), (5, 0x43FA0000), (5, 0x47C35000)].map
      (fun p => elemPut p.1 0 (elemNum 1 p.2)) = [0x3F80, 0x3F82, 0x79, 0x7E, 0x60, 0x7B] := by decide

/-- The elements of the block that spec/08 works. -/
def block0 : List Machine.Num := [0x40A00000, 0xBFA00000, 0x3E800000, 0x41200000].map (elemNum 1) ++ List.replicate 28 (elemNum 1 0)

/-- R198, R199: the four encodings of that block, and AUTO's. -/
theorem test_block :
    (List.range 4).map (fun t => let b := encodeBlock t 2 block0; (b.1.take 4, b.2.1 % 64, b.2.2.2)) =
      [([2, 15, 0, 5], 33, 0), ([4, 9, 0, 6], 33, 0), ([5, 11, 1, 6], 30, 1), ([4, 9, 0, 6], 32, 0)] ∧
    (let b := encodeAuto 2 block0
     blockBytes b.1 b.2.1 = [0xF2#8, 0x50#8] ++ List.replicate 14 0#8 ++ [0x21#8]) := by decide +kernel

/-- R202: the worked group, without its large terms, and with infinities of both signs. -/
theorem test_sum_group :
    let p (s : Bool) (m : Nat) (e : Int) : Machine.Num := .fin s m e
    sumGroup 0x30800000 [p false 1 20, p true 1 20, p false 3 (-28)] = 0x32000000 ∧
    sumGroup 0x30800000 [p false 3 (-28)] = 0x32500000 ∧
    sumGroup 0x30800000 [p false 1 20, p true 1 20, p false 3 (-28), .inf false, .inf true] = 0x7FC00000 := by decide

/-- R185: a REP of one ADD with scalar stride 1 sums s16 to s19 (its four steps at once, from the buffer). -/
theorem test_rep_rotation :
    (List.range 4).map (fun k => Instr.mapRegs (rotS (k * 1)) (rotH 0) (.add false 10#5 10#5 (.reg 16#5))) =
      [.add false 10#5 10#5 (.reg 16#5), .add false 10#5 10#5 (.reg 17#5), .add false 10#5 10#5 (.reg 18#5),
       .add false 10#5 10#5 (.reg 19#5)] := by decide

/-- R60 to R63: the walk that spec/03 works. -/
theorem test_walk :
    let s : State :=
      { base with pdirbase := 0x800000#64, pdircount := 0x100#64,
                  mem := memWrite 0x800420 (leBytes 8 0x1000001) (memWrite 0x1000000 (leBytes 8 0x1010001) (memWrite 0x1010408
                    (leBytes 8 0x1020001) (memWrite 0x1020028 (leBytes 8 0x1021001) (memWrite 0x1021018 (leBytes 8 0x3A80000F) [])))) }
    (ioStore s 0x42 0x00408A1C2040, ioStore s 0x43 0x00408A1C2040) = (some 0x3A842040, none) := by decide +kernel

/-- R80, R94: the view that spec/04 works, its first element, and HADV by one tile. -/
theorem test_view :
    let v := hMake 0x1200001234000000#64 0x0200010000200020#64 0x0000006000000040#64 0x0000000000200014#64
    hReason v false [1] = 0 ∧ elemAddr v 0 0 = 0x12340080C0 ∧ elemValid v 19 0 = true ∧ elemValid v 20 0 = false ∧
    hOrow ((after (exec (.hadv 0#2 4#5 2#4 2#4) (withH (withRegs [(4#5, 32#64)]) [(2#4, v)]))).hreg 2#4) = 96 := by decide

/-- R131: entry 17 of core 1,234 at generation 5. -/
theorem test_token :
    let o : Op := { op0 with core := 1234, idx := 17, gen := 5 }
    let s : State := { base with cores := [(1234, { core0 with gens := [(17, 5)] })], ops := [o] }
    tokenOp s (some 1) 0x4D200511#64 = some o := by decide

/-- R89: a copy that a restore brings back, its handles whole, and with its third no handle: its image stands at 128
of the record. -/
theorem test_restored_images :
    let o (c : HWord) : Op := { op0 with instr := .copy o0 3#4 1#4 4#5 5#5 6#5, hA := dense 1 0x1000 4 4, hC := c }
    (checkImages 0x400000 (o (dense 1 0x2000 4 4))).fin = none ∧
    (checkImages 0x400000 (o 0#256)).fin.map (fun f => (f.st, f.cause, f.addr)) = some (.faulted, 0x43, 0x400080) := by
  decide

/-- R348: of the registers and handles of a context that has named s5 and h2 live, the block holds those two. -/
theorem test_live_slots :
    let c : Ctx := { ctx0 with wait := some { what := .point none, since := 0, limit := 0, arrival := 0, instr := .preempt 2#5 0#5 0x400000020#48 } }
    let has (a : Nat) : Bool := (ctxRuns 0 c).any (fun r => decide (r.1 ≤ a) && decide (a < r.1 + r.2.length))
    [128, 128 + 8 * 3, 128 + 8 * 4, 128 + 8 * 5, 384 + 32, 384 + 64, 384 + 96, 0, 112, 896].map has =
      [false, false, true, false, false, true, false, true, true, true] := by
  decide +kernel

/-- R382: the stagger of a rank on die 9, cluster 2, core 5, and of the last core of the module. -/
theorem test_stagger : staggerOf ((9 * 8 + 2) * 8 + 5) = 106 ∧ staggerOf ((63 * 8 + 7) * 8 + 7) = 574 := by decide

/-- A queued VNEG over 4,096 elements of core c. -/
def negOp (c : Nat) : Op :=
  let o : Op := { op0 with id := c, core := c, vec := true, instr := .vneg 0#2 ov 3#4 1#4, pos := [0] }
  { o with hA := dense 1 0xFFF10000000000 64 64, hC := dense 1 0xFFF10000010000 64 64 }

/-- R227: eight strips of two queues with weights 3 and 1. -/
theorem test_vshare :
    let s0 := (withCore (fun c => { c with vshare := 3#64 })).modCore 1 (fun c => { c with vshare := 1#64 })
    let s : State := { s0 with ops := [negOp 0, negOp 1] }
    let t := (List.range 8).foldl (fun s _ => after (exec (.stripDispatch 0) s)) s
    t.ops.map Op.scr = [[0, 1, 2, 3, 4, 5], [0, 1]] ∧ (t.cluster 0).cvuPtr = 2 := by decide +kernel

/-- R176, R262: a store is seen by its own context before it is performed, and by memory only after. -/
theorem test_store_buffer :
    let s := withRegs [(1#5, 0xFFF00000000040#64), (2#5, 0x77#64)]
    let t := after (exec (.sti 0#10 0#2 false 1#5 2#5) s)
    (after (exec (.ldi 0#10 4#3 false 1#5 3#5) t)).reg 3#5 = 0x77#64 ∧ memGet (tcmHome 0 64) t.mem = 0#8 ∧
    memGet (tcmHome 0 64) (after (exec (.drain 0 0) t)).mem = 0x77#8 := by decide

/-- R178: AMOADD.W returns the old word sign-extended and wraps in 32 bits. -/
theorem test_amoadd :
    let s := withTcm (withRegs [(1#5, 0xFFF00000000040#64), (2#5, 2#64)]) 64 [0xFF#8, 0xFF#8, 0xFF#8, 0xFF#8]
    let t := after (exec (.amoAdd 4#3 3#2 true 2#5 1#5 3#5) s)
    t.reg 3#5 = -1#64 ∧ memRead (tcmHome 0 64) 8 t.mem = [1#8, 0#8, 0#8, 0#8, 0#8, 0#8, 0#8, 0#8] := by decide +kernel

/-- R20: with 8 accessible registers, ADD of s8 is the illegal-register trap with XVAL 8. -/
theorem test_illegal_register :
    let t := after (exec (.add false 8#5 1#5 (.reg 2#5)) (withMe (fun c => { c with acc := 8 })))
    t.me.xcause = 0x02#64 ∧ t.me.xval = 8#64 := by decide

/-- R335, R337: a trap and its return. -/
theorem test_trap_return :
    let t := after (exec (.trap 77#15) (withMe (fun c => { c with loops := [level0] })))
    t.me.xcause = 0x0D#64 ∧ t.me.xval = 77#64 ∧ t.me.loops = [] ∧ t.me.sav = true ∧
    (after (exec .eret t)).me.loops = [level0] ∧ (after (exec .eret t)).me.it = false ∧
    (after (exec .eret t)).me.pc = 0xFFF00000000000#64 := by decide

/-- SHA-384 of "abc", as FIPS 180-4 works it (R367). -/
theorem test_sha384 : sha384 [0x61#8, 0x62#8, 0x63#8] = beBytes 48
    0xcb00753f45a35e8bb5a03d699ac65007272c32ab0eded1631a8b605a43ff5bed8086072ba1e7cc2358baeca134c825a7 := by decide +kernel

end Sys2Proof.Tests
end

/-! SUPPORT. The bits of a handle with a word replaced, the field that HADV moves, and what HADV makes of a
view in each of the three cases of R94. -/

namespace Sys2Proof.HandleFields
open Sys2Proof Sys2Proof.Machine Sys2Proof.Claims

/-! ## Bits of a handle with a word replaced (R76) -/

/-- The bits of a word of a handle. -/
theorem getLsbD_hWord (h : HWord) (w : BitVec 2) (i : Nat) :
    (hWord h w).getLsbD i = (decide (i < 64) && h.getLsbD (64 * w.toNat + i)) := by
  simp [hWord, BitVec.getLsbD_extractLsb']

/-- A bit of a handle, read from the word it stands in. -/
theorem getLsbD_hWord_sub {h : HWord} {w : BitVec 2} {j : Nat} (h1 : 64 * w.toNat ≤ j) (h2 : j < 64 * w.toNat + 64) :
    (hWord h w).getLsbD (j - 64 * w.toNat) = h.getLsbD j := by
  rw [getLsbD_hWord, Nat.add_sub_cancel' h1]
  simp [show j - 64 * w.toNat < 64 by omega]

/-- The bits of a handle in terms of its four words. -/
theorem getLsbD_hMake (w0 w1 w2 w3 : DWord) (j : Nat) :
    (hMake w0 w1 w2 w3).getLsbD j =
      if j < 64 then w0.getLsbD j else if j < 128 then w1.getLsbD (j - 64)
      else if j < 192 then w2.getLsbD (j - 128) else w3.getLsbD (j - 192) := by
  simp only [hMake, BitVec.getLsbD_append, Nat.sub_sub]
  grind

/-- Replacing a word replaces its 64 bits and leaves the others. -/
theorem getLsbD_hSetWord (h : HWord) (w : BitVec 2) (v : DWord) (j : Nat) :
    (hSetWord h w v).getLsbD j =
      if 64 * w.toNat ≤ j ∧ j < 64 * w.toNat + 64 then v.getLsbD (j - 64 * w.toNat) else h.getLsbD j := by
  simp only [hSetWord, getLsbD_hMake]
  have hw : w = 0#2 ∨ w = 1#2 ∨ w = 2#2 ∨ w = 3#2 := by revert w; decide
  rcases hw with rfl | rfl | rfl | rfl <;>
    simp only [BitVec.reduceEq, ↓reduceIte, getLsbD_hWord, BitVec.toNat_ofNat] <;> grind

/-- Word `y` is word `x` with the number `m` in its `n` bits from `lo` on. -/
def HasField (x y : DWord) (lo n m : Nat) : Prop :=
  ∀ i, i < 64 → y.getLsbD i = if lo ≤ i ∧ i < lo + n then m.testBit (i - lo) else x.getLsbD i

/-- A number put below the rest of a word. -/
theorem hasField_low (x : DWord) (k n m : Nat) (h64 : k + n = 64) :
    HasField x ((x.extractLsb' k n ++ BitVec.ofNat k m).cast (by omega)) 0 k m := by
  intro i hi
  rw [BitVec.getLsbD_cast, BitVec.getLsbD_append, BitVec.getLsbD_ofNat, BitVec.getLsbD_extractLsb']
  by_cases hk : i < k
  · simp [hk]
  · simp [hk, show i - k < n by omega, show k + (i - k) = i by omega]

/-- A number put above the rest of a word. -/
theorem hasField_high (x : DWord) (m : Nat) :
    HasField x (BitVec.ofNat 32 m ++ x.extractLsb' 0 32) 32 32 m := by
  intro i hi
  rw [BitVec.getLsbD_append, BitVec.getLsbD_ofNat, BitVec.getLsbD_extractLsb']
  by_cases hk : i < 32
  · simp [hk, show ¬ 32 ≤ i by omega]
  · simp [hk, show 32 ≤ i by omega, show i - 32 < 32 by omega, hi]

/-- A word replaced by one with a new field: the handle has the new field, and its other bits stay. -/
theorem HasField.getLsbD_hSetWord {h : HWord} {w : BitVec 2} {y : DWord} {lo n m : Nat}
    (hy : HasField (hWord h w) y lo n m) (hn : lo + n ≤ 64) (j : Nat) :
    (hSetWord h w y).getLsbD j =
      if 64 * w.toNat + lo ≤ j ∧ j < 64 * w.toNat + lo + n then m.testBit (j - (64 * w.toNat + lo))
      else h.getLsbD j := by
  rw [HandleFields.getLsbD_hSetWord]
  by_cases hj : 64 * w.toNat ≤ j ∧ j < 64 * w.toNat + 64
  · obtain ⟨h1, h2⟩ := hj
    rw [if_pos ⟨h1, h2⟩, hy _ (by omega), getLsbD_hWord_sub h1 h2, Nat.sub_sub]
    exact ite_congr (propext (by omega)) (fun _ => rfl) (fun _ => rfl)
  · rw [if_neg hj, if_neg (by omega)]

/-! ## The field that HADV moves (R94) -/

/-- The view that HADV leaves when its field becomes `m`. -/
def moved (w : BitVec 2) (v : HWord) (m : Nat) : HWord :=
  if w = 0#2 then hSetWord v 2#2 ((hWord v 2#2).extractLsb' 32 32 ++ BitVec.ofNat 32 m)
  else if w = 1#2 then hSetWord v 2#2 (BitVec.ofNat 32 m ++ (hWord v 2#2).extractLsb' 0 32)
  else hSetBase v m

/-- OROW stands in the low half of word 2. -/
theorem moved_orow (v : HWord) (m : Nat) :
    moved 0#2 v m = hSetWord v 2#2 ((hWord v 2#2).extractLsb' 32 32 ++ BitVec.ofNat 32 m) := rfl

/-- OCOL stands in the high half of word 2. -/
theorem moved_ocol (v : HWord) (m : Nat) :
    moved 1#2 v m = hSetWord v 2#2 (BitVec.ofNat 32 m ++ (hWord v 2#2).extractLsb' 0 32) := rfl

/-- BASE is replaced as the model replaces it. -/
theorem moved_base (v : HWord) (m : Nat) : moved 2#2 v m = hSetBase v m := rfl

/-- HADV has the modes 0, 1 and 2 (R93). -/
theorem mode_cases {w : BitVec 2} (hw : w ≠ 3#2) : w = 0#2 ∨ w = 1#2 ∨ w = 2#2 := by
  revert w; decide

/-- The moved view holds `m` in the field's bits and the old view elsewhere. -/
theorem getLsbD_moved {w : BitVec 2} (hw : w ≠ 3#2) (v : HWord) (m j : Nat) :
    (moved w v m).getLsbD j =
      if (advBits w).1 ≤ j ∧ j < (advBits w).2 then m.testBit (j - (advBits w).1) else v.getLsbD j := by
  rcases mode_cases hw with rfl | rfl | rfl
  · exact (hasField_low _ 32 32 m rfl).getLsbD_hSetWord (by decide) j
  · exact (hasField_high _ m).getLsbD_hSetWord (by decide) j
  · exact (hasField_low _ 56 8 m rfl).getLsbD_hSetWord (by decide) j

/-- A field whose bits are those of a number that it can hold is that number. -/
theorem hf_eq_of_testBit {h : HWord} {lo n m : Nat} (hm : m < 2 ^ n)
    (hb : ∀ i, i < n → h.getLsbD (lo + i) = m.testBit i) : hf h lo n = m := by
  have hx : h.extractLsb' lo n = BitVec.ofNat n m := by
    apply BitVec.eq_of_getLsbD_eq
    intro i hi
    rw [BitVec.getLsbD_extractLsb', BitVec.getLsbD_ofNat, hb i hi]
  rw [hf, hx, BitVec.toNat_ofNat, Nat.mod_eq_of_lt hm]

/-- The field of each mode lies at the bits that R94 gives it. -/
theorem advField_eq_hf {w : BitVec 2} (hw : w ≠ 3#2) (h : HWord) :
    advField w h = hf h (advBits w).1 ((advBits w).2 - (advBits w).1) := by
  rcases mode_cases hw with rfl | rfl | rfl <;> rfl

/-- The moved view's field holds the number put there. -/
theorem advField_moved {w : BitVec 2} (hw : w ≠ 3#2) {v : HWord} {m : Nat}
    (hm : m < 2 ^ ((advBits w).2 - (advBits w).1)) : advField w (moved w v m) = m := by
  rw [advField_eq_hf hw, hf_eq_of_testBit hm]
  intro i hi
  rw [getLsbD_moved hw, if_pos (by omega), Nat.add_sub_cancel_left]

/-! ## What HADV makes of a view (R94) -/

/-- R94 in the terms of the statement: the type is checked first, then the sum. -/
def advanced (w : BitVec 2) (ha : HReg) (v : HWord) (x : DWord) : Except (Nat × DWord) HWord :=
  let n := advField w v + x.toInt
  if ¬ advType w (hType v) then .error (0x09, dw (ha.toNat * 256 + 9))
  else if ¬ advFits w v n then .error (0x0A, x)
  else .ok (moved w v n.toNat)

/-- A sum that is not negative, as the bits of a field. -/
theorem ofInt_eq_ofNat_toNat (k : Nat) {n : Int} (hn : 0 ≤ n) : BitVec.ofInt k n = BitVec.ofNat k n.toNat := by
  rw [← BitVec.ofInt_natCast, Int.toNat_of_nonneg hn]

/-- OROW takes what fits in 32 bits. -/
theorem advFits_orow (v : HWord) (n : Int) : advFits 0#2 v n ↔ 0 ≤ n ∧ n < 2 ^ 32 := by
  simp [advFits, advBits]

/-- OCOL takes what fits in 32 bits, of a QTILE the multiples of 32. -/
theorem advFits_ocol (v : HWord) (n : Int) :
    advFits 1#2 v n ↔ 0 ≤ n ∧ n < 2 ^ 32 ∧ (hType v = 3 → n % 32 = 0) := by
  simp [advFits, advBits]

/-- BASE takes what fits in 56 bits, of a WINDOW what keeps bits [55:32]. -/
theorem advFits_base (v : HWord) (n : Int) :
    advFits 2#2 v n ↔ 0 ≤ n ∧ n < 2 ^ 56 ∧ (hType v = 6 → n / 2 ^ 32 = (hBase v : Int) / 2 ^ 32) := by
  simp [advFits, advBits]

/-! In each mode the model tests the sum's sign before its upper bound, and puts the sum into the field as a signed
number: for a sum that is not negative that is the number itself, and a negative one traps on both sides. -/

/-- Mode 0 as the statement gives it: OROW. -/
theorem hadv_orow (ha : HReg) (v : HWord) (x : DWord) : hadv 0#2 ha v x = advanced 0#2 ha v x := by
  have ht : advType 0#2 (hType v) ↔ hType v = 1 ∨ hType v = 3 := Iff.rfl
  have hn : advField 0#2 v = hOrow v := rfl
  simp only [hadv, advanced, ↓reduceIte, hn, ht, advFits_orow, moved_orow]
  generalize (hOrow v : Int) + x.toInt = n
  by_cases h0 : 0 ≤ n
  · rw [ofInt_eq_ofNat_toNat 32 h0]
    generalize hSetWord v 2#2 _ = v'
    grind
  · simp [h0, Int.not_le.1 h0]

/-- Mode 1 as the statement gives it: OCOL. -/
theorem hadv_ocol (ha : HReg) (v : HWord) (x : DWord) : hadv 1#2 ha v x = advanced 1#2 ha v x := by
  have ht : advType 1#2 (hType v) ↔ hType v = 1 ∨ hType v = 3 := Iff.rfl
  have hn : advField 1#2 v = hOcol v := rfl
  simp only [hadv, advanced, BitVec.reduceEq, ↓reduceIte, hn, ht, advFits_ocol, moved_ocol]
  generalize (hOcol v : Int) + x.toInt = n
  by_cases h0 : 0 ≤ n
  · rw [ofInt_eq_ofNat_toNat 32 h0]
    generalize hSetWord v 2#2 _ = v'
    grind
  · simp [h0, Int.not_le.1 h0]

/-- Mode 2 as the statement gives it: BASE. -/
theorem hadv_base (ha : HReg) (v : HWord) (x : DWord) : hadv 2#2 ha v x = advanced 2#2 ha v x := by
  have ht : advType 2#2 (hType v) ↔ hType v = 1 ∨ hType v = 3 ∨ hType v = 4 ∨ hType v = 5 ∨ hType v = 6 := Iff.rfl
  have hn : advField 2#2 v = hBase v := rfl
  simp only [hadv, advanced, BitVec.reduceEq, ↓reduceIte, hn, ht, advFits_base, moved_base]
  generalize (hBase v : Int) + x.toInt = n
  by_cases h0 : 0 ≤ n
  · obtain ⟨m, rfl⟩ := Int.eq_ofNat_of_zero_le h0
    grind
  · simp [h0, Int.not_le.1 h0, and_assoc]

/-- In every mode HADV is what the statement says. -/
theorem hadv_eq_advanced {w : BitVec 2} (hw : w ≠ 3#2) (ha : HReg) (v : HWord) (x : DWord) :
    hadv w ha v x = advanced w ha v x := by
  rcases mode_cases hw with rfl | rfl | rfl
  · exact hadv_orow ha v x
  · exact hadv_ocol ha v x
  · exact hadv_base ha v x

/-- Settles O26: the three cases of R94, by the type and by the sum. -/
theorem handleAdvance : Obligations.HandleAdvance := by
  unfold Obligations.HandleAdvance
  intro w r ha hd s hw hr
  simp only [exec_hadv, execHadv, run_ready hr, hadv_eq_advanced hw, advanced]
  refine ⟨fun ht => ?_, fun ht hf => ?_, fun ht hf => ?_⟩
  · rw [if_pos ht]; rfl
  · rw [if_neg (Classical.not_not.2 ht), if_pos hf]; rfl
  · rw [if_neg (Classical.not_not.2 ht), if_neg (Classical.not_not.2 hf)]
    obtain ⟨h0, hlt, -⟩ := hf
    refine ⟨_, rfl, ?_, fun j hj => ?_⟩
    · rw [advField_moved hw ((Int.toNat_lt h0).2 (by exact_mod_cast hlt)), Int.toNat_of_nonneg h0]
    · rw [getLsbD_moved hw, if_neg (by omega)]

end Sys2Proof.HandleFields

/-! SUPPORT. The divisions of R160 to R162 in the terms of the statement: their quotients and remainders as
integers, the same in both widths, and the trap on a zero divisor. -/

namespace Sys2Proof.Divisions
open Sys2Proof Sys2Proof.Machine Sys2Proof.Claims

/-! ## Quotients and remainders in n bits (R160, R162) -/

/-- The quotient toward zero; the one that n bits do not hold, of the most negative value by −1, wraps. -/
theorem opDiv_eq_tdiv (n : Nat) (x y : BitVec n) : opDiv n x y = BitVec.ofInt n (x.toInt.tdiv y.toInt) := by
  apply BitVec.eq_of_toInt_eq
  rw [opDiv, BitVec.toInt_sdiv, BitVec.toInt_ofInt]

/-- The remainder with the sign of x. -/
theorem opRem_eq_tmod (n : Nat) (x y : BitVec n) : opRem n x y = BitVec.ofInt n (x.toInt.tmod y.toInt) := by
  rw [opRem, ← BitVec.toInt_srem, BitVec.ofInt_toInt]

/-- The unsigned quotient. -/
theorem opDivu_eq_div (n : Nat) (x y : BitVec n) : opDivu n x y = BitVec.ofNat n (x.toNat / y.toNat) := by
  rw [opDivu, BitVec.udiv_eq, ← BitVec.toNat_udiv, BitVec.ofNat_toNat, BitVec.setWidth_eq]

/-- The unsigned remainder. -/
theorem opRemu_eq_mod (n : Nat) (x y : BitVec n) : opRemu n x y = BitVec.ofNat n (x.toNat % y.toNat) := by
  rw [opRemu, BitVec.umod_eq, ← BitVec.toNat_umod, BitVec.ofNat_toNat, BitVec.setWidth_eq]

/-! ## Both widths at once (R161) -/

/-- The low half of an integer's 64 bits is its 32 bits. -/
theorem setWidth_ofInt64 (z : Int) : (BitVec.ofInt 64 z).setWidth 32 = BitVec.ofInt 32 z := by
  apply BitVec.eq_of_toNat_eq
  simp only [BitVec.toNat_setWidth, BitVec.toNat_ofInt]
  omega

/-- An operation that is one function of the signed operands at every width: its W form reads the low halves as
signed and extends the low half of the result. -/
theorem wide2_signed {f : (n : Nat) → BitVec n → BitVec n → BitVec n} {g : Int → Int → Int}
    (h : ∀ n (x y : BitVec n), f n x y = BitVec.ofInt n (g x.toInt y.toInt)) (w : Bool) (x y : DWord) :
    wide2 w f x y = wide w (BitVec.ofInt 64 (g (wide w x).toInt (wide w y).toInt)) := by
  cases w with
  | false => exact h 64 x y
  | true =>
    apply signExtend_low32
    simp only [wide, if_true, toInt_low32, setWidth_ofInt64, h]

/-- What a W form reads, as an unsigned number: the low half. -/
theorem toNat_reads_low (x : DWord) : (reads true x).toNat = (x.setWidth 32).toNat := by
  rw [reads, if_pos rfl, and_low32, BitVec.toNat_setWidth_of_le (by decide)]

/-- An operation that is one function of the unsigned operands at every width: its W form reads the low halves as
unsigned and extends the low half of the result. -/
theorem wide2_unsigned {f : (n : Nat) → BitVec n → BitVec n → BitVec n} {g : Nat → Nat → Nat}
    (h : ∀ n (x y : BitVec n), f n x y = BitVec.ofNat n (g x.toNat y.toNat)) (w : Bool) (x y : DWord) :
    wide2 w f x y = wide w (BitVec.ofNat 64 (g (reads w x).toNat (reads w y).toNat)) := by
  cases w with
  | false => exact h 64 x y
  | true =>
    apply signExtend_low32
    rw [h, toNat_reads_low, toNat_reads_low, BitVec.setWidth_ofNat_of_le (by decide)]

/-! ## The trap (R162) -/

/-- A division by a divisor that is zero, as the form reads it, traps with XVAL = s[a]. -/
theorem divOp_zero {i w d a b f s} (hr : Ready i s) (hz : reads w (s.opB b) = 0#64) :
    divOp i w d a b f s = .next (takeTrap s s.cur i.len 0x07 (s.reg a)) := by
  have hread : if w then (s.opB b).setWidth 32 = 0#32 else s.opB b = 0#64 := by
    cases w with
    | false => exact hz
    | true => exact BitVec.eq_of_toNat_eq (by rw [← toNat_reads_low, hz]; rfl)
  rw [divOp, run_ready hr]
  exact if_pos hread

/-- A division whose checks pass: the value for a divisor that is not zero, the trap for one that is. -/
theorem divOp_ready {i w d a b f s} {v : DWord} (hr : Ready i s) (hv : wide2 w f (s.reg a) (s.opB b) = v) :
    (reads w (s.opB b) ≠ 0#64 → divOp i w d a b f s = .next (retire i (s.setReg d v))) ∧
    (reads w (s.opB b) = 0#64 → divOp i w d a b f s = .next (takeTrap s s.cur i.len 0x07 (s.reg a))) :=
  ⟨fun hz => divOp_next hr hz hv, divOp_zero hr⟩

/-- The instructions that have a division's result are DIV, DIVU, REM and REMU. -/
theorem divResult_cases {s : State} {i : Instr} {r : SReg × DWord × DWord} (h : divResult s i = some r) :
    ∃ w d a b, i = .div w d a b ∨ i = .divu w d a b ∨ i = .rem w d a b ∨ i = .remu w d a b := by
  unfold divResult at h
  split at h
  case h_1 w d a b => exact ⟨w, d, a, b, .inl rfl⟩
  case h_2 w d a b => exact ⟨w, d, a, b, .inr (.inl rfl)⟩
  case h_3 w d a b => exact ⟨w, d, a, b, .inr (.inr (.inl rfl))⟩
  case h_4 w d a b => exact ⟨w, d, a, b, .inr (.inr (.inr rfl))⟩
  case h_5 => cases h

/-- Settles O3: each division is its function of the operands at every width, and its divisor is tested as the form
reads it. -/
theorem divisionResults : Obligations.DivisionResults := by
  unfold Obligations.DivisionResults
  intro i s d y v h hr
  obtain ⟨w, d', a, b, rfl | rfl | rfl | rfl⟩ := divResult_cases h <;> cases h
  · rw [exec_div]; exact divOp_ready hr (wide2_signed opDiv_eq_tdiv w _ _)
  · rw [exec_divu]; exact divOp_ready hr (wide2_unsigned opDivu_eq_div w _ _)
  · rw [exec_rem]; exact divOp_ready hr (wide2_signed opRem_eq_tmod w _ _)
  · rw [exec_remu]; exact divOp_ready hr (wide2_unsigned opRemu_eq_mod w _ _)

end Sys2Proof.Divisions
